-- ==== Sys2Proof/Word.lean ====
section
/-!
DEFINITION. The bit-level types of the TFC-832's frames: a byte and a two-byte number, and their values.
-/

namespace Sys2Proof

/-- One byte of a trunk or lane frame (spec/12). -/
abbrev Byte := BitVec 8

/-- A tag or another two-byte number of a frame (spec/12). -/
abbrev Half := BitVec 16

end Sys2Proof
end

