-- ==== Sys2Proof/Syntax.lean ====
section
/-!
DEFINITION. The commands of the TFC-832: one constructor per row of spec/opcode_table.json.
A trunk command carries its frame's tag and payload bytes, a lane frame the lane it arrives on and its fields,
a timer expiry the lane, card or bus whose timer it is. What the bytes mean is decided by the meanings.
-/

namespace Sys2Proof

/-- The eight lanes, 0 to 7 (spec/00 Conventions). -/
abbrev LaneId := Fin 8
/-- The eight buses, 0 to 7. -/
abbrev Bus := Fin 8
/-- The four switch cards, 0 to 3. -/
abbrev CardId := Fin 4

/-- The commands, in the order of the table. -/
inductive Instr where
  /-- Power-up, or the RESET pin (R155). -/
  | powerReset
  /-- The LID pin changes from closed to open (R156). -/
  | lidOpens
  /-- The LID pin changes from open to closed (R158). -/
  | lidCloses
  /-- The 500 ms lid quiet timer expires (R158). -/
  | lidQuietTimerExpiry
  /-- The filtered TRIP_IN pin takes a level: asserted or not (R55). -/
  | tripInChange (asserted : Bool)
  /-- A filtered fixture line FX0 to FX3 takes a level (R55). -/
  | fxChange (line : Fin 4) (asserted : Bool)
  /-- The 10 microseconds of a MARK pulse are over (R106). -/
  | markPulseEnd
  /-- A trunk frame whose check fails or whose length field is above 1,024 (R186). -/
  | trunkFrameDiscard (bytes : List Byte)
  /-- A checked trunk frame of a kind that is no command kind (R187). -/
  | badKind (tag : Half) (kind : Byte) (payload : List Byte)
  /-- A command frame that arrives while 32 responses wait (R188). -/
  | responseListFull (tag : Half) (kind : Byte) (payload : List Byte)
  /-- STEP (R64). -/
  | step (tag : Half) (payload : List Byte)
  /-- Entry `pos` of a TABLE WRITE frame that names the SITE table (R5, R190). -/
  | tableWriteSite (tag : Half) (payload : List Byte) (pos : Nat)
  /-- The same for the NET table (R11). -/
  | tableWriteNet (tag : Half) (payload : List Byte) (pos : Nat)
  /-- The same for the BUS table (R43). -/
  | tableWriteBus (tag : Half) (payload : List Byte) (pos : Nat)
  /-- The same for the CARD table (R37). -/
  | tableWriteCard (tag : Half) (payload : List Byte) (pos : Nat)
  /-- The same for the SCALE table (R110). -/
  | tableWriteScale (tag : Half) (payload : List Byte) (pos : Nat)
  /-- The same for the LIMIT table (R124). -/
  | tableWriteLimit (tag : Half) (payload : List Byte) (pos : Nat)
  /-- The same for the DISPOSITION table (R130). -/
  | tableWriteDisposition (tag : Half) (payload : List Byte) (pos : Nat)
  /-- The same for the WEAR table (R38). -/
  | tableWriteWear (tag : Half) (payload : List Byte) (pos : Nat)
  /-- The same for the MARK table (R105). -/
  | tableWriteMark (tag : Half) (payload : List Byte) (pos : Nat)
  /-- TABLE READ (R191). -/
  | tableRead (tag : Half) (payload : List Byte)
  /-- BUS ABORT (R86). -/
  | busAbort (tag : Half) (payload : List Byte)
  /-- BUS RESUME (R87). -/
  | busResume (tag : Half) (payload : List Byte)
  /-- CLEAR TRIP (R60). -/
  | clearTrip (tag : Half) (payload : List Byte)
  /-- SUPPLY (R167). -/
  | supply (tag : Half) (payload : List Byte)
  /-- RESUME (R159). -/
  | resume (tag : Half) (payload : List Byte)
  /-- SERVICE ENTER (R160). -/
  | serviceEnter (tag : Half) (payload : List Byte)
  /-- SERVICE EXIT (R161). -/
  | serviceExit (tag : Half) (payload : List Byte)
  /-- RACK RESET (R196). -/
  | rackReset (tag : Half) (payload : List Byte)
  /-- PANEL BEGIN (R136). -/
  | panelBegin (tag : Half) (payload : List Byte)
  /-- PANEL END (R137). -/
  | panelEnd (tag : Half) (payload : List Byte)
  /-- FLOW HOLD (R152). -/
  | flowHold (tag : Half) (payload : List Byte)
  /-- FLOW RELEASE (R152). -/
  | flowRelease (tag : Half) (payload : List Byte)
  /-- LANE RESET (R181). -/
  | laneReset (tag : Half) (payload : List Byte)
  /-- LANE OFF (R182). -/
  | laneOff (tag : Half) (payload : List Byte)
  /-- LANE ON (R182). -/
  | laneOn (tag : Half) (payload : List Byte)
  /-- LANE TEST (R183). -/
  | laneTest (tag : Half) (payload : List Byte)
  /-- GUARD STATUS (R62, R169). -/
  | guardStatus (tag : Half) (payload : List Byte)
  /-- LANE STATUS (R185). -/
  | laneStatus (tag : Half) (payload : List Byte)
  /-- BUS STATUS (R90, R107). -/
  | busStatus (tag : Half) (payload : List Byte)
  /-- SITE STATUS (R169). -/
  | siteStatus (tag : Half) (payload : List Byte)
  /-- PANEL STATUS (R141). -/
  | panelStatus (tag : Half) (payload : List Byte)
  /-- The last byte of the frame in the transmitter has been sent (R189). -/
  | frameSent
  /-- A lane frame whose check fails (R171, R176). -/
  | badFrame (lane : LaneId) (bytes : List Byte)
  /-- A lane frame whose check agrees, of a kind or length the lane does not accept (R171, R198). -/
  | laneFrameDiscard (lane : LaneId) (bytes : List Byte)
  /-- DONE (R23). -/
  | done (lane : LaneId) (orderTag : Byte)
  /-- REJECT (R24). -/
  | reject (lane : LaneId) (orderTag reason : Byte)
  /-- PRESENCE: bit k says whether block k of the card is present (R163). -/
  | presence (lane : LaneId) (mask : Byte)
  /-- TRIP: a channel byte and a state byte (R54). -/
  | trip (lane : LaneId) (channel state : Byte)
  /-- ACK: a channel byte and the command it acknowledges (R50). -/
  | ack (lane : LaneId) (channel command : Byte)
  /-- READING: channel, take tag, index, range byte and signed 24-bit raw value (R76). -/
  | reading (lane : LaneId) (channel takeTag index range : Byte) (raw : BitVec 24)
  /-- PROBE (R173). -/
  | probe (lane : LaneId)
  /-- IDENT of the partner: kind, channel count, bus rows, columns (R174). -/
  | ident (lane : LaneId) (kind channels rows columns : Byte)
  /-- CLEARED (R175). -/
  | cleared (lane : LaneId)
  /-- RESYNC of the partner: kind, channel count (R178). -/
  | resync (lane : LaneId) (kind channels : Byte)
  /-- A frame that returns through the loop inside the part in TEST (R184). -/
  | testFrame (lane : LaneId) (bytes : List Byte)
  /-- The 8 ms down timer of a lane expires (R172). -/
  | downTimerExpiry (lane : LaneId)
  /-- The 8 ms probe timer of a lane expires (R173). -/
  | probeTimerExpiry (lane : LaneId)
  /-- The 4 ms training timer of a lane expires (R174, R175). -/
  | trainingTimeout (lane : LaneId)
  /-- 8 ms have passed since a lane in RECOVER last sent RESYNC (R178). -/
  | resyncResend (lane : LaneId)
  /-- The 50 ms resync timer of a lane expires (R178). -/
  | resyncTimerExpiry (lane : LaneId)
  /-- The 1 ms test return timer of a lane expires (R184). -/
  | testReturnTimeout (lane : LaneId)
  /-- The 20 ms timer of a card's pending order expires (R25). -/
  | orderTimeout (card : CardId)
  /-- The 200 ms block wait timer of a bus expires (R33). -/
  | blockWaitExpiry (bus : Bus)
  /-- The 10 ms acknowledgement timer of a bus's source record expires (R51). -/
  | ackTimeout (bus : Bus)
  /-- The settle timer of a bus context expires (R72). -/
  | settleTimerExpiry (bus : Bus)
  /-- The measure timer of a bus context expires (R77). -/
  | measureTimeout (bus : Bus)
  deriving DecidableEq, Repr

end Sys2Proof
end

