-- ==== Sys2Proof/Decode.lean ====
section
/-!
DEFINITION. Words of the command table. spec/opcode_table.json gives none of its 67 rows any bits ("fields": []
and no fixed bits), so no word spells a command.
-/

namespace Sys2Proof

/-- The command a word spells by the table's bits: none, since no row has bits (log 29). -/
def decodeTableWord (_nbits _w : Nat) : Option Instr := none

end Sys2Proof
end

