-- ==== Sys2Proof/Config.lean ====
section
/-!
DEFINITION. What the manual leaves open and the model must not choose: constants with no body, about which
nothing can be proved but what holds for every value.
-/

namespace Sys2Proof.Config

/-- The milliseconds left on the lid quiet timer at the n-th time GUARD STATUS reports them (R169). The model has
no clock, so the value is free; in WAITING the meaning bounds it by 500 (log 4). -/
opaque lidTimeLeft : Nat → Half

end Sys2Proof.Config
end

