-- ==== Sys2Proof/Machine/State.lean ====
section
/-!
DEFINITION. The state of the TFC-832, block by block as spec/00 (Block overview) gives each block its state,
and the state after power reset. All of it is plain data.
-/

namespace Sys2Proof.Machine

/-! ### Numbers of things (spec/00 Conventions) -/

/-- Board sites, 0 to 31. -/
abbrev Site := Fin 32
/-- Point blocks, 0 to 31. -/
abbrev Block := Fin 32
/-- Nets, 0 to 63. -/
abbrev Net := Fin 64
/-- Fixture points, 0 to 255. -/
abbrev Pt := Fin 256
/-- Instrument channels, 0 to 3. -/
abbrev Chan := Fin 4

/-! ### Tables -/

/-- A SITE entry (R3). -/
structure SiteEntry where
  enabled : Bool
  col : Fin 8
  row : Fin 8
  block : Block
  deriving DecidableEq, Repr

/-- The kinds of net (R10). -/
inductive NetKind where
  | force | sense | reference
  deriving DecidableEq, Repr

/-- A NET entry (R10): pin count 0 to 4, four offsets, kind, settle time in ms. -/
structure NetEntry where
  pinCount : Fin 5
  offsets : Vector (Fin 8) 4
  kind : NetKind
  settle : Nat
  deriving DecidableEq, Repr

/-- The kinds of bus (R42). -/
inductive BusKind where
  | source | measure | reference
  deriving DecidableEq, Repr

/-- The guard sources a bus may select (R42, R55). -/
inductive GuardSource where
  | off | instrument | rackLine | fixture (line : Fin 4) | forced
  deriving DecidableEq, Repr

/-- A BUS entry (R42). -/
structure BusEntry where
  enabled : Bool
  kind : BusKind
  lane : LaneId
  channel : Chan
  scaleBase : Fin 32
  guardSource : GuardSource
  deriving DecidableEq, Repr

/-- A CARD entry (R37): its lane or NONE, and its wear limit. -/
structure CardEntry where
  lane : Option LaneId
  wearLimit : Nat
  deriving DecidableEq, Repr

/-- A SCALE entry (R109): signed gain and offset, shift 0 to 24, unit code. -/
structure ScaleEntry where
  gain : BitVec 16
  shift : Fin 25
  offset : BitVec 32
  unit : Fin 16
  deriving DecidableEq, Repr

/-- Which bounds of a LIMIT entry are judged (R123). -/
inductive LimitMode where
  | both | lowOnly | highOnly | record
  deriving DecidableEq, Repr

/-- A LIMIT entry (R123): signed bounds, guard band, disposition row. -/
structure LimitEntry where
  mode : LimitMode
  low : BitVec 32
  high : BitVec 32
  guardBand : Nat
  row : Fin 16
  deriving DecidableEq, Repr

/-- The actions of a disposition (R130, R132). -/
inductive Action where
  | proceed | skipSite | haltBus
  deriving DecidableEq, Repr

/-- A DISPOSITION entry (R130). -/
structure DispEntry where
  bin : Fin 64
  action : Action
  attention : Bool
  deriving DecidableEq, Repr

/-- The MARK entry (R105). -/
structure MarkEntry where
  enabled : Bool
  bus : Bus
  site : Site
  deriving DecidableEq, Repr

/-- The table store. WEAR is not here: a wear count is part of its crosspoint's record (R18, R38). -/
structure Tables where
  sites : Vector SiteEntry 32
  nets : Vector NetEntry 64
  buses : Vector BusEntry 8
  cards : Vector CardEntry 4
  scales : Vector ScaleEntry 32
  limits : Vector LimitEntry 256
  disps : Vector DispEntry 80
  mark : MarkEntry
  deriving DecidableEq, Repr

/-! ### Crosspoint matrix -/

/-- The states of a crosspoint (R18). -/
inductive XState where
  | opn | reserved | closing | closed | opening | unknown
  deriving DecidableEq, Repr

/-- A crosspoint record (R18). -/
structure XRec where
  state : XState
  wear : Nat
  mark : Bool
  deriving DecidableEq, Repr

/-- The record of every crosspoint after power reset (R18). -/
def XRec.initial : XRec := { state := .opn, wear := 0, mark := false }

/-- The four ways an order arises (R21). A make order closes; the three others open. -/
inductive OrderKind where
  | make | brk | recovery | emergency
  deriving DecidableEq, Repr

/-- An order of one card and one bus row (R21). `answers` says that the bus's outstanding request still waits for
it: false for recovery and emergency opens, and for an order whose request was withdrawn or cut off (R31). -/
structure Order where
  kind : OrderKind
  bus : Bus
  points : List Pt
  answers : Bool
  deriving DecidableEq, Repr

/-- The pending order of a card with the tag its ORDER frame took (R21, R22). Its 20 ms timer runs. -/
structure PendingOrder where
  tag : Byte
  order : Order
  deriving DecidableEq, Repr

/-- What the matrix controller holds for a card (R21, R22, R24). -/
structure CardCtl where
  nextTag : Byte
  pending : Option PendingOrder
  priority : List Order
  ordinary : List Order
  rejectReason : Option Byte
  deriving DecidableEq, Repr

/-- The crosspoint matrix controller. `xps` lists the crosspoints, by the number 256x + p of R2, whose record
differs from `XRec.initial`. The waiter sets of R32 are the points the buses' make requests wait for. -/
structure Matrix where
  xps : List (Nat × XRec)
  cards : Vector CardCtl 4
  deriving DecidableEq, Repr

/-! ### Records and verdicts -/

/-- The verdicts, in the order of the DISPOSITION columns (R130). -/
inductive Verdict where
  | pass | marginal | failLow | failHigh | invalid
  deriving DecidableEq, Repr

/-- The causes of INVALID (R129). -/
inductive Cause where
  | notAvailable | lane | orderFail | conflict | timeout | trip | departed | aborted
  deriving DecidableEq, Repr

/-- The flags of a record (06, spec/12). -/
structure Flags where
  z : Bool
  n : Bool
  v : Bool
  w : Bool
  s : Bool
  deriving DecidableEq, Repr

/-- A MEASURE record carries a value, or for INVALID a cause (spec/12). -/
inductive MeasBody where
  | value (v : Int)
  | invalid (c : Cause)
  deriving DecidableEq, Repr

/-- A MEASURE record (R78, R131). -/
structure MeasRec where
  flags : Flags
  panel : Byte
  bus : Bus
  tag : Half
  site : Option Site
  ordinal : Nat
  verdict : Verdict
  bin : Fin 64
  samples : Nat
  unit : Fin 16
  folded : Nat
  body : MeasBody
  deriving DecidableEq, Repr

/-- How a sweep ended (R99). -/
inductive EndKind where
  | complete | windowEnd | aborted
  deriving DecidableEq, Repr

/-- What an END pending holds: panel number, folds and flag S are added when it is placed and appended (R99, R145). -/
structure EndInfo where
  tag : Half
  judged : Nat
  kind : EndKind
  deriving DecidableEq, Repr

/-- An END record (R99). -/
structure EndRec where
  s : Bool
  panel : Byte
  bus : Bus
  info : EndInfo
  folded : Nat
  deriving DecidableEq, Repr

/-- The three kinds of record of the result queue (R142). -/
inductive Rec where
  | measure (r : MeasRec)
  | fold (count : Nat) (s : Bool)
  | sweepEnd (r : EndRec)
  deriving DecidableEq, Repr

/-! ### Bus contexts -/

/-- The order of a walk (R93). -/
inductive Axis where
  | rows | columns
  deriving DecidableEq, Repr

/-- A window of the fixture grid (R92). -/
structure Window where
  c0 : Fin 8
  c1 : Fin 8
  r0 : Fin 8
  r1 : Fin 8
  deriving DecidableEq, Repr

/-- The site selections of a MEASURE step (R63). -/
inductive Selection where
  | single (site : Site)
  | sweepStart (window : Window) (axis : Axis) (count : Nat)
  | sweepContinue (count : Nat)
  deriving DecidableEq, Repr

/-- What a step asks for: the fields its kind uses (R63). -/
inductive Work where
  | measure (sel : Selection) (net : Net) (limit : Fin 256) (k d timeout : Nat) (hold : Bool)
  | connect (site : Site) (net : Net)
  | release
  deriving DecidableEq, Repr

/-- A step (R63). -/
structure Step where
  tag : Half
  work : Work
  deriving DecidableEq, Repr

/-- The fourteen states of a context (R66), in the order of 04 4.2. -/
inductive CtxState where
  | idle | quieting | breaking | blocked | making | settling | restoring | measuring | posting
  | holding | releasing | suspended | tripped | halted
  deriving DecidableEq, Repr

/-- The record that resolution leaves (R14). The columns are the points less 64 times the card. -/
structure Target where
  points : List Pt
  block : Block
  kind : NetKind
  settle : Nat
  deriving DecidableEq, Repr

/-- The status of a sweep record (R92). -/
inductive SweepStatus where
  | none | running | complete | windowEnd | aborted
  deriving DecidableEq, Repr

/-- A sweep record (R92). A cursor of none is BEFORE_START. -/
structure Sweep where
  status : SweepStatus
  window : Window
  axis : Axis
  cursor : Option (Fin 8 × Fin 8)
  count : Nat
  judged : List Site
  deriving DecidableEq, Repr

/-- The sweep record in status NONE, with the values it reports (R92). -/
def Sweep.initial : Sweep :=
  { status := .none, window := ⟨0, 0, 0, 0⟩, axis := .rows, cursor := none, count := 0, judged := [] }

/-- The states of a source record (R47). The acknowledgement timer runs in the two GOING states. -/
inductive SrcState where
  | quiet | goingLive | live | goingQuiet | unsure
  deriving DecidableEq, Repr

/-- The four resume points (R66). -/
inductive Resume where
  | none | redo | next | halted
  deriving DecidableEq, Repr

/-- The destinations of RELEASING (R83). -/
inductive Dest where
  | idle | halted
  deriving DecidableEq, Repr

/-- A make request that is outstanding: its card, its target, and the points it still waits for. The block wait
timer runs while `waiting` is not empty (R28, R33). -/
structure MakeReq where
  card : CardId
  points : List Pt
  waiting : List Pt
  deriving DecidableEq, Repr

/-- A break or release request that is outstanding: the points whose order must end first, and the failures of
the orders that have ended (R30, R31). -/
structure OpenReq where
  awaiting : List Pt
  laneFailed : Bool
  orderFailed : Bool
  deriving DecidableEq, Repr

/-- An outstanding request of a context (R66). -/
inductive Request where
  | quiet
  | live
  | make (r : MakeReq)
  | opens (r : OpenReq)
  deriving DecidableEq, Repr

/-- What a context does when its judged site is off its hands: nothing, the record's action (R79), or going to
RELEASING after BUS ABORT (R86). -/
inductive After where
  | none
  | act (a : Action)
  | abort
  deriving DecidableEq, Repr

/-- One entry of an accumulator (R116). -/
structure Sample where
  index : Nat
  value : Int
  v : Bool
  unit : Fin 16
  deriving DecidableEq, Repr

/-- What a context captures at TAKE (R74, R111). -/
structure Capture where
  limit : LimitEntry
  scales : Vector ScaleEntry 8
  worn : Bool
  deriving DecidableEq, Repr

/-- A record in the outgoing slot, with whether R144 may fold it: PASS under a mode other than RECORD. A filled
slot is a waiting offer (R146). -/
structure Slot where
  record : Rec
  foldable : Bool
  deriving DecidableEq, Repr

/-- A bus context with its step queue (R65, R66). `relFail` is the first failed request of a release while the step lasts
(R85). -/
structure Ctx where
  queue : List Step
  state : CtxState
  step : Option Step
  site : Option Site
  net : Option Net
  target : Option Target
  heldNet : Option Net
  inFlight : Option Site
  sweep : Sweep
  slot : Option Slot
  endPending : Option EndInfo
  after : After
  lastOk : Bool
  source : SrcState
  takeTag : Byte
  acc : List Sample
  captured : Option Capture
  settleTimer : Option Nat
  measureTimer : Option Nat
  resume : Resume
  request : Option Request
  dest : Dest
  relDone : Bool
  relFail : Option Cause
  deriving DecidableEq, Repr

/-- A context after power reset (R66). -/
def Ctx.initial : Ctx :=
  { queue := [], state := .idle, step := none, site := none, net := none, target := none, heldNet := none,
    inFlight := none, sweep := Sweep.initial, slot := none, endPending := none, after := .none, lastOk := false,
    source := .quiet, takeTag := 0#8, acc := [], captured := none, settleTimer := none, measureTimer := none,
    resume := .none, request := none, dest := .idle, relDone := false, relFail := none }

/-! ### Result queue -/

/-- The result queue (R142, R143, R147). -/
structure ResultQueue where
  records : List Rec
  foldCount : Nat
  saturated : Bool
  compact : Bool
  deriving DecidableEq, Repr

/-! ### Guard and rack-state unit -/

/-- The causes of SAFE (R154). -/
inductive SafeCause where
  | startup | interlock | reset
  deriving DecidableEq, Repr

/-- The rack state (R154). -/
inductive Rack where
  | safe (c : SafeCause)
  | ready
  | service
  deriving DecidableEq, Repr

/-- The interlock state (R158). The lid quiet timer runs in WAITING. -/
inductive Interlock where
  | opn | waiting | clear
  deriving DecidableEq, Repr

/-- The presence of a point block (R162). -/
inductive Presence where
  | present | absent | unknown
  deriving DecidableEq, Repr

/-- The guard and rack-state unit. `lidOpen`, `tripIn` and `fx` are the filtered pin levels; trip state 4l + c of
`instTrips` is that of lane l, channel c (R54). -/
structure Guard where
  rack : Rack
  interlock : Interlock
  lidOpen : Bool
  tripIn : Bool
  fx : Vector Bool 4
  trips : Vector Bool 8
  instTrips : Vector Bool 32
  presence : Vector Presence 32
  arrival : Vector Bool 32
  departure : Vector Bool 32
  supply : Vector Bool 32
  deriving DecidableEq, Repr

/-! ### Panel unit -/

/-- The panel states (R135). -/
inductive PanelState where
  | none | opn | closing | closed
  deriving DecidableEq, Repr

/-- The states of a site verdict record, by severity (R133). -/
inductive SiteState where
  | untested | passing | marginal | incomplete | failed
  deriving DecidableEq, Repr

/-- A site verdict record (R133). -/
structure SiteVerdict where
  state : SiteState
  firstBin : Fin 64
  judged : Nat
  fails : Nat
  skip : Bool
  deriving DecidableEq, Repr

/-- A site verdict record after power reset (R133). -/
def SiteVerdict.initial : SiteVerdict :=
  { state := .untested, firstBin := 0, judged := 0, fails := 0, skip := false }

/-- The panel unit (R135); `foldPending` is the closing FOLD of R138. -/
structure Panel where
  state : PanelState
  number : Byte
  foldPending : Bool
  verdicts : Vector SiteVerdict 32
  deriving DecidableEq, Repr

/-! ### Lanes -/

/-- The lane states (R170). -/
inductive LaneState where
  | off | down | detect | train | active | recover | test
  deriving DecidableEq, Repr

/-- What a partner declared (R170). -/
inductive Partner where
  | none | card | instrument
  deriving DecidableEq, Repr

/-- Why a lane last left ACTIVE or RECOVER (R170). -/
inductive LossCause where
  | none | errors | cardRequest | resyncTimeout | resyncMismatch | reset | off
  deriving DecidableEq, Repr

/-- Why the last training failed (R170). -/
inductive TrainFault where
  | none | timeout | badIdent
  deriving DecidableEq, Repr

/-- The two phases of training (R174, R175). -/
inductive Phase where
  | identification | clearing
  deriving DecidableEq, Repr

/-- A lane record (R170). The timer of each state runs while the lane is in it. `testCount` is the n of a test,
`testSent` and `testMatched` its progress (R184). -/
structure Lane where
  state : LaneState
  partner : Partner
  channels : Fin 5
  errors : Nat
  loss : LossCause
  fault : TrainFault
  phase : Phase
  testCount : Nat
  testSent : Nat
  testMatched : Nat
  deriving DecidableEq, Repr

/-- A lane after power reset (R170). -/
def Lane.initial : Lane :=
  { state := .detect, partner := .none, channels := 0, errors := 0, loss := .none, fault := .none,
    phase := .identification, testCount := 0, testSent := 0, testMatched := 0 }

/-- The frames the part sends on a lane (spec/12, 12.2). -/
inductive LaneFrame where
  | probe
  | ident
  | allOpen
  | quietAll
  | resync
  | order (tag : Byte) (close : Bool) (bus : Bus) (columns : List (Fin 64))
  | supply (mask : Byte)
  | quiet (channel : Chan)
  | live (channel : Chan)
  | take (channel : Chan) (tag : Byte) (readings : Nat)
  | cancel (channel : Chan) (tag : Byte)
  | test (seq : Byte)
  deriving DecidableEq, Repr

/-! ### Trunk controller -/

/-- The attention classes, best priority first (R194). -/
inductive AttnClass where
  | guard | lane | step | site | progress
  deriving DecidableEq, Repr

/-- The attention set (R194). -/
@[ext] structure AttnSet where
  guard : Bool
  lane : Bool
  step : Bool
  site : Bool
  progress : Bool
  deriving DecidableEq, Repr

/-- No class pending. -/
def AttnSet.empty : AttnSet := ⟨false, false, false, false, false⟩

/-- The status codes (R187). -/
inductive Status where
  | ok | badKind | badLength | badValue | badIndex | full | inUse | state | panel | busy | asserted
  deriving DecidableEq, Repr

/-- What a response held at its place in the list waits for (R188): the test of a lane (R184), or the entry of its own
TABLE WRITE after the first `applied` ones (R190; log 9). -/
inductive Holder where
  | lane (l : LaneId)
  | write (payload : List Byte) (applied : Nat)
  deriving DecidableEq, Repr

/-- A response not yet sent (R188). -/
structure Resp where
  tag : Half
  kind : Byte
  status : Status
  data : List Byte
  heldBy : Option Holder
  deriving DecidableEq, Repr

/-- The frame in the transmitter (R189). A RESULT frame's record is still the queue's head while `queued`; a RACK
RESET takes it out (R151, R153). -/
inductive TxFrame where
  | attention (seq : Half) (highest : Option AttnClass) (set : AttnSet)
  | response (r : Resp)
  | result (seq : Half) (r : Rec) (queued : Bool)
  deriving DecidableEq, Repr

/-- The trunk controller (11). -/
structure Trunk where
  responses : List Resp
  tx : Option TxFrame
  resultSeq : Half
  attnSeq : Half
  attn : AttnSet
  lastReported : Option AttnClass
  flowHold : Bool
  deriving DecidableEq, Repr

/-! ### Consequences still to be handled in the running command (the model's own, log 6) -/

/-- Work of the matrix controller: a freed point for the arbiter (R32), a card whose next order may go (R22). -/
inductive MatrixWork where
  | point (p : Pt)
  | send (c : CardId)
  deriving DecidableEq, Repr

/-- What refuses a make or a live request, or withdraws a make order: the rack is SAFE, or the bus is tripped
(R27, R29, R31, R49). -/
inductive Bar where
  | safe | trip
  deriving DecidableEq, Repr

/-- What a context is told: answers to its requests (R31, R50, R51), or to look again at what it may do now. -/
inductive Mail where
  | makeDone (x : Bus)
  | makeFailed (x : Bus) (c : Cause)
  | makeRefused (x : Bus) (why : Bar)
  | opened (x : Bus) (failure : Option Cause)
  | quieted (x : Bus) (ok : Bool)
  | lived (x : Bus) (ok : Bool)
  | poke (x : Bus)
  deriving DecidableEq, Repr

/-! ### The machine -/

/-- The whole part. `out` holds the lane frames the last command sent, oldest first (log 8); `matrixWork` and
`mail` are empty between commands (log 6); `freeCount` is the counter of the free values (log 4); `pending` is the
queue of commands (log 2). -/
structure State where
  trunk : Trunk
  tables : Tables
  matrix : Matrix
  ctxs : Vector Ctx 8
  queue : ResultQueue
  guard : Guard
  panel : Panel
  lanes : Vector Lane 8
  markHigh : Bool
  out : List (LaneId × LaneFrame)
  matrixWork : List MatrixWork
  mail : List Mail
  freeCount : Nat
  pending : List Instr
  deriving DecidableEq, Repr

/-- The model stops with a fault nowhere: the manual gives every command of the part an effect (INVENTORY.md,
Faults). The type is empty. -/
inductive Fault where
  deriving DecidableEq, Repr

/-- Why a command is refused by the model. -/
inductive Refusal where
  /-- Raised by an arm of `exec` for a command that has no meaning yet; no arm does. Safe: the model stops. -/
  | notModelled (mnemonic : String)
  deriving DecidableEq, Repr

/-! ### Power-reset values, table by table -/

/-- The tables after power reset (R3, R10, R42, R37, R109, R123, R130, R105). -/
def Tables.initial : Tables :=
  { sites := Vector.replicate 32 { enabled := false, col := 0, row := 0, block := 0 }
    nets := Vector.replicate 64 { pinCount := 0, offsets := Vector.replicate 4 0, kind := .force, settle := 0 }
    buses := Vector.replicate 8
      { enabled := false, kind := .measure, lane := 0, channel := 0, scaleBase := 0, guardSource := .off }
    cards := Vector.replicate 4 { lane := none, wearLimit := 0 }
    scales := Vector.replicate 32 { gain := 0#16, shift := 0, offset := 0#32, unit := 0 }
    limits := Vector.replicate 256 { mode := .record, low := 0#32, high := 0#32, guardBand := 0, row := 0 }
    disps := Vector.replicate 80 { bin := 0, action := .proceed, attention := false }
    mark := { enabled := false, bus := 0, site := 0 } }

/-- The matrix controller after power reset (R18, R21, R22, R24). -/
def Matrix.initial : Matrix :=
  { xps := []
    cards := Vector.replicate 4
      { nextTag := 0#8, pending := none, priority := [], ordinary := [], rejectReason := none } }

/-- The result queue after power reset (R142, R143, R147). -/
def ResultQueue.initial : ResultQueue := { records := [], foldCount := 0, saturated := false, compact := false }

/-- The guard unit after power reset, for the pin levels that stand at the end of the reset (R154, R155, R56, R54,
R162, R164, R166): the interlock follows the LID level. -/
def Guard.initial (lidOpen tripIn : Bool) (fx : Vector Bool 4) : Guard :=
  { rack := .safe .startup
    interlock := if lidOpen then .opn else .waiting
    lidOpen := lidOpen, tripIn := tripIn, fx := fx
    trips := Vector.replicate 8 false
    instTrips := Vector.replicate 32 false
    presence := Vector.replicate 32 .unknown
    arrival := Vector.replicate 32 false
    departure := Vector.replicate 32 false
    supply := Vector.replicate 32 false }

/-- The panel unit after power reset (R133, R135). -/
def Panel.initial : Panel :=
  { state := .none, number := 0#8, foldPending := false, verdicts := Vector.replicate 32 SiteVerdict.initial }

/-- The trunk controller after power reset (R186, R188, R189, R194, R195, R152). The transmitter is free: a frame that was
being sent is cut off, R189's "reset" being read as RACK RESET (DEDUCED, log 44). -/
def Trunk.initial : Trunk :=
  { responses := [], tx := none, resultSeq := 0#16, attnSeq := 0#16, attn := AttnSet.empty, lastReported := none,
    flowHold := false }

/-- The part after a power reset that ends with these pin levels: every lane has sent its first PROBE (R170), shown from
lane 0 to lane 7 (DESIGN CHOICE, log 41). -/
def State.initial (lidOpen tripIn : Bool) (fx : Vector Bool 4) (freeCount : Nat) (pending : List Instr) : State :=
  { trunk := Trunk.initial
    tables := Tables.initial
    matrix := Matrix.initial
    ctxs := Vector.replicate 8 Ctx.initial
    queue := ResultQueue.initial
    guard := Guard.initial lidOpen tripIn fx
    panel := Panel.initial
    lanes := Vector.replicate 8 Lane.initial
    markHigh := false
    out := [(0, .probe), (1, .probe), (2, .probe), (3, .probe), (4, .probe), (5, .probe), (6, .probe), (7, .probe)]
    matrixWork := []
    mail := []
    freeCount := freeCount
    pending := pending }

/-- The machine right after power reset, with the lid closed and no trip pin asserted (DESIGN CHOICE: the pins are
inputs and have no reset value, log 3). -/
def State.reset : State := State.initial false false (Vector.replicate 4 false) 0 []

end Sys2Proof.Machine
end

