-- ==== Sys2Proof/Machine/Flags.lean ====
section
/-!
DEFINITION. Reading arithmetic, flags and verdicts (spec/06, spec/07 7.2): exact integers throughout.
-/

namespace Sys2Proof.Machine

/-- The ends of the result range (R114). -/
def maxResult : Int := 2147483647
/-- The lower end of the result range (R114). -/
def minResult : Int := -2147483648

/-- A number with the sign of `p` and this magnitude (R113, R117). -/
def withSign (p : Int) (m : Nat) : Int := if p < 0 then -(m : Int) else (m : Int)

/-- The second stage: divide by 2^s, to nearest, ties away from zero (R113). -/
def shiftRound (p : Int) (s : Nat) : Int :=
  if s = 0 then p else withSign p ((p.natAbs + 2 ^ (s - 1)) / 2 ^ s)

/-- Stages one to three: product, shifted quotient, offset, all exact (R112, R113, R114). -/
def scaled (e : ScaleEntry) (raw : Int) : Int := shiftRound (raw * e.gain.toInt) e.shift.val + e.offset.toInt

/-- The fourth stage: the one clamp, with the V mark (R114). -/
def clamp (v : Int) : Int × Bool :=
  if maxResult < v then (maxResult, true) else if v < minResult then (minResult, true) else (v, false)

/-- The sample of a counted reading with its V mark; the overload override takes its sign from the raw value
(R112 to R115). -/
def sampleOf (e : ScaleEntry) (raw : Int) (overload : Bool) : Int × Bool :=
  if overload then (if 0 ≤ raw then maxResult else minResult, true) else clamp (scaled e raw)

/-- The exact sum of the sample values (R117). -/
def sampleSum (acc : List Sample) : Int := (acc.map (·.value)).sum

/-- The average: to nearest, ties away from zero (R117). -/
def average (acc : List Sample) : Int :=
  let k := acc.length
  withSign (sampleSum acc) ((2 * (sampleSum acc).natAbs + k) / (2 * k))

/-- The unit code is that of the lowest counted index (R118). -/
def unitOf (acc : List Sample) (d : Nat) : Fin 16 :=
  match acc.find? (fun m => m.index == d) with
  | some m => m.unit
  | none => 0

/-- The flags of a completed take, S clear (R119, R120, R121, R122). -/
def flagsOf (avg : Int) (acc : List Sample) (worn : Bool) : Flags :=
  { z := avg == 0, n := decide (avg < 0), v := acc.any (·.v), w := worn, s := false }

/-- The verdict of a completed take (R125 to R128). -/
def verdictOf (e : LimitEntry) (v : Int) (vFlag : Bool) : Verdict :=
  let low := e.low.toInt
  let high := e.high.toInt
  let gb : Int := e.guardBand
  if e.mode = .record then .pass
  else if vFlag then (if 0 ≤ v then .failHigh else .failLow)
  else
    match e.mode with
    | .both =>
      if v < low then .failLow
      else if high < v then .failHigh
      else if v < low + gb || high - gb < v then .marginal
      else .pass
    | .lowOnly => if v < low then .failLow else if v < low + gb then .marginal else .pass
    | .highOnly => if high < v then .failHigh else if high - gb < v then .marginal else .pass
    | .record => .pass

/-- The DISPOSITION column of a verdict (R130). -/
def Verdict.column : Verdict → Fin 5
  | .pass => 0
  | .marginal => 1
  | .failLow => 2
  | .failHigh => 3
  | .invalid => 4

/-- The number of a DISPOSITION entry: 5r + c (R130). -/
def dispNo (row : Fin 16) (v : Verdict) : Fin 80 := ⟨5 * row.val + v.column.val, by omega⟩

/-- The severity of a site state (R133). -/
def SiteState.severity : SiteState → Nat
  | .untested => 0
  | .passing => 1
  | .marginal => 2
  | .incomplete => 3
  | .failed => 4

/-- The site state a verdict gives (R133). -/
def Verdict.siteState : Verdict → SiteState
  | .pass => .passing
  | .marginal => .marginal
  | .failLow | .failHigh => .failed
  | .invalid => .incomplete

/-- The more severe of two site states (R134). -/
def SiteState.worse (a b : SiteState) : SiteState := if a.severity < b.severity then b else a

/-- A site verdict record after a judgement (R134). -/
def SiteVerdict.judge (r : SiteVerdict) (v : Verdict) (d : DispEntry) : SiteVerdict :=
  { state := r.state.worse v.siteState
    firstBin := if r.firstBin = 0 then d.bin else r.firstBin
    judged := min (r.judged + 1) 65535
    fails := if v = .failLow || v = .failHigh then min (r.fails + 1) 65535 else r.fails
    skip := r.skip || d.action == .skipSite }

end Sys2Proof.Machine
end

