-- ==== Sys2Proof/Machine/Wire.lean ====
section
/-!
DEFINITION. Byte order, the two frame checks, and the frames as bytes (spec/12): what both directions share.
-/

namespace Sys2Proof.Machine

/-- The one byte of a number below 256. -/
def byte (n : Nat) : Byte := BitVec.ofNat 8 n

/-- Yes and no are 1 and 0 (spec/12). -/
def yesNo (b : Bool) : Byte := if b then 1#8 else 0#8

/-- A number below `n`, if it is one. -/
def fin? (n v : Nat) : Option (Fin n) := if h : v < n then some ⟨v, h⟩ else none

/-- A yes or no byte, if it is one (R197). -/
def yesNo? (v : Nat) : Option Bool := if v = 1 then some true else if v = 0 then some false else none

/-- A two-byte number, least significant byte first (spec/12). -/
def le16 (n : Nat) : List Byte := [byte n, byte (n / 256)]

/-- A four-byte number, least significant byte first (spec/12). -/
def le32 (n : Nat) : List Byte := [byte n, byte (n / 256), byte (n / 65536), byte (n / 16777216)]

/-- A signed four-byte number in two's complement (spec/12). -/
def leInt32 (v : Int) : List Byte := le32 (BitVec.ofInt 32 v).toNat

/-- Byte `i` of a payload; the callers have checked the length (R187). -/
def byteAt (p : List Byte) (i : Nat) : Nat := ((p[i]?).getD 0#8).toNat

/-- The two-byte number at offset `i`. -/
def numAt16 (p : List Byte) (i : Nat) : Nat := byteAt p i + 256 * byteAt p (i + 1)

/-- The four-byte number at offset `i`. -/
def numAt32 (p : List Byte) (i : Nat) : Nat := numAt16 p i + 65536 * numAt16 p (i + 2)

/-- The polynomial x^16 + x^12 + x^5 + 1, one bit: shift left, and divide where a bit falls out. -/
def crc16Bit (c : Half) : Half := if c.msb then (c <<< 1) ^^^ 0x1021#16 else c <<< 1

/-- One byte enters the trunk check, most significant bit first (spec/12, 12.1). -/
def crc16Byte (c : Half) (b : Byte) : Half :=
  (List.range 8).foldl (fun c _ => crc16Bit c) (c ^^^ (b.zeroExtend 16 <<< 8))

/-- The CRC-16 of a trunk frame: initial value FFFFh, not inverted (spec/12, 12.1). -/
def crc16 (bytes : List Byte) : Half := bytes.foldl crc16Byte 0xFFFF#16

/-- The polynomial x^8 + x^2 + x + 1, one bit. -/
def crc8Bit (c : Byte) : Byte := if c.msb then (c <<< 1) ^^^ 0x07#8 else c <<< 1

/-- One byte enters the lane check, most significant bit first and not inverted, as spec/12 says of the trunk's check
only (DEDUCED, log 42). -/
def crc8Byte (c b : Byte) : Byte := (List.range 8).foldl (fun c _ => crc8Bit c) (c ^^^ b)

/-- The check of a lane frame: initial value 00h (spec/12, 12.2). -/
def crc8 (bytes : List Byte) : Byte := bytes.foldl crc8Byte 0x00#8

/-- A trunk frame as bytes: kind, tag, payload length, payload, check (spec/12, 12.1). -/
def trunkFrameBytes (kind : Byte) (tag : Half) (payload : List Byte) : List Byte :=
  let body := kind :: le16 tag.toNat ++ le16 payload.length ++ payload
  body ++ le16 (crc16 body).toNat

/-- Whether received bytes are a trunk frame that passes R186: a length field of at most 1,024, that many
payload bytes, and a check that agrees. -/
def goodTrunkFrame (bytes : List Byte) : Bool :=
  let len := numAt16 bytes 3
  len ≤ 1024 && bytes.length == len + 7 && numAt16 bytes (len + 5) == (crc16 (bytes.take (len + 5))).toNat

/-- The twenty-four command kinds, 01h to 18h (spec/12, 12.1; R187). -/
def isCommandKind (kind : Byte) : Bool := 1 ≤ kind.toNat && kind.toNat ≤ 24

/-- Whether received bytes are a good lane frame: the last byte is the check of the others (R171). -/
def goodLaneFrame (bytes : List Byte) : Bool :=
  match bytes.getLast? with
  | none => false
  | some c => crc8 bytes.dropLast == c

/-- Whether a lane frame has the kind and the length of a frame that a partner may send an ACTIVE lane as
traffic: DONE, REJECT, PRESENCE, ACK, READING, TRIP (R171, R198; the check byte is counted). -/
def isTrafficForm (bytes : List Byte) : Bool :=
  match byteAt bytes 0 with
  | 0x11 => bytes.length == 3
  | 0x12 => bytes.length == 4
  | 0x14 => bytes.length == 3
  | 0x22 => bytes.length == 4
  | 0x25 => bytes.length == 9
  | 0x26 => bytes.length == 4
  | _ => false

/-- The test frame of sequence number `seq`: kind 30h, the number, and the pattern of number and complement
(spec/12, 12.2; R184), with its check. -/
def testFrameBytes (seq : Byte) : List Byte :=
  let body := [0x30#8, seq, seq, ~~~seq, seq, ~~~seq]
  body ++ [crc8 body]

end Sys2Proof.Machine
end

