-- ==== Sys2Proof/Machine/Ops.lean ====
section
/-!
DEFINITION. The named operations over the state: reading and writing one context, crosspoint, card, lane, table
entry or site record, posting work, raising attention, sending a lane frame, and the lookups and queries by which
the blocks ask each other (R4, R20, R46).
-/

namespace Sys2Proof.Machine

/-! ### The crosspoint list -/

/-- The record of crosspoint number `k`: that of `XRec.initial` where the list has none. -/
def Sparse.get : List (Nat × XRec) → Nat → XRec
  | [], _ => XRec.initial
  | (k', v) :: rest, k => if k' = k then v else Sparse.get rest k

/-- Insert before the first larger number. -/
def Sparse.insert : List (Nat × XRec) → Nat → XRec → List (Nat × XRec)
  | [], k, v => [(k, v)]
  | (k', v') :: rest, k, v => if k < k' then (k, v) :: (k', v') :: rest else (k', v') :: Sparse.insert rest k v

/-- Set the record of crosspoint number `k`; the initial record is not listed. -/
def Sparse.set (m : List (Nat × XRec)) (k : Nat) (v : XRec) : List (Nat × XRec) :=
  if v = XRec.initial then m.filter (fun e => e.1 ≠ k) else Sparse.insert (m.filter (fun e => e.1 ≠ k)) k v

/-- The canonical form: numbers strictly rising, and no listed record equal to the initial one. -/
def Sparse.wf (m : List (Nat × XRec)) : Bool :=
  decide ((m.map Prod.fst).Pairwise (· < ·)) && m.all (fun e => e.2 ≠ XRec.initial)

/-! ### Geometry (R1, R2) -/

/-- All buses in rising order. -/
def allBuses : List Bus := List.finRange 8
/-- All points in rising order. -/
def allPoints : List Pt := List.finRange 256
/-- All sites in rising order. -/
def allSites : List Site := List.finRange 32
/-- All cards in rising order. -/
def allCards : List CardId := List.finRange 4
/-- All lanes in rising order. -/
def allLanes : List LaneId := List.finRange 8

/-- The number of the crosspoint that joins bus `x` to point `p` (R2). -/
def xpNo (x : Bus) (p : Pt) : Nat := 256 * x.val + p.val

/-- The point at offset `o` of block `b` (R1). -/
def pointOf (b : Block) (o : Fin 8) : Pt := ⟨8 * b.val + o.val, by omega⟩

/-- The block a point lies in (R1). -/
def blockOf (p : Pt) : Block := ⟨p.val / 8, by omega⟩

/-- The card that serves a point (R2). -/
def cardOf (p : Pt) : CardId := ⟨p.val / 64, by omega⟩

/-- The card that serves a block (R2). -/
def cardOfBlock (b : Block) : CardId := ⟨b.val / 8, by omega⟩

/-- The column of a point on its card (R2). -/
def columnOf (p : Pt) : Fin 64 := ⟨p.val % 64, by omega⟩

/-- Block `k` of card `c` (R2, R163). -/
def blockOnCard (c : CardId) (k : Fin 8) : Block := ⟨8 * c.val + k.val, by omega⟩

/-! ### Reading and writing one thing -/

/-- The context of a bus. -/
def State.ctx (s : State) (x : Bus) : Ctx := s.ctxs[x]

/-- Replace the context of a bus. -/
def State.setCtx (s : State) (x : Bus) (c : Ctx) : State := { s with ctxs := s.ctxs.set x c }

/-- Change the context of a bus. -/
def State.modCtx (s : State) (x : Bus) (f : Ctx → Ctx) : State := s.setCtx x (f (s.ctx x))

/-- A lane record. -/
def State.lane (s : State) (l : LaneId) : Lane := s.lanes[l]

/-- Replace a lane record. -/
def State.setLane (s : State) (l : LaneId) (v : Lane) : State := { s with lanes := s.lanes.set l v }

/-- The BUS entry of a bus. -/
def State.busEntry (s : State) (x : Bus) : BusEntry := s.tables.buses[x]

/-- The SITE entry of a site. -/
def State.siteEntry (s : State) (t : Site) : SiteEntry := s.tables.sites[t]

/-- The NET entry of a net. -/
def State.netEntry (s : State) (n : Net) : NetEntry := s.tables.nets[n]

/-- The CARD entry of a card. -/
def State.cardEntry (s : State) (c : CardId) : CardEntry := s.tables.cards[c]

/-- The order counter, pending order and lists of a card. -/
def State.card (s : State) (c : CardId) : CardCtl := s.matrix.cards[c]

/-- Replace what the matrix controller holds for a card. -/
def State.setCard (s : State) (c : CardId) (k : CardCtl) : State :=
  { s with matrix := { s.matrix with cards := s.matrix.cards.set c k } }

/-- The record of the crosspoint of bus `x` and point `p`. -/
def State.xp (s : State) (x : Bus) (p : Pt) : XRec := Sparse.get s.matrix.xps (xpNo x p)

/-- Replace a crosspoint record. -/
def State.setXp (s : State) (x : Bus) (p : Pt) (r : XRec) : State :=
  { s with matrix := { s.matrix with xps := Sparse.set s.matrix.xps (xpNo x p) r } }

/-- Change the records of the crosspoints of bus `x` at these points. -/
def State.modXps (s : State) (x : Bus) (ps : List Pt) (f : XRec → XRec) : State :=
  ps.foldl (fun s p => s.setXp x p (f (s.xp x p))) s

/-- The trip flag of a bus (R56). -/
def State.tripped (s : State) (x : Bus) : Bool := s.guard.trips[x]

/-- Set or clear the trip flag of a bus. -/
def State.setTripped (s : State) (x : Bus) (b : Bool) : State :=
  { s with guard := { s.guard with trips := s.guard.trips.set x b } }

/-- The number of the trip state of a lane and channel (R54). -/
def tripNo (l : LaneId) (ch : Chan) : Fin 32 := ⟨4 * l.val + ch.val, by omega⟩

/-- The supply record of a site (R166). -/
def State.supplyOn (s : State) (t : Site) : Bool := s.guard.supply[t]

/-- Set the supply record of a site. -/
def State.setSupply (s : State) (t : Site) (b : Bool) : State :=
  { s with guard := { s.guard with supply := s.guard.supply.set t b } }

/-- The presence of a block (R162). -/
def State.blockPresence (s : State) (b : Block) : Presence := s.guard.presence[b]

/-- Set the presence of a block. -/
def State.setPresence (s : State) (b : Block) (v : Presence) : State :=
  { s with guard := { s.guard with presence := s.guard.presence.set b v } }

/-- The presence of a site is that of its block (R162). -/
def State.sitePresence (s : State) (t : Site) : Presence := s.blockPresence (s.siteEntry t).block

/-- The verdict record of a site (R133). -/
def State.verdict (s : State) (t : Site) : SiteVerdict := s.panel.verdicts[t]

/-- Replace the verdict record of a site. -/
def State.setVerdict (s : State) (t : Site) (v : SiteVerdict) : State :=
  { s with panel := { s.panel with verdicts := s.panel.verdicts.set t v } }

/-- The rack is SAFE (R154). -/
def State.isSafe (s : State) : Bool :=
  match s.guard.rack with
  | .safe _ => true
  | _ => false

/-- The rack is READY (R154). -/
def State.isReady (s : State) : Bool := decide (s.guard.rack = .ready)

/-! ### Posting and sending -/

/-- A command begins: the lane frames of the one before it are no longer shown (log 8). -/
def State.begin (s : State) : State := { s with out := [] }

/-- A frame goes out on a lane. -/
def State.emit (s : State) (l : LaneId) (f : LaneFrame) : State := { s with out := s.out ++ [(l, f)] }

/-- Post something to a context. -/
def State.post (s : State) (m : Mail) : State := { s with mail := s.mail ++ [m] }

/-- Freed points go to the arbiter in rising order over the whole event (R32), then the cards' next orders follow, first
in first out (DEDUCED, log 6). -/
def MatrixWork.before : MatrixWork → MatrixWork → Bool
  | .point p, .point q => decide (p < q)
  | .point _, .send _ => true
  | .send _, _ => false

/-- Put one piece of work in its place. -/
def insertWork (l : List MatrixWork) (w : MatrixWork) : List MatrixWork :=
  l.takeWhile (fun v => !w.before v) ++ w :: l.dropWhile (fun v => !w.before v)

/-- Leave work to the matrix controller (R32; log 6). -/
def State.pushWork (s : State) (w : List MatrixWork) : State := { s with matrixWork := w.foldl insertWork s.matrixWork }

/-- Make an attention class pending (R194). -/
def AttnSet.raised (a : AttnSet) : AttnClass → AttnSet
  | .guard => { a with guard := true }
  | .lane => { a with lane := true }
  | .step => { a with step := true }
  | .site => { a with site := true }
  | .progress => { a with progress := true }

/-- Clear an attention class (R194). -/
def AttnSet.cleared (a : AttnSet) : AttnClass → AttnSet
  | .guard => { a with guard := false }
  | .lane => { a with lane := false }
  | .step => { a with step := false }
  | .site => { a with site := false }
  | .progress => { a with progress := false }

/-- The highest pending class, or NONE (R194). -/
def AttnSet.highest (a : AttnSet) : Option AttnClass :=
  if a.guard then some .guard
  else if a.lane then some .lane
  else if a.step then some .step
  else if a.site then some .site
  else if a.progress then some .progress
  else none

/-- Raise an attention class at the trunk controller (R194). -/
def State.raise (s : State) (c : AttnClass) : State :=
  { s with trunk := { s.trunk with attn := s.trunk.attn.raised c } }

/-- Clear an attention class at the trunk controller (R193). -/
def State.clearAttn (s : State) (c : AttnClass) : State :=
  { s with trunk := { s.trunk with attn := s.trunk.attn.cleared c } }

/-! ### Lookups and queries -/

/-- The cell lookup of R4: the enabled site at a grid cell. -/
def State.siteAtCell (s : State) (col row : Fin 8) : Option Site :=
  allSites.find? (fun t => (s.siteEntry t).enabled && (s.siteEntry t).col == col && (s.siteEntry t).row == row)

/-- The block lookup of R4: the enabled site on a point block. -/
def State.siteOnBlock (s : State) (b : Block) : Option Site :=
  allSites.find? (fun t => (s.siteEntry t).enabled && (s.siteEntry t).block == b)

/-- The card whose CARD entry names a lane (R37: at most one). -/
def State.cardOnLane (s : State) (l : LaneId) : Option CardId :=
  allCards.find? (fun c => (s.cardEntry c).lane == some l)

/-- The lane is ACTIVE with a CARD partner (R27, R163). -/
def State.laneHasCard (s : State) (l : LaneId) : Bool :=
  (s.lane l).state == .active && (s.lane l).partner == .card

/-- The lane is ACTIVE with an INSTRUMENT partner (R46, R54). -/
def State.laneHasInstrument (s : State) (l : LaneId) : Bool :=
  (s.lane l).state == .active && (s.lane l).partner == .instrument

/-- The lane of card `c` is usable for orders (R27, R30). -/
def State.cardUsable (s : State) (c : CardId) : Bool :=
  match (s.cardEntry c).lane with
  | none => false
  | some l => s.laneHasCard l

/-- The instrument channel of bus `x` is usable (R46). -/
def State.channelUsable (s : State) (x : Bus) : Bool :=
  let e := s.busEntry x
  s.laneHasInstrument e.lane && e.channel.val < (s.lane e.lane).channels.val

/-- Crosspoint (x, p) is claimed (R19). -/
def State.claimed (s : State) (x : Bus) (p : Pt) : Bool := (s.xp x p).state != .opn

/-- Point p is free (R19). -/
def State.pointFree (s : State) (p : Pt) : Bool := allBuses.all (fun x => !s.claimed x p)

/-- The points a bus claims, rising (R20). -/
def State.claims (s : State) (x : Bus) : List Pt := allPoints.filter (fun p => s.claimed x p)

/-- "Bus in use" (R20). -/
def State.busInUse (s : State) (x : Bus) : Bool := allPoints.any (fun p => s.claimed x p)

/-- "Block in use" (R20). -/
def State.blockInUse (s : State) (b : Block) : Bool :=
  allBuses.any (fun x => (List.finRange 8).any (fun o => s.claimed x (pointOf b o)))

/-- The points of a card, rising (R2). -/
def cardPoints (c : CardId) : List Pt := allPoints.filter (fun p => cardOf p == c)

/-- "Card in use" (R20): a claimed crosspoint, a pending order, or a listed order. -/
def State.cardInUse (s : State) (c : CardId) : Bool :=
  (s.card c).pending.isSome || !(s.card c).priority.isEmpty || !(s.card c).ordinary.isEmpty ||
    (cardPoints c).any (fun p => !s.pointFree p)

/-- A crosspoint is worn (R36): its card's limit is not 0 and its count is at or above it. -/
def State.worn (s : State) (x : Bus) (p : Pt) : Bool :=
  let limit := (s.cardEntry (cardOf p)).wearLimit
  limit != 0 && limit ≤ (s.xp x p).wear

/-- The points a bus's make request still waits for (R28, R33). -/
def Ctx.waitsFor (c : Ctx) : List Pt :=
  match c.request with
  | some (.make r) => r.waiting
  | _ => []

/-- The waiter set of a point, lowest bus first (R32). -/
def State.waiters (s : State) (p : Pt) : List Bus := allBuses.filter (fun x => p ∈ (s.ctx x).waitsFor)

/-- What bars bus `x` from making and from going live, SAFE first (R27, R29, R49; where both hold, which one is named is
a DESIGN CHOICE, log 38). -/
def State.barred (s : State) (x : Bus) : Option Bar :=
  if s.isSafe then some .safe else if s.tripped x then some .trip else none

/-- The bus counts as quiet: not a SOURCE bus, or its record is QUIET (R46, R47). -/
def State.sourceQuiet (s : State) (x : Bus) : Bool :=
  (s.busEntry x).kind != .source || (s.ctx x).source == .quiet

/-- The net kind a bus kind may use (R46). -/
def BusKind.netKind : BusKind → NetKind
  | .source => .force
  | .measure => .sense
  | .reference => .reference

/-- A context in its site sequence or at the end of it: QUIETING to POSTING (R66). -/
def CtxState.working : CtxState → Bool
  | .quieting | .breaking | .blocked | .making | .settling | .restoring | .measuring | .posting => true
  | _ => false

end Sys2Proof.Machine
end

