-- ==== Sys2Proof/Machine/Queue.lean ====
section
/-!
DEFINITION. The result queue and the panel's closing (spec/08; spec/07 R138): appending and folding records, the
offers of the contexts and of the panel unit, the removal of a sent record, and the end of a CLOSING panel.
-/

namespace Sys2Proof.Machine

/-- The fold counter's top (R143). -/
def maxFold : Nat := 4294967295

/-- One more pass is folded (R143). -/
def ResultQueue.folded (q : ResultQueue) : ResultQueue :=
  if q.foldCount < maxFold then { q with foldCount := q.foldCount + 1 } else { q with saturated := true }

/-- The count returns to 0 and the mark clears: a record delivered them (R145). -/
def ResultQueue.delivered (q : ResultQueue) : ResultQueue := { q with foldCount := 0, saturated := false }

/-- A record with its count fields as they stand at its append (R145). -/
def Rec.stamped (q : ResultQueue) : Rec → Rec
  | .measure r => .measure { r with folded := q.foldCount, flags := { r.flags with s := q.saturated } }
  | .fold _ _ => .fold q.foldCount q.saturated
  | .sweepEnd r => .sweepEnd { r with folded := q.foldCount, s := q.saturated }

/-- MEASURE and FOLD records deliver the count; END records copy it (R145). -/
def Rec.delivers : Rec → Bool
  | .sweepEnd _ => false
  | _ => true

/-- Append a record at the tail; the append that brings the count to 48 turns compact mode on and raises PROGRESS
(R144, R145, R147). -/
def appendRecord (s : State) (r : Rec) : State :=
  let q := s.queue
  let q' := if r.delivers then q.delivered else q
  let q' := { q' with records := q.records ++ [r.stamped q] }
  if q'.records.length = 48 && !q.compact then { s with queue := { q' with compact := true } }.raise .progress
  else { s with queue := q' }

/-- The slot of a context is empty again, and the context looks at what it may do (R79, R99). -/
def slotTaken (s : State) (x : Bus) : State := (s.modCtx x (fun c => { c with slot := none })).post (.poke x)

/-- The offer of the record in a context's slot: fold, append or refuse (R144). A refused record stays in the slot
as a waiting offer. -/
def offer (s : State) (x : Bus) : State :=
  match (s.ctx x).slot with
  | none => s
  | some sl =>
    if s.queue.compact && sl.foldable then slotTaken { s with queue := s.queue.folded } x
    else if s.queue.records.length < 64 then slotTaken (appendRecord s sl.record) x
    else s

/-- The panel becomes CLOSED and PROGRESS is raised (R138). -/
def closePanel (s : State) : State :=
  { s with panel := { s.panel with state := .closed, foldPending := false } }.raise .progress

/-- The offer of the closing FOLD: appended, waiting for room, or dropped since the count is delivered (R150). -/
def offerClosingFold (s : State) : State :=
  if s.queue.foldCount = 0 then closePanel s
  else if s.queue.records.length < 64 then closePanel (appendRecord s (.fold 0 false))
  else s

/-- The place that a removal to 63 records makes goes to the lowest waiting bus, else to a waiting closing FOLD
(R146, R150). A waiting record is appended with no new fold test. -/
def grantPlace (s : State) : State :=
  match allBuses.find? (fun x => (s.ctx x).slot.isSome) with
  | some x =>
    match (s.ctx x).slot with
    | some sl => slotTaken (appendRecord s sl.record) x
    | none => s
  | none => if s.panel.foldPending then offerClosingFold s else s

/-- A removal to 16 records ends compact mode; a count above 0 goes out in the queue's own FOLD, and a closing FOLD
still pending is dropped (R148, R138). -/
def leaveCompact (s : State) : State :=
  let s := { s with queue := { s.queue with compact := false } }
  let s := if 0 < s.queue.foldCount then appendRecord s (.fold 0 false) else s
  if s.panel.foldPending then closePanel s else s

/-- The head record is removed when its RESULT frame has been sent (R151, R146, R148). -/
def removeHead (s : State) : State :=
  let s := { s with queue := { s.queue with records := s.queue.records.tail } }
  if s.queue.records.length = 63 then grantPlace s
  else if s.queue.records.length = 16 && s.queue.compact then leaveCompact s
  else s

/-- A context holds nothing of the panel open: IDLE, or TRIPPED with resume point none, its queue and slot empty
and no END pending (R138). -/
def Ctx.finished (c : Ctx) : Bool :=
  c.queue.isEmpty && (c.state == .idle || (c.state == .tripped && c.resume == .none)) && c.slot.isNone &&
    c.endPending.isNone

/-- A CLOSING panel whose completion conditions hold becomes CLOSED, or offers its closing FOLD (R138). -/
def panelCheck (s : State) : State :=
  if s.panel.state = .closing && !s.panel.foldPending && allBuses.all (fun x => (s.ctx x).finished) then
    if s.queue.foldCount = 0 then closePanel s
    else offerClosingFold { s with panel := { s.panel with foldPending := true } }
  else s

end Sys2Proof.Machine
end

