-- ==== Sys2Proof/Machine/Judge.lean ====
section
/-!
DEFINITION. Judgement as one event at a context (R131): the disposition, the site verdict record, the join to a
sweep's judged set (R98), the record in the slot, and its offer.
-/

namespace Sys2Proof.Machine

/-- The tag of the current step. -/
def Ctx.stepTag (c : Ctx) : Half :=
  match c.step with
  | some st => st.tag
  | none => 0#16

/-- The sweep record after a judged site has joined it, for a context that works a sweep (R98). -/
def Sweep.join (w : Sweep) (site : Option Site) : Sweep :=
  match w.status, site with
  | .running, some t =>
    let judged := w.judged ++ [t]
    { w with judged := judged, status := if judged.length = w.count then .complete else .running }
  | _, _ => w

/-- Steps 3 to 7 of R131: look up the disposition, update the site verdict record, join the sweep, build the record,
raise STEP where the entry says so, place the record and offer it. The action is kept in `after`. -/
def judge (s : State) (x : Bus) (v : Verdict) (body : MeasBody) (flags : Flags) (unit : Fin 16) (samples : Nat)
    (row : Fin 16) (site : Option Site) : State :=
  let d := s.tables.disps[dispNo row v]
  let s := match site with
    | some t => s.setVerdict t ((s.verdict t).judge v d)
    | none => s
  let c := s.ctx x
  let w := c.sweep.join site
  let record : Rec := .measure
    { flags := flags, panel := s.panel.number, bus := x, tag := c.stepTag, site := site
      ordinal := if c.sweep.status = .running then w.judged.length else 1
      verdict := v, bin := d.bin, samples := samples, unit := unit, folded := 0, body := body }
  let foldable := v == .pass && (match c.captured with | some k => k.limit.mode != .record | none => false)
  let ended := c.sweep.status == .running && w.status == .complete
  let s := s.setCtx x
    { c with
      sweep := w
      endPending := if ended then some ⟨c.stepTag, w.judged.length, .complete⟩ else c.endPending
      slot := some ⟨record, foldable⟩
      inFlight := none
      after := .act d.action
      lastOk := v != .invalid }
  let s := if d.attention then s.raise .step else s
  (offer s x).modCtx x (fun c => { c with captured := none, acc := [] })

/-- The disposition row of an INVALID site (R129, R80, R85). -/
def invalidRow (s : State) (x : Bus) : Fin 16 :=
  match (s.ctx x).step with
  | some ⟨_, .measure _ _ limit _ _ _ _⟩ =>
    match (s.ctx x).captured with
    | some k => k.limit.row
    | none => s.tables.limits[limit].row
  | _ => 0

/-- The site an INVALID record names: the site in flight of a MEASURE step; for CONNECT and RELEASE the current site
or NONE (R85). -/
def invalidSite (c : Ctx) : Option Site :=
  match c.step with
  | some ⟨_, .measure _ _ _ _ _ _ _⟩ => c.inFlight
  | _ => c.site

/-- A site, or a RELEASE step, is judged INVALID (R129): no value, samples averaged 0, and flag W only from a
capture (R122). -/
def judgeInvalid (s : State) (x : Bus) (cause : Cause) : State :=
  let c := s.ctx x
  let w := match c.captured with | some k => k.worn | none => false
  judge s x .invalid (.invalid cause) ⟨false, false, false, w, false⟩ 0 0 (invalidRow s x) (invalidSite c)

/-- A completed take is judged from its samples and its captured entries (R78, R122). -/
def judgeTake (s : State) (x : Bus) (k : Capture) (d : Nat) : State :=
  let c := s.ctx x
  let avg := average c.acc
  let flags := flagsOf avg c.acc k.worn
  judge s x (verdictOf k.limit avg flags.v) (.value avg) flags (unitOf c.acc d) c.acc.length k.limit.row c.inFlight

end Sys2Proof.Machine
end

