-- ==== Sys2Proof/Machine/Matrix.lean ====
section
/-!
DEFINITION. The crosspoint matrix controller (spec/02): orders and the two-part order list of each card, make and
break requests, the claim arbiter, emergency opens, card lane loss and return. A freed point and a card that may
send are left as `MatrixWork`, which the running command works through before any context reacts (log 6).
-/

namespace Sys2Proof.Machine

/-! ### Building orders (R21) -/

/-- Cut a list into runs of at most 16 (R21); the number bounds the runs. -/
def chunks : Nat → List Pt → List (List Pt)
  | 0, _ => []
  | _ + 1, [] => []
  | n + 1, p :: ps => (p :: ps).take 16 :: chunks n ((p :: ps).drop 16)

/-- The changes that a request or an emergency open needs, split per card in runs of at most 16, columns rising (R21). Its
orders on several cards are placed by rising card number (DESIGN CHOICE, log 41). -/
def cardGroups (ps : List Pt) : List (CardId × List Pt) :=
  allCards.flatMap (fun c =>
    let mine := allPoints.filter (fun p => p ∈ ps && cardOf p == c)
    (chunks mine.length mine).map (fun run => (c, run)))

/-! ### Break and release requests (R30, R31) -/

/-- Change a break or release request that is outstanding. -/
def State.modOpens (s : State) (x : Bus) (f : OpenReq → OpenReq) : State :=
  s.modCtx x (fun c => match c.request with
    | some (.opens r) => { c with request := some (.opens (f r)) }
    | _ => c)

/-- A break order of bus `x` that its request still waits for. -/
def Order.breakOf (o : Order) (x : Bus) : Bool := o.kind == .brk && o.bus == x && o.answers

/-- A break order of the bus's outstanding request is pending or listed on some card. -/
def State.breaksOutstanding (s : State) (x : Bus) : Bool :=
  allCards.any (fun c =>
    let k := s.card c
    k.ordinary.any (fun o => o.breakOf x) || (match k.pending with | some p => p.order.breakOf x | none => false))

/-- Answer a break or release request once all its orders have ended and all it waited for is handled: LANE if any
order ended so, else ORDER_FAIL if any failed, else DONE (R30, R31). -/
def answerOpens (s : State) (x : Bus) : State :=
  match (s.ctx x).request with
  | some (.opens r) =>
    if r.awaiting.isEmpty && !s.breaksOutstanding x then
      (s.modCtx x (fun c => { c with request := none })).post
        (.opened x (if r.laneFailed then some .lane else if r.orderFailed then some .orderFail else none))
    else s
  | _ => s

/-! ### Sending (R22, R29) -/

/-- The ORDER frame of an order: column, bus row and direction of each change (R21, spec/12). -/
def Order.frame (o : Order) (tag : Byte) : LaneFrame :=
  .order tag (o.kind == .make) o.bus (o.points.map columnOf)

/-- What sending an order does to a crosspoint of it (R22). -/
def Order.sentTo (o : Order) (r : XRec) : XRec :=
  match o.kind with
  | .make => { r with state := .closing }
  | _ => if r.state = .closed then { r with state := .opening } else r

/-- Send an order: it takes the card's next tag and becomes the pending order (R21, R22). -/
def sendOrder (s : State) (c : CardId) (o : Order) : State :=
  let k := s.card c
  let s := match (s.cardEntry c).lane with
    | some l => if s.laneHasCard l then s.emit l (o.frame k.nextTag) else s
    | none => s
  let s := s.setCard c { k with pending := some ⟨k.nextTag, o⟩, nextTag := k.nextTag + 1 }
  s.modXps o.bus o.points o.sentTo

/-- The answer of the send checks. -/
inductive SendCheck where
  | pass
  | refused (why : Bar)
  | failed (c : Cause)
  deriving DecidableEq, Repr

/-- A bus other than `x` claims point `p`: by R19 no order may then close crosspoint (x, p). -/
def State.claimedByOther (s : State) (x : Bus) (p : Pt) : Bool := allBuses.any (fun y => y != x && s.claimed y p)

/-- The checks just before a make order is sent (R29), and the law of R19: an order for a point that another bus claims by
then fails with ORDER_FAIL (DESIGN CHOICE, log 45). -/
def sendCheck (s : State) (c : CardId) (o : Order) : SendCheck :=
  match s.barred o.bus with
  | some why => .refused why
  | none =>
    if (s.busEntry o.bus).kind = .source && (s.ctx o.bus).source = .unsure then .failed .lane
    else if !s.sourceQuiet o.bus then .failed .orderFail
    else if !s.cardUsable c then .failed .lane
    else if o.points.any (s.claimedByOther o.bus) then .failed .orderFail
    else .pass

/-- The crosspoint goes back to OPEN from OPEN-RESERVED; other states stay (R22, R29). -/
def XRec.unreserved (r : XRec) : XRec := if r.state = .reserved then { r with state := .opn } else r

/-- A make order that fails its send checks is withdrawn: it takes no tag, its points go to the arbiter, its
request is answered as `told` says, and the next order is considered (R29). -/
def withdrawOrder (s : State) (c : CardId) (o : Order) (told : Mail) : State :=
  let s := s.modXps o.bus o.points XRec.unreserved
  let s := s.pushWork (o.points.map .point ++ [.send c])
  if o.answers then (s.modCtx o.bus (fun c => { c with request := none })).post told else s

/-- What an open order has left to open: its crosspoints that are CLOSED or UNKNOWN (R22). One that an open sent before
it has opened is OPEN, is claimed no more, and is left out (R19; DEDUCED, log 14). -/
def Order.leftToOpen (s : State) (o : Order) : List Pt :=
  o.points.filter (fun p => (s.xp o.bus p).state == .closed || (s.xp o.bus p).state == .unknown)

/-- Send an open order from a list, for what it has left to open. With nothing left it takes no tag and counts as ended
by DONE, and the next order is considered (R19, R22; DEDUCED, log 14). -/
def sendOpen (s : State) (c : CardId) (o : Order) : State :=
  match o.leftToOpen s with
  | [] => (if o.answers then answerOpens s o.bus else s).pushWork [.send c]
  | ps => sendOrder s c { o with points := ps }

/-- Send the next order of a card that has none pending: the priority part first, then the ordinary part, whose
make orders are checked again (R22, R29). -/
def sendNext (s : State) (c : CardId) : State :=
  let k := s.card c
  if k.pending.isSome then s
  else
    match k.priority, k.ordinary with
    | o :: rest, _ => sendOpen (s.setCard c { k with priority := rest }) c o
    | [], o :: rest =>
      let s' := s.setCard c { k with ordinary := rest }
      if o.kind = .make then
        match sendCheck s' c o with
        | .pass => sendOrder s' c o
        | .refused why => withdrawOrder s' c o (.makeRefused o.bus why)
        | .failed cause => withdrawOrder s' c o (.makeFailed o.bus cause)
      else sendOpen s' c o
    | [], [] => s

/-! ### Placing (R22, R24) -/

/-- Nothing pending and nothing listed: an order placed now is sent at once (R22). -/
def CardCtl.idle (k : CardCtl) : Bool := k.pending.isNone && k.priority.isEmpty && k.ordinary.isEmpty

/-- Place an order at the end of a card's priority part; with nothing pending or listed it is sent at once (R22). -/
def placePriority (s : State) (c : CardId) (o : Order) : State :=
  let k := s.card c
  let s := s.setCard c { k with priority := k.priority ++ [o] }
  if k.idle then sendNext s c else s

/-- Place an order at the head of a card's priority part (R24). -/
def placeAtHead (s : State) (c : CardId) (o : Order) : State :=
  let k := s.card c
  s.setCard c { k with priority := o :: k.priority }

/-- Reserve for a bus those of the points that are free: their crosspoints become OPEN-RESERVED (R22, R28). -/
def State.reserve (s : State) (x : Bus) (ps : List Pt) : State :=
  s.modXps x (ps.filter s.pointFree) (fun r => { r with state := .reserved })

/-- Place an order in a card's ordinary part, or not where 8 are listed. Placing a make order reserves those of its points
that are free; one that another bus claims is left to it by R19 (log 45). With nothing pending or listed the order is sent
at once, after its checks (R22, R29). -/
def placeOrdinary (s : State) (c : CardId) (o : Order) : State × Bool :=
  let k := s.card c
  if 8 ≤ k.ordinary.length then (s, false)
  else
    let s' := s.setCard c { k with ordinary := k.ordinary ++ [o] }
    let s' := if o.kind = .make then s'.reserve o.bus o.points else s'
    (if k.idle then sendNext s' c else s', true)

/-- An order in the priority part of its card holds crosspoint (x, p) (R35). -/
def State.inPriority (s : State) (x : Bus) (p : Pt) : Bool :=
  (s.card (cardOf p)).priority.any (fun o => o.bus == x && p ∈ o.points)

/-! ### Requests (R27, R28, R30, R31, R34) -/

/-- Return every reservation of a bus and hand the points to the arbiter (R33, R34, R35). -/
def returnReservations (s : State) (x : Bus) : State :=
  let ps := allPoints.filter (fun p => (s.xp x p).state == .reserved)
  (s.modXps x ps XRec.unreserved).pushWork (ps.map .point)

/-- The ordinary part of a card without the orders of a bus that `drop` names. -/
def CardCtl.without (k : CardCtl) (x : Bus) (drop : OrderKind → Bool) : CardCtl :=
  { k with ordinary := k.ordinary.filter (fun o => !(o.bus == x && drop o.kind)) }

/-- The pending order of a bus no longer answers a request (R31). -/
def CardCtl.orphan (k : CardCtl) (x : Bus) : CardCtl :=
  match k.pending with
  | some p => if p.order.bus = x then { k with pending := some { p with order := { p.order with answers := false } } } else k
  | none => k

/-- Change what is held for every card. -/
def State.modCards (s : State) (f : CardCtl → CardCtl) : State :=
  allCards.foldl (fun s c => s.setCard c (f (s.card c))) s

/-- Withdraw the make request of a bus: it leaves every waiter set, its listed make order is taken from the list,
its reservations return; an order already sent runs on and answers nobody (R34). -/
def withdrawMake (s : State) (x : Bus) : State :=
  match (s.ctx x).request with
  | some (.make _) =>
    let s := s.modCtx x (fun c => { c with request := none })
    let s := s.modCards (fun k => (k.without x (· == .make)).orphan x)
    returnReservations s x
  | _ => s

/-- The answers of a make request (R31): a refusal names SAFE or trip; with "a make order placed" of R71. -/
inductive MakeAns where
  | refused (why : Bar)
  | failed (c : Cause)
  | alreadyMade
  | blocked
  | placed
  deriving DecidableEq, Repr

/-- The checks of a make request, in order; none if it may take its claims (R27). -/
def makeCheck (s : State) (x : Bus) (t : Target) : Option MakeAns :=
  match s.barred x with
  | some why => some (.refused why)
  | none =>
    if !s.cardUsable (cardOfBlock t.block) then some (.failed .lane)
    else if (s.busEntry x).kind != .reference && (s.claims x).any (fun p => blockOf p != t.block) then
      some (.failed .orderFail)
    else if t.points.any (fun p =>
        let st := (s.xp x p).state
        st == .closing || st == .opening || st == .unknown) then some (.failed .orderFail)
    else none

/-- The target crosspoints that are not CLOSED, columns rising: what a make order holds (R28, R32). -/
def needClosing (s : State) (x : Bus) (points : List Pt) : List Pt :=
  allPoints.filter (fun p => p ∈ points && (s.xp x p).state != .closed)

/-- Place the make order of a request whose points are all reserved or closed. A full list fails the request with
ORDER_FAIL and returns the reservations (R22, R28, R32). -/
def placeMake (s : State) (x : Bus) (c : CardId) (points : List Pt) : State × Bool :=
  match placeOrdinary s c ⟨.make, x, needClosing s x points, true⟩ with
  | (s', true) => (s', true)
  | (s', false) => (returnReservations (s'.modCtx x (fun k => { k with request := none })) x, false)

/-- A make request (R27, R28). The request stands in the context when it is answered BLOCKED or its order is placed. -/
def makeRequest (s : State) (x : Bus) (t : Target) : State × MakeAns :=
  match makeCheck s x t with
  | some a => (s, a)
  | none =>
    let waiting := t.points.filter (fun p => (s.xp x p).state == .opn && !s.pointFree p)
    let s := s.reserve x t.points
    let c := cardOfBlock t.block
    if waiting = [] && (needClosing s x t.points).isEmpty then (s, .alreadyMade)
    else
      let s := s.modCtx x (fun k => { k with request := some (.make ⟨c, t.points, waiting⟩) })
      if waiting = [] then
        match placeMake s x c t.points with
        | (s, true) => (s, .placed)
        | (s, false) => (s, .failed .orderFail)
      else (s, .blocked)

/-- Place one break order of a request, or note why it fails at once (R22, R30). -/
def placeBreak (s : State) (x : Bus) (g : CardId × List Pt) : State :=
  if s.cardUsable g.1 then
    match placeOrdinary s g.1 ⟨.brk, x, g.2, true⟩ with
    | (s', true) => s'
    | (s', false) => s'.modOpens x (fun r => { r with orderFailed := true })
  else s.modOpens x (fun r => { r with laneFailed := true })

/-- A crosspoint that a break request must wait for: CLOSING or OPENING (R30). -/
def State.mustAwait (s : State) (x : Bus) (p : Pt) : Bool :=
  (s.xp x p).state == .closing || (s.xp x p).state == .opening

/-- A break or release request for claimed points of a bus (R30). A CLOSED crosspoint that an emergency open of the
priority part also holds is placed like every other (log 14). -/
def opensRequest (s : State) (x : Bus) (ps : List Pt) : State :=
  let awaiting := ps.filter (s.mustAwait x)
  let reserved := ps.filter (fun p => (s.xp x p).state == .reserved)
  let closed := ps.filter (fun p => (s.xp x p).state == .closed)
  let s := s.modCtx x (fun c => { c with request := some (.opens ⟨awaiting, false, false⟩) })
  let s := (s.modXps x reserved XRec.unreserved).pushWork (reserved.map .point)
  let s := (cardGroups closed).foldl (fun s g => placeBreak s x g) s
  answerOpens s x

/-- An order of bus `x` that held these points has ended: its break request goes on with them (R30). -/
def handleAwaited (s : State) (x : Bus) (ps : List Pt) : State :=
  match (s.ctx x).request with
  | some (.opens r) =>
    let hit := r.awaiting.filter (· ∈ ps)
    let closed := hit.filter (fun p => (s.xp x p).state == .closed)
    let keep := r.awaiting.filter (fun p => !(p ∈ ps) || s.mustAwait x p)
    let s := s.modOpens x (fun r => { r with awaiting := keep })
    let s := (cardGroups closed).foldl (fun s g => placeBreak s x g) s
    answerOpens s x
  | _ => s

/-- Tell the request an order belonged to how the order ended: none is DONE (R23, R24, R25, R31). -/
def tellRequest (s : State) (o : Order) (failure : Option Cause) : State :=
  if !o.answers then s
  else
    match o.kind with
    | .make =>
      (s.modCtx o.bus (fun c => { c with request := none })).post
        (match failure with
         | none => .makeDone o.bus
         | some cause => .makeFailed o.bus cause)
    | .brk =>
      match failure with
      | none => s
      | some .lane => s.modOpens o.bus (fun r => { r with laneFailed := true })
      | some _ => s.modOpens o.bus (fun r => { r with orderFailed := true })
    | _ => s

/-! ### The end of an order (R23, R24, R25) -/

/-- The top of a wear count (R36). -/
def maxWear : Nat := 16777215

/-- A confirmed close (R23, R36). -/
def XRec.closeDone (r : XRec) : XRec := { state := .closed, wear := min (r.wear + 1) maxWear, mark := false }

/-- A confirmed open (R23). -/
def XRec.openDone (r : XRec) : XRec := { r with state := .opn, mark := false }

/-- The pending order of a card ends. -/
def endPending (s : State) (c : CardId) : State := s.setCard c { s.card c with pending := none }

/-- Place an emergency open for points of one card that became CLOSED with the mark set (R23). -/
def placeMarked (s : State) (c : CardId) (x : Bus) (ps : List Pt) : State :=
  if ps.isEmpty then s else placePriority s c ⟨.emergency, x, ps, false⟩

/-- The points of an order whose crosspoints carry the emergency mark. -/
def orderMarked (s : State) (o : Order) : List Pt := o.points.filter (fun p => (s.xp o.bus p).mark)

/-- DONE ends the pending order: its crosspoints' records, and the answer to its request (R23). -/
def orderDone (s : State) (c : CardId) (o : Order) : State :=
  tellRequest ((endPending s c).modXps o.bus o.points (if o.kind = .make then XRec.closeDone else XRec.openDone)) o none

/-- What a DONE starts: an emergency open for the crosspoints that became CLOSED with the mark set, what break requests
waited for, the freed points and the card's next order (R23, R30). -/
def afterDone (s : State) (c : CardId) (o : Order) (marked : List Pt) : State :=
  let s := if o.kind = .make then placeMarked s c o.bus marked else s
  (handleAwaited s o.bus o.points).pushWork
    ((if o.kind = .make then [] else o.points.map .point) ++ [.send c])

/-- REJECT ends the pending order; the Bool says that the card's lane is asked for RECOVER (R24, R179). -/
def orderRejected (s : State) (c : CardId) (o : Order) (reason : Byte) : State × Bool :=
  let s := s.setCard c { s.card c with pending := none, rejectReason := some reason }
  match o.kind with
  | .make =>
    let s := s.modXps o.bus o.points (fun r =>
      if r.state = .closing then { r with state := .opn, mark := false } else { r with mark := false })
    (tellRequest s o (some .orderFail), false)
  | .brk =>
    let marked := orderMarked s o
    let s := s.modXps o.bus o.points (fun r =>
      if r.mark then { r with state := .unknown, mark := false }
      else if r.state = .opening then { r with state := .closed } else r)
    let s := if marked.isEmpty then s else placeAtHead s c ⟨.recovery, o.bus, marked, false⟩
    (tellRequest s o (some .orderFail), false)
  | .emergency =>
    let s := s.modXps o.bus o.points (fun r => { r with state := .unknown })
    (placeAtHead s c ⟨.recovery, o.bus, o.points, false⟩, false)
  | .recovery => (s, true)

/-- What a REJECT starts: what break requests waited for, the points of a rejected make and the card's next order
(R24, R30). -/
def afterReject (c : CardId) (o : Order) (r : State × Bool) : State × Bool :=
  ((handleAwaited r.1 o.bus o.points).pushWork
    ((if o.kind = .make then o.points.map .point else []) ++ [.send c]), r.2)

/-- The 20 ms timer of the pending order expires; the Bool says that the card's lane is asked for RECOVER
(R25, R179). -/
def orderTimedOut (s : State) (c : CardId) (o : Order) : State × Bool :=
  let s := endPending s c
  let s := s.modXps o.bus o.points (fun r => { r with state := .unknown, mark := false })
  match o.kind with
  | .recovery => ((handleAwaited s o.bus o.points).pushWork [.send c], true)
  | _ =>
    let s := sendOrder s c ⟨.recovery, o.bus, o.points, false⟩
    let s := tellRequest s o (some .orderFail)
    (handleAwaited s o.bus o.points, false)

/-! ### The claim arbiter (R32, R33) -/

/-- A point goes to the arbiter: if it is free, the lowest waiting bus is granted it, and a bus that then waits for
nothing has its make order placed (R32). -/
def arbitrate (s : State) (p : Pt) : State :=
  if !s.pointFree p then s
  else
    match s.waiters p with
    | [] => s
    | x :: _ =>
      let s := s.reserve x [p]
      match (s.ctx x).request with
      | some (.make r) =>
        let waiting := r.waiting.filter (· ≠ p)
        let s := s.modCtx x (fun c => { c with request := some (.make { r with waiting := waiting }) })
        if waiting = [] then
          match placeMake s x r.card r.points with
          | (s, true) => s.modCtx x (fun c => if c.state = .blocked then { c with state := .making } else c)
          | (s, false) => s.post (.makeFailed x .orderFail)
        else s
      | _ => s

/-- The 200 ms block wait of a bus expires (R33). -/
def blockWaitExpired (s : State) (x : Bus) : State :=
  let s := s.modCtx x (fun c => { c with request := none })
  (returnReservations s x).post (.makeFailed x .conflict)

/-! ### Emergency opens (R35) -/

/-- An emergency open for one bus (R35). A quiet or live request is not the matrix controller's to end (R52). -/
def emergencyOpen (s : State) (x : Bus) : State :=
  let s := s.modCtx x (fun c => match c.request with
    | some (.make _) | some (.opens _) => { c with request := none }
    | _ => c)
  let s := s.modCards (fun k => (k.without x (fun _ => true)).orphan x)
  let s := returnReservations s x
  let marked := allPoints.filter (fun p => (s.xp x p).state == .closing || (s.xp x p).state == .opening)
  let closed := allPoints.filter (fun p => (s.xp x p).state == .closed && !s.inPriority x p)
  let s := s.modXps x marked (fun r => { r with mark := true })
  (cardGroups closed).foldl (fun s g => placePriority s g.1 ⟨.emergency, x, g.2, false⟩) s

/-! ### Card lane loss and return (R39, R40) -/

/-- Every claimed crosspoint of a card becomes UNKNOWN, its mark cleared (R39). -/
def XRec.lost (r : XRec) : XRec := if r.state = .opn then r else { r with state := .unknown, mark := false }

/-- The order was a break order that an outstanding request waits for, on this card. -/
def CardCtl.losesBreakOf (k : CardCtl) (x : Bus) : Bool :=
  k.ordinary.any (fun o => o.breakOf x) || (match k.pending with | some p => p.order.breakOf x | none => false)

/-- Card `c` is lost to one bus: a make request on the card fails with LANE; a break request that lost an order is
marked so and no longer waits for crosspoints of the card (R39). One that only waited there for an order of another request
has lost none of its own and is not failed for it (DEDUCED, log 43). -/
def requestLosesCard (s : State) (c : CardId) (lostBreak : Bool) (x : Bus) : State :=
  match (s.ctx x).request with
  | some (.make r) =>
    if r.card = c then (s.modCtx x (fun k => { k with request := none })).post (.makeFailed x .lane) else s
  | some (.opens _) =>
    let s := s.modOpens x (fun r =>
      { r with awaiting := r.awaiting.filter (fun p => cardOf p != c), laneFailed := r.laneFailed || lostBreak })
    answerOpens s x
  | _ => s

/-- The lane of card `c` leaves ACTIVE; the buses that claim a crosspoint of it are returned too (R39). -/
def cardLost (s : State) (c : CardId) : State × List Bus :=
  let told := allBuses.filter (fun x => (cardPoints c).any (fun p => s.claimed x p))
  let losers := allBuses.filter (fun x => (s.card c).losesBreakOf x)
  let s := s.setCard c { s.card c with pending := none, priority := [], ordinary := [] }
  let s := allBuses.foldl (fun s x => s.modXps x ((cardPoints c).filter (fun p => s.claimed x p)) XRec.lost) s
  (allBuses.foldl (fun s x => requestLosesCard s c (x ∈ losers) x) s, told)

/-- ALL-OPEN is confirmed for card `c`: all its crosspoints are OPEN, and the points this frees go to the arbiter
(R40). -/
def allOpenConfirmed (s : State) (c : CardId) : State :=
  let freed := (cardPoints c).filter (fun p => !s.pointFree p)
  let s := allBuses.foldl (fun s x => s.modXps x (cardPoints c) XRec.openDone) s
  s.pushWork (freed.map .point)

/-- The lane of card `c` is back from RECOVER: recovery opens for every UNKNOWN crosspoint, row by row (R40). -/
def recoveryOpens (s : State) (c : CardId) : State :=
  allBuses.foldl (fun s x =>
    (cardGroups ((cardPoints c).filter (fun p => (s.xp x p).state == .unknown))).foldl
      (fun s g => placePriority s g.1 ⟨.recovery, x, g.2, false⟩) s) s

/-! ### One piece of work -/

/-- Do one piece of work of the matrix controller. -/
def doMatrix (s : State) : MatrixWork → State
  | .point p => arbitrate s p
  | .send c => sendNext s c

end Sys2Proof.Machine
end

