-- ==== Sys2Proof/Machine/Source.lean ====
section
/-!
DEFINITION. The source records (spec/03, 3.3): quiet and live requests, acknowledgements, the emergency quiet, and
what the loss and the training of an instrument lane do to them. A bus that is not of kind SOURCE counts as quiet.
-/

namespace Sys2Proof.Machine

/-- Set a bus's source record. -/
def State.setSource (s : State) (x : Bus) (v : SrcState) : State := s.modCtx x (fun c => { c with source := v })

/-- Send QUIET on the bus's lane and channel. -/
def sendQuiet (s : State) (x : Bus) : State := s.emit (s.busEntry x).lane (.quiet (s.busEntry x).channel)

/-- The answer to a quiet or live request: DONE or failed (with LANE) at once, refused by SAFE or a trip,
or to come. -/
inductive SrcAns where
  | done
  | failed
  | refused (why : Bar)
  | waits
  deriving DecidableEq, Repr

/-- A quiet request (R48). In GOING_LIVE no context asks; the request then waits for the exchange (log 27). -/
def quietRequest (s : State) (x : Bus) : State × SrcAns :=
  if (s.busEntry x).kind != .source then (s, .done)
  else
    match (s.ctx x).source with
    | .quiet => (s, .done)
    | .goingQuiet | .goingLive => (s, .waits)
    | .live | .unsure =>
      if s.channelUsable x then ((sendQuiet s x).setSource x .goingQuiet, .waits)
      else (s.setSource x .unsure, .failed)

/-- A live request (R49). In GOING_LIVE no context asks; the request then waits for the exchange (log 27). -/
def liveRequest (s : State) (x : Bus) : State × SrcAns :=
  match s.barred x with
  | some why => (s, .refused why)
  | none =>
    match (s.ctx x).source with
    | .quiet =>
      if s.channelUsable x then
        ((s.emit (s.busEntry x).lane (.live (s.busEntry x).channel)).setSource x .goingLive, .waits)
      else (s, .failed)
    | .live => (s, .done)
    | .unsure | .goingQuiet => (s, .failed)
    | .goingLive => (s, .waits)

/-- A quiet request that waits is answered. -/
def answerQuiet (s : State) (x : Bus) (ok : Bool) : State :=
  if (s.ctx x).request = some .quiet then
    (s.modCtx x (fun c => { c with request := none })).post (.quieted x ok)
  else s

/-- A live request that waits is answered. -/
def answerLive (s : State) (x : Bus) (ok : Bool) : State :=
  if (s.ctx x).request = some .live then
    (s.modCtx x (fun c => { c with request := none })).post (.lived x ok)
  else s

/-- The enabled SOURCE bus whose entry names a lane and channel (R50). -/
def sourceBusOn (s : State) (l : LaneId) (channel : Byte) : Option Bus :=
  allBuses.find? (fun x =>
    let e := s.busEntry x
    e.enabled && e.kind == .source && e.lane == l && e.channel.val == channel.toNat)

/-- The command whose exchange is outstanding in a state of the record, QUIET (false) or LIVE (true) (R47). -/
def SrcState.exchange : SrcState → Option Bool
  | .goingQuiet => some false
  | .goingLive => some true
  | .quiet | .live | .unsure => none

/-- An ACK that names the command outstanding ends its exchange, QUIET (false) or LIVE (true) (R50). -/
def ackTaken (s : State) (x : Bus) (live : Bool) : State :=
  if live then answerLive (s.setSource x .live) x true else answerQuiet (s.setSource x .quiet) x true

/-- The 10 ms acknowledgement timer expires (R51). -/
def ackExpired (s : State) (x : Bus) : State :=
  match (s.ctx x).source with
  | .goingQuiet => answerQuiet (s.setSource x .unsure) x false
  | .goingLive =>
    let s := if s.channelUsable x then (sendQuiet s x).setSource x .goingQuiet else s.setSource x .unsure
    answerLive s x false
  | _ => s

/-- An emergency quiet for one bus: the record by R52, and a waiting quiet or live request cut off without an
answer. It reaches SOURCE buses only. -/
def emergencyQuiet (s : State) (x : Bus) : State :=
  if (s.busEntry x).kind != .source then s
  else
    let s := s.modCtx x (fun c =>
      if c.request = some .quiet || c.request = some .live then { c with request := none } else c)
    match (s.ctx x).source with
    | .quiet | .goingQuiet => s
    | .goingLive | .live | .unsure =>
      if s.channelUsable x then (sendQuiet s x).setSource x .goingQuiet else s.setSource x .unsure

/-- The SOURCE buses whose entry names a lane. -/
def sourceBusesOn (s : State) (l : LaneId) : List Bus :=
  allBuses.filter (fun x => (s.busEntry x).kind == .source && (s.busEntry x).lane == l)

/-- An instrument lane leaves ACTIVE: its SOURCE buses' records are UNSURE, waiting requests fail (R53). -/
def sourcesLost (s : State) (l : LaneId) : State :=
  (sourceBusesOn s l).foldl (fun s x => answerLive (answerQuiet (s.setSource x .unsure) x false) x false) s

/-- QUIET-ALL is confirmed on a lane, or its partner is a CARD: the records on it are QUIET (R53, R174). -/
def sourcesQuieted (s : State) (l : LaneId) : State :=
  (sourceBusesOn s l).foldl (fun s x => s.setSource x .quiet) s

end Sys2Proof.Machine
end

