-- ==== Sys2Proof/Machine/Context.lean ====
section
/-!
DEFINITION. The bus contexts (spec/04, spec/05): resolution, the site sequence, takes, the end of a site, sweep
advance, holding and releasing, and what a trip, SAFE, READY, a departure and a lane loss do to a context.
A context that may have more to do is posted `Mail.poke` and looks again (log 6).
-/

namespace Sys2Proof.Machine

/-! ### Small parts -/

/-- The context becomes IDLE: it clears its step, site, net, target and resume point (R83, R6). -/
def toIdle (s : State) (x : Bus) : State :=
  (s.modCtx x (fun c =>
    { c with
      state := .idle, step := none, site := none, net := none, target := none, heldNet := none, inFlight := none,
      after := .none, lastOk := false, captured := none, acc := [], resume := .none, dest := .idle, relDone := false,
      relFail := none })).post (.poke x)

/-- Send CANCEL for the current take if the channel is usable, advance the take tag, drop the samples and stop the
measure timer (R77, R80, R75). -/
def cancelTake (s : State) (x : Bus) : State :=
  let e := s.busEntry x
  let s := if s.channelUsable x then s.emit e.lane (.cancel e.channel (s.ctx x).takeTag) else s
  s.modCtx x (fun c => { c with takeTag := c.takeTag + 1, acc := [], measureTimer := none })

/-- A site in flight ends INVALID: the context acts by its state, the record is judged and placed, and the context
goes on when the slot is empty and no request is outstanding (R80). -/
def endSite (s : State) (x : Bus) (cause : Cause) : State :=
  let s := match (s.ctx x).state with
    | .blocked | .making => withdrawMake s x
    | .settling => s.modCtx x (fun c => { c with settleTimer := none })
    | .measuring => cancelTake s x
    | _ => s
  let s := judgeInvalid s x cause
  (s.modCtx x (fun c => if c.request.isNone then { c with state := .posting } else c)).post (.poke x)

/-! ### The site sequence (R68 to R74) -/

/-- The captured entries of a TAKE (R74, R111). -/
def captureNow (s : State) (x : Bus) (limit : Fin 256) : Capture :=
  let base := (s.busEntry x).scaleBase
  let e (r : Fin 32) : ScaleEntry := s.tables.scales[base + r]
  { limit := s.tables.limits[limit]
    scales := #v[e 0, e 1, e 2, e 3, e 4, e 5, e 6, e 7]
    worn := match (s.ctx x).target with
      | some t => t.points.any (fun p => s.worn x p)
      | none => false }

/-- The MARK entry names this bus and its current site (R106). -/
def markFires (s : State) (x : Bus) : Bool :=
  s.tables.mark.enabled && s.tables.mark.bus == x && (s.ctx x).site == some s.tables.mark.site

/-- Enter MEASURING: capture, empty the accumulator, advance the tag, send TAKE, start the measure timer (R74). With
the channel unusable no take begins (R75 then gives no advance of the tag, log 31). -/
def enterMeasuring (s : State) (x : Bus) : State :=
  match (s.ctx x).step with
  | some ⟨_, .measure _ _ limit k d timeout _⟩ =>
    if s.channelUsable x then
      let tag := (s.ctx x).takeTag + 1
      let e := s.busEntry x
      let capture := captureNow s x limit
      let s := s.modCtx x (fun c =>
        { c with state := .measuring, captured := some capture, acc := [], takeTag := tag, measureTimer := some timeout })
      let s := s.emit e.lane (.take e.channel tag (d + k))
      if markFires s x then { s with markHigh := true } else s
    else
      ((judgeInvalid s x .lane).modCtx x (fun c => { c with state := .posting })).post (.poke x)
  | _ => s

/-- A CONNECT step has succeeded: HOLDING, without a step (R85, R82). -/
def enterHolding (s : State) (x : Bus) : State :=
  (s.modCtx x (fun c =>
    { c with state := .holding, step := none, inFlight := none, after := .none, lastOk := false, captured := none,
             acc := [] })).post (.poke x)

/-- The source is live, or the bus has none: a CONNECT step holds, a MEASURE step measures (R72, R73). -/
def afterLive (s : State) (x : Bus) : State :=
  match (s.ctx x).step with
  | some ⟨_, .connect _ _⟩ => enterHolding s x
  | _ => enterMeasuring s x

/-- Enter RESTORING with its live request (R73). -/
def enterRestoring (s : State) (x : Bus) : State :=
  let s := s.modCtx x (fun c => { c with state := .restoring })
  match liveRequest s x with
  | (s, .done) => afterLive s x
  | (s, .failed) => endSite s x .lane
  | (s, .refused _) => s
  | (s, .waits) => s.modCtx x (fun c => { c with request := some .live })

/-- The stage after settling (R72). -/
def afterSettle (s : State) (x : Bus) : State :=
  let s := s.modCtx x (fun c => { c with settleTimer := none })
  if (s.busEntry x).kind = .source then enterRestoring s x else afterLive s x

/-- The settle decision; `stood` says that no relay moved for the target. A settle time of 0 expires at once (R72). -/
def settleDecision (s : State) (x : Bus) (stood : Bool) : State :=
  let c := s.ctx x
  if stood && c.heldNet == c.net then afterSettle s x
  else
    let settle := match c.target with | some t => t.settle | none => 0
    let s := s.modCtx x (fun c => { c with state := .settling, settleTimer := some settle })
    if settle = 0 then afterSettle s x else s

/-- Ask for the make and act on the answer (R71). A refusal leaves the context without a request. -/
def askMake (s : State) (x : Bus) : State :=
  match (s.ctx x).target with
  | none => s
  | some t =>
    let s := s.modCtx x (fun c => { c with state := .making })
    match makeRequest s x t with
    | (s, .refused _) => s
    | (s, .failed cause) => endSite s x cause
    | (s, .alreadyMade) => settleDecision s x true
    | (s, .blocked) => s.modCtx x (fun c => { c with state := .blocked })
    | (s, .placed) => s

/-- The claimed points of a bus outside its target (R68). -/
def breakSet (s : State) (x : Bus) : List Pt :=
  match (s.ctx x).target with
  | some t => (s.claims x).filter (fun p => !(p ∈ t.points))
  | none => []

/-- Enter BREAKING with its break request; the answer comes by mail (R70). -/
def enterBreaking (s : State) (x : Bus) : State :=
  let s := s.modCtx x (fun c => { c with state := .breaking })
  opensRequest s x (breakSet s x)

/-- The source is quiet: break what the target does not need, or make (R69, R68). -/
def afterQuiet (s : State) (x : Bus) : State :=
  if (breakSet s x).isEmpty then askMake s x else enterBreaking s x

/-- Enter QUIETING with its quiet request (R69). -/
def enterQuieting (s : State) (x : Bus) : State :=
  let s := s.modCtx x (fun c => { c with state := .quieting })
  match quietRequest s x with
  | (s, .waits) => s.modCtx x (fun c => { c with request := some .quiet })
  | (s, .failed) => endSite s x .lane
  | (s, _) => afterQuiet s x

/-- The net of a step that has one. -/
def Step.net? (st : Step) : Option Net :=
  match st.work with
  | .measure _ n _ _ _ _ _ => some n
  | .connect _ n => some n
  | .release => none

/-- The offsets a net uses, the first pin-count ones (R10), in rising order: R14 makes the points a set, and its worked
example lists them rising (DEDUCED, log 37). -/
def NetEntry.used (n : NetEntry) : List (Fin 8) :=
  (List.finRange 8).filter (fun o => o ∈ n.offsets.toList.take n.pinCount.val)

/-- The target of a site and a net, or none where resolution fails (R14, R15). -/
def resolve (s : State) (x : Bus) (t : Site) (n : Net) : Option Target :=
  let e := s.siteEntry t
  let ne := s.netEntry n
  if !e.enabled || ne.pinCount == 0 || ne.kind != (s.busEntry x).kind.netKind then none
  else some { points := ne.used.map (pointOf e.block), block := e.block, kind := ne.kind, settle := ne.settle }

/-- Start work at a site: resolve, and enter the first stage that applies (R68). A resolution that fails records nothing
(R15), and the target, site and net of an earlier site then stand (DEDUCED, log 46). -/
def startSite (s : State) (x : Bus) (t : Site) : State :=
  match (s.ctx x).step with
  | none => s
  | some st =>
    match st.net? with
    | none => s
    | some n =>
      let s := s.modCtx x (fun c => { c with inFlight := some t, resume := .none, after := .none })
      match resolve s x t n with
      | none =>
        ((judgeInvalid s x .notAvailable).modCtx x (fun c => { c with state := .posting })).post (.poke x)
      | some target =>
        let s := s.modCtx x (fun c =>
          { c with heldNet := c.net, site := some t, net := some n, target := some target })
        let need := target.points.any (fun p => (s.xp x p).state != .closed)
        if (breakSet s x).isEmpty && !need then settleDecision s x true
        else if !s.sourceQuiet x then enterQuieting s x
        else afterQuiet s x

/-! ### Sweep advance (R93, R96, R97) -/

/-- The cell after the cursor in axis order; none past the last cell (R93). -/
def Sweep.nextCell (w : Sweep) : Option (Fin 8 × Fin 8) :=
  match w.cursor with
  | none => some (w.window.c0, w.window.r0)
  | some (c, r) =>
    match w.axis with
    | .rows =>
      if c < w.window.c1 then some (c + 1, r)
      else if r < w.window.r1 then some (w.window.c0, r + 1) else none
    | .columns =>
      if r < w.window.r1 then some (c, r + 1)
      else if c < w.window.c1 then some (c + 1, w.window.r0) else none

/-- The site at a cell that advance hands on, or none where it passes the cell over (R97). -/
def eligible (s : State) (w : Sweep) (cell : Fin 8 × Fin 8) : Option Site :=
  match s.siteAtCell cell.1 cell.2 with
  | none => none
  | some t =>
    if s.sitePresence t == .present && !(s.verdict t).skip && !(t ∈ w.judged) then some t else none

/-- Step the cursor to the first cell that is not passed over; the number bounds the cells of a window. -/
def advance (s : State) : Nat → Sweep → Sweep × Option Site
  | 0, w => (w, none)
  | n + 1, w =>
    match w.nextCell with
    | none => (w, none)
    | some cell =>
      let w := { w with cursor := some cell }
      match eligible s w cell with
      | some t => (w, some t)
      | none => advance s n w

/-- An END record waits for the slot, and the step's end comes after it (R99, R79). -/
def sweepEnds (s : State) (x : Bus) (kind : EndKind) : State :=
  (s.modCtx x (fun c =>
    { c with
      endPending := some ⟨c.stepTag, c.sweep.judged.length, kind⟩, state := .posting, after := .act .proceed })).post
    (.poke x)

/-- Sweep advance for a context with a RUNNING sweep: start its next site, or end the sweep as WINDOW_END (R96). A
window has at most 64 cells, so 65 steps pass its last one. -/
def nextSite (s : State) (x : Bus) : State :=
  let c := s.ctx x
  match advance s 65 c.sweep with
  | (w, some t) => startSite (s.modCtx x (fun c => { c with sweep := w })) x t
  | (w, none) =>
    sweepEnds (s.modCtx x (fun c => { c with sweep := { w with status := .windowEnd }, resume := .none })) x .windowEnd

/-! ### Releasing (R83, R85) -/

/-- A request of a RELEASE step fails: the first failure builds the step's one record, and HALT_BUS makes HALTED the
destination (R85); so does that of a RELEASE step that an abort has sent toward IDLE (DEDUCED, log 16). The failure is
remembered for as long as the context keeps the step, so that a release after BUS ABORT in HALTED makes no second record. -/
def releaseFails (s : State) (x : Bus) (cause : Cause) : State :=
  let c := s.ctx x
  let s := match c.step, c.relFail with
    | some ⟨_, .release⟩, none =>
      (judgeInvalid s x cause).modCtx x (fun c =>
        { c with
          dest := if c.after = After.act .haltBus then .halted else c.dest
          resume := .none, after := .none })
    | _, _ => s
  s.modCtx x (fun c => { c with relFail := if c.relFail.isNone then some cause else c.relFail })

/-- Ask for the release of every claim (R83, R30). -/
def askRelease (s : State) (x : Bus) : State := opensRequest s x (s.claims x)

/-- Enter RELEASING: quiet first where the source needs it, then the release (R83). -/
def enterReleasing (s : State) (x : Bus) (dest : Dest) : State :=
  let s := s.modCtx x (fun c =>
    { c with state := .releasing, dest := dest, relDone := false, after := .none, lastOk := false, inFlight := none })
  match quietRequest s x with
  | (s, .waits) => s.modCtx x (fun c => { c with request := some .quiet })
  | (s, .failed) => askRelease (releaseFails s x .lane) x
  | (s, _) => askRelease s x

/-- The release is answered. A failed release that ends a MEASURE or CONNECT step, or a HALT_BUS, raises STEP (R83);
that of a RELEASE step makes a record (R85). -/
def releaseAnswered (s : State) (x : Bus) (failure : Option Cause) : State :=
  let s := match failure with
    | none => s
    | some cause =>
      let s := match (s.ctx x).step with
        | some ⟨_, .release⟩ => s
        | some _ => s.raise .step
        | none => s
      releaseFails s x cause
  (s.modCtx x (fun c => { c with relDone := true })).post (.poke x)

/-- The context enters HALTED, which raises STEP (R83, R91, R131, R194). -/
def enterHalted (s : State) (x : Bus) : State :=
  (s.modCtx x (fun c => { c with state := .halted, relDone := false })).raise .step

/-- The context leaves RELEASING for its destination (R83). -/
def arrive (s : State) (x : Bus) : State :=
  match (s.ctx x).dest with
  | .idle => toIdle s x
  | .halted => enterHalted s x

/-- A hold is lost: RELEASING toward IDLE, and STEP (R84). -/
def loseHold (s : State) (x : Bus) : State := enterReleasing (s.raise .step) x .idle

/-! ### Going on after a site (R79, R99, R67) -/

/-- The resume point where the site's work is over: the next site while the sweep is RUNNING, else none; that of HALTED
(R79, R101) and of SUSPENDED after POSTING (R88). -/
def Ctx.nextOrNone (c : Ctx) : Resume := if c.sweep.status = .running then .next else .none

/-- The resume point after the site that a trip ends, or one held for redo, is judged: HALTED for HALT_BUS, else the next
site while the sweep is RUNNING, else none (R59, R101, R103, R132). -/
def Ctx.resumeAfter (c : Ctx) : Resume := if c.after = After.act .haltBus then .halted else c.nextOrNone

/-- The target is still connected as HOLDING has it: every crosspoint CLOSED with no open placed, and a SOURCE bus's
record LIVE (R82; log 13). -/
def connectionStands (s : State) (x : Bus) : Bool :=
  (match (s.ctx x).target with
   | some t => t.points.all (fun p => (s.xp x p).state == .closed && !s.inPriority x p)
   | none => false) &&
  ((s.busEntry x).kind != .source || (s.ctx x).source == .live)

/-- End a step: HOLDING where the hold field says so and the last site's verdict and connection allow it, else
RELEASING toward IDLE (R79). -/
def endStep (s : State) (x : Bus) : State :=
  match (s.ctx x).step with
  | some ⟨_, .measure _ _ _ _ _ _ true⟩ =>
    if (s.ctx x).lastOk && connectionStands s x then enterHolding s x else enterReleasing s x .idle
  | _ => enterReleasing s x .idle

/-- Go on by the action of the judged record, the slot being empty (R79). -/
def goOn (s : State) (x : Bus) (a : Action) : State :=
  match a with
  | .haltBus =>
    enterReleasing (s.modCtx x (fun c => { c with resume := c.nextOrNone })) x .halted
  | _ => if (s.ctx x).sweep.status = .running then nextSite s x else endStep s x

/-- Put an END pending into the empty slot, with the panel number as it now stands, and offer it (R99). -/
def placeEnd (s : State) (x : Bus) : State :=
  let c := s.ctx x
  match c.slot, c.endPending with
  | none, some e =>
    let record : Rec := .sweepEnd { s := false, panel := s.panel.number, bus := x, info := e, folded := 0 }
    offer (s.setCtx x { c with slot := some ⟨record, false⟩, endPending := none }) x
  | _, _ => s

/-- The conditions for taking the head of the step queue, but for the queue itself (R67). -/
def mayTake (s : State) (x : Bus) : Bool :=
  let c := s.ctx x
  (c.state == .idle || c.state == .holding) && s.isReady &&
    (s.panel.state == .opn || s.panel.state == .closing) && c.slot.isNone && c.endPending.isNone && c.request.isNone

/-- Begin a sweep that has a walk (R94, R95). -/
def beginSweep (s : State) (x : Bus) (w : Sweep) : State := nextSite (s.modCtx x (fun c => { c with sweep := w })) x

/-- SWEEP_CONTINUE by the status of the sweep record: walk on, or end at once (R95). -/
def continueSweep (s : State) (x : Bus) (count : Nat) : State :=
  let w := (s.ctx x).sweep
  match w.status with
  | .complete | .aborted => beginSweep s x { w with count := count, judged := [], status := .running }
  | .none => sweepEnds s x .windowEnd
  | .windowEnd | .running =>
    sweepEnds (s.modCtx x (fun c =>
      { c with sweep := { w with count := count, judged := [], status := .windowEnd } })) x .windowEnd

/-- Take the head of the step queue and begin its work (R67). -/
def takeHead (s : State) (x : Bus) : State :=
  match (s.ctx x).queue with
  | [] => s
  | st :: rest =>
    let s := s.modCtx x (fun c =>
      { c with queue := rest, step := some st, lastOk := false, after := .none, captured := none, acc := [],
               relFail := none })
    match st.work with
    | .release => enterReleasing s x .idle
    | .connect t _ => startSite s x t
    | .measure (.single t) _ _ _ _ _ _ => startSite s x t
    | .measure (.sweepStart win axis count) _ _ _ _ _ _ =>
      beginSweep s x { status := .running, window := win, axis := axis, cursor := none, count := count, judged := [] }
    | .measure (.sweepContinue count) _ _ _ _ _ _ => continueSweep s x count

/-- A context whose trip flag is clear leaves TRIPPED by its resume point (R60, R89). The return to HALTED is an entry into
it and raises STEP (R131, R194; DEDUCED, log 20). -/
def leaveTripped (s : State) (x : Bus) : State :=
  match (s.ctx x).resume with
  | .next =>
    if s.isReady then nextSite s x else s.modCtx x (fun c => { c with state := .suspended })
  | .halted => enterHalted (s.modCtx x (fun c => { c with resume := c.nextOrNone })) x
  | _ => toIdle s x

/-- A context looks at what it may do now: place its END, go on after a site, leave RELEASING, SUSPENDED or TRIPPED,
give up a hold in SAFE, or take a step (R67, R79, R83, R86, R88, R89, R99). -/
def poke (s : State) (x : Bus) : State :=
  let s := placeEnd s x
  let c := s.ctx x
  let clear := c.slot.isNone && c.endPending.isNone
  match c.state with
  | .idle => if !c.queue.isEmpty && mayTake s x then takeHead s x else s
  | .holding =>
    if s.isSafe then (if clear then toIdle s x else s)
    else if !c.queue.isEmpty && mayTake s x then takeHead s x else s
  | .releasing => if c.relDone && clear then arrive s x else s
  | .suspended =>
    if c.resume = .none && c.step.isNone then (if clear then toIdle s x else s)
    else if c.resume = .next && s.isReady && clear then nextSite s x
    else s
  | .tripped => if !s.tripped x && clear then leaveTripped s x else s
  | .halted => s
  | _ =>
    if c.inFlight.isSome || c.request.isSome then s
    else
      match c.after with
      | .none => s
      | .abort => enterReleasing s x .idle
      | .act a => if clear then goOn s x a else s.modCtx x (fun c => { c with state := .posting })

/-! ### Mail (R31, R50, R51) -/

/-- What a context does with a thing it is told. A refused make leaves it without a request until the trip or SAFE that
refused it arrives (R71). -/
def doMail (s : State) : Mail → State
  | .makeDone x =>
    if (s.ctx x).state = .making && (s.ctx x).inFlight.isSome then settleDecision s x false else s
  | .makeFailed x cause =>
    if ((s.ctx x).state = .making || (s.ctx x).state = .blocked) && (s.ctx x).inFlight.isSome then endSite s x cause
    else s
  | .makeRefused _ _ => s
  | .opened x failure =>
    match (s.ctx x).state with
    | .breaking =>
      if (s.ctx x).inFlight.isSome then
        match failure with
        | none => askMake s x
        | some cause => endSite s x cause
      else poke s x
    | .releasing => releaseAnswered s x failure
    | _ => s
  | .quieted x ok =>
    match (s.ctx x).state with
    | .quieting =>
      if (s.ctx x).inFlight.isSome then (if ok then afterQuiet s x else endSite s x .lane) else poke s x
    | .releasing => askRelease (if ok then s else releaseFails s x .lane) x
    | _ => s
  | .lived x ok =>
    if (s.ctx x).state = .restoring then
      if (s.ctx x).inFlight.isSome then (if ok then afterLive s x else endSite s x .lane) else poke s x
    else s
  | .poke x => poke s x

/-! ### Outside events (R59, R81, R86, R88, R103, R104) -/

/-- A context enters TRIPPED with a resume point; with none it clears its step, site, net and target (R59). -/
def enterTripped (s : State) (x : Bus) (r : Resume) : State :=
  (s.modCtx x (fun c =>
    { c with
      state := .tripped, resume := r, inFlight := none, after := .none, lastOk := false, settleTimer := none,
      relDone := false
      relFail := if r = .none then none else c.relFail
      step := if r = .none then none else c.step
      site := if r = .none then none else c.site
      net := if r = .none then none else c.net
      target := if r = .none then none else c.target })).post (.poke x)

/-- The slot holds the record of a judged site whose action is HALT_BUS (R132). -/
def Ctx.haltInSlot (c : Ctx) : Bool :=
  c.after == After.act .haltBus && (match c.slot with | some ⟨.measure _, _⟩ => true | _ => false)

/-- The context's part of a trip, by its state (R59, R101, R103). HALTED is remembered for a HALT_BUS record that the trip itself
makes, and for one judged before it and still in the slot, in SUSPENDED too (R132; DEDUCED, log 12). A HALT_BUS record that
BUS ABORT has left in the slot is no such record: the abort has set the action aside (`after` is none), so a trip that finds
it in RELEASING toward IDLE, or in SUSPENDED with resume point none, remembers no step, as those rows of R59 say, where R132
would have HALTED (R86; DEDUCED, log 12). -/
def tripCtx (s : State) (x : Bus) : State :=
  let c := s.ctx x
  match c.state with
  | .tripped => s
  | .idle | .holding => enterTripped s x .none
  | .halted => enterTripped s x .halted
  | .releasing => enterTripped s x (if c.dest = .halted then .halted else .none)
  | .suspended =>
    if c.resume = .redo then
      let s := judgeInvalid s x .trip
      enterTripped s x (s.ctx x).resumeAfter
    else enterTripped s x (if c.haltInSlot then .halted else c.resume)
  | _ =>
    if c.inFlight.isSome then
      let s := if c.state = .measuring then cancelTake s x else s
      let s := judgeInvalid s x .trip
      enterTripped s x (s.ctx x).resumeAfter
    else enterTripped s x (if c.haltInSlot then .halted else c.nextOrNone)

/-- The context's part of the rack entering SAFE, by its state (R88, R102). A context that waits in QUIETING, BREAKING or
RESTORING although its site has ended (R80) has no site to redo and acts as in POSTING (DEDUCED, log 39). The resume point
after POSTING is that of R88's table whatever the record's action; the action stays with the record for a trip (R132;
DEDUCED, log 12). -/
def safeCtx (s : State) (x : Bus) : State :=
  let c := s.ctx x
  match c.state with
  | .holding => s.post (.poke x)
  | .releasing => (s.modCtx x (fun c => { c with relDone := true, request := none })).post (.poke x)
  | .idle | .halted | .suspended | .tripped => s
  | _ =>
    if c.inFlight.isSome then
      let s := if c.state = .measuring then cancelTake s x else s
      s.modCtx x (fun c =>
        { c with state := .suspended, resume := .redo, settleTimer := none, request := none, after := .none,
                 lastOk := false })
    else
      (s.modCtx x (fun c =>
        { c with
          state := .suspended, resume := c.nextOrNone, request := none, lastOk := false
          after := if c.after = .abort then .none else c.after
          step := if c.after = .abort then none else c.step })).post (.poke x)

/-- The context's part of the rack becoming READY (R88, R159). -/
def readyCtx (s : State) (x : Bus) : State :=
  let c := s.ctx x
  match c.state with
  | .suspended =>
    match c.resume with
    | .redo =>
      match c.inFlight with
      | some t => startSite s x t
      | none => s.post (.poke x)
    | .halted => enterReleasing (s.modCtx x (fun c => { c with resume := c.nextOrNone })) x .halted
    | .none => if c.step.isSome then enterReleasing s x .idle else s.post (.poke x)
    | .next => s.post (.poke x)
  | .idle | .holding => s.post (.poke x)
  | _ => s

/-- The departure of site `t` reaches a context (R168, R81, R103). -/
def departCtx (s : State) (t : Site) (x : Bus) : State :=
  let c := s.ctx x
  match c.state with
  | .idle | .releasing | .tripped | .halted => s
  | .holding => if c.site = some t then loseHold s x else s
  | .suspended =>
    if c.inFlight = some t then
      let s := judgeInvalid s x .departed
      (s.modCtx x (fun c => { c with resume := c.resumeAfter, after := .none, lastOk := false })).post (.poke x)
    else s
  | _ => if c.inFlight = some t then endSite s x .departed else s

/-- The current target lies on a card. -/
def Ctx.onCard (c : Ctx) (card : CardId) : Bool :=
  match c.target with
  | some t => cardOfBlock t.block == card
  | none => false

/-- The loss of a card reaches a bus that claimed a crosspoint of it (R81, R84). -/
def cardLossCtx (s : State) (card : CardId) (x : Bus) : State :=
  let c := s.ctx x
  if !c.onCard card then s
  else
    match c.state with
    | .settling | .restoring | .measuring => if c.inFlight.isSome then endSite s x .lane else s
    | .holding => loseHold s x
    | _ => s

/-- The loss of an instrument lane reaches a bus on it (R81, R84). -/
def instrumentLossCtx (s : State) (x : Bus) : State :=
  let c := s.ctx x
  match c.state with
  | .measuring => if c.inFlight.isSome then endSite s x .lane else s
  | .holding => loseHold s x
  | _ => s

/-- A RUNNING sweep ends as ABORTED (R104). -/
def abortSweep (s : State) (x : Bus) : State :=
  s.modCtx x (fun c =>
    if c.sweep.status = .running then
      { c with
        sweep := { c.sweep with status := .aborted }
        endPending := some ⟨c.stepTag, c.sweep.judged.length, .aborted⟩ }
    else c)

/-- The context's part of BUS ABORT, by its state; the step queue is already empty (R86, R104). In SUSPENDED the step is
cleared at the abort, before the context enters IDLE (DEDUCED, log 32). The action of a record still in the slot is set aside,
so that a later trip does not remember HALTED for it (DEDUCED, log 12). -/
def abortCtx (s : State) (x : Bus) : State :=
  let c := s.ctx x
  match c.state with
  | .idle => s
  | .holding => enterReleasing s x .idle
  | .releasing => ((abortSweep s x).modCtx x (fun c => { c with dest := .idle, resume := .none })).post (.poke x)
  | .suspended =>
    let s := if c.resume = .redo then judgeInvalid s x .aborted else s
    ((abortSweep s x).modCtx x (fun c =>
      { c with resume := .none, step := none, inFlight := none, after := .none, lastOk := false })).post (.poke x)
  | .tripped => enterTripped (abortSweep s x) x .none
  | .halted => (enterReleasing ((abortSweep s x).modCtx x (fun c => { c with resume := .none })) x .idle).post (.poke x)
  | _ =>
    let s := if c.inFlight.isSome then endSite s x .aborted else s
    ((abortSweep s x).modCtx x (fun c => { c with after := .abort })).post (.poke x)

/-- A HALTED context leaves HALTED by its resume point (R87). -/
def resumeHalted (s : State) (x : Bus) : State :=
  match (s.ctx x).resume with
  | .next =>
    if s.isReady then nextSite s x else s.modCtx x (fun c => { c with state := .suspended })
  | _ => toIdle s x

/-! ### Working through the consequences of a command (log 6, log 7) -/

/-- Handle what is left to do, the matrix controller's work first; the number bounds the pieces (log 7). -/
def drain : Nat → State → State
  | 0, s => s
  | n + 1, s =>
    match s.matrixWork, s.mail with
    | w :: rest, _ => drain n (doMatrix { s with matrixWork := rest } w)
    | [], m :: rest => drain n (doMail { s with mail := rest } m)
    | [], [] => s

/-- The bound on the pieces of work of one command (log 7). -/
def drainBound : Nat := 1000000

end Sys2Proof.Machine
end

