-- ==== Sys2Proof/Machine/Trunk.lean ====
section
/-!
DEFINITION. The trunk controller (spec/11): the response list, the taking of a command, the choice of the next
upward frame, what is removed when a frame has been sent, and the end of a command that has consequences.
-/

namespace Sys2Proof.Machine

/-- Change the trunk controller's state. -/
def State.modTrunk (s : State) (f : Trunk → Trunk) : State := { s with trunk := f s.trunk }

/-- A response joins the list (R188). -/
def State.respond (s : State) (tag : Half) (kind : Byte) (status : Status) (data : List Byte) : State :=
  s.modTrunk (fun t => { t with responses := t.responses ++ [⟨tag, kind, status, data, none⟩] })

/-- A response joins the list and is held at its place (R188). -/
def State.respondHeld (s : State) (tag : Half) (kind : Byte) (h : Holder) : State :=
  s.modTrunk (fun t => { t with responses := t.responses ++ [⟨tag, kind, .ok, [], some h⟩] })

/-- The held response of a lane's test is completed (R184, R188). -/
def completeHeld (s : State) (l : LaneId) (data : List Byte) : State :=
  s.modTrunk (fun t =>
    { t with responses := t.responses.map (fun r =>
        if r.heldBy = some (.lane l) then { r with data := data, heldBy := none } else r) })

/-! ### The transmitter (R189, R195, R151) -/

/-- An ATTENTION frame is due (R195). -/
def Trunk.attentionDue (t : Trunk) : Bool := t.attn.highest != t.lastReported

/-- Start an ATTENTION frame (R195). -/
def Trunk.sendAttention (t : Trunk) : Trunk :=
  { t with
    tx := some (.attention t.attnSeq t.attn.highest t.attn)
    attnSeq := t.attnSeq + 1
    lastReported := t.attn.highest }

/-- Start a RESULT frame with the head record (R151, R189). -/
def Trunk.sendResult (t : Trunk) (r : Rec) : Trunk :=
  { t with tx := some (.result t.resultSeq r true), resultSeq := t.resultSeq + 1 }

/-- The frame that a free transmitter starts with these records in the queue: an attention frame that is due, else a
ready response at the head, else the head record unless the flow is held (R189). -/
def Trunk.start (t : Trunk) (records : List Rec) : Trunk :=
  if t.attentionDue then t.sendAttention
  else
    match t.responses.head?, records with
    | some r, _ =>
      if r.heldBy.isNone then { t with tx := some (.response r) }
      else
        match records with
        | q :: _ => if t.flowHold then t else t.sendResult q
        | [] => t
    | none, q :: _ => if t.flowHold then t else t.sendResult q
    | none, [] => t

/-- Start the next upward frame if the transmitter is free (R189). -/
def pump (s : State) : State :=
  if s.trunk.tx.isSome then s else s.modTrunk (fun t => t.start s.queue.records)

/-- A command has done its own part: its consequences are worked through, the panel is tested for its close, and the
transmitter is looked at (log 6, R138, R189). -/
def finish (s : State) : State := pump (panelCheck (drain drainBound s))

/-- The last byte of the frame in the transmitter has been sent: a response leaves the list (log 10), a record leaves
the queue unless RACK RESET took it (R151, R153). -/
def frameDone (s : State) : State :=
  match s.trunk.tx with
  | none => s
  | some (.attention _ _ _) => s.modTrunk (fun t => { t with tx := none })
  | some (.response _) => s.modTrunk (fun t => { t with tx := none, responses := t.responses.tail })
  | some (.result _ _ queued) =>
    let s := s.modTrunk (fun t => { t with tx := none })
    if queued then removeHead s else s

/-! ### Taking a command (R187, R188) -/

/-- What a command's owner answers: a refusal; or the state after the command with the response's data, where `ran`
has consequences to be worked through, and `held` keeps the response back for a lane's test. -/
inductive Reply where
  | refused (st : Status)
  | ok (s : State) (data : List Byte)
  | ran (s : State) (data : List Byte)
  | held (s : State) (l : LaneId)
  deriving DecidableEq, Repr

/-- Put an owner's reply into the response list and go on (R187, R188). -/
def answer (s : State) (kind : Byte) (tag : Half) : Reply → State
  | .refused st => pump (s.respond tag kind st [])
  | .ok s' data => pump (s'.respond tag kind .ok data)
  | .ran s' data => finish (s'.respond tag kind .ok data)
  | .held s' l => pump (s'.respondHeld tag kind (.lane l))

/-- A command frame that passed R186 is taken: discarded while 32 responses wait, refused for its length, or handed
to its owner (R187, R188). -/
def takeCommand (s : State) (kind : Byte) (tag : Half) (payload : List Byte) (length : Nat)
    (owner : State → Reply) : State :=
  if 32 ≤ s.trunk.responses.length then s
  else if payload.length ≠ length then pump (s.respond tag kind .badLength [])
  else answer s kind tag (owner s)

/-- The bus a one-byte payload names (spec/12), or none above 7. -/
def busAt (payload : List Byte) (i : Nat) : Option Bus :=
  if h : byteAt payload i < 8 then some ⟨byteAt payload i, h⟩ else none

/-- The lane a payload byte names, or none above 7. -/
def laneAt (payload : List Byte) (i : Nat) : Option LaneId := busAt payload i

end Sys2Proof.Machine
end

