-- ==== Sys2Proof/Machine/Guard.lean ====
section
/-!
DEFINITION. The guard and rack-state unit: guard sources and trips (spec/03, 3.4 to 3.6), entering SAFE and leaving it
(spec/09, 9.1 to 9.2), presence, departures and supply (spec/09, 9.4, 9.5).
-/

namespace Sys2Proof.Machine

/-- Change the guard unit's state. -/
def State.modGuard (s : State) (f : Guard → Guard) : State := { s with guard := f s.guard }

/-! ### Guard sources and trips -/

/-- The selected guard source of a bus is asserted now (R55). -/
def asserted (s : State) (x : Bus) : Bool :=
  match (s.busEntry x).guardSource with
  | .off => false
  | .instrument => s.guard.instTrips[tripNo (s.busEntry x).lane (s.busEntry x).channel]
  | .rackLine => s.guard.tripIn
  | .fixture n => s.guard.fx[n]
  | .forced => true

/-- A trip of one bus, in the order of R58. -/
def tripBus (s : State) (x : Bus) : State :=
  let s := s.setTripped x true
  let s := emergencyQuiet s x
  let s := emergencyOpen s x
  (tripCtx s x).raise .guard

/-- An evaluation finds what a trip needs: enabled, flag clear, source asserted (R57). -/
def tripsNow (s : State) (x : Bus) : Bool := (s.busEntry x).enabled && !s.tripped x && asserted s x

/-- An evaluation of one bus (R57). -/
def evaluate (s : State) (x : Bus) : State := if tripsNow s x then tripBus s x else s

/-- Evaluate the buses that `which` names, in rising order (R55). -/
def evaluateThose (s : State) (which : BusEntry → Bool) : State :=
  (allBuses.filter (fun x => which (s.busEntry x))).foldl evaluate s

/-- An instrument trip state takes a value; if that changes it, the buses on the lane and channel are evaluated
(R54, R55). -/
def setInstTrip (s : State) (l : LaneId) (ch : Chan) (v : Bool) : State :=
  if s.guard.instTrips[tripNo l ch] = v then s
  else
    evaluateThose (s.modGuard (fun g => { g with instTrips := g.instTrips.set (tripNo l ch) v }))
      (fun e => e.lane == l && e.channel == ch)

/-- The four trip states of a lane become deasserted when it completes TRAIN with an INSTRUMENT (R54). -/
def clearInstTrips (s : State) (l : LaneId) : State :=
  s.modGuard (fun g =>
    { g with instTrips :=
        (((g.instTrips.set (tripNo l 0) false).set (tripNo l 1) false).set (tripNo l 2) false).set (tripNo l 3) false })

/-! ### SAFE and READY -/

/-- The rack enters SAFE because the lid opened: quiets, opens, contexts, GUARD (R156, R158). -/
def lidOpened (s : State) : State :=
  let s := s.modGuard (fun g => { g with rack := .safe .interlock, interlock := .opn, lidOpen := true })
  let s := allBuses.foldl emergencyQuiet s
  let s := allBuses.foldl emergencyOpen s
  (allBuses.foldl safeCtx s).raise .guard

/-- The rack becomes READY and every context is told (R159, R161, R88). -/
def becomeReady (s : State) : State := allBuses.foldl readyCtx (s.modGuard (fun g => { g with rack := .ready }))

/-! ### Supply (R166) -/

/-- A card's whole supply setting: block k is on when the site on it has supply ON (R166). -/
def supplyMask (s : State) (c : CardId) : Byte :=
  byte (((List.finRange 8).map (fun k : Fin 8 =>
    match s.siteOnBlock (blockOnCard c k) with
    | some t => if s.supplyOn t then 2 ^ k.val else 0
    | none => 0)).sum)

/-- Send a SUPPLY frame with a setting to a card on a lane, if the lane is ACTIVE with a CARD partner (R166, R171). -/
def sendSupply (s : State) (l : LaneId) (mask : Byte) : State :=
  if s.laneHasCard l then s.emit l (.supply mask) else s

/-- Send a card its setting on the lane its entry names (R166). -/
def sendCardSupply (s : State) (c : CardId) : State :=
  match (s.cardEntry c).lane with
  | some l => sendSupply s l (supplyMask s c)
  | none => s

/-- The sites on a card's blocks whose supply record is ON, rising by block (R165). -/
def poweredOnCard (s : State) (c : CardId) : List Site :=
  (List.finRange 8).filterMap (fun k =>
    match s.siteOnBlock (blockOnCard c k) with
    | some t => if s.supplyOn t then some t else none
    | none => none)

/-- A card can no longer report: its blocks become UNKNOWN and the supplies on them OFF, with no frame (R165). -/
def cardBlocksLost (s : State) (c : CardId) : State :=
  let off := poweredOnCard s c
  let s := (List.finRange 8).foldl (fun s k => s.setPresence (blockOnCard c k) .unknown) s
  off.foldl (fun s t => s.setSupply t false) s

/-! ### Presence (R163, R164, R168) -/

/-- Set a site's arrival delta and raise SITE (R164). -/
def arrives (s : State) (t : Site) : State :=
  (s.modGuard (fun g => { g with arrival := g.arrival.set t true })).raise .site

/-- Set a site's departure delta and raise SITE (R164). -/
def departs (s : State) (t : Site) : State :=
  (s.modGuard (fun g => { g with departure := g.departure.set t true })).raise .site

/-- One block of a PRESENCE frame: its value, the deltas of its site, and the supply record of a departing powered
site, which is returned (R163, R164, R168). -/
def blockReport (s : State) (b : Block) (present : Bool) : State × Option Site :=
  let held := s.blockPresence b
  if present then
    if held = .present then (s, none)
    else
      let s := s.setPresence b .present
      match s.siteOnBlock b with
      | some t => (arrives s t, none)
      | none => (s, none)
  else
    if held = .absent then (s, none)
    else
      let s := s.setPresence b .absent
      if held = .unknown then (s, none)
      else
        match s.siteOnBlock b with
        | none => (s, none)
        | some t =>
          if s.supplyOn t then (departs (s.setSupply t false) t, some t) else (departs s t, none)

/-- The eight blocks of a report in rising order; the departed powered sites are collected (R163). -/
def blockReports (s : State) (c : CardId) (mask : Byte) : State × List Site :=
  (List.finRange 8).foldl (fun (r : State × List Site) k =>
    match blockReport r.1 (blockOnCard c k) (mask.getLsbD k.val) with
    | (s, some t) => (s, r.2 ++ [t])
    | (s, none) => (s, r.2)) (s, [])

/-- A PRESENCE frame of card `c` is taken on lane `l` (R163, R168). One SUPPLY frame carries the setting after all of
it, before the contexts are told (R166, log 18). -/
def presenceTaken (s : State) (l : LaneId) (c : CardId) (mask : Byte) : State :=
  match blockReports s c mask with
  | (s, []) => s
  | (s, gone) => gone.foldl (fun s t => allBuses.foldl (fun s x => departCtx s t x) s) (sendSupply s l (supplyMask s c))

end Sys2Proof.Machine
end

