-- ==== Sys2Proof/Machine/Lanes.lean ====
section
/-!
DEFINITION. The lane controllers (spec/10): entering DETECT, leaving ACTIVE with its reports, training, recovery and
the loopback test.
-/

namespace Sys2Proof.Machine

/-- Change a lane record. -/
def State.modLane (s : State) (l : LaneId) (f : Lane → Lane) : State := s.setLane l (f (s.lane l))

/-- The lane has no partner (R170). Its training fault keeps its value (R185; DEDUCED, log 40). -/
def Lane.alone (k : Lane) (st : LaneState) : Lane :=
  { k with state := st, partner := .none, channels := 0, phase := .identification }

/-- Enter DETECT: the first PROBE goes out, the probe timer runs (R173). -/
def enterDetect (s : State) (l : LaneId) : State := (s.modLane l (fun k => k.alone .detect)).emit l .probe

/-- A lane takes a good frame: in ACTIVE its error count returns to 0 (R176). -/
def goodFrame (s : State) (l : LaneId) : State :=
  if (s.lane l).state = .active then s.modLane l (fun k => { k with errors := 0 }) else s

/-- The reports of a lane that was ACTIVE with a CARD partner (R177, R39, R165, R81, R84). -/
def reportCardLoss (s : State) (l : LaneId) : State :=
  match s.cardOnLane l with
  | none => s
  | some c =>
    match cardLost s c with
    | (s, told) => told.foldl (fun s x => cardLossCtx s c x) (cardBlocksLost s c)

/-- The reports of a lane that was ACTIVE with an INSTRUMENT partner (R177, R53, R81, R84; log 17). -/
def reportInstrumentLoss (s : State) (l : LaneId) : State :=
  (allBuses.filter (fun x => (s.busEntry x).lane == l)).foldl instrumentLossCtx (sourcesLost s l)

/-- A lane's record as it leaves ACTIVE for RECOVER, DOWN or OFF: RECOVER keeps the partner (R172, R178, R182). -/
def Lane.left (k : Lane) (cause : LossCause) : Lane :=
  match cause with
  | .errors | .cardRequest => { k with state := .recover, loss := cause }
  | .off => { (k.alone .off) with loss := cause }
  | _ => { (k.alone .down) with loss := cause }

/-- A lane leaves ACTIVE: loss cause, LANE attention, the new state with RESYNC for RECOVER, and the reports by the
partner kind recorded at that moment (R177, R178). -/
def laneLeave (s : State) (l : LaneId) (cause : LossCause) : State :=
  let partner := (s.lane l).partner
  let s := (s.modLane l (fun k => k.left cause)).raise .lane
  let s := if (s.lane l).state = .recover then s.emit l .resync else s
  match partner with
  | .card => reportCardLoss s l
  | .instrument => reportInstrumentLoss s l
  | .none => s

/-- The matrix controller asks card `c`'s lane to enter RECOVER (R179). -/
def askRecover (s : State) (c : CardId) : State :=
  match (s.cardEntry c).lane with
  | none => s
  | some l => if (s.lane l).state = .active then laneLeave s l .cardRequest else s

/-- Ask for RECOVER where the end of an order says so (R24, R25). -/
def thenRecover (c : CardId) (r : State × Bool) : State := if r.2 then askRecover r.1 c else r.1

/-! ### Training (R174, R175) -/

/-- Enter TRAIN, identification: the part's IDENT goes out (R174). The training fault of an earlier attempt stands while
this one runs and when it is abandoned (DEDUCED, log 40). -/
def enterTrain (s : State) (l : LaneId) : State :=
  (s.modLane l (fun k => { k with state := .train, phase := .identification })).emit l .ident

/-- What a partner's IDENT declares, if it passes the check (R174). -/
def identified (kind channels rows columns : Byte) : Option (Partner × Fin 5) :=
  if kind = 1#8 then (if rows = 8#8 && columns = 64#8 then some (.card, 0) else none)
  else if kind = 2#8 then
    if h : 1 ≤ channels.toNat ∧ channels.toNat ≤ 4 then some (.instrument, ⟨channels.toNat, by omega⟩) else none
  else none

/-- An IDENT taken in the identification phase: refused with BAD_IDENT, or recorded and the clearing phase begun
(R174, R175). -/
def identTaken (s : State) (l : LaneId) (kind channels rows columns : Byte) : State :=
  match identified kind channels rows columns with
  | none => enterDetect (s.modLane l (fun k => { k with fault := .badIdent })) l
  | some (partner, n) =>
    let s := s.modLane l (fun k => { k with partner := partner, channels := n, phase := .clearing })
    if partner = .card then sourcesQuieted (s.emit l .allOpen) l else s.emit l .quietAll

/-- The lane is ACTIVE (R175, R178). -/
def Lane.activated (k : Lane) : Lane := { k with state := .active, errors := 0 }

/-- A good CLEARED in the clearing phase: the lane is ACTIVE, and its users are told (R175). -/
def clearedTaken (s : State) (l : LaneId) : State :=
  let s := (s.modLane l (fun k => { k.activated with fault := .none })).raise .lane
  match (s.lane l).partner with
  | .card =>
    match s.cardOnLane l with
    | some c => allOpenConfirmed s c
    | none => s
  | .instrument => clearInstTrips (sourcesQuieted s l) l
  | .none => s

/-- The partner codes of IDENT and RESYNC (spec/12). -/
def Partner.code : Partner → Nat
  | .none => 0
  | .card => 1
  | .instrument => 2

/-- A good RESYNC in RECOVER: back to ACTIVE if it repeats the recorded kind and count, else DOWN (R178; log 24). -/
def resyncTaken (s : State) (l : LaneId) (kind channels : Byte) : State :=
  let k := s.lane l
  if k.partner.code = kind.toNat && k.channels.val = channels.toNat then
    let s := (s.setLane l k.activated).raise .lane
    match k.partner, s.cardOnLane l with
    | .card, some c => recoveryOpens s c
    | _, _ => s
  else s.setLane l { (k.alone .down) with loss := .resyncMismatch }

/-! ### The loopback test (R183, R184) -/

/-- The data of a LANE TEST response: n, frames sent, frames matched (spec/12). -/
def Lane.testData (k : Lane) : List Byte := [byte k.testCount, byte k.testSent, byte k.testMatched]

/-- The lane's test progress is given up (log 23). -/
def Lane.noTest (k : Lane) : Lane := { k with testCount := 0, testSent := 0, testMatched := 0 }

/-- A running test ends: its held response is completed with the counts reached (R184). -/
def endTest (s : State) (l : LaneId) : State :=
  if (s.lane l).state = .test then (completeHeld s l (s.lane l).testData).modLane l Lane.noTest else s

/-- A test begins: the lane leaves its partner and sends the first test frame (R183, R184). -/
def startTest (s : State) (l : LaneId) (n : Nat) : State :=
  (s.modLane l (fun k => { (k.alone .test) with testCount := n, testSent := 0, testMatched := 0 })).emit l (.test 1#8)

/-- The frame in the loop is over, matched or not: the next one goes out, or the test ends in DETECT (R184). -/
def testFrameOver (s : State) (l : LaneId) (matched : Bool) : State :=
  let k := s.lane l
  let k := { k with testSent := k.testSent + 1, testMatched := if matched then k.testMatched + 1 else k.testMatched }
  let s := s.setLane l k
  if k.testCount ≤ k.testSent then enterDetect (endTest s l) l else s.emit l (.test (byte (k.testSent + 1)))

end Sys2Proof.Machine
end

