-- ==== Sys2Proof/Machine/Frames.lean ====
section
/-!
DEFINITION. The frames the part sends, as bytes (spec/12): lane frames, RESULT records, and the three kinds of
upward trunk frame; and the one-byte codes that more than one of them shares.
-/

namespace Sys2Proof.Machine

/-! ### Codes (spec/12) -/

/-- The status codes of a response. -/
def Status.code : Status → Byte
  | .ok => 0#8
  | .badKind => 1#8
  | .badLength => 2#8
  | .badValue => 3#8
  | .badIndex => 4#8
  | .full => 5#8
  | .inUse => 6#8
  | .state => 7#8
  | .panel => 8#8
  | .busy => 9#8
  | .asserted => 10#8

/-- The attention classes by their priority; 0 is NONE. -/
def AttnClass.code : AttnClass → Byte
  | .guard => 1#8
  | .lane => 2#8
  | .step => 3#8
  | .site => 4#8
  | .progress => 5#8

/-- The attention set: class c pending in bit c − 1. -/
def AttnSet.mask (a : AttnSet) : Byte :=
  let bit (b : Bool) (n : Nat) : Nat := if b then n else 0
  byte (bit a.guard 1 + bit a.lane 2 + bit a.step 4 + bit a.site 8 + bit a.progress 16)

/-- The verdict codes. -/
def Verdict.code : Verdict → Byte
  | .pass => 0#8
  | .marginal => 1#8
  | .failLow => 2#8
  | .failHigh => 3#8
  | .invalid => 4#8

/-- The cause codes. -/
def Cause.code : Cause → Byte
  | .notAvailable => 0#8
  | .lane => 1#8
  | .orderFail => 2#8
  | .conflict => 3#8
  | .timeout => 4#8
  | .trip => 5#8
  | .departed => 6#8
  | .aborted => 7#8

/-- The end kinds. -/
def EndKind.code : EndKind → Byte
  | .complete => 0#8
  | .windowEnd => 1#8
  | .aborted => 2#8

/-- Flags Z, N, V, W and S in bits 0 to 4. -/
def Flags.mask (f : Flags) : Byte :=
  let bit (b : Bool) (n : Nat) : Nat := if b then n else 0
  byte (bit f.z 1 + bit f.n 2 + bit f.v 4 + bit f.w 8 + bit f.s 16)

/-- A number that may be NONE, in one byte: NONE is FFh. -/
def orNone8 : Option Nat → Byte
  | some n => byte n
  | none => 0xFF#8

/-- A list of varying length: a count byte, then `slots` slots, the unused ones FFh. -/
def listBytes (slots : Nat) (l : List Nat) : List Byte :=
  byte l.length :: ((l.map byte) ++ List.replicate slots 0xFF#8).take slots

/-- A tag that may be none: a presence byte, then the tag or zeros. -/
def orNoneTag : Option Half → List Byte
  | some t => 1#8 :: le16 t.toNat
  | none => [0#8, 0#8, 0#8]

/-! ### Upward trunk frames -/

/-- A RESULT record (spec/12, RESULT records). -/
def Rec.bytes : Rec → List Byte
  | .measure r =>
    [0#8, r.flags.mask, r.panel, byte r.bus.val] ++ le16 r.tag.toNat ++
      [orNone8 (r.site.map Fin.val), byte r.ordinal, r.verdict.code, byte r.bin.val, byte r.samples, byte r.unit.val] ++
      le32 r.folded ++
      (match r.body with
       | .value v => leInt32 v
       | .invalid c => [c.code])
  | .fold n s => [1#8, (Flags.mask ⟨false, false, false, false, s⟩)] ++ le32 n
  | .sweepEnd r =>
    [2#8, (Flags.mask ⟨false, false, false, false, r.s⟩), r.panel, byte r.bus.val] ++ le16 r.info.tag.toNat ++
      [byte r.info.judged, r.info.kind.code] ++ le32 r.folded

/-- An upward frame as bytes, its check included (spec/12, 12.1). -/
def TxFrame.bytes : TxFrame → List Byte
  | .attention seq h a => trunkFrameBytes 0x82#8 seq [(match h with | some c => c.code | none => 0#8), a.mask]
  | .response r => trunkFrameBytes 0x80#8 r.tag (r.kind :: r.status.code :: r.data)
  | .result seq r _ => trunkFrameBytes 0x81#8 seq r.bytes

/-! ### Lane frames -/

/-- A lane frame's kind byte and fields (spec/12, 12.2); IDENT names the lane it goes out on (R174). -/
def LaneFrame.body (l : LaneId) : LaneFrame → List Byte
  | .probe => [0x01#8]
  | .ident => [0x02#8, byte l.val]
  | .allOpen => [0x03#8]
  | .quietAll => [0x04#8]
  | .resync => [0x06#8]
  | .order tag close bus columns =>
    [0x10#8, tag, byte columns.length] ++
      columns.flatMap (fun c => [byte c.val, byte (bus.val + if close then 128 else 0)])
  | .supply mask => [0x13#8, mask]
  | .quiet ch => [0x20#8, byte ch.val]
  | .live ch => [0x21#8, byte ch.val]
  | .take ch tag n => [0x23#8, byte ch.val, tag, byte n]
  | .cancel ch tag => [0x24#8, byte ch.val, tag]
  | .test seq => [0x30#8, seq, seq, ~~~seq, seq, ~~~seq]

/-- A lane frame as bytes, its check last (spec/12, 12.2). -/
def LaneFrame.bytes (l : LaneId) (f : LaneFrame) : List Byte := f.body l ++ [crc8 (f.body l)]

end Sys2Proof.Machine
end

