-- ==== Sys2Proof/Machine/Operands.lean ====
section
/-!
DEFINITION. The operands of the commands with more than one field: the STEP payload with its checks (R63, R64), and
the entries of the nine tables as a TABLE WRITE carries them and a TABLE READ returns them (spec/12, Table access).
-/

namespace Sys2Proof.Machine

/-! ### STEP (R63, R64) -/

/-- The window, axis and count of a SWEEP_START, checked (R64 check 4). -/
def sweepStart? (p : List Byte) : Option Selection := do
  let c0 ← fin? 8 (byteAt p 6)
  let c1 ← fin? 8 (byteAt p 7)
  let r0 ← fin? 8 (byteAt p 8)
  let r1 ← fin? 8 (byteAt p 9)
  let axis ← (match byteAt p 10 with
    | 0 => some Axis.rows
    | 1 => some Axis.columns
    | _ => none)
  let count := byteAt p 11
  if c0 ≤ c1 ∧ r0 ≤ r1 ∧ 1 ≤ count ∧ count ≤ 32 then some (.sweepStart ⟨c0, c1, r0, r1⟩ axis count) else none

/-- The site selection of a MEASURE step, checked (R64 checks 3 and 4). -/
def selection? (p : List Byte) : Option Selection :=
  match byteAt p 4 with
  | 0 => (fin? 32 (byteAt p 5)).map Selection.single
  | 1 => sweepStart? p
  | 2 => if 1 ≤ byteAt p 11 ∧ byteAt p 11 ≤ 32 then some (.sweepContinue (byteAt p 11)) else none
  | _ => none

/-- The step kind, the index checks passed (R64 check 3): the net, and for SINGLE the site, beyond its table. -/
def stepIndexBad (p : List Byte) : Bool :=
  let kind := byteAt p 3
  8 ≤ byteAt p 2 ||
    ((kind == 0 || kind == 1) && (64 ≤ byteAt p 12 || (byteAt p 4 == 0 && 32 ≤ byteAt p 5)))

/-- The net of a MEASURE or CONNECT step may be used by the bus (R64 check 4, R46). -/
def netUsable (s : State) (x : Bus) (n : Net) : Bool :=
  (s.netEntry n).pinCount != 0 && (s.netEntry n).kind == (s.busEntry x).kind.netKind

/-- The work of a STEP payload, or none for BAD_VALUE (R64 check 4). -/
def stepWork (s : State) (x : Bus) (p : List Byte) : Option Work := do
  if !(s.busEntry x).enabled then none
  match byteAt p 3 with
  | 0 =>
    let net ← fin? 64 (byteAt p 12)
    let sel ← selection? p
    let hold ← yesNo? (byteAt p 18)
    let k := byteAt p 14
    let d := byteAt p 15
    let timeout := numAt16 p 16
    if netUsable s x net ∧ 1 ≤ k ∧ k ≤ 16 ∧ d ≤ 3 ∧ 1 ≤ timeout ∧ timeout ≤ 60000 then
      some (.measure sel net ⟨byteAt p 13, by unfold byteAt; omega⟩ k d timeout hold)
    else none
  | 1 =>
    let net ← fin? 64 (byteAt p 12)
    let site ← fin? 32 (byteAt p 5)
    if netUsable s x net ∧ byteAt p 4 = 0 then some (.connect site net) else none
  | 2 => some .release
  | _ => none

/-- A STEP payload after the checks of R64, in their order: the bus and the step, or the refusing status. -/
def stepChecked (s : State) (p : List Byte) : Except Status (Bus × Step) :=
  if s.panel.state ≠ .opn then .error .panel
  else if s.guard.rack = .service then .error .state
  else if stepIndexBad p then .error .badIndex
  else
    match busAt p 2 with
    | none => .error .badIndex
    | some x =>
      match stepWork s x p with
      | none => .error .badValue
      | some work =>
        if 8 ≤ (s.ctx x).queue.length then .error .full
        else .ok (x, ⟨BitVec.ofNat 16 (numAt16 p 0), work⟩)

/-! ### STEP, encoded (spec/12, The STEP payload) -/

/-- Axes (R92). -/
def Axis.code : Axis → Byte
  | .rows => 0#8
  | .columns => 1#8

/-- Bytes 4 to 11 of a STEP payload: selection, site, window, axis and count; what the selection does not use is 0. -/
def Selection.bytes : Selection → List Byte
  | .single t => [0#8, byte t.val, 0#8, 0#8, 0#8, 0#8, 0#8, 0#8]
  | .sweepStart w axis n =>
    [1#8, 0#8, byte w.c0.val, byte w.c1.val, byte w.r0.val, byte w.r1.val, axis.code, byte n]
  | .sweepContinue n => [2#8, 0#8, 0#8, 0#8, 0#8, 0#8, 0#8, byte n]

/-- Bytes 3 to 19 of a STEP payload. -/
def Work.bytes : Work → List Byte
  | .measure sel net limit k d timeout hold =>
    0#8 :: sel.bytes ++ [byte net.val, byte limit.val, byte k, byte d] ++ le16 timeout ++ [yesNo hold, 0#8]
  | .connect t net => 1#8 :: (Selection.single t).bytes ++ [byte net.val, 0#8, 0#8, 0#8, 0#8, 0#8, 0#8, 0#8]
  | .release => 2#8 :: List.replicate 16 0#8

/-- The STEP payload of a step for bus `x`. -/
def Step.bytes (x : Bus) (st : Step) : List Byte := le16 st.tag.toNat ++ byte x.val :: st.work.bytes

/-! ### Table entries, decoded (R5, R11, R43, R37, R110, R124, R130, R105, R197) -/

/-- A SITE entry of four bytes (R5). -/
def siteEntry? (b : List Byte) : Option SiteEntry := do
  let enabled ← yesNo? (byteAt b 0)
  let col ← fin? 8 (byteAt b 1)
  let row ← fin? 8 (byteAt b 2)
  let block ← fin? 32 (byteAt b 3)
  some { enabled, col, row, block }

/-- The net kind codes (spec/12). -/
def netKind? : Nat → Option NetKind
  | 0 => some .force
  | 1 => some .sense
  | 2 => some .reference
  | _ => none

/-- The offsets of a net are distinct in the positions it uses and 0 in the others (R11). -/
def offsetsFit (n : Nat) (o0 o1 o2 o3 : Fin 8) : Bool :=
  let l := [o0, o1, o2, o3]
  decide (l.take n).Nodup && (l.drop n).all (· == 0)

/-- A NET entry of eight bytes (R11). -/
def netEntry? (b : List Byte) : Option NetEntry := do
  let n ← fin? 5 (byteAt b 0)
  let o0 ← fin? 8 (byteAt b 1)
  let o1 ← fin? 8 (byteAt b 2)
  let o2 ← fin? 8 (byteAt b 3)
  let o3 ← fin? 8 (byteAt b 4)
  let kind ← netKind? (byteAt b 5)
  let settle := numAt16 b 6
  if settle ≤ 2000 ∧ offsetsFit n.val o0 o1 o2 o3 then
    some { pinCount := n, offsets := #v[o0, o1, o2, o3], kind := kind, settle := settle }
  else none

/-- The bus kind codes (spec/12). -/
def busKind? : Nat → Option BusKind
  | 0 => some .source
  | 1 => some .measure
  | 2 => some .reference
  | _ => none

/-- The guard source codes (spec/12). -/
def guardSource? : Nat → Option GuardSource
  | 0 => some .off
  | 1 => some .instrument
  | 2 => some .rackLine
  | 3 => some (.fixture 0)
  | 4 => some (.fixture 1)
  | 5 => some (.fixture 2)
  | 6 => some (.fixture 3)
  | 7 => some .forced
  | _ => none

/-- A BUS entry of six bytes (R43). -/
def busEntry? (b : List Byte) : Option BusEntry := do
  let enabled ← yesNo? (byteAt b 0)
  let kind ← busKind? (byteAt b 1)
  let lane ← fin? 8 (byteAt b 2)
  let channel ← fin? 4 (byteAt b 3)
  let scaleBase ← fin? 32 (byteAt b 4)
  let guardSource ← guardSource? (byteAt b 5)
  some { enabled, kind, lane, channel, scaleBase, guardSource }

/-- A CARD entry of five bytes: lane FFh is NONE (R37). -/
def cardEntry? (b : List Byte) : Option CardEntry :=
  let limit := numAt32 b 1
  if 16777215 < limit then none
  else if byteAt b 0 = 255 then some { lane := none, wearLimit := limit }
  else (fin? 8 (byteAt b 0)).map (fun l => { lane := some l, wearLimit := limit })

/-- A SCALE entry of eight bytes (R110). -/
def scaleEntry? (b : List Byte) : Option ScaleEntry := do
  let shift ← fin? 25 (byteAt b 2)
  let unit ← fin? 16 (byteAt b 3)
  some { gain := BitVec.ofNat 16 (numAt16 b 0), shift := shift, offset := BitVec.ofNat 32 (numAt32 b 4), unit := unit }

/-- The limit mode codes (spec/12). -/
def limitMode? : Nat → Option LimitMode
  | 0 => some .both
  | 1 => some .lowOnly
  | 2 => some .highOnly
  | 3 => some .record
  | _ => none

/-- A LIMIT entry of fourteen bytes (R124). -/
def limitEntry? (b : List Byte) : Option LimitEntry := do
  let mode ← limitMode? (byteAt b 0)
  let row ← fin? 16 (byteAt b 1)
  let low : BitVec 32 := BitVec.ofNat 32 (numAt32 b 2)
  let high : BitVec 32 := BitVec.ofNat 32 (numAt32 b 6)
  let guardBand := numAt32 b 10
  if guardBand ≤ 2147483647 ∧ ¬ (mode = .both ∧ high.toInt < low.toInt) then
    some { mode, low, high, guardBand, row }
  else none

/-- The action codes (spec/12). -/
def action? : Nat → Option Action
  | 0 => some .proceed
  | 1 => some .skipSite
  | 2 => some .haltBus
  | _ => none

/-- A DISPOSITION entry of three bytes (R130). -/
def dispEntry? (b : List Byte) : Option DispEntry := do
  let bin ← fin? 64 (byteAt b 0)
  let action ← action? (byteAt b 1)
  let attention ← yesNo? (byteAt b 2)
  some { bin, action, attention }

/-- A wear count of four bytes (R38). -/
def wear? (b : List Byte) : Option Nat := if numAt32 b 0 ≤ maxWear then some (numAt32 b 0) else none

/-- A MARK entry of three bytes (R105). -/
def markEntry? (b : List Byte) : Option MarkEntry := do
  let enabled ← yesNo? (byteAt b 0)
  let bus ← fin? 8 (byteAt b 1)
  let site ← fin? 32 (byteAt b 2)
  some { enabled, bus, site }

/-! ### Table entries, encoded (spec/12) -/

/-- The net kind's code. -/
def NetKind.code : NetKind → Byte
  | .force => 0#8
  | .sense => 1#8
  | .reference => 2#8

/-- The bus kind's code. -/
def BusKind.code : BusKind → Byte
  | .source => 0#8
  | .measure => 1#8
  | .reference => 2#8

/-- The guard source's code. -/
def GuardSource.code : GuardSource → Byte
  | .off => 0#8
  | .instrument => 1#8
  | .rackLine => 2#8
  | .fixture n => byte (3 + n.val)
  | .forced => 7#8

/-- The limit mode's code. -/
def LimitMode.code : LimitMode → Byte
  | .both => 0#8
  | .lowOnly => 1#8
  | .highOnly => 2#8
  | .record => 3#8

/-- The action's code. -/
def Action.code : Action → Byte
  | .proceed => 0#8
  | .skipSite => 1#8
  | .haltBus => 2#8

/-- A SITE entry as bytes. -/
def SiteEntry.bytes (e : SiteEntry) : List Byte :=
  [yesNo e.enabled, byte e.col.val, byte e.row.val, byte e.block.val]

/-- A NET entry as bytes. -/
def NetEntry.bytes (e : NetEntry) : List Byte :=
  [byte e.pinCount.val, byte e.offsets[0].val, byte e.offsets[1].val, byte e.offsets[2].val, byte e.offsets[3].val,
    e.kind.code] ++ le16 e.settle

/-- A BUS entry as bytes. -/
def BusEntry.bytes (e : BusEntry) : List Byte :=
  [yesNo e.enabled, e.kind.code, byte e.lane.val, byte e.channel.val, byte e.scaleBase.val, e.guardSource.code]

/-- A CARD entry as bytes. -/
def CardEntry.bytes (e : CardEntry) : List Byte := orNone8 (e.lane.map Fin.val) :: le32 e.wearLimit

/-- A SCALE entry as bytes. -/
def ScaleEntry.bytes (e : ScaleEntry) : List Byte :=
  le16 e.gain.toNat ++ [byte e.shift.val, byte e.unit.val] ++ le32 e.offset.toNat

/-- A LIMIT entry as bytes. -/
def LimitEntry.bytes (e : LimitEntry) : List Byte :=
  [e.mode.code, byte e.row.val] ++ le32 e.low.toNat ++ le32 e.high.toNat ++ le32 e.guardBand

/-- A DISPOSITION entry as bytes. -/
def DispEntry.bytes (e : DispEntry) : List Byte := [byte e.bin.val, e.action.code, yesNo e.attention]

/-- A MARK entry as bytes. -/
def MarkEntry.bytes (e : MarkEntry) : List Byte := [yesNo e.enabled, byte e.bus.val, byte e.site.val]

/-- The wear count of crosspoint number `i` (R38). -/
def wearAt (s : State) (i : Nat) : Nat := (Sparse.get s.matrix.xps i).wear

/-- Entry `i` of a table as bytes (spec/12); nothing beyond its end. -/
def entryBytes (s : State) (code i : Nat) : List Byte :=
  match code with
  | 0 => (s.tables.sites[i]?).elim [] SiteEntry.bytes
  | 1 => (s.tables.nets[i]?).elim [] NetEntry.bytes
  | 2 => (s.tables.buses[i]?).elim [] BusEntry.bytes
  | 3 => (s.tables.cards[i]?).elim [] CardEntry.bytes
  | 4 => (s.tables.scales[i]?).elim [] ScaleEntry.bytes
  | 5 => (s.tables.limits[i]?).elim [] LimitEntry.bytes
  | 6 => (s.tables.disps[i]?).elim [] DispEntry.bytes
  | 7 => if i < 2048 then le32 (wearAt s i) else []
  | 8 => if i = 0 then s.tables.mark.bytes else []
  | _ => []

/-- The number of entries of a table and the largest read of it, by its code (R38, R105, spec/12). -/
def tableSize : Nat → Option (Nat × Nat)
  | 0 => some (32, 254)
  | 1 => some (64, 127)
  | 2 => some (8, 169)
  | 3 => some (4, 203)
  | 4 => some (32, 127)
  | 5 => some (256, 72)
  | 6 => some (80, 338)
  | 7 => some (2048, 254)
  | 8 => some (1, 338)
  | _ => none

end Sys2Proof.Machine
end

