-- ==== Sys2Proof/Machine/Status.lean ====
section
/-!
DEFINITION. The data of the five status reads and of the FLOW commands, part by part in the order of R193 and
spec/12, with the codes of the enumerated values they report (their position where the manual first lists them).
-/

namespace Sys2Proof.Machine

/-! ### Codes -/

/-- Rack states (R154). -/
def Rack.code : Rack → Byte
  | .safe _ => 0#8
  | .ready => 1#8
  | .service => 2#8

/-- The cause of SAFE; none outside SAFE (R154; log 22). -/
def Rack.causeCode : Rack → Byte
  | .safe .startup => 0#8
  | .safe .interlock => 1#8
  | .safe .reset => 2#8
  | _ => 0xFF#8

/-- Interlock states (R158). -/
def Interlock.code : Interlock → Byte
  | .opn => 0#8
  | .waiting => 1#8
  | .clear => 2#8

/-- Source record states (R47). -/
def SrcState.code : SrcState → Byte
  | .quiet => 0#8
  | .goingLive => 1#8
  | .live => 2#8
  | .goingQuiet => 3#8
  | .unsure => 4#8

/-- Lane states (R170). -/
def LaneState.code : LaneState → Byte
  | .off => 0#8
  | .down => 1#8
  | .detect => 2#8
  | .train => 3#8
  | .active => 4#8
  | .recover => 5#8
  | .test => 6#8

/-- Loss causes (R170). -/
def LossCause.code : LossCause → Byte
  | .none => 0#8
  | .errors => 1#8
  | .cardRequest => 2#8
  | .resyncTimeout => 3#8
  | .resyncMismatch => 4#8
  | .reset => 5#8
  | .off => 6#8

/-- Training faults (R170). -/
def TrainFault.code : TrainFault → Byte
  | .none => 0#8
  | .timeout => 1#8
  | .badIdent => 2#8

/-- Context states, IDLE 0 to HALTED 13 (spec/12). -/
def CtxState.code : CtxState → Byte
  | .idle => 0#8
  | .quieting => 1#8
  | .breaking => 2#8
  | .blocked => 3#8
  | .making => 4#8
  | .settling => 5#8
  | .restoring => 6#8
  | .measuring => 7#8
  | .posting => 8#8
  | .holding => 9#8
  | .releasing => 10#8
  | .suspended => 11#8
  | .tripped => 12#8
  | .halted => 13#8

/-- Resume points (R66). -/
def Resume.code : Resume → Byte
  | .none => 0#8
  | .redo => 1#8
  | .next => 2#8
  | .halted => 3#8

/-- Step kinds (R63). -/
def Work.code : Work → Byte
  | .measure _ _ _ _ _ _ _ => 0#8
  | .connect _ _ => 1#8
  | .release => 2#8

/-- Sweep statuses (R92). -/
def SweepStatus.code : SweepStatus → Byte
  | .none => 0#8
  | .running => 1#8
  | .complete => 2#8
  | .windowEnd => 3#8
  | .aborted => 4#8

/-- Crosspoint states, OPEN 0 to UNKNOWN 5 (spec/12). -/
def XState.code : XState → Nat
  | .opn => 0
  | .reserved => 1
  | .closing => 2
  | .closed => 3
  | .opening => 4
  | .unknown => 5

/-- Presence values (R162). -/
def Presence.code : Presence → Byte
  | .present => 0#8
  | .absent => 1#8
  | .unknown => 2#8

/-- Panel states (R135). -/
def PanelState.code : PanelState → Byte
  | .none => 0#8
  | .opn => 1#8
  | .closing => 2#8
  | .closed => 3#8

/-- Site states (R133). -/
def SiteState.code : SiteState → Byte
  | .untested => 0#8
  | .passing => 1#8
  | .marginal => 2#8
  | .incomplete => 3#8
  | .failed => 4#8

/-! ### GUARD STATUS (R62, R169) -/

/-- The quiet time reported: in WAITING at most 500 ms, elsewhere not stated; a free value either way (log 4). -/
def quietTime (s : State) : Nat :=
  let v := (Config.lidTimeLeft s.freeCount).toNat
  if s.guard.interlock = .waiting then v % 501 else v

/-- One bus part of GUARD STATUS; a bus that is not SOURCE has no source record, and the trip flag is 1 when set and 0 when
clear (R62; DEDUCED, log 22). -/
def guardBusPart (s : State) (x : Bus) : List Byte :=
  [yesNo (s.tripped x), (s.busEntry x).guardSource.code, yesNo (asserted s x),
    if (s.busEntry x).kind = .source then (s.ctx x).source.code else 0xFF#8]

/-- The data of GUARD STATUS. spec/12 gives no code for the pin levels: TRIP_IN and FX0 to FX3 are 1 asserted and 0
deasserted, LID 1 open and 0 closed (DEDUCED, log 22). -/
def guardData (s : State) : List Byte :=
  [s.guard.rack.code, s.guard.rack.causeCode, yesNo s.guard.lidOpen, s.guard.interlock.code] ++ le16 (quietTime s) ++
    [yesNo s.guard.tripIn] ++ s.guard.fx.toList.map yesNo ++ s.guard.instTrips.toList.map yesNo ++
    allBuses.flatMap (guardBusPart s)

/-! ### LANE STATUS (R185, R180, R20) -/

/-- The enabled BUS entries that name a lane (R185). -/
def busesNaming (s : State) (l : LaneId) : List Bus :=
  allBuses.filter (fun x => (s.busEntry x).enabled && (s.busEntry x).lane == l)

/-- A mismatch is reported (R180). -/
def mismatch (s : State) (l : LaneId) : Bool :=
  let k := s.lane l
  (k.state == .active || k.state == .recover) &&
    ((k.partner == .instrument && (s.cardOnLane l).isSome) ||
      (busesNaming s l).any (fun x => k.partner == .card || k.channels.val ≤ (s.busEntry x).channel.val))

/-- One lane part of LANE STATUS. Its list of BUS entries has 8 slots, one for each bus (DEDUCED, log 22). -/
def lanePart (s : State) (l : LaneId) : List Byte :=
  let k := s.lane l
  [k.state.code, byte k.partner.code, byte k.channels.val, byte k.errors, k.loss.code, k.fault.code,
    byte k.testSent, byte k.testMatched, orNone8 ((s.cardOnLane l).map Fin.val)] ++
    listBytes 8 ((busesNaming s l).map Fin.val) ++ [yesNo (mismatch s l)]

/-- One card part of LANE STATUS (R20). -/
def cardPart (s : State) (c : CardId) : List Byte :=
  let k := s.card c
  [k.nextTag] ++
    (match k.pending with
     | some p => [1#8, p.tag]
     | none => [0#8, 0#8]) ++
    [byte k.priority.length, byte k.ordinary.length, orNone8 (k.rejectReason.map BitVec.toNat)]

/-- The data of LANE STATUS. -/
def laneData (s : State) : List Byte := allLanes.flatMap (lanePart s) ++ allCards.flatMap (cardPart s)

/-! ### BUS STATUS (R90, R107, R20) -/

/-- The claimed crosspoints of a bus that are worn (R20). -/
def wornClaims (s : State) (x : Bus) : Nat := ((s.claims x).filter (fun p => s.worn x p)).length

/-- One bus part of BUS STATUS. The kind of the current step is FFh where the context has none (DEDUCED, log 22). -/
def busPart (s : State) (x : Bus) : List Byte :=
  let c := s.ctx x
  [c.state.code, c.resume.code] ++ orNoneTag (c.step.map (·.tag)) ++
    [(match c.step with | some st => st.work.code | none => 0xFF#8), orNone8 (c.site.map Fin.val),
      orNone8 (c.net.map Fin.val)] ++
    listBytes 4 ((match c.target with | some t => t.points | none => []).map Fin.val) ++
    [c.takeTag, byte c.acc.length, yesNo c.slot.isSome, yesNo c.endPending.isSome, byte c.queue.length] ++
    orNoneTag (c.queue.head?.map (·.tag)) ++ le16 (wornClaims s x)

/-- One sweep part of BUS STATUS (R107); status NONE reports the values of R92. -/
def sweepPart (s : State) (x : Bus) : List Byte :=
  let w := if (s.ctx x).sweep.status = .none then Sweep.initial else (s.ctx x).sweep
  [w.status.code, byte w.window.c0.val, byte w.window.c1.val, byte w.window.r0.val, byte w.window.r1.val, w.axis.code] ++
    (match w.cursor with
     | some (c, r) => [byte c.val, byte r.val]
     | none => [0xFF#8, 0xFF#8]) ++
    [byte w.count, byte w.judged.length] ++ listBytes 32 (w.judged.map Fin.val)

/-- One entry of the point map: free, or the claiming bus and the crosspoint state (R193, spec/12). -/
def pointByte (s : State) (p : Pt) : Byte :=
  match allBuses.find? (fun x => s.claimed x p) with
  | some x => byte (16 * x.val + (s.xp x p).state.code)
  | none => 0xFF#8

/-- The data of BUS STATUS. -/
def busData (s : State) : List Byte :=
  allBuses.flatMap (busPart s) ++ allBuses.flatMap (sweepPart s) ++ allPoints.map (pointByte s)

/-! ### SITE STATUS (R169) -/

/-- One site part of SITE STATUS. A delta is 1 when set and 0 when clear (DEDUCED, log 22). -/
def sitePart (s : State) (t : Site) : List Byte :=
  let e := s.siteEntry t
  [yesNo e.enabled, byte e.block.val, (s.sitePresence t).code, yesNo (s.supplyOn t), yesNo s.guard.arrival[t],
    yesNo s.guard.departure[t]]

/-- The data of SITE STATUS. -/
def siteData (s : State) : List Byte :=
  s.guard.presence.toList.map Presence.code ++ allSites.flatMap (sitePart s)

/-! ### PANEL STATUS (R141) -/

/-- How many sites are in a state (R141). -/
def sitesIn (s : State) (v : SiteState) : Nat := (allSites.filter (fun t => (s.verdict t).state == v)).length

/-- One site part of PANEL STATUS. The judged and fail counts take two bytes each, and the skip mark is 1 when set and 0 when
clear (DEDUCED, log 22). -/
def verdictPart (s : State) (t : Site) : List Byte :=
  let v := s.verdict t
  [v.state.code, byte v.firstBin.val] ++ le16 v.judged ++ le16 v.fails ++ [yesNo v.skip]

/-- The data of PANEL STATUS. -/
def panelData (s : State) : List Byte :=
  [s.panel.state.code, s.panel.number, yesNo s.panel.foldPending, byte (sitesIn s .untested), byte (sitesIn s .passing),
    byte (sitesIn s .marginal), byte (sitesIn s .incomplete), byte (sitesIn s .failed),
    byte (allSites.filter (fun t => (s.verdict t).skip)).length] ++
    allSites.flatMap (verdictPart s)

/-! ### FLOW HOLD and FLOW RELEASE (R152) -/

/-- The number of waiting offers from contexts (R146, R152). -/
def waitingOffers (s : State) : Nat := (allBuses.filter (fun x => (s.ctx x).slot.isSome)).length

/-- The report of the FLOW commands: ten bytes (spec/12). The hold flag and the saturation mark are 1 when set, and compact
mode is 1 when on (DEDUCED, log 22). -/
def flowData (s : State) : List Byte :=
  [yesNo s.trunk.flowHold, byte s.queue.records.length, yesNo s.queue.compact] ++ le32 s.queue.foldCount ++
    [yesNo s.queue.saturated, byte (waitingOffers s), yesNo s.panel.foldPending]

end Sys2Proof.Machine
end

