-- ==== Sys2Proof/Machine/LaneCommands.lean ====
section
/-!
DEFINITION. The four lane commands (spec/10, 10.7).
-/

namespace Sys2Proof.Machine

/-- LANE RESET's effect on a lane, by its state (R181, R172). -/
def laneReset (s : State) (l : LaneId) : State :=
  if (s.lane l).state = .active then laneLeave s l .reset
  else (endTest s l).modLane l (fun k => { (k.alone .down) with loss := .reset })

/-- LANE OFF's effect on a lane, by its state (R182). -/
def laneOff (s : State) (l : LaneId) : State :=
  match (s.lane l).state with
  | .active => laneLeave s l .off
  | .recover => s.modLane l (fun k => { (k.alone .off) with loss := .off })
  | _ => (endTest s l).modLane l (fun k => k.alone .off)

/-- LANE ON's effect on a lane (R182). -/
def laneOn (s : State) (l : LaneId) : State := if (s.lane l).state = .off then enterDetect s l else s

/-- The data of LANE RESET, LANE OFF and LANE ON: the lane's state after the command (spec/12). -/
def laneReply (l : LaneId) (s : State) : Reply := .ran s [(s.lane l).state.code]

/-- LANE RESET (R181). -/
def execLaneReset (tag : Half) (payload : List Byte) (s : State) : Host.Outcome State Fault Refusal :=
  .next (takeCommand s.begin 0x10#8 tag payload 1 (fun s =>
    match laneAt payload 0 with
    | none => .refused .badIndex
    | some l => laneReply l (laneReset s l)))

/-- LANE OFF (R182). -/
def execLaneOff (tag : Half) (payload : List Byte) (s : State) : Host.Outcome State Fault Refusal :=
  .next (takeCommand s.begin 0x11#8 tag payload 1 (fun s =>
    match laneAt payload 0 with
    | none => .refused .badIndex
    | some l => laneReply l (laneOff s l)))

/-- LANE ON (R182). -/
def execLaneOn (tag : Half) (payload : List Byte) (s : State) : Host.Outcome State Fault Refusal :=
  .next (takeCommand s.begin 0x12#8 tag payload 1 (fun s =>
    match laneAt payload 0 with
    | none => .refused .badIndex
    | some l => .ok (laneOn s l) [((laneOn s l).lane l).state.code]))

/-- The checks of LANE TEST after the lane number (R183). -/
def laneTestBad (s : State) (l : LaneId) (n : Nat) : Option Status :=
  if n = 0 ∨ 255 < n then some .badValue
  else if s.guard.rack ≠ .service then some .state
  else if (s.lane l).state = .active ∨ (s.lane l).state = .recover ∨ (s.lane l).state = .test then some .state
  else
    match s.cardOnLane l with
    | some c => if s.cardInUse c then some .inUse else none
    | none => none

/-- LANE TEST: the response is held until the test ends (R183, R184, R188). -/
def execLaneTest (tag : Half) (payload : List Byte) (s : State) : Host.Outcome State Fault Refusal :=
  .next (takeCommand s.begin 0x13#8 tag payload 3 (fun s =>
    match laneAt payload 0 with
    | none => .refused .badIndex
    | some l =>
      match laneTestBad s l (numAt16 payload 1) with
      | some st => .refused st
      | none => .held (startTest s l (numAt16 payload 1)) l))

end Sys2Proof.Machine
end

