-- ==== Sys2Proof/Machine/LaneFrames.lean ====
section
/-!
DEFINITION. The frames that arrive on a lane (spec/10, 10.2 to 10.4, 10.7) and what the owner of each does with it.
A frame taken in a state that does not accept it is discarded there; in ACTIVE every good frame first returns the
error count to 0 (R171, R176).
-/

namespace Sys2Proof.Machine

/-- BAD_FRAME: counted in ACTIVE, the third in a row sending the lane to RECOVER; elsewhere discarded (R171, R176). -/
def execBadFrame (l : LaneId) (bytes : List Byte) (s : State) : Host.Outcome State Fault Refusal :=
  let s := s.begin
  if goodLaneFrame bytes || (s.lane l).state ≠ .active then .next s
  else if 3 ≤ (s.lane l).errors + 1 then .next (finish (laneLeave (s.modLane l (fun k => { k with errors := 3 })) l .errors))
  else .next (s.modLane l (fun k => { k with errors := k.errors + 1 }))

/-- LANE_FRAME_DISCARD: a good frame that is no traffic of an ACTIVE lane is discarded and not counted as an error
(R171, R176, R198). -/
def execLaneFrameDiscard (l : LaneId) (bytes : List Byte) (s : State) : Host.Outcome State Fault Refusal :=
  let s := s.begin
  if goodLaneFrame bytes && !isTrafficForm bytes then .next (goodFrame s l) else .next s

/-- The card on a lane with its pending order, if the lane is ACTIVE and the tag is that order's (R26, R171). -/
def answeredOrder (s : State) (l : LaneId) (tag : Byte) : Option (CardId × Order) :=
  if (s.lane l).state = .active then
    match s.cardOnLane l with
    | none => none
    | some c =>
      match (s.card c).pending with
      | some p => if p.tag = tag then some (c, p.order) else none
      | none => none
  else none

/-- DONE (R23, R26). -/
def execDone (l : LaneId) (orderTag : Byte) (s : State) : Host.Outcome State Fault Refusal :=
  let s := goodFrame s.begin l
  match answeredOrder s l orderTag with
  | some (c, o) => .next (finish (afterDone (orderDone s c o) c o (orderMarked s o)))
  | none => .next s

/-- REJECT (R24, R26, R179). -/
def execReject (l : LaneId) (orderTag reason : Byte) (s : State) : Host.Outcome State Fault Refusal :=
  let s := goodFrame s.begin l
  match answeredOrder s l orderTag with
  | some (c, o) => .next (finish (thenRecover c (afterReject c o (orderRejected s c o reason))))
  | none => .next s

/-- PRESENCE (R163). -/
def execPresence (l : LaneId) (mask : Byte) (s : State) : Host.Outcome State Fault Refusal :=
  let s := goodFrame s.begin l
  if s.laneHasCard l then
    match s.cardOnLane l with
    | some c => .next (finish (presenceTaken s l c mask))
    | none => .next s
  else .next s

/-- TRIP: discarded on a lane that is no ACTIVE instrument lane, for a channel at or above its count, and for a state
that is neither 0 nor 1 (R54, R197). -/
def execTrip (l : LaneId) (channel state : Byte) (s : State) : Host.Outcome State Fault Refusal :=
  let s := goodFrame s.begin l
  if s.laneHasInstrument l && channel.toNat < (s.lane l).channels.val then
    match fin? 4 channel.toNat, yesNo? state.toNat with
    | some ch, some v =>
      if s.guard.instTrips[tripNo l ch] = v then .next s else .next (finish (setInstTrip s l ch v))
    | _, _ => .next s
  else .next s

/-- ACK: matched to the enabled SOURCE bus on the lane and channel, and discarded where there is none, where the command it
names is not the one outstanding (R50), and for a command that is neither 0 nor 1 (R197). -/
def execAck (l : LaneId) (channel command : Byte) (s : State) : Host.Outcome State Fault Refusal :=
  let s := goodFrame s.begin l
  if s.laneHasInstrument l then
    match sourceBusOn s l channel, yesNo? command.toNat with
    | some x, some live =>
      if (s.ctx x).source.exchange = some live then .next (finish (ackTaken s x live)) else .next s
    | _, _ => .next s
  else .next s

/-- The enabled bus whose entry names a lane and channel (R76). -/
def readingBus (s : State) (l : LaneId) (channel : Byte) : Option Bus :=
  allBuses.find? (fun x =>
    (s.busEntry x).enabled && (s.busEntry x).lane == l && (s.busEntry x).channel.val == channel.toNat)

/-- The range code in bits 0 to 2 of a READING's range byte (spec/12). -/
def rangeCode (range : Byte) : Fin 8 := ⟨range.toNat % 8, by omega⟩

/-- The overload flag in bit 7 of a READING's range byte (spec/12). -/
def overload (range : Byte) : Bool := range.msb

/-- The sample of a counted reading, by the captured entry for its range code (R111 to R116). -/
def sampleFrom (k : Capture) (index : Nat) (range : Byte) (raw : BitVec 24) : Sample :=
  let e := k.scales[rangeCode range]
  { index := index, value := (sampleOf e raw.toInt (overload range)).1, v := (sampleOf e raw.toInt (overload range)).2,
    unit := e.unit }

/-- A take is complete: the measure timer stops, the site is judged, and the context goes on (R76, R78, R79). -/
def completeTake (s : State) (x : Bus) (k : Capture) (d : Nat) : State :=
  let s := s.modCtx x (fun c => { c with measureTimer := none })
  ((judgeTake s x k d).modCtx x (fun c => { c with state := .posting })).post (.poke x)

/-- What a bus does with a reading that reached it (R75, R76). -/
inductive ReadingUse where
  | discarded
  | counted (k : Capture) (d : Nat) (last : Bool)
  deriving DecidableEq, Repr

/-- A reading is used if it is of the current take, its index is one of the counted ones, and that index has not
arrived before; the last one makes the K-th (R75, R76). -/
def readingUse (c : Ctx) (takeTag : Byte) (index : Nat) : ReadingUse :=
  match c.step, c.captured with
  | some ⟨_, .measure _ _ _ k d _ _⟩, some cap =>
    if c.state = .measuring ∧ c.takeTag = takeTag ∧ d ≤ index ∧ index < d + k ∧ c.acc.all (fun m => m.index != index)
    then .counted cap d (k ≤ c.acc.length + 1) else .discarded
  | _, _ => .discarded

/-- READING (R75, R76, R78, R108). -/
def execReading (l : LaneId) (channel takeTag index range : Byte) (raw : BitVec 24) (s : State) :
    Host.Outcome State Fault Refusal :=
  let s := goodFrame s.begin l
  if s.laneHasInstrument l then
    match readingBus s l channel with
    | none => .next s
    | some x =>
      match readingUse (s.ctx x) takeTag index.toNat with
      | .discarded => .next s
      | .counted cap d last =>
        let s := s.modCtx x (fun c => { c with acc := c.acc ++ [sampleFrom cap index.toNat range raw] })
        if last then .next (finish (completeTake s x cap d)) else .next s
  else .next s

/-- PROBE: taken in DETECT (R173). -/
def execProbe (l : LaneId) (s : State) : Host.Outcome State Fault Refusal :=
  let s := goodFrame s.begin l
  if (s.lane l).state = .detect then .next (enterTrain s l) else .next s

/-- IDENT: taken in the identification phase of TRAIN (R174, R175). -/
def execIdent (l : LaneId) (kind channels rows columns : Byte) (s : State) : Host.Outcome State Fault Refusal :=
  let s := goodFrame s.begin l
  if (s.lane l).state = .train ∧ (s.lane l).phase = .identification then
    .next (identTaken s l kind channels rows columns)
  else .next s

/-- CLEARED: taken in the clearing phase of TRAIN (R175, R40, R53, R54). -/
def execCleared (l : LaneId) (s : State) : Host.Outcome State Fault Refusal :=
  let s := goodFrame s.begin l
  if (s.lane l).state = .train ∧ (s.lane l).phase = .clearing then .next (finish (clearedTaken s l)) else .next s

/-- RESYNC: taken in RECOVER (R178, R40). -/
def execResync (l : LaneId) (kind channels : Byte) (s : State) : Host.Outcome State Fault Refusal :=
  let s := goodFrame s.begin l
  if (s.lane l).state = .recover then .next (finish (resyncTaken s l kind channels)) else .next s

/-- TEST_FRAME: in TEST, matched if it is the frame sent; a differing frame leaves the timer running (R184). -/
def execTestFrame (l : LaneId) (bytes : List Byte) (s : State) : Host.Outcome State Fault Refusal :=
  let s := s.begin
  if (s.lane l).state = .test ∧ bytes = testFrameBytes (byte ((s.lane l).testSent + 1)) then
    .next (pump (testFrameOver s l true))
  else .next s

end Sys2Proof.Machine
end

