-- ==== Sys2Proof/Machine/Pins.lean ====
section
/-!
DEFINITION. The resets and the pins: POWER_RESET, the lid and its quiet timer, the trip pins, the MARK pulse.
-/

namespace Sys2Proof.Machine

/-- POWER_RESET: every block and table at its power-reset value, for the pin levels that stand at the end of the reset
(R155, spec/00 Kinds of reset; log 3). The counter of the free values and the waiting commands are not the part's. -/
def execPowerReset (s : State) : Host.Outcome State Fault Refusal :=
  .next (State.initial s.guard.lidOpen s.guard.tripIn s.guard.fx s.freeCount s.pending)

/-- LID_OPENS (R156, R158). -/
def execLidOpens (s : State) : Host.Outcome State Fault Refusal :=
  let s := s.begin
  if s.guard.lidOpen then .next s else .next (finish (lidOpened s))

/-- LID_CLOSES: WAITING, and the lid quiet timer starts (R158). -/
def execLidCloses (s : State) : Host.Outcome State Fault Refusal :=
  let s := s.begin
  if s.guard.lidOpen then .next (s.modGuard (fun g => { g with lidOpen := false, interlock := .waiting })) else .next s

/-- LID_QUIET_TIMER_EXPIRY: WAITING becomes CLEAR, and GUARD is raised in SAFE (R158). -/
def execLidQuietTimerExpiry (s : State) : Host.Outcome State Fault Refusal :=
  let s := s.begin
  if s.guard.interlock = .waiting then
    let s := s.modGuard (fun g => { g with interlock := .clear })
    .next (pump (if s.isSafe then s.raise .guard else s))
  else .next s

/-- TRIP_IN_CHANGE: the buses that select the rack line are evaluated (R55, R57). -/
def execTripInChange (level : Bool) (s : State) : Host.Outcome State Fault Refusal :=
  let s := s.begin
  if s.guard.tripIn = level then .next s
  else
    .next (finish (evaluateThose (s.modGuard (fun g => { g with tripIn := level }))
      (fun e => e.guardSource == .rackLine)))

/-- FX_CHANGE: the buses that select the line are evaluated (R55, R57). -/
def execFxChange (line : Fin 4) (level : Bool) (s : State) : Host.Outcome State Fault Refusal :=
  let s := s.begin
  if s.guard.fx[line] = level then .next s
  else
    .next (finish (evaluateThose (s.modGuard (fun g => { g with fx := g.fx.set line level }))
      (fun e => e.guardSource == .fixture line)))

/-- MARK_PULSE_END: the pin returns low (R106). -/
def execMarkPulseEnd (s : State) : Host.Outcome State Fault Refusal := .next { s.begin with markHigh := false }

end Sys2Proof.Machine
end

