-- ==== Sys2Proof/Machine/StatusReads.lean ====
section
/-!
DEFINITION. The five status reads: each reports a state as it stands and clears its attention class (R193).
-/

namespace Sys2Proof.Machine

/-- GUARD STATUS clears GUARD (R62, R169). It draws the next free value for the quiet time (log 4). -/
def execGuardStatus (tag : Half) (payload : List Byte) (s : State) : Host.Outcome State Fault Refusal :=
  .next (takeCommand s.begin 0x14#8 tag payload 0 (fun s =>
    .ok { s.clearAttn .guard with freeCount := s.freeCount + 1 } (guardData s)))

/-- LANE STATUS clears LANE (R185). -/
def execLaneStatus (tag : Half) (payload : List Byte) (s : State) : Host.Outcome State Fault Refusal :=
  .next (takeCommand s.begin 0x15#8 tag payload 0 (fun s => .ok (s.clearAttn .lane) (laneData s)))

/-- BUS STATUS clears STEP (R90, R107). -/
def execBusStatus (tag : Half) (payload : List Byte) (s : State) : Host.Outcome State Fault Refusal :=
  .next (takeCommand s.begin 0x16#8 tag payload 0 (fun s => .ok (s.clearAttn .step) (busData s)))

/-- The deltas of every site are cleared (R169). -/
def clearDeltas (s : State) : State :=
  s.modGuard (fun g => { g with arrival := Vector.replicate 32 false, departure := Vector.replicate 32 false })

/-- SITE STATUS clears the deltas and SITE (R169). -/
def execSiteStatus (tag : Half) (payload : List Byte) (s : State) : Host.Outcome State Fault Refusal :=
  .next (takeCommand s.begin 0x17#8 tag payload 0 (fun s => .ok ((clearDeltas s).clearAttn .site) (siteData s)))

/-- PANEL STATUS clears PROGRESS (R141). -/
def execPanelStatus (tag : Half) (payload : List Byte) (s : State) : Host.Outcome State Fault Refusal :=
  .next (takeCommand s.begin 0x18#8 tag payload 0 (fun s => .ok (s.clearAttn .progress) (panelData s)))

end Sys2Proof.Machine
end

