-- ==== Sys2Proof/WellFormed.lean ====
section
/-!
DEFINITION. Which commands can stand in the queue as the event their row describes. An ill-formed term is one
that no frame of spec/12 carries, or one that belongs to another row of the table (a bad frame whose check agrees).
The meanings answer every term, well-formed or not.
-/

namespace Sys2Proof

open Sys2Proof.Machine

/-- A payload fits a trunk frame (R186). -/
def payloadFits (p : List Byte) : Bool := p.length ≤ 1024

/-- The bytes one entry of each table takes (spec/12, Table access); none for a code that names no table. -/
def entrySize : Nat → Option Nat
  | 0 => some 4
  | 1 => some 8
  | 2 => some 6
  | 3 => some 5
  | 4 => some 8
  | 5 => some 14
  | 6 => some 3
  | 7 => some 4
  | 8 => some 3
  | _ => none

/-- A TABLE WRITE event of the row of table `code`: the frame fits, and either it is taken at its first entry,
or it names this table and has an entry at `pos` (R190). A frame that is too short or names no table belongs
to every row, at position 0. -/
def writeFits (code : Nat) (p : List Byte) (pos : Nat) : Bool :=
  payloadFits p &&
    (if p.length < 4 || (entrySize (byteAt p 0)).isNone then pos == 0
     else byteAt p 0 == code && (pos == 0 || pos < (p.length - 4) / (entrySize code).getD 1))

/-- Well-formedness of a command. -/
def Instr.wf : Instr → Bool
  | .trunkFrameDiscard bytes => !goodTrunkFrame bytes
  | .badKind _ kind p => !isCommandKind kind && payloadFits p
  | .responseListFull _ kind p => isCommandKind kind && payloadFits p
  | .tableWriteSite _ p pos => writeFits 0 p pos
  | .tableWriteNet _ p pos => writeFits 1 p pos
  | .tableWriteBus _ p pos => writeFits 2 p pos
  | .tableWriteCard _ p pos => writeFits 3 p pos
  | .tableWriteScale _ p pos => writeFits 4 p pos
  | .tableWriteLimit _ p pos => writeFits 5 p pos
  | .tableWriteDisposition _ p pos => writeFits 6 p pos
  | .tableWriteWear _ p pos => writeFits 7 p pos
  | .tableWriteMark _ p pos => writeFits 8 p pos
  | .step _ p | .tableRead _ p | .busAbort _ p | .busResume _ p | .clearTrip _ p | .supply _ p
  | .resume _ p | .serviceEnter _ p | .serviceExit _ p | .rackReset _ p | .panelBegin _ p | .panelEnd _ p
  | .flowHold _ p | .flowRelease _ p | .laneReset _ p | .laneOff _ p | .laneOn _ p | .laneTest _ p
  | .guardStatus _ p | .laneStatus _ p | .busStatus _ p | .siteStatus _ p | .panelStatus _ p => payloadFits p
  | .badFrame _ bytes => !goodLaneFrame bytes
  | .laneFrameDiscard _ bytes => goodLaneFrame bytes
  | .powerReset | .lidOpens | .lidCloses | .lidQuietTimerExpiry | .tripInChange _ | .fxChange _ _ | .markPulseEnd
  | .frameSent | .done _ _ | .reject _ _ _ | .presence _ _ | .trip _ _ _ | .ack _ _ _ | .reading _ _ _ _ _ _
  | .probe _ | .ident _ _ _ _ _ | .cleared _ | .resync _ _ _ | .testFrame _ _ | .downTimerExpiry _
  | .probeTimerExpiry _ | .trainingTimeout _ | .resyncResend _ | .resyncTimerExpiry _ | .testReturnTimeout _
  | .orderTimeout _ | .blockWaitExpiry _ | .ackTimeout _ | .settleTimerExpiry _ | .measureTimeout _ => true

end Sys2Proof
end

