-- ==== Sys2Proof/Machine/Tables.lean ====
section
/-!
DEFINITION. TABLE WRITE and TABLE READ (spec/11, 11.4): one entry of each table with the checks of its owning rule and
what applying it does to the other blocks; a read as one event.
-/

namespace Sys2Proof.Machine

/-- How the table store takes one entry: refused, or applied. -/
inductive EntryAns where
  | refused (st : Status)
  | applied (s : State)
  deriving DecidableEq, Repr

/-- Change the tables. -/
def State.modTables (s : State) (f : Tables → Tables) : State := { s with tables := f s.tables }

/-! ### One entry -/

/-- A SITE entry that differs from the stored one is in use (R6). -/
def siteInUse (s : State) (t : Site) (new : SiteEntry) : Bool :=
  let old := s.siteEntry t
  allBuses.any (fun x => (s.ctx x).state != .idle && (s.ctx x).site == some t) ||
    s.blockInUse old.block || (new.enabled && s.blockInUse new.block) ||
    (s.supplyOn t && (!new.enabled || new.block != old.block))

/-- Another enabled site has the cell or the block of an enabled entry (R7). -/
def siteClash (s : State) (t : Site) (new : SiteEntry) : Bool :=
  new.enabled && allSites.any (fun u =>
    u != t && (s.siteEntry u).enabled &&
      (((s.siteEntry u).col == new.col && (s.siteEntry u).row == new.row) || (s.siteEntry u).block == new.block))

/-- One SITE entry (R5, R6, R7). -/
def takeSite (s : State) (i : Nat) (b : List Byte) : EntryAns :=
  match fin? 32 i with
  | none => .refused .badIndex
  | some t =>
    match siteEntry? b with
    | none => .refused .badValue
    | some e =>
      if e = s.siteEntry t then .applied s
      else if siteInUse s t e then .refused .inUse
      else if siteClash s t e then .refused .badValue
      else .applied (s.modTables (fun k => { k with sites := k.sites.set t e }))

/-- A net is the current net of a context neither IDLE nor HALTED (R12). -/
def netInUse (s : State) (n : Net) : Bool :=
  allBuses.any (fun x => (s.ctx x).state != .idle && (s.ctx x).state != .halted && (s.ctx x).net == some n)

/-- One NET entry (R11, R12). -/
def takeNet (s : State) (i : Nat) (b : List Byte) : EntryAns :=
  match fin? 64 i with
  | none => .refused .badIndex
  | some n =>
    match netEntry? b with
    | none => .refused .badValue
    | some e =>
      if e = s.netEntry n then .applied s
      else if netInUse s n then .refused .inUse
      else .applied (s.modTables (fun k => { k with nets := k.nets.set n e }))

/-- A BUS entry that differs from the stored one may be written (R44). -/
def busFree (s : State) (x : Bus) : Bool :=
  let c := s.ctx x
  (c.state == .idle || (c.state == .tripped && c.resume == .none)) && c.queue.isEmpty && !s.busInUse x &&
    ((s.busEntry x).kind != .source || c.source == .quiet || c.source == .unsure)

/-- Another enabled bus names the lane and channel of an enabled entry (R43). -/
def busClash (s : State) (x : Bus) (new : BusEntry) : Bool :=
  new.enabled && allBuses.any (fun y =>
    y != x && (s.busEntry y).enabled && (s.busEntry y).lane == new.lane && (s.busEntry y).channel == new.channel)

/-- The source record after a BUS write: UNSURE where the part cannot know the channel's output; where the bus has no
record, the value is QUIET (R45; log 25). -/
def sourceAfterWrite (old new : BusEntry) (v : SrcState) : SrcState :=
  if new.kind = .source then
    (if old.kind ≠ .source ∨ old.lane ≠ new.lane ∨ old.channel ≠ new.channel then .unsure else v)
  else .quiet

/-- An applied BUS entry: the table, the source record, and the evaluation of the selected guard source (R45). -/
def applyBus (s : State) (x : Bus) (e : BusEntry) : State :=
  let old := s.busEntry x
  let s := s.modTables (fun k => { k with buses := k.buses.set x e })
  evaluate (s.modCtx x (fun c => { c with source := sourceAfterWrite old e c.source })) x

/-- One BUS entry (R43, R44, R45). -/
def takeBus (s : State) (i : Nat) (b : List Byte) : EntryAns :=
  match fin? 8 i with
  | none => .refused .badIndex
  | some x =>
    match busEntry? b with
    | none => .refused .badValue
    | some e =>
      if e ≠ s.busEntry x ∧ !busFree s x then .refused .inUse
      else if busClash s x e then .refused .badValue
      else .applied (applyBus s x e)

/-- An applied CARD entry. A change of lane makes the card's blocks UNKNOWN and its supplies OFF, with a SUPPLY frame
on the old lane where a supply was ON (R37, R165). -/
def applyCard (s : State) (c : CardId) (e : CardEntry) : State :=
  let old := s.cardEntry c
  let powered := !(poweredOnCard s c).isEmpty
  let s := s.modTables (fun k => { k with cards := k.cards.set c e })
  if e.lane = old.lane then s
  else
    let s := match old.lane with
      | some l => if powered then sendSupply s l 0#8 else s
      | none => s
    cardBlocksLost s c

/-- One CARD entry (R37). -/
def takeCard (s : State) (i : Nat) (b : List Byte) : EntryAns :=
  match fin? 4 i with
  | none => .refused .badIndex
  | some c =>
    match cardEntry? b with
    | none => .refused .badValue
    | some e =>
      if e = s.cardEntry c then .applied s
      else if e.lane.isSome && allCards.any (fun d => d != c && (s.cardEntry d).lane == e.lane) then .refused .badValue
      else if e.lane ≠ (s.cardEntry c).lane ∧ s.cardInUse c then .refused .inUse
      else .applied (applyCard s c e)

/-- One SCALE entry (R110). -/
def takeScale (s : State) (i : Nat) (b : List Byte) : EntryAns :=
  match fin? 32 i with
  | none => .refused .badIndex
  | some n =>
    match scaleEntry? b with
    | none => .refused .badValue
    | some e => .applied (s.modTables (fun k => { k with scales := k.scales.set n e }))

/-- One LIMIT entry (R124). -/
def takeLimit (s : State) (i : Nat) (b : List Byte) : EntryAns :=
  match fin? 256 i with
  | none => .refused .badIndex
  | some n =>
    match limitEntry? b with
    | none => .refused .badValue
    | some e => .applied (s.modTables (fun k => { k with limits := k.limits.set n e }))

/-- One DISPOSITION entry (R130). -/
def takeDisp (s : State) (i : Nat) (b : List Byte) : EntryAns :=
  match fin? 80 i with
  | none => .refused .badIndex
  | some n =>
    match dispEntry? b with
    | none => .refused .badValue
    | some e => .applied (s.modTables (fun k => { k with disps := k.disps.set n e }))

/-- One WEAR entry: the count of one crosspoint's record (R38). -/
def takeWear (s : State) (i : Nat) (b : List Byte) : EntryAns :=
  if 2048 ≤ i then .refused .badIndex
  else
    match wear? b with
    | none => .refused .badValue
    | some w =>
      .applied { s with matrix := { s.matrix with
        xps := Sparse.set s.matrix.xps i { Sparse.get s.matrix.xps i with wear := w } } }

/-- The MARK entry (R105). -/
def takeMark (s : State) (i : Nat) (b : List Byte) : EntryAns :=
  if i ≠ 0 then .refused .badIndex
  else
    match markEntry? b with
    | none => .refused .badValue
    | some e => .applied (s.modTables (fun k => { k with mark := e }))

/-! ### A write, entry by entry (R187, R190, R198; log 9) -/

/-- The number of whole entries a write payload carries. -/
def writeCount (p : List Byte) (size : Nat) : Nat := (p.length - 4) / size

/-- The bytes of the entry at position `pos` of a write payload. -/
def writeBytes (p : List Byte) (size pos : Nat) : List Byte := (p.drop (4 + pos * size)).take size

/-- The response of TABLE WRITE, completed: a status and the entries applied (R190). -/
def writeDone (tag : Half) (st : Status) (applied : Nat) : Resp := ⟨tag, 0x02#8, st, le16 applied, none⟩

/-- The response of a TABLE WRITE that has taken its first `applied` entries, held until the next (R188; log 9). -/
def writeHeld (tag : Half) (p : List Byte) (applied : Nat) : Resp := ⟨tag, 0x02#8, .ok, [], some (.write p applied)⟩

/-- The response waits for the entry at position `pos` of this write (log 9). -/
def Resp.awaitsEntry (r : Resp) (tag : Half) (p : List Byte) (pos : Nat) : Bool :=
  r.tag == tag && r.heldBy == some (.write p pos)

/-- Replace the first response that `which` names. -/
def replaceFirst (which : Resp → Bool) (new : Resp) : List Resp → List Resp
  | [] => []
  | r :: rest => if which r then new :: rest else r :: replaceFirst which new rest

/-- The write's response after the entry at position `pos`: it joins the list when the frame is taken, at position 0, and
keeps that place afterwards (R187, R188; log 9). -/
def State.putWrite (s : State) (tag : Half) (p : List Byte) (pos : Nat) (r : Resp) : State :=
  s.modTrunk (fun t =>
    { t with responses :=
        if pos = 0 then t.responses ++ [r] else replaceFirst (fun q => q.awaitsEntry tag p pos) r t.responses })

/-- Take the entry at position `pos`. The first refused entry stops the write; after the last applied one the write
is answered OK; otherwise its response waits for the next entry (R190). -/
def writeEntry (s : State) (tag : Half) (p : List Byte) (size pos : Nat) (take : State → Nat → List Byte → EntryAns)
    (after : State → State) : State :=
  match take s (numAt16 p 2 + pos) (writeBytes p size pos) with
  | .refused st => pump (s.putWrite tag p pos (writeDone tag st pos))
  | .applied s' =>
    after (s'.putWrite tag p pos
      (if writeCount p size ≤ pos + 1 then writeDone tag .ok (pos + 1) else writeHeld tag p (pos + 1)))

/-- The payload holds the write header and a whole, non-zero number of entries (R187, R198). -/
def writeLengthFits (p : List Byte) (size : Nat) : Bool := 4 < p.length && (p.length - 4) % size == 0 && p.length ≤ 1024

/-- Entry `pos` of a TABLE WRITE to the table `code`. At position 0 the frame is taken, with the checks of R187; while
32 responses wait it is not (R188). A later position is the next entry of a write whose response waits for it, or no
event of this table (R190; log 9). -/
def takeWrite (s : State) (code size : Nat) (tag : Half) (p : List Byte) (pos : Nat)
    (take : State → Nat → List Byte → EntryAns) (after : State → State) : State :=
  if pos = 0 then
    if 32 ≤ s.trunk.responses.length then s
    else if p.length < 4 then pump (s.respond tag 0x02#8 .badLength (le16 0))
    else if 8 < byteAt p 0 then pump (s.respond tag 0x02#8 .badValue (le16 0))
    else if byteAt p 0 ≠ code then s
    else if !writeLengthFits p size then pump (s.respond tag 0x02#8 .badLength (le16 0))
    else writeEntry s tag p size 0 take after
  else if byteAt p 0 = code ∧ writeLengthFits p size ∧ pos < writeCount p size ∧
      s.trunk.responses.any (fun r => r.awaitsEntry tag p pos) then
    writeEntry s tag p size pos take after
  else s

/-! ### A read (R191) -/

/-- TABLE READ (R191): status and data. -/
def readTable (s : State) (p : List Byte) : Status × List Byte :=
  let code := byteAt p 0
  let first := numAt16 p 2
  let count := numAt16 p 4
  match tableSize code with
  | none => (.badValue, [])
  | some (size, most) =>
    if count = 0 ∨ most < count then (.badValue, [])
    else
      let got := min count (size - first)
      (if size < first + count then .badIndex else .ok,
        [byte code, 0#8] ++ le16 first ++ le16 got ++
          (List.range got).flatMap (fun i => entryBytes s code (first + i)))

end Sys2Proof.Machine
end

