-- ==== Sys2Proof/Machine/TableCommands.lean ====
section
/-!
DEFINITION. TABLE WRITE, one meaning for each table's entries, and TABLE READ (spec/11, 11.4). Only a BUS entry can
have consequences at the contexts: it may trip its bus (R45).
-/

namespace Sys2Proof.Machine

/-- TABLE_WRITE_SITE (R5 to R8). -/
def execTableWriteSite (tag : Half) (payload : List Byte) (pos : Nat) (s : State) :
    Host.Outcome State Fault Refusal := .next (takeWrite s.begin 0 4 tag payload pos takeSite pump)

/-- TABLE_WRITE_NET (R11, R12). -/
def execTableWriteNet (tag : Half) (payload : List Byte) (pos : Nat) (s : State) :
    Host.Outcome State Fault Refusal := .next (takeWrite s.begin 1 8 tag payload pos takeNet pump)

/-- TABLE_WRITE_BUS (R43 to R45). -/
def execTableWriteBus (tag : Half) (payload : List Byte) (pos : Nat) (s : State) :
    Host.Outcome State Fault Refusal := .next (takeWrite s.begin 2 6 tag payload pos takeBus finish)

/-- TABLE_WRITE_CARD (R37, R165). -/
def execTableWriteCard (tag : Half) (payload : List Byte) (pos : Nat) (s : State) :
    Host.Outcome State Fault Refusal := .next (takeWrite s.begin 3 5 tag payload pos takeCard pump)

/-- TABLE_WRITE_SCALE (R110). -/
def execTableWriteScale (tag : Half) (payload : List Byte) (pos : Nat) (s : State) :
    Host.Outcome State Fault Refusal := .next (takeWrite s.begin 4 8 tag payload pos takeScale pump)

/-- TABLE_WRITE_LIMIT (R124). -/
def execTableWriteLimit (tag : Half) (payload : List Byte) (pos : Nat) (s : State) :
    Host.Outcome State Fault Refusal := .next (takeWrite s.begin 5 14 tag payload pos takeLimit pump)

/-- TABLE_WRITE_DISPOSITION (R130). -/
def execTableWriteDisposition (tag : Half) (payload : List Byte) (pos : Nat) (s : State) :
    Host.Outcome State Fault Refusal := .next (takeWrite s.begin 6 3 tag payload pos takeDisp pump)

/-- TABLE_WRITE_WEAR (R38). -/
def execTableWriteWear (tag : Half) (payload : List Byte) (pos : Nat) (s : State) :
    Host.Outcome State Fault Refusal := .next (takeWrite s.begin 7 4 tag payload pos takeWear pump)

/-- TABLE_WRITE_MARK (R105). -/
def execTableWriteMark (tag : Half) (payload : List Byte) (pos : Nat) (s : State) :
    Host.Outcome State Fault Refusal := .next (takeWrite s.begin 8 3 tag payload pos takeMark pump)

/-- TABLE_READ: a response of any status carries the data that R191 gives it. -/
def execTableRead (tag : Half) (payload : List Byte) (s : State) : Host.Outcome State Fault Refusal :=
  let s := s.begin
  if 32 ≤ s.trunk.responses.length then .next s
  else if payload.length ≠ 6 then .next (pump (s.respond tag 0x03#8 .badLength []))
  else .next (pump (s.respond tag 0x03#8 (readTable s payload).1 (readTable s payload).2))

end Sys2Proof.Machine
end

