-- ==== Sys2Proof/Machine/Timers.lean ====
section
/-!
DEFINITION. The expiries of the part's timers. An expiry of a timer that does not run is no event (log 1).
-/

namespace Sys2Proof.Machine

/-- DOWN_TIMER_EXPIRY: DETECT with its first PROBE (R172, R173). -/
def execDownTimerExpiry (l : LaneId) (s : State) : Host.Outcome State Fault Refusal :=
  let s := s.begin
  if (s.lane l).state = .down then .next (enterDetect s l) else .next s

/-- PROBE_TIMER_EXPIRY: another PROBE (R173). -/
def execProbeTimerExpiry (l : LaneId) (s : State) : Host.Outcome State Fault Refusal :=
  let s := s.begin
  if (s.lane l).state = .detect then .next (s.emit l .probe) else .next s

/-- TRAINING_TIMEOUT: training fault TIMEOUT, and DETECT (R174, R175). -/
def execTrainingTimeout (l : LaneId) (s : State) : Host.Outcome State Fault Refusal :=
  let s := s.begin
  if (s.lane l).state = .train then .next (enterDetect (s.modLane l (fun k => { k with fault := .timeout })) l)
  else .next s

/-- RESYNC_RESEND: a further RESYNC (R178). -/
def execResyncResend (l : LaneId) (s : State) : Host.Outcome State Fault Refusal :=
  let s := s.begin
  if (s.lane l).state = .recover then .next (s.emit l .resync) else .next s

/-- RESYNC_TIMER_EXPIRY: DOWN with loss cause RESYNC_TIMEOUT, and no report (R178, R177). -/
def execResyncTimerExpiry (l : LaneId) (s : State) : Host.Outcome State Fault Refusal :=
  let s := s.begin
  if (s.lane l).state = .recover then .next (s.modLane l (fun k => { (k.alone .down) with loss := .resyncTimeout }))
  else .next s

/-- TEST_RETURN_TIMEOUT: the frame counts as sent and not matched (R184). -/
def execTestReturnTimeout (l : LaneId) (s : State) : Host.Outcome State Fault Refusal :=
  let s := s.begin
  if (s.lane l).state = .test then .next (pump (testFrameOver s l false)) else .next s

/-- ORDER_TIMEOUT: UNKNOWN crosspoints and a recovery open, or RECOVER for the card's lane (R25, R179). -/
def execOrderTimeout (c : CardId) (s : State) : Host.Outcome State Fault Refusal :=
  let s := s.begin
  match (s.card c).pending with
  | some p => .next (finish (thenRecover c (orderTimedOut s c p.order)))
  | none => .next s

/-- BLOCK_WAIT_EXPIRY: the request fails with CONFLICT, its reservations return (R33). -/
def execBlockWaitExpiry (x : Bus) (s : State) : Host.Outcome State Fault Refusal :=
  let s := s.begin
  if (s.ctx x).waitsFor.isEmpty then .next s else .next (finish (blockWaitExpired s x))

/-- ACK_TIMEOUT: the exchange ends unanswered (R51). -/
def execAckTimeout (x : Bus) (s : State) : Host.Outcome State Fault Refusal :=
  let s := s.begin
  if (s.ctx x).source = .goingQuiet ∨ (s.ctx x).source = .goingLive then .next (finish (ackExpired s x)) else .next s

/-- SETTLE_TIMER_EXPIRY: the stage after settling (R72). -/
def execSettleTimerExpiry (x : Bus) (s : State) : Host.Outcome State Fault Refusal :=
  let s := s.begin
  if (s.ctx x).state = .settling ∧ (s.ctx x).settleTimer.isSome then .next (finish (afterSettle s x)) else .next s

/-- MEASURE_TIMEOUT: CANCEL, the next take tag, and INVALID with cause TIMEOUT (R77, R80). -/
def execMeasureTimeout (x : Bus) (s : State) : Host.Outcome State Fault Refusal :=
  let s := s.begin
  if (s.ctx x).state = .measuring ∧ (s.ctx x).measureTimer.isSome then .next (finish (endSite s x .timeout)) else .next s

end Sys2Proof.Machine
end

