-- ==== Sys2Proof/Machine/TrunkCommands.lean ====
section
/-!
DEFINITION. The commands of the station trunk (spec/11): frames that are no command, work, bus control, rack control,
the panel, the result stream, and FRAME_SENT.
-/

namespace Sys2Proof.Machine

/-! ### Frames that are no command -/

/-- TRUNK_FRAME_DISCARD: a frame that fails R186 leaves every block as it was. -/
def execTrunkFrameDiscard (_bytes : List Byte) (s : State) : Host.Outcome State Fault Refusal := .next s.begin

/-- BAD_KIND: a checked frame of no command kind is answered BAD_KIND (R187), and is discarded like a command while 32
responses wait (R188). -/
def execBadKind (tag : Half) (kind : Byte) (_payload : List Byte) (s : State) : Host.Outcome State Fault Refusal :=
  let s := s.begin
  if isCommandKind kind || 32 ≤ s.trunk.responses.length then .next s
  else .next (pump (s.respond tag kind .badKind []))

/-- RESPONSE_LIST_FULL: a command that arrives while 32 responses wait changes nothing (R188). -/
def execResponseListFull (_tag : Half) (_kind : Byte) (_payload : List Byte) (s : State) :
    Host.Outcome State Fault Refusal := .next s.begin

/-! ### Work and bus control -/

/-- STEP: checked, appended to its bus's queue, and taken by the context where nothing bars it (R64, R67). -/
def execStep (tag : Half) (payload : List Byte) (s : State) : Host.Outcome State Fault Refusal :=
  .next (takeCommand s.begin 0x01#8 tag payload 20 (fun s =>
    match stepChecked s payload with
    | .error st => .refused st
    | .ok (x, step) =>
      .ran ((s.modCtx x (fun c => { c with queue := c.queue ++ [step] })).post (.poke x))
        [byte ((s.ctx x).queue.length + 1)]))

/-- BUS ABORT: the queue is emptied and the context acts by its state (R86, R104). -/
def execBusAbort (tag : Half) (payload : List Byte) (s : State) : Host.Outcome State Fault Refusal :=
  .next (takeCommand s.begin 0x04#8 tag payload 1 (fun s =>
    match busAt payload 0 with
    | none => .refused .badIndex
    | some x =>
      .ran (abortCtx (s.modCtx x (fun c => { c with queue := [] })) x) [byte (s.ctx x).queue.length]))

/-- BUS RESUME: a HALTED context goes on by its resume point (R87). -/
def execBusResume (tag : Half) (payload : List Byte) (s : State) : Host.Outcome State Fault Refusal :=
  .next (takeCommand s.begin 0x05#8 tag payload 1 (fun s =>
    match busAt payload 0 with
    | none => .refused .badIndex
    | some x => if (s.ctx x).state = .halted then .ran (resumeHalted s x) [] else .refused .state))

/-- CLEAR TRIP (R60, R89). -/
def execClearTrip (tag : Half) (payload : List Byte) (s : State) : Host.Outcome State Fault Refusal :=
  .next (takeCommand s.begin 0x06#8 tag payload 1 (fun s =>
    match busAt payload 0 with
    | none => .refused .badIndex
    | some x =>
      if !s.tripped x then .refused .state
      else if asserted s x then .refused .asserted
      else .ran ((s.setTripped x false).post (.poke x)) []))

/-! ### Rack control -/

/-- The sites of a four-byte mask, site s in bit s (R167, spec/12). -/
def maskSites (mask : Nat) : List Site := allSites.filter (fun t => mask.testBit t.val)

/-- The mask of a set of sites. -/
def siteMask (l : List Site) : Nat := (l.map (fun t : Site => 2 ^ t.val)).sum

/-- A site may have its supply switched on: enabled and PRESENT (R167). -/
def maySupply (s : State) (t : Site) : Bool := (s.siteEntry t).enabled && s.sitePresence t == .present

/-- Set the supplies of the mask's sites, clamped (R167). -/
def setSupplies (s : State) (sites : List Site) (on : Bool) : State :=
  sites.foldl (fun s t => s.setSupply t (on && maySupply s t)) s

/-- The cards on which a site's supply record differs between two states, rising: SUPPLY sends their frames in this
order, which the manual leaves open (DESIGN CHOICE, log 41). -/
def changedCards (s s' : State) : List CardId :=
  allCards.filter (fun c =>
    allSites.any (fun t => cardOfBlock (s.siteEntry t).block == c && s.supplyOn t != s'.supplyOn t))

/-- SUPPLY: the clamp, one SUPPLY frame for each changed card, and the applied mask with the sites left off (R167). -/
def execSupply (tag : Half) (payload : List Byte) (s : State) : Host.Outcome State Fault Refusal :=
  .next (takeCommand s.begin 0x07#8 tag payload 5 (fun s =>
    match yesNo? (byteAt payload 4) with
    | none => .refused .badValue
    | some on =>
      let sites := maskSites (numAt32 payload 0)
      let s' := setSupplies s sites on
      let applied := if on then sites.filter (fun t => s'.supplyOn t) else sites
      let left := sites.filter (fun t => !(t ∈ applied))
      .ok ((changedCards s s').foldl sendCardSupply s') (le32 (siteMask applied) ++ le32 (siteMask left))))

/-- RESUME: SAFE becomes READY when the interlock is CLEAR (R159). -/
def execResume (tag : Half) (payload : List Byte) (s : State) : Host.Outcome State Fault Refusal :=
  .next (takeCommand s.begin 0x08#8 tag payload 0 (fun s =>
    if !s.isSafe then .refused .state
    else
      match s.guard.interlock with
      | .opn => .refused .state
      | .waiting => .refused .busy
      | .clear => .ran (becomeReady s) []))

/-- Nothing at work: what SERVICE ENTER asks of every bus (R160). -/
def busAtRest (s : State) (x : Bus) : Bool :=
  let c := s.ctx x
  c.state == .idle && c.queue.isEmpty && c.slot.isNone && c.endPending.isNone && !s.busInUse x

/-- SERVICE ENTER (R160). -/
def execServiceEnter (tag : Half) (payload : List Byte) (s : State) : Host.Outcome State Fault Refusal :=
  .next (takeCommand s.begin 0x09#8 tag payload 0 (fun s =>
    if s.guard.rack ≠ .ready then .refused .state
    else if allBuses.all (busAtRest s) then .ok (s.modGuard (fun g => { g with rack := .service })) []
    else .refused .busy))

/-- SERVICE EXIT (R161). -/
def execServiceExit (tag : Half) (payload : List Byte) (s : State) : Host.Outcome State Fault Refusal :=
  .next (takeCommand s.begin 0x0A#8 tag payload 0 (fun s =>
    if s.guard.rack ≠ .service then .refused .state
    else if allLanes.any (fun l => (s.lane l).state == .test) then .refused .busy
    else .ran (becomeReady s) []))

/-! ### RACK RESET (R196, R157, R66, R41, R61, R153, R140) -/

/-- The source record after RACK RESET: UNSURE at a SOURCE bus whose channel is not usable, else QUIET (R157; followed
against the QUIET that R47 gives every SOURCE bus, DEDUCED, log 5). A bus of another kind has no record, and its field holds
QUIET (log 25). -/
def resetRecord (s : State) (x : Bus) : SrcState :=
  if (s.busEntry x).kind = .source ∧ s.channelUsable x = false then .unsure else .quiet

/-- RACK RESET at one source record: its value, with no exchange outstanding, and a QUIET frame that opens none to the
channel of a SOURCE bus whose channel is usable (R47, R157). -/
def resetSource (s : State) (x : Bus) : State :=
  (if (s.busEntry x).kind = .source ∧ s.channelUsable x = true then sendQuiet s x else s).setSource x (resetRecord s x)

/-- RACK RESET at one context: CANCEL for a take on a usable channel, the source record's part, and the power-reset
values for everything else (R66). The CANCEL goes out before the QUIET (DEDUCED, log 6). -/
def resetCtx (s : State) (x : Bus) : State :=
  (resetSource (if (s.ctx x).state = .measuring then cancelTake s x else s) x).modCtx x (fun c =>
    { Ctx.initial with source := c.source })

/-- RACK RESET at the result queue: it is empty with its counter, mark and mode cleared, the flow hold is released, a
waiting closing FOLD is dropped, and the record of a RESULT frame that is being sent is removed with the others (R153). -/
def resetQueue (s : State) : State :=
  { s with queue := ResultQueue.initial, panel := { s.panel with foldPending := false } }.modTrunk (fun t =>
    { t with
      flowHold := false
      tx := match t.tx with
        | some (.result seq r _) => some (.result seq r false)
        | other => other })

/-- A CLOSING panel becomes CLOSED with no FOLD, and PROGRESS is raised (R140). -/
def resetPanel (s : State) : State := if s.panel.state = .closing then closePanel s else s

/-- The trip flags are cleared and every bus is evaluated again (R61). -/
def resetTrips (s : State) : State :=
  allBuses.foldl evaluate (s.modGuard (fun g => { g with trips := Vector.replicate 8 false }))

/-- Some delta is set (R164, R196). -/
def anyDelta (s : State) : Bool := allSites.any (fun t => s.guard.arrival[t] || s.guard.departure[t])

/-- The effects of RACK RESET on every owner (R196). -/
def rackReset (s : State) : State :=
  let s := s.modTrunk (fun t => { t with attn := AttnSet.empty })
  let s := s.modGuard (fun g => { g with rack := .safe .reset })
  let s := allBuses.foldl emergencyOpen s
  let s := allBuses.foldl resetCtx s
  let s := resetPanel (resetQueue s)
  let s := resetTrips s
  if anyDelta s then s.raise .site else s

/-- RACK RESET (R196). -/
def execRackReset (tag : Half) (payload : List Byte) (s : State) : Host.Outcome State Fault Refusal :=
  .next (takeCommand s.begin 0x0B#8 tag payload 0 (fun s => .ran (rackReset s) []))

/-! ### The panel -/

/-- PANEL BEGIN at one context: the sweep record is NONE, and the rest stays as it is (R66, R136), the source record too
(followed against the QUIET that R47 gives it: DEDUCED, log 5). -/
def beginPanelCtx (s : State) (x : Bus) : State := s.modCtx x (fun c => { c with sweep := Sweep.initial })

/-- PANEL BEGIN (R136). -/
def execPanelBegin (tag : Half) (payload : List Byte) (s : State) : Host.Outcome State Fault Refusal :=
  .next (takeCommand s.begin 0x0C#8 tag payload 0 (fun s =>
    if s.panel.state = .none ∨ s.panel.state = .closed then
      let number := s.panel.number + 1
      let s := { s with panel := { s.panel with
        state := .opn, number := number, verdicts := Vector.replicate 32 SiteVerdict.initial } }
      .ok (allBuses.foldl beginPanelCtx s) [number]
    else .refused .panel))

/-- PANEL END (R137, R138). -/
def execPanelEnd (tag : Half) (payload : List Byte) (s : State) : Host.Outcome State Fault Refusal :=
  .next (takeCommand s.begin 0x0D#8 tag payload 0 (fun s =>
    if s.panel.state = .opn then .ran { s with panel := { s.panel with state := .closing } } []
    else .refused .panel))

/-! ### The result stream -/

/-- FLOW HOLD (R152). -/
def execFlowHold (tag : Half) (payload : List Byte) (s : State) : Host.Outcome State Fault Refusal :=
  .next (takeCommand s.begin 0x0E#8 tag payload 0 (fun s =>
    let s := s.modTrunk (fun t => { t with flowHold := true })
    .ok s (flowData s)))

/-- FLOW RELEASE (R152). -/
def execFlowRelease (tag : Half) (payload : List Byte) (s : State) : Host.Outcome State Fault Refusal :=
  .next (takeCommand s.begin 0x0F#8 tag payload 0 (fun s =>
    let s := s.modTrunk (fun t => { t with flowHold := false })
    .ok s (flowData s)))

/-- FRAME_SENT: the transmitter is free, the sent frame's response or record goes, and the next frame starts
(R189, R151). -/
def execFrameSent (s : State) : Host.Outcome State Fault Refusal :=
  let s := s.begin
  if s.trunk.tx.isNone then .next s else .next (finish (frameDone s))

end Sys2Proof.Machine
end

