-- ==== Sys2Proof/Machine/Dispatch.lean ====
section
/-! DEFINITION. One arm for each command, in the order of the table: a direct call of its meaning. -/

namespace Sys2Proof.Machine

/-- The effect of a command on everything but the queue of commands. -/
def exec (i : Instr) (s : State) : Host.Outcome State Fault Refusal :=
  match i with
  | .powerReset => Sys2Proof.Machine.execPowerReset s
  | .lidOpens => Sys2Proof.Machine.execLidOpens s
  | .lidCloses => Sys2Proof.Machine.execLidCloses s
  | .lidQuietTimerExpiry => Sys2Proof.Machine.execLidQuietTimerExpiry s
  | .tripInChange asserted => Sys2Proof.Machine.execTripInChange asserted s
  | .fxChange line asserted => Sys2Proof.Machine.execFxChange line asserted s
  | .markPulseEnd => Sys2Proof.Machine.execMarkPulseEnd s
  | .trunkFrameDiscard bytes => Sys2Proof.Machine.execTrunkFrameDiscard bytes s
  | .badKind tag kind payload => Sys2Proof.Machine.execBadKind tag kind payload s
  | .responseListFull tag kind payload => Sys2Proof.Machine.execResponseListFull tag kind payload s
  | .step tag payload => Sys2Proof.Machine.execStep tag payload s
  | .tableWriteSite tag payload pos => Sys2Proof.Machine.execTableWriteSite tag payload pos s
  | .tableWriteNet tag payload pos => Sys2Proof.Machine.execTableWriteNet tag payload pos s
  | .tableWriteBus tag payload pos => Sys2Proof.Machine.execTableWriteBus tag payload pos s
  | .tableWriteCard tag payload pos => Sys2Proof.Machine.execTableWriteCard tag payload pos s
  | .tableWriteScale tag payload pos => Sys2Proof.Machine.execTableWriteScale tag payload pos s
  | .tableWriteLimit tag payload pos => Sys2Proof.Machine.execTableWriteLimit tag payload pos s
  | .tableWriteDisposition tag payload pos => Sys2Proof.Machine.execTableWriteDisposition tag payload pos s
  | .tableWriteWear tag payload pos => Sys2Proof.Machine.execTableWriteWear tag payload pos s
  | .tableWriteMark tag payload pos => Sys2Proof.Machine.execTableWriteMark tag payload pos s
  | .tableRead tag payload => Sys2Proof.Machine.execTableRead tag payload s
  | .busAbort tag payload => Sys2Proof.Machine.execBusAbort tag payload s
  | .busResume tag payload => Sys2Proof.Machine.execBusResume tag payload s
  | .clearTrip tag payload => Sys2Proof.Machine.execClearTrip tag payload s
  | .supply tag payload => Sys2Proof.Machine.execSupply tag payload s
  | .resume tag payload => Sys2Proof.Machine.execResume tag payload s
  | .serviceEnter tag payload => Sys2Proof.Machine.execServiceEnter tag payload s
  | .serviceExit tag payload => Sys2Proof.Machine.execServiceExit tag payload s
  | .rackReset tag payload => Sys2Proof.Machine.execRackReset tag payload s
  | .panelBegin tag payload => Sys2Proof.Machine.execPanelBegin tag payload s
  | .panelEnd tag payload => Sys2Proof.Machine.execPanelEnd tag payload s
  | .flowHold tag payload => Sys2Proof.Machine.execFlowHold tag payload s
  | .flowRelease tag payload => Sys2Proof.Machine.execFlowRelease tag payload s
  | .laneReset tag payload => Sys2Proof.Machine.execLaneReset tag payload s
  | .laneOff tag payload => Sys2Proof.Machine.execLaneOff tag payload s
  | .laneOn tag payload => Sys2Proof.Machine.execLaneOn tag payload s
  | .laneTest tag payload => Sys2Proof.Machine.execLaneTest tag payload s
  | .guardStatus tag payload => Sys2Proof.Machine.execGuardStatus tag payload s
  | .laneStatus tag payload => Sys2Proof.Machine.execLaneStatus tag payload s
  | .busStatus tag payload => Sys2Proof.Machine.execBusStatus tag payload s
  | .siteStatus tag payload => Sys2Proof.Machine.execSiteStatus tag payload s
  | .panelStatus tag payload => Sys2Proof.Machine.execPanelStatus tag payload s
  | .frameSent => Sys2Proof.Machine.execFrameSent s
  | .badFrame lane bytes => Sys2Proof.Machine.execBadFrame lane bytes s
  | .laneFrameDiscard lane bytes => Sys2Proof.Machine.execLaneFrameDiscard lane bytes s
  | .done lane orderTag => Sys2Proof.Machine.execDone lane orderTag s
  | .reject lane orderTag reason => Sys2Proof.Machine.execReject lane orderTag reason s
  | .presence lane mask => Sys2Proof.Machine.execPresence lane mask s
  | .trip lane channel state => Sys2Proof.Machine.execTrip lane channel state s
  | .ack lane channel command => Sys2Proof.Machine.execAck lane channel command s
  | .reading lane channel takeTag index range raw => Sys2Proof.Machine.execReading lane channel takeTag index range raw s
  | .probe lane => Sys2Proof.Machine.execProbe lane s
  | .ident lane kind channels rows columns => Sys2Proof.Machine.execIdent lane kind channels rows columns s
  | .cleared lane => Sys2Proof.Machine.execCleared lane s
  | .resync lane kind channels => Sys2Proof.Machine.execResync lane kind channels s
  | .testFrame lane bytes => Sys2Proof.Machine.execTestFrame lane bytes s
  | .downTimerExpiry lane => Sys2Proof.Machine.execDownTimerExpiry lane s
  | .probeTimerExpiry lane => Sys2Proof.Machine.execProbeTimerExpiry lane s
  | .trainingTimeout lane => Sys2Proof.Machine.execTrainingTimeout lane s
  | .resyncResend lane => Sys2Proof.Machine.execResyncResend lane s
  | .resyncTimerExpiry lane => Sys2Proof.Machine.execResyncTimerExpiry lane s
  | .testReturnTimeout lane => Sys2Proof.Machine.execTestReturnTimeout lane s
  | .orderTimeout card => Sys2Proof.Machine.execOrderTimeout card s
  | .blockWaitExpiry bus => Sys2Proof.Machine.execBlockWaitExpiry bus s
  | .ackTimeout bus => Sys2Proof.Machine.execAckTimeout bus s
  | .settleTimerExpiry bus => Sys2Proof.Machine.execSettleTimerExpiry bus s
  | .measureTimeout bus => Sys2Proof.Machine.execMeasureTimeout bus s

end Sys2Proof.Machine
end

