-- ==== Sys2Proof/Safety.lean ====
section
/-!
DEFINITION. What a safe rack is, in the terms of the statements: the laws that the manual states over the whole
machine, as predicates of a state or of the frames a command sends.
-/

namespace Sys2Proof.Machine

/-- The store of every table is as its owning rules leave it: no two enabled sites share a cell or a block (R7), no
two enabled buses share a lane and channel (R43), and no two cards share a lane (R37). -/
def TablesLawful (s : State) : Prop :=
  (∀ t u : Site, t ≠ u → (s.siteEntry t).enabled = true → (s.siteEntry u).enabled = true →
    (s.siteEntry t).block ≠ (s.siteEntry u).block ∧
      ¬ ((s.siteEntry t).col = (s.siteEntry u).col ∧ (s.siteEntry t).row = (s.siteEntry u).row)) ∧
  (∀ x y : Bus, x ≠ y → (s.busEntry x).enabled = true → (s.busEntry y).enabled = true →
    ¬ ((s.busEntry x).lane = (s.busEntry y).lane ∧ (s.busEntry x).channel = (s.busEntry y).channel)) ∧
  (∀ c d : CardId, c ≠ d → (s.cardEntry c).lane ≠ none → (s.cardEntry c).lane ≠ (s.cardEntry d).lane)

/-- The result queue holds at most 64 records, and is compact from 48 on (R142, R147). -/
def QueueLawful (s : State) : Prop :=
  s.queue.records.length ≤ 64 ∧ (48 ≤ s.queue.records.length → s.queue.compact = true)

/-- Every wear count is at most its top (R36). -/
def WearLawful (s : State) : Prop := ∀ (x : Bus) (p : Pt), (s.xp x p).wear ≤ maxWear

/-- The priority part of every card's order list holds recovery and emergency opens only (R22). -/
def OpensFirst (s : State) : Prop :=
  ∀ (c : CardId) (o : Order), o ∈ (s.card c).priority → o.kind = .recovery ∨ o.kind = .emergency

/-- The order counter of a card is one past the tag of its pending order (R21). -/
def CardCtl.TagFollows (k : CardCtl) : Prop := ∀ p, k.pending = some p → p.tag + 1 = k.nextTag

/-- Every card's order counter follows its pending order. -/
def TagsFollow (s : State) : Prop := ∀ c : CardId, (s.card c).TagFollows

/-- A context that does nothing and has nothing to do: what a BUS write asks before it may disable a bus (R44). -/
def Ctx.Restful (c : Ctx) : Prop := c.queue = [] ∧ (c.state = .idle ∨ (c.state = .tripped ∧ c.resume = .none))

/-- The context of a disabled bus is at rest: work is given to enabled buses only (R64), and a bus that is disabled is at
rest (R44). -/
def DisabledAtRest (s : State) : Prop := ∀ x : Bus, (s.busEntry x).enabled = false → (s.ctx x).Restful

/-- No point is claimed by two buses (R19). -/
def OneClaimant (s : State) : Prop :=
  ∀ (p : Pt) (x y : Bus), s.claimed x p = true → s.claimed y p = true → x = y

/-- The law of R19 with what keeps it: a pending order holds crosspoints of its own card, CLOSING for a make order and
OPENING or UNKNOWN for an open (R21, R22); a card without a usable lane has no order and nothing CLOSED (R39); listed
orders, targets and make requests keep to one card (R14, R21). -/
def ClaimsLawful (s : State) : Prop :=
  OneClaimant s ∧
  (∀ c q, (s.card c).pending = some q → ∀ p ∈ q.order.points, cardOf p = c ∧
    (if q.order.kind = .make then (s.xp q.order.bus p).state = .closing
     else (s.xp q.order.bus p).state = .opening ∨ (s.xp q.order.bus p).state = .unknown)) ∧
  (∀ c, s.cardUsable c = false → (s.card c).idle = true ∧ ∀ (x : Bus) (p : Pt), cardOf p = c → (s.xp x p).state ≠ .closed) ∧
  (∀ c, ∀ o ∈ (s.card c).priority ++ (s.card c).ordinary, ∀ p ∈ o.points, cardOf p = c) ∧
  (∀ x tg, (s.ctx x).target = some tg → ∀ p ∈ tg.points, cardOf p = cardOfBlock tg.block) ∧
  ∀ x r, (s.ctx x).request = some (.make r) → ∀ p ∈ r.points, cardOf p = r.card

/-- A frame that closes a relay, or makes a source live, goes out only for a bus that is not tripped, and only outside
SAFE (R29, R49). A LIVE is for the enabled SOURCE bus whose entry names its lane and channel (R50). -/
def Permitted (s : State) : LaneId × LaneFrame → Prop
  | (_, .order _ true x _) => s.isSafe = false ∧ s.tripped x = false
  | (l, .live ch) =>
    s.isSafe = false ∧ ∃ x : Bus, sourceBusOn s l (byte ch.val) = some x ∧ s.tripped x = false
  | _ => True

/-- The emergency open of bus `x` has been made (R35): OPEN-RESERVED returns to OPEN, CLOSING and OPENING carry the
emergency mark, and every CLOSED crosspoint is listed to open or OPENING. -/
def EmergencyOpened (s t : State) (x : Bus) : Prop :=
  ∀ p : Pt,
    match (s.xp x p).state with
    | .opn | .reserved => (t.xp x p).state = .opn
    | .closing => (t.xp x p).state = .closing ∧ (t.xp x p).mark = true
    | .opening => (t.xp x p).state = .opening ∧ (t.xp x p).mark = true
    | .closed => ((t.xp x p).state = .closed ∧ t.inPriority x p = true) ∨ (t.xp x p).state = .opening
    | .unknown => (t.xp x p).state = .unknown

/-- A record that is no reading: FOLD, END, or a MEASURE record with verdict INVALID. -/
def Rec.noReading : Rec → Bool
  | .measure r => r.verdict == .invalid
  | _ => true

/-- Everything but the trunk controller, the frames shown and the free values is as it was. -/
def SameBlocks (s t : State) : Prop :=
  t.tables = s.tables ∧ t.matrix = s.matrix ∧ t.ctxs = s.ctxs ∧ t.queue = s.queue ∧ t.guard = s.guard ∧
    t.panel = s.panel ∧ t.lanes = s.lanes ∧ t.markHigh = s.markHigh

/-- No consequence is left over from a command before. -/
def Quiesced (s : State) : Prop := s.matrixWork = [] ∧ s.mail = []

/-- A site verdict record has moved toward worse or not at all (R134): its state is as severe or more, its counts have
not fallen, a set skip mark and a set first bin stand. -/
def SiteVerdict.Onward (a b : SiteVerdict) : Prop :=
  a.state.severity ≤ b.state.severity ∧ (a.judged ≤ 65535 → a.judged ≤ b.judged ∧ b.judged ≤ 65535) ∧
    (a.fails ≤ 65535 → a.fails ≤ b.fails ∧ b.fails ≤ 65535) ∧ (a.skip = true → b.skip = true) ∧
    (a.firstBin ≠ 0 → b.firstBin = a.firstBin)

/-! ### What a command changes and what it answers -/

/-- What no consequence of a command can change (log 6): the tables, the lanes, the free values, the panel number, the
wear counts and the last REJECT reasons; the result queue only grows, and site verdict records only move onward. -/
def LeavesStores (s t : State) : Prop :=
  t.tables = s.tables ∧ t.lanes = s.lanes ∧ t.freeCount = s.freeCount ∧ t.panel.number = s.panel.number ∧
    (∀ (x : Bus) (p : Pt), (t.xp x p).wear = (s.xp x p).wear) ∧
    (∀ c : CardId, (t.card c).rejectReason = (s.card c).rejectReason) ∧
    (∃ l : List Rec, t.queue.records = s.queue.records ++ l) ∧ ∀ u : Site, (s.verdict u).Onward (t.verdict u)

/-- Fewer than 32 responses wait (R188). -/
def HasRoom (s : State) : Prop := s.trunk.responses.length < 32

/-- One response joins the list (R187, R188). -/
def Answered (s t : State) (tag : Half) (kind : Byte) (status : Status) (data : List Byte) : Prop :=
  t.trunk.responses = s.trunk.responses ++ [⟨tag, kind, status, data, none⟩]

/-- The command is answered and does nothing more: every block, the attention set, the flow hold and the free values
are as they were, and no lane frame goes out. -/
def OnlyReplies (c : Instr) (s : State) (tag : Half) (kind : Byte) (status : Status) (data : List Byte) : Prop :=
  ∃ t, exec c s = .next t ∧ Answered s t tag kind status data ∧ SameBlocks s t ∧ t.trunk.attn = s.trunk.attn ∧
    t.trunk.flowHold = s.trunk.flowHold ∧ t.freeCount = s.freeCount ∧ t.out = []

/-- The command leaves everything as it was; the frames of the command before it are no longer shown (log 8). -/
def DoesNothing (c : Instr) (s : State) : Prop := exec c s = .next { s with out := [] }

/-- The good frame returns the error count of an ACTIVE lane to 0 and does nothing else (R171, R176). -/
def OnlyCountsGood (c : Instr) (s : State) (l : LaneId) : Prop :=
  exec c s = .next { s with
    out := []
    lanes := if (s.lane l).state = .active then s.lanes.set l { s.lane l with errors := 0 } else s.lanes }

end Sys2Proof.Machine

namespace Sys2Proof

open Machine

/-- The command frames of fixed payload length: kind code, tag, payload and the length that spec/12 gives. -/
def Instr.fixedFrame : Instr → Option (Byte × Half × List Byte × Nat)
  | .step tag p => some (0x01#8, tag, p, 20)
  | .tableRead tag p => some (0x03#8, tag, p, 6)
  | .busAbort tag p => some (0x04#8, tag, p, 1)
  | .busResume tag p => some (0x05#8, tag, p, 1)
  | .clearTrip tag p => some (0x06#8, tag, p, 1)
  | .supply tag p => some (0x07#8, tag, p, 5)
  | .resume tag p => some (0x08#8, tag, p, 0)
  | .serviceEnter tag p => some (0x09#8, tag, p, 0)
  | .serviceExit tag p => some (0x0A#8, tag, p, 0)
  | .rackReset tag p => some (0x0B#8, tag, p, 0)
  | .panelBegin tag p => some (0x0C#8, tag, p, 0)
  | .panelEnd tag p => some (0x0D#8, tag, p, 0)
  | .flowHold tag p => some (0x0E#8, tag, p, 0)
  | .flowRelease tag p => some (0x0F#8, tag, p, 0)
  | .laneReset tag p => some (0x10#8, tag, p, 1)
  | .laneOff tag p => some (0x11#8, tag, p, 1)
  | .laneOn tag p => some (0x12#8, tag, p, 1)
  | .laneTest tag p => some (0x13#8, tag, p, 3)
  | .guardStatus tag p => some (0x14#8, tag, p, 0)
  | .laneStatus tag p => some (0x15#8, tag, p, 0)
  | .busStatus tag p => some (0x16#8, tag, p, 0)
  | .siteStatus tag p => some (0x17#8, tag, p, 0)
  | .panelStatus tag p => some (0x18#8, tag, p, 0)
  | _ => none

/-- The table of a TABLE WRITE row: its code and the size of its entries (spec/12). -/
def Instr.writeTable : Instr → Option (Nat × Nat)
  | .tableWriteSite _ _ _ => some (0, 4)
  | .tableWriteNet _ _ _ => some (1, 8)
  | .tableWriteBus _ _ _ => some (2, 6)
  | .tableWriteCard _ _ _ => some (3, 5)
  | .tableWriteScale _ _ _ => some (4, 8)
  | .tableWriteLimit _ _ _ => some (5, 14)
  | .tableWriteDisposition _ _ _ => some (6, 3)
  | .tableWriteWear _ _ _ => some (7, 4)
  | .tableWriteMark _ _ _ => some (8, 3)
  | _ => none

/-- A TABLE WRITE event: its tag, payload and position. -/
def Instr.tableWrite : Instr → Option (Half × List Byte × Nat)
  | .tableWriteSite tag p pos | .tableWriteNet tag p pos | .tableWriteBus tag p pos | .tableWriteCard tag p pos
  | .tableWriteScale tag p pos | .tableWriteLimit tag p pos | .tableWriteDisposition tag p pos
  | .tableWriteWear tag p pos | .tableWriteMark tag p pos => some (tag, p, pos)
  | _ => none

/-- The lane whose partner, loop or timer an event belongs to (spec/10). -/
def Instr.laneOf : Instr → Option LaneId
  | .badFrame l _ | .laneFrameDiscard l _ | .done l _ | .reject l _ _ | .presence l _ | .trip l _ _ | .ack l _ _
  | .reading l _ _ _ _ _ | .probe l | .ident l _ _ _ _ | .cleared l | .resync l _ _ | .testFrame l _
  | .downTimerExpiry l | .probeTimerExpiry l | .trainingTimeout l | .resyncResend l | .resyncTimerExpiry l
  | .testReturnTimeout l => some l
  | _ => none

/-- The lane a LANE command names. -/
def Instr.laneNamed : Instr → Option LaneId
  | .laneReset _ p | .laneOff _ p | .laneOn _ p | .laneTest _ p => laneAt p 0
  | _ => none

end Sys2Proof

namespace Sys2Proof.Machine

/-! ### Steps and table entries, in the words of their rules -/

/-- A sweep selection within R64 check 4. -/
def Selection.InRange : Selection → Prop
  | .single _ => True
  | .sweepStart w _ n => w.c0 ≤ w.c1 ∧ w.r0 ≤ w.r1 ∧ 1 ≤ n ∧ n ≤ 32
  | .sweepContinue n => 1 ≤ n ∧ n ≤ 32

/-- A net that bus `x` may use (R46, R64 check 4). -/
def NetFits (s : State) (x : Bus) (n : Net) : Prop :=
  (s.netEntry n).pinCount ≠ 0 ∧ (s.netEntry n).kind = (s.busEntry x).kind.netKind

/-- A step's fields pass check 4 of R64. -/
def Work.InRange (s : State) (x : Bus) : Work → Prop
  | .measure sel n _ k d timeout _ =>
    NetFits s x n ∧ sel.InRange ∧ 1 ≤ k ∧ k ≤ 16 ∧ d ≤ 3 ∧ 1 ≤ timeout ∧ timeout ≤ 60000
  | .connect _ n => NetFits s x n
  | .release => True

/-- The in-use cases of a SITE write (R6). -/
def SiteInUse (s : State) (u : Site) (e : SiteEntry) : Prop :=
  (∃ x : Bus, (s.ctx x).state ≠ .idle ∧ (s.ctx x).site = some u) ∨
  (∃ (x : Bus) (o : Fin 8), s.claimed x (pointOf (s.siteEntry u).block o) = true) ∨
  (e.enabled = true ∧ ∃ (x : Bus) (o : Fin 8), s.claimed x (pointOf e.block o) = true) ∨
  (s.supplyOn u = true ∧ (e.enabled = false ∨ e.block ≠ (s.siteEntry u).block))

/-- The uniqueness check of a SITE write (R7). -/
def SiteClashes (s : State) (u : Site) (e : SiteEntry) : Prop :=
  e.enabled = true ∧ ∃ v : Site, v ≠ u ∧ (s.siteEntry v).enabled = true ∧
    (((s.siteEntry v).col = e.col ∧ (s.siteEntry v).row = e.row) ∨ (s.siteEntry v).block = e.block)

/-- The field checks of a NET write that a typed entry can fail (R11). -/
def NetEntry.InRange (e : NetEntry) : Prop :=
  e.settle ≤ 2000 ∧ (∀ i j : Fin 4, i < j → j.val < e.pinCount.val → e.offsets[i] ≠ e.offsets[j]) ∧
    ∀ i : Fin 4, e.pinCount.val ≤ i.val → e.offsets[i] = 0

/-- The in-use case of a NET write (R12). -/
def NetInUse (s : State) (n : Net) : Prop :=
  ∃ x : Bus, (s.ctx x).state ≠ .idle ∧ (s.ctx x).state ≠ .halted ∧ (s.ctx x).net = some n

/-- What a BUS write that changes an entry asks of the bus (R44). -/
def BusFree (s : State) (x : Bus) : Prop :=
  ((s.ctx x).state = .idle ∨ ((s.ctx x).state = .tripped ∧ (s.ctx x).resume = .none)) ∧ (s.ctx x).queue = [] ∧
    (∀ p : Pt, s.claimed x p = false) ∧
    ((s.busEntry x).kind = .source → (s.ctx x).source = .quiet ∨ (s.ctx x).source = .unsure)

/-- The last check of a BUS write (R43). -/
def BusClashes (s : State) (x : Bus) (e : BusEntry) : Prop :=
  e.enabled = true ∧ ∃ y : Bus, y ≠ x ∧ (s.busEntry y).enabled = true ∧ (s.busEntry y).lane = e.lane ∧
    (s.busEntry y).channel = e.channel

/-- A LIMIT entry that R124 takes, as far as a typed entry can fail it. -/
def LimitEntry.InRange (e : LimitEntry) : Prop :=
  e.guardBand ≤ 2147483647 ∧ ¬ (e.mode = .both ∧ e.high.toInt < e.low.toInt)

/-- The MEASURE record of a site that ends INVALID with a cause before its TAKE, as the result queue appends it
(R78, R129, R131, R145). -/
def invalidRecord (s : State) (x : Bus) (tag : Half) (row : Fin 16) (worn : Bool) (cause : Cause) : Rec :=
  .measure
    { flags := ⟨false, false, false, worn, s.queue.saturated⟩, panel := s.panel.number, bus := x, tag := tag
      site := (s.ctx x).inFlight
      ordinal := if (s.ctx x).sweep.status = .running then ((s.ctx x).sweep.join (s.ctx x).inFlight).judged.length else 1
      verdict := .invalid, bin := s.tables.disps[dispNo row .invalid].bin, samples := 0, unit := 0
      folded := s.queue.foldCount, body := .invalid cause }

/-! ### A step that an IDLE bus takes -/

/-- What the target of a site and a net is (R14): the points of the net's offsets in the site's block, with the block,
the kind and the settle time. That the points are listed rising is the model's (log 37). -/
def TargetOf (s : State) (u : Site) (n : Net) (tg : Target) : Prop :=
  tg.block = (s.siteEntry u).block ∧ tg.kind = (s.netEntry n).kind ∧ tg.settle = (s.netEntry n).settle ∧
    tg.points.Pairwise (· < ·) ∧
    ∀ p : Pt, p ∈ tg.points ↔ ∃ i : Fin 4, i.val < (s.netEntry n).pinCount.val ∧
      p = pointOf (s.siteEntry u).block (s.netEntry n).offsets[i]

/-- Nothing of a context waits: no record, no END and no request (R79). -/
def Ctx.Clear (c : Ctx) : Prop := c.slot = none ∧ c.endPending = none ∧ c.request = none

/-- Bus `x` may take a step at once: READY, IDLE or HOLDING with nothing waiting, and not tripped (R67). -/
def MayStart (s : State) (x : Bus) : Prop :=
  Quiesced s ∧ s.guard.rack = .ready ∧ s.tripped x = false ∧ ((s.ctx x).state = .idle ∨ (s.ctx x).state = .holding) ∧
    (s.ctx x).queue = [] ∧ (s.ctx x).Clear

/-- The context that has taken a step from the head of its queue (R67). -/
def Ctx.took (c : Ctx) (st : Step) (rest : List Step) : Ctx :=
  { c with queue := rest, step := some st, lastOk := false, after := .none, captured := none, acc := [],
           relFail := none }

/-- The context that begins its work at a site: the target is the current one and the site is in flight (R68). -/
def Ctx.atSite (c : Ctx) (u : Site) (n : Net) (tg : Target) : Ctx :=
  { c with
    inFlight := some u, resume := .none, after := .none, heldNet := c.net, site := some u, net := some n
    target := some tg }

/-- The context that has become IDLE (R83). -/
def Ctx.idled (c : Ctx) : Ctx :=
  { c with
    state := .idle, step := none, site := none, net := none, target := none, heldNet := none, inFlight := none
    after := .none, lastOk := false, captured := none, acc := [], resume := .none, dest := .idle, relDone := false
    relFail := none }

/-- No bus but `x` is touched, and no record is made. -/
def OnlyBus (s t : State) (x : Bus) : Prop := (∀ y : Bus, y ≠ x → t.ctx y = s.ctx y) ∧ t.queue = s.queue

/-- A card with a usable lane, no pending order and an empty order list: an order goes out at once (R22, R27). -/
def CardIdleOn (s : State) (c : CardId) (l : LaneId) : Prop :=
  (s.cardEntry c).lane = some l ∧ s.laneHasCard l = true ∧ (s.card c).pending = none ∧ (s.card c).priority = [] ∧
    (s.card c).ordinary = []

/-- The one order that went out: it is pending with the card's tag, and the crosspoints it moves are in the state that
sending it gives; no other crosspoint has changed (R21, R22). -/
def OrderWentOut (s t : State) (c : CardId) (l : LaneId) (o : Order) (moving : XState) : Prop :=
  t.out = [(l, .order (s.card c).nextTag (o.kind == .make) o.bus (o.points.map columnOf))] ∧
    (t.card c).pending = some ⟨(s.card c).nextTag, o⟩ ∧ (t.card c).nextTag = (s.card c).nextTag + 1 ∧
    (t.card c).priority = [] ∧ (t.card c).ordinary = [] ∧ (∀ d, d ≠ c → t.card d = s.card d) ∧
    ∀ (y : Bus) (p : Pt), t.xp y p = if y = o.bus ∧ p ∈ o.points then { s.xp y p with state := moving } else s.xp y p

/-- The stage of bus `x` once its source is quiet, for the target `tg`, with a crosspoint to break or to make: BREAKING with
its order, or the make with its order or its wait (R28, R30, R68 to R71). `b` is the context but for its new state and
request. -/
def BreaksOrMakes (s t : State) (x : Bus) (b : Ctx) (tg : Target) : Prop :=
  (∀ d l, ∀ ps : List Pt, ps ≠ [] → ps.length ≤ 16 → ps.Pairwise (· < ·) →
    (∀ p : Pt, p ∈ ps ↔ s.claimed x p = true ∧ p ∉ tg.points) →
    (∀ p ∈ ps, cardOf p = d ∧ (s.xp x p).state = .closed) → CardIdleOn s d l →
    t.ctx x = { b with state := .breaking, request := some (.opens ⟨[], false, false⟩) } ∧
    OnlyBus s t x ∧ OrderWentOut s t d l ⟨.brk, x, ps, true⟩ .opening) ∧
  ((∀ p : Pt, s.claimed x p = true → p ∈ tg.points) →
    (∀ d l, ∀ ps : List Pt, d = cardOfBlock tg.block → ps ≠ [] → ps.Pairwise (· < ·) →
      (∀ p : Pt, p ∈ ps ↔ p ∈ tg.points ∧ (s.xp x p).state ≠ .closed) → (∀ p ∈ ps, s.pointFree p = true) →
      CardIdleOn s d l →
      t.ctx x = { b with state := .making, request := some (.make ⟨d, tg.points, []⟩) } ∧
      OnlyBus s t x ∧ OrderWentOut s t d l ⟨.make, x, ps, true⟩ .closing) ∧
    (∀ d, ∀ ps : List Pt, d = cardOfBlock tg.block → s.cardUsable d = true → ps ≠ [] → ps.Pairwise (· < ·) →
      (∀ p ∈ tg.points, (s.xp x p).state = .closed ∨ (s.xp x p).state = .opn) →
      (∀ p : Pt, p ∈ ps ↔ p ∈ tg.points ∧ (s.xp x p).state = .opn ∧ s.pointFree p = false) →
      t.ctx x = { b with state := .blocked, request := some (.make ⟨d, tg.points, ps⟩) } ∧
      OnlyBus s t x ∧ t.out = [] ∧ t.matrix.cards = s.matrix.cards ∧
      ∀ (y : Bus) (p : Pt), t.xp y p =
        if y = x ∧ p ∈ tg.points ∧ s.pointFree p = true then { s.xp y p with state := .reserved } else s.xp y p))

/-- The first stage of the work at site `u` with net `n` that bus `x` begins: case 1 of R68, QUIETING, BREAKING, or the
make with its order or its wait (R48, R68 to R72). `c` is the context as it comes to the site. -/
def SiteBegins (s t : State) (x : Bus) (c : Ctx) (u : Site) (n : Net) : Prop :=
  ∀ tg : Target, TargetOf s u n tg →
    ((∀ p ∈ tg.points, (s.xp x p).state = .closed) → (∀ p : Pt, s.claimed x p = true → p ∈ tg.points) → tg.settle ≠ 0 →
      c.net ≠ some n →
      t.ctx x = { c.atSite u n tg with state := .settling, settleTimer := some tg.settle } ∧
      OnlyBus s t x ∧ t.matrix = s.matrix ∧ t.out = []) ∧
    ((∃ p ∈ tg.points, (s.xp x p).state ≠ .closed) ∨ (∃ p : Pt, s.claimed x p = true ∧ p ∉ tg.points) →
      ((s.busEntry x).kind = .source → (s.ctx x).source = .live ∨ (s.ctx x).source = .unsure →
        s.channelUsable x = true →
        t.ctx x = { c.atSite u n tg with
          state := .quieting, source := .goingQuiet, request := some .quiet } ∧
        OnlyBus s t x ∧ t.matrix = s.matrix ∧ t.out = [((s.busEntry x).lane, .quiet (s.busEntry x).channel)]) ∧
      (s.sourceQuiet x = true → BreaksOrMakes s t x (c.atSite u n tg) tg))

/-- The cells of a window in axis order (R93). -/
def Window.walk (w : Window) : Axis → List (Fin 8 × Fin 8)
  | .rows =>
    ((List.finRange 8).filter (fun r => w.r0 ≤ r ∧ r ≤ w.r1)).flatMap (fun r =>
      ((List.finRange 8).filter (fun c => w.c0 ≤ c ∧ c ≤ w.c1)).map (fun c => (c, r)))
  | .columns =>
    ((List.finRange 8).filter (fun c => w.c0 ≤ c ∧ c ≤ w.c1)).flatMap (fun c =>
      ((List.finRange 8).filter (fun r => w.r0 ≤ r ∧ r ≤ w.r1)).map (fun r => (c, r)))

/-- The cells that a walk has not yet reached: those after its cursor, or all from BEFORE_START (R93). -/
def Sweep.left (w : Sweep) : List (Fin 8 × Fin 8) :=
  match w.cursor with
  | none => w.window.walk w.axis
  | some cell => ((w.window.walk w.axis).dropWhile (· != cell)).drop 1

/-- The first column and row of a window are not after the last (R92). -/
def Window.InOrder (w : Window) : Prop := w.c0 ≤ w.c1 ∧ w.r0 ≤ w.r1

/-- The window is in order, and the cursor is a cell of it, or BEFORE_START (R92). -/
def Sweep.OnWalk (w : Sweep) : Prop :=
  w.window.InOrder ∧ ∀ cell, w.cursor = some cell → cell ∈ w.window.walk w.axis

/-- Every sweep record is on its walk (R92), and every queued SWEEP_START has its window in order (R64). -/
def WalksLawful (s : State) : Prop :=
  ∀ x : Bus, (s.ctx x).sweep.OnWalk ∧
    ∀ st ∈ (s.ctx x).queue, ∀ w axis count n lim k d timeout hold,
      st.work = .measure (.sweepStart w axis count) n lim k d timeout hold → w.InOrder

/-- Advance hands the site at a cell on: the cell has an enabled site, PRESENT, without a skip mark and not judged in the
sweep (R97). -/
def HandedOn (s : State) (w : Sweep) (cell : Fin 8 × Fin 8) (u : Site) : Prop :=
  s.siteAtCell cell.1 cell.2 = some u ∧ s.sitePresence u = .present ∧ (s.verdict u).skip = false ∧ u ∉ w.judged

/-- The END record of a sweep that bus `x` ends, as the result queue appends it (R99, R145). -/
def endRecord (s : State) (x : Bus) (tag : Half) (judged : Nat) (kind : EndKind) : Rec :=
  .sweepEnd
    { s := s.queue.saturated, panel := s.panel.number, bus := x, info := ⟨tag, judged, kind⟩, folded := s.queue.foldCount }

/-- What sweep advance does for the context `c` of bus `x` (R96, R97): the work begins at the first cell left that hands a
site on, or the sweep ends as WINDOW_END. -/
def NextSite (s t : State) (x : Bus) (c : Ctx) (n : Net) : Prop :=
  c.sweep.OnWalk →
    (∀ before cell after u, c.sweep.left = before ++ cell :: after → (∀ e ∈ before, ∀ v, ¬ HandedOn s c.sweep e v) →
      HandedOn s c.sweep cell u → SiteBegins s t x { c with sweep := { c.sweep with cursor := some cell } } u n) ∧
    ((∀ e ∈ c.sweep.left, ∀ v, ¬ HandedOn s c.sweep e v) → s.queue.records.length < 64 → ∃ rs, t.queue.records =
      s.queue.records ++ endRecord s x c.stepTag c.sweep.judged.length .windowEnd :: rs)

/-- What the MEASURE or CONNECT step that bus `x` has taken starts, `c` being the context that took it (R67, R68, R94,
R95): its site, or INVALID by R15 or R27; the first site of its sweep; or at once the end of a sweep that has nothing to
continue. -/
def StepBegins (s t : State) (x : Bus) (c : Ctx) (st : Step) : Prop :=
  (∀ u n, st.work = .connect u n → (s.siteEntry u).enabled = true → SiteBegins s t x c u n) ∧
  ∀ sel n lim k d timeout hold, st.work = .measure sel n lim k d timeout hold →
    (∀ u, sel = .single u →
      ((s.siteEntry u).enabled = true → SiteBegins s t x c u n) ∧
      ((s.siteEntry u).enabled = false → s.queue.records.length < 64 → ∃ rs, t.queue.records = s.queue.records ++
        invalidRecord (s.modCtx x (fun c => { c with inFlight := some u })) x st.tag s.tables.limits[lim].row false
          .notAvailable :: rs) ∧
      (∀ tg, (s.siteEntry u).enabled = true → TargetOf s u n tg → s.claims x = [] → s.sourceQuiet x = true →
        s.cardUsable (cardOfBlock tg.block) = false → s.queue.records.length < 64 →
        ∃ rs, t.queue.records = s.queue.records ++
          invalidRecord (s.modCtx x (fun c => { c with inFlight := some u })) x st.tag s.tables.limits[lim].row false
            .lane :: rs)) ∧
    (∀ w axis count, sel = .sweepStart w axis count →
      NextSite s t x { c with sweep := ⟨.running, w, axis, none, count, []⟩ } n) ∧
    ∀ count, sel = .sweepContinue count →
      (c.sweep.status = .complete ∨ c.sweep.status = .aborted →
        NextSite s t x { c with sweep := { c.sweep with status := .running, count := count, judged := [] } } n) ∧
      (c.sweep.status = .windowEnd ∨ (c.sweep.status = .none ∧ c.sweep.judged = []) → s.queue.records.length < 64 →
        (∃ rs, t.queue.records = s.queue.records ++ endRecord s x st.tag 0 .windowEnd :: rs) ∧
        (c.queue = [] → (t.ctx x).sweep =
          if c.sweep.status = .none then c.sweep else { c.sweep with count := count, judged := [] }))

/-- No other bus has anything to do when the rack becomes READY: none is SUSPENDED, and an IDLE or HOLDING one has no step
queued and no END pending (R67, R88). -/
def OthersRest (s : State) (x : Bus) : Prop :=
  ∀ y : Bus, y ≠ x → (s.ctx y).state ≠ .suspended ∧
    ((s.ctx y).state = .idle ∨ (s.ctx y).state = .holding → (s.ctx y).queue = [] ∧ (s.ctx y).endPending = none)

/-- No order of card `c` is listed. -/
def NothingListed (s : State) (c : CardId) : Prop := (s.card c).priority = [] ∧ (s.card c).ordinary = []

/-- No bus waits for a point of these (R32). -/
def NoWaiter (s : State) (ps : List Pt) : Prop := ∀ (y : Bus), ∀ p ∈ ps, p ∉ (s.ctx y).waitsFor

/-- The end of an order of bus `x` starts nothing more at the bus: no request of it is outstanding, or it is RELEASING, waits
for no crosspoint of another order, and has no step queued (R30, R67, R83). -/
def StartsNothing (s : State) (x : Bus) : Prop :=
  (s.ctx x).request = none ∨ ((s.ctx x).state = .releasing ∧ (s.ctx x).queue = [] ∧
    ∀ r, (s.ctx x).request = some (.opens r) → r.awaiting = [])

/-! ### A site that ends INVALID, and a hold that is lost -/

/-- The site in flight of bus `x` has ended INVALID with a cause: its record is among the records appended, or waits in the
slot (R78, R80, R81). -/
def EndedBy (s t : State) (x : Bus) (u : Site) (cause : Cause) : Prop :=
  ∃ m : MeasRec, (Rec.measure m ∈ t.queue.records.drop s.queue.records.length ∨
      ∃ sl, (t.ctx x).slot = some sl ∧ sl.record = .measure m) ∧
    m.bus = x ∧ m.site = some u ∧ m.tag = (s.ctx x).stepTag ∧ m.body = .invalid cause

/-- Bus `x` works a MEASURE step at site `u` in state `st`, with its slot empty. -/
def WorksAt (s : State) (x : Bus) (st : CtxState) (u : Site) : Prop :=
  (s.ctx x).state = st ∧ (s.ctx x).inFlight = some u ∧ (s.ctx x).slot = none ∧
    ∃ tag sel n lim k d timeout hold, (s.ctx x).step = some ⟨tag, .measure sel n lim k d timeout hold⟩

/-- A site of bus `x` that is judged has its record next in the result queue, or waiting in the slot of the POSTING context
when the queue is full, with no site in flight and no request; tables, guard unit and lanes stand (R78, R80, R144). -/
def JudgedOrPosted (s t : State) (x : Bus) (record : Rec) : Prop :=
  t.tables = s.tables ∧ t.guard = s.guard ∧ t.lanes = s.lanes ∧
    (s.queue.records.length < 64 → ∃ rs, t.queue.records = s.queue.records ++ record :: rs) ∧
    (64 ≤ s.queue.records.length → (t.ctx x).state = .posting ∧ (t.ctx x).slot.isSome = true ∧
      (t.ctx x).inFlight = none ∧ (t.ctx x).request = none ∧ t.queue.records = s.queue.records)

/-- Bus `x`, whose step has failed and whose record is taken, releases toward IDLE, or toward HALTED with nothing to resume
where `halts`; it is there at once when its claims were reservations only, its source is quiet and no break order of it is
outstanding (R83, R85). -/
def ReleasesAfter (s t : State) (x : Bus) (halts : Bool) : Prop :=
  let d := t.ctx x
  d.slot = none ∧ d.inFlight = none ∧
    ((d.state = .releasing ∧ d.dest = (if halts then .halted else .idle)) ∨
      d.state = (if halts then .halted else .idle)) ∧
    (halts = true → d.resume = .none ∧ d.step = (s.ctx x).step) ∧
    (d.state = .halted → t.trunk.attn.step = true) ∧ (d.state = .idle → d.step = none ∧ d.target = none) ∧
    (s.sourceQuiet x = true → s.breaksOutstanding x = false →
      (∀ p : Pt, s.claimed x p = true → (s.xp x p).state = .reserved) → d.state ≠ .releasing)

/-- A hold is lost: STEP is pending, and the bus, with no step queued, is not HOLDING (R84). -/
def HoldLost (s t : State) (x : Bus) : Prop :=
  t.trunk.attn.step = true ∧ ((s.ctx x).queue = [] → (t.ctx x).state ≠ .holding)

/-- The powered board at site `u` departs in a PRESENCE report of card `c` (R168). -/
def Leaves (s : State) (c : CardId) (mask : Byte) (u : Site) : Prop :=
  s.supplyOn u = true ∧ ∃ k : Fin 8, s.siteOnBlock (blockOnCard c k) = some u ∧ mask.getLsbD k.val = false ∧
    s.blockPresence (blockOnCard c k) = .present

/-! ### What SAFE and a trip leave in a context -/

/-- What R88 leaves in the context of bus `x` when the rack enters SAFE, by the state it was in: a site in flight is kept to
be redone, its take CANCELled and its samples dropped; a record in the slot stands, with the next site or none to go on to
(whatever its action, log 12); a hold ends as IDLE and a release at its destination, each once the slot is empty; the other
states stand. The capture of a dropped take is kept (log 15). -/
def SafeLeaves (s t : State) (x : Bus) : Prop :=
  let c := s.ctx x
  let d := t.ctx x
  (c.state.working = true → c.inFlight.isSome = true →
    d = { c with
      state := .suspended, resume := .redo, settleTimer := none, request := none, after := .none, lastOk := false
      source := d.source
      takeTag := if c.state = .measuring then c.takeTag + 1 else c.takeTag
      acc := if c.state = .measuring then [] else c.acc
      measureTimer := if c.state = .measuring then none else c.measureTimer } ∧
    (c.state = .measuring → s.channelUsable x = true →
      ((s.busEntry x).lane, .cancel (s.busEntry x).channel c.takeTag) ∈ t.out)) ∧
  (c.state = .posting → c.inFlight = none → c.slot ≠ none → c.after ≠ .abort →
    d = { c with
      state := .suspended, resume := if c.sweep.status = .running then .next else .none, request := none
      lastOk := false, source := d.source }) ∧
  (c.state = .holding →
    (c.slot = none → c.endPending = none → d.state = .idle ∧ d.step = none ∧ d.site = none ∧ d.net = none ∧
      d.target = none ∧ d.resume = .none) ∧
    (c.slot ≠ none → d.state = .holding)) ∧
  (c.state = .releasing →
    (c.slot = none → c.endPending = none →
      (c.dest = .idle → d.state = .idle ∧ d.step = none ∧ d.resume = .none) ∧
      (c.dest = .halted → d.state = .halted ∧ d.step = c.step ∧ d.resume = c.resume ∧ t.trunk.attn.step = true)) ∧
    (c.slot ≠ none → d.state = .releasing ∧ d.dest = c.dest)) ∧
  (c.state = .idle ∨ c.state = .halted ∨ c.state = .suspended ∨ c.state = .tripped →
    d = { c with request := d.request, source := d.source })

/-- What a context remembers in TRIPPED for a site that its bus's trip ends INVALID: HALTED where the disposition says
HALT_BUS, else the next site of a sweep that has sites left, else no step (R59, R132). A redo is judged with the entries it
had captured (log 15). -/
def rememberedAfter (s : State) (x : Bus) (u : Site) : Resume :=
  if s.tables.disps[dispNo (invalidRow s x) .invalid].action = .haltBus then .halted
  else if ((s.ctx x).sweep.join (some u)).status = .running then .next
  else .none

/-- What R58 and R59 leave in the context of bus `x` when it trips, by the state it was in: the site in flight, or the site
to redo, has ended INVALID with cause TRIP and a take is CANCELled; a judged record in the slot stands; the context remembers
what the table of R59 gives, or HALTED for a HALT_BUS record still in the slot (R132; the model's, log 12); remembering no
step it has none. The step queue is kept. -/
def TripLeaves (s t : State) (x : Bus) : Prop :=
  let c := s.ctx x
  let d := t.ctx x
  d.queue = c.queue ∧
  (∀ u, (c.state.working = true ∧ c.inFlight.isSome = true) ∨ (c.state = .suspended ∧ c.resume = .redo) →
    invalidSite c = some u → EndedBy s t x u .trip ∧ d.inFlight = none ∧ d.resume = rememberedAfter s x u) ∧
  (c.state = .measuring → c.inFlight.isSome = true →
    d.takeTag = c.takeTag + 1 ∧ d.acc = [] ∧ d.measureTimer = none ∧
    (s.channelUsable x = true → ((s.busEntry x).lane, .cancel (s.busEntry x).channel c.takeTag) ∈ t.out)) ∧
  (c.state.working = true → c.inFlight = none →
    d.resume = (if c.haltInSlot then .halted else if c.sweep.status = .running then .next else .none) ∧
    (c.slot ≠ none → d.slot = c.slot)) ∧
  (c.state = .suspended → c.resume ≠ .redo →
    d.resume = (if c.haltInSlot then .halted else c.resume) ∧ (c.slot ≠ none → d.slot = c.slot)) ∧
  (c.state = .idle ∨ c.state = .holding → d.resume = .none) ∧
  (c.state = .releasing → d.resume = if c.dest = .halted then .halted else .none) ∧
  (c.state = .halted → d.resume = .halted) ∧
  (c.state ≠ .tripped →
    (d.resume = .none → d.step = none ∧ d.site = none ∧ d.net = none ∧ d.target = none) ∧
    (d.resume ≠ .none → d.step = c.step ∧ d.site = c.site ∧ d.net = c.net ∧ d.target = c.target))

/-! ### A lane that leaves ACTIVE and returns -/

/-- What the loss of card `c` does at the other blocks (R39, R81, R84, R165, R177). -/
def CardGone (s t : State) (c : CardId) : Prop :=
  (∀ (x : Bus) (p : Pt), cardOf p = c → s.claimed x p = true →
    (t.xp x p).state = .unknown ∧ (t.xp x p).mark = false) ∧
  (t.card c).pending = none ∧ (t.card c).priority = [] ∧ (t.card c).ordinary = [] ∧
  (∀ b : Block, cardOfBlock b = c → t.blockPresence b = .unknown) ∧
  (∀ (b : Block) (u : Site), cardOfBlock b = c → s.siteOnBlock b = some u → t.supplyOn u = false) ∧
  (∀ (x : Bus) (r : MakeReq), (s.ctx x).request = some (.make r) → r.card = c →
    ∀ u, WorksAt s x .making u ∨ WorksAt s x .blocked u → EndedBy s t x u .lane) ∧
  ∀ x : Bus, (s.ctx x).onCard c = true → (∃ p : Pt, cardOf p = c ∧ s.claimed x p = true) →
    (∀ u, WorksAt s x .settling u ∨ WorksAt s x .restoring u ∨ WorksAt s x .measuring u → EndedBy s t x u .lane) ∧
    ((s.ctx x).state = .holding → HoldLost s t x)

/-- What the loss of the instrument lane `l` does at the other blocks (R53, R81, R84, R177). -/
def InstrumentGone (s t : State) (l : LaneId) : Prop :=
  ∀ x : Bus, (s.busEntry x).lane = l →
    ((s.busEntry x).kind = .source → (t.ctx x).source = .unsure ∧
      ∀ u, (WorksAt s x .quieting u ∧ (s.ctx x).request = some .quiet) ∨
        (WorksAt s x .restoring u ∧ (s.ctx x).request = some .live) → EndedBy s t x u .lane) ∧
    (∀ u, WorksAt s x .measuring u → EndedBy s t x u .lane) ∧
    ((s.ctx x).state = .holding → HoldLost s t x)

/-- The response list after a running test of lane `l` has ended: the held response is complete at its place, with n, the
frames sent and the frames matched (R184, R188). -/
def testsEnded (s : State) (l : LaneId) : List Resp :=
  s.trunk.responses.map (fun r =>
    if (s.lane l).state = .test ∧ r.heldBy = some (.lane l) then
      { r with
        data := [byte (s.lane l).testCount, byte (s.lane l).testSent, byte (s.lane l).testMatched], heldBy := none }
    else r)

/-- What the return of card `c` from RECOVER places (R40): recovery opens, bus by bus in rising order, for the UNKNOWN
crosspoints of the card and no others, each at most 16 changes with its columns rising; the first is pending with the
card's next tag and alone has gone out. No crosspoint has changed. -/
def RecoveryPlaced (s t : State) (c : CardId) (l : LaneId) : Prop :=
  (∀ (x : Bus) (p : Pt), t.xp x p = s.xp x p) ∧ t.ctxs = s.ctxs ∧ (∀ d, d ≠ c → t.card d = s.card d) ∧ (t.card c).ordinary = [] ∧
    ((∀ (x : Bus) (p : Pt), cardOf p = c → (s.xp x p).state ≠ .unknown) → t.card c = s.card c ∧ t.out = []) ∧
    ((∃ (x : Bus) (p : Pt), cardOf p = c ∧ (s.xp x p).state = .unknown) → ∃ o : Order,
      (t.card c).pending = some ⟨(s.card c).nextTag, o⟩ ∧ (t.card c).nextTag = (s.card c).nextTag + 1 ∧
      t.out = [(l, .order (s.card c).nextTag false o.bus (o.points.map columnOf))] ∧
      ((o :: (t.card c).priority).map (·.bus)).Pairwise (· ≤ ·) ∧
      (∀ q ∈ o :: (t.card c).priority, q.kind = .recovery ∧ q.points ≠ [] ∧ q.points.length ≤ 16 ∧
        q.points.Pairwise (· < ·) ∧ ∀ p ∈ q.points, cardOf p = c ∧ (s.xp q.bus p).state = .unknown) ∧
      ∀ (x : Bus) (p : Pt), cardOf p = c → (s.xp x p).state = .unknown →
        ∃ q ∈ o :: (t.card c).priority, q.bus = x ∧ p ∈ q.points)

/-- What an ACTIVE lane's leaving does at the other blocks, by the partner kind recorded (R177). -/
def LaneGone (s t : State) (l : LaneId) : Prop :=
  ((s.lane l).partner = .card → ∀ c, s.cardOnLane l = some c → CardGone s t c) ∧
    ((s.lane l).partner = .instrument → InstrumentGone s t l)

end Sys2Proof.Machine
end

