-- ==== Sys2Proof/Certificates/Slice0/Obligations.lean ====
section
/-!
DEFINITION. The statements about the TFC-832 for the provers. Each names the rules of spec/ that it states, and says
where a clause is the model's own choice (with its log entry). They hold for every state unless a hypothesis says
otherwise; `Quiesced` says that no consequence is left over from an earlier command, as between any two commands.
-/

open Sys2Proof Sys2Proof.Machine

/-! ### The machine -/

/-- Commands are taken in the order they arrive (R187); with none waiting the model idles (its choice, log 2). -/
def Obligations.StepRunsTheFrontCommand : Prop :=
  (∀ (s : State) (c : Instr) (rest : List Instr), s.pending = c :: rest →
    step s = exec c { s with pending := rest }) ∧
  ∀ s : State, s.pending = [] → step s = .next s

/-- Every command completes in every state, and none touches the commands that wait behind it. That POWER_RESET keeps
them too is the model's choice (log 3). -/
def Obligations.EveryCommandCompletes : Prop :=
  ∀ (c : Instr) (s : State), ∃ t, exec c s = .next t ∧ t.pending = s.pending

/-- The values after power reset that spec/ states, table by table and block by block; that the transmitter is free is the
model's (log 44). The pin levels, and the interlock that follows them, are the model's choice (log 3) and stand in no
clause. -/
def Obligations.ResetValues : Prop :=
  (∀ u : Site, State.reset.siteEntry u = ⟨false, 0, 0, 0⟩) ∧
  (∀ n : Net, State.reset.netEntry n = ⟨0, Vector.replicate 4 0, .force, 0⟩) ∧
  (∀ x : Bus, State.reset.busEntry x = ⟨false, .measure, 0, 0, 0, .off⟩) ∧
  (∀ c : CardId, State.reset.cardEntry c = ⟨none, 0⟩) ∧
  (∀ i : Fin 32, State.reset.tables.scales[i] = ⟨0#16, 0, 0#32, 0⟩) ∧
  (∀ i : Fin 256, State.reset.tables.limits[i] = ⟨.record, 0#32, 0#32, 0, 0⟩) ∧
  (∀ i : Fin 80, State.reset.tables.disps[i] = ⟨0, .proceed, false⟩) ∧
  State.reset.tables.mark = ⟨false, 0, 0⟩ ∧
  (∀ (x : Bus) (p : Pt), State.reset.xp x p = ⟨.opn, 0, false⟩) ∧
  (∀ c : CardId, (State.reset.card c).pending = none ∧ (State.reset.card c).priority = [] ∧
    (State.reset.card c).ordinary = [] ∧ (State.reset.card c).nextTag = 0#8 ∧
    (State.reset.card c).rejectReason = none) ∧
  (∀ x : Bus, (State.reset.ctx x).state = .idle ∧ (State.reset.ctx x).queue = [] ∧ (State.reset.ctx x).step = none ∧
    (State.reset.ctx x).slot = none ∧ (State.reset.ctx x).endPending = none ∧ (State.reset.ctx x).takeTag = 0#8 ∧
    (State.reset.ctx x).source = .quiet ∧ (State.reset.ctx x).sweep.status = .none ∧
    (State.reset.ctx x).site = none ∧ (State.reset.ctx x).net = none ∧ (State.reset.ctx x).target = none ∧
    (State.reset.ctx x).inFlight = none ∧ (State.reset.ctx x).acc = [] ∧ (State.reset.ctx x).captured = none ∧
    (State.reset.ctx x).settleTimer = none ∧ (State.reset.ctx x).measureTimer = none ∧
    (State.reset.ctx x).request = none ∧ (State.reset.ctx x).resume = .none ∧ State.reset.tripped x = false) ∧
  State.reset.queue = ⟨[], 0, false, false⟩ ∧ State.reset.guard.rack = .safe .startup ∧
  (∀ b : Block, State.reset.blockPresence b = .unknown) ∧
  (∀ i : Fin 32, State.reset.guard.instTrips[i] = false) ∧
  (∀ u : Site, State.reset.supplyOn u = false ∧ State.reset.guard.arrival[u] = false ∧
    State.reset.guard.departure[u] = false ∧ State.reset.verdict u = ⟨.untested, 0, 0, 0, false⟩) ∧
  State.reset.panel.state = .none ∧ State.reset.panel.number = 0#8 ∧ State.reset.panel.foldPending = false ∧
  (∀ l : LaneId, (State.reset.lane l).state = .detect ∧ (State.reset.lane l).partner = .none ∧
    (State.reset.lane l).channels = 0 ∧ (State.reset.lane l).errors = 0 ∧ (State.reset.lane l).loss = .none ∧
    (State.reset.lane l).fault = .none) ∧
  State.reset.trunk = ⟨[], none, 0#16, 0#16, AttnSet.empty, none, false⟩ ∧ State.reset.markHigh = false

/-- POWER_RESET: SAFE with cause STARTUP, the interlock by the LID level, every table, record and context at its reset
value, no attention, no emergency frame, and each lane's first PROBE. That the pins keep their levels, and that the
commands behind it still wait, is the model's choice (log 3), that a frame being sent is cut off is the model's
(log 44), and so is the order of the PROBEs, from lane 0 to lane 7 (log 41). -/
def Obligations.PowerResetRestoresEverything : Prop :=
  ∀ s : State, ∃ t, exec .powerReset s = .next t ∧ t.guard.rack = .safe .startup ∧
    t.guard.interlock = (if s.guard.lidOpen then .opn else .waiting) ∧
    t.guard.lidOpen = s.guard.lidOpen ∧ t.guard.tripIn = s.guard.tripIn ∧ t.guard.fx = s.guard.fx ∧
    t.tables = State.reset.tables ∧ t.matrix = State.reset.matrix ∧ t.ctxs = State.reset.ctxs ∧
    t.queue = State.reset.queue ∧ t.panel = State.reset.panel ∧ t.lanes = State.reset.lanes ∧
    t.trunk = State.reset.trunk ∧ (∀ x : Bus, t.tripped x = false) ∧ t.markHigh = false ∧
    t.guard.instTrips = State.reset.guard.instTrips ∧ t.guard.presence = State.reset.guard.presence ∧
    t.guard.arrival = State.reset.guard.arrival ∧ t.guard.departure = State.reset.guard.departure ∧
    t.guard.supply = State.reset.guard.supply ∧
    t.out = allLanes.map (fun l => (l, LaneFrame.probe)) ∧ t.pending = s.pending

/-! ### The pins -/

/-- LID_OPENS: from any rack state the rack is SAFE with cause INTERLOCK and the interlock OPEN, GUARD is pending, no
context works, no source is live or going live, the step queues stand, the emergency open of every bus is made (R35),
and nothing else of the guard unit moves. Every context is left as the table of R88 has it (SafeLeaves; the model's there:
log 12 and log 15). A lid that is open already opens no further (the model's, log 1). -/
def Obligations.LidOpeningMakesTheRackSafe : Prop :=
  ∀ s : State,
    (s.guard.lidOpen = false → ∃ t, exec .lidOpens s = .next t ∧
      t.guard = { s.guard with rack := .safe .interlock, interlock := .opn, lidOpen := true } ∧
      LeavesStores s t ∧ t.trunk.attn.guard = true ∧ (∀ x : Bus, (t.ctx x).state.working = false) ∧
      (∀ x : Bus, (t.ctx x).queue = (s.ctx x).queue) ∧ (OpensFirst s → ∀ x : Bus, EmergencyOpened s t x) ∧
      (∀ x : Bus, (s.busEntry x).kind = .source → (t.ctx x).source ≠ .live ∧ (t.ctx x).source ≠ .goingLive) ∧
      (Quiesced s → ∀ x : Bus, SafeLeaves s t x)) ∧
    (s.guard.lidOpen = true → DoesNothing .lidOpens s)

/-- LID_CLOSES and LID_QUIET_TIMER_EXPIRY: OPEN to WAITING, WAITING to CLEAR, and GUARD for a CLEAR in SAFE. An event
whose premise does not hold is none (the model's, log 1). -/
def Obligations.LidClosesAndQuiets : Prop :=
  ∀ s : State,
    (s.guard.lidOpen = true → exec .lidCloses s = .next { s with
      out := [], guard := { s.guard with lidOpen := false, interlock := .waiting } }) ∧
    (s.guard.lidOpen = false → DoesNothing .lidCloses s) ∧
    (s.guard.interlock = .waiting → ∃ t, exec .lidQuietTimerExpiry s = .next t ∧
      SameBlocks { s with guard := { s.guard with interlock := .clear } } t ∧
      t.trunk.attn = { s.trunk.attn with guard := s.trunk.attn.guard || s.isSafe } ∧
      t.trunk.responses = s.trunk.responses) ∧
    (s.guard.interlock ≠ .waiting → DoesNothing .lidQuietTimerExpiry s)

/-- TRIP_IN_CHANGE, FX_CHANGE and TRIP: the level or trip state takes its value, exactly the enabled buses with a clear
flag whose selected source is then asserted trip, among those the event evaluates (R54, R55, R57), and a trip raises
GUARD. An event that repeats the value changes nothing (for the pins the model's, log 1). -/
def Obligations.GuardLinesTripTheirBuses : Prop :=
  ∀ (s : State) (v : Bool),
    (s.guard.tripIn ≠ v → ∃ t, exec (.tripInChange v) s = .next t ∧ LeavesStores s t ∧
      t.guard = { s.guard with tripIn := v, trips := t.guard.trips } ∧
      (∀ x : Bus, t.tripped x =
        (s.tripped x || ((s.busEntry x).enabled && (s.busEntry x).guardSource == .rackLine && v))) ∧
      ((∃ x : Bus, t.tripped x ≠ s.tripped x) → t.trunk.attn.guard = true)) ∧
    (s.guard.tripIn = v → DoesNothing (.tripInChange v) s) ∧
    (∀ n : Fin 4, s.guard.fx[n] ≠ v → ∃ t, exec (.fxChange n v) s = .next t ∧ LeavesStores s t ∧
      t.guard = { s.guard with fx := s.guard.fx.set n v, trips := t.guard.trips } ∧
      (∀ x : Bus, t.tripped x =
        (s.tripped x || ((s.busEntry x).enabled && (s.busEntry x).guardSource == .fixture n && v))) ∧
      ((∃ x : Bus, t.tripped x ≠ s.tripped x) → t.trunk.attn.guard = true)) ∧
    (∀ n : Fin 4, s.guard.fx[n] = v → DoesNothing (.fxChange n v) s) ∧
    ∀ (l : LaneId) (ch : Chan), s.laneHasInstrument l = true → ch.val < (s.lane l).channels.val →
      (s.guard.instTrips[tripNo l ch] = v → OnlyCountsGood (.trip l (byte ch.val) (yesNo v)) s l) ∧
      (s.guard.instTrips[tripNo l ch] ≠ v → ∃ t, exec (.trip l (byte ch.val) (yesNo v)) s = .next t ∧
        t.tables = s.tables ∧
        t.guard = { s.guard with instTrips := s.guard.instTrips.set (tripNo l ch) v, trips := t.guard.trips } ∧
        (∀ x : Bus, t.tripped x =
          (s.tripped x || ((s.busEntry x).enabled && (s.busEntry x).lane == l && (s.busEntry x).channel == ch &&
            asserted { s with guard := { s.guard with instTrips := s.guard.instTrips.set (tripNo l ch) v } } x))) ∧
        ((∃ x : Bus, t.tripped x ≠ s.tripped x) → t.trunk.attn.guard = true))

/-- Whatever command sets a bus's trip flag, that bus is out of service when the command is done: its context is
TRIPPED, GUARD is pending, a SOURCE bus is neither live nor going live, it holds no reservation, and its emergency open
is made (R35, R57, R58, R59). Any command but RACK_RESET, whose trips find the contexts at rest (R61), leaves in the context
what R58 and R59 give: the site INVALID with cause TRIP and what TRIPPED remembers (TripLeaves; the model's there: log 12 and
log 15). -/
def Obligations.TrippedBusIsStopped : Prop :=
  ∀ (c : Instr) (s t : State) (x : Bus), exec c s = .next t → s.tripped x = false → t.tripped x = true →
    (t.ctx x).state = .tripped ∧ t.trunk.attn.guard = true ∧
    ((t.busEntry x).kind = .source → (t.ctx x).source ≠ .live ∧ (t.ctx x).source ≠ .goingLive) ∧
    (∀ p : Pt, (t.xp x p).state ≠ .reserved) ∧ (OpensFirst s → EmergencyOpened s t x) ∧
    (Quiesced s → (∀ tag p, c ≠ .rackReset tag p) → TripLeaves s t x)

/-! ### Frames on the trunk -/

/-- A trunk frame that fails R186 leaves every block as it was; a command, or a frame of no command kind, that arrives while
32 responses wait changes nothing (R188). The model's: a row TRUNK_FRAME_DISCARD or RESPONSE_LIST_FULL changes nothing for a frame that is fine, or
with room in the list, either (log 1), and a TABLE WRITE arrives with its position 0 (log 9). -/
def Obligations.DiscardedTrunkFramesChangeNothing : Prop :=
  ∀ s : State, (∀ bytes, DoesNothing (.trunkFrameDiscard bytes) s) ∧
    (∀ tag kind p, DoesNothing (.responseListFull tag kind p) s) ∧
    ∀ c : Instr, ¬ HasRoom s →
      (c.fixedFrame.isSome = true ∨ (∃ tag p, c.tableWrite = some (tag, p, 0)) ∨ ∃ tag kind p, c = .badKind tag kind p) →
      DoesNothing c s

/-- A checked frame of no command kind is answered BAD_KIND, and a command of the wrong payload length BAD_LENGTH, with
nothing else done (R187, R198). A TABLE WRITE that does not hold its header and whole entries is answered BAD_LENGTH, and
one of 4 bytes or more to a table that does not exist BAD_VALUE, with 0 entries applied (R190, R198); that every TABLE
WRITE row takes such frames is the model's (log 9). -/
def Obligations.WrongFramesAreRefused : Prop :=
  ∀ s : State, HasRoom s →
    (∀ tag kind p, isCommandKind kind = false → OnlyReplies (.badKind tag kind p) s tag kind .badKind []) ∧
    (∀ c kind tag p n, Instr.fixedFrame c = some (kind, tag, p, n) → p.length ≠ n →
      OnlyReplies c s tag kind .badLength []) ∧
    ∀ c tag p code size, Instr.tableWrite c = some (tag, p, 0) → Instr.writeTable c = some (code, size) →
      p.length ≤ 1024 →
      (p.length < 4 → OnlyReplies c s tag 0x02#8 .badLength (le16 0)) ∧
      (4 ≤ p.length → 8 < byteAt p 0 → OnlyReplies c s tag 0x02#8 .badValue (le16 0)) ∧
      (4 ≤ p.length → byteAt p 0 = code → (p.length = 4 ∨ (p.length - 4) % size ≠ 0) →
        OnlyReplies c s tag 0x02#8 .badLength (le16 0))

/-- Every command frame of fixed length that finds room is answered by exactly one response with its tag and kind, at
the end of the list; the earlier ones keep their places (R187, R188). -/
def Obligations.EveryCommandFrameIsAnsweredOnce : Prop :=
  ∀ (c : Instr) (s : State) (kind : Byte) (tag : Half) (p : List Byte) (n : Nat), HasRoom s →
    c.fixedFrame = some (kind, tag, p, n) → ∃ t, exec c s = .next t ∧
      t.trunk.responses.map (fun r => (r.tag, r.kind)) =
        s.trunk.responses.map (fun r => (r.tag, r.kind)) ++ [(tag, kind)]

/-! ### STEP -/

/-- A step whose fields are within R64 is read from its payload as it was written there: no field is dropped. -/
def Obligations.StepPayloadsRoundTrip : Prop :=
  ∀ (s : State) (x : Bus) (st : Step), s.panel.state = .opn → s.guard.rack ≠ .service →
    (s.busEntry x).enabled = true → st.work.InRange s x → (s.ctx x).queue.length < 8 →
    stepChecked s (st.bytes x) = .ok (x, st)

/-- STEP accepted (R64): answered OK with the queue's length after it. Outside READY it stands at the tail of its bus's
queue and every other queue is as it was; in READY contexts may at once have taken steps from the heads. An IDLE or
HOLDING bus with nothing in its way takes the step (R67): it resolves the site (R14) and enters the first stage that R68
gives, with its frames and orders, or judges the site INVALID. A sweep hands on its first site, or ends (R94); a
SWEEP_CONTINUE goes on after the cursor of a COMPLETE or ABORTED sweep, and ends at once with nothing to continue (R95). -/
def Obligations.AcceptedStepsJoinTheirQueue : Prop :=
  ∀ (s : State) (tag : Half) (x : Bus) (st : Step), HasRoom s → s.panel.state = .opn → s.guard.rack ≠ .service →
    (s.busEntry x).enabled = true → st.work.InRange s x → (s.ctx x).queue.length < 8 →
    ∃ t, exec (.step tag (st.bytes x)) s = .next t ∧
      Answered s t tag 0x01#8 .ok [byte ((s.ctx x).queue.length + 1)] ∧ LeavesStores s t ∧ t.guard = s.guard ∧
      t.panel.state = .opn ∧ (t.ctx x).queue <:+ (s.ctx x).queue ++ [st] ∧
      (∀ y : Bus, y ≠ x → (t.ctx y).queue <:+ (s.ctx y).queue) ∧
      (s.isReady = false → (t.ctx x).queue = (s.ctx x).queue ++ [st] ∧
        ∀ y : Bus, y ≠ x → (t.ctx y).queue = (s.ctx y).queue) ∧
      (MayStart s x → StepBegins s t x ((s.ctx x).took st []) st)

/-- STEP refused, by the first of the five checks of R64 that applies, for a payload of 20 bytes. -/
def Obligations.StepChecksInOrder : Prop :=
  ∀ (s : State) (tag : Half) (p : List Byte), HasRoom s → p.length = 20 →
    (s.panel.state ≠ .opn → OnlyReplies (.step tag p) s tag 0x01#8 .panel []) ∧
    (s.panel.state = .opn → s.guard.rack = .service → OnlyReplies (.step tag p) s tag 0x01#8 .state []) ∧
    (s.panel.state = .opn → s.guard.rack ≠ .service →
      8 ≤ byteAt p 2 ∨ (byteAt p 3 ≤ 1 ∧ (64 ≤ byteAt p 12 ∨ (byteAt p 4 = 0 ∧ 32 ≤ byteAt p 5))) →
      OnlyReplies (.step tag p) s tag 0x01#8 .badIndex []) ∧
    (∀ x : Bus, s.panel.state = .opn → s.guard.rack ≠ .service → byteAt p 2 = x.val →
      ¬ (byteAt p 3 ≤ 1 ∧ (64 ≤ byteAt p 12 ∨ (byteAt p 4 = 0 ∧ 32 ≤ byteAt p 5))) →
      ((s.busEntry x).enabled = false ∨ 3 ≤ byteAt p 3 ∨ (byteAt p 3 = 1 ∧ byteAt p 4 ≠ 0) ∨
        (∃ n : Net, byteAt p 3 ≤ 1 ∧ byteAt p 12 = n.val ∧ ¬ NetFits s x n) ∨
        (byteAt p 3 = 0 ∧ (3 ≤ byteAt p 4 ∨ byteAt p 14 = 0 ∨ 16 < byteAt p 14 ∨ 3 < byteAt p 15 ∨
          numAt16 p 16 = 0 ∨ 60000 < numAt16 p 16 ∨ 2 ≤ byteAt p 18 ∨
          (1 ≤ byteAt p 4 ∧ (byteAt p 11 = 0 ∨ 32 < byteAt p 11)) ∨
          (byteAt p 4 = 1 ∧ (8 ≤ byteAt p 6 ∨ 8 ≤ byteAt p 7 ∨ 8 ≤ byteAt p 8 ∨ 8 ≤ byteAt p 9 ∨
            byteAt p 7 < byteAt p 6 ∨ byteAt p 9 < byteAt p 8 ∨ 2 ≤ byteAt p 10))))) →
      OnlyReplies (.step tag p) s tag 0x01#8 .badValue []) ∧
    ∀ (x : Bus) (st : Step), s.panel.state = .opn → s.guard.rack ≠ .service → p = st.bytes x →
      (s.busEntry x).enabled = true → st.work.InRange s x → 8 ≤ (s.ctx x).queue.length →
      OnlyReplies (.step tag p) s tag 0x01#8 .full []

/-- A RELEASE step of a bus that claims nothing and needs no quiet reaches IDLE at once, with no frame and no record
(R85). -/
def Obligations.ReleaseAtRestEndsIdle : Prop :=
  ∀ (s : State) (tag : Half) (x : Bus) (stag : Half), HasRoom s → Quiesced s → s.guard.rack = .ready →
    s.panel.state = .opn → (s.busEntry x).enabled = true → (s.ctx x).state = .idle → (s.ctx x).queue = [] →
    (s.ctx x).slot = none → (s.ctx x).endPending = none → (s.ctx x).request = none → s.claims x = [] →
    s.breaksOutstanding x = false → s.sourceQuiet x = true →
    ∃ t, exec (.step tag (Step.bytes x ⟨stag, .release⟩)) s = .next t ∧ Answered s t tag 0x01#8 .ok [1#8] ∧
      (t.ctx x).state = .idle ∧ (t.ctx x).step = none ∧ (t.ctx x).queue = [] ∧ (t.ctx x).slot = none ∧
      (∀ y : Bus, y ≠ x → t.ctx y = s.ctx y) ∧ t.matrix = s.matrix ∧ t.queue = s.queue ∧ t.guard = s.guard ∧
      t.out = []

/-! ### TABLE WRITE and TABLE READ -/

/-- TABLE_WRITE_SITE, one entry: applied, or refused IN_USE by R6, BAD_VALUE by R7 and by the field checks of R5,
BAD_INDEX by R5. -/
def Obligations.SiteEntriesAreWritten : Prop :=
  ∀ (s : State) (tag : Half) (r : Byte) (u : Site) (e : SiteEntry), HasRoom s →
    (e = s.siteEntry u ∨ (¬ SiteInUse s u e ∧ ¬ SiteClashes s u e) →
      ∃ t, exec (.tableWriteSite tag ([0#8, r] ++ le16 u.val ++ e.bytes) 0) s = .next t ∧
        Answered s t tag 0x02#8 .ok (le16 1) ∧ t.siteEntry u = e ∧ (∀ v : Site, v ≠ u → t.siteEntry v = s.siteEntry v) ∧
        SameBlocks { s with tables := { s.tables with sites := t.tables.sites } } t ∧ t.trunk.attn = s.trunk.attn) ∧
    (e ≠ s.siteEntry u → SiteInUse s u e →
      OnlyReplies (.tableWriteSite tag ([0#8, r] ++ le16 u.val ++ e.bytes) 0) s tag 0x02#8 .inUse (le16 0)) ∧
    (e ≠ s.siteEntry u → ¬ SiteInUse s u e → SiteClashes s u e →
      OnlyReplies (.tableWriteSite tag ([0#8, r] ++ le16 u.val ++ e.bytes) 0) s tag 0x02#8 .badValue (le16 0)) ∧
    (∀ g : List Byte, g.length = 4 → 2 ≤ byteAt g 0 ∨ 8 ≤ byteAt g 1 ∨ 8 ≤ byteAt g 2 ∨ 32 ≤ byteAt g 3 →
      OnlyReplies (.tableWriteSite tag ([0#8, r] ++ le16 u.val ++ g) 0) s tag 0x02#8 .badValue (le16 0)) ∧
    ∀ i : Nat, 32 ≤ i → i < 65536 →
      OnlyReplies (.tableWriteSite tag ([0#8, r] ++ le16 i ++ e.bytes) 0) s tag 0x02#8 .badIndex (le16 0)

/-- TABLE_WRITE_NET, one entry: applied, or refused BAD_VALUE by R11, IN_USE by R12, BAD_INDEX by R11. -/
def Obligations.NetEntriesAreWritten : Prop :=
  ∀ (s : State) (tag : Half) (r : Byte) (n : Net) (e : NetEntry), HasRoom s → e.settle < 65536 →
    (e.InRange → e = s.netEntry n ∨ ¬ NetInUse s n →
      ∃ t, exec (.tableWriteNet tag ([1#8, r] ++ le16 n.val ++ e.bytes) 0) s = .next t ∧
        Answered s t tag 0x02#8 .ok (le16 1) ∧ t.netEntry n = e ∧ (∀ m : Net, m ≠ n → t.netEntry m = s.netEntry m) ∧
        SameBlocks { s with tables := { s.tables with nets := t.tables.nets } } t ∧ t.trunk.attn = s.trunk.attn) ∧
    (¬ e.InRange →
      OnlyReplies (.tableWriteNet tag ([1#8, r] ++ le16 n.val ++ e.bytes) 0) s tag 0x02#8 .badValue (le16 0)) ∧
    (e.InRange → e ≠ s.netEntry n → NetInUse s n →
      OnlyReplies (.tableWriteNet tag ([1#8, r] ++ le16 n.val ++ e.bytes) 0) s tag 0x02#8 .inUse (le16 0)) ∧
    (∀ g : List Byte, g.length = 8 → 5 ≤ byteAt g 0 ∨ 8 ≤ byteAt g 1 ∨ 8 ≤ byteAt g 2 ∨ 8 ≤ byteAt g 3 ∨
        8 ≤ byteAt g 4 ∨ 3 ≤ byteAt g 5 →
      OnlyReplies (.tableWriteNet tag ([1#8, r] ++ le16 n.val ++ g) 0) s tag 0x02#8 .badValue (le16 0)) ∧
    ∀ i : Nat, 64 ≤ i → i < 65536 →
      OnlyReplies (.tableWriteNet tag ([1#8, r] ++ le16 i ++ e.bytes) 0) s tag 0x02#8 .badIndex (le16 0)

/-- TABLE_WRITE_BUS, one entry: refused by R44 and by the checks of R43, or applied with the effects of R45 on the
trip flag and, where the bus does not trip, on the source record. The source record of a bus that is no SOURCE bus is
the model's QUIET (log 25). -/
def Obligations.BusEntriesAreWritten : Prop :=
  ∀ (s : State) (tag : Half) (r : Byte) (x : Bus) (e : BusEntry), HasRoom s →
    (e = s.busEntry x ∨ BusFree s x → ¬ BusClashes s x e →
      ∃ t, exec (.tableWriteBus tag ([2#8, r] ++ le16 x.val ++ e.bytes) 0) s = .next t ∧
        Answered s t tag 0x02#8 .ok (le16 1) ∧ t.tables = { s.tables with buses := s.tables.buses.set x e } ∧
        LeavesStores { s with tables := t.tables } t ∧ t.guard = { s.guard with trips := t.guard.trips } ∧
        (∀ y : Bus, t.tripped y =
          (s.tripped y || (y == x && e.enabled && asserted { s with tables := t.tables } x))) ∧
        (Quiesced s → t.tripped x = s.tripped x → (∀ y : Bus, y ≠ x → t.ctx y = s.ctx y) ∧
          t.ctx x = { s.ctx x with source :=
            if e.kind = .source then
              if (s.busEntry x).kind = .source ∧ (s.busEntry x).lane = e.lane ∧ (s.busEntry x).channel = e.channel
              then (s.ctx x).source else .unsure
            else .quiet })) ∧
    (e ≠ s.busEntry x → ¬ BusFree s x →
      OnlyReplies (.tableWriteBus tag ([2#8, r] ++ le16 x.val ++ e.bytes) 0) s tag 0x02#8 .inUse (le16 0)) ∧
    (e = s.busEntry x ∨ BusFree s x → BusClashes s x e →
      OnlyReplies (.tableWriteBus tag ([2#8, r] ++ le16 x.val ++ e.bytes) 0) s tag 0x02#8 .badValue (le16 0)) ∧
    (∀ g : List Byte, g.length = 6 → 2 ≤ byteAt g 0 ∨ 3 ≤ byteAt g 1 ∨ 8 ≤ byteAt g 2 ∨ 4 ≤ byteAt g 3 ∨
        32 ≤ byteAt g 4 ∨ 8 ≤ byteAt g 5 →
      OnlyReplies (.tableWriteBus tag ([2#8, r] ++ le16 x.val ++ g) 0) s tag 0x02#8 .badValue (le16 0)) ∧
    ∀ i : Nat, 8 ≤ i → i < 65536 →
      OnlyReplies (.tableWriteBus tag ([2#8, r] ++ le16 i ++ e.bytes) 0) s tag 0x02#8 .badIndex (le16 0)

/-- TABLE_WRITE_CARD, one entry (R37): the four checks, and what a change of lane does to the card's blocks and supplies
and sends on the old lane (R165). -/
def Obligations.CardEntriesAreWritten : Prop :=
  ∀ (s : State) (tag : Half) (r : Byte) (c : CardId) (e : CardEntry), HasRoom s → e.wearLimit < 4294967296 →
    (e = s.cardEntry c ∨ (e.wearLimit ≤ 16777215 ∧ (∀ d, d ≠ c → e.lane ≠ none → (s.cardEntry d).lane ≠ e.lane) ∧
        (e.lane = (s.cardEntry c).lane ∨ s.cardInUse c = false)) → e.wearLimit ≤ 16777215 →
      ∃ t, exec (.tableWriteCard tag ([3#8, r] ++ le16 c.val ++ e.bytes) 0) s = .next t ∧
        Answered s t tag 0x02#8 .ok (le16 1) ∧ t.tables = { s.tables with cards := s.tables.cards.set c e } ∧
        SameBlocks { s with tables := t.tables, guard := t.guard } t ∧
        t.guard = { s.guard with presence := t.guard.presence, supply := t.guard.supply } ∧
        (e.lane = (s.cardEntry c).lane → t.guard = s.guard ∧ t.out = []) ∧
        (e.lane ≠ (s.cardEntry c).lane →
          (∀ b : Block, t.blockPresence b = if cardOfBlock b = c then .unknown else s.blockPresence b) ∧
          (∀ (b : Block) (u : Site), cardOfBlock b = c → s.siteOnBlock b = some u → t.supplyOn u = false) ∧
          (∀ u : Site, (∀ b, cardOfBlock b = c → s.siteOnBlock b ≠ some u) → t.supplyOn u = s.supplyOn u) ∧
          ∀ l, (s.cardEntry c).lane = some l → s.laneHasCard l = true →
            (∃ b u, cardOfBlock b = c ∧ s.siteOnBlock b = some u ∧ s.supplyOn u = true) →
            t.out = [(l, .supply 0#8)])) ∧
    (16777215 < e.wearLimit →
      OnlyReplies (.tableWriteCard tag ([3#8, r] ++ le16 c.val ++ e.bytes) 0) s tag 0x02#8 .badValue (le16 0)) ∧
    (e.wearLimit ≤ 16777215 → e ≠ s.cardEntry c → e.lane ≠ none → (∃ d, d ≠ c ∧ (s.cardEntry d).lane = e.lane) →
      OnlyReplies (.tableWriteCard tag ([3#8, r] ++ le16 c.val ++ e.bytes) 0) s tag 0x02#8 .badValue (le16 0)) ∧
    (e.wearLimit ≤ 16777215 → e.lane ≠ (s.cardEntry c).lane →
      (∀ d, d ≠ c → e.lane ≠ none → (s.cardEntry d).lane ≠ e.lane) → s.cardInUse c = true →
      OnlyReplies (.tableWriteCard tag ([3#8, r] ++ le16 c.val ++ e.bytes) 0) s tag 0x02#8 .inUse (le16 0)) ∧
    (∀ g : List Byte, g.length = 5 → 8 ≤ byteAt g 0 → byteAt g 0 ≠ 255 →
      OnlyReplies (.tableWriteCard tag ([3#8, r] ++ le16 c.val ++ g) 0) s tag 0x02#8 .badValue (le16 0)) ∧
    ∀ i : Nat, 4 ≤ i → i < 65536 →
      OnlyReplies (.tableWriteCard tag ([3#8, r] ++ le16 i ++ e.bytes) 0) s tag 0x02#8 .badIndex (le16 0)

/-- TABLE_WRITE_SCALE, _LIMIT, _DISPOSITION, _MARK and _WEAR, one entry: the entry takes its new contents and nothing
else changes; values beyond their range are refused BAD_VALUE and indices beyond the table BAD_INDEX (R110, R124, R130,
R105, R38). -/
def Obligations.PlainEntriesAreWritten : Prop :=
  ∀ (s : State) (tag : Half) (r : Byte), HasRoom s →
    (∀ (n : Fin 32) (e : ScaleEntry), ∃ t,
      exec (.tableWriteScale tag ([4#8, r] ++ le16 n.val ++ e.bytes) 0) s = .next t ∧
      Answered s t tag 0x02#8 .ok (le16 1) ∧
      SameBlocks { s with tables := { s.tables with scales := s.tables.scales.set n e } } t) ∧
    (∀ (n : Fin 256) (e : LimitEntry), e.guardBand < 4294967296 →
      (e.InRange → ∃ t, exec (.tableWriteLimit tag ([5#8, r] ++ le16 n.val ++ e.bytes) 0) s = .next t ∧
        Answered s t tag 0x02#8 .ok (le16 1) ∧
        SameBlocks { s with tables := { s.tables with limits := s.tables.limits.set n e } } t) ∧
      (¬ e.InRange →
        OnlyReplies (.tableWriteLimit tag ([5#8, r] ++ le16 n.val ++ e.bytes) 0) s tag 0x02#8 .badValue (le16 0))) ∧
    (∀ (n : Fin 80) (e : DispEntry), ∃ t,
      exec (.tableWriteDisposition tag ([6#8, r] ++ le16 n.val ++ e.bytes) 0) s = .next t ∧
      Answered s t tag 0x02#8 .ok (le16 1) ∧
      SameBlocks { s with tables := { s.tables with disps := s.tables.disps.set n e } } t) ∧
    (∀ e : MarkEntry, ∃ t, exec (.tableWriteMark tag ([8#8, r] ++ le16 0 ++ e.bytes) 0) s = .next t ∧
      Answered s t tag 0x02#8 .ok (le16 1) ∧ SameBlocks { s with tables := { s.tables with mark := e } } t) ∧
    (∀ (x : Bus) (p : Pt) (w : Nat), w < 4294967296 →
      (w ≤ 16777215 → ∃ t, exec (.tableWriteWear tag ([7#8, r] ++ le16 (256 * x.val + p.val) ++ le32 w) 0) s = .next t ∧
        Answered s t tag 0x02#8 .ok (le16 1) ∧ t.xp x p = { s.xp x p with wear := w } ∧
        (∀ (y : Bus) (q : Pt), ¬ (y = x ∧ q = p) → t.xp y q = s.xp y q) ∧
        SameBlocks { s with matrix := { s.matrix with xps := t.matrix.xps } } t) ∧
      (16777215 < w → OnlyReplies (.tableWriteWear tag ([7#8, r] ++ le16 (256 * x.val + p.val) ++ le32 w) 0) s
        tag 0x02#8 .badValue (le16 0))) ∧
    (∀ (i : Nat) (g : List Byte),
      (i < 32 → g.length = 8 → 25 ≤ byteAt g 2 ∨ 16 ≤ byteAt g 3 →
        OnlyReplies (.tableWriteScale tag ([4#8, r] ++ le16 i ++ g) 0) s tag 0x02#8 .badValue (le16 0)) ∧
      (i < 256 → g.length = 14 → 4 ≤ byteAt g 0 ∨ 16 ≤ byteAt g 1 →
        OnlyReplies (.tableWriteLimit tag ([5#8, r] ++ le16 i ++ g) 0) s tag 0x02#8 .badValue (le16 0)) ∧
      (i < 80 → g.length = 3 → 64 ≤ byteAt g 0 ∨ 3 ≤ byteAt g 1 ∨ 2 ≤ byteAt g 2 →
        OnlyReplies (.tableWriteDisposition tag ([6#8, r] ++ le16 i ++ g) 0) s tag 0x02#8 .badValue (le16 0)) ∧
      (i = 0 → g.length = 3 → 2 ≤ byteAt g 0 ∨ 8 ≤ byteAt g 1 ∨ 32 ≤ byteAt g 2 →
        OnlyReplies (.tableWriteMark tag ([8#8, r] ++ le16 i ++ g) 0) s tag 0x02#8 .badValue (le16 0))) ∧
    ∀ i : Nat, i < 65536 →
      (∀ e : ScaleEntry, 32 ≤ i → OnlyReplies (.tableWriteScale tag ([4#8, r] ++ le16 i ++ e.bytes) 0) s tag 0x02#8
        .badIndex (le16 0)) ∧
      (∀ e : LimitEntry, 256 ≤ i → OnlyReplies (.tableWriteLimit tag ([5#8, r] ++ le16 i ++ e.bytes) 0) s tag 0x02#8
        .badIndex (le16 0)) ∧
      (∀ e : DispEntry, 80 ≤ i → OnlyReplies (.tableWriteDisposition tag ([6#8, r] ++ le16 i ++ e.bytes) 0) s tag
        0x02#8 .badIndex (le16 0)) ∧
      (∀ e : MarkEntry, 1 ≤ i → OnlyReplies (.tableWriteMark tag ([8#8, r] ++ le16 i ++ e.bytes) 0) s tag 0x02#8
        .badIndex (le16 0)) ∧
      ∀ w : Nat, 2048 ≤ i → OnlyReplies (.tableWriteWear tag ([7#8, r] ++ le16 i ++ le32 w) 0) s tag 0x02#8
        .badIndex (le16 0)

/-- A write of two SCALE entries takes them in list order, one event each: its response joins the list with the first and
keeps that place, whatever joins behind it, until the second completes it with 2 applied (R187, R188). With a second
entry that R110 refuses (here a shift above 24) the write stops there, BAD_VALUE with 1 applied, and the first entry
stays (R190). That entries follow by their position is the model's form (log 9). -/
def Obligations.WritesStopAtTheFirstRefusedEntry : Prop :=
  ∀ (s : State) (tag : Half) (r : Byte) (n : Fin 31) (e e' : ScaleEntry) (g p q : List Byte), HasRoom s →
    g.length = 8 → 25 ≤ byteAt g 2 → p = [4#8, r] ++ le16 n.val ++ e.bytes ++ e'.bytes →
    q = [4#8, r] ++ le16 n.val ++ e.bytes ++ g →
    (∀ old ∈ s.trunk.responses, old.heldBy ≠ some (.write p 1) ∧ old.heldBy ≠ some (.write q 1)) →
    (∃ t, exec (.tableWriteScale tag p 0) s = .next t ∧
      t.trunk.responses = s.trunk.responses ++ [⟨tag, 0x02#8, .ok, [], some (.write p 1)⟩] ∧
      SameBlocks { s with tables := { s.tables with scales := s.tables.scales.set n.val e (by omega) } } t ∧
      ∀ more : List Resp, ∃ t',
        exec (.tableWriteScale tag p 1) { t with trunk := { t.trunk with responses := t.trunk.responses ++ more } } =
          .next t' ∧
        t'.trunk.responses = s.trunk.responses ++ ⟨tag, 0x02#8, .ok, le16 2, none⟩ :: more ∧
        SameBlocks { s with tables :=
          { s.tables with scales := (s.tables.scales.set n.val e (by omega)).set (n.val + 1) e' (by omega) } } t') ∧
    (∃ t, exec (.tableWriteScale tag q 0) s = .next t ∧
      t.trunk.responses = s.trunk.responses ++ [⟨tag, 0x02#8, .ok, [], some (.write q 1)⟩] ∧
      ∀ more : List Resp, ∃ t',
        exec (.tableWriteScale tag q 1) { t with trunk := { t.trunk with responses := t.trunk.responses ++ more } } =
          .next t' ∧
        t'.trunk.responses = s.trunk.responses ++ ⟨tag, 0x02#8, .badValue, le16 1, none⟩ :: more ∧
        SameBlocks { s with tables := { s.tables with scales := s.tables.scales.set n.val e (by omega) } } t')

/-- TABLE_READ (R191): a table of `size` entries gives the entries from the first index on, with BAD_INDEX where the
count runs past the last; an unknown table, a count of 0 and one above the largest read are refused BAD_VALUE. A read
changes nothing. The reserved byte of the reply header is 0 (R197). -/
def Obligations.TableReadsReturnEntries : Prop :=
  ∀ (s : State) (tag : Half) (code r : Byte) (first count : Nat), HasRoom s → first < 65536 → count < 65536 →
    (tableSize code.toNat = none →
      OnlyReplies (.tableRead tag ([code, r] ++ le16 first ++ le16 count)) s tag 0x03#8 .badValue []) ∧
    ∀ size most, tableSize code.toNat = some (size, most) →
      (count = 0 ∨ most < count →
        OnlyReplies (.tableRead tag ([code, r] ++ le16 first ++ le16 count)) s tag 0x03#8 .badValue []) ∧
      (1 ≤ count → count ≤ most → first + count ≤ size →
        OnlyReplies (.tableRead tag ([code, r] ++ le16 first ++ le16 count)) s tag 0x03#8 .ok
          ([code, 0#8] ++ le16 first ++ le16 count ++
            (List.range count).flatMap (fun i => entryBytes s code.toNat (first + i)))) ∧
      (1 ≤ count → count ≤ most → size < first + count →
        OnlyReplies (.tableRead tag ([code, r] ++ le16 first ++ le16 count)) s tag 0x03#8 .badIndex
          ([code, 0#8] ++ le16 first ++ le16 (size - first) ++
            (List.range (size - first)).flatMap (fun i => entryBytes s code.toNat (first + i))))

/-! ### Bus and rack control -/

/-- BUS_ABORT (R86): the step queue is empty, the response counts what it held, and a working context has no site in
flight. A context SUSPENDED for a redo gives its site INVALID with cause ABORTED, then the END of a sweep in progress
(COMPLETE where this site was its last, else ABORTED), and is IDLE. In HALTED the END of a sweep in progress is placed
and offered at once (R99). That an INVALID of a redo is judged with its captured entries is log 15. -/
def Obligations.BusAbortEmptiesTheBus : Prop :=
  ∀ (s : State) (tag : Half), HasRoom s →
    (∀ x : Bus, ∃ t, exec (.busAbort tag [byte x.val]) s = .next t ∧
      Answered s t tag 0x04#8 .ok [byte (s.ctx x).queue.length] ∧ (t.ctx x).queue = [] ∧
      ((s.ctx x).state.working = true → (t.ctx x).inFlight = none) ∧ LeavesStores s t ∧ t.guard = s.guard ∧
      (∀ y : Bus, y ≠ x → (t.ctx y).queue <:+ (s.ctx y).queue) ∧
      (∀ u stag sel n lim k d timeout hold, Quiesced s → (s.ctx x).slot = none → (s.ctx x).endPending = none →
        (s.ctx x).step = some ⟨stag, .measure sel n lim k d timeout hold⟩ →
        ((s.ctx x).state = .suspended → (s.ctx x).resume = .redo → (s.ctx x).inFlight = some u →
          s.queue.records.length < 63 →
          (t.ctx x).state = .idle ∧ (t.ctx x).step = none ∧ (t.ctx x).inFlight = none ∧ (t.ctx x).slot = none ∧
          ∃ row worn, (∀ cap, (s.ctx x).captured = some cap → row = cap.limit.row ∧ worn = cap.worn) ∧
            ((s.ctx x).captured = none → row = s.tables.limits[lim].row ∧ worn = false) ∧
            t.queue.records = s.queue.records ++ invalidRecord s x stag row worn .aborted ::
              (if (s.ctx x).sweep.status = .running then
                [.sweepEnd { s := false, panel := s.panel.number, bus := x, folded := 0
                             info := ⟨stag, (s.ctx x).sweep.judged.length + 1,
                               if (s.ctx x).sweep.judged.length + 1 = (s.ctx x).sweep.count then .complete
                               else .aborted⟩ }]
               else [])) ∧
        ((s.ctx x).state = .halted → (s.ctx x).sweep.status = .running → s.queue.records.length < 64 →
          (t.ctx x).sweep.status = .aborted ∧ (t.ctx x).endPending = none ∧
          ∃ rs, t.queue.records = s.queue.records ++ .sweepEnd
            { s := s.queue.saturated, panel := s.panel.number, bus := x, folded := s.queue.foldCount
              info := ⟨stag, (s.ctx x).sweep.judged.length, .aborted⟩ } :: rs))) ∧
    ∀ b : Byte, 8 ≤ b.toNat → OnlyReplies (.busAbort tag [b]) s tag 0x04#8 .badIndex []

/-- BUS_RESUME (R87): refused BAD_INDEX and STATE. With the rack not READY a HALTED context is SUSPENDED for the next
site, or IDLE with nothing to resume, as it is in READY with an empty queue. In READY it goes to the next site of its
sweep by sweep advance (R96, R97), or with nothing to resume takes the step at the head of its queue (R67). -/
def Obligations.BusResumeLeavesHalted : Prop :=
  ∀ (s : State) (tag : Half), HasRoom s →
    (∀ x : Bus, (s.ctx x).state = .halted → ∃ t, exec (.busResume tag [byte x.val]) s = .next t ∧
      Answered s t tag 0x05#8 .ok [] ∧ LeavesStores s t ∧ t.guard = s.guard ∧
      (Quiesced s → s.isReady = false → (s.ctx x).resume = .next →
        t.ctx x = { s.ctx x with state := .suspended }) ∧
      (Quiesced s → s.isReady = false ∨ (s.ctx x).queue = [] → (s.ctx x).resume ≠ .next →
        (t.ctx x).state = .idle ∧ (t.ctx x).step = none ∧ (t.ctx x).site = none ∧ (t.ctx x).net = none ∧
        (t.ctx x).target = none ∧ (t.ctx x).resume = .none ∧ (t.ctx x).queue = (s.ctx x).queue) ∧
      (Quiesced s → s.isReady = true → s.tripped x = false → (s.ctx x).Clear →
        (∀ tag sel n lim k d timeout hold, (s.ctx x).resume = .next →
          (s.ctx x).step = some ⟨tag, .measure sel n lim k d timeout hold⟩ → NetFits s x n →
          NextSite s t x (s.ctx x) n) ∧
        ∀ st rest, (s.ctx x).resume ≠ .next → (s.ctx x).queue = st :: rest → st.work.InRange s x →
          s.panel.state = .opn ∨ s.panel.state = .closing →
          StepBegins s t x ((s.ctx x).idled.took st rest) st)) ∧
    (∀ x : Bus, (s.ctx x).state ≠ .halted → OnlyReplies (.busResume tag [byte x.val]) s tag 0x05#8 .state []) ∧
    ∀ b : Byte, 8 ≤ b.toNat → OnlyReplies (.busResume tag [b]) s tag 0x05#8 .badIndex []

/-- CLEAR_TRIP (R60): the checks in order, the flag of that bus alone, and where the context goes (R89): SUSPENDED or,
in READY, the next site of its sweep (R96, R97); HALTED, with STEP pending (R131, R194; that a return to HALTED is an entry
into it is the model's reading, log 20); or IDLE, where in READY it takes the step at the head of its queue (R67). -/
def Obligations.ClearTripClearsTheFlag : Prop :=
  ∀ (s : State) (tag : Half), HasRoom s →
    (∀ x : Bus, s.tripped x = true → asserted s x = false →
      ∃ t, exec (.clearTrip tag [byte x.val]) s = .next t ∧ Answered s t tag 0x06#8 .ok [] ∧ LeavesStores s t ∧
        t.guard = { s.guard with trips := s.guard.trips.set x false } ∧
        (Quiesced s → (s.ctx x).state = .tripped → (s.ctx x).slot = none → (s.ctx x).endPending = none →
          (s.isReady = false → (s.ctx x).resume = .next → (t.ctx x).state = .suspended) ∧
          ((s.ctx x).resume = .halted → (t.ctx x).state = .halted ∧ t.trunk.attn.step = true) ∧
          ((s.ctx x).resume = .none → s.isReady = false ∨ (s.ctx x).queue = [] → (t.ctx x).state = .idle) ∧
          (s.isReady = true → (s.ctx x).request = none →
            (∀ tag sel n lim k d timeout hold, (s.ctx x).resume = .next →
              (s.ctx x).step = some ⟨tag, .measure sel n lim k d timeout hold⟩ → NetFits s x n →
              NextSite s t x (s.ctx x) n) ∧
            ∀ st rest, (s.ctx x).resume = .none → (s.ctx x).queue = st :: rest → st.work.InRange s x →
              s.panel.state = .opn ∨ s.panel.state = .closing →
              StepBegins s t x ((s.ctx x).idled.took st rest) st))) ∧
    (∀ x : Bus, s.tripped x = false → OnlyReplies (.clearTrip tag [byte x.val]) s tag 0x06#8 .state []) ∧
    (∀ x : Bus, s.tripped x = true → asserted s x = true →
      OnlyReplies (.clearTrip tag [byte x.val]) s tag 0x06#8 .asserted []) ∧
    ∀ b : Byte, 8 ≤ b.toNat → OnlyReplies (.clearTrip tag [b]) s tag 0x06#8 .badIndex []

/-- SUPPLY (R167): exactly the sites of the mask take the setting, clamped to the enabled and PRESENT ones; the response
gives the applied mask and the sites left off; each card with a changed site gets its whole setting (R166). -/
def Obligations.SupplyIsClamped : Prop :=
  ∀ (s : State) (tag : Half) (mask : BitVec 32), HasRoom s →
    (∀ on : Bool, ∃ t a l, exec (.supply tag (le32 mask.toNat ++ [yesNo on])) s = .next t ∧
      Answered s t tag 0x07#8 .ok (le32 a ++ le32 l) ∧ a < 4294967296 ∧ l < 4294967296 ∧
      (∀ u : Site, t.supplyOn u = if mask.toNat.testBit u.val then
          on && (s.siteEntry u).enabled && s.sitePresence u == .present else s.supplyOn u) ∧
      (∀ u : Site, a.testBit u.val = (mask.toNat.testBit u.val && (!on || t.supplyOn u)) ∧
        l.testBit u.val = (mask.toNat.testBit u.val && on && !t.supplyOn u)) ∧
      SameBlocks { s with guard := { s.guard with supply := t.guard.supply } } t ∧ t.trunk.attn = s.trunk.attn ∧
      ((∀ u : Site, t.supplyOn u = s.supplyOn u) → t.out = []) ∧
      ∀ (c : CardId) (ln : LaneId), (s.cardEntry c).lane = some ln → s.laneHasCard ln = true →
        (∃ u : Site, cardOfBlock (s.siteEntry u).block = c ∧ t.supplyOn u ≠ s.supplyOn u) →
        (ln, .supply (supplyMask t c)) ∈ t.out) ∧
    ∀ v : Byte, 2 ≤ v.toNat → OnlyReplies (.supply tag (le32 mask.toNat ++ [v])) s tag 0x07#8 .badValue []

/-- RESUME, SERVICE_ENTER and SERVICE_EXIT: their checks in order, and the rack state they leave (R159, R160, R161). At
RESUME, where no other bus has anything to do, a SUSPENDED bus starts its site again or goes to the next site of its
sweep, and an IDLE one takes the step at the head of its queue (R67, R68, R88, R96, R102). -/
def Obligations.RackCommandsMoveTheRack : Prop :=
  ∀ (s : State) (tag : Half), HasRoom s →
    (s.isSafe = true → s.guard.interlock = .clear → ∃ t, exec (.resume tag []) s = .next t ∧
      Answered s t tag 0x08#8 .ok [] ∧ t.guard = { s.guard with rack := .ready } ∧ LeavesStores s t ∧
      ∀ x : Bus, Quiesced s → OthersRest s x → s.tripped x = false → (s.ctx x).Clear →
        (∀ stag sel n lim k d timeout hold, (s.ctx x).state = .suspended →
          (s.ctx x).step = some ⟨stag, .measure sel n lim k d timeout hold⟩ → NetFits s x n →
          (∀ u, (s.ctx x).resume = .redo → (s.ctx x).inFlight = some u →
            ((s.siteEntry u).enabled = true → SiteBegins s t x (s.ctx x) u n) ∧
            ((s.siteEntry u).enabled = false → (s.ctx x).captured = none → s.queue.records.length < 64 →
              ∃ rs, t.queue.records = s.queue.records ++
                invalidRecord s x stag s.tables.limits[lim].row false .notAvailable :: rs)) ∧
          ((s.ctx x).resume = .next → NextSite s t x (s.ctx x) n)) ∧
        (∀ stag u n, (s.ctx x).state = .suspended → (s.ctx x).step = some ⟨stag, .connect u n⟩ → NetFits s x n →
          (s.ctx x).resume = .redo → (s.ctx x).inFlight = some u → (s.siteEntry u).enabled = true →
          SiteBegins s t x (s.ctx x) u n) ∧
        ∀ st rest, (s.ctx x).state = .idle → (s.ctx x).queue = st :: rest → st.work.InRange s x →
          s.panel.state = .opn ∨ s.panel.state = .closing → StepBegins s t x ((s.ctx x).took st rest) st) ∧
    (s.isSafe = false ∨ s.guard.interlock = .opn → OnlyReplies (.resume tag []) s tag 0x08#8 .state []) ∧
    (s.isSafe = true → s.guard.interlock = .waiting → OnlyReplies (.resume tag []) s tag 0x08#8 .busy []) ∧
    (s.guard.rack = .ready →
      (∀ x : Bus, (s.ctx x).state = .idle ∧ (s.ctx x).queue = [] ∧ (s.ctx x).slot = none ∧
        (s.ctx x).endPending = none ∧ ∀ p : Pt, s.claimed x p = false) →
      ∃ t, exec (.serviceEnter tag []) s = .next t ∧ Answered s t tag 0x09#8 .ok [] ∧
        SameBlocks { s with guard := { s.guard with rack := .service } } t ∧ t.out = []) ∧
    (s.guard.rack = .ready →
      (∃ x : Bus, (s.ctx x).state ≠ .idle ∨ (s.ctx x).queue ≠ [] ∨ (s.ctx x).slot ≠ none ∨
        (s.ctx x).endPending ≠ none ∨ ∃ p : Pt, s.claimed x p = true) →
      OnlyReplies (.serviceEnter tag []) s tag 0x09#8 .busy []) ∧
    (s.guard.rack ≠ .ready → OnlyReplies (.serviceEnter tag []) s tag 0x09#8 .state []) ∧
    (s.guard.rack = .service → (∀ l : LaneId, (s.lane l).state ≠ .test) →
      ∃ t, exec (.serviceExit tag []) s = .next t ∧ Answered s t tag 0x0A#8 .ok [] ∧
        t.guard = { s.guard with rack := .ready } ∧ LeavesStores s t) ∧
    (s.guard.rack = .service → (∃ l : LaneId, (s.lane l).state = .test) →
      OnlyReplies (.serviceExit tag []) s tag 0x0A#8 .busy []) ∧
    (s.guard.rack ≠ .service → OnlyReplies (.serviceExit tag []) s tag 0x0A#8 .state [])

/-- RACK_RESET (R41, R47, R61, R66, R140, R153, R157, R196): SAFE with cause RESET; the emergency open of every bus is
made (R35), no crosspoint is OPEN-RESERVED and no break or make order is left in a list, while an order already sent
runs on and answers nobody; a take in progress on a usable channel is CANCELled; every context has its values of power
reset, but that a tripped one is TRIPPED, and but for a SOURCE bus's record: QUIET, with a QUIET frame, where its channel
is usable, and UNSURE where it is not, by R157, which is followed against the QUIET of R47 (the model's choice, log 5);
the trip flags are those of the sources still asserted; the result queue is empty, with no fold, not compact, no hold and
no waiting offer; a RESULT frame being sent is finished and has no record left; a CLOSING panel is CLOSED; the tables,
lanes, wear counts, presence, supply and verdict records stand; exactly the classes that R196 names are pending. -/
def Obligations.RackResetLeavesARestingRack : Prop :=
  ∀ (s : State) (tag : Half), HasRoom s → ∃ t, exec (.rackReset tag []) s = .next t ∧
    Answered s t tag 0x0B#8 .ok [] ∧ t.guard = { s.guard with rack := .safe .reset, trips := t.guard.trips } ∧
    (∀ x : Bus, t.tripped x = ((s.busEntry x).enabled && asserted s x)) ∧
    (∀ x : Bus, t.ctx x = { State.reset.ctx x with
      state := if t.tripped x then .tripped else .idle
      source := (t.ctx x).source }) ∧
    (∀ x : Bus, (State.reset.ctx x).queue = [] ∧ (State.reset.ctx x).step = none ∧ (State.reset.ctx x).slot = none ∧
      (State.reset.ctx x).endPending = none ∧ (State.reset.ctx x).request = none ∧
      (State.reset.ctx x).resume = .none ∧ (State.reset.ctx x).takeTag = 0#8 ∧
      (State.reset.ctx x).sweep = Sweep.initial ∧ (State.reset.ctx x).inFlight = none ∧
      (State.reset.ctx x).acc = [] ∧ (State.reset.ctx x).captured = none ∧ (State.reset.ctx x).target = none ∧
      (State.reset.ctx x).settleTimer = none ∧ (State.reset.ctx x).measureTimer = none ∧
      (State.reset.ctx x).source = .quiet) ∧
    (∀ x : Bus, ((s.busEntry x).kind ≠ .source → (t.ctx x).source = .quiet) ∧
      ((s.busEntry x).kind = .source → s.channelUsable x = true →
        (t.ctx x).source = .quiet ∧ ((s.busEntry x).lane, .quiet (s.busEntry x).channel) ∈ t.out) ∧
      ((s.busEntry x).kind = .source → s.channelUsable x = false →
        (t.ctx x).source = .unsure)) ∧
    (∀ x : Bus, (s.ctx x).state = .measuring → s.channelUsable x = true →
      ((s.busEntry x).lane, .cancel (s.busEntry x).channel (s.ctx x).takeTag) ∈ t.out) ∧
    (OpensFirst s → ∀ x : Bus, EmergencyOpened s t x) ∧
    (∀ (x : Bus) (p : Pt), (t.xp x p).state ≠ .reserved ∧ (t.xp x p).wear = (s.xp x p).wear) ∧
    (∀ c : CardId, (t.card c).ordinary = [] ∧ (t.card c).rejectReason = (s.card c).rejectReason ∧
      ∀ q, (s.card c).pending = some q →
        (t.card c).pending = some { q with order := { q.order with answers := false } } ∧
        (t.card c).nextTag = (s.card c).nextTag) ∧
    t.queue = ⟨[], 0, false, false⟩ ∧ t.queue = State.reset.queue ∧ t.trunk.flowHold = false ∧
    t.panel.foldPending = false ∧
    (∀ seq rec here, s.trunk.tx = some (.result seq rec here) → t.trunk.tx = some (.result seq rec false)) ∧
    t.tables = s.tables ∧ t.lanes = s.lanes ∧
    t.panel.state = (if s.panel.state = .closing then .closed else s.panel.state) ∧
    t.panel.number = s.panel.number ∧ t.panel.verdicts = s.panel.verdicts ∧
    t.trunk.attn = ⟨allBuses.any t.tripped, false, false, anyDelta s, s.panel.state == .closing⟩

/-- PANEL_BEGIN and PANEL_END: accepted and refused by the panel state (R136, R137), the new panel's records, and the
close of a panel whose completion conditions hold or do not hold (R138). Of a context PANEL_BEGIN changes the sweep record
alone, by R66 and R136, which are followed for the source record against the QUIET of R47 (the model's choice, log 5). -/
def Obligations.PanelsOpenAndClose : Prop :=
  ∀ (s : State) (tag : Half), HasRoom s →
    (s.panel.state = .none ∨ s.panel.state = .closed → ∃ t, exec (.panelBegin tag []) s = .next t ∧
      Answered s t tag 0x0C#8 .ok [s.panel.number + 1] ∧
      t.panel = { s.panel with
        state := .opn, number := s.panel.number + 1, verdicts := Vector.replicate 32 ⟨.untested, 0, 0, 0, false⟩ } ∧
      (∀ x : Bus, t.ctx x = { s.ctx x with sweep := Sweep.initial }) ∧
      SameBlocks { s with panel := t.panel, ctxs := t.ctxs } t ∧ t.out = []) ∧
    (s.panel.state = .opn ∨ s.panel.state = .closing → OnlyReplies (.panelBegin tag []) s tag 0x0C#8 .panel []) ∧
    (s.panel.state = .opn → ∃ t, exec (.panelEnd tag []) s = .next t ∧ Answered s t tag 0x0D#8 .ok [] ∧
      LeavesStores s t ∧ t.guard = s.guard ∧ (t.panel.state = .closing ∨ t.panel.state = .closed) ∧
      (Quiesced s → (∀ x : Bus, (s.ctx x).finished = true) → s.queue.foldCount = 0 → s.panel.foldPending = false →
        t.panel.state = .closed ∧ t.trunk.attn.progress = true ∧ t.queue = s.queue) ∧
      (Quiesced s → (∀ x : Bus, (s.ctx x).finished = true) → s.queue.foldCount ≠ 0 → s.panel.foldPending = false →
        s.queue.records.length < 64 → t.panel.state = .closed ∧ t.queue.foldCount = 0 ∧
          t.queue.records = s.queue.records ++ [.fold s.queue.foldCount s.queue.saturated]) ∧
      (Quiesced s → (∀ x : Bus, (s.ctx x).finished = true) → s.queue.foldCount ≠ 0 → s.panel.foldPending = false →
        64 ≤ s.queue.records.length → t.panel.state = .closing ∧ t.panel.foldPending = true) ∧
      (Quiesced s → (∃ x : Bus, (s.ctx x).finished = false) → t.panel.state = .closing)) ∧
    (s.panel.state ≠ .opn → OnlyReplies (.panelEnd tag []) s tag 0x0D#8 .panel [])

/-- FLOW_HOLD and FLOW_RELEASE set and clear the flag and report the queue, in any state (R152). The codes of the hold flag,
compact mode and the saturation mark, 1 for set or on, are the model's choice (log 22). -/
def Obligations.FlowCommandsReport : Prop :=
  ∀ (s : State) (tag : Half), HasRoom s →
    (∃ t, exec (.flowHold tag []) s = .next t ∧
      Answered s t tag 0x0E#8 .ok (1#8 :: byte s.queue.records.length :: yesNo s.queue.compact ::
        (le32 s.queue.foldCount ++ [yesNo s.queue.saturated, byte (waitingOffers s), yesNo s.panel.foldPending])) ∧
      t.trunk.flowHold = true ∧ t.trunk.attn = s.trunk.attn ∧ SameBlocks s t) ∧
    ∃ t, exec (.flowRelease tag []) s = .next t ∧
      Answered s t tag 0x0F#8 .ok (0#8 :: byte s.queue.records.length :: yesNo s.queue.compact ::
        (le32 s.queue.foldCount ++ [yesNo s.queue.saturated, byte (waitingOffers s), yesNo s.panel.foldPending])) ∧
      t.trunk.flowHold = false ∧ t.trunk.attn = s.trunk.attn ∧ SameBlocks s t

/-- FRAME_SENT for an attention frame or a response: the response leaves the list, and the free transmitter starts an
ATTENTION frame that is due, else a ready response at the head, else the head record unless the flow is held, else
nothing (R189, R195, R151). The model's: a response leaves the list when its frame has been sent (log 10), a frame
carries its number before the increment (log 11), and a transmitter that is free already has no frame to end (log 1). -/
def Obligations.FrameSentStartsTheNextFrame : Prop :=
  ∀ s : State,
    (s.trunk.tx = none → DoesNothing .frameSent s) ∧
    ∀ f, s.trunk.tx = some f → (∀ seq r b, f ≠ .result seq r b) → Quiesced s → s.panel.state ≠ .closing →
      ∃ t, exec .frameSent s = .next t ∧ SameBlocks s t ∧
        t.trunk.responses = (match f with | .response _ => s.trunk.responses.tail | _ => s.trunk.responses) ∧
        (s.trunk.attn.highest ≠ s.trunk.lastReported →
          t.trunk.tx = some (.attention s.trunk.attnSeq s.trunk.attn.highest s.trunk.attn) ∧
          t.trunk.attnSeq = s.trunk.attnSeq + 1 ∧ t.trunk.lastReported = s.trunk.attn.highest) ∧
        (s.trunk.attn.highest = s.trunk.lastReported →
          (∀ r rest, t.trunk.responses = r :: rest → r.heldBy = none → t.trunk.tx = some (.response r)) ∧
          ((t.trunk.responses = [] ∨ ∃ r rest, t.trunk.responses = r :: rest ∧ r.heldBy ≠ none) →
            (∀ q rest, s.queue.records = q :: rest → s.trunk.flowHold = false →
              t.trunk.tx = some (.result s.trunk.resultSeq q true) ∧ t.trunk.resultSeq = s.trunk.resultSeq + 1) ∧
            ((s.queue.records = [] ∨ s.trunk.flowHold = true) → t.trunk.tx = none)))

/-- FRAME_SENT for a RESULT frame: its record leaves the head of the queue (R151); the place that a full queue gets goes
to the lowest waiting bus (R146), with none waiting to a closing FOLD that is pending, which closes the panel (R150),
and with neither stays free; a removal to 16 in compact mode ends the mode and appends the FOLD of a count above 0
(R148). A frame whose record RACK RESET took removes nothing, whatever the queue holds by then (R153). -/
def Obligations.SentRecordsLeaveTheQueue : Prop :=
  ∀ (s : State) (seq : Half) (r : Rec), Quiesced s →
    (∀ q rest, s.queue.records = q :: rest → s.trunk.tx = some (.result seq r true) →
      (rest.length ≠ 63 → ¬ (rest.length = 16 ∧ s.queue.compact = true) → s.panel.state ≠ .closing →
        ∃ t, exec .frameSent s = .next t ∧ t.queue = { s.queue with records := rest } ∧ t.ctxs = s.ctxs) ∧
      (rest.length = 63 → (∀ y, (s.ctx y).slot = none) → s.panel.foldPending = false → s.panel.state ≠ .closing →
        ∃ t, exec .frameSent s = .next t ∧ t.queue = { s.queue with records := rest } ∧ t.ctxs = s.ctxs) ∧
      (∀ (x : Bus) (sl : Slot), rest.length = 63 → (s.ctx x).slot = some sl → (∀ y, y < x → (s.ctx y).slot = none) →
        ∃ t l, exec .frameSent s = .next t ∧ t.queue.records = rest ++ sl.record.stamped s.queue :: l) ∧
      (rest.length = 63 → (∀ y, (s.ctx y).slot = none) → s.panel.foldPending = true →
        ∃ t, exec .frameSent s = .next t ∧ t.panel.state = .closed ∧ t.panel.foldPending = false ∧
          t.trunk.attn.progress = true ∧ t.queue.foldCount = 0 ∧
          t.queue.records =
            rest ++ (if s.queue.foldCount = 0 then [] else [.fold s.queue.foldCount s.queue.saturated])) ∧
      (rest.length = 16 → s.queue.compact = true →
        ∃ t, exec .frameSent s = .next t ∧ t.queue.compact = false ∧ t.queue.foldCount = 0 ∧
          t.queue.records =
            rest ++ (if s.queue.foldCount = 0 then [] else [.fold s.queue.foldCount s.queue.saturated]))) ∧
    (s.trunk.tx = some (.result seq r false) → s.panel.state ≠ .closing →
      ∃ t, exec .frameSent s = .next t ∧ SameBlocks s t)

/-! ### Lanes: commands -/

/-- LANE_RESET, LANE_OFF and LANE_ON: the state they leave, what they report, the loss cause, LANE and the effects on
the other blocks where the lane was ACTIVE (R177; in the states of ClaimsLawful, which every step keeps, O56, and reset
has, O57), the PROBE of a lane put on, and no other lane (R181, R182). A test that LANE_RESET or LANE_OFF ends has its
held response completed with the counts reached, at its place (R184, R188). That LANE_OFF from another state than ACTIVE
and RECOVER leaves the loss cause is the model's (log 26), and so is that LANE_RESET leaves the training fault of an
earlier attempt, also where it ends an attempt (log 40). -/
def Obligations.LaneCommandsMoveTheirLane : Prop :=
  ∀ (s : State) (tag : Half) (l : LaneId), HasRoom s →
    (∃ t, exec (.laneReset tag [byte l.val]) s = .next t ∧
      t.trunk.responses = testsEnded s l ++ [⟨tag, 0x10#8, .ok, [1#8], none⟩] ∧
      (t.lane l).state = .down ∧ (t.lane l).partner = .none ∧ (t.lane l).channels = 0 ∧ (t.lane l).loss = .reset ∧
      (t.lane l).fault = (s.lane l).fault ∧ (∀ k : LaneId, k ≠ l → t.lane k = s.lane k) ∧ t.tables = s.tables ∧
      ((s.lane l).state = .active → t.trunk.attn.lane = true ∧ (Quiesced s → ClaimsLawful s → LaneGone s t l)) ∧
      ((s.lane l).state ≠ .active → Quiesced s → s.panel.state ≠ .closing →
        SameBlocks { s with lanes := t.lanes } t ∧ t.out = [] ∧ t.trunk.attn = s.trunk.attn)) ∧
    (∃ t, exec (.laneOff tag [byte l.val]) s = .next t ∧
      t.trunk.responses = testsEnded s l ++ [⟨tag, 0x11#8, .ok, [0#8], none⟩] ∧
      (t.lane l).state = .off ∧ (t.lane l).partner = .none ∧ (t.lane l).channels = 0 ∧
      (t.lane l).loss =
        (if (s.lane l).state = .active ∨ (s.lane l).state = .recover then .off else (s.lane l).loss) ∧
      (∀ k : LaneId, k ≠ l → t.lane k = s.lane k) ∧ t.tables = s.tables ∧
      ((s.lane l).state = .active → t.trunk.attn.lane = true ∧ (Quiesced s → ClaimsLawful s → LaneGone s t l)) ∧
      ((s.lane l).state ≠ .active → Quiesced s → s.panel.state ≠ .closing →
        SameBlocks { s with lanes := t.lanes } t ∧ t.out = [] ∧ t.trunk.attn = s.trunk.attn)) ∧
    (∃ t, exec (.laneOn tag [byte l.val]) s = .next t ∧
      (∀ k : LaneId, k ≠ l → t.lane k = s.lane k) ∧ SameBlocks { s with lanes := t.lanes } t ∧
      ((s.lane l).state = .off → (t.lane l).state = .detect ∧ (t.lane l).partner = .none ∧ t.out = [(l, .probe)] ∧
        Answered s t tag 0x12#8 .ok [2#8]) ∧
      ((s.lane l).state ≠ .off → t.lane l = s.lane l ∧ t.out = [] ∧
        Answered s t tag 0x12#8 .ok [(s.lane l).state.code])) ∧
    ∀ b : Byte, 8 ≤ b.toNat → OnlyReplies (.laneReset tag [b]) s tag 0x10#8 .badIndex [] ∧
      OnlyReplies (.laneOff tag [b]) s tag 0x11#8 .badIndex [] ∧ OnlyReplies (.laneOn tag [b]) s tag 0x12#8 .badIndex []

/-- LANE_TEST (R183): its checks in order; an accepted test takes the lane to TEST from OFF, DOWN, DETECT or TRAIN, with
no partner and no attention. It sends the first test frame (R184) and holds its response at its place in the list (R188).
That the training fault of an earlier attempt stands, also where the test ends an attempt, is the model's (log 40). -/
def Obligations.LaneTestsHoldTheirResponse : Prop :=
  ∀ (s : State) (tag : Half) (l : LaneId) (n : Nat), HasRoom s → n < 65536 →
    (1 ≤ n → n ≤ 255 → s.guard.rack = .service → (s.lane l).state ≠ .active → (s.lane l).state ≠ .recover →
      (s.lane l).state ≠ .test → (∀ c, s.cardOnLane l = some c → s.cardInUse c = false) →
      ∃ t, exec (.laneTest tag (byte l.val :: le16 n)) s = .next t ∧
        t.trunk.responses = s.trunk.responses ++ [⟨tag, 0x13#8, .ok, [], some (.lane l)⟩] ∧
        t.lane l = { s.lane l with
          state := .test, partner := .none, channels := 0, phase := .identification, testCount := n, testSent := 0,
          testMatched := 0 } ∧
        (∀ k : LaneId, k ≠ l → t.lane k = s.lane k) ∧ SameBlocks { s with lanes := t.lanes } t ∧
        t.trunk.attn = s.trunk.attn ∧ t.out = [(l, .test 1#8)]) ∧
    (n = 0 ∨ 255 < n → OnlyReplies (.laneTest tag (byte l.val :: le16 n)) s tag 0x13#8 .badValue []) ∧
    (1 ≤ n → n ≤ 255 → s.guard.rack ≠ .service ∨ (s.lane l).state = .active ∨ (s.lane l).state = .recover ∨
        (s.lane l).state = .test →
      OnlyReplies (.laneTest tag (byte l.val :: le16 n)) s tag 0x13#8 .state []) ∧
    (∀ c, 1 ≤ n → n ≤ 255 → s.guard.rack = .service → (s.lane l).state ≠ .active → (s.lane l).state ≠ .recover →
      (s.lane l).state ≠ .test → s.cardOnLane l = some c → s.cardInUse c = true →
      OnlyReplies (.laneTest tag (byte l.val :: le16 n)) s tag 0x13#8 .inUse []) ∧
    ∀ b : Byte, 8 ≤ b.toNat → OnlyReplies (.laneTest tag (b :: le16 n)) s tag 0x13#8 .badIndex []

/-- The five status reads (R193): each answers OK with its data as the state stands, clears its own class and no other,
and changes no block but that SITE_STATUS clears the deltas. The data have the lengths that their fields add up to,
where spec/12 leaves a field's code or size open as log 22 has it, and with the free quiet time of log 4. -/
def Obligations.StatusReadsReportAndClear : Prop :=
  ∀ (s : State) (tag : Half), HasRoom s →
    (∃ t, exec (.guardStatus tag []) s = .next t ∧ Answered s t tag 0x14#8 .ok (guardData s) ∧ SameBlocks s t ∧
      t.trunk.attn = { s.trunk.attn with guard := false } ∧ (guardData s).length = 75) ∧
    (∃ t, exec (.laneStatus tag []) s = .next t ∧ Answered s t tag 0x15#8 .ok (laneData s) ∧ SameBlocks s t ∧
      t.trunk.attn = { s.trunk.attn with lane := false } ∧ (laneData s).length = 176) ∧
    (∃ t, exec (.busStatus tag []) s = .next t ∧ Answered s t tag 0x16#8 .ok (busData s) ∧ SameBlocks s t ∧
      t.trunk.attn = { s.trunk.attn with step := false } ∧ (busData s).length = 784) ∧
    (∃ t, exec (.siteStatus tag []) s = .next t ∧ Answered s t tag 0x17#8 .ok (siteData s) ∧
      SameBlocks { s with guard := { s.guard with
        arrival := Vector.replicate 32 false, departure := Vector.replicate 32 false } } t ∧
      t.trunk.attn = { s.trunk.attn with site := false } ∧ (siteData s).length = 224) ∧
    ∃ t, exec (.panelStatus tag []) s = .next t ∧ Answered s t tag 0x18#8 .ok (panelData s) ∧ SameBlocks s t ∧
      t.trunk.attn = { s.trunk.attn with progress := false } ∧ (panelData s).length = 233

/-! ### Lanes: frames -/

/-- BAD_FRAME and LANE_FRAME_DISCARD (R171, R176): in ACTIVE a bad frame counts, the third in a row takes the lane to
RECOVER with loss cause ERRORS, a RESYNC, LANE and the effects on the other blocks (R177; in the states of ClaimsLawful,
which every step keeps, O56, and reset has, O57); a good frame that is no traffic only clears the count; outside ACTIVE
both are discarded. -/
def Obligations.BadFramesCountToRecover : Prop :=
  ∀ (s : State) (l : LaneId) (b : List Byte),
    (goodLaneFrame b = false → (s.lane l).state = .active → (s.lane l).errors < 2 →
      exec (.badFrame l b) s = .next { s with
        out := [], lanes := s.lanes.set l { s.lane l with errors := (s.lane l).errors + 1 } }) ∧
    (goodLaneFrame b = false → (s.lane l).state = .active → 2 ≤ (s.lane l).errors →
      ∃ t, exec (.badFrame l b) s = .next t ∧
        t.lane l = { s.lane l with state := .recover, errors := 3, loss := .errors } ∧
        (∀ k : LaneId, k ≠ l → t.lane k = s.lane k) ∧ (l, .resync) ∈ t.out ∧ t.trunk.attn.lane = true ∧
        t.tables = s.tables ∧ t.guard.rack = s.guard.rack ∧ t.guard.trips = s.guard.trips ∧
        (∀ (x : Bus) (p : Pt), (t.xp x p).wear = (s.xp x p).wear) ∧ (Quiesced s → ClaimsLawful s → LaneGone s t l)) ∧
    (goodLaneFrame b = false → (s.lane l).state ≠ .active → DoesNothing (.badFrame l b) s) ∧
    (goodLaneFrame b = true → isTrafficForm b = false → OnlyCountsGood (.laneFrameDiscard l b) s l)

/-- A DONE or REJECT is discarded when its tag differs from the tag of the card's pending order, when the card has no
pending order, and when no CARD entry names its lane: it changes no record, no timer and no wear count. After the
expiry of the order's timer, the recovery open holds the pending position with the next tag, and the late answer is
discarded (R26). On a lane that is not ACTIVE an answer is discarded too (R171). -/
def Obligations.UnmatchedAnswersAreDiscarded : Prop :=
  ∀ (s : State) (l : LaneId) (tag reason : Byte),
    ((s.lane l).state ≠ .active ∨ s.cardOnLane l = none ∨
      (∃ c, s.cardOnLane l = some c ∧ ∀ p, (s.card c).pending = some p → p.tag ≠ tag) →
      OnlyCountsGood (.done l tag) s l ∧ OnlyCountsGood (.reject l tag reason) s l) ∧
    ∀ c o, s.cardOnLane l = some c → (s.card c).pending = some ⟨tag, o⟩ → o.kind ≠ .recovery → TagsFollow s →
      ∃ t, exec (.orderTimeout c) s = .next t ∧
        (t.card c).pending = some ⟨tag + 1, ⟨.recovery, o.bus, o.points, false⟩⟩ ∧
        OnlyCountsGood (.done l tag) t l ∧ OnlyCountsGood (.reject l tag reason) t l

/-- DONE of the pending order (R23, R36): a close raises the wear counts of exactly its crosspoints by one, up to
16,777,215, and any other order leaves every count; at the order's end its crosspoints are CLOSED or OPEN, and so they
are after the command where nothing is listed, no bus waits for them and the end starts nothing more. A close marked by
an emergency open is opened again at once; the make of a site in MAKING leads to SETTLING (R71, R72). -/
def Obligations.DoneEndsTheOrder : Prop :=
  ∀ (s : State) (l : LaneId) (c : CardId) (tag : Byte) (o : Order), (s.lane l).state = .active →
    s.cardOnLane l = some c → (s.card c).pending = some ⟨tag, o⟩ → o.points.Nodup →
    (∃ t, exec (.done l tag) s = .next t ∧ t.tables = s.tables ∧ t.guard = s.guard ∧
      (∀ k : LaneId, k ≠ l → t.lane k = s.lane k) ∧
      ∀ (x : Bus) (p : Pt), (t.xp x p).wear =
        if o.kind = .make ∧ x = o.bus ∧ p ∈ o.points then min ((s.xp x p).wear + 1) 16777215 else (s.xp x p).wear) ∧
    (∀ p ∈ o.points, ((orderDone s c o).xp o.bus p).state = (if o.kind = .make then .closed else .opn) ∧
      ((orderDone s c o).xp o.bus p).mark = false) ∧
    (∀ (x : Bus) (p : Pt), ¬ (x = o.bus ∧ p ∈ o.points) → (orderDone s c o).xp x p = s.xp x p) ∧
    ((orderDone s c o).card c).pending = none ∧
    (Quiesced s → NothingListed s c → (∀ p ∈ o.points, cardOf p = c) → ∃ t, exec (.done l tag) s = .next t ∧
      (o.kind = .make → o.answers = false → StartsNothing s o.bus →
        (∀ p ∈ o.points, (t.xp o.bus p).state = (if (s.xp o.bus p).mark then .opening else .closed) ∧
          (t.xp o.bus p).mark = false) ∧
        (orderMarked s o ≠ [] → (t.card c).pending = some ⟨(s.card c).nextTag, ⟨.emergency, o.bus, orderMarked s o, false⟩⟩)) ∧
      (∀ r tg, o.kind = .make → o.answers = true → (∀ p ∈ o.points, (s.xp o.bus p).mark = false) →
        (s.ctx o.bus).request = some (.make r) → (s.ctx o.bus).state = .making → (s.ctx o.bus).inFlight.isSome = true →
        (s.ctx o.bus).target = some tg → tg.settle ≠ 0 →
        t.ctx o.bus = { s.ctx o.bus with state := .settling, request := none, settleTimer := some tg.settle } ∧
        (∀ y : Bus, y ≠ o.bus → t.ctx y = s.ctx y) ∧ t.out = [] ∧ t.queue = s.queue ∧ (t.card c).pending = none ∧
        ∀ p ∈ o.points, (t.xp o.bus p).state = .closed ∧ (t.xp o.bus p).mark = false) ∧
      (o.kind ≠ .make → NoWaiter s o.points → StartsNothing s o.bus →
        ∀ p ∈ o.points, (t.xp o.bus p).state = .opn ∧ (t.xp o.bus p).mark = false))

/-- REJECT of the pending order (R24): its reason is kept, no wear count moves, and a rejected recovery open takes the
card's lane to RECOVER with cause CARD_REQUEST, LANE and the effects on the other blocks (R25, R177, R179; in the states
of ClaimsLawful, which every step keeps, O56, and reset has, O57). At the order's end, and after the command where
nothing is listed or waits and the end starts nothing more, a rejected close is OPEN and a rejected break CLOSED again
unless it was marked; a marked one and a rejected emergency open are UNKNOWN, and their recovery open is pending with
the next tag. -/
def Obligations.RejectKeepsItsReason : Prop :=
  ∀ (s : State) (l : LaneId) (c : CardId) (tag reason : Byte) (o : Order), (s.lane l).state = .active →
    s.cardOnLane l = some c → (s.card c).pending = some ⟨tag, o⟩ →
    (∃ t, exec (.reject l tag reason) s = .next t ∧ (t.card c).rejectReason = some reason ∧
      (∀ d, d ≠ c → (t.card d).rejectReason = (s.card d).rejectReason) ∧ t.tables = s.tables ∧
      t.guard.trips = s.guard.trips ∧ t.guard.rack = s.guard.rack ∧
      (∀ k : LaneId, k ≠ l → t.lane k = s.lane k) ∧
      (∀ (x : Bus) (p : Pt), (t.xp x p).wear = (s.xp x p).wear) ∧
      (o.kind = .recovery → (t.lane l).state = .recover ∧ (t.lane l).loss = .cardRequest ∧
        t.trunk.attn.lane = true ∧ (l, .resync) ∈ t.out ∧
        (Quiesced s → ClaimsLawful s → LaneGone s t l)) ∧
      (o.kind ≠ .recovery → (t.lane l).state = .active) ∧
      (Quiesced s → (∀ p ∈ o.points, cardOf p = c) →
        (o.kind = .make → NothingListed s c → NoWaiter s o.points →
          (o.answers = false ∧ StartsNothing s o.bus) ∨
            (o.answers = true ∧ (s.ctx o.bus).queue = [] ∧ (s.ctx o.bus).sweep.status ≠ .running) →
          ∀ p ∈ o.points, (s.xp o.bus p).state = .closing →
            (t.xp o.bus p).state = .opn ∧ (t.xp o.bus p).mark = false) ∧
        (o.kind = .emergency →
          (∀ p ∈ o.points, (t.xp o.bus p).state = .unknown) ∧
          (o.points ≠ [] → (t.card c).pending = some ⟨(s.card c).nextTag, ⟨.recovery, o.bus, o.points, false⟩⟩)) ∧
        (o.kind = .brk →
          (∀ p ∈ o.points, (s.xp o.bus p).mark = true →
            (t.xp o.bus p).state = .unknown ∧ (t.xp o.bus p).mark = false) ∧
          (orderMarked s o ≠ [] →
            (t.card c).pending = some ⟨(s.card c).nextTag, ⟨.recovery, o.bus, orderMarked s o, false⟩⟩) ∧
          (NothingListed s c → StartsNothing s o.bus →
            ∀ p ∈ o.points, (s.xp o.bus p).mark = false → (s.xp o.bus p).state = .opening →
              (t.xp o.bus p).state = .closed)))) ∧
    ∀ p ∈ o.points,
      (o.kind = .make → (s.xp o.bus p).state = .closing →
        ((orderRejected s c o reason).1.xp o.bus p).state = .opn) ∧
      (o.kind = .emergency → ((orderRejected s c o reason).1.xp o.bus p).state = .unknown) ∧
      (o.kind = .brk → (s.xp o.bus p).state = .opening → (s.xp o.bus p).mark = false →
        ((orderRejected s c o reason).1.xp o.bus p).state = .closed) ∧
      (o.kind = .brk → (s.xp o.bus p).mark = true → ((orderRejected s c o reason).1.xp o.bus p).state = .unknown)

/-- ORDER_TIMEOUT (R25): a recovery open of the same crosspoints is pending at once with the next tag, and they are
UNKNOWN when the order ends and after the command; the timeout of a recovery open takes the card's ACTIVE lane to
RECOVER, with the effects on the other blocks (R177, R179). No wear count moves. The effects on the other blocks, and
what the crosspoints are after the command, are stated for the states of ClaimsLawful, OpensFirst and TablesLawful,
which every step keeps (O54, O56) and reset has (O57). A card with no pending order has no timer (the model's, log 1).
-/
def Obligations.OrderTimeoutsRecover : Prop :=
  ∀ (s : State) (c : CardId),
    ((s.card c).pending = none → DoesNothing (.orderTimeout c) s) ∧
    ∀ tag o, (s.card c).pending = some ⟨tag, o⟩ →
      (∃ t, exec (.orderTimeout c) s = .next t ∧ t.tables = s.tables ∧ t.guard.rack = s.guard.rack ∧
        t.guard.trips = s.guard.trips ∧ (∀ (x : Bus) (p : Pt), (t.xp x p).wear = (s.xp x p).wear) ∧
        (o.kind ≠ .recovery → t.lanes = s.lanes ∧ t.guard = s.guard ∧
          (t.card c).pending = some ⟨(s.card c).nextTag, ⟨.recovery, o.bus, o.points, false⟩⟩ ∧
          (t.card c).nextTag = (s.card c).nextTag + 1) ∧
        (∀ l, o.kind = .recovery → (s.cardEntry c).lane = some l → (s.lane l).state = .active →
          (t.lane l).state = .recover ∧ (t.lane l).loss = .cardRequest ∧ t.trunk.attn.lane = true ∧
          (l, .resync) ∈ t.out ∧ (∀ k : LaneId, k ≠ l → t.lane k = s.lane k) ∧
          (Quiesced s → TablesLawful s → OpensFirst s → ClaimsLawful s → LaneGone s t l)) ∧
        (Quiesced s → OpensFirst s → ClaimsLawful s →
          ∀ p ∈ o.points, (t.xp o.bus p).state = .unknown ∧ (t.xp o.bus p).mark = false)) ∧
      ∀ p ∈ o.points, ((orderTimedOut s c o).1.xp o.bus p).state = .unknown ∧
        ((orderTimedOut s c o).1.xp o.bus p).mark = false

/-- PRESENCE (R163, R164, R168): exactly the eight blocks of the card take the reported values; a site's arrival delta
is set by a block that becomes PRESENT, its departure delta by one that leaves PRESENT, and a departing powered site is
OFF; SITE is pending when a delta is set. For the powered boards that depart the card gets its whole setting in one
SUPPLY frame, first (R166; one frame for several boards is log 18), a context with such a site in flight or held for redo
ends it INVALID with cause DEPARTED, and one that is HOLDING there loses its hold (R81, R84, R103, R168). With none no
frame goes out and no other block changes. Elsewhere the frame is discarded. -/
def Obligations.PresenceReportsAreApplied : Prop :=
  ∀ (s : State) (l : LaneId) (mask : Byte),
    (∀ c, s.laneHasCard l = true → s.cardOnLane l = some c → ∃ t, exec (.presence l mask) s = .next t ∧
      (∀ k : Fin 8, t.blockPresence (blockOnCard c k) = if mask.getLsbD k.val then .present else .absent) ∧
      (∀ b : Block, cardOfBlock b ≠ c → t.blockPresence b = s.blockPresence b) ∧
      (∀ u : Site, t.guard.arrival[u] = true ↔ s.guard.arrival[u] = true ∨
        ∃ k : Fin 8, s.siteOnBlock (blockOnCard c k) = some u ∧ mask.getLsbD k.val = true ∧
          s.blockPresence (blockOnCard c k) ≠ .present) ∧
      (∀ u : Site, t.guard.departure[u] = true ↔ s.guard.departure[u] = true ∨
        ∃ k : Fin 8, s.siteOnBlock (blockOnCard c k) = some u ∧ mask.getLsbD k.val = false ∧
          s.blockPresence (blockOnCard c k) = .present) ∧
      (∀ u : Site, t.supplyOn u = true ↔ s.supplyOn u = true ∧
        ¬ ∃ k : Fin 8, s.siteOnBlock (blockOnCard c k) = some u ∧ mask.getLsbD k.val = false ∧
          s.blockPresence (blockOnCard c k) = .present) ∧
      (t.guard.arrival ≠ s.guard.arrival ∨ t.guard.departure ≠ s.guard.departure → t.trunk.attn.site = true) ∧
      t.guard.rack = s.guard.rack ∧ t.guard.trips = s.guard.trips ∧ t.tables = s.tables ∧
      (∀ (x : Bus) (p : Pt), (t.xp x p).wear = (s.xp x p).wear) ∧
      ((∃ u, Leaves s c mask u) → ∃ fs, t.out = (l, .supply (supplyMask t c)) :: fs) ∧
      (Quiesced s → ∀ (u : Site) (x : Bus), Leaves s c mask u →
        (∀ st : CtxState, st ∈ [.quieting, .breaking, .blocked, .making, .settling, .restoring, .measuring, .suspended] →
          WorksAt s x st u → EndedBy s t x u .departed) ∧
        ((s.ctx x).state = .holding → (s.ctx x).site = some u → HoldLost s t x)) ∧
      (Quiesced s → s.panel.state ≠ .closing → (∀ u, ¬ Leaves s c mask u) →
        SameBlocks { s with guard := t.guard, lanes := t.lanes } t ∧ t.out = [])) ∧
    (s.laneHasCard l = false ∨ s.cardOnLane l = none → OnlyCountsGood (.presence l mask) s l)

/-- ACK and ACK_TIMEOUT (R50, R51). With no request of the context waiting on the exchange: the record's new state, the
QUIET sent after an unanswered LIVE on a usable channel, and nothing else at any context. With a quiet request waiting:
QUIETING goes on to BREAKING or the make (R69), or the site ends INVALID with cause LANE. With a live request waiting:
RESTORING goes on to MEASURING with its TAKE, or to HOLDING for a CONNECT step (R73, R74), or the site ends INVALID with
cause LANE. An ACK of no enabled SOURCE bus, without an exchange, or of the other command is discarded. The model's: a timer
that does not run does not expire (log 1), and the points of an order rise (log 37). -/
def Obligations.ExchangesEndTheirRecords : Prop :=
  (∀ (s : State) (x : Bus), Quiesced s → (s.ctx x).request = none →
    (∀ (l : LaneId) (ch : Byte) (live : Bool), s.laneHasInstrument l = true → sourceBusOn s l ch = some x →
      ((s.ctx x).source = (if live then .goingLive else .goingQuiet) → ∃ t,
        exec (.ack l ch (yesNo live)) s = .next t ∧
        t.ctx x = { s.ctx x with source := if live then .live else .quiet } ∧
        (∀ y : Bus, y ≠ x → t.ctx y = s.ctx y) ∧ t.matrix = s.matrix ∧ t.guard = s.guard ∧ t.tables = s.tables ∧
        t.out = [])) ∧
    ((s.ctx x).source = .goingQuiet → ∃ t, exec (.ackTimeout x) s = .next t ∧
      t.ctx x = { s.ctx x with source := .unsure } ∧ (∀ y : Bus, y ≠ x → t.ctx y = s.ctx y) ∧
      t.matrix = s.matrix ∧ t.guard = s.guard ∧ t.tables = s.tables ∧ t.out = []) ∧
    ((s.ctx x).source = .goingLive → ∃ t, exec (.ackTimeout x) s = .next t ∧
      t.ctx x = { s.ctx x with source := if s.channelUsable x then .goingQuiet else .unsure } ∧
      (∀ y : Bus, y ≠ x → t.ctx y = s.ctx y) ∧ t.matrix = s.matrix ∧ t.guard = s.guard ∧ t.tables = s.tables ∧
      t.out = if s.channelUsable x then [((s.busEntry x).lane, .quiet (s.busEntry x).channel)] else []) ∧
    ((s.ctx x).source ≠ .goingQuiet → (s.ctx x).source ≠ .goingLive → DoesNothing (.ackTimeout x) s)) ∧
  (∀ (s : State) (l : LaneId) (ch : Byte) (live : Bool),
    (sourceBusOn s l ch = none → OnlyCountsGood (.ack l ch (yesNo live)) s l) ∧
    ∀ x : Bus, sourceBusOn s l ch = some x → (s.ctx x).source ≠ (if live then .goingLive else .goingQuiet) →
      OnlyCountsGood (.ack l ch (yesNo live)) s l) ∧
  (∀ (s : State) (x : Bus) (l : LaneId) (ch : Byte) (tg : Target), Quiesced s → s.laneHasInstrument l = true →
    sourceBusOn s l ch = some x → (s.ctx x).source = .goingQuiet → (s.ctx x).request = some .quiet →
    (s.ctx x).state = .quieting → (s.ctx x).inFlight.isSome = true → (s.ctx x).target = some tg →
    tg.points.Pairwise (· < ·) → (∀ p ∈ tg.points, blockOf p = tg.block) → s.isSafe = false → s.tripped x = false →
    (∃ p ∈ tg.points, (s.xp x p).state ≠ .closed) ∨ (∃ p : Pt, s.claimed x p = true ∧ p ∉ tg.points) →
    ∃ t, exec (.ack l ch 0#8) s = .next t ∧ BreaksOrMakes s t x { s.ctx x with source := .quiet } tg) ∧
  (∀ (s : State) (x : Bus) (l : LaneId) (ch : Byte) (stag : Half), Quiesced s → s.laneHasInstrument l = true →
    sourceBusOn s l ch = some x → (s.ctx x).source = .goingLive → (s.ctx x).request = some .live →
    (s.ctx x).state = .restoring → (s.ctx x).inFlight.isSome = true →
    (∀ sel n lim k d timeout hold, (s.ctx x).step = some ⟨stag, .measure sel n lim k d timeout hold⟩ →
      s.channelUsable x = true → ∃ t, exec (.ack l ch 1#8) s = .next t ∧
        t.ctx x = { s.ctx x with
          state := .measuring, source := .live, request := none, captured := some (captureNow s x lim), acc := []
          takeTag := (s.ctx x).takeTag + 1, measureTimer := some timeout } ∧
        t.out = [((s.busEntry x).lane, .take (s.busEntry x).channel ((s.ctx x).takeTag + 1) (d + k))] ∧
        t.markHigh = (s.markHigh || markFires s x) ∧ OnlyBus s t x ∧ t.matrix = s.matrix ∧ t.guard = s.guard ∧
        t.tables = s.tables) ∧
    ∀ u n, (s.ctx x).step = some ⟨stag, .connect u n⟩ → (s.ctx x).queue = [] → (s.ctx x).endPending = none →
      s.isSafe = false → ∃ t, exec (.ack l ch 1#8) s = .next t ∧
        t.ctx x = { s.ctx x with
          state := .holding, source := .live, request := none, step := none, inFlight := none, after := .none
          lastOk := false, captured := none, acc := [] } ∧
        OnlyBus s t x ∧ t.out = [] ∧ t.matrix = s.matrix ∧ t.guard = s.guard) ∧
  ∀ (s : State) (x : Bus) (u : Site), Quiesced s →
    (WorksAt s x .quieting u → (s.ctx x).source = .goingQuiet → (s.ctx x).request = some .quiet →
      ∃ t, exec (.ackTimeout x) s = .next t ∧ EndedBy s t x u .lane ∧
        (64 ≤ s.queue.records.length → (t.ctx x).state = .posting ∧ (t.ctx x).source = .unsure ∧ t.out = [])) ∧
    (WorksAt s x .restoring u → (s.ctx x).source = .goingLive → (s.ctx x).request = some .live →
      ∃ t, exec (.ackTimeout x) s = .next t ∧ EndedBy s t x u .lane ∧
        (s.channelUsable x = true → ∃ fs, t.out = ((s.busEntry x).lane, .quiet (s.busEntry x).channel) :: fs) ∧
        (64 ≤ s.queue.records.length → (t.ctx x).state = .posting ∧
          (t.ctx x).source = if s.channelUsable x then .goingQuiet else .unsure))

/-- READING (R75, R76): one that reaches no bus, a bus that is not MEASURING or another take than the current one, is a
settling discard, is beyond the counted indices, or repeats an index held is discarded; a counted one that is not the last adds its sample and changes nothing else. -/
def Obligations.ReadingsAreCounted : Prop :=
  ∀ (s : State) (l : LaneId) (ch tt idx range : Byte) (raw : BitVec 24),
    (s.laneHasInstrument l = false ∨ readingBus s l ch = none →
      OnlyCountsGood (.reading l ch tt idx range raw) s l) ∧
    (∀ x : Bus, readingBus s l ch = some x → (s.ctx x).state ≠ .measuring ∨ (s.ctx x).takeTag ≠ tt →
      OnlyCountsGood (.reading l ch tt idx range raw) s l) ∧
    ∀ (x : Bus) (stag : Half) (sel : Selection) (n : Net) (lim : Fin 256) (k d timeout : Nat) (hold : Bool)
      (cap : Capture), s.laneHasInstrument l = true → readingBus s l ch = some x →
      (s.ctx x).step = some ⟨stag, .measure sel n lim k d timeout hold⟩ → (s.ctx x).captured = some cap →
      (idx.toNat < d ∨ d + k ≤ idx.toNat ∨ (∃ m ∈ (s.ctx x).acc, m.index = idx.toNat) →
        OnlyCountsGood (.reading l ch tt idx range raw) s l) ∧
      ((s.ctx x).state = .measuring → (s.ctx x).takeTag = tt → d ≤ idx.toNat → idx.toNat < d + k →
        (∀ m ∈ (s.ctx x).acc, m.index ≠ idx.toNat) → (s.ctx x).acc.length + 1 < k →
        ∃ t, exec (.reading l ch tt idx range raw) s = .next t ∧
          t.ctx x = { s.ctx x with acc := (s.ctx x).acc ++
            [⟨idx.toNat, (sampleOf cap.scales[rangeCode range] raw.toInt range.msb).1,
              (sampleOf cap.scales[rangeCode range] raw.toInt range.msb).2, cap.scales[rangeCode range].unit⟩] } ∧
          SameBlocks { s with ctxs := t.ctxs, lanes := t.lanes } t ∧ (∀ y : Bus, y ≠ x → t.ctx y = s.ctx y) ∧
          t.out = [])

/-- READING, the K-th counted one (R78, R131, R143, R144, R145): unless it is a pass that compact mode folds, its MEASURE
record is the next one appended while the queue has room, with the average, flags, verdict, bin and counts the rules
give; with the queue full the context waits in POSTING with its slot filled. A folded pass has no record of its own and
adds one to the fold counter, which the next record appended carries. The site's verdict record has taken the judgement
in every case (R134). -/
def Obligations.LastReadingIsJudged : Prop :=
  ∀ (s : State) (l : LaneId) (ch tt idx range : Byte) (raw : BitVec 24) (x : Bus) (stag : Half) (sel : Selection)
    (n : Net) (lim : Fin 256) (k d timeout : Nat) (hold : Bool) (cap : Capture) (u : Site) (acc : List Sample)
    (v : Verdict) (dn : DispEntry), Quiesced s → s.laneHasInstrument l = true → readingBus s l ch = some x →
    (s.ctx x).step = some ⟨stag, .measure sel n lim k d timeout hold⟩ → (s.ctx x).captured = some cap →
    (s.ctx x).state = .measuring → (s.ctx x).takeTag = tt → d ≤ idx.toNat → idx.toNat < d + k →
    (∀ m ∈ (s.ctx x).acc, m.index ≠ idx.toNat) → (s.ctx x).acc.length + 1 = k → (s.ctx x).inFlight = some u →
    (s.ctx x).request = none →
    acc = (s.ctx x).acc ++ [⟨idx.toNat, (sampleOf cap.scales[rangeCode range] raw.toInt range.msb).1,
      (sampleOf cap.scales[rangeCode range] raw.toInt range.msb).2, cap.scales[rangeCode range].unit⟩] →
    v = verdictOf cap.limit (average acc) (acc.any (·.v)) → dn = s.tables.disps[dispNo cap.limit.row v] →
    ∃ t, exec (.reading l ch tt idx range raw) s = .next t ∧ ((s.verdict u).judge v dn).Onward (t.verdict u) ∧
      (dn.attention = true → t.trunk.attn.step = true) ∧
      (¬ (s.queue.compact = true ∧ v = .pass ∧ cap.limit.mode ≠ .record) → s.queue.records.length < 64 →
        ∃ rs, t.queue.records = s.queue.records ++ .measure
          { flags := ⟨average acc == 0, decide (average acc < 0), acc.any (·.v), cap.worn, s.queue.saturated⟩
            panel := s.panel.number, bus := x, tag := stag, site := some u
            ordinal := if (s.ctx x).sweep.status = .running then (s.ctx x).sweep.judged.length + 1 else 1
            verdict := v, bin := dn.bin, samples := k, unit := unitOf acc d, folded := s.queue.foldCount
            body := .value (average acc) } :: rs) ∧
      (¬ (s.queue.compact = true ∧ v = .pass ∧ cap.limit.mode ≠ .record) → 64 ≤ s.queue.records.length →
        (t.ctx x).state = .posting ∧ (t.ctx x).slot.isSome = true ∧ t.queue.records = s.queue.records ∧
        t.verdict u = (s.verdict u).judge v dn) ∧
      (∀ q, s.queue.compact = true → v = .pass → cap.limit.mode ≠ .record →
        q = (if s.queue.foldCount < 4294967295 then { s.queue with foldCount := s.queue.foldCount + 1 }
             else { s.queue with saturated := true }) →
        ∃ rs, t.queue.records = s.queue.records ++ rs ∧ (∀ r ∈ rs, r.noReading = true) ∧ (rs = [] → t.queue = q) ∧
          ∀ r more, rs = r :: more → r = r.stamped q)

/-- PROBE, IDENT and CLEARED (R173, R174, R175): DETECT to TRAIN with the part's IDENT; a good IDENT to the clearing
phase with ALL-OPEN or QUIET-ALL, a bad one to DETECT with BAD_IDENT; CLEARED to ACTIVE with LANE, and with no bus
waiting every crosspoint of the named card OPEN (R40), or the instrument's sources QUIET (R53) and trip states clear
(R54). That the training fault of an earlier attempt stands at PROBE and at a good IDENT, until CLEARED, is log 40. -/
def Obligations.LanesTrain : Prop :=
  ∀ (s : State) (l : LaneId),
    ((s.lane l).state = .detect → exec (.probe l) s = .next { s with
      out := [(l, .ident)], lanes := s.lanes.set l { s.lane l with state := .train, phase := .identification } }) ∧
    ((s.lane l).state = .train → (s.lane l).phase = .identification →
      (∀ ch : Byte, ∃ t, exec (.ident l 1#8 ch 8#8 64#8) s = .next t ∧
        t.lane l = { s.lane l with partner := .card, channels := 0, phase := .clearing } ∧
        t.out = [(l, .allOpen)] ∧ (∀ x : Bus, t.ctx x =
          if (s.busEntry x).kind = .source ∧ (s.busEntry x).lane = l then { s.ctx x with source := .quiet }
          else s.ctx x) ∧ SameBlocks { s with lanes := t.lanes, ctxs := t.ctxs } t) ∧
      (∀ (ch rows cols : Byte) (n : Fin 5), n.val = ch.toNat → 1 ≤ ch.toNat →
        exec (.ident l 2#8 ch rows cols) s = .next { s with
          out := [(l, .quietAll)]
          lanes := s.lanes.set l { s.lane l with partner := .instrument, channels := n, phase := .clearing } }) ∧
      ∀ kind ch rows cols : Byte,
        (kind ≠ 1#8 ∧ kind ≠ 2#8) ∨ (kind = 1#8 ∧ (rows ≠ 8#8 ∨ cols ≠ 64#8)) ∨
          (kind = 2#8 ∧ (ch = 0#8 ∨ 4 < ch.toNat)) →
        exec (.ident l kind ch rows cols) s = .next { s with
          out := [(l, .probe)]
          lanes := s.lanes.set l { s.lane l with
            state := .detect, partner := .none, channels := 0, phase := .identification, fault := .badIdent } }) ∧
    ((s.lane l).state = .train → (s.lane l).phase = .clearing → Quiesced s → ∃ t, exec (.cleared l) s = .next t ∧
      t.lane l = { s.lane l with state := .active, errors := 0, fault := .none } ∧
      (∀ k : LaneId, k ≠ l → t.lane k = s.lane k) ∧ t.trunk.attn.lane = true ∧ t.tables = s.tables ∧
      (∀ c, (s.lane l).partner = .card → s.cardOnLane l = some c → (∀ y : Bus, (s.ctx y).waitsFor = []) →
        ∀ (x : Bus) (p : Pt), t.xp x p =
          if cardOf p = c then { s.xp x p with state := .opn, mark := false } else s.xp x p) ∧
      ((s.lane l).partner = .instrument →
        (∀ x : Bus, (s.busEntry x).kind = .source → (s.busEntry x).lane = l → (t.ctx x).source = .quiet) ∧
        (∀ ch : Chan, t.guard.instTrips[tripNo l ch] = false) ∧ t.matrix = s.matrix))

/-- A PROBE, IDENT, CLEARED or RESYNC that the lane's state does not accept is discarded (R171, R174, R175). So is a
TRIP or ACK on a lane that is no ACTIVE instrument lane, a TRIP for a channel at or above the partner's count, and one
whose state or command byte is neither 0 nor 1 (R54, R197). That a TEST_FRAME outside TEST does nothing at all is the
model's (log 1). -/
def Obligations.LaneFramesOutOfPlaceAreDiscarded : Prop :=
  ∀ (s : State) (l : LaneId) (a b c d : Byte),
    (s.laneHasInstrument l = false ∨ (s.lane l).channels.val ≤ a.toNat ∨ 2 ≤ b.toNat → OnlyCountsGood (.trip l a b) s l) ∧
    (s.laneHasInstrument l = false ∨ 2 ≤ b.toNat → OnlyCountsGood (.ack l a b) s l) ∧
    ((s.lane l).state ≠ .detect → OnlyCountsGood (.probe l) s l) ∧
    (¬ ((s.lane l).state = .train ∧ (s.lane l).phase = .identification) → OnlyCountsGood (.ident l a b c d) s l) ∧
    (¬ ((s.lane l).state = .train ∧ (s.lane l).phase = .clearing) → OnlyCountsGood (.cleared l) s l) ∧
    ((s.lane l).state ≠ .recover → OnlyCountsGood (.resync l a b) s l) ∧
    ((s.lane l).state ≠ .test → ∀ bytes, DoesNothing (.testFrame l bytes) s)

/-- RESYNC and the lane timers: back to ACTIVE with LANE for the recorded partner, where a named card with no order gets
recovery opens for all its UNKNOWN crosspoints, bus by bus, the first sent at once (R40); DOWN with RESYNC_MISMATCH for
another partner (R178); DOWN to DETECT, the repeated PROBE, the failed training, the repeated RESYNC, and DOWN with RESYNC_TIMEOUT
(R172, R173, R174, R178). The model's: a CARD agrees only with channel count 0 (log 24), and a timer that does not run
does not expire (log 1). -/
def Obligations.LanesRecoverAndTimeOut : Prop :=
  ∀ (s : State) (l : LaneId),
    (∀ kind ch : Byte, (s.lane l).state = .recover →
      ((kind.toNat = (s.lane l).partner.code ∧ ch.toNat = (s.lane l).channels.val) → ∃ t,
        exec (.resync l kind ch) s = .next t ∧ t.lane l = { s.lane l with state := .active, errors := 0 } ∧
        (∀ k : LaneId, k ≠ l → t.lane k = s.lane k) ∧ t.trunk.attn.lane = true ∧ t.tables = s.tables ∧
        t.guard = s.guard ∧ (∀ x : Bus, Quiesced s → (t.ctx x).source = (s.ctx x).source) ∧
        ∀ c, (s.lane l).partner = .card → s.cardOnLane l = some c → (s.card c).idle = true → Quiesced s →
          RecoveryPlaced s t c l) ∧
      (¬ (kind.toNat = (s.lane l).partner.code ∧ ch.toNat = (s.lane l).channels.val) → ∃ t,
        exec (.resync l kind ch) s = .next t ∧ t.lane l = { s.lane l with
          state := .down, partner := .none, channels := 0, phase := .identification, loss := .resyncMismatch } ∧
        (∀ k : LaneId, k ≠ l → t.lane k = s.lane k) ∧ t.tables = s.tables)) ∧
    ((s.lane l).state = .down → exec (.downTimerExpiry l) s = .next { s with
      out := [(l, .probe)]
      lanes := s.lanes.set l { s.lane l with
        state := .detect, partner := .none, channels := 0, phase := .identification } }) ∧
    ((s.lane l).state = .detect → exec (.probeTimerExpiry l) s = .next { s with out := [(l, .probe)] }) ∧
    ((s.lane l).state = .train → exec (.trainingTimeout l) s = .next { s with
      out := [(l, .probe)]
      lanes := s.lanes.set l { s.lane l with
        state := .detect, partner := .none, channels := 0, phase := .identification, fault := .timeout } }) ∧
    ((s.lane l).state = .recover → exec (.resyncResend l) s = .next { s with out := [(l, .resync)] }) ∧
    ((s.lane l).state = .recover → exec (.resyncTimerExpiry l) s = .next { s with
      out := []
      lanes := s.lanes.set l { s.lane l with
        state := .down, partner := .none, channels := 0, phase := .identification, loss := .resyncTimeout } }) ∧
    ((s.lane l).state ≠ .down → DoesNothing (.downTimerExpiry l) s) ∧
    ((s.lane l).state ≠ .detect → DoesNothing (.probeTimerExpiry l) s) ∧
    ((s.lane l).state ≠ .train → DoesNothing (.trainingTimeout l) s) ∧
    ((s.lane l).state ≠ .recover → DoesNothing (.resyncResend l) s ∧ DoesNothing (.resyncTimerExpiry l) s) ∧
    ((s.lane l).state ≠ .test → DoesNothing (.testReturnTimeout l) s)

/-- TEST_FRAME and TEST_RETURN_TIMEOUT (R184): the frame counts as sent, and as matched when it came back as it went;
the next one goes out, or after the n-th the lane is in DETECT with a PROBE and the held response is ready with n, the
frames sent and the frames matched. A returned frame that differs changes nothing. -/
def Obligations.TestFramesCount : Prop :=
  ∀ (s : State) (l : LaneId) (matched : Bool) (c : Instr), (s.lane l).state = .test →
    c = (if matched then .testFrame l (testFrameBytes (byte ((s.lane l).testSent + 1))) else .testReturnTimeout l) →
    ((s.lane l).testSent + 1 < (s.lane l).testCount → ∃ t, exec c s = .next t ∧
      t.lane l = { s.lane l with
        testSent := (s.lane l).testSent + 1, testMatched := (s.lane l).testMatched + if matched then 1 else 0 } ∧
      t.out = [(l, .test (byte ((s.lane l).testSent + 2)))] ∧ t.trunk.responses = s.trunk.responses ∧
      (∀ k : LaneId, k ≠ l → t.lane k = s.lane k) ∧ SameBlocks { s with lanes := t.lanes } t) ∧
    ((s.lane l).testCount ≤ (s.lane l).testSent + 1 → ∃ t, exec c s = .next t ∧ (t.lane l).state = .detect ∧
      (t.lane l).partner = .none ∧ t.out = [(l, .probe)] ∧
      t.trunk.responses = s.trunk.responses.map (fun r =>
        if r.heldBy = some (.lane l) then
          { r with
            data := [byte (s.lane l).testCount, byte ((s.lane l).testSent + 1),
              byte ((s.lane l).testMatched + if matched then 1 else 0)]
            heldBy := none }
        else r) ∧
      (∀ k : LaneId, k ≠ l → t.lane k = s.lane k) ∧ SameBlocks { s with lanes := t.lanes } t) ∧
    ∀ bytes, bytes ≠ testFrameBytes (byte ((s.lane l).testSent + 1)) → DoesNothing (.testFrame l bytes) s

/-! ### The timers of the buses -/

/-- SETTLE_TIMER_EXPIRY (R72 to R74, R106, R49): a MEASURE step on a bus without a source takes its TAKE, with the next
take tag, the captured entries and the measure timer, and drives the MARK pin where the MARK entry names it; a source
that is QUIET is sent LIVE; a CONNECT step without a source holds. The model's: a timer that does not run does not expire
(log 1), and MARK_PULSE_END returns the pin low whenever it comes (R106; log 35). -/
def Obligations.SettledBusesGoOn : Prop :=
  ∀ (s : State) (x : Bus) (stag : Half),
    ((s.ctx x).state ≠ .settling ∨ (s.ctx x).settleTimer = none → DoesNothing (.settleTimerExpiry x) s) ∧
    exec .markPulseEnd s = .next { s with out := [], markHigh := false } ∧
    (Quiesced s → (s.ctx x).state = .settling → (s.ctx x).settleTimer.isSome = true →
      (∀ sel n lim k d timeout hold, (s.ctx x).step = some ⟨stag, .measure sel n lim k d timeout hold⟩ →
        (s.busEntry x).kind ≠ .source → s.channelUsable x = true → ∃ t, exec (.settleTimerExpiry x) s = .next t ∧
          t.ctx x = { s.ctx x with
            state := .measuring, settleTimer := none, captured := some (captureNow s x lim), acc := []
            takeTag := (s.ctx x).takeTag + 1, measureTimer := some timeout } ∧
          t.out = [((s.busEntry x).lane, .take (s.busEntry x).channel ((s.ctx x).takeTag + 1) (d + k))] ∧
          t.markHigh = (s.markHigh || markFires s x) ∧ (∀ y : Bus, y ≠ x → t.ctx y = s.ctx y) ∧
          t.matrix = s.matrix ∧ t.guard = s.guard ∧ t.tables = s.tables ∧ t.lanes = s.lanes) ∧
      ((s.busEntry x).kind = .source → (s.ctx x).source = .quiet → s.channelUsable x = true → s.isSafe = false →
        s.tripped x = false → ∃ t, exec (.settleTimerExpiry x) s = .next t ∧
          t.ctx x = { s.ctx x with
            state := .restoring, settleTimer := none, source := .goingLive, request := some .live } ∧
          t.out = [((s.busEntry x).lane, .live (s.busEntry x).channel)] ∧
          (∀ y : Bus, y ≠ x → t.ctx y = s.ctx y) ∧ t.matrix = s.matrix ∧ t.guard = s.guard) ∧
      (∀ u n, (s.ctx x).step = some ⟨stag, .connect u n⟩ → (s.busEntry x).kind ≠ .source →
        (s.ctx x).queue = [] → (s.ctx x).endPending = none → s.isSafe = false →
        ∃ t, exec (.settleTimerExpiry x) s = .next t ∧
          (t.ctx x).state = .holding ∧ (t.ctx x).step = none ∧ (t.ctx x).inFlight = none ∧
          (t.ctx x).target = (s.ctx x).target ∧ (t.ctx x).site = (s.ctx x).site ∧ t.out = [] ∧
          t.queue.records = s.queue.records ∧ t.matrix = s.matrix))

/-- BLOCK_WAIT_EXPIRY and MEASURE_TIMEOUT at a MEASURE step's site in flight (R33, R77, R80): the site is judged INVALID
with cause CONFLICT or TIMEOUT, its record the next one appended, or waiting in the slot of a POSTING context when the
queue is full; a timed-out take is CANCELled on a usable channel and its tag has moved on. BLOCK_WAIT_EXPIRY at a CONNECT
step's site is judged the same way with disposition row 0, and the bus, with nothing more to do, is RELEASING toward IDLE, or
toward HALTED with nothing to resume where the disposition says HALT_BUS, or there at once where nothing is left to quiet or
to open (R80, R83, R85). A timer that does not run does not expire (the model's, log 1). -/
def Obligations.FailedSitesAreJudgedInvalid : Prop :=
  ∀ (s : State) (x : Bus),
    ((s.ctx x).state ≠ .measuring ∨ (s.ctx x).measureTimer = none → DoesNothing (.measureTimeout x) s) ∧
    ((s.ctx x).waitsFor = [] → DoesNothing (.blockWaitExpiry x) s) ∧
    (∀ (stag : Half) (sel : Selection) (n : Net) (lim : Fin 256) (k d timeout : Nat) (hold : Bool),
      Quiesced s → (s.ctx x).step = some ⟨stag, .measure sel n lim k d timeout hold⟩ →
      (s.ctx x).inFlight.isSome = true →
      (∀ r, (s.ctx x).state = .blocked → (s.ctx x).request = some (.make r) → r.waiting ≠ [] →
        (s.ctx x).captured = none → ∃ t, exec (.blockWaitExpiry x) s = .next t ∧
          JudgedOrPosted s t x (invalidRecord s x stag s.tables.limits[lim].row false .conflict) ∧
          ∀ p : Pt, 64 ≤ s.queue.records.length → (t.xp x p).state ≠ .reserved) ∧
      (∀ cap, (s.ctx x).state = .measuring → (s.ctx x).measureTimer.isSome = true → (s.ctx x).captured = some cap →
        (s.ctx x).request = none → ∃ t, exec (.measureTimeout x) s = .next t ∧
          JudgedOrPosted s t x (invalidRecord s x stag cap.limit.row cap.worn .timeout) ∧
          (s.channelUsable x = true →
            ∃ fs, t.out = ((s.busEntry x).lane, .cancel (s.busEntry x).channel (s.ctx x).takeTag) :: fs) ∧
          (64 ≤ s.queue.records.length → (t.ctx x).takeTag = (s.ctx x).takeTag + 1 ∧ (t.ctx x).acc = [] ∧
            (t.ctx x).measureTimer = none))) ∧
    ∀ (stag : Half) (u v : Site) (n : Net) (r : MakeReq),
      Quiesced s → (s.ctx x).step = some ⟨stag, .connect u n⟩ → (s.ctx x).state = .blocked →
      (s.ctx x).request = some (.make r) → r.waiting ≠ [] → (s.ctx x).inFlight = some v → (s.ctx x).site = some v →
      (s.ctx x).captured = none → ∃ t, exec (.blockWaitExpiry x) s = .next t ∧
        JudgedOrPosted s t x (invalidRecord s x stag 0 false .conflict) ∧
        (s.queue.records.length < 64 → (s.ctx x).endPending = none → (s.ctx x).sweep.status ≠ .running →
          (s.ctx x).queue = [] → (∀ y : Bus, y ≠ x → (s.ctx y).waitsFor = []) →
          ReleasesAfter s t x (s.tables.disps[dispNo 0 .invalid].action == .haltBus))

/-! ### Reading arithmetic -/

/-- The four stages of a sample and the overload override (R112 to R115): the product is exact and bounded; the quotient
has the magnitude and sign the formula gives, is the nearest integer with ties away from zero, and is symmetric in the
sign; the offset is added exactly before the one clamp, which alone sets the V mark; an overload takes the end that the
sign of the raw value names. A settling discard is not scaled and sets no flag. -/
def Obligations.SamplesFollowTheStages : Prop :=
  (∀ (e : ScaleEntry) (raw : BitVec 24),
    (raw.toInt * e.gain.toInt).natAbs ≤ 274877906944 ∧
    ((raw.toInt * e.gain.toInt).natAbs = 274877906944 ↔ raw.toInt = -8388608 ∧ e.gain.toInt = -32768) ∧
    (0 < raw.toInt → raw.toInt * e.gain.toInt ≤ 8388607 * 32767) ∧
    (sampleOf e raw.toInt false =
      let v := shiftRound (raw.toInt * e.gain.toInt) e.shift.val + e.offset.toInt
      (max (-2147483648) (min 2147483647 v), decide (v < -2147483648 ∨ 2147483647 < v))) ∧
    sampleOf e raw.toInt true = (if 0 ≤ raw.toInt then 2147483647 else -2147483648, true)) ∧
  (∀ (p : Int) (n : Nat),
    shiftRound p 0 = p ∧ shiftRound (-p) n = - shiftRound p n ∧
    (1 ≤ n → (shiftRound p n).natAbs = (p.natAbs + 2 ^ (n - 1)) / 2 ^ n) ∧
    (0 ≤ p → 0 ≤ shiftRound p n) ∧ (p ≤ 0 → shiftRound p n ≤ 0) ∧
    (2 * (shiftRound p n * 2 ^ n - p)).natAbs ≤ 2 ^ n ∧
    (1 ≤ n → (2 * (shiftRound p n * 2 ^ n - p)).natAbs = 2 ^ n → p.natAbs < (shiftRound p n).natAbs * 2 ^ n) ∧
    (2 * p.natAbs < 2 ^ n → shiftRound p n = 0)) ∧
  shiftRound 3 1 = 2 ∧ shiftRound (-3) 1 = -2 ∧ clamp (2147490000 + -10000) = (2147480000, false) ∧
  ∀ (s : State) (l : LaneId) (ch tt idx range : Byte) (raw : BitVec 24) (x : Bus) (stag : Half) (sel : Selection)
    (n : Net) (lim : Fin 256) (k d timeout : Nat) (hold : Bool), readingBus s l ch = some x →
    (s.ctx x).step = some ⟨stag, .measure sel n lim k d timeout hold⟩ → idx.toNat < d →
    OnlyCountsGood (.reading l ch tt idx range raw) s l

/-- The average of a take (R117) and its flags (R119, R120, R121): the nearest integer to the exact mean, ties away from
zero, with the sign of the sum, the same in any order of arrival and never outside the range of its samples; Z, N and V
come from the average and the marks, and the unit is that of index D (R118). -/
def Obligations.AveragesRoundToTheNearest : Prop :=
  (∀ acc : List Sample, acc ≠ [] →
    (average acc).natAbs = (2 * (sampleSum acc).natAbs + acc.length) / (2 * acc.length) ∧
    (0 ≤ sampleSum acc → 0 ≤ average acc) ∧ (sampleSum acc ≤ 0 → average acc ≤ 0) ∧
    (2 * (average acc * acc.length - sampleSum acc)).natAbs ≤ acc.length ∧
    ((2 * (average acc * acc.length - sampleSum acc)).natAbs = acc.length →
      (sampleSum acc).natAbs < (average acc).natAbs * acc.length ∧ acc.length % 2 = 0) ∧
    (∀ m, acc = [m] → average acc = m.value) ∧
    (∀ lo hi : Int, (∀ m ∈ acc, lo ≤ m.value ∧ m.value ≤ hi) → lo ≤ average acc ∧ average acc ≤ hi) ∧
    (∀ other : List Sample, other.Perm acc → average other = average acc) ∧
    ∀ worn : Bool, ¬ ((flagsOf (average acc) acc worn).z = true ∧ (flagsOf (average acc) acc worn).n = true) ∧
      ((flagsOf (average acc) acc worn).z = true ↔ average acc = 0) ∧
      ((flagsOf (average acc) acc worn).n = true ↔ average acc < 0) ∧
      ((flagsOf (average acc) acc worn).v = true ↔ ∃ m ∈ acc, m.v = true) ∧
      (flagsOf (average acc) acc worn).w = worn ∧ (flagsOf (average acc) acc worn).s = false) ∧
  (∀ (i j k : Nat) (a b c : Fin 16), average [⟨i, -1, false, a⟩, ⟨j, 0, false, b⟩, ⟨k, 0, false, c⟩] = 0) ∧
  ∀ (acc : List Sample) (d : Nat) (m : Sample), m ∈ acc → m.index = d → (∀ o ∈ acc, o.index = d → o = m) →
    unitOf acc d = m.unit

/-- The verdict of a value by the captured limit entry: the order of cases of R125 with its consequences for the bounds,
the guard band and overlapping zones, the one-sided modes of R126, mode RECORD (R127) and a value with V set (R128).
What a verdict does to the record of its site (R134): the state becomes the more severe of the two, by the map and the
order of R133; the judged count rises by one and the fail count for FAIL_LOW and FAIL_HIGH alone, both up to 65,535; the
first non-zero bin stands; SKIP_SITE sets the skip mark, and nothing clears it. Two judgements give the same record in
either order, but for the first bin, which is the bin of the one taken first where that is not 0. -/
def Obligations.ValuesAreJudgedByTheirLimits : Prop :=
  (∀ (e : LimitEntry) (v : Int),
    (e.mode = .both →
      (v < e.low.toInt → verdictOf e v false = .failLow) ∧
      (e.low.toInt ≤ v → e.high.toInt < v → verdictOf e v false = .failHigh) ∧
      (e.low.toInt ≤ v → v ≤ e.high.toInt →
        (v < e.low.toInt + e.guardBand ∨ e.high.toInt - e.guardBand < v → verdictOf e v false = .marginal) ∧
        (e.low.toInt + e.guardBand ≤ v → v ≤ e.high.toInt - e.guardBand → verdictOf e v false = .pass) ∧
        (e.guardBand = 0 → verdictOf e v false = .pass) ∧
        (0 < e.guardBand → v = e.low.toInt ∨ v = e.high.toInt → verdictOf e v false = .marginal) ∧
        (e.high.toInt - e.guardBand < e.low.toInt + e.guardBand → verdictOf e v false = .marginal))) ∧
    (e.mode = .lowOnly →
      (v < e.low.toInt → verdictOf e v false = .failLow) ∧
      (e.low.toInt ≤ v → v < e.low.toInt + e.guardBand → verdictOf e v false = .marginal) ∧
      (e.low.toInt + e.guardBand ≤ v → verdictOf e v false = .pass)) ∧
    (e.mode = .highOnly →
      (e.high.toInt < v → verdictOf e v false = .failHigh) ∧
      (v ≤ e.high.toInt → e.high.toInt - e.guardBand < v → verdictOf e v false = .marginal) ∧
      (v ≤ e.high.toInt - e.guardBand → verdictOf e v false = .pass)) ∧
    (e.mode = .record → ∀ flag : Bool, verdictOf e v flag = .pass) ∧
    (e.mode ≠ .record → (0 ≤ v → verdictOf e v true = .failHigh) ∧ (v < 0 → verdictOf e v true = .failLow))) ∧
  (SiteState.untested.severity < SiteState.passing.severity ∧ SiteState.passing.severity < SiteState.marginal.severity ∧
    SiteState.marginal.severity < SiteState.incomplete.severity ∧
    SiteState.incomplete.severity < SiteState.failed.severity) ∧
  Verdict.pass.siteState = .passing ∧ Verdict.marginal.siteState = .marginal ∧ Verdict.failLow.siteState = .failed ∧
  Verdict.failHigh.siteState = .failed ∧ Verdict.invalid.siteState = .incomplete ∧
  (∀ (r : SiteVerdict) (v : Verdict) (d : DispEntry),
    (r.judge v d).state.severity = max r.state.severity v.siteState.severity ∧
    ((r.judge v d).state = r.state ∨ (r.judge v d).state = v.siteState) ∧
    (r.judged < 65535 → (r.judge v d).judged = r.judged + 1) ∧ (r.judged = 65535 → (r.judge v d).judged = 65535) ∧
    (v = .failLow ∨ v = .failHigh → (r.fails < 65535 → (r.judge v d).fails = r.fails + 1) ∧
      (r.fails = 65535 → (r.judge v d).fails = 65535)) ∧
    (v = .pass ∨ v = .marginal ∨ v = .invalid → (r.judge v d).fails = r.fails) ∧
    (r.firstBin = 0 → (r.judge v d).firstBin = d.bin) ∧ (r.firstBin ≠ 0 → (r.judge v d).firstBin = r.firstBin) ∧
    ((r.judge v d).skip = true ↔ r.skip = true ∨ d.action = .skipSite)) ∧
  ∀ (r : SiteVerdict) (v w : Verdict) (d e : DispEntry),
    (r.judge v d).judge w e = { (r.judge w e).judge v d with firstBin := ((r.judge v d).judge w e).firstBin } ∧
    (r.firstBin = 0 → d.bin ≠ 0 → ((r.judge v d).judge w e).firstBin = d.bin) ∧
    (r.firstBin = 0 → d.bin = 0 → ((r.judge v d).judge w e).firstBin = e.bin)

/-! ### Laws of every step -/

/-- Every step keeps the law of the tables: no two enabled sites share a cell or a block (R7), no two enabled buses a
lane and channel (R43), no two cards a lane (R37). It keeps the context of every disabled bus at rest (R44, R64), and every
sweep's window in order with the cursor in it (R64, R92). -/
def Obligations.TablesStayLawful : Prop :=
  ∀ s t : State, step s = .next t →
    (TablesLawful s → TablesLawful t) ∧ (DisabledAtRest s → DisabledAtRest t) ∧ (WalksLawful s → WalksLawful t)

/-- Every step keeps the result queue at 64 records or fewer and compact from 48 on (R142, R147), and the response list
at 32 or fewer (R188). -/
def Obligations.QueuesStayBounded : Prop :=
  ∀ s t : State, QueueLawful s → s.trunk.responses.length ≤ 32 → step s = .next t →
    QueueLawful t ∧ t.trunk.responses.length ≤ 32

/-- Every step keeps the matrix lawful: the crosspoint list in its canonical form, every wear count in its range (R36),
only recovery and emergency opens in the priority parts (R22), and every order counter one past the tag of the pending
order (R21). With lawful tables it keeps the law that no point is claimed by two buses (R19). -/
def Obligations.MatrixStaysLawful : Prop :=
  ∀ s t : State, Sparse.wf s.matrix.xps = true → WearLawful s → OpensFirst s → TagsFollow s → step s = .next t →
    Sparse.wf t.matrix.xps = true ∧ WearLawful t ∧ OpensFirst t ∧ TagsFollow t ∧
    (TablesLawful s → ClaimsLawful s → ClaimsLawful t)

/-- The laws hold after power reset. -/
def Obligations.ResetIsLawful : Prop :=
  TablesLawful State.reset ∧ QueueLawful State.reset ∧ State.reset.trunk.responses.length ≤ 32 ∧
    Sparse.wf State.reset.matrix.xps = true ∧ WearLawful State.reset ∧ OpensFirst State.reset ∧ TagsFollow State.reset ∧
    DisabledAtRest State.reset ∧ Quiesced State.reset ∧ ClaimsLawful State.reset ∧
    WalksLawful State.reset

/-- While the rack is SAFE, and for a bus whose trip flag is set, no command sends a close or a LIVE: a LIVE goes out only
for the enabled SOURCE bus that its lane and channel name, and that bus is not tripped (R29, R49, R50). A make order goes
out for a SOURCE bus only while its record is QUIET: the record is QUIET after the command, or its LIVE went out after
the order (R29). -/
def Obligations.NothingClosesInSafe : Prop :=
  ∀ (c : Instr) (s t : State), TablesLawful s → OpensFirst s → DisabledAtRest s → exec c s = .next t →
    (∀ e ∈ t.out, Permitted t e) ∧
    ∀ l tag x cols before later, t.out = before ++ (l, .order tag true x cols) :: later → (t.busEntry x).kind = .source →
      (t.ctx x).source = .quiet ∨ ((t.busEntry x).lane, .live (t.busEntry x).channel) ∈ later

/-- The stores move only by their own commands, power reset apart: the tables by TABLE WRITE; a wear count up by a DONE
alone, and otherwise by a WEAR write alone (R36); the panel number, and a site verdict record back, by PANEL BEGIN alone
(R133 to R135), and a site verdict record onward by judgements alone (R134). -/
def Obligations.StoresMoveOnlyByTheirCommands : Prop :=
  ∀ (c : Instr) (s t : State), exec c s = .next t → c ≠ .powerReset →
    (c.tableWrite = none → t.tables = s.tables) ∧
    (WearLawful s → (∀ tag p pos, c ≠ .tableWriteWear tag p pos) →
      ∀ (x : Bus) (p : Pt), (s.xp x p).wear ≤ (t.xp x p).wear) ∧
    (∀ (x : Bus) (p : Pt), (t.xp x p).wear ≠ (s.xp x p).wear →
      (∃ l tag, c = .done l tag) ∨ ∃ tag p pos, c = .tableWriteWear tag p pos) ∧
    ((∀ tag p, c ≠ .panelBegin tag p) →
      t.panel.number = s.panel.number ∧ ∀ u : Site, (s.verdict u).Onward (t.verdict u) ∧
        ∃ js : List (Fin 16 × Verdict), t.verdict u =
          js.foldl (fun a j => a.judge j.2 s.tables.disps[dispNo j.1 j.2]) (s.verdict u))

/-- The rack state moves only as the table of R157 gives, a trip flag is cleared only by CLEAR TRIP, RACK RESET and power
reset (R45, R57), and a lane's record moves only by that lane's own events, a LANE command that names it, the timeout of
a recovery open on its card, and power reset (R170). -/
def Obligations.GuardAndLanesMoveOnlyByTheirEvents : Prop :=
  ∀ (c : Instr) (s t : State), exec c s = .next t →
    (t.guard.rack ≠ s.guard.rack →
      (c = .powerReset ∧ t.guard.rack = .safe .startup) ∨ (c = .lidOpens ∧ t.guard.rack = .safe .interlock) ∨
      (∃ tag, c = .rackReset tag [] ∧ t.guard.rack = .safe .reset) ∨
      (∃ tag, c = .resume tag [] ∧ s.isSafe = true ∧ s.guard.interlock = .clear ∧ t.guard.rack = .ready) ∨
      (∃ tag, c = .serviceEnter tag [] ∧ s.guard.rack = .ready ∧ t.guard.rack = .service) ∨
      (∃ tag, c = .serviceExit tag [] ∧ s.guard.rack = .service ∧ t.guard.rack = .ready)) ∧
    (∀ x : Bus, s.tripped x = true → t.tripped x = false →
      c = .powerReset ∨ (∃ tag, c = .rackReset tag []) ∨ ∃ tag, c = .clearTrip tag [byte x.val]) ∧
    ∀ l : LaneId, t.lane l ≠ s.lane l →
      c = .powerReset ∨ c.laneOf = some l ∨ c.laneNamed = some l ∨
        ∃ d, c = .orderTimeout d ∧ (s.cardEntry d).lane = some l
end

