-- ==== Sys2Proof/Laws/State.lean ====
section
/-! SUPPORT. What each update of the state leaves: one lemma for each field and update, true by rfl. -/

namespace Sys2Proof.Machine

/-! ### begin -/

@[simp] theorem State.begin_trunk (s : State) : s.begin.trunk = s.trunk := rfl
@[simp] theorem State.begin_tables (s : State) : s.begin.tables = s.tables := rfl
@[simp] theorem State.begin_matrix (s : State) : s.begin.matrix = s.matrix := rfl
@[simp] theorem State.begin_ctxs (s : State) : s.begin.ctxs = s.ctxs := rfl
@[simp] theorem State.begin_queue (s : State) : s.begin.queue = s.queue := rfl
@[simp] theorem State.begin_guard (s : State) : s.begin.guard = s.guard := rfl
@[simp] theorem State.begin_panel (s : State) : s.begin.panel = s.panel := rfl
@[simp] theorem State.begin_lanes (s : State) : s.begin.lanes = s.lanes := rfl
@[simp] theorem State.begin_markHigh (s : State) : s.begin.markHigh = s.markHigh := rfl
@[simp] theorem State.begin_matrixWork (s : State) : s.begin.matrixWork = s.matrixWork := rfl
@[simp] theorem State.begin_mail (s : State) : s.begin.mail = s.mail := rfl
@[simp] theorem State.begin_freeCount (s : State) : s.begin.freeCount = s.freeCount := rfl
@[simp] theorem State.begin_pending (s : State) : s.begin.pending = s.pending := rfl

/-! ### setCtx -/

@[simp] theorem State.setCtx_trunk (s : State) (x : Bus) (c : Ctx) : (s.setCtx x c).trunk = s.trunk := rfl
@[simp] theorem State.setCtx_tables (s : State) (x : Bus) (c : Ctx) : (s.setCtx x c).tables = s.tables := rfl
@[simp] theorem State.setCtx_matrix (s : State) (x : Bus) (c : Ctx) : (s.setCtx x c).matrix = s.matrix := rfl
@[simp] theorem State.setCtx_queue (s : State) (x : Bus) (c : Ctx) : (s.setCtx x c).queue = s.queue := rfl
@[simp] theorem State.setCtx_guard (s : State) (x : Bus) (c : Ctx) : (s.setCtx x c).guard = s.guard := rfl
@[simp] theorem State.setCtx_panel (s : State) (x : Bus) (c : Ctx) : (s.setCtx x c).panel = s.panel := rfl
@[simp] theorem State.setCtx_lanes (s : State) (x : Bus) (c : Ctx) : (s.setCtx x c).lanes = s.lanes := rfl
@[simp] theorem State.setCtx_markHigh (s : State) (x : Bus) (c : Ctx) : (s.setCtx x c).markHigh = s.markHigh := rfl
@[simp] theorem State.setCtx_out (s : State) (x : Bus) (c : Ctx) : (s.setCtx x c).out = s.out := rfl
@[simp] theorem State.setCtx_matrixWork (s : State) (x : Bus) (c : Ctx) : (s.setCtx x c).matrixWork = s.matrixWork := rfl
@[simp] theorem State.setCtx_mail (s : State) (x : Bus) (c : Ctx) : (s.setCtx x c).mail = s.mail := rfl
@[simp] theorem State.setCtx_freeCount (s : State) (x : Bus) (c : Ctx) : (s.setCtx x c).freeCount = s.freeCount := rfl
@[simp] theorem State.setCtx_pending (s : State) (x : Bus) (c : Ctx) : (s.setCtx x c).pending = s.pending := rfl

/-! ### modCtx -/

@[simp] theorem State.modCtx_trunk (s : State) (x : Bus) (f : Ctx → Ctx) : (s.modCtx x f).trunk = s.trunk := rfl
@[simp] theorem State.modCtx_tables (s : State) (x : Bus) (f : Ctx → Ctx) : (s.modCtx x f).tables = s.tables := rfl
@[simp] theorem State.modCtx_matrix (s : State) (x : Bus) (f : Ctx → Ctx) : (s.modCtx x f).matrix = s.matrix := rfl
@[simp] theorem State.modCtx_queue (s : State) (x : Bus) (f : Ctx → Ctx) : (s.modCtx x f).queue = s.queue := rfl
@[simp] theorem State.modCtx_guard (s : State) (x : Bus) (f : Ctx → Ctx) : (s.modCtx x f).guard = s.guard := rfl
@[simp] theorem State.modCtx_panel (s : State) (x : Bus) (f : Ctx → Ctx) : (s.modCtx x f).panel = s.panel := rfl
@[simp] theorem State.modCtx_lanes (s : State) (x : Bus) (f : Ctx → Ctx) : (s.modCtx x f).lanes = s.lanes := rfl
@[simp] theorem State.modCtx_markHigh (s : State) (x : Bus) (f : Ctx → Ctx) : (s.modCtx x f).markHigh = s.markHigh := rfl
@[simp] theorem State.modCtx_out (s : State) (x : Bus) (f : Ctx → Ctx) : (s.modCtx x f).out = s.out := rfl
@[simp] theorem State.modCtx_matrixWork (s : State) (x : Bus) (f : Ctx → Ctx) : (s.modCtx x f).matrixWork = s.matrixWork := rfl
@[simp] theorem State.modCtx_mail (s : State) (x : Bus) (f : Ctx → Ctx) : (s.modCtx x f).mail = s.mail := rfl
@[simp] theorem State.modCtx_freeCount (s : State) (x : Bus) (f : Ctx → Ctx) : (s.modCtx x f).freeCount = s.freeCount := rfl
@[simp] theorem State.modCtx_pending (s : State) (x : Bus) (f : Ctx → Ctx) : (s.modCtx x f).pending = s.pending := rfl

/-! ### setLane -/

@[simp] theorem State.setLane_trunk (s : State) (l : LaneId) (k : Lane) : (s.setLane l k).trunk = s.trunk := rfl
@[simp] theorem State.setLane_tables (s : State) (l : LaneId) (k : Lane) : (s.setLane l k).tables = s.tables := rfl
@[simp] theorem State.setLane_matrix (s : State) (l : LaneId) (k : Lane) : (s.setLane l k).matrix = s.matrix := rfl
@[simp] theorem State.setLane_ctxs (s : State) (l : LaneId) (k : Lane) : (s.setLane l k).ctxs = s.ctxs := rfl
@[simp] theorem State.setLane_queue (s : State) (l : LaneId) (k : Lane) : (s.setLane l k).queue = s.queue := rfl
@[simp] theorem State.setLane_guard (s : State) (l : LaneId) (k : Lane) : (s.setLane l k).guard = s.guard := rfl
@[simp] theorem State.setLane_panel (s : State) (l : LaneId) (k : Lane) : (s.setLane l k).panel = s.panel := rfl
@[simp] theorem State.setLane_markHigh (s : State) (l : LaneId) (k : Lane) : (s.setLane l k).markHigh = s.markHigh := rfl
@[simp] theorem State.setLane_out (s : State) (l : LaneId) (k : Lane) : (s.setLane l k).out = s.out := rfl
@[simp] theorem State.setLane_matrixWork (s : State) (l : LaneId) (k : Lane) : (s.setLane l k).matrixWork = s.matrixWork := rfl
@[simp] theorem State.setLane_mail (s : State) (l : LaneId) (k : Lane) : (s.setLane l k).mail = s.mail := rfl
@[simp] theorem State.setLane_freeCount (s : State) (l : LaneId) (k : Lane) : (s.setLane l k).freeCount = s.freeCount := rfl
@[simp] theorem State.setLane_pending (s : State) (l : LaneId) (k : Lane) : (s.setLane l k).pending = s.pending := rfl

/-! ### modLane -/

@[simp] theorem State.modLane_trunk (s : State) (l : LaneId) (f : Lane → Lane) : (s.modLane l f).trunk = s.trunk := rfl
@[simp] theorem State.modLane_tables (s : State) (l : LaneId) (f : Lane → Lane) : (s.modLane l f).tables = s.tables := rfl
@[simp] theorem State.modLane_matrix (s : State) (l : LaneId) (f : Lane → Lane) : (s.modLane l f).matrix = s.matrix := rfl
@[simp] theorem State.modLane_ctxs (s : State) (l : LaneId) (f : Lane → Lane) : (s.modLane l f).ctxs = s.ctxs := rfl
@[simp] theorem State.modLane_queue (s : State) (l : LaneId) (f : Lane → Lane) : (s.modLane l f).queue = s.queue := rfl
@[simp] theorem State.modLane_guard (s : State) (l : LaneId) (f : Lane → Lane) : (s.modLane l f).guard = s.guard := rfl
@[simp] theorem State.modLane_panel (s : State) (l : LaneId) (f : Lane → Lane) : (s.modLane l f).panel = s.panel := rfl
@[simp] theorem State.modLane_markHigh (s : State) (l : LaneId) (f : Lane → Lane) : (s.modLane l f).markHigh = s.markHigh := rfl
@[simp] theorem State.modLane_out (s : State) (l : LaneId) (f : Lane → Lane) : (s.modLane l f).out = s.out := rfl
@[simp] theorem State.modLane_matrixWork (s : State) (l : LaneId) (f : Lane → Lane) : (s.modLane l f).matrixWork = s.matrixWork := rfl
@[simp] theorem State.modLane_mail (s : State) (l : LaneId) (f : Lane → Lane) : (s.modLane l f).mail = s.mail := rfl
@[simp] theorem State.modLane_freeCount (s : State) (l : LaneId) (f : Lane → Lane) : (s.modLane l f).freeCount = s.freeCount := rfl
@[simp] theorem State.modLane_pending (s : State) (l : LaneId) (f : Lane → Lane) : (s.modLane l f).pending = s.pending := rfl

/-! ### setCard -/

@[simp] theorem State.setCard_trunk (s : State) (c : CardId) (k : CardCtl) : (s.setCard c k).trunk = s.trunk := rfl
@[simp] theorem State.setCard_tables (s : State) (c : CardId) (k : CardCtl) : (s.setCard c k).tables = s.tables := rfl
@[simp] theorem State.setCard_ctxs (s : State) (c : CardId) (k : CardCtl) : (s.setCard c k).ctxs = s.ctxs := rfl
@[simp] theorem State.setCard_queue (s : State) (c : CardId) (k : CardCtl) : (s.setCard c k).queue = s.queue := rfl
@[simp] theorem State.setCard_guard (s : State) (c : CardId) (k : CardCtl) : (s.setCard c k).guard = s.guard := rfl
@[simp] theorem State.setCard_panel (s : State) (c : CardId) (k : CardCtl) : (s.setCard c k).panel = s.panel := rfl
@[simp] theorem State.setCard_lanes (s : State) (c : CardId) (k : CardCtl) : (s.setCard c k).lanes = s.lanes := rfl
@[simp] theorem State.setCard_markHigh (s : State) (c : CardId) (k : CardCtl) : (s.setCard c k).markHigh = s.markHigh := rfl
@[simp] theorem State.setCard_out (s : State) (c : CardId) (k : CardCtl) : (s.setCard c k).out = s.out := rfl
@[simp] theorem State.setCard_matrixWork (s : State) (c : CardId) (k : CardCtl) : (s.setCard c k).matrixWork = s.matrixWork := rfl
@[simp] theorem State.setCard_mail (s : State) (c : CardId) (k : CardCtl) : (s.setCard c k).mail = s.mail := rfl
@[simp] theorem State.setCard_freeCount (s : State) (c : CardId) (k : CardCtl) : (s.setCard c k).freeCount = s.freeCount := rfl
@[simp] theorem State.setCard_pending (s : State) (c : CardId) (k : CardCtl) : (s.setCard c k).pending = s.pending := rfl

/-! ### setXp -/

@[simp] theorem State.setXp_trunk (s : State) (x : Bus) (p : Pt) (r : XRec) : (s.setXp x p r).trunk = s.trunk := rfl
@[simp] theorem State.setXp_tables (s : State) (x : Bus) (p : Pt) (r : XRec) : (s.setXp x p r).tables = s.tables := rfl
@[simp] theorem State.setXp_ctxs (s : State) (x : Bus) (p : Pt) (r : XRec) : (s.setXp x p r).ctxs = s.ctxs := rfl
@[simp] theorem State.setXp_queue (s : State) (x : Bus) (p : Pt) (r : XRec) : (s.setXp x p r).queue = s.queue := rfl
@[simp] theorem State.setXp_guard (s : State) (x : Bus) (p : Pt) (r : XRec) : (s.setXp x p r).guard = s.guard := rfl
@[simp] theorem State.setXp_panel (s : State) (x : Bus) (p : Pt) (r : XRec) : (s.setXp x p r).panel = s.panel := rfl
@[simp] theorem State.setXp_lanes (s : State) (x : Bus) (p : Pt) (r : XRec) : (s.setXp x p r).lanes = s.lanes := rfl
@[simp] theorem State.setXp_markHigh (s : State) (x : Bus) (p : Pt) (r : XRec) : (s.setXp x p r).markHigh = s.markHigh := rfl
@[simp] theorem State.setXp_out (s : State) (x : Bus) (p : Pt) (r : XRec) : (s.setXp x p r).out = s.out := rfl
@[simp] theorem State.setXp_matrixWork (s : State) (x : Bus) (p : Pt) (r : XRec) : (s.setXp x p r).matrixWork = s.matrixWork := rfl
@[simp] theorem State.setXp_mail (s : State) (x : Bus) (p : Pt) (r : XRec) : (s.setXp x p r).mail = s.mail := rfl
@[simp] theorem State.setXp_freeCount (s : State) (x : Bus) (p : Pt) (r : XRec) : (s.setXp x p r).freeCount = s.freeCount := rfl
@[simp] theorem State.setXp_pending (s : State) (x : Bus) (p : Pt) (r : XRec) : (s.setXp x p r).pending = s.pending := rfl

/-! ### setTripped -/

@[simp] theorem State.setTripped_trunk (s : State) (x : Bus) (b : Bool) : (s.setTripped x b).trunk = s.trunk := rfl
@[simp] theorem State.setTripped_tables (s : State) (x : Bus) (b : Bool) : (s.setTripped x b).tables = s.tables := rfl
@[simp] theorem State.setTripped_matrix (s : State) (x : Bus) (b : Bool) : (s.setTripped x b).matrix = s.matrix := rfl
@[simp] theorem State.setTripped_ctxs (s : State) (x : Bus) (b : Bool) : (s.setTripped x b).ctxs = s.ctxs := rfl
@[simp] theorem State.setTripped_queue (s : State) (x : Bus) (b : Bool) : (s.setTripped x b).queue = s.queue := rfl
@[simp] theorem State.setTripped_panel (s : State) (x : Bus) (b : Bool) : (s.setTripped x b).panel = s.panel := rfl
@[simp] theorem State.setTripped_lanes (s : State) (x : Bus) (b : Bool) : (s.setTripped x b).lanes = s.lanes := rfl
@[simp] theorem State.setTripped_markHigh (s : State) (x : Bus) (b : Bool) : (s.setTripped x b).markHigh = s.markHigh := rfl
@[simp] theorem State.setTripped_out (s : State) (x : Bus) (b : Bool) : (s.setTripped x b).out = s.out := rfl
@[simp] theorem State.setTripped_matrixWork (s : State) (x : Bus) (b : Bool) : (s.setTripped x b).matrixWork = s.matrixWork := rfl
@[simp] theorem State.setTripped_mail (s : State) (x : Bus) (b : Bool) : (s.setTripped x b).mail = s.mail := rfl
@[simp] theorem State.setTripped_freeCount (s : State) (x : Bus) (b : Bool) : (s.setTripped x b).freeCount = s.freeCount := rfl
@[simp] theorem State.setTripped_pending (s : State) (x : Bus) (b : Bool) : (s.setTripped x b).pending = s.pending := rfl

/-! ### setSupply -/

@[simp] theorem State.setSupply_trunk (s : State) (t : Site) (b : Bool) : (s.setSupply t b).trunk = s.trunk := rfl
@[simp] theorem State.setSupply_tables (s : State) (t : Site) (b : Bool) : (s.setSupply t b).tables = s.tables := rfl
@[simp] theorem State.setSupply_matrix (s : State) (t : Site) (b : Bool) : (s.setSupply t b).matrix = s.matrix := rfl
@[simp] theorem State.setSupply_ctxs (s : State) (t : Site) (b : Bool) : (s.setSupply t b).ctxs = s.ctxs := rfl
@[simp] theorem State.setSupply_queue (s : State) (t : Site) (b : Bool) : (s.setSupply t b).queue = s.queue := rfl
@[simp] theorem State.setSupply_panel (s : State) (t : Site) (b : Bool) : (s.setSupply t b).panel = s.panel := rfl
@[simp] theorem State.setSupply_lanes (s : State) (t : Site) (b : Bool) : (s.setSupply t b).lanes = s.lanes := rfl
@[simp] theorem State.setSupply_markHigh (s : State) (t : Site) (b : Bool) : (s.setSupply t b).markHigh = s.markHigh := rfl
@[simp] theorem State.setSupply_out (s : State) (t : Site) (b : Bool) : (s.setSupply t b).out = s.out := rfl
@[simp] theorem State.setSupply_matrixWork (s : State) (t : Site) (b : Bool) : (s.setSupply t b).matrixWork = s.matrixWork := rfl
@[simp] theorem State.setSupply_mail (s : State) (t : Site) (b : Bool) : (s.setSupply t b).mail = s.mail := rfl
@[simp] theorem State.setSupply_freeCount (s : State) (t : Site) (b : Bool) : (s.setSupply t b).freeCount = s.freeCount := rfl
@[simp] theorem State.setSupply_pending (s : State) (t : Site) (b : Bool) : (s.setSupply t b).pending = s.pending := rfl

/-! ### setPresence -/

@[simp] theorem State.setPresence_trunk (s : State) (b : Block) (v : Presence) : (s.setPresence b v).trunk = s.trunk := rfl
@[simp] theorem State.setPresence_tables (s : State) (b : Block) (v : Presence) : (s.setPresence b v).tables = s.tables := rfl
@[simp] theorem State.setPresence_matrix (s : State) (b : Block) (v : Presence) : (s.setPresence b v).matrix = s.matrix := rfl
@[simp] theorem State.setPresence_ctxs (s : State) (b : Block) (v : Presence) : (s.setPresence b v).ctxs = s.ctxs := rfl
@[simp] theorem State.setPresence_queue (s : State) (b : Block) (v : Presence) : (s.setPresence b v).queue = s.queue := rfl
@[simp] theorem State.setPresence_panel (s : State) (b : Block) (v : Presence) : (s.setPresence b v).panel = s.panel := rfl
@[simp] theorem State.setPresence_lanes (s : State) (b : Block) (v : Presence) : (s.setPresence b v).lanes = s.lanes := rfl
@[simp] theorem State.setPresence_markHigh (s : State) (b : Block) (v : Presence) : (s.setPresence b v).markHigh = s.markHigh := rfl
@[simp] theorem State.setPresence_out (s : State) (b : Block) (v : Presence) : (s.setPresence b v).out = s.out := rfl
@[simp] theorem State.setPresence_matrixWork (s : State) (b : Block) (v : Presence) : (s.setPresence b v).matrixWork = s.matrixWork := rfl
@[simp] theorem State.setPresence_mail (s : State) (b : Block) (v : Presence) : (s.setPresence b v).mail = s.mail := rfl
@[simp] theorem State.setPresence_freeCount (s : State) (b : Block) (v : Presence) : (s.setPresence b v).freeCount = s.freeCount := rfl
@[simp] theorem State.setPresence_pending (s : State) (b : Block) (v : Presence) : (s.setPresence b v).pending = s.pending := rfl

/-! ### setVerdict -/

@[simp] theorem State.setVerdict_trunk (s : State) (t : Site) (v : SiteVerdict) : (s.setVerdict t v).trunk = s.trunk := rfl
@[simp] theorem State.setVerdict_tables (s : State) (t : Site) (v : SiteVerdict) : (s.setVerdict t v).tables = s.tables := rfl
@[simp] theorem State.setVerdict_matrix (s : State) (t : Site) (v : SiteVerdict) : (s.setVerdict t v).matrix = s.matrix := rfl
@[simp] theorem State.setVerdict_ctxs (s : State) (t : Site) (v : SiteVerdict) : (s.setVerdict t v).ctxs = s.ctxs := rfl
@[simp] theorem State.setVerdict_queue (s : State) (t : Site) (v : SiteVerdict) : (s.setVerdict t v).queue = s.queue := rfl
@[simp] theorem State.setVerdict_guard (s : State) (t : Site) (v : SiteVerdict) : (s.setVerdict t v).guard = s.guard := rfl
@[simp] theorem State.setVerdict_lanes (s : State) (t : Site) (v : SiteVerdict) : (s.setVerdict t v).lanes = s.lanes := rfl
@[simp] theorem State.setVerdict_markHigh (s : State) (t : Site) (v : SiteVerdict) : (s.setVerdict t v).markHigh = s.markHigh := rfl
@[simp] theorem State.setVerdict_out (s : State) (t : Site) (v : SiteVerdict) : (s.setVerdict t v).out = s.out := rfl
@[simp] theorem State.setVerdict_matrixWork (s : State) (t : Site) (v : SiteVerdict) : (s.setVerdict t v).matrixWork = s.matrixWork := rfl
@[simp] theorem State.setVerdict_mail (s : State) (t : Site) (v : SiteVerdict) : (s.setVerdict t v).mail = s.mail := rfl
@[simp] theorem State.setVerdict_freeCount (s : State) (t : Site) (v : SiteVerdict) : (s.setVerdict t v).freeCount = s.freeCount := rfl
@[simp] theorem State.setVerdict_pending (s : State) (t : Site) (v : SiteVerdict) : (s.setVerdict t v).pending = s.pending := rfl

/-! ### emit -/

@[simp] theorem State.emit_trunk (s : State) (l : LaneId) (f : LaneFrame) : (s.emit l f).trunk = s.trunk := rfl
@[simp] theorem State.emit_tables (s : State) (l : LaneId) (f : LaneFrame) : (s.emit l f).tables = s.tables := rfl
@[simp] theorem State.emit_matrix (s : State) (l : LaneId) (f : LaneFrame) : (s.emit l f).matrix = s.matrix := rfl
@[simp] theorem State.emit_ctxs (s : State) (l : LaneId) (f : LaneFrame) : (s.emit l f).ctxs = s.ctxs := rfl
@[simp] theorem State.emit_queue (s : State) (l : LaneId) (f : LaneFrame) : (s.emit l f).queue = s.queue := rfl
@[simp] theorem State.emit_guard (s : State) (l : LaneId) (f : LaneFrame) : (s.emit l f).guard = s.guard := rfl
@[simp] theorem State.emit_panel (s : State) (l : LaneId) (f : LaneFrame) : (s.emit l f).panel = s.panel := rfl
@[simp] theorem State.emit_lanes (s : State) (l : LaneId) (f : LaneFrame) : (s.emit l f).lanes = s.lanes := rfl
@[simp] theorem State.emit_markHigh (s : State) (l : LaneId) (f : LaneFrame) : (s.emit l f).markHigh = s.markHigh := rfl
@[simp] theorem State.emit_matrixWork (s : State) (l : LaneId) (f : LaneFrame) : (s.emit l f).matrixWork = s.matrixWork := rfl
@[simp] theorem State.emit_mail (s : State) (l : LaneId) (f : LaneFrame) : (s.emit l f).mail = s.mail := rfl
@[simp] theorem State.emit_freeCount (s : State) (l : LaneId) (f : LaneFrame) : (s.emit l f).freeCount = s.freeCount := rfl
@[simp] theorem State.emit_pending (s : State) (l : LaneId) (f : LaneFrame) : (s.emit l f).pending = s.pending := rfl

/-! ### post -/

@[simp] theorem State.post_trunk (s : State) (m : Mail) : (s.post m).trunk = s.trunk := rfl
@[simp] theorem State.post_tables (s : State) (m : Mail) : (s.post m).tables = s.tables := rfl
@[simp] theorem State.post_matrix (s : State) (m : Mail) : (s.post m).matrix = s.matrix := rfl
@[simp] theorem State.post_ctxs (s : State) (m : Mail) : (s.post m).ctxs = s.ctxs := rfl
@[simp] theorem State.post_queue (s : State) (m : Mail) : (s.post m).queue = s.queue := rfl
@[simp] theorem State.post_guard (s : State) (m : Mail) : (s.post m).guard = s.guard := rfl
@[simp] theorem State.post_panel (s : State) (m : Mail) : (s.post m).panel = s.panel := rfl
@[simp] theorem State.post_lanes (s : State) (m : Mail) : (s.post m).lanes = s.lanes := rfl
@[simp] theorem State.post_markHigh (s : State) (m : Mail) : (s.post m).markHigh = s.markHigh := rfl
@[simp] theorem State.post_out (s : State) (m : Mail) : (s.post m).out = s.out := rfl
@[simp] theorem State.post_matrixWork (s : State) (m : Mail) : (s.post m).matrixWork = s.matrixWork := rfl
@[simp] theorem State.post_freeCount (s : State) (m : Mail) : (s.post m).freeCount = s.freeCount := rfl
@[simp] theorem State.post_pending (s : State) (m : Mail) : (s.post m).pending = s.pending := rfl

/-! ### pushWork -/

@[simp] theorem State.pushWork_trunk (s : State) (w : List MatrixWork) : (s.pushWork w).trunk = s.trunk := rfl
@[simp] theorem State.pushWork_tables (s : State) (w : List MatrixWork) : (s.pushWork w).tables = s.tables := rfl
@[simp] theorem State.pushWork_matrix (s : State) (w : List MatrixWork) : (s.pushWork w).matrix = s.matrix := rfl
@[simp] theorem State.pushWork_ctxs (s : State) (w : List MatrixWork) : (s.pushWork w).ctxs = s.ctxs := rfl
@[simp] theorem State.pushWork_queue (s : State) (w : List MatrixWork) : (s.pushWork w).queue = s.queue := rfl
@[simp] theorem State.pushWork_guard (s : State) (w : List MatrixWork) : (s.pushWork w).guard = s.guard := rfl
@[simp] theorem State.pushWork_panel (s : State) (w : List MatrixWork) : (s.pushWork w).panel = s.panel := rfl
@[simp] theorem State.pushWork_lanes (s : State) (w : List MatrixWork) : (s.pushWork w).lanes = s.lanes := rfl
@[simp] theorem State.pushWork_markHigh (s : State) (w : List MatrixWork) : (s.pushWork w).markHigh = s.markHigh := rfl
@[simp] theorem State.pushWork_out (s : State) (w : List MatrixWork) : (s.pushWork w).out = s.out := rfl
@[simp] theorem State.pushWork_mail (s : State) (w : List MatrixWork) : (s.pushWork w).mail = s.mail := rfl
@[simp] theorem State.pushWork_freeCount (s : State) (w : List MatrixWork) : (s.pushWork w).freeCount = s.freeCount := rfl
@[simp] theorem State.pushWork_pending (s : State) (w : List MatrixWork) : (s.pushWork w).pending = s.pending := rfl

/-! ### raise -/

@[simp] theorem State.raise_tables (s : State) (c : AttnClass) : (s.raise c).tables = s.tables := rfl
@[simp] theorem State.raise_matrix (s : State) (c : AttnClass) : (s.raise c).matrix = s.matrix := rfl
@[simp] theorem State.raise_ctxs (s : State) (c : AttnClass) : (s.raise c).ctxs = s.ctxs := rfl
@[simp] theorem State.raise_queue (s : State) (c : AttnClass) : (s.raise c).queue = s.queue := rfl
@[simp] theorem State.raise_guard (s : State) (c : AttnClass) : (s.raise c).guard = s.guard := rfl
@[simp] theorem State.raise_panel (s : State) (c : AttnClass) : (s.raise c).panel = s.panel := rfl
@[simp] theorem State.raise_lanes (s : State) (c : AttnClass) : (s.raise c).lanes = s.lanes := rfl
@[simp] theorem State.raise_markHigh (s : State) (c : AttnClass) : (s.raise c).markHigh = s.markHigh := rfl
@[simp] theorem State.raise_out (s : State) (c : AttnClass) : (s.raise c).out = s.out := rfl
@[simp] theorem State.raise_matrixWork (s : State) (c : AttnClass) : (s.raise c).matrixWork = s.matrixWork := rfl
@[simp] theorem State.raise_mail (s : State) (c : AttnClass) : (s.raise c).mail = s.mail := rfl
@[simp] theorem State.raise_freeCount (s : State) (c : AttnClass) : (s.raise c).freeCount = s.freeCount := rfl
@[simp] theorem State.raise_pending (s : State) (c : AttnClass) : (s.raise c).pending = s.pending := rfl

/-! ### clearAttn -/

@[simp] theorem State.clearAttn_tables (s : State) (c : AttnClass) : (s.clearAttn c).tables = s.tables := rfl
@[simp] theorem State.clearAttn_matrix (s : State) (c : AttnClass) : (s.clearAttn c).matrix = s.matrix := rfl
@[simp] theorem State.clearAttn_ctxs (s : State) (c : AttnClass) : (s.clearAttn c).ctxs = s.ctxs := rfl
@[simp] theorem State.clearAttn_queue (s : State) (c : AttnClass) : (s.clearAttn c).queue = s.queue := rfl
@[simp] theorem State.clearAttn_guard (s : State) (c : AttnClass) : (s.clearAttn c).guard = s.guard := rfl
@[simp] theorem State.clearAttn_panel (s : State) (c : AttnClass) : (s.clearAttn c).panel = s.panel := rfl
@[simp] theorem State.clearAttn_lanes (s : State) (c : AttnClass) : (s.clearAttn c).lanes = s.lanes := rfl
@[simp] theorem State.clearAttn_markHigh (s : State) (c : AttnClass) : (s.clearAttn c).markHigh = s.markHigh := rfl
@[simp] theorem State.clearAttn_out (s : State) (c : AttnClass) : (s.clearAttn c).out = s.out := rfl
@[simp] theorem State.clearAttn_matrixWork (s : State) (c : AttnClass) : (s.clearAttn c).matrixWork = s.matrixWork := rfl
@[simp] theorem State.clearAttn_mail (s : State) (c : AttnClass) : (s.clearAttn c).mail = s.mail := rfl
@[simp] theorem State.clearAttn_freeCount (s : State) (c : AttnClass) : (s.clearAttn c).freeCount = s.freeCount := rfl
@[simp] theorem State.clearAttn_pending (s : State) (c : AttnClass) : (s.clearAttn c).pending = s.pending := rfl

/-! ### modTrunk -/

@[simp] theorem State.modTrunk_tables (s : State) (f : Trunk → Trunk) : (s.modTrunk f).tables = s.tables := rfl
@[simp] theorem State.modTrunk_matrix (s : State) (f : Trunk → Trunk) : (s.modTrunk f).matrix = s.matrix := rfl
@[simp] theorem State.modTrunk_ctxs (s : State) (f : Trunk → Trunk) : (s.modTrunk f).ctxs = s.ctxs := rfl
@[simp] theorem State.modTrunk_queue (s : State) (f : Trunk → Trunk) : (s.modTrunk f).queue = s.queue := rfl
@[simp] theorem State.modTrunk_guard (s : State) (f : Trunk → Trunk) : (s.modTrunk f).guard = s.guard := rfl
@[simp] theorem State.modTrunk_panel (s : State) (f : Trunk → Trunk) : (s.modTrunk f).panel = s.panel := rfl
@[simp] theorem State.modTrunk_lanes (s : State) (f : Trunk → Trunk) : (s.modTrunk f).lanes = s.lanes := rfl
@[simp] theorem State.modTrunk_markHigh (s : State) (f : Trunk → Trunk) : (s.modTrunk f).markHigh = s.markHigh := rfl
@[simp] theorem State.modTrunk_out (s : State) (f : Trunk → Trunk) : (s.modTrunk f).out = s.out := rfl
@[simp] theorem State.modTrunk_matrixWork (s : State) (f : Trunk → Trunk) : (s.modTrunk f).matrixWork = s.matrixWork := rfl
@[simp] theorem State.modTrunk_mail (s : State) (f : Trunk → Trunk) : (s.modTrunk f).mail = s.mail := rfl
@[simp] theorem State.modTrunk_freeCount (s : State) (f : Trunk → Trunk) : (s.modTrunk f).freeCount = s.freeCount := rfl
@[simp] theorem State.modTrunk_pending (s : State) (f : Trunk → Trunk) : (s.modTrunk f).pending = s.pending := rfl

/-! ### modGuard -/

@[simp] theorem State.modGuard_trunk (s : State) (f : Guard → Guard) : (s.modGuard f).trunk = s.trunk := rfl
@[simp] theorem State.modGuard_tables (s : State) (f : Guard → Guard) : (s.modGuard f).tables = s.tables := rfl
@[simp] theorem State.modGuard_matrix (s : State) (f : Guard → Guard) : (s.modGuard f).matrix = s.matrix := rfl
@[simp] theorem State.modGuard_ctxs (s : State) (f : Guard → Guard) : (s.modGuard f).ctxs = s.ctxs := rfl
@[simp] theorem State.modGuard_queue (s : State) (f : Guard → Guard) : (s.modGuard f).queue = s.queue := rfl
@[simp] theorem State.modGuard_panel (s : State) (f : Guard → Guard) : (s.modGuard f).panel = s.panel := rfl
@[simp] theorem State.modGuard_lanes (s : State) (f : Guard → Guard) : (s.modGuard f).lanes = s.lanes := rfl
@[simp] theorem State.modGuard_markHigh (s : State) (f : Guard → Guard) : (s.modGuard f).markHigh = s.markHigh := rfl
@[simp] theorem State.modGuard_out (s : State) (f : Guard → Guard) : (s.modGuard f).out = s.out := rfl
@[simp] theorem State.modGuard_matrixWork (s : State) (f : Guard → Guard) : (s.modGuard f).matrixWork = s.matrixWork := rfl
@[simp] theorem State.modGuard_mail (s : State) (f : Guard → Guard) : (s.modGuard f).mail = s.mail := rfl
@[simp] theorem State.modGuard_freeCount (s : State) (f : Guard → Guard) : (s.modGuard f).freeCount = s.freeCount := rfl
@[simp] theorem State.modGuard_pending (s : State) (f : Guard → Guard) : (s.modGuard f).pending = s.pending := rfl

/-! ### modTables -/

@[simp] theorem State.modTables_trunk (s : State) (f : Tables → Tables) : (s.modTables f).trunk = s.trunk := rfl
@[simp] theorem State.modTables_matrix (s : State) (f : Tables → Tables) : (s.modTables f).matrix = s.matrix := rfl
@[simp] theorem State.modTables_ctxs (s : State) (f : Tables → Tables) : (s.modTables f).ctxs = s.ctxs := rfl
@[simp] theorem State.modTables_queue (s : State) (f : Tables → Tables) : (s.modTables f).queue = s.queue := rfl
@[simp] theorem State.modTables_guard (s : State) (f : Tables → Tables) : (s.modTables f).guard = s.guard := rfl
@[simp] theorem State.modTables_panel (s : State) (f : Tables → Tables) : (s.modTables f).panel = s.panel := rfl
@[simp] theorem State.modTables_lanes (s : State) (f : Tables → Tables) : (s.modTables f).lanes = s.lanes := rfl
@[simp] theorem State.modTables_markHigh (s : State) (f : Tables → Tables) : (s.modTables f).markHigh = s.markHigh := rfl
@[simp] theorem State.modTables_out (s : State) (f : Tables → Tables) : (s.modTables f).out = s.out := rfl
@[simp] theorem State.modTables_matrixWork (s : State) (f : Tables → Tables) : (s.modTables f).matrixWork = s.matrixWork := rfl
@[simp] theorem State.modTables_mail (s : State) (f : Tables → Tables) : (s.modTables f).mail = s.mail := rfl
@[simp] theorem State.modTables_freeCount (s : State) (f : Tables → Tables) : (s.modTables f).freeCount = s.freeCount := rfl
@[simp] theorem State.modTables_pending (s : State) (f : Tables → Tables) : (s.modTables f).pending = s.pending := rfl

/-! ### respond -/

@[simp] theorem State.respond_tables (s : State) (tag : Half) (kind : Byte) (st : Status) (d : List Byte) : (s.respond tag kind st d).tables = s.tables := rfl
@[simp] theorem State.respond_matrix (s : State) (tag : Half) (kind : Byte) (st : Status) (d : List Byte) : (s.respond tag kind st d).matrix = s.matrix := rfl
@[simp] theorem State.respond_ctxs (s : State) (tag : Half) (kind : Byte) (st : Status) (d : List Byte) : (s.respond tag kind st d).ctxs = s.ctxs := rfl
@[simp] theorem State.respond_queue (s : State) (tag : Half) (kind : Byte) (st : Status) (d : List Byte) : (s.respond tag kind st d).queue = s.queue := rfl
@[simp] theorem State.respond_guard (s : State) (tag : Half) (kind : Byte) (st : Status) (d : List Byte) : (s.respond tag kind st d).guard = s.guard := rfl
@[simp] theorem State.respond_panel (s : State) (tag : Half) (kind : Byte) (st : Status) (d : List Byte) : (s.respond tag kind st d).panel = s.panel := rfl
@[simp] theorem State.respond_lanes (s : State) (tag : Half) (kind : Byte) (st : Status) (d : List Byte) : (s.respond tag kind st d).lanes = s.lanes := rfl
@[simp] theorem State.respond_markHigh (s : State) (tag : Half) (kind : Byte) (st : Status) (d : List Byte) : (s.respond tag kind st d).markHigh = s.markHigh := rfl
@[simp] theorem State.respond_out (s : State) (tag : Half) (kind : Byte) (st : Status) (d : List Byte) : (s.respond tag kind st d).out = s.out := rfl
@[simp] theorem State.respond_matrixWork (s : State) (tag : Half) (kind : Byte) (st : Status) (d : List Byte) : (s.respond tag kind st d).matrixWork = s.matrixWork := rfl
@[simp] theorem State.respond_mail (s : State) (tag : Half) (kind : Byte) (st : Status) (d : List Byte) : (s.respond tag kind st d).mail = s.mail := rfl
@[simp] theorem State.respond_freeCount (s : State) (tag : Half) (kind : Byte) (st : Status) (d : List Byte) : (s.respond tag kind st d).freeCount = s.freeCount := rfl
@[simp] theorem State.respond_pending (s : State) (tag : Half) (kind : Byte) (st : Status) (d : List Byte) : (s.respond tag kind st d).pending = s.pending := rfl

/-! ### respondHeld -/

@[simp] theorem State.respondHeld_tables (s : State) (tag : Half) (kind : Byte) (h : Holder) : (s.respondHeld tag kind h).tables = s.tables := rfl
@[simp] theorem State.respondHeld_matrix (s : State) (tag : Half) (kind : Byte) (h : Holder) : (s.respondHeld tag kind h).matrix = s.matrix := rfl
@[simp] theorem State.respondHeld_ctxs (s : State) (tag : Half) (kind : Byte) (h : Holder) : (s.respondHeld tag kind h).ctxs = s.ctxs := rfl
@[simp] theorem State.respondHeld_queue (s : State) (tag : Half) (kind : Byte) (h : Holder) : (s.respondHeld tag kind h).queue = s.queue := rfl
@[simp] theorem State.respondHeld_guard (s : State) (tag : Half) (kind : Byte) (h : Holder) : (s.respondHeld tag kind h).guard = s.guard := rfl
@[simp] theorem State.respondHeld_panel (s : State) (tag : Half) (kind : Byte) (h : Holder) : (s.respondHeld tag kind h).panel = s.panel := rfl
@[simp] theorem State.respondHeld_lanes (s : State) (tag : Half) (kind : Byte) (h : Holder) : (s.respondHeld tag kind h).lanes = s.lanes := rfl
@[simp] theorem State.respondHeld_markHigh (s : State) (tag : Half) (kind : Byte) (h : Holder) : (s.respondHeld tag kind h).markHigh = s.markHigh := rfl
@[simp] theorem State.respondHeld_out (s : State) (tag : Half) (kind : Byte) (h : Holder) : (s.respondHeld tag kind h).out = s.out := rfl
@[simp] theorem State.respondHeld_matrixWork (s : State) (tag : Half) (kind : Byte) (h : Holder) : (s.respondHeld tag kind h).matrixWork = s.matrixWork := rfl
@[simp] theorem State.respondHeld_mail (s : State) (tag : Half) (kind : Byte) (h : Holder) : (s.respondHeld tag kind h).mail = s.mail := rfl
@[simp] theorem State.respondHeld_freeCount (s : State) (tag : Half) (kind : Byte) (h : Holder) : (s.respondHeld tag kind h).freeCount = s.freeCount := rfl
@[simp] theorem State.respondHeld_pending (s : State) (tag : Half) (kind : Byte) (h : Holder) : (s.respondHeld tag kind h).pending = s.pending := rfl

/-! ### The field an update changes -/

@[simp] theorem State.begin_out (s : State) : s.begin.out = [] := rfl
@[simp] theorem State.emit_out (s : State) (l : LaneId) (f : LaneFrame) : (s.emit l f).out = s.out ++ [(l, f)] := rfl
@[simp] theorem State.post_mail (s : State) (m : Mail) : (s.post m).mail = s.mail ++ [m] := rfl
@[simp] theorem State.pushWork_matrixWork (s : State) (w : List MatrixWork) :
    (s.pushWork w).matrixWork = w.foldl insertWork s.matrixWork := rfl
@[simp] theorem State.modTrunk_trunk (s : State) (f : Trunk → Trunk) : (s.modTrunk f).trunk = f s.trunk := rfl
@[simp] theorem State.modGuard_guard (s : State) (f : Guard → Guard) : (s.modGuard f).guard = f s.guard := rfl
@[simp] theorem State.modTables_tables (s : State) (f : Tables → Tables) : (s.modTables f).tables = f s.tables := rfl
@[simp] theorem State.respond_trunk (s : State) (tag : Half) (kind : Byte) (st : Status) (d : List Byte) :
    (s.respond tag kind st d).trunk = { s.trunk with responses := s.trunk.responses ++ [⟨tag, kind, st, d, none⟩] } := rfl
@[simp] theorem State.respondHeld_trunk (s : State) (tag : Half) (kind : Byte) (h : Holder) :
    (s.respondHeld tag kind h).trunk = { s.trunk with responses := s.trunk.responses ++ [⟨tag, kind, .ok, [], some h⟩] } :=
  rfl
@[simp] theorem State.raise_trunk (s : State) (c : AttnClass) :
    (s.raise c).trunk = { s.trunk with attn := s.trunk.attn.raised c } := rfl
@[simp] theorem State.clearAttn_trunk (s : State) (c : AttnClass) :
    (s.clearAttn c).trunk = { s.trunk with attn := s.trunk.attn.cleared c } := rfl

/-! ### Work and responses -/

@[simp] theorem State.pushWork_nil (s : State) : s.pushWork [] = s := rfl

/-- The pieces of work are those that stood and the new one (R32; log 6). -/
theorem mem_insertWork (l : List MatrixWork) (w v : MatrixWork) : v ∈ insertWork l w ↔ v = w ∨ v ∈ l := by
  have h := List.takeWhile_append_dropWhile (p := fun u => !w.before u) (l := l)
  constructor
  · intro hv
    rcases List.mem_append.1 hv with hv | hv
    · exact .inr (h ▸ List.mem_append_left _ hv)
    · exact (List.mem_cons.1 hv).imp id (fun hv => h ▸ List.mem_append_right _ hv)
  · intro hv
    rcases hv with rfl | hv
    · exact List.mem_append_right _ List.mem_cons_self
    · rw [← h] at hv
      exact (List.mem_append.1 hv).elim (List.mem_append_left _)
        (fun hv => List.mem_append_right _ (List.mem_cons_of_mem _ hv))

/-- Replacing a response keeps the length of the list (R188). -/
@[simp] theorem replaceFirst_length (which : Resp → Bool) (new : Resp) (l : List Resp) :
    (replaceFirst which new l).length = l.length := by
  induction l with
  | nil => rfl
  | cons r l ih => unfold replaceFirst; split <;> simp [ih]

/-- A write's first entry adds its response, a later one replaces it (R188; log 9). -/
theorem State.putWrite_responses (s : State) (tag : Half) (p : List Byte) (pos : Nat) (r : Resp) :
    (s.putWrite tag p pos r).trunk.responses =
      if pos = 0 then s.trunk.responses ++ [r] else replaceFirst (fun q => q.awaitsEntry tag p pos) r s.trunk.responses :=
  rfl

/-- Only the response list is touched. -/
theorem State.putWrite_eq (s : State) (tag : Half) (p : List Byte) (pos : Nat) (r : Resp) :
    s.putWrite tag p pos r =
      { s with trunk := { s.trunk with responses := (s.putWrite tag p pos r).trunk.responses } } := rfl

/-! ### Reading one thing after writing it -/

/-- The context of a bus after one context is replaced. -/
theorem State.ctx_setCtx (s : State) (x y : Bus) (c : Ctx) : (s.setCtx x c).ctx y = if x = y then c else s.ctx y := by
  simp [State.ctx, State.setCtx, Vector.getElem_set, Fin.ext_iff]

@[simp] theorem State.ctx_setCtx_self (s : State) (x : Bus) (c : Ctx) : (s.setCtx x c).ctx x = c := by
  simp [State.ctx_setCtx]

@[simp] theorem State.raise_ctx (s : State) (c : AttnClass) (x : Bus) : (s.raise c).ctx x = s.ctx x := rfl

/-- The context of a bus after one context is changed. -/
theorem State.ctx_modCtx (s : State) (x y : Bus) (f : Ctx → Ctx) :
    (s.modCtx x f).ctx y = if x = y then f (s.ctx x) else s.ctx y := by
  simp [State.modCtx, State.ctx_setCtx]

@[simp] theorem State.ctx_modCtx_self (s : State) (x : Bus) (f : Ctx → Ctx) : (s.modCtx x f).ctx x = f (s.ctx x) := by
  simp [State.ctx_modCtx]

@[simp] theorem State.setSource_ctx_self (s : State) (x : Bus) (v : SrcState) :
    (s.setSource x v).ctx x = { s.ctx x with source := v } := by simp [State.setSource]

/-- A lane record after one is replaced. -/
theorem State.lane_setLane (s : State) (l m : LaneId) (k : Lane) :
    (s.setLane l k).lane m = if l = m then k else s.lane m := by
  simp [State.lane, State.setLane, Vector.getElem_set, Fin.ext_iff]

@[simp] theorem State.lane_setLane_self (s : State) (l : LaneId) (k : Lane) : (s.setLane l k).lane l = k := by
  simp [State.lane_setLane]

/-- A lane record after one is changed. -/
theorem State.lane_modLane (s : State) (l m : LaneId) (f : Lane → Lane) :
    (s.modLane l f).lane m = if l = m then f (s.lane l) else s.lane m := by
  simp [State.modLane, State.lane_setLane]

@[simp] theorem State.lane_modLane_self (s : State) (l : LaneId) (f : Lane → Lane) :
    (s.modLane l f).lane l = f (s.lane l) := by
  simp [State.lane_modLane]

/-- What is held for a card after one is replaced. -/
theorem State.card_setCard (s : State) (c d : CardId) (k : CardCtl) :
    (s.setCard c k).card d = if c = d then k else s.card d := by
  simp [State.card, State.setCard, Vector.getElem_set, Fin.ext_iff]

@[simp] theorem State.card_setCard_self (s : State) (c : CardId) (k : CardCtl) : (s.setCard c k).card c = k := by
  simp [State.card_setCard]

/-- A trip flag after one is set. -/
theorem State.tripped_setTripped (s : State) (x y : Bus) (b : Bool) :
    (s.setTripped x b).tripped y = if x = y then b else s.tripped y := by
  simp [State.tripped, State.setTripped, Vector.getElem_set, Fin.ext_iff]

/-- A supply record after one is set. -/
theorem State.supplyOn_setSupply (s : State) (t u : Site) (b : Bool) :
    (s.setSupply t b).supplyOn u = if t = u then b else s.supplyOn u := by
  simp [State.supplyOn, State.setSupply, Vector.getElem_set, Fin.ext_iff]

/-- A block's presence after one is set. -/
theorem State.blockPresence_setPresence (s : State) (b d : Block) (v : Presence) :
    (s.setPresence b v).blockPresence d = if b = d then v else s.blockPresence d := by
  simp [State.blockPresence, State.setPresence, Vector.getElem_set, Fin.ext_iff]

/-- A site verdict record after one is replaced. -/
theorem State.verdict_setVerdict (s : State) (t u : Site) (v : SiteVerdict) :
    (s.setVerdict t v).verdict u = if t = u then v else s.verdict u := by
  simp [State.verdict, State.setVerdict, Vector.getElem_set, Fin.ext_iff]

/-! ### Entering HALTED, and RACK RESET at one context -/

@[simp] theorem enterHalted_ctx_self (s : State) (x : Bus) :
    (enterHalted s x).ctx x = { s.ctx x with state := .halted, relDone := false } := by simp [enterHalted]

/-- Entering HALTED makes STEP pending (R131, R194). -/
@[simp] theorem enterHalted_attn (s : State) (x : Bus) :
    (enterHalted s x).trunk.attn = s.trunk.attn.raised .step := rfl

/-- What RACK RESET makes of a source record rests on the tables and the lanes alone. -/
theorem resetRecord_congr {s t : State} (x : Bus) (htab : t.tables = s.tables) (hlan : t.lanes = s.lanes) :
    resetRecord t x = resetRecord s x := by
  have hbus : t.busEntry x = s.busEntry x := by simp only [State.busEntry, htab]
  have husable : t.channelUsable x = s.channelUsable x := by
    unfold State.channelUsable State.laneHasInstrument State.lane
    dsimp only
    rw [hbus, hlan]
  unfold resetRecord
  rw [hbus, husable]

/-- RACK RESET gives a context its power-reset values, the source record apart (R66). -/
theorem resetCtx_ctx_self (s : State) (x : Bus) :
    (resetCtx s x).ctx x = { Ctx.initial with source := resetRecord s x } := by
  have hcancel : resetRecord (cancelTake s x) x = resetRecord s x :=
    resetRecord_congr x (by unfold cancelTake; dsimp only; split <;> rfl) (by unfold cancelTake; dsimp only; split <;> rfl)
  simp only [resetCtx, resetSource, State.ctx_modCtx_self, State.setSource_ctx_self]
  split <;> simp only [hcancel]

end Sys2Proof.Machine
end

