-- ==== Sys2Proof/Laws/Sparse.lean ====
section
/-! SUPPORT. The crosspoint list: reading after writing, and the canonical form that every write keeps. -/

namespace Sys2Proof.Machine

/-- Reading a number that is taken out gives the initial record. -/
theorem Sparse.get_filter (m : List (Nat × XRec)) (k j : Nat) :
    Sparse.get (m.filter (fun e => e.1 ≠ k)) j = if j = k then XRec.initial else Sparse.get m j := by
  induction m with
  | nil => simp [Sparse.get]
  | cons e rest ih =>
    obtain ⟨i, v⟩ := e
    by_cases hi : i = k <;> by_cases hj : i = j <;> simp_all [Sparse.get]

/-- Reading after an insertion of a number the list does not have. -/
theorem Sparse.get_insert (m : List (Nat × XRec)) (k : Nat) (v : XRec) (j : Nat) (h : ∀ e ∈ m, e.1 ≠ k) :
    Sparse.get (Sparse.insert m k v) j = if j = k then v else Sparse.get m j := by
  induction m with
  | nil => simp [Sparse.insert, Sparse.get, eq_comm]
  | cons e rest ih =>
    obtain ⟨i, w⟩ := e
    have hik : i ≠ k := h (i, w) (by simp)
    have ih' := ih (fun e he => h e (by simp [he]))
    simp only [Sparse.insert]
    split
    · simp [Sparse.get, eq_comm]
    · by_cases hij : i = j
      · subst hij; simp [Sparse.get, hik]
      · simp [Sparse.get, hij, ih']

/-- A read after a write gives the record written, and every other number reads as before. -/
theorem Sparse.get_set (m : List (Nat × XRec)) (k : Nat) (v : XRec) (j : Nat) :
    Sparse.get (Sparse.set m k v) j = if j = k then v else Sparse.get m j := by
  unfold Sparse.set
  split
  · next h => rw [Sparse.get_filter, h]
  · rw [Sparse.get_insert _ _ _ _ (by simp), Sparse.get_filter]
    split <;> rfl

/-- The numbers of an insertion are the list's and the new one. -/
theorem Sparse.mem_insert (m : List (Nat × XRec)) (k : Nat) (v : XRec) (e : Nat × XRec)
    (he : e ∈ Sparse.insert m k v) : e = (k, v) ∨ e ∈ m := by
  induction m with
  | nil => simpa [Sparse.insert] using he
  | cons a rest ih =>
    obtain ⟨i, w⟩ := a
    simp only [Sparse.insert] at he
    split at he
    · simpa using he
    · rcases List.mem_cons.1 he with h | h
      · exact .inr (by simp [h])
      · rcases ih h with h | h
        · exact .inl h
        · exact .inr (by simp [h])

/-- An insertion keeps the numbers rising. -/
theorem Sparse.insert_sorted (m : List (Nat × XRec)) (k : Nat) (v : XRec)
    (hs : (m.map Prod.fst).Pairwise (· < ·)) (hk : ∀ e ∈ m, e.1 ≠ k) :
    ((Sparse.insert m k v).map Prod.fst).Pairwise (· < ·) := by
  induction m with
  | nil => simp [Sparse.insert]
  | cons a rest ih =>
    obtain ⟨i, w⟩ := a
    simp only [List.map_cons, List.pairwise_cons, List.mem_map] at hs
    have hik : i ≠ k := hk (i, w) (by simp)
    simp only [Sparse.insert]
    split
    · next h =>
      simp only [List.map_cons, List.pairwise_cons, List.mem_cons, List.mem_map]
      refine ⟨?_, fun a ha => hs.1 a ha, hs.2⟩
      rintro a (rfl | ⟨e, he, rfl⟩)
      · exact h
      · exact lt_trans h (hs.1 _ ⟨e, he, rfl⟩)
    · next h =>
      simp only [List.map_cons, List.pairwise_cons, List.mem_map]
      refine ⟨?_, ih hs.2 (fun e he => hk e (by simp [he]))⟩
      rintro a ⟨e, he, rfl⟩
      rcases Sparse.mem_insert _ _ _ _ he with rfl | h'
      · simp only; omega
      · exact hs.1 _ ⟨e, h', rfl⟩

/-- A write keeps the canonical form. -/
theorem Sparse.wf_set (m : List (Nat × XRec)) (k : Nat) (v : XRec) (h : Sparse.wf m = true) :
    Sparse.wf (Sparse.set m k v) = true := by
  simp only [Sparse.wf, Bool.and_eq_true, decide_eq_true_eq, List.all_eq_true] at h ⊢
  obtain ⟨hs, hv⟩ := h
  have hs' : ((m.filter (fun e => e.1 ≠ k)).map Prod.fst).Pairwise (· < ·) :=
    hs.sublist (List.filter_sublist.map _)
  have hv' : ∀ e ∈ m.filter (fun e => e.1 ≠ k), e.2 ≠ XRec.initial :=
    fun e he => hv e (List.mem_of_mem_filter he)
  unfold Sparse.set
  split
  · exact ⟨hs', fun e he => by simpa using hv' e he⟩
  · next hn =>
    refine ⟨Sparse.insert_sorted _ _ _ hs' (fun e he => by simpa using (List.mem_filter.1 he).2), fun e he => ?_⟩
    rcases Sparse.mem_insert _ _ _ _ he with rfl | h
    · simpa using hn
    · simpa using hv' e h

/-- The initial list is in canonical form. -/
theorem Sparse.wf_nil : Sparse.wf [] = true := by decide

/-- The number of a crosspoint names one bus and one point (R2). -/
theorem xpNo_inj (x y : Bus) (p q : Pt) : xpNo x p = xpNo y q ↔ x = y ∧ p = q := by
  have := p.isLt; have := q.isLt
  simp only [xpNo, Fin.ext_iff]
  omega

/-- A crosspoint record after one is replaced. -/
theorem State.xp_setXp (s : State) (x y : Bus) (p q : Pt) (r : XRec) :
    (s.setXp x p r).xp y q = if x = y ∧ p = q then r else s.xp y q := by
  simp only [State.xp, State.setXp, Sparse.get_set, xpNo_inj]
  by_cases h : x = y ∧ p = q
  · rw [if_pos h, if_pos ⟨h.1.symm, h.2.symm⟩]
  · rw [if_neg h, if_neg (fun h' => h ⟨h'.1.symm, h'.2.symm⟩)]

end Sys2Proof.Machine
end

