-- ==== Sys2Proof/Laws/Keeps.lean ====
section
/-!
SUPPORT. What no consequence of a command can do (log 6): the relation `Keeps`, its rules for the updates, and that
one operation after another keeps it. Each lemma `f_keeps` says of the operation f once all that the frames of the
statements need; the provers cite it instead of unfolding f.
-/

namespace Sys2Proof.Machine

/-- From s to t nothing happened but what the inside of a command may do. `Q` says which readings may be appended: none,
for the consequences of a command. -/
structure Keeps (Q : Rec → Prop) (s t : State) : Prop where
  tables : t.tables = s.tables
  lanes : t.lanes = s.lanes
  guard : t.guard = s.guard
  trunk : t.trunk = { s.trunk with attn := t.trunk.attn }
  attn : ∀ c, s.trunk.attn.raised c = s.trunk.attn → t.trunk.attn.raised c = t.trunk.attn
  freeCount : t.freeCount = s.freeCount
  pending : t.pending = s.pending
  panelState : t.panel.state = s.panel.state
  panelNumber : t.panel.number = s.panel.number
  panelFold : t.panel.foldPending = s.panel.foldPending
  verdicts : ∀ u, (s.verdict u).Onward (t.verdict u)
  wear : ∀ k, (Sparse.get t.matrix.xps k).wear = (Sparse.get s.matrix.xps k).wear
  canonical : Sparse.wf s.matrix.xps = true → Sparse.wf t.matrix.xps = true
  reasons : ∀ c, (t.card c).rejectReason = (s.card c).rejectReason
  records : ∃ l, t.queue.records = s.queue.records ++ l ∧ ∀ r ∈ l, r.noReading = true ∨ Q r
  counts : (∀ r, ¬ Q r) → t.queue.records = s.queue.records → t.queue = s.queue
  first : (∀ r, ¬ Q r) → ∀ r l, t.queue.records = s.queue.records ++ r :: l → r = r.stamped s.queue
  bounded : QueueLawful s → QueueLawful t
  queues : ∀ x, (t.ctx x).queue <:+ (s.ctx x).queue
  queuesStay : s.isReady = false → ∀ x, (t.ctx x).queue = (s.ctx x).queue
  opensFirst : OpensFirst s → OpensFirst t
  tags : TagsFollow s → TagsFollow t
  rest : DisabledAtRest s → DisabledAtRest t
  frames : TablesLawful s → OpensFirst s → DisabledAtRest s → ∃ l, t.out = s.out ++ l ∧ ∀ e ∈ l, Permitted s e

/-- A record has moved onward when it has not moved. -/
theorem SiteVerdict.Onward.refl (a : SiteVerdict) : a.Onward a :=
  ⟨le_rfl, fun h => ⟨le_rfl, h⟩, fun h => ⟨le_rfl, h⟩, id, fun _ => rfl⟩

/-- Moving onward twice is moving onward. -/
theorem SiteVerdict.Onward.trans {a b c : SiteVerdict} (h : a.Onward b) (k : b.Onward c) : a.Onward c := by
  obtain ⟨h1, h2, h3, h4, h5⟩ := h
  obtain ⟨k1, k2, k3, k4, k5⟩ := k
  refine ⟨h1.trans k1, fun h => ?_, fun h => ?_, fun h => k4 (h4 h), fun h => ?_⟩
  · obtain ⟨p, q⟩ := h2 h; obtain ⟨p', q'⟩ := k2 q; exact ⟨p.trans p', q'⟩
  · obtain ⟨p, q⟩ := h3 h; obtain ⟨p', q'⟩ := k3 q; exact ⟨p.trans p', q'⟩
  · have := h5 h; rw [k5 (by rw [this]; exact h), this]

/-- A judgement moves a record onward (R134). -/
theorem SiteVerdict.judge_onward (r : SiteVerdict) (v : Verdict) (d : DispEntry) : r.Onward (r.judge v d) := by
  refine ⟨?_, fun h => ?_, fun h => ?_, fun h => ?_, fun h => ?_⟩
  · simp only [SiteVerdict.judge, SiteState.worse]; split <;> omega
  · simp only [SiteVerdict.judge]; omega
  · simp only [SiteVerdict.judge]; split <;> omega
  · simp [SiteVerdict.judge, h]
  · simp [SiteVerdict.judge, h]

/-- Permission depends only on the guard unit and the tables. -/
theorem Permitted.congr {s t : State} (hg : t.guard = s.guard) (ht : t.tables = s.tables) (e : LaneId × LaneFrame) :
    Permitted t e ↔ Permitted s e := by
  have h1 : t.isSafe = s.isSafe := by simp [State.isSafe, hg]
  have h2 : ∀ x, t.tripped x = s.tripped x := fun x => by simp [State.tripped, hg]
  have h3 : ∀ x, t.busEntry x = s.busEntry x := fun x => by simp [State.busEntry, ht]
  have h4 : ∀ l c, sourceBusOn t l c = sourceBusOn s l c := fun l c => by simp [sourceBusOn, h3]
  unfold Permitted
  split <;> simp [h1, h2, h4]

/-- The ready rack depends only on the guard unit. -/
theorem isReady_congr {s t : State} (hg : t.guard = s.guard) : t.isReady = s.isReady := by simp [State.isReady, hg]

/-- The tables lawful, a SOURCE bus that is enabled is the one that its lane and channel name (R43, R50). -/
theorem sourceBusOn_self {s : State} {x : Bus} (h : TablesLawful s) (he : (s.busEntry x).enabled = true)
    (hk : (s.busEntry x).kind = .source) :
    sourceBusOn s (s.busEntry x).lane (byte (s.busEntry x).channel.val) = some x := by
  have hch : (byte (s.busEntry x).channel.val).toNat = (s.busEntry x).channel.val := by
    have := (s.busEntry x).channel.isLt
    simp only [byte, BitVec.toNat_ofNat]; omega
  unfold sourceBusOn
  rw [hch]
  cases hf : allBuses.find? (fun y => let e := s.busEntry y
      e.enabled && e.kind == .source && e.lane == (s.busEntry x).lane && e.channel.val == (s.busEntry x).channel.val) with
  | none =>
    have := List.find?_eq_none.1 hf x (List.mem_finRange x)
    simp [he, hk] at this
  | some y =>
    have hy := List.find?_some hf
    simp only [Bool.and_eq_true, beq_iff_eq] at hy
    by_contra hne
    exact h.2.1 y x (fun e => hne (by rw [e])) hy.1.1.1 he ⟨hy.1.2, Fin.ext hy.2⟩

/-- An update that leaves queue, state and resume point leaves a context at rest. -/
theorem Ctx.Restful.of_same {c d : Ctx} (h : c.Restful) (hd : d.queue = c.queue ∧ d.state = c.state ∧ d.resume = c.resume) :
    d.Restful := by
  unfold Ctx.Restful; rw [hd.1, hd.2.1, hd.2.2]; exact h

/-- Where disabled buses are at rest, bus `x` is enabled: what an operation of a context at work knows of its bus. -/
abbrev AtWork (s : State) (x : Bus) : Prop := DisabledAtRest s → (s.busEntry x).enabled = true

namespace Keeps

variable {Q : Rec → Prop}

theorem refl (s : State) : Keeps Q s s where
  tables := rfl
  lanes := rfl
  guard := rfl
  trunk := rfl
  attn := fun _ h => h
  freeCount := rfl
  pending := rfl
  panelState := rfl
  panelNumber := rfl
  panelFold := rfl
  verdicts := fun _ => .refl _
  wear := fun _ => rfl
  canonical := id
  reasons := fun _ => rfl
  records := ⟨[], by simp, by simp⟩
  counts := fun _ _ => rfl
  first := fun _ r l h => by simp at h
  bounded := id
  queues := fun _ => List.suffix_rfl
  queuesStay := fun _ _ => rfl
  opensFirst := id
  tags := id
  rest := id
  frames := fun _ _ _ => ⟨[], by simp⟩

theorem trans {s t u : State} (h : Keeps Q s t) (k : Keeps Q t u) : Keeps Q s u where
  tables := k.tables.trans h.tables
  lanes := k.lanes.trans h.lanes
  guard := k.guard.trans h.guard
  trunk := by rw [k.trunk, h.trunk]
  attn := fun c hc => k.attn c (h.attn c hc)
  freeCount := k.freeCount.trans h.freeCount
  pending := k.pending.trans h.pending
  panelState := k.panelState.trans h.panelState
  panelNumber := k.panelNumber.trans h.panelNumber
  panelFold := k.panelFold.trans h.panelFold
  verdicts := fun u => (h.verdicts u).trans (k.verdicts u)
  wear := fun n => (k.wear n).trans (h.wear n)
  canonical := fun hs => k.canonical (h.canonical hs)
  reasons := fun c => (k.reasons c).trans (h.reasons c)
  records := by
    obtain ⟨l, hl, ql⟩ := h.records
    obtain ⟨m, hm, qm⟩ := k.records
    refine ⟨l ++ m, by rw [hm, hl, List.append_assoc], fun r hr => ?_⟩
    exact (List.mem_append.1 hr).elim (ql r) (qm r)
  counts := fun hq he => by
    obtain ⟨l, hl, -⟩ := h.records
    obtain ⟨m, hm, -⟩ := k.records
    have hlm : l = [] ∧ m = [] := by simpa [hm, hl] using he
    rw [k.counts hq (by simp [hm, hlm.2]), h.counts hq (by simp [hl, hlm.1])]
  first := fun hq r l' he => by
    obtain ⟨l, hl, -⟩ := h.records
    obtain ⟨m, hm, -⟩ := k.records
    cases l with
    | nil =>
      have e := h.counts hq (by simp [hl])
      rw [← e] at he ⊢
      exact k.first hq r l' he
    | cons r' l =>
      have e : r' = r := by
        rw [hm, hl, List.append_assoc] at he
        exact (List.cons.inj (List.append_cancel_left he)).1
      subst e
      exact h.first hq r' l hl
  bounded := fun hs => k.bounded (h.bounded hs)
  queues := fun x => (k.queues x).trans (h.queues x)
  queuesStay := fun hr x => (k.queuesStay ((isReady_congr h.guard).trans hr) x).trans (h.queuesStay hr x)
  opensFirst := fun hs => k.opensFirst (h.opensFirst hs)
  tags := fun hs => k.tags (h.tags hs)
  rest := fun hs => k.rest (h.rest hs)
  frames := fun ht hs hd => by
    have ht' : TablesLawful t := by
      simpa only [TablesLawful, State.siteEntry, State.busEntry, State.cardEntry, h.tables] using ht
    obtain ⟨l, hl, pl⟩ := h.frames ht hs hd
    obtain ⟨m, hm, pm⟩ := k.frames ht' (h.opensFirst hs) (h.rest hd)
    refine ⟨l ++ m, by rw [hm, hl, List.append_assoc], fun e he => ?_⟩
    rcases List.mem_append.1 he with he | he
    · exact pl e he
    · exact (Permitted.congr h.guard h.tables e).1 (pm e he)

/-- An update that changes no field of the relation. -/
theorem of_fields {s t u : State} (h : Keeps Q s t) (h1 : u.tables = t.tables) (h2 : u.matrix = t.matrix)
    (h3 : u.ctxs = t.ctxs) (h4 : u.queue = t.queue) (h5 : u.guard = t.guard) (h6 : u.panel = t.panel)
    (h7 : u.lanes = t.lanes) (h8 : u.out = t.out) (h9 : u.trunk = t.trunk) (h10 : u.freeCount = t.freeCount)
    (h11 : u.pending = t.pending) : Keeps Q s u :=
  h.trans
    { tables := h1, lanes := h7, guard := h5, trunk := by rw [h9], attn := fun c hc => by rw [h9]; exact hc
      freeCount := h10, pending := h11, panelState := by rw [h6], panelNumber := by rw [h6], panelFold := by rw [h6]
      verdicts := fun v => by simp only [State.verdict, h6]; exact .refl _
      wear := fun n => by rw [h2], canonical := fun hc => by rw [h2]; exact hc
      reasons := fun c => by simp only [State.card, h2], records := ⟨[], by rw [h4]; simp, by simp⟩
      counts := fun _ _ => h4
      first := fun _ r l he => by rw [h4] at he; simp at he
      bounded := fun hb => by simpa only [QueueLawful, h4] using hb
      queues := fun x => by simp only [State.ctx, h3]; exact List.suffix_rfl
      queuesStay := fun _ x => by simp only [State.ctx, h3]
      opensFirst := fun ho => by simpa only [OpensFirst, State.card, h2] using ho
      tags := fun ho => by simpa only [TagsFollow, State.card, h2] using ho
      rest := fun hd x => by simpa only [State.ctx, State.busEntry, h1, h3] using hd x
      frames := fun _ _ _ => ⟨[], by rw [h8]; simp⟩ }

/-! ### The updates -/

theorem post {s t : State} (m : Mail) (h : Keeps Q s t) : Keeps Q s (t.post m) :=
  h.of_fields rfl rfl rfl rfl rfl rfl rfl rfl rfl rfl rfl

theorem pushWork {s t : State} (w : List MatrixWork) (h : Keeps Q s t) : Keeps Q s (t.pushWork w) :=
  h.of_fields rfl rfl rfl rfl rfl rfl rfl rfl rfl rfl rfl

theorem raise {s t : State} (c : AttnClass) (h : Keeps Q s t) : Keeps Q s (t.raise c) :=
  h.trans
    { refl t with
      trunk := rfl
      attn := fun d hd => by
        simp only [State.raise_trunk]
        cases d <;> cases c <;> simp_all [AttnSet.raised, AttnSet.ext_iff] }

/-- A frame goes out that is permitted, where the laws hold at the start. -/
theorem emit {s t : State} (l : LaneId) (f : LaneFrame)
    (hf : TablesLawful s → OpensFirst s → DisabledAtRest s → Permitted t (l, f)) (h : Keeps Q s t) :
    Keeps Q s (t.emit l f) :=
  { h with
    frames := fun ht hs hd => by
      obtain ⟨m, hm, pm⟩ := h.frames ht hs hd
      refine ⟨m ++ [(l, f)], by simp [hm], fun e he => ?_⟩
      rcases List.mem_append.1 he with he | he
      · exact pm e he
      · rw [List.mem_singleton.1 he]; exact (Permitted.congr h.guard h.tables _).1 (hf ht hs hd) }

/-- A context that is neither IDLE nor TRIPPED, or has a step waiting, is that of an enabled bus. -/
theorem enabled {s t : State} (x : Bus) (h : Keeps Q s t) (hn : ¬ (t.ctx x).Restful) : AtWork s x := fun hd => by
  by_contra he
  have : (t.busEntry x).enabled = (s.busEntry x).enabled := by rw [State.busEntry, State.busEntry, h.tables]
  exact hn (h.rest hd x (this.trans (by simpa using he)))

/-- The same, by the context's state. -/
theorem working {s t : State} (x : Bus) (h : Keeps Q s t) (h1 : (t.ctx x).state ≠ .idle)
    (h2 : (t.ctx x).state ≠ .tripped) : AtWork s x :=
  h.enabled x (fun hr => hr.2.elim h1 (fun k => h2 k.1))

/-- The same, for a known state. -/
theorem inState {s t : State} {x : Bus} {st : CtxState} (h : Keeps Q s t) (hs : (t.ctx x).state = st)
    (h1 : st ≠ .idle := by decide) (h2 : st ≠ .tripped := by decide) : AtWork s x :=
  h.working x (hs ▸ h1) (hs ▸ h2)

/-- A context is changed without touching its queue: that of an enabled bus, or one that stays at rest. -/
theorem modCtx {s t : State} (x : Bus) (f : Ctx → Ctx) (hf : (f (t.ctx x)).queue = (t.ctx x).queue)
    (hr : AtWork s x ∨ ((t.ctx x).Restful → (f (t.ctx x)).Restful))
    (h : Keeps Q s t) : Keeps Q s (t.modCtx x f) :=
  { h with
    queues := fun y => by
      rw [State.ctx_modCtx]; split
      · next e => subst e; rw [hf]; exact h.queues _
      · exact h.queues y
    queuesStay := fun hn y => by
      rw [State.ctx_modCtx]; split
      · next e => subst e; rw [hf]; exact h.queuesStay hn _
      · exact h.queuesStay hn y
    rest := fun hd y hy => by
      rw [State.ctx_modCtx]; split
      · next e =>
        subst e
        rcases hr with hr | hr
        · have := hr hd
          rw [State.busEntry, ← h.tables] at this
          exact absurd (this.symm.trans hy) (by simp)
        · exact hr (h.rest hd _ hy)
      · exact h.rest hd y hy }

/-- A context of an enabled bus is changed. -/
theorem upd {s t : State} (x : Bus) {f : Ctx → Ctx} (he : AtWork s x)
    (h : Keeps Q s t) (hf : ∀ c, (f c).queue = c.queue := by intro _; rfl) : Keeps Q s (t.modCtx x f) :=
  modCtx x f (hf _) (.inl he) h

/-- A context is changed but for queue, state and resume point. -/
theorem touch {s t : State} (x : Bus) {f : Ctx → Ctx} (h : Keeps Q s t)
    (hf : ∀ c, (f c).queue = c.queue ∧ (f c).state = c.state ∧ (f c).resume = c.resume := by
      intro _; exact ⟨rfl, rfl, rfl⟩) : Keeps Q s (t.modCtx x f) :=
  modCtx x f (hf _).1 (.inr (fun hr => hr.of_same (hf _))) h

theorem setCtx {s t : State} (x : Bus) (c : Ctx)
    (hf : c.queue = (t.ctx x).queue ∧ c.state = (t.ctx x).state ∧ c.resume = (t.ctx x).resume) (h : Keeps Q s t) :
    Keeps Q s (t.setCtx x c) := modCtx x (fun _ => c) hf.1 (.inr (fun hr => hr.of_same hf)) h

/-- The head of a queue is taken in READY. -/
theorem takeStep {s t : State} (x : Bus) (f : Ctx → Ctx) (hr : t.isReady = true)
    (he : AtWork s x) (hf : (f (t.ctx x)).queue <:+ (t.ctx x).queue)
    (h : Keeps Q s t) : Keeps Q s (t.modCtx x f) :=
  { h with
    queues := fun y => by
      rw [State.ctx_modCtx]; split
      · next e => subst e; exact hf.trans (h.queues _)
      · exact h.queues y
    queuesStay := fun hn => by rw [isReady_congr h.guard] at hr; rw [hr] at hn; exact absurd hn (by simp)
    rest := fun hd y hy => by
      rw [State.ctx_modCtx]; split
      · next e =>
        subst e
        have := he hd
        rw [State.busEntry, ← h.tables] at this
        exact absurd (this.symm.trans hy) (by simp)
      · exact h.rest hd y hy }

/-- A crosspoint record is changed without its wear count. -/
theorem setXp {s t : State} (x : Bus) (p : Pt) (r : XRec) (hr : r.wear = (t.xp x p).wear) (h : Keeps Q s t) :
    Keeps Q s (t.setXp x p r) :=
  h.trans
    { refl t with
      wear := fun n => by
        simp only [State.setXp, Sparse.get_set]; split
        · next e => subst e; exact hr
        · rfl
      canonical := fun hc => Sparse.wf_set _ _ _ hc }

theorem modXps {s t : State} (x : Bus) (ps : List Pt) (f : XRec → XRec) (hf : ∀ r, (f r).wear = r.wear)
    (h : Keeps Q s t) : Keeps Q s (t.modXps x ps f) := by
  unfold State.modXps
  induction ps generalizing t with
  | nil => exact h
  | cons p ps ih => exact ih (setXp x p _ (hf _) h)

/-- What is held for a card is changed without its last reason, with only opens new in the priority part, and with the
order counter still behind the pending order. -/
theorem setCard {s t : State} (c : CardId) (k : CardCtl) (hr : k.rejectReason = (t.card c).rejectReason)
    (hp : ∀ o ∈ k.priority, o ∈ (t.card c).priority ∨ o.kind = .recovery ∨ o.kind = .emergency)
    (hq : (t.card c).TagFollows → k.TagFollows) (h : Keeps Q s t) : Keeps Q s (t.setCard c k) :=
  h.trans
    { refl t with
      reasons := fun d => by
        rw [State.card_setCard]; split
        · next e => subst e; exact hr
        · rfl
      opensFirst := fun ho d o hm => by
        rw [State.card_setCard] at hm; split at hm
        · next e =>
          subst e
          rcases hp o hm with h | h
          · exact ho _ _ h
          · exact h
        · exact ho d o hm
      tags := fun ht d => by
        rw [State.card_setCard]; split
        · next e => subst e; exact hq (ht _)
        · exact ht d }

theorem setVerdict {s t : State} (u : Site) (v : SiteVerdict) (hv : (t.verdict u).Onward v) (h : Keeps Q s t) :
    Keeps Q s (t.setVerdict u v) :=
  h.trans
    { refl t with
      panelState := rfl, panelNumber := rfl, panelFold := rfl
      verdicts := fun w => by
        rw [State.verdict_setVerdict]; split
        · next e => subst e; exact hv
        · exact .refl _ }

theorem markHigh {s t : State} (b : Bool) (h : Keeps Q s t) : Keeps Q s { t with markHigh := b } :=
  h.of_fields rfl rfl rfl rfl rfl rfl rfl rfl rfl rfl rfl

theorem mail {s t : State} (m : List Mail) (h : Keeps Q s t) : Keeps Q s { t with mail := m } :=
  h.of_fields rfl rfl rfl rfl rfl rfl rfl rfl rfl rfl rfl

theorem matrixWork {s t : State} (m : List MatrixWork) (h : Keeps Q s t) : Keeps Q s { t with matrixWork := m } :=
  h.of_fields rfl rfl rfl rfl rfl rfl rfl rfl rfl rfl rfl

/-- The queue's fold counter changes, where readings are at work. -/
theorem folded {s t : State} (hq : ∃ r, Q r) (h : Keeps Q s t) : Keeps Q s { t with queue := t.queue.folded } := by
  obtain ⟨r, hr⟩ := hq
  refine h.trans { refl (Q := Q) t with
    records := ⟨[], ?_, by simp⟩, counts := fun hn => absurd hr (hn r), first := fun hn => absurd hr (hn r)
    bounded := fun hb => ?_ }
  · simp only [ResultQueue.folded]; split <;> simp
  · simp only [QueueLawful, ResultQueue.folded] at *; split <;> exact hb

/-- Operations on a list, one after another. -/
theorem foldl {α : Type} {s t : State} (f : State → α → State) (hf : ∀ u a, Keeps Q s u → Keeps Q s (f u a)) (l : List α)
    (h : Keeps Q s t) : Keeps Q s (l.foldl f t) := by
  induction l generalizing t with
  | nil => exact h
  | cons a l ih => exact ih (hf _ _ h)

end Keeps

end Sys2Proof.Machine
end

