-- ==== Sys2Proof/Laws/KeepsOps.lean ====
section
/-! SUPPORT. The operations of the matrix controller, the source records, the result queue and the judge keep `Keeps`. -/

-- One proof at a time: run together, these proofs all wait for the same earlier checks, a thread each.
set_option Elab.async false

namespace Sys2Proof.Machine

/-- A bus that nothing bars is outside SAFE and not tripped (R27, R29, R49). -/
theorem barred_none {s : State} {x : Bus} (h : s.barred x = none) : s.isSafe = false ∧ s.tripped x = false := by
  unfold State.barred at h
  split at h
  · exact absurd h (by simp)
  · split at h
    · exact absurd h (by simp)
    · simp_all

/-- A make order that passes the send checks goes out neither in SAFE nor for a tripped bus (R29), and for no point that
another bus claims (R19). -/
theorem sendCheck_pass {s : State} {c : CardId} {o : Order} (h : sendCheck s c o = .pass) :
    s.isSafe = false ∧ s.tripped o.bus = false ∧ s.sourceQuiet o.bus = true ∧ s.cardUsable c = true ∧
      ∀ p ∈ o.points, s.claimedByOther o.bus p = false := by
  unfold sendCheck at h
  split at h
  · exact absurd h (by simp)
  · next h1 =>
    have h1 := barred_none h1
    split at h
    · exact absurd h (by simp)
    · split at h
      · exact absurd h (by simp)
      · split at h
        · exact absurd h (by simp)
        · simp_all

/-- A record that is no reading stays so when it is stamped (R145). -/
theorem Rec.noReading_stamped (r : Rec) (q : ResultQueue) : (r.stamped q).noReading = r.noReading := by cases r <;> rfl

/-- Stamping a record twice is stamping it once (R145). -/
theorem Rec.stamped_stamped (r : Rec) (q : ResultQueue) : (r.stamped q).stamped q = r.stamped q := by cases r <;> rfl

/-- Cutting an order off leaves the last reason. -/
theorem CardCtl.orphan_reason (k : CardCtl) (x : Bus) :
    (k.orphan x).rejectReason = k.rejectReason := by
  unfold CardCtl.orphan; split
  · split <;> rfl
  · rfl

/-- Cutting an order off leaves the priority part. -/
theorem CardCtl.orphan_priority (k : CardCtl) (x : Bus) :
    (k.orphan x).priority = k.priority := by
  unfold CardCtl.orphan; split
  · split <;> rfl
  · rfl

/-- Cutting an order off leaves its tag and the order counter. -/
theorem CardCtl.orphan_tagFollows (k : CardCtl) (x : Bus) (h : k.TagFollows) : (k.orphan x).TagFollows := by
  unfold CardCtl.orphan; split
  · next p hp =>
    split
    · intro q hq; cases hq; exact h p hp
    · exact h
  · exact h

namespace Keeps

variable {Q : Rec → Prop} {s t : State}

/-! ### Source records -/

theorem setSource (x : Bus) (v : SrcState) (h : Keeps Q s t) : Keeps Q s (t.setSource x v) := h.touch x

theorem sendQuiet (x : Bus) (h : Keeps Q s t) : Keeps Q s (sendQuiet t x) := emit _ _ (fun _ _ _ => trivial) h

theorem quietRequest (x : Bus) (h : Keeps Q s t) : Keeps Q s (quietRequest t x).1 := by
  unfold Machine.quietRequest
  split
  · exact h
  · split
    · exact h
    · exact h
    · exact h
    all_goals
      split
      · exact (h.sendQuiet x).setSource x _
      · exact h.setSource x _

/-- A live request of an enabled SOURCE bus sends a LIVE that is permitted (R49, R50). -/
theorem liveRequest (x : Bus) (he : AtWork s x)
    (hk : (t.busEntry x).kind = .source) (h : Keeps Q s t) : Keeps Q s (liveRequest t x).1 := by
  unfold Machine.liveRequest
  split
  · exact h
  · next hb =>
    have hn := barred_none hb
    split
    · split
      · refine (emit (t := t) _ _ (fun ht _ hd => ?_) h).setSource x _
        have hx : ∀ y, t.busEntry y = s.busEntry y := fun y => by rw [State.busEntry, State.busEntry, h.tables]
        have ht' : TablesLawful t := by
          simpa only [TablesLawful, State.siteEntry, State.busEntry, State.cardEntry, h.tables] using ht
        exact show Permitted t (_, .live _) from
          ⟨hn.1, x, sourceBusOn_self ht' (by rw [hx]; exact he hd) hk, hn.2⟩
      · exact h
    all_goals exact h

theorem answerQuiet (x : Bus) (ok : Bool) (h : Keeps Q s t) : Keeps Q s (answerQuiet t x ok) := by
  unfold Machine.answerQuiet
  split
  · exact (h.touch x).post _
  · exact h

theorem answerLive (x : Bus) (ok : Bool) (h : Keeps Q s t) : Keeps Q s (answerLive t x ok) := by
  unfold Machine.answerLive
  split
  · exact (h.touch x).post _
  · exact h

theorem ackTaken (x : Bus) (live : Bool) (h : Keeps Q s t) : Keeps Q s (ackTaken t x live) := by
  unfold Machine.ackTaken
  split
  · exact (h.setSource x _).answerLive x _
  · exact (h.setSource x _).answerQuiet x _

theorem ackExpired (x : Bus) (h : Keeps Q s t) : Keeps Q s (ackExpired t x) := by
  unfold Machine.ackExpired
  split
  · exact (h.setSource x _).answerQuiet x _
  · apply answerLive
    split
    · exact (h.sendQuiet x).setSource x _
    · exact h.setSource x _
  · exact h

theorem emergencyQuiet (x : Bus) (h : Keeps Q s t) : Keeps Q s (emergencyQuiet t x) := by
  have h' : Keeps Q s (t.modCtx x (fun c =>
      if c.request = some .quiet || c.request = some .live then { c with request := none } else c)) :=
    h.touch x (by intro _; split <;> exact ⟨rfl, rfl, rfl⟩)
  unfold Machine.emergencyQuiet
  split
  · exact h
  · dsimp only
    split
    · exact h'
    · exact h'
    all_goals
      split
      · exact (h'.sendQuiet x).setSource x _
      · exact h'.setSource x _

theorem sourcesLost (l : LaneId) (h : Keeps Q s t) : Keeps Q s (sourcesLost t l) :=
  foldl _ (fun _ x hu => ((hu.setSource x _).answerQuiet x _).answerLive x _) _ h

theorem sourcesQuieted (l : LaneId) (h : Keeps Q s t) : Keeps Q s (sourcesQuieted t l) :=
  foldl _ (fun _ x hu => hu.setSource x _) _ h

/-! ### The matrix controller -/

theorem modOpens (x : Bus) (f : OpenReq → OpenReq) (h : Keeps Q s t) : Keeps Q s (t.modOpens x f) :=
  h.touch x (by intro _; split <;> exact ⟨rfl, rfl, rfl⟩)

theorem answerOpens (x : Bus) (h : Keeps Q s t) : Keeps Q s (answerOpens t x) := by
  unfold Machine.answerOpens
  split
  · split
    · exact (h.touch x).post _
    · exact h
  · exact h

theorem sendOrder (c : CardId) (o : Order)
    (hk : TablesLawful s → OpensFirst s → DisabledAtRest s → o.kind = .make → t.isSafe = false ∧ t.tripped o.bus = false) (h : Keeps Q s t) :
    Keeps Q s (sendOrder t c o) := by
  have hp : ∀ l tag, TablesLawful s → OpensFirst s → DisabledAtRest s → Permitted t (l, o.frame tag) := by
    intro l tag ht ho hd
    unfold Order.frame
    cases hm : o.kind == .make with
    | true => exact hk ht ho hd (by simpa using hm)
    | false => trivial
  have hq : ∀ (k : CardCtl) (q : Prop),
      q → ({ k with pending := some ⟨k.nextTag, o⟩, nextTag := k.nextTag + 1 } : CardCtl).TagFollows := by
    intro k _ _ p hp
    cases hp
    rfl
  replace hq := hq (t.card c) (t.card c).TagFollows
  unfold Machine.sendOrder
  dsimp only
  refine modXps _ _ _ (fun r => ?_) ?_
  · unfold Order.sentTo; split
    · rfl
    · split <;> rfl
  · split
    · split
      · exact setCard c _ (by rfl) (fun _ => .inl) hq (h.emit _ _ (hp _ _))
      · exact setCard c _ (by rfl) (fun _ => .inl) hq h
    · exact setCard c _ (by rfl) (fun _ => .inl) hq h

theorem withdrawOrder (c : CardId) (o : Order) (m : Mail) (h : Keeps Q s t) : Keeps Q s (withdrawOrder t c o m) := by
  have h1 : Keeps Q s ((t.modXps o.bus o.points XRec.unreserved).pushWork (o.points.map .point ++ [.send c])) :=
    (modXps _ _ _ (fun r => by unfold XRec.unreserved; split <;> rfl) h).pushWork _
  unfold Machine.withdrawOrder
  dsimp only
  split
  · exact (h1.touch _).post _
  · exact h1

theorem sendOpen (c : CardId) (o : Order) (hk : TablesLawful s → OpensFirst s → DisabledAtRest s → o.kind ≠ .make)
    (h : Keeps Q s t) : Keeps Q s (sendOpen t c o) := by
  unfold Machine.sendOpen
  split
  · refine pushWork _ ?_
    split
    · exact h.answerOpens _
    · exact h
  · exact h.sendOrder c _ (fun ht ho hd hm => absurd hm (hk ht ho hd))

theorem sendNext (c : CardId) (h : Keeps Q s t) : Keeps Q s (sendNext t c) := by
  refine h.trans ?_
  unfold Machine.sendNext
  dsimp only
  split
  · exact refl t
  · split
    · next o rest hp =>
      refine sendOpen c o (fun _ ho _ hm => by rcases ho c o (by rw [hp]; simp) with h | h <;> rw [hm] at h <;> cases h) ?_
      exact setCard c _ (by rfl) (fun o' hm => .inl (by rw [hp]; exact List.mem_cons_of_mem _ hm)) id (refl t)
    · next o rest hp _ =>
      have h' : Keeps Q t (t.setCard c { t.card c with ordinary := rest }) := setCard c _ (by rfl) (fun _ => .inl) id (refl t)
      split
      · split
        · next hc => exact h'.sendOrder c o (fun _ _ _ _ => ⟨(sendCheck_pass hc).1, (sendCheck_pass hc).2.1⟩)
        · exact h'.withdrawOrder c o _
        · exact h'.withdrawOrder c o _
      · next hm => exact h'.sendOpen c o (fun _ _ _ => hm)
    · exact refl t

theorem placePriority (c : CardId) (o : Order) (ho : o.kind = .recovery ∨ o.kind = .emergency) (h : Keeps Q s t) :
    Keeps Q s (placePriority t c o) := by
  have h' : Keeps Q s (t.setCard c { t.card c with priority := (t.card c).priority ++ [o] }) :=
    setCard c _ (by rfl) (by
      intro o' hm
      rcases List.mem_append.1 hm with hm | hm
      · exact .inl hm
      · exact .inr (by rw [List.mem_singleton.1 hm]; exact ho)) id h
  unfold Machine.placePriority
  dsimp only
  split
  · exact h'.sendNext c
  · exact h'

theorem placeAtHead (c : CardId) (o : Order) (ho : o.kind = .recovery ∨ o.kind = .emergency) (h : Keeps Q s t) : Keeps Q s (placeAtHead t c o) :=
  setCard c _ (by rfl) (by
    intro o' hm
    rcases List.mem_cons.1 hm with hm | hm
    · exact .inr (by rw [hm]; exact ho)
    · exact .inl hm) id h

theorem reserve (x : Bus) (ps : List Pt) (h : Keeps Q s t) : Keeps Q s (t.reserve x ps) :=
  modXps _ _ _ (by intro _; rfl) h

theorem placeOrdinary (c : CardId) (o : Order) (h : Keeps Q s t) : Keeps Q s (placeOrdinary t c o).1 := by
  have h1 : Keeps Q s (t.setCard c { t.card c with ordinary := (t.card c).ordinary ++ [o] }) :=
    setCard c _ (by rfl) (fun _ => .inl) id h
  have h' : Keeps Q s (if o.kind = .make then
      (t.setCard c { t.card c with ordinary := (t.card c).ordinary ++ [o] }).reserve o.bus o.points
      else t.setCard c { t.card c with ordinary := (t.card c).ordinary ++ [o] }) := by
    split
    · exact h1.reserve o.bus o.points
    · exact h1
  unfold Machine.placeOrdinary
  dsimp only
  split
  · exact h
  · dsimp only
    split
    · exact h'.sendNext c
    · exact h'

theorem returnReservations (x : Bus) (h : Keeps Q s t) : Keeps Q s (returnReservations t x) :=
  (modXps _ _ _ (fun r => by unfold XRec.unreserved; split <;> rfl) h).pushWork _

theorem modCards (f : CardCtl → CardCtl) (hr : ∀ k, (f k).rejectReason = k.rejectReason)
    (hp : ∀ k, (f k).priority = k.priority) (hq : ∀ k, k.TagFollows → (f k).TagFollows) (h : Keeps Q s t) :
    Keeps Q s (t.modCards f) :=
  foldl _ (fun _ c hu => setCard c _ (hr _) (fun o ho => .inl (by rw [hp] at ho; exact ho)) (hq _) hu) _ h

theorem withdrawMake (x : Bus) (h : Keeps Q s t) : Keeps Q s (withdrawMake t x) := by
  unfold Machine.withdrawMake
  split
  · refine returnReservations x (modCards _ (fun k => CardCtl.orphan_reason _ x)
      (fun k => CardCtl.orphan_priority _ x) (fun k hk => CardCtl.orphan_tagFollows (k.without x _) x hk) (h.touch x))
  · exact h

theorem placeMake (x : Bus) (c : CardId) (ps : List Pt) (h : Keeps Q s t) : Keeps Q s (placeMake t x c ps).1 := by
  have h1 := h.placeOrdinary c ⟨.make, x, needClosing t x ps, true⟩
  unfold Machine.placeMake
  split
  · next he => rw [he] at h1; exact h1
  · next he => rw [he] at h1; exact (h1.touch x).returnReservations x

theorem makeRequest (x : Bus) (tg : Target) (h : Keeps Q s t) : Keeps Q s (makeRequest t x tg).1 := by
  unfold Machine.makeRequest
  split
  · exact h
  · dsimp only
    have h1 : Keeps Q s (t.reserve x tg.points) := h.reserve x tg.points
    split
    · exact h1
    · split
      · split
        · next he => exact Eq.mp (congrArg (fun r => Keeps Q s r.1) he) (placeMake x _ _ (h1.touch x))
        · next he => exact Eq.mp (congrArg (fun r => Keeps Q s r.1) he) (placeMake x _ _ (h1.touch x))
      · dsimp only
        refine h1.touch x ?_
        intro _; exact ⟨rfl, rfl, rfl⟩

theorem placeBreak (x : Bus) (g : CardId × List Pt) (h : Keeps Q s t) : Keeps Q s (placeBreak t x g) := by
  have h1 := h.placeOrdinary g.1 ⟨.brk, x, g.2, true⟩
  unfold Machine.placeBreak
  split
  · split
    · next he => rw [he] at h1; exact h1
    · next he => rw [he] at h1; exact h1.modOpens x _
  · exact h.modOpens x _

theorem opensRequest (x : Bus) (ps : List Pt) (h : Keeps Q s t) : Keeps Q s (opensRequest t x ps) := by
  unfold Machine.opensRequest
  dsimp only
  refine answerOpens x (foldl _ (fun _ g hu => hu.placeBreak x g) _ ?_)
  exact (modXps _ _ _ (fun r => by unfold XRec.unreserved; split <;> rfl) (h.touch x)).pushWork _

theorem handleAwaited (x : Bus) (ps : List Pt) (h : Keeps Q s t) : Keeps Q s (handleAwaited t x ps) := by
  unfold Machine.handleAwaited
  split
  · exact answerOpens x (foldl _ (fun _ g hu => hu.placeBreak x g) _ (h.modOpens x _))
  · exact h

theorem tellRequest (o : Order) (f : Option Cause) (h : Keeps Q s t) : Keeps Q s (tellRequest t o f) := by
  unfold Machine.tellRequest
  split
  · exact h
  · split
    · exact (h.touch _).post _
    · split
      · exact h
      · exact h.modOpens _ _
      · exact h.modOpens _ _
    · exact h

theorem endPending (c : CardId) (h : Keeps Q s t) : Keeps Q s (endPending t c) := setCard c _ (by rfl) (fun _ => .inl) (fun _ _ hp => by cases hp) h

theorem placeMarked (c : CardId) (x : Bus) (ps : List Pt) (h : Keeps Q s t) : Keeps Q s (placeMarked t c x ps) := by
  unfold Machine.placeMarked
  split
  · exact h
  · exact h.placePriority c _ (by simp)

theorem arbitrate (p : Pt) (h : Keeps Q s t) : Keeps Q s (arbitrate t p) := by
  unfold Machine.arbitrate
  split
  · exact h
  · split
    · exact h
    · next x _ _ =>
      have h1 : Keeps Q s (t.reserve x [p]) := h.reserve x [p]
      dsimp only
      split
      · next r _ =>
        have h2 := h1.touch x (f := fun c =>
          { c with request := some (.make { r with waiting := r.waiting.filter (· ≠ p) }) })
        split
        · have h3 := h2.placeMake x r.card r.points
          split
          · next he => 
            rw [he] at h3
            refine modCtx x _ (by split <;> rfl) (.inr (fun hr => ?_)) h3
            rw [if_neg (fun hb => by rcases hr.2 with h | h <;> simp_all)]; exact hr
          · next he => rw [he] at h3; exact h3.post _
        · exact h2
      · exact h1

theorem blockWaitExpired (x : Bus) (h : Keeps Q s t) : Keeps Q s (blockWaitExpired t x) :=
  ((h.touch x).returnReservations x).post _

theorem emergencyOpen (x : Bus) (h : Keeps Q s t) : Keeps Q s (emergencyOpen t x) := by
  unfold Machine.emergencyOpen
  dsimp only
  refine foldl _ (fun _ g hu => hu.placePriority _ _ (by simp)) _ (modXps _ _ _ (by intro _; rfl) ?_)
  refine returnReservations x (modCards _ (fun k => CardCtl.orphan_reason _ x) (fun k => CardCtl.orphan_priority _ x)
    (fun k hk => CardCtl.orphan_tagFollows (k.without x _) x hk) ?_)
  exact h.touch x (by intro _; split <;> exact ⟨rfl, rfl, rfl⟩)

theorem requestLosesCard (c : CardId) (b : Bool) (x : Bus) (h : Keeps Q s t) : Keeps Q s (requestLosesCard t c b x) := by
  unfold Machine.requestLosesCard
  split
  · split
    · exact (h.touch x).post _
    · exact h
  · exact (h.modOpens x _).answerOpens x
  · exact h

theorem cardLost (c : CardId) (h : Keeps Q s t) : Keeps Q s (cardLost t c).1 := by
  unfold Machine.cardLost
  dsimp only
  refine foldl _ (fun _ x hu => hu.requestLosesCard c _ x) _ (foldl _ (fun u x hu => ?_) _ ?_)
  · exact modXps _ _ _ (fun r => by unfold XRec.lost; split <;> rfl) hu
  · exact setCard c _ (by rfl) (by simp) (fun _ _ hp => by cases hp) h

theorem allOpenConfirmed (c : CardId) (h : Keeps Q s t) : Keeps Q s (allOpenConfirmed t c) := by
  unfold Machine.allOpenConfirmed
  exact (foldl _ (fun u x hu => modXps _ _ _ (by intro _; rfl) hu) _ h).pushWork _

theorem recoveryOpens (c : CardId) (h : Keeps Q s t) : Keeps Q s (recoveryOpens t c) :=
  foldl _ (fun _ x hu => foldl _ (fun _ g hv => hv.placePriority _ _ (by simp)) _ hu) _ h

theorem doMatrix (w : MatrixWork) (h : Keeps Q s t) : Keeps Q s (doMatrix t w) := by
  cases w with
  | point p => exact h.arbitrate p
  | send c => exact h.sendNext c

/-! ### The result queue and the judge -/

theorem appendRecord (r : Rec) (hl : t.queue.records.length < 64) (hq : r.noReading = true ∨ ∀ q, Q (r.stamped q))
    (h : Keeps Q s t) : Keeps Q s (appendRecord t r) := by
  refine h.trans ?_
  have hr : ∀ (q : ResultQueue), (if r.delivers then q.delivered else q).compact = q.compact := by
    intro q; split <;> rfl
  have hrec : ∀ q, ∀ r' ∈ [r.stamped q], r'.noReading = true ∨ Q r' := fun q r' hm => by
    rw [List.mem_singleton.1 hm]
    exact hq.imp (fun h => (r.noReading_stamped q).trans h) (fun h => h q)
  have hne : ∀ {P : Prop}, t.queue.records ++ [r.stamped t.queue] = t.queue.records → P := fun he => by simp at he
  have hfst : ∀ r' l, t.queue.records ++ [r.stamped t.queue] = t.queue.records ++ r' :: l → r' = r'.stamped t.queue := by
    intro r' l he
    rw [← (List.cons.inj (List.append_cancel_left he)).1, Rec.stamped_stamped]
  unfold Machine.appendRecord
  dsimp only
  split
  · next hc =>
    simp only [List.length_append, List.length_singleton] at hc
    refine raise _ { refl (Q := Q) t with
      records := ⟨_, rfl, hrec _⟩, counts := fun _ => hne, first := fun _ => hfst, bounded := fun _ => ⟨?_, fun _ => rfl⟩ }
    show (t.queue.records ++ _).length ≤ 64
    simp only [List.length_append, List.length_singleton]; omega
  · next hc =>
    refine { refl (Q := Q) t with
      records := ⟨_, rfl, hrec _⟩, counts := fun _ => hne, first := fun _ => hfst
      bounded := fun hb => ⟨?_, fun h48 => ?_⟩ }
    · show (t.queue.records ++ _).length ≤ 64
      simp only [List.length_append, List.length_singleton]; omega
    · show (if r.delivers then t.queue.delivered else t.queue).compact = true
      have h48' : 48 ≤ (t.queue.records ++ [Rec.stamped t.queue r]).length := h48
      simp only [List.length_append, List.length_singleton] at h48' hc
      rw [hr]
      by_cases h47 : t.queue.records.length + 1 = 48
      · simpa [h47] using hc
      · exact hb.2 (by omega)

theorem slotTaken (x : Bus) (h : Keeps Q s t) : Keeps Q s (slotTaken t x) := (h.touch x).post _

theorem offer (x : Bus)
    (hq : ∀ sl, (t.ctx x).slot = some sl → (sl.record.noReading = true ∧ sl.foldable = false) ∨ ∀ r, Q r)
    (h : Keeps Q s t) : Keeps Q s (offer t x) := by
  unfold Machine.offer
  split
  · exact h
  · next sl hs =>
    split
    · next hf =>
      refine (h.folded ?_).slotTaken x
      rcases hq sl hs with hr | hr
      · simp [hr.2] at hf
      · exact ⟨_, hr sl.record⟩
    · split
      · next hl => exact (h.appendRecord _ hl ((hq sl hs).imp And.left (fun hr q => hr _))).slotTaken x
      · exact h

/-- A judgement appends at most its own record, which is no reading where the verdict is INVALID (R129, R131). -/
theorem judge (x : Bus) (v : Verdict) (body : MeasBody) (fl : Flags) (unit : Fin 16) (n : Nat) (row : Fin 16)
    (site : Option Site) (hq : v = .invalid ∨ ∀ r, Q r) (h : Keeps Q s t) :
    Keeps Q s (judge t x v body fl unit n row site) := by
  have h1 : ∀ d : DispEntry, Keeps Q s (match site with
      | some u => t.setVerdict u ((t.verdict u).judge v d)
      | none => t) := by
    intro d; split
    · exact setVerdict _ _ (SiteVerdict.judge_onward _ _ _) h
    · exact h
  have hs : ∀ (r : MeasRec) (b : Bool), r.verdict = v →
      ((Rec.measure r).noReading = true ∧ (v == .pass && b) = false) ∨ ∀ r, Q r := by
    intro r b hr
    refine hq.imp (fun h => ⟨?_, by rw [h]; rfl⟩) id
    show (r.verdict == .invalid) = true
    rw [hr, h]; rfl
  unfold Machine.judge
  dsimp only
  refine touch x ?_
  split
  all_goals refine offer x (fun sl hsl => ?_) ?_
  · simp only [State.raise_ctx, State.ctx_setCtx_self, Option.some.injEq] at hsl
    subst hsl
    exact hs _ _ rfl
  · exact (setCtx x _ (by exact ⟨rfl, rfl, rfl⟩) (h1 _)).raise _
  · simp only [State.ctx_setCtx_self, Option.some.injEq] at hsl
    subst hsl
    exact hs _ _ rfl
  · exact setCtx x _ (by exact ⟨rfl, rfl, rfl⟩) (h1 _)

theorem judgeInvalid (x : Bus) (c : Cause) (h : Keeps Q s t) : Keeps Q s (judgeInvalid t x c) :=
  judge x _ _ _ _ _ _ _ (.inl rfl) h

theorem judgeTake (x : Bus) (k : Capture) (d : Nat) (hq : ∀ r, Q r) (h : Keeps Q s t) : Keeps Q s (judgeTake t x k d) :=
  judge x _ _ _ _ _ _ _ (.inr hq) h

end Keeps

end Sys2Proof.Machine
end

