-- ==== Sys2Proof/Laws/KeepsContext.lean ====
section
/-! SUPPORT. The operations of the bus contexts and the working through of consequences keep `Keeps`. -/

-- One proof at a time: run together, these proofs all wait for the same earlier checks, a thread each.
set_option Elab.async false

namespace Sys2Proof.Machine

namespace Keeps

variable {Q : Rec → Prop} {s t : State}

/-! ### The site sequence -/

/-- A context becomes IDLE; one at rest stays at rest (R83). -/
theorem toIdle (x : Bus) (h : Keeps Q s t) : Keeps Q s (toIdle t x) :=
  post _ (modCtx x _ (by rfl) (.inr (by exact fun hr => ⟨hr.1, .inl rfl⟩)) h)

theorem cancelTake (x : Bus) (h : Keeps Q s t) : Keeps Q s (cancelTake t x) := by
  unfold Machine.cancelTake
  dsimp only
  split
  · exact (h.emit _ _ (by intro _ _ _; trivial)).touch x
  · exact h.touch x

theorem endSite (x : Bus) (he : AtWork s x) (c : Cause) (h : Keeps Q s t) : Keeps Q s (endSite t x c) := by
  unfold Machine.endSite
  dsimp only
  refine post _ (upd x he (judgeInvalid x c ?_) (by intro _; split <;> rfl))
  split
  · exact h.withdrawMake x
  · exact h.withdrawMake x
  · exact h.upd x he
  · exact h.cancelTake x
  · exact h

theorem enterMeasuring (x : Bus) (he : AtWork s x) (h : Keeps Q s t) : Keeps Q s (enterMeasuring t x) := by
  unfold Machine.enterMeasuring
  split
  · split
    · dsimp only
      split
      · exact (emit _ _ (by intro _ _ _; trivial) (h.upd x he)).markHigh _
      · exact emit _ _ (by intro _ _ _; trivial) (h.upd x he)
    · exact ((h.judgeInvalid x _).upd x he).post _
  · exact h

theorem enterHolding (x : Bus) (he : AtWork s x) (h : Keeps Q s t) : Keeps Q s (enterHolding t x) := (h.upd x he).post _

theorem afterLive (x : Bus) (he : AtWork s x) (h : Keeps Q s t) : Keeps Q s (afterLive t x) := by
  unfold Machine.afterLive
  split
  · exact h.enterHolding x he
  · exact h.enterMeasuring x he

theorem enterRestoring (x : Bus) (he : AtWork s x) (hk : (t.busEntry x).kind = .source) (h : Keeps Q s t) : Keeps Q s (enterRestoring t x) := by
  unfold Machine.enterRestoring
  dsimp only
  have h1 := Keeps.liveRequest (t := t.modCtx x (fun c => { c with state := .restoring })) x he hk (h.upd x he)
  split
  all_goals (rename_i hq; rw [hq] at h1)
  · exact h1.afterLive x he
  · exact h1.endSite x he _
  · exact h1
  · exact h1.upd x he

theorem afterSettle (x : Bus) (he : AtWork s x) (h : Keeps Q s t) : Keeps Q s (afterSettle t x) := by
  unfold Machine.afterSettle
  dsimp only
  split
  · next hk => exact (h.upd x he).enterRestoring x he hk
  · exact (h.upd x he).afterLive x he

theorem settleDecision (x : Bus) (he : AtWork s x) (b : Bool) (h : Keeps Q s t) : Keeps Q s (settleDecision t x b) := by
  unfold Machine.settleDecision
  dsimp only
  split
  · exact h.afterSettle x he
  · split
    · split
      · exact (h.upd x he).afterSettle x he
      · exact h.upd x he
    · split
      · exact (h.upd x he).afterSettle x he
      · exact h.upd x he

theorem askMake (x : Bus) (he : AtWork s x) (h : Keeps Q s t) : Keeps Q s (askMake t x) := by
  unfold Machine.askMake
  split
  · exact h
  · next tg _ =>
    dsimp only
    have h1 := Keeps.makeRequest x tg (h.upd x he (f := fun c => { c with state := .making }))
    split
    all_goals (rename_i hq; rw [hq] at h1)
    · exact h1
    · exact h1.endSite x he _
    · exact h1.settleDecision x he _
    · exact h1.upd x he
    · exact h1

theorem enterBreaking (x : Bus) (he : AtWork s x) (h : Keeps Q s t) : Keeps Q s (enterBreaking t x) := (h.upd x he).opensRequest x _

theorem afterQuiet (x : Bus) (he : AtWork s x) (h : Keeps Q s t) : Keeps Q s (afterQuiet t x) := by
  unfold Machine.afterQuiet
  split
  · exact h.askMake x he
  · exact h.enterBreaking x he

theorem enterQuieting (x : Bus) (he : AtWork s x) (h : Keeps Q s t) : Keeps Q s (enterQuieting t x) := by
  unfold Machine.enterQuieting
  dsimp only
  have h1 := Keeps.quietRequest x (h.upd x he (f := fun c => { c with state := .quieting }))
  split
  all_goals (rename_i hq; rw [hq] at h1)
  · exact h1.upd x he
  · exact h1.endSite x he _
  · exact h1.afterQuiet x he

theorem startSite (x : Bus) (he : AtWork s x) (u : Site) (h : Keeps Q s t) : Keeps Q s (startSite t x u) := by
  unfold Machine.startSite
  split
  · exact h
  · split
    · exact h
    · dsimp only
      split
      · exact (((h.upd x he).judgeInvalid x _).upd x he).post _
      · split
        · exact ((h.upd x he).upd x he).settleDecision x he _
        · split
          · exact ((h.upd x he).upd x he).enterQuieting x he
          · exact ((h.upd x he).upd x he).afterQuiet x he

/-! ### Sweeps, releases and the end of a step -/

theorem sweepEnds (x : Bus) (he : AtWork s x) (k : EndKind) (h : Keeps Q s t) : Keeps Q s (sweepEnds t x k) := (h.upd x he).post _

theorem nextSite (x : Bus) (he : AtWork s x) (h : Keeps Q s t) : Keeps Q s (nextSite t x) := by
  unfold Machine.nextSite
  dsimp only
  split
  · exact (h.upd x he).startSite x he _
  · exact (h.upd x he).sweepEnds x he _

theorem releaseFails (x : Bus) (he : AtWork s x) (c : Cause) (h : Keeps Q s t) : Keeps Q s (releaseFails t x c) := by
  unfold Machine.releaseFails
  dsimp only
  split
  · exact ((h.judgeInvalid x c).upd x he).upd x he
  · exact h.upd x he

theorem askRelease (x : Bus) (h : Keeps Q s t) : Keeps Q s (askRelease t x) := h.opensRequest x _

theorem enterReleasing (x : Bus) (he : AtWork s x) (d : Dest) (h : Keeps Q s t) : Keeps Q s (enterReleasing t x d) := by
  unfold Machine.enterReleasing
  dsimp only
  have h1 := Keeps.quietRequest x (h.upd x he (f := fun c =>
    { c with state := .releasing, dest := d, relDone := false, after := .none, lastOk := false, inFlight := none }))
  split
  all_goals (rename_i hq; rw [hq] at h1)
  · exact h1.upd x he
  · exact (h1.releaseFails x he _).askRelease x
  · exact h1.askRelease x

theorem releaseAnswered (x : Bus) (he : AtWork s x) (f : Option Cause) (h : Keeps Q s t) : Keeps Q s (releaseAnswered t x f) := by
  unfold Machine.releaseAnswered
  dsimp only
  refine (upd x he ?_).post _
  split
  · exact h
  · refine releaseFails x he _ ?_
    split
    · exact h
    · exact h.raise _
    · exact h

theorem enterHalted (x : Bus) (he : AtWork s x) (h : Keeps Q s t) : Keeps Q s (enterHalted t x) := (h.upd x he).raise _

theorem arrive (x : Bus) (he : AtWork s x) (h : Keeps Q s t) : Keeps Q s (arrive t x) := by
  unfold Machine.arrive
  split
  · exact h.toIdle x
  · exact h.enterHalted x he

theorem loseHold (x : Bus) (he : AtWork s x) (h : Keeps Q s t) : Keeps Q s (loseHold t x) := (h.raise _).enterReleasing x he _

theorem endStep (x : Bus) (he : AtWork s x) (h : Keeps Q s t) : Keeps Q s (endStep t x) := by
  unfold Machine.endStep
  split
  · split
    · exact h.enterHolding x he
    · exact h.enterReleasing x he _
  · exact h.enterReleasing x he _

theorem goOn (x : Bus) (he : AtWork s x) (a : Action) (h : Keeps Q s t) : Keeps Q s (goOn t x a) := by
  unfold Machine.goOn
  split
  · exact (h.upd x he).enterReleasing x he _
  · split
    · exact h.nextSite x he
    · exact h.endStep x he

theorem placeEnd (x : Bus) (h : Keeps Q s t) : Keeps Q s (placeEnd t x) := by
  unfold Machine.placeEnd
  dsimp only
  split
  · refine offer x (fun sl hsl => ?_) (setCtx x _ (by exact ⟨rfl, rfl, rfl⟩) h)
    simp only [State.ctx_setCtx_self, Option.some.injEq] at hsl
    subst hsl
    exact .inl ⟨rfl, rfl⟩
  · exact h

theorem beginSweep (x : Bus) (he : AtWork s x) (w : Sweep) (h : Keeps Q s t) : Keeps Q s (beginSweep t x w) := (h.upd x he).nextSite x he

theorem continueSweep (x : Bus) (he : AtWork s x) (n : Nat) (h : Keeps Q s t) : Keeps Q s (continueSweep t x n) := by
  unfold Machine.continueSweep
  dsimp only
  split
  · exact h.beginSweep x he _
  · exact h.beginSweep x he _
  · exact h.sweepEnds x he _
  · exact (h.upd x he).sweepEnds x he _
  · exact (h.upd x he).sweepEnds x he _

/-- A step is taken only in READY (R67). -/
theorem takeHead (x : Bus) (he : AtWork s x) (hr : t.isReady = true) (h : Keeps Q s t) : Keeps Q s (takeHead t x) := by
  unfold Machine.takeHead
  split
  · exact h
  · next st rest hq =>
    dsimp only
    have h1 : Keeps Q s (t.modCtx x (fun c =>
        { c with queue := rest, step := some st, lastOk := false, after := .none, captured := none, acc := [],
                 relFail := none })) :=
      takeStep x _ hr he (by rw [hq]; exact List.suffix_cons st rest) h
    split
    · exact h1.enterReleasing x he _
    · exact h1.startSite x he _
    · exact h1.startSite x he _
    · exact h1.beginSweep x he _
    · exact h1.continueSweep x he _

theorem leaveTripped (x : Bus) (h : Keeps Q s t) (hs : (t.ctx x).state = .tripped) :
    Keeps Q s (leaveTripped t x) := by
  unfold Machine.leaveTripped
  split
  · next hr =>
    have he := h.enabled x (fun hc => by rcases hc.2 with h | h <;> simp_all)
    split
    · exact h.nextSite x he
    · exact h.upd x he
  · next hr =>
    have he := h.enabled x (fun hc => by rcases hc.2 with h | h <;> simp_all)
    exact (h.upd x he).enterHalted x he
  · exact h.toIdle x

/-- A context that may take a step stands in a READY rack (R67). -/
theorem ready_of_mayTake {t : State} {x : Bus} (h : mayTake t x = true) : t.isReady = true := by
  simp only [mayTake, Bool.and_eq_true] at h
  exact h.1.1.1.1.2

theorem poke (x : Bus) (h : Keeps Q s t) : Keeps Q s (poke t x) := by
  have h1 := h.placeEnd x
  unfold Machine.poke
  dsimp only
  generalize Machine.placeEnd t x = u at h1
  have hq : ∀ b : Bool, (!(u.ctx x).queue.isEmpty && b) = true → b = true ∧ AtWork s x := fun b hb => by
    simp only [Bool.and_eq_true, Bool.not_eq_true', List.isEmpty_eq_false_iff] at hb
    exact ⟨hb.2, h1.enabled x (fun hr => hb.1 hr.1)⟩
  split
  · split
    · next hm => exact h1.takeHead x (hq _ hm).2 (ready_of_mayTake (hq _ hm).1)
    · exact h1
  · split
    · split
      · exact h1.toIdle x
      · exact h1
    · split
      · next hm => exact h1.takeHead x (hq _ hm).2 (ready_of_mayTake (hq _ hm).1)
      · exact h1
  · next hs =>
    split
    · exact h1.arrive x (h1.inState hs)
    · exact h1
  · next hs =>
    have he := h1.inState hs
    split
    · split
      · exact h1.toIdle x
      · exact h1
    · split
      · exact h1.nextSite x he
      · exact h1
  · next hs =>
    split
    · exact h1.leaveTripped x hs
    · exact h1
  · exact h1
  · next hn1 _ _ _ hn2 _ =>
    have he := h1.working x hn1 hn2
    split
    · exact h1
    · split
      · exact h1
      · exact h1.enterReleasing x he _
      · split
        · exact h1.goOn x he _
        · exact h1.upd x he

theorem doMail (m : Mail) (h : Keeps Q s t) : Keeps Q s (doMail t m) := by
  unfold Machine.doMail
  split
  · split
    · next hs =>
      simp only [Bool.and_eq_true, decide_eq_true_eq] at hs
      exact h.settleDecision _ (h.inState hs.1) _
    · exact h
  · split
    · next hs =>
      simp only [Bool.and_eq_true, Bool.or_eq_true, decide_eq_true_eq] at hs
      exact h.endSite _ (hs.1.elim (h.inState ·) (h.inState ·)) _
    · exact h
  · exact h
  · split
    · next hs =>
      have he := h.inState hs
      split
      · split
        · exact h.askMake _ he
        · exact h.endSite _ he _
      · exact h.poke _
    · next hs => exact h.releaseAnswered _ (h.inState hs) _
    · exact h
  · split
    · next hs =>
      have he := h.inState hs
      split
      · split
        · exact h.afterQuiet _ he
        · exact h.endSite _ he _
      · exact h.poke _
    · next hs =>
      have he := h.inState hs
      refine askRelease _ ?_
      split
      · exact h
      · exact h.releaseFails _ he _
    · exact h
  · split
    · next hs =>
      have he := h.inState hs
      split
      · split
        · exact h.afterLive _ he
        · exact h.endSite _ he _
      · exact h.poke _
    · exact h
  · exact h.poke _

/-! ### Outside events -/

/-- A context of an enabled bus is TRIPPED with any resume point (R59). -/
theorem enterTripped (x : Bus) (he : AtWork s x) (r : Resume) (h : Keeps Q s t) : Keeps Q s (enterTripped t x r) :=
  (h.upd x he).post _

/-- With no resume point one at rest stays at rest (R59). -/
theorem enterTripped_none (x : Bus) (h : Keeps Q s t) : Keeps Q s (Machine.enterTripped t x .none) :=
  post _ (modCtx x _ (by rfl) (.inr (by exact fun hr => ⟨hr.1, .inr ⟨rfl, rfl⟩⟩)) h)

theorem tripCtx (x : Bus) (h : Keeps Q s t) : Keeps Q s (tripCtx t x) := by
  unfold Machine.tripCtx
  dsimp only
  split
  · exact h
  · exact h.enterTripped_none x
  · exact h.enterTripped_none x
  · next hs => exact h.enterTripped x (h.inState hs) _
  · next hs => exact h.enterTripped x (h.inState hs) _
  · next hs =>
    have he := h.inState hs
    split
    · exact (h.judgeInvalid x _).enterTripped x he _
    · exact h.enterTripped x he _
  · next h2 h1 _ _ _ _ =>
    have he := h.working x h1 h2
    split
    · refine enterTripped x he _ (judgeInvalid x _ ?_)
      split
      · exact h.cancelTake x
      · exact h
    · exact h.enterTripped x he _

theorem safeCtx (x : Bus) (h : Keeps Q s t) : Keeps Q s (safeCtx t x) := by
  unfold Machine.safeCtx
  dsimp only
  split
  · exact h.post _
  · exact (h.touch x).post _
  · exact h
  · exact h
  · exact h
  · exact h
  · next h1 _ _ h2 =>
    have he := h.working x h1 h2
    split
    · refine upd x he ?_
      split
      · exact h.cancelTake x
      · exact h
    · exact (h.upd x he).post _

theorem readyCtx (x : Bus) (h : Keeps Q s t) : Keeps Q s (readyCtx t x) := by
  unfold Machine.readyCtx
  dsimp only
  split
  · next hs =>
    have he := h.inState hs
    split
    · split
      · exact h.startSite x he _
      · exact h.post _
    · exact (h.upd x he).enterReleasing x he _
    · split
      · exact h.enterReleasing x he _
      · exact h.post _
    · exact h.post _
  · exact h.post _
  · exact h.post _
  · exact h

theorem departCtx (u : Site) (x : Bus) (h : Keeps Q s t) : Keeps Q s (departCtx t u x) := by
  unfold Machine.departCtx
  dsimp only
  split
  · exact h
  · exact h
  · exact h
  · exact h
  · next hs =>
    split
    · exact h.loseHold x (h.inState hs)
    · exact h
  · next hs =>
    split
    · exact ((h.judgeInvalid x _).upd x (h.inState hs)).post _
    · exact h
  · next h1 _ h2 _ _ _ =>
    split
    · exact h.endSite x (h.working x h1 h2) _
    · exact h

theorem cardLossCtx (c : CardId) (x : Bus) (h : Keeps Q s t) : Keeps Q s (cardLossCtx t c x) := by
  unfold Machine.cardLossCtx
  dsimp only
  split
  · exact h
  · split
    · next hs =>
      split
      · exact h.endSite x (h.inState hs) _
      · exact h
    · next hs =>
      split
      · exact h.endSite x (h.inState hs) _
      · exact h
    · next hs =>
      split
      · exact h.endSite x (h.inState hs) _
      · exact h
    · next hs => exact h.loseHold x (h.inState hs)
    · exact h

theorem instrumentLossCtx (x : Bus) (h : Keeps Q s t) : Keeps Q s (instrumentLossCtx t x) := by
  unfold Machine.instrumentLossCtx
  dsimp only
  split
  · next hs =>
    split
    · exact h.endSite x (h.inState hs) _
    · exact h
  · next hs => exact h.loseHold x (h.inState hs)
  · exact h

theorem abortSweep (x : Bus) (h : Keeps Q s t) : Keeps Q s (abortSweep t x) :=
  h.touch x (by intro _; split <;> exact ⟨rfl, rfl, rfl⟩)

theorem abortCtx (x : Bus) (h : Keeps Q s t) : Keeps Q s (abortCtx t x) := by
  unfold Machine.abortCtx
  dsimp only
  split
  · exact h
  · next hs => exact h.enterReleasing x (h.inState hs) _
  · next hs => exact ((h.abortSweep x).upd x (h.inState hs)).post _
  · next hs =>
    refine (upd x (h.inState hs) (abortSweep x ?_)).post _
    split
    · exact h.judgeInvalid x _
    · exact h
  · exact (h.abortSweep x).enterTripped_none x
  · next hs =>
    have he := h.inState hs
    exact (((h.abortSweep x).upd x he).enterReleasing x he _).post _
  · next h1 _ _ _ h2 _ =>
    have he := h.working x h1 h2
    refine (upd x he (abortSweep x ?_)).post _
    split
    · exact h.endSite x he _
    · exact h

theorem resumeHalted (x : Bus) (hs : (t.ctx x).state = .halted) (h : Keeps Q s t) : Keeps Q s (resumeHalted t x) := by
  have he := h.inState hs
  unfold Machine.resumeHalted
  split
  · split
    · exact h.nextSite x he
    · exact h.upd x he
  · exact h.toIdle x

/-- The working through of consequences keeps `Keeps`. -/
theorem drain (n : Nat) (h : Keeps Q s t) : Keeps Q s (drain n t) := by
  induction n generalizing t with
  | zero => exact h
  | succ n ih =>
    unfold Machine.drain
    split
    · exact ih ((h.matrixWork _).doMatrix _)
    · exact ih ((h.mail _).doMail _)
    · exact h

end Keeps

/-- With nothing left to do, nothing is done. -/
theorem drain_quiesced (n : Nat) {s : State} (h : Quiesced s) : drain n s = s := by
  cases n with
  | zero => rfl
  | succ n => simp [drain, h.1, h.2]

end Sys2Proof.Machine
end

