-- ==== Sys2Proof/Laws/Trunk.lean ====
section
/-!
SUPPORT. What the end of a command can do: the transmitter's choice, the panel's close, and both after the
consequences. A statement about a command cites these and never unfolds `pump`, `panelCheck` or `finish`.
-/

namespace Sys2Proof.Machine

/-! ### The transmitter -/

/-- A busy transmitter starts nothing (R189). -/
theorem pump_busy {s : State} (h : s.trunk.tx.isSome = true) : pump s = s := by simp [pump, h]

/-- A free transmitter makes the choice of `Trunk.start` (R189). -/
theorem pump_free {s : State} (h : s.trunk.tx = none) :
    pump s = s.modTrunk (fun t => t.start s.queue.records) := by simp [pump, h]

/-- Starting a frame touches the transmitter, the two numbers and the last reported class only (R189, R195). -/
theorem Trunk.start_only (t : Trunk) (records : List Rec) :
    (t.start records).responses = t.responses ∧ (t.start records).attn = t.attn ∧
      (t.start records).flowHold = t.flowHold := by
  unfold Trunk.start
  split
  · exact ⟨rfl, rfl, rfl⟩
  · split
    · split
      · exact ⟨rfl, rfl, rfl⟩
      · split
        · split <;> exact ⟨rfl, rfl, rfl⟩
        · exact ⟨rfl, rfl, rfl⟩
    · split <;> exact ⟨rfl, rfl, rfl⟩
    · exact ⟨rfl, rfl, rfl⟩

/-- `pump` changes the trunk controller alone. -/
theorem pump_eq (s : State) : pump s = { s with trunk := (pump s).trunk } := by
  unfold pump; split <;> rfl

@[simp] theorem pump_tables (s : State) : (pump s).tables = s.tables := by rw [pump_eq]
@[simp] theorem pump_matrix (s : State) : (pump s).matrix = s.matrix := by rw [pump_eq]
@[simp] theorem pump_ctxs (s : State) : (pump s).ctxs = s.ctxs := by rw [pump_eq]
@[simp] theorem pump_queue (s : State) : (pump s).queue = s.queue := by rw [pump_eq]
@[simp] theorem pump_guard (s : State) : (pump s).guard = s.guard := by rw [pump_eq]
@[simp] theorem pump_panel (s : State) : (pump s).panel = s.panel := by rw [pump_eq]
@[simp] theorem pump_lanes (s : State) : (pump s).lanes = s.lanes := by rw [pump_eq]
@[simp] theorem pump_markHigh (s : State) : (pump s).markHigh = s.markHigh := by rw [pump_eq]
@[simp] theorem pump_out (s : State) : (pump s).out = s.out := by rw [pump_eq]
@[simp] theorem pump_matrixWork (s : State) : (pump s).matrixWork = s.matrixWork := by rw [pump_eq]
@[simp] theorem pump_mail (s : State) : (pump s).mail = s.mail := by rw [pump_eq]
@[simp] theorem pump_freeCount (s : State) : (pump s).freeCount = s.freeCount := by rw [pump_eq]
@[simp] theorem pump_pending (s : State) : (pump s).pending = s.pending := by rw [pump_eq]

@[simp] theorem pump_responses (s : State) : (pump s).trunk.responses = s.trunk.responses := by
  unfold pump; split
  · rfl
  · exact (Trunk.start_only _ _).1

@[simp] theorem pump_attn (s : State) : (pump s).trunk.attn = s.trunk.attn := by
  unfold pump; split
  · rfl
  · exact (Trunk.start_only _ _).2.1

@[simp] theorem pump_flowHold (s : State) : (pump s).trunk.flowHold = s.trunk.flowHold := by
  unfold pump; split
  · rfl
  · exact (Trunk.start_only _ _).2.2

/-- `pump` leaves every block but the trunk controller. -/
theorem pump_sameBlocks (s : State) : SameBlocks s (pump s) := by simp [SameBlocks]

/-! ### The panel's close -/

/-- A panel that is not CLOSING is not closed (R138). -/
theorem panelCheck_id {s : State} (h : s.panel.state ≠ .closing) : panelCheck s = s := by simp [panelCheck, h]

/-- What the close of a panel can change: the panel becomes CLOSED or its closing FOLD is pending, at most that FOLD is
appended, and only PROGRESS is raised (R138, R150). -/
structure PanelChecked (s t : State) : Prop where
  tables : t.tables = s.tables
  matrix : t.matrix = s.matrix
  ctxs : t.ctxs = s.ctxs
  guard : t.guard = s.guard
  lanes : t.lanes = s.lanes
  markHigh : t.markHigh = s.markHigh
  out : t.out = s.out
  matrixWork : t.matrixWork = s.matrixWork
  mail : t.mail = s.mail
  freeCount : t.freeCount = s.freeCount
  pending : t.pending = s.pending
  number : t.panel.number = s.panel.number
  verdicts : t.panel.verdicts = s.panel.verdicts
  trunk : t.trunk = { s.trunk with attn := t.trunk.attn }
  attn : t.trunk.attn = { s.trunk.attn with progress := t.trunk.attn.progress }
  progress : s.trunk.attn.progress = true → t.trunk.attn.progress = true
  state : t.panel.state = s.panel.state ∨ (s.panel.state = .closing ∧ t.panel.state = .closed)
  records : ∃ l, t.queue.records = s.queue.records ++ l
  bounded : QueueLawful s → QueueLawful t

theorem PanelChecked.refl (s : State) : PanelChecked s s where
  tables := rfl
  matrix := rfl
  ctxs := rfl
  guard := rfl
  lanes := rfl
  markHigh := rfl
  out := rfl
  matrixWork := rfl
  mail := rfl
  freeCount := rfl
  pending := rfl
  number := rfl
  verdicts := rfl
  trunk := rfl
  attn := rfl
  progress := id
  state := .inl rfl
  records := ⟨[], by simp⟩
  bounded := id

/-- Appending a record touches the queue and at most raises PROGRESS (R144, R147). -/
theorem appendRecord_only (s : State) (r : Rec) :
    ∃ a : AttnSet, (a = s.trunk.attn ∨ a = s.trunk.attn.raised .progress) ∧
      appendRecord s r = { s with queue := (appendRecord s r).queue, trunk := { s.trunk with attn := a } } := by
  unfold appendRecord
  dsimp only
  split
  · exact ⟨_, .inr rfl, rfl⟩
  · exact ⟨_, .inl rfl, rfl⟩

/-- Closing a CLOSING panel, after a record where the queue has room, is within `PanelChecked`. -/
theorem PanelChecked.close {s u : State} (a : AttnSet) (f : Bool)
    (ha : a = s.trunk.attn ∨ a = s.trunk.attn.raised .progress)
    (hu : u = { s with queue := u.queue, trunk := { s.trunk with attn := a }, panel := { s.panel with foldPending := f } })
    (hs : s.panel.state = .closing) (hr : ∃ l, u.queue.records = s.queue.records ++ l)
    (hb : QueueLawful s → QueueLawful u) : PanelChecked s (closePanel u) := by
  have e : closePanel u = { s with
      queue := u.queue
      panel := { s.panel with state := .closed, foldPending := false }
      trunk := { s.trunk with attn := a.raised .progress } } := by rw [hu]; rfl
  exact
    { tables := by rw [e], matrix := by rw [e], ctxs := by rw [e], guard := by rw [e], lanes := by rw [e]
      markHigh := by rw [e], out := by rw [e], matrixWork := by rw [e], mail := by rw [e], freeCount := by rw [e]
      pending := by rw [e], number := by rw [e], verdicts := by rw [e], trunk := by rw [e]
      attn := by rw [e]; rcases ha with rfl | rfl <;> rfl
      progress := fun _ => by rw [e]; rcases ha with rfl | rfl <;> rfl
      state := .inr ⟨hs, by rw [e]⟩
      records := by rw [e]; exact hr
      bounded := fun h => by rw [e]; exact hb h }

/-- The test of the panel's close does no more than `PanelChecked` says (R138). -/
theorem panelCheck_only (s : State) : PanelChecked s (panelCheck s) := by
  unfold panelCheck
  split
  · next h =>
    simp only [Bool.and_eq_true, decide_eq_true_eq] at h
    have hs := h.1.1
    split
    · exact .close s.trunk.attn s.panel.foldPending (.inl rfl) rfl hs ⟨[], by simp⟩ id
    · next hf =>
      unfold offerClosingFold
      dsimp only
      rw [if_neg hf]
      split
      · next hl =>
        obtain ⟨a, ha, ea⟩ := appendRecord_only { s with panel := { s.panel with foldPending := true } } (.fold 0 false)
        refine .close a true ha ea hs ⟨[Rec.stamped s.queue (.fold 0 false)], ?_⟩ (fun hq => ?_)
        · unfold appendRecord; dsimp only; split <;> simp [ResultQueue.delivered, Rec.delivers]
        · obtain ⟨h1, h2⟩ := hq
          unfold appendRecord
          simp only [QueueLawful, ResultQueue.delivered, Rec.delivers, if_true]
          split
          · simp_all [State.raise]
          · next hn =>
            simp only [List.length_append, List.length_singleton, Bool.and_eq_true, decide_eq_true_eq,
              Bool.not_eq_true', not_and, Bool.not_eq_false] at hn ⊢
            refine ⟨by omega, fun h48 => ?_⟩
            by_cases hc : 48 ≤ s.queue.records.length
            · exact h2 hc
            · exact hn (by omega)
      · exact { PanelChecked.refl s with number := rfl, verdicts := rfl }
  · exact .refl s

/-! ### The end of a command -/

/-- What the consequences of a command keep; they append no reading (log 6). -/
theorem drain_keeps (s : State) : Keeps (fun _ => False) s (drain drainBound s) := .drain drainBound (.refl s)

/-- With no consequence waiting, the end of a command is the panel's test and the transmitter's choice. -/
theorem finish_quiesced {s : State} (h : Quiesced s) : finish s = pump (panelCheck s) := by
  rw [finish, drain_quiesced _ h]

/-- With no consequence waiting and no panel CLOSING, it is the transmitter's choice. -/
theorem finish_open {s : State} (h : Quiesced s) (hp : s.panel.state ≠ .closing) : finish s = pump s := by
  rw [finish_quiesced h, panelCheck_id hp]

/-- What the consequences of a command leave alone at its end. -/
theorem finish_leaves (s : State) : LeavesStores s (finish s) := by
  have k := drain_keeps s
  have p := panelCheck_only (drain drainBound s)
  unfold finish
  refine ⟨?_, ?_, ?_, ?_, fun x q => ?_, fun c => ?_, ?_, fun u => ?_⟩
  · rw [pump_tables, p.tables, k.tables]
  · rw [pump_lanes, p.lanes, k.lanes]
  · rw [pump_freeCount, p.freeCount, k.freeCount]
  · rw [pump_panel, p.number, k.panelNumber]
  · simp only [State.xp, pump_matrix, p.matrix]; exact k.wear _
  · simp only [State.card, pump_matrix, p.matrix]; exact k.reasons c
  · obtain ⟨l, hl⟩ := p.records
    obtain ⟨m, hm, _⟩ := k.records
    exact ⟨m ++ l, by rw [pump_queue, hl, hm, List.append_assoc]⟩
  · have := k.verdicts u
    simpa only [State.verdict, pump_panel, p.verdicts] using this

/-- The guard unit and the waiting commands stand, the result queue stays lawful. -/
theorem finish_guard (s : State) : (finish s).guard = s.guard := by
  rw [finish, pump_guard, (panelCheck_only _).guard, (drain_keeps s).guard]

theorem finish_pending (s : State) : (finish s).pending = s.pending := by
  rw [finish, pump_pending, (panelCheck_only _).pending, (drain_keeps s).pending]

theorem finish_bounded (s : State) (h : QueueLawful s) : QueueLawful (finish s) := by
  have := (panelCheck_only _).bounded ((drain_keeps s).bounded h)
  simpa only [finish, QueueLawful, pump_queue] using this

/-- The end of a command answers nothing: the response list stands (R188). -/
theorem finish_responses (s : State) : (finish s).trunk.responses = s.trunk.responses := by
  rw [finish, pump_responses, (panelCheck_only _).trunk, (drain_keeps s).trunk]

/-- The step queues only lose steps from their heads, and none while the rack is not READY (R67). -/
theorem finish_queues (s : State) (x : Bus) : ((finish s).ctx x).queue <:+ (s.ctx x).queue := by
  have := (drain_keeps s).queues x
  simpa only [finish, State.ctx, pump_ctxs, (panelCheck_only _).ctxs] using this

theorem finish_queuesStay (s : State) (h : s.isReady = false) (x : Bus) :
    ((finish s).ctx x).queue = (s.ctx x).queue := by
  have := (drain_keeps s).queuesStay h x
  simpa only [finish, State.ctx, pump_ctxs, (panelCheck_only _).ctxs] using this

/-- The matrix laws hold at the end of a command where they held before its consequences (R21, R22). -/
theorem finish_lawful (s : State) :
    (Sparse.wf s.matrix.xps = true → Sparse.wf (finish s).matrix.xps = true) ∧
      (OpensFirst s → OpensFirst (finish s)) ∧ (TagsFollow s → TagsFollow (finish s)) := by
  have k := drain_keeps s
  have hm : (finish s).matrix = (drain drainBound s).matrix := by rw [finish, pump_matrix, (panelCheck_only _).matrix]
  refine ⟨fun h => ?_, fun h => ?_, fun h => ?_⟩
  · rw [hm]; exact k.canonical h
  · have := k.opensFirst h; simpa only [OpensFirst, State.card, hm] using this
  · have := k.tags h; simpa only [TagsFollow, State.card, hm] using this

/-- Disabled buses stay at rest (R44, R64). -/
theorem finish_rest (s : State) (h : DisabledAtRest s) : DisabledAtRest (finish s) := by
  have k := (drain_keeps s).rest h
  have p := panelCheck_only (drain drainBound s)
  intro x hx
  simpa only [finish, State.ctx, State.busEntry, pump_ctxs, pump_tables, p.ctxs, p.tables] using
    k x (by simpa only [finish, State.busEntry, pump_tables, p.tables] using hx)

/-- Every frame that consequences send is permitted (R29, R49). -/
theorem finish_frames (s : State) (ht : TablesLawful s) (h : OpensFirst s) (hd : DisabledAtRest s) :
    ∃ l, (finish s).out = s.out ++ l ∧ ∀ e ∈ l, Permitted s e := by
  obtain ⟨l, hl, pl⟩ := (drain_keeps s).frames ht h hd
  exact ⟨l, by rw [finish, pump_out, (panelCheck_only _).out, hl], pl⟩

/-- The consequences of a command append no reading and fold none: with nothing appended the queue stands, and the first
record appended carries the counts it had (R131, R145). -/
theorem drain_records (s : State) :
    ∃ l, (drain drainBound s).queue.records = s.queue.records ++ l ∧ (∀ r ∈ l, r.noReading = true) ∧
      (l = [] → (drain drainBound s).queue = s.queue) ∧ ∀ r m, l = r :: m → r = r.stamped s.queue := by
  have k := drain_keeps s
  obtain ⟨l, hl, ql⟩ := k.records
  refine ⟨l, hl, fun r hr => (ql r hr).resolve_right id, fun h => k.counts (by simp) (by simp [hl, h]), fun r m h => ?_⟩
  exact k.first (by simp) r m (by rw [hl, h])

/-! ### Taking a command -/

/-- A command that finds 32 responses waiting is not taken (R188). -/
theorem takeCommand_full {s : State} (h : 32 ≤ s.trunk.responses.length) (kind : Byte) (tag : Half) (p : List Byte)
    (n : Nat) (owner : State → Reply) : takeCommand s kind tag p n owner = s := by simp [takeCommand, h]

/-- A command of the wrong length is answered BAD_LENGTH (R187). -/
theorem takeCommand_badLength {s : State} (h : s.trunk.responses.length < 32) {p : List Byte} {n : Nat}
    (hn : p.length ≠ n) (kind : Byte) (tag : Half) (owner : State → Reply) :
    takeCommand s kind tag p n owner = pump (s.respond tag kind .badLength []) := by
  simp [takeCommand, Nat.not_le.2 h, hn]

/-- Otherwise its owner answers (R187). -/
theorem takeCommand_taken {s : State} (h : s.trunk.responses.length < 32) {p : List Byte} {n : Nat}
    (hn : p.length = n) (kind : Byte) (tag : Half) (owner : State → Reply) :
    takeCommand s kind tag p n owner = answer s kind tag (owner s) := by
  simp [takeCommand, Nat.not_le.2 h, hn]

end Sys2Proof.Machine
end

