-- ==== Sys2Proof/Tests/Slice0.lean ====
section
/-!
SUPPORT. Small tests: what WellFormed refuses, the frame checks, the manual's worked examples, and for each statement
with hypotheses a state and operands that meet them, clause by clause at the ends of the ranges. An expected value is
taken from the section that its comment names.
-/

open Sys2Proof Sys2Proof.Machine

set_option Elab.async false

namespace Sys2Proof.Tests

/-- A payload of `n` zero bytes. -/
def zeros (n : Nat) : List Byte := List.replicate n 0#8

/-! ### What WellFormed refuses: one ill-formed term for each check -/

/-- A frame that passes R186 is no TRUNK_FRAME_DISCARD; one with a flipped bit is. -/
theorem test_wf_trunkFrameDiscard :
    (Instr.trunkFrameDiscard (trunkFrameBytes 0x08#8 7#16 [])).wf = false ∧
      (Instr.trunkFrameDiscard (0x09#8 :: (trunkFrameBytes 0x08#8 7#16 []).tail)).wf = true := by decide +kernel

/-- BAD_KIND carries no command kind; RESPONSE_LIST_FULL carries one; payloads are at most 1,024 bytes. -/
theorem test_wf_kinds :
    (Instr.badKind 1#16 0x01#8 []).wf = false ∧ (Instr.badKind 1#16 0x18#8 []).wf = false ∧
      (Instr.badKind 1#16 0x00#8 []).wf = true ∧ (Instr.badKind 1#16 0x19#8 []).wf = true ∧
      (Instr.badKind 1#16 0x19#8 (zeros 1025)).wf = false ∧ (Instr.responseListFull 1#16 0x19#8 []).wf = false ∧
      (Instr.responseListFull 1#16 0x01#8 (zeros 1025)).wf = false ∧ (Instr.step 1#16 (zeros 1025)).wf = false ∧
      (Instr.step 1#16 (zeros 1024)).wf = true := by decide +kernel

/-- A TABLE WRITE event names its own table and has an entry at its position. -/
theorem test_wf_tableWrites :
    (Instr.tableWriteSite 1#16 (1#8 :: zeros 7) 0).wf = false ∧ (Instr.tableWriteSite 1#16 (zeros 8) 1).wf = false ∧
      (Instr.tableWriteSite 1#16 (zeros 12) 1).wf = true ∧ (Instr.tableWriteSite 1#16 [] 1).wf = false ∧
      (Instr.tableWriteNet 1#16 (1#8 :: zeros 11) 1).wf = false ∧ (Instr.tableWriteBus 1#16 (zeros 10) 0).wf = false ∧
      (Instr.tableWriteCard 1#16 (zeros 9) 0).wf = false ∧ (Instr.tableWriteScale 1#16 (zeros 12) 0).wf = false ∧
      (Instr.tableWriteLimit 1#16 (zeros 18) 0).wf = false ∧
      (Instr.tableWriteDisposition 1#16 (zeros 7) 0).wf = false ∧ (Instr.tableWriteWear 1#16 (zeros 8) 0).wf = false ∧
      (Instr.tableWriteMark 1#16 (zeros 7) 0).wf = false ∧ (Instr.tableWriteMark 1#16 [9#8, 0#8, 0#8, 0#8] 0).wf = true ∧
      (Instr.tableWriteMark 1#16 [9#8, 0#8, 0#8, 0#8] 1).wf = false := by decide +kernel

/-- BAD_FRAME has a wrong check and LANE_FRAME_DISCARD a right one. -/
theorem test_wf_laneFrames :
    (Instr.badFrame 0 (LaneFrame.probe.bytes 0)).wf = false ∧ (Instr.badFrame 0 []).wf = true ∧
      (Instr.laneFrameDiscard 0 [0x01#8, 0x00#8]).wf = false ∧
      (Instr.laneFrameDiscard 0 (LaneFrame.probe.bytes 0)).wf = true := by decide +kernel

/-! ### Checks of frames (spec/12, 12.1 and 12.2) -/

/-- The digits 1 to 9 as bytes: the input for which the published check values of both polynomials are known. -/
def digits : List Byte := [0x31#8, 0x32#8, 0x33#8, 0x34#8, 0x35#8, 0x36#8, 0x37#8, 0x38#8, 0x39#8]

theorem test_crc16_check_value : crc16 digits = 0x29B1#16 := by decide +kernel

theorem test_crc8_check_value : crc8 digits = 0xF4#8 := by decide +kernel

/-- A frame the part builds passes its own check, and a payload byte that changed does not. -/
theorem test_trunk_frame_check :
    goodTrunkFrame (trunkFrameBytes 0x06#8 0x1234#16 [2#8]) = true ∧
      goodTrunkFrame ([0x06#8, 0x34#8, 0x12#8, 1#8, 0#8, 3#8] ++ (trunkFrameBytes 0x06#8 0x1234#16 [2#8]).drop 6) = false ∧
      (trunkFrameBytes 0x06#8 0x1234#16 [2#8]).take 6 = [0x06#8, 0x34#8, 0x12#8, 1#8, 0#8, 2#8] := by decide +kernel

/-- An ORDER frame (spec/12, 12.2): close columns 40, 42 and 45 of bus row 2 under tag 18. -/
theorem test_order_frame :
    (LaneFrame.order 18#8 true 2 [40, 42, 45]).body 5 =
      [0x10#8, 18#8, 3#8, 40#8, 0x82#8, 42#8, 0x82#8, 45#8, 0x82#8] := by decide +kernel

/-! ### Worked cases of the manual -/

/-- Cases A, D, E and F of 6.7. -/
theorem test_samples :
    sampleOf ⟨20000#16, 14, BitVec.ofInt 32 (-1500), 1⟩ 1234567 false = (1505540, false) ∧
      sampleOf ⟨20000#16, 14, BitVec.ofInt 32 (-1500), 1⟩ (-1234567) false = (-1508540, false) ∧
      sampleOf ⟨32767#16, 0, 0#32, 0⟩ 8388607 false = (2147483647, true) ∧
      sampleOf ⟨32767#16, 0, 0#32, 0⟩ (-8388608) false = (-2147483648, true) ∧
      sampleOf ⟨20000#16, 0, 10000#32, 0⟩ 107374 false = (2147483647, true) ∧
      sampleOf ⟨20000#16, 14, BitVec.ofInt 32 (-1500), 1⟩ (-5) true = (-2147483648, true) ∧
      sampleOf ⟨20000#16, 14, BitVec.ofInt 32 (-1500), 1⟩ (-5) false = (-1506, false) ∧
      sampleOf ⟨20000#16, 14, BitVec.ofInt 32 (-1500), 1⟩ 0 true = (2147483647, true) := by decide +kernel

/-- Case B of 6.7: every half goes away from zero. -/
theorem test_halves :
    shiftRound 3 1 = 2 ∧ shiftRound (-3) 1 = -2 ∧ shiftRound 2 1 = 1 ∧ shiftRound 1 1 = 1 ∧ shiftRound (-1) 1 = -1 := by
  decide +kernel

/-- A sample of a value. -/
def sample (i : Nat) (v : Int) : Sample := ⟨i, v, false, 3⟩

/-- Case C of 6.7, and the take of 6.8. -/
theorem test_averages :
    average [sample 0 1505540, sample 1 1505548, sample 2 1505551, sample 3 1505537] = 1505544 ∧
      average [sample 0 5, sample 1 6] = 6 ∧ average [sample 0 (-5), sample 1 (-6)] = -6 ∧
      average [sample 2 1000000, sample 1 1000098, sample 3 1000366] = 1000155 ∧
      (sampleOf ⟨25000#16, 8, 0#32, 3⟩ 10241 false).1 = 1000098 ∧
      (sampleOf ⟨25000#16, 12, 0#32, 3⟩ 163900 false).1 = 1000366 := by decide +kernel

/-- LIMIT entry 20 of 7.2. -/
def limit20 : LimitEntry := ⟨.both, 1000000#32, 1010000#32, 2000, 3⟩

/-- The verdicts of 7.2 for entries 20 to 23. -/
theorem test_verdicts :
    [999999, 1000000, 1000155, 1002000, 1008000, 1008001, 1010000, 1010001].map (verdictOf limit20 · false) =
        [.failLow, .marginal, .marginal, .pass, .pass, .marginal, .marginal, .failHigh] ∧
      verdictOf limit20 716494582 true = .failHigh ∧ verdictOf limit20 1005000 true = .failHigh ∧
      [99, 100, 105, 110, 111].map (verdictOf ⟨.both, 100#32, 110#32, 6, 0⟩ · false) =
        [.failLow, .marginal, .marginal, .marginal, .failHigh] ∧
      [-2147483648, -2, -1, 0, 1, 2147483647].map
          (verdictOf ⟨.both, 0x80000000#32, 0x7FFFFFFF#32, 2147483647, 0⟩ · false) =
        [.marginal, .marginal, .pass, .pass, .marginal, .marginal] ∧
      [4999, 5000, 2147483647].map (verdictOf ⟨.lowOnly, 5000#32, BitVec.ofInt 32 (-7), 2147483647, 0⟩ · false) =
        [.failLow, .marginal, .marginal] := by decide +kernel

/-- One site through a panel, 7.5. -/
theorem test_site_through_a_panel :
    let a := SiteVerdict.initial.judge .pass ⟨0, .proceed, false⟩
    let b := a.judge .marginal ⟨12, .proceed, false⟩
    let c := b.judge .failLow ⟨40, .skipSite, true⟩
    let d := c.judge .invalid ⟨50, .proceed, false⟩
    a = ⟨.passing, 0, 1, 0, false⟩ ∧ b = ⟨.marginal, 12, 2, 0, false⟩ ∧ c = ⟨.failed, 12, 3, 1, true⟩ ∧
      d = ⟨.failed, 12, 4, 1, true⟩ ∧ dispNo 3 .failLow = 17 ∧ dispNo 0 .invalid = 4 := by decide +kernel

/-! ### States for the tests -/

/-- What a command leaves. -/
def after (c : Instr) (s : State) : State :=
  match exec c s with
  | .next t => t
  | _ => s

/-- Change a lane record. -/
def withLane (s : State) (l : LaneId) (st : LaneState) (p : Partner) (n : Fin 5) : State :=
  s.modLane l (fun k => { k with state := st, partner := p, channels := n })

/-- Change one context. -/
def withCtx (s : State) (x : Bus) (f : Ctx → Ctx) : State := s.modCtx x f

/-- Change the rack state. -/
def withRack (s : State) (r : Rack) : State := { s with guard := { s.guard with rack := r } }

/-- Change the panel state. -/
def withPanel (s : State) (p : PanelState) : State := { s with panel := { s.panel with state := p } }

/-- `n` FOLD records in the result queue. -/
def withRecords (s : State) (n : Nat) (compact : Bool) : State :=
  { s with queue := { s.queue with records := List.replicate n (.fold 1 false), compact := compact } }

/-- `n` responses that wait. -/
def withResponses (s : State) (n : Nat) : State :=
  { s with trunk := { s.trunk with responses := List.replicate n ⟨1#16, 4#8, .ok, [], none⟩ } }

/-- READY with an OPEN panel; card 1 on lane 5 and an instrument of four channels on lane 3, both ACTIVE; bus 2 a MEASURE
bus on channel 3 with guard source RACK_LINE, bus 4 a SOURCE bus on channel 0; site 5 at cell (3,2) on block 13, net 7
of points 2, 5 and 0 (the example of 1.5), net 63 of four points, and force net 8. -/
def bench : State :=
  let s := withLane (withLane (withPanel (withRack State.reset .ready) .opn) 5 .active .card 0) 3 .active .instrument 4
  { s with tables := { s.tables with
      sites := s.tables.sites.set 5 ⟨true, 3, 2, 13⟩
      nets := (s.tables.nets.set 7 ⟨3, #v[2, 5, 0, 0], .sense, 15⟩).set 63 ⟨4, #v[7, 6, 5, 4], .sense, 2000⟩ |>.set 8 ⟨1, #v[3, 0, 0, 0], .force, 5⟩
      buses := (s.tables.buses.set 2 ⟨true, .measure, 3, 3, 30, .rackLine⟩).set 4 ⟨true, .source, 3, 0, 0, .fixture 3⟩
      cards := s.tables.cards.set 1 ⟨some 5, 0⟩ } }

/-- The target of 1.5. -/
def target5 : Target := ⟨[104, 106, 109], 13, .sense, 15⟩

/-- The work of bus 2 at site 5 of 1.5: one reading after no discard, limit entry 20. -/
def work5 : Work := .measure (.single 5) 7 20 1 0 60000 false

/-- Bus 2 works at site 5 in a state of its sequence. -/
def atSite5 (s : State) (st : CtxState) : State :=
  withCtx s 2 (fun c => { c with
    state := st, step := some ⟨9#16, work5⟩, site := some 5, net := some 7, target := some target5, inFlight := some 5 })

/-- What bus 2 captured: LIMIT entry 20 of 7.2. -/
def capture5 : Capture := ⟨limit20, Vector.replicate 8 ⟨1#16, 0, 0#32, 3⟩, false⟩

/-- Bus 2 measures at site 5 with take tag 20. -/
def measuring : State :=
  withCtx (atSite5 bench .measuring) 2 (fun c => { c with
    takeTag := 20#8, captured := some capture5, measureTimer := some 60000 })

/-- A crosspoint of bus 2 in a state. -/
def withXp (s : State) (p : Pt) (x : XState) : State := s.setXp 2 p ⟨x, 0, false⟩

/-- Card 1 waits for the answer to an order of bus 2 with tag 18. -/
def withOrder (s : State) (k : OrderKind) (ps : List Pt) : State :=
  s.setCard 1 { s.card 1 with pending := some ⟨18#8, ⟨k, 2, ps, false⟩⟩, nextTag := 19#8 }

/-- Bus 2 waits for point 106 at site 5. -/
def blocked : State :=
  withCtx (atSite5 bench .blocked) 2 (fun c => { c with request := some (.make ⟨1, [104, 106, 109], [106]⟩) })

/-- Bus 4, a SOURCE bus, works a MEASURE step at site 5 and waits on an exchange. -/
def atSource (st : CtxState) (r : Request) : State :=
  withCtx bench 4 (fun c => { c with
    state := st, step := some ⟨9#16, .measure (.single 5) 8 20 1 0 60000 false⟩, inFlight := some 5, request := some r })

/-! ### Resolution and the walk -/

/-- The target of 1.5, and the columns 40, 42 and 45 of its points. -/
theorem test_resolution :
    resolve bench 2 5 7 = some target5 ∧ target5.points.map columnOf = [40, 42, 45] ∧ cardOfBlock 13 = 1 ∧
      target5.points.map (xpNo 2) = [616, 618, 621] ∧ resolve bench 4 5 7 = none ∧ resolve bench 2 6 7 = none := by
  decide +kernel

/-- The next cells of a walk from a cursor, in the order R93 gives. -/
def walk : Nat → Sweep → List (Fin 8 × Fin 8)
  | 0, _ => []
  | n + 1, w =>
    match w.nextCell with
    | none => []
    | some c => c :: walk n { w with cursor := some c }

/-- The two axis orders of R93 over columns 1 to 3 and rows 0 to 1. -/
theorem test_walks :
    walk 9 ⟨.running, ⟨1, 3, 0, 1⟩, .rows, none, 1, []⟩ = [(1, 0), (2, 0), (3, 0), (1, 1), (2, 1), (3, 1)] ∧
      walk 9 ⟨.running, ⟨1, 3, 0, 1⟩, .columns, none, 1, []⟩ = [(1, 0), (1, 1), (2, 0), (2, 1), (3, 0), (3, 1)] := by
  decide +kernel

/-! ### Single commands -/

/-- The order frame of 2.9: a MEASURE step at site 5 reserves its points and sends card 1 one order of three closes. -/
theorem test_step_sends_its_order :
    (after (.step 7#16 (Step.bytes 2 ⟨9#16, work5⟩)) bench).out = [(5, .order 0#8 true 2 [40, 42, 45])] ∧
      ((after (.step 7#16 (Step.bytes 2 ⟨9#16, work5⟩)) bench).xp 2 106).state = .closing := by decide +kernel

/-- 3.7 at 0 ms, without its sweep: TRIP_IN asserts; CANCEL and the emergency open of the two closed points go out, the
take tag moves on, and the site's record is INVALID with cause TRIP. -/
theorem test_trip_in_stops_a_take :
    let t := after (.tripInChange true) (withXp (withXp measuring 104 .closed) 106 .closed)
    (3, .cancel 3 20#8) ∈ t.out ∧ (5, .order 0#8 false 2 [40, 42]) ∈ t.out ∧ (t.ctx 2).takeTag = 21#8 ∧
      (t.xp 2 104).state = .opening ∧ t.queue.records.map Rec.bytes =
        [[0#8, 0#8, 0#8, 2#8, 9#8, 0#8, 5#8, 1#8, 4#8, 0#8, 0#8, 0#8, 0#8, 0#8, 0#8, 0#8, 5#8]] := by decide +kernel

/-- 9.7 at 0 ms: the lid opens during a take; CANCEL, take tag 21, SUSPENDED, and GUARD. -/
theorem test_lid_opens_during_a_take :
    let t := after .lidOpens measuring
    t.out = [(3, .cancel 3 20#8)] ∧ (t.ctx 2).state = .suspended ∧ (t.ctx 2).resume = .redo ∧
      (t.ctx 2).takeTag = 21#8 ∧ t.trunk.attn.guard = true := by decide +kernel

/-- 6.8 and 7.2: a last reading of 1,000,155 under LIMIT entry 20 is MARGINAL. -/
theorem test_last_reading :
    (after (.reading 3 3#8 20#8 0#8 0#8 1000155#24) measuring).queue.records =
      [.measure ⟨⟨false, false, false, false, false⟩, 0#8, 2, 9#16, some 5, 1, .marginal, 0, 1, 3, 0,
        .value 1000155⟩] := by decide +kernel

/-- 2.9, a card that stops answering: the recovery open goes out at once with the next tag. -/
theorem test_order_timeout :
    let t := after (.orderTimeout 1) (withXp (withOrder bench .make [104, 106]) 104 .closing)
    t.out = [(5, .order 19#8 false 2 [40, 42])] ∧ (t.xp 2 104).state = .unknown := by decide +kernel

/-- 10.9: an instrument of two channels trains; five channels are refused. -/
theorem test_training :
    (after (.ident 3 2#8 2#8 0#8 0#8) (withLane State.reset 3 .train .none 0)).lane 3 =
        { Lane.initial with state := .train, partner := .instrument, channels := 2, phase := .clearing } ∧
      (after (.ident 3 2#8 5#8 0#8 0#8) (withLane State.reset 3 .train .none 0)).out = [(3, .probe)] := by
  decide +kernel

/-- 9.8: the board at site 5 is pulled and put back. -/
theorem test_presence :
    let s := after (.presence 5 0x20#8) bench
    let t := after (.presence 5 0x00#8) s
    s.guard.arrival[5] = true ∧ s.guard.departure[5] = false ∧ s.sitePresence 5 = .present ∧
      t.guard.departure[5] = true ∧ t.trunk.attn.site = true := by decide +kernel

/-! ### States and operands that meet the hypotheses of the statements -/

theorem test_meets_StepRunsTheFrontCommand :
    ({ bench with pending := [.lidOpens, .markPulseEnd] } : State).pending = .lidOpens :: [.markPulseEnd] ∧
      bench.pending = [] := by decide +kernel

/-- Where no priority part lists an order, the law of R22 holds. -/
theorem opensFirst_of_empty {s : State} (h : ∀ c, (s.card c).priority = []) : OpensFirst s := fun c o m => by
  simp [h c] at m

theorem test_bench_opensFirst : OpensFirst bench := opensFirst_of_empty (by decide +kernel)

theorem test_tables_lawful_bench : TablesLawful bench := by
  unfold TablesLawful; exact ⟨by decide +kernel, by decide +kernel, by decide +kernel⟩

/-- The law of claims, clause by clause in a form that evaluates. -/
theorem claimsLawful_of {s : State} (claimant : OneClaimant s)
    (pending : ∀ c, ∀ q ∈ (s.card c).pending.toList, ∀ p ∈ q.order.points, cardOf p = c ∧
      (if q.order.kind = .make then (s.xp q.order.bus p).state = .closing
       else (s.xp q.order.bus p).state = .opening ∨ (s.xp q.order.bus p).state = .unknown))
    (unusable : ∀ c, s.cardUsable c = false →
      (s.card c).idle = true ∧ ∀ (x : Bus) (p : Pt), cardOf p = c → (s.xp x p).state ≠ .closed)
    (listed : ∀ c, ∀ o ∈ (s.card c).priority ++ (s.card c).ordinary, ∀ p ∈ o.points, cardOf p = c)
    (targets : ∀ x, ∀ tg ∈ (s.ctx x).target.toList, ∀ p ∈ tg.points, cardOf p = cardOfBlock tg.block)
    (requests : ∀ x, ∀ q ∈ (s.ctx x).request.toList, (match q with
      | .make r => r.points.all (fun p => cardOf p = r.card)
      | _ => true) = true) : ClaimsLawful s :=
  ⟨claimant, fun c q h => pending c q (by simp [h]), unusable, listed, fun x tg h => targets x tg (by simp [h]),
    fun x r h => by simpa using requests x (.make r) (by simp [h])⟩

theorem test_meets_LidOpeningMakesTheRackSafe :
    OpensFirst bench ∧ bench.guard.lidOpen = false ∧ (bench.busEntry 4).kind = .source ∧
      (after .lidOpens bench).guard.lidOpen = true := ⟨test_bench_opensFirst, by decide +kernel⟩

/-- A record of bus 2 that waits in its slot. -/
def waitingSlot : Slot := ⟨.fold 1 false, false⟩

/-- Bus 2 in POSTING with its record in the slot. -/
def postingAt5 (a : Action) : State :=
  withCtx (atSite5 bench .posting) 2 (fun c => { c with inFlight := none, slot := some waitingSlot, after := .act a })

/-- The rows of R88 that a state falls under: working, POSTING, HOLDING, RELEASING toward both ends, and at rest. -/
theorem test_meets_LidOpening_contexts :
    Quiesced measuring ∧ measuring.guard.lidOpen = false ∧ (measuring.ctx 2).state.working = true ∧
      (measuring.ctx 2).inFlight.isSome = true ∧ (measuring.ctx 2).state = .measuring ∧ measuring.channelUsable 2 = true ∧
      ((postingAt5 .proceed).ctx 2).state = .posting ∧ ((postingAt5 .proceed).ctx 2).inFlight = none ∧
      ((postingAt5 .proceed).ctx 2).slot ≠ none ∧ ((postingAt5 .proceed).ctx 2).after ≠ .abort ∧
      ((atSite5 bench .holding).ctx 2).slot = none ∧ ((atSite5 bench .holding).ctx 2).endPending = none ∧
      ((atSite5 bench .releasing).ctx 2).state = .releasing ∧ ((atSite5 bench .releasing).ctx 2).dest = .idle ∧
      ((withCtx (atSite5 bench .releasing) 2 (fun c => { c with dest := .halted })).ctx 2).dest = .halted ∧
      ((atSite5 bench .suspended).ctx 2).state = .suspended := by
  unfold Quiesced; and_intros <;> decide +kernel

/-- R88: SAFE finds bus 2 HOLDING, and RELEASING toward HALTED with and without a record in its slot. -/
theorem test_lid_opens_at_hold_and_release :
    let s := withCtx (atSite5 bench .releasing) 2 (fun c => { c with dest := .halted, inFlight := none })
    let t := after .lidOpens s
    ((after .lidOpens (atSite5 bench .holding)).ctx 2).state = .idle ∧ (t.ctx 2).state = .halted ∧
      t.trunk.attn.step = true ∧
      ((after .lidOpens (withCtx s 2 (fun c => { c with slot := some waitingSlot }))).ctx 2).state = .releasing := by
  decide +kernel

theorem test_meets_LidClosesAndQuiets :
    (after .lidOpens bench).guard.lidOpen = true ∧ bench.guard.lidOpen = false ∧ bench.guard.interlock = .waiting ∧
      (after .lidOpens bench).guard.interlock ≠ .waiting := by decide +kernel

theorem test_meets_GuardLinesTripTheirBuses :
    bench.guard.tripIn ≠ true ∧ bench.guard.tripIn = false ∧ bench.guard.fx[3] ≠ true ∧ bench.guard.fx[0] = false ∧
      bench.laneHasInstrument 3 = true ∧ (3 : Chan).val < (bench.lane 3).channels.val ∧
      bench.guard.instTrips[tripNo 3 3] = false ∧ bench.guard.instTrips[tripNo 3 0] ≠ true := by decide +kernel

theorem test_meets_TrippedBusIsStopped :
    OpensFirst bench ∧ bench.tripped 2 = false ∧ ((match exec (.tripInChange true) bench with
      | .next t => t.tripped 2
      | _ => false) = true) := ⟨test_bench_opensFirst, by decide +kernel⟩

/-- The rows of R59 that a state falls under, at the rise of TRIP_IN. -/
theorem test_meets_TrippedBus_contexts :
    let suspended (r : Resume) := withCtx (atSite5 bench .suspended) 2 (fun c => { c with resume := r })
    Quiesced measuring ∧ (∀ tag p, Instr.tripInChange true ≠ .rackReset tag p) ∧
      (after (.tripInChange true) measuring).tripped 2 = true ∧ measuring.tripped 2 = false ∧
      (measuring.ctx 2).state.working = true ∧ (measuring.ctx 2).inFlight.isSome = true ∧
      invalidSite (measuring.ctx 2) = some 5 ∧ measuring.channelUsable 2 = true ∧
      ((suspended .redo).ctx 2).resume = .redo ∧ invalidSite ((suspended .redo).ctx 2) = some 5 ∧
      ((suspended .next).ctx 2).resume ≠ .redo ∧ (after (.tripInChange true) (suspended .next)).tripped 2 = true ∧
      ((postingAt5 .haltBus).ctx 2).inFlight = none ∧ ((postingAt5 .haltBus).ctx 2).slot ≠ none ∧
      (after (.tripInChange true) (postingAt5 .haltBus)).tripped 2 = true ∧
      (after (.tripInChange true) (atSite5 bench .holding)).tripped 2 = true ∧
      (after (.tripInChange true) (atSite5 bench .releasing)).tripped 2 = true ∧
      (after (.tripInChange true) (atSite5 bench .halted)).tripped 2 = true := by
  unfold Quiesced; and_intros <;> first | decide +kernel | (intro _ _ h; cases h)

/-- R59: a trip with a sweep that has a site left remembers the step, and without one no step. -/
theorem test_trip_remembers :
    let t := after (.tripInChange true) (withCtx measuring 2 (fun c => { c with
      sweep := ⟨.running, ⟨2, 3, 1, 2⟩, .rows, some (3, 2), 2, []⟩ }))
    (t.ctx 2).resume = .next ∧ (t.ctx 2).step = some ⟨9#16, work5⟩ ∧
      ((after (.tripInChange true) measuring).ctx 2).resume = .none ∧
      ((after (.tripInChange true) measuring).ctx 2).step = none := by decide +kernel

/-- R35 at one crosspoint of each state: two closed and one reserved point, one that closes and one that opens. -/
theorem test_emergency_open :
    let s := withOrder (withXp (withXp (withXp (withXp bench 64 .closed) 65 .reserved) 66 .closing) 67 .opening) .make [66]
    let t := after (.tripInChange true) s
    (t.xp 2 64).state = .closed ∧ t.inPriority 2 64 = true ∧ (t.xp 2 65).state = .opn ∧
      t.xp 2 66 = ⟨.closing, 0, true⟩ ∧ t.xp 2 67 = ⟨.opening, 0, true⟩ := by decide +kernel

theorem test_meets_DiscardedTrunkFramesChangeNothing :
    ¬ HasRoom (withResponses bench 32) ∧
      (Instr.panelStatus 1#16 []).fixedFrame.isSome = true ∧ (Instr.tableWriteMark 1#16 [] 0).tableWrite = some (1#16, [], 0) ∧
      (∃ tag kind p, Instr.badKind 1#16 0x80#8 [] = .badKind tag kind p) :=
  ⟨by unfold HasRoom; decide +kernel, rfl, rfl, _, _, _, rfl⟩

theorem test_meets_WrongFramesAreRefused :
    HasRoom (withResponses bench 31) ∧ isCommandKind 0x00#8 = false ∧ isCommandKind 0x19#8 = false ∧
      (Instr.fixedFrame (.step 1#16 (zeros 21)) = some (0x01#8, 1#16, zeros 21, 20) ∧ (zeros 21).length ≠ 20) ∧
      (Instr.fixedFrame (.panelStatus 1#16 (zeros 1)) = some (0x18#8, 1#16, zeros 1, 0) ∧ (zeros 1).length ≠ 0) ∧
      (Instr.tableWrite (.tableWriteSite 1#16 (zeros 0) 0) = some (1#16, zeros 0, 0) ∧ (zeros 0).length < 4) ∧
      Instr.tableWrite (.tableWriteMark 1#16 (zeros 3) 0) = some (1#16, zeros 3, 0) ∧ (zeros 3).length < 4 ∧
      Instr.writeTable (.tableWriteMark 1#16 (zeros 3) 0) = some (8, 3) ∧
      (4 ≤ (9#8 :: zeros 3).length ∧ 8 < byteAt (9#8 :: zeros 3) 0) ∧
      (byteAt (8#8 :: zeros 3) 0 = 8 ∧ (8#8 :: zeros 3).length = 4) ∧
      (byteAt (8#8 :: zeros 1022) 0 = 8 ∧ ((8#8 :: zeros 1022).length - 4) % 3 ≠ 0 ∧ (8#8 :: zeros 1022).length ≤ 1024) := by
  unfold HasRoom; and_intros <;> decide +kernel

theorem test_meets_EveryCommandFrameIsAnsweredOnce :
    HasRoom (withResponses bench 31) ∧ (Instr.laneTest 1#16 [6#8, 1#8, 0#8]).fixedFrame =
      some (0x13#8, 1#16, [6#8, 1#8, 0#8], 3) := by unfold HasRoom; decide +kernel

/-- Steps at the ends of the ranges of R64, for bus 2. -/
def goodSteps : List Step :=
  [⟨0#16, .measure (.single 31) 63 255 16 3 60000 true⟩, ⟨0xFFFF#16, .measure (.single 0) 7 0 1 0 1 false⟩,
    ⟨1#16, .measure (.sweepStart ⟨0, 7, 0, 7⟩ .columns 32) 63 0 16 0 256 false⟩,
    ⟨1#16, .measure (.sweepStart ⟨7, 7, 3, 3⟩ .rows 1) 63 0 1 3 1 true⟩,
    ⟨2#16, .measure (.sweepContinue 1) 7 0 1 0 1 false⟩, ⟨2#16, .measure (.sweepContinue 32) 7 0 1 0 1 false⟩,
    ⟨3#16, .connect 31 63⟩, ⟨4#16, .release⟩]

/-- `bench` with seven steps on bus 2. -/
def sevenSteps : State := withCtx bench 2 (fun c => { c with queue := List.replicate 7 ⟨1#16, .release⟩ })

/-- `bench` with eight steps on bus 2. -/
def eightSteps : State := withCtx bench 2 (fun c => { c with queue := List.replicate 8 ⟨1#16, .release⟩ })

theorem test_meets_StepPayloadsRoundTrip :
    sevenSteps.panel.state = .opn ∧ sevenSteps.guard.rack ≠ .service ∧ (sevenSteps.busEntry 2).enabled = true ∧
      (sevenSteps.ctx 2).queue.length < 8 ∧
      (Work.measure (.sweepStart ⟨0, 7, 0, 7⟩ .columns 32) 63 0 16 3 60000 true).InRange sevenSteps 2 ∧
      (Work.measure (.single 31) 7 255 1 0 1 false).InRange sevenSteps 2 ∧
      (Work.measure (.sweepContinue 1) 7 255 1 0 1 false).InRange sevenSteps 2 ∧
      (Work.connect 31 63).InRange sevenSteps 2 ∧ Work.release.InRange sevenSteps 2 := by
  unfold Work.InRange Selection.InRange NetFits; decide +kernel

/-- Every step of `goodSteps` is read from its payload as it was written there. -/
theorem test_good_steps_are_read :
    goodSteps.all (fun st => decide (stepChecked sevenSteps (st.bytes 2) = .ok (2, st))) = true := by decide +kernel

theorem test_meets_AcceptedStepsJoinTheirQueue :
    HasRoom (withRack sevenSteps (.safe .reset)) ∧ (withRack sevenSteps (.safe .reset)).panel.state = .opn ∧
      (withRack sevenSteps (.safe .reset)).guard.rack ≠ .service ∧
      ((withRack sevenSteps (.safe .reset)).busEntry 2).enabled = true ∧
      (Work.connect 31 63).InRange (withRack sevenSteps (.safe .reset)) 2 ∧
      ((withRack sevenSteps (.safe .reset)).ctx 2).queue.length < 8 ∧
      (withRack sevenSteps (.safe .reset)).isReady = false := by
  unfold HasRoom Work.InRange NetFits; decide +kernel

/-- A sweep of columns 2 to 3 and rows 1 to 2, in axis order ROWS. -/
def swept (st : SweepStatus) (cursor : Option (Fin 8 × Fin 8)) (judged : List Site) : Sweep :=
  ⟨st, ⟨2, 3, 1, 2⟩, .rows, cursor, 2, judged⟩

/-- The bench after card 1 has reported the board at site 5. -/
def seated : State := after (.presence 5 0x20#8) bench

/-- Every clause about an IDLE or HOLDING bus that takes a step: a connection that stands, a source to quieten, a break set, free
points, a point that another bus claims, a disabled site, an unusable card, and sweeps with and without a site. -/
theorem test_meets_AcceptedSteps_taken :
    MayStart seated 2 ∧ MayStart (withCtx seated 2 (fun c => { c with state := .holding, net := some 63 })) 2 ∧
    ((seated.ctx 2).took ⟨9#16, work5⟩ []).net ≠ some 7 ∧ (seated.siteEntry 5).enabled = true ∧
    (let s := withXp (withXp (withXp bench 104 .closed) 106 .closed) 109 .closed
     (∀ p ∈ target5.points, (s.xp 2 p).state = .closed) ∧ (∀ p : Pt, s.claimed 2 p = true → p ∈ target5.points)) ∧
    (let s := withCtx bench 4 (fun c => { c with source := .unsure })
     (s.busEntry 4).kind = .source ∧ (s.ctx 4).source = .unsure ∧ s.channelUsable 4 = true ∧
       (s.xp 4 107).state ≠ .closed) ∧
    (let s := withXp bench 64 .closed
     s.sourceQuiet 2 = true ∧ (∀ p : Pt, p ∈ [64] ↔ s.claimed 2 p = true ∧ p ∉ target5.points) ∧
       (∀ p ∈ [64], cardOf p = 1 ∧ (s.xp 2 p).state = .closed) ∧
       ((s.cardEntry 1).lane = some 5 ∧ s.laneHasCard 5 = true ∧ (s.card 1).pending = none ∧ (s.card 1).priority = [] ∧
         (s.card 1).ordinary = [])) ∧
    (1 = cardOfBlock target5.block ∧ target5.points.Pairwise (· < ·) ∧
      (∀ p : Pt, p ∈ target5.points ↔ p ∈ target5.points ∧ (bench.xp 2 p).state ≠ .closed) ∧
      (∀ p ∈ target5.points, bench.pointFree p = true)) ∧
    (let s := bench.setXp 4 106 ⟨.unknown, 0, false⟩
     s.cardUsable 1 = true ∧ (∀ p ∈ target5.points, (s.xp 2 p).state = .closed ∨ (s.xp 2 p).state = .opn) ∧
       ∀ p : Pt, p ∈ [106] ↔ p ∈ target5.points ∧ (s.xp 2 p).state = .opn ∧ s.pointFree p = false) ∧
    ((bench.siteEntry 6).enabled = false ∧ bench.queue.records.length < 64) ∧
    ((withLane bench 5 .down .none 0).cardUsable (cardOfBlock target5.block) = false ∧ bench.claims 2 = []) ∧
    ((⟨2, 3, 1, 2⟩ : Window).walk .rows = [(2, 1), (3, 1), (2, 2)] ++ (3, 2) :: [] ∧
      (⟨2, 3, 1, 2⟩ : Window).walk .columns = [(2, 1), (2, 2), (3, 1)] ++ (3, 2) :: [] ∧
      (∀ e ∈ [(2, 1), (3, 1), (2, 2)], ∀ v, ¬ HandedOn seated (swept .running none []) e v) ∧
      HandedOn seated (swept .running none []) (3, 2) 5) := by
  unfold MayStart Quiesced Ctx.Clear HandedOn; and_intros <;> decide +kernel

/-- R95 by the status of the record: a walk that goes on after the cursor with and without a site left, a sweep at the end
of its window, and none. -/
theorem test_meets_AcceptedSteps_continued :
    (swept .complete (some (2, 1)) [6]).left = [(3, 1), (2, 2)] ++ (3, 2) :: [] ∧
      (swept .aborted (some (3, 2)) [6]).left = [] ∧ (swept .complete (some (2, 1)) [6]).OnWalk ∧
      (swept .aborted (some (3, 2)) [6]).OnWalk ∧ (swept .running none []).OnWalk ∧
      (∀ e ∈ [(3, 1), (2, 2)], ∀ v, ¬ HandedOn seated (swept .complete (some (2, 1)) []) e v) ∧
      HandedOn seated (swept .complete (some (2, 1)) []) (3, 2) 5 ∧
      ¬ HandedOn seated (swept .complete (some (2, 1)) [5]) (3, 2) 5 ∧
      (swept .windowEnd (some (3, 2)) []).status = .windowEnd ∧
      ((seated.ctx 2).sweep.status = .none ∧ (seated.ctx 2).sweep.judged = []) ∧
      ((seated.ctx 2).took ⟨9#16, work5⟩ []).queue = [] ∧ seated.queue.records.length < 64 := by
  have on (w : Sweep) (i : w.window.c0 ≤ w.window.c1 ∧ w.window.r0 ≤ w.window.r1)
      (h : ∀ a b, w.cursor = some (a, b) → (a, b) ∈ w.window.walk w.axis) : w.OnWalk :=
    ⟨i, fun cell e => h cell.1 cell.2 e⟩
  unfold HandedOn
  refine ⟨by decide +kernel, by decide +kernel, on _ (by decide) ?_, on _ (by decide) ?_, on _ (by decide) ?_, ?_⟩
  · decide +kernel
  · decide +kernel
  · decide +kernel
  · and_intros <;> decide +kernel

/-- R95: in a panel with one board, a sweep of one site completes its walk; SWEEP_CONTINUE then finds no site and ends. -/
theorem test_continue_ends :
    let s := withCtx seated 2 (fun c => { c with sweep := swept .complete (some (3, 2)) [5] })
    let t := after (.step 7#16 (Step.bytes 2 ⟨9#16, .measure (.sweepContinue 1) 7 20 1 0 60000 false⟩)) s
    t.queue.records = [endRecord s 2 9#16 0 .windowEnd] ∧ (t.ctx 2).sweep.status = .windowEnd ∧
      (t.ctx 2).state = .idle := by decide +kernel

theorem test_meets_TargetOf : TargetOf bench 5 7 target5 ∧ TargetOf bench 5 8 ⟨[107], 13, .force, 5⟩ := by
  unfold TargetOf; decide +kernel

/-- R32: the points of one event go to the arbiter in rising order, and the cards' next orders after them. -/
theorem test_points_rise :
    ((bench.pushWork [.point 9, .send 1]).pushWork [.point 255, .point 3, .send 0]).matrixWork =
      [.point 3, .point 9, .point 255, .send 1, .send 0] := by decide +kernel

/-- R30 and R68 in a break: one order opens the point outside the target. -/
theorem test_step_breaks_first :
    let t := after (.step 7#16 (Step.bytes 2 ⟨9#16, work5⟩)) (withXp bench 64 .closed)
    t.out = [(5, .order 0#8 false 2 [0])] ∧ (t.ctx 2).state = .breaking ∧ (t.xp 2 64).state = .opening := by
  decide +kernel

/-- A STEP payload for bus 2 with one byte changed. -/
def changed (w : Work) (i : Nat) (b : Byte) : List Byte := (Step.bytes 2 ⟨1#16, w⟩).set i b

/-- Payloads whose index is beyond its table (R64 check 3). -/
def badIndexSteps : List (List Byte) :=
  [changed work5 2 8#8, changed .release 2 255#8, changed work5 12 64#8, changed (.connect 0 63) 12 255#8,
    changed work5 5 32#8, changed (.connect 0 63) 5 255#8]

/-- Payloads with one field beyond its range (R64 check 4). -/
def badValueSteps : List (List Byte) :=
  [changed work5 3 3#8, changed (.connect 0 63) 4 1#8, changed work5 12 6#8, changed (.connect 0 63) 12 0#8,
    changed work5 4 3#8, changed work5 14 0#8, changed work5 14 17#8, changed work5 15 4#8,
    (changed work5 16 0#8).set 17 0#8, changed work5 16 0x61#8, changed work5 18 2#8,
    changed (.measure (.sweepContinue 1) 7 0 1 0 1 false) 11 0#8,
    changed (.measure (.sweepContinue 1) 7 0 1 0 1 false) 11 33#8,
    changed (.measure (.sweepStart ⟨2, 3, 2, 3⟩ .rows 1) 7 0 1 0 1 false) 7 8#8,
    changed (.measure (.sweepStart ⟨2, 3, 2, 3⟩ .rows 1) 7 0 1 0 1 false) 7 1#8,
    changed (.measure (.sweepStart ⟨2, 3, 2, 3⟩ .rows 1) 7 0 1 0 1 false) 9 1#8,
    changed (.measure (.sweepStart ⟨2, 3, 2, 3⟩ .rows 1) 7 0 1 0 1 false) 10 2#8]

theorem test_meets_StepChecksInOrder :
    HasRoom bench ∧ (zeros 20).length = 20 ∧ (withPanel bench .closing).panel.state ≠ .opn ∧
      bench.panel.state = .opn ∧ (withRack bench .service).guard.rack = .service ∧ bench.guard.rack ≠ .service ∧
      (∀ p ∈ badIndexSteps, p.length = 20 ∧
        (8 ≤ byteAt p 2 ∨ (byteAt p 3 ≤ 1 ∧ (64 ≤ byteAt p 12 ∨ (byteAt p 4 = 0 ∧ 32 ≤ byteAt p 5))))) ∧
      (bench.busEntry 0).enabled = false ∧
      (∀ p ∈ badValueSteps, p.length = 20 ∧ byteAt p 2 = (2 : Bus).val ∧
        ¬ (byteAt p 3 ≤ 1 ∧ (64 ≤ byteAt p 12 ∨ (byteAt p 4 = 0 ∧ 32 ≤ byteAt p 5))) ∧
        (3 ≤ byteAt p 3 ∨ (byteAt p 3 = 1 ∧ byteAt p 4 ≠ 0) ∨
          (∃ n : Net, byteAt p 3 ≤ 1 ∧ byteAt p 12 = n.val ∧ ¬ NetFits bench 2 n) ∨
          (byteAt p 3 = 0 ∧ (3 ≤ byteAt p 4 ∨ byteAt p 14 = 0 ∨ 16 < byteAt p 14 ∨ 3 < byteAt p 15 ∨
            numAt16 p 16 = 0 ∨ 60000 < numAt16 p 16 ∨ 2 ≤ byteAt p 18 ∨
            (1 ≤ byteAt p 4 ∧ (byteAt p 11 = 0 ∨ 32 < byteAt p 11)) ∨
            (byteAt p 4 = 1 ∧ (8 ≤ byteAt p 6 ∨ 8 ≤ byteAt p 7 ∨ 8 ≤ byteAt p 8 ∨ 8 ≤ byteAt p 9 ∨
              byteAt p 7 < byteAt p 6 ∨ byteAt p 9 < byteAt p 8 ∨ 2 ≤ byteAt p 10)))))) ∧
      (Step.bytes 2 ⟨1#16, .release⟩).length = 20 ∧ (eightSteps.busEntry 2).enabled = true ∧
      Work.release.InRange eightSteps 2 ∧ 8 ≤ (eightSteps.ctx 2).queue.length := by
  unfold HasRoom Work.InRange NetFits; decide +kernel

theorem test_meets_ReleaseAtRestEndsIdle :
    HasRoom bench ∧ Quiesced bench ∧ bench.guard.rack = .ready ∧ bench.panel.state = .opn ∧
      (bench.busEntry 4).enabled = true ∧ (bench.ctx 4).state = .idle ∧ (bench.ctx 4).queue = [] ∧
      (bench.ctx 4).slot = none ∧ (bench.ctx 4).endPending = none ∧ (bench.ctx 4).request = none ∧
      bench.claims 4 = [] ∧ bench.breaksOutstanding 4 = false ∧ bench.sourceQuiet 4 = true := by
  unfold HasRoom Quiesced; decide +kernel

/-- The same bench with site 5 powered and another enabled site 6 on block 14. -/
def powered : State :=
  let s := bench.setSupply 5 true
  { s with tables := { s.tables with sites := s.tables.sites.set 6 ⟨true, 4, 2, 14⟩ } }

theorem test_meets_SiteEntriesAreWritten :
    HasRoom powered ∧ ¬ SiteInUse powered 31 ⟨true, 7, 7, 31⟩ ∧ ¬ SiteClashes powered 31 ⟨true, 7, 7, 31⟩ ∧
      (SiteEntry.mk true 3 2 13 = powered.siteEntry 5) ∧ (SiteEntry.mk false 3 2 13 ≠ powered.siteEntry 5) ∧
      SiteInUse powered 5 ⟨false, 3, 2, 13⟩ ∧ SiteInUse powered 5 ⟨true, 3, 2, 12⟩ ∧
      SiteInUse (atSite5 bench .halted) 5 ⟨true, 0, 0, 13⟩ ∧ SiteInUse (withXp bench 104 .unknown) 31 ⟨true, 0, 0, 13⟩ ∧
      ¬ SiteInUse powered 31 ⟨true, 3, 2, 31⟩ ∧ SiteClashes powered 31 ⟨true, 3, 2, 31⟩ ∧
      SiteClashes powered 31 ⟨true, 7, 7, 13⟩ ∧ 32 ≤ 65535 ∧ 65535 < 65536 := by
  unfold HasRoom SiteInUse SiteClashes; and_intros <;> decide +kernel

theorem test_meets_NetEntriesAreWritten :
    HasRoom bench ∧ (NetEntry.mk 4 #v[7, 6, 5, 4] .force 2000).InRange ∧ ¬ NetInUse bench 7 ∧
      (NetEntry.mk 0 #v[0, 0, 0, 0] .force 0).InRange ∧ ¬ (NetEntry.mk 1 #v[0, 0, 0, 0] .force 2001).InRange ∧
      ¬ (NetEntry.mk 2 #v[3, 3, 0, 0] .force 0).InRange ∧ ¬ (NetEntry.mk 2 #v[3, 2, 0, 1] .force 0).InRange ∧
      NetInUse (atSite5 bench .suspended) 7 ∧ ¬ NetInUse (atSite5 bench .halted) 7 ∧
      NetEntry.mk 0 #v[0, 0, 0, 0] .force 0 ≠ bench.netEntry 7 := by
  unfold HasRoom NetEntry.InRange NetInUse; and_intros <;> decide +kernel

theorem test_meets_BusEntriesAreWritten :
    HasRoom bench ∧ bench.busEntry 2 = ⟨true, .measure, 3, 3, 30, .rackLine⟩ ∧ BusFree bench 7 ∧
      ¬ BusClashes bench 7 ⟨true, .source, 7, 3, 31, .forced⟩ ∧ ¬ BusFree (withXp bench 255 .reserved) 2 ∧
      ¬ BusFree (atSite5 bench .halted) 2 ∧ BusEntry.mk true .measure 3 3 30 .off ≠ bench.busEntry 2 ∧
      BusClashes bench 7 ⟨true, .measure, 3, 0, 0, .off⟩ ∧ ¬ BusClashes bench 7 ⟨false, .measure, 3, 0, 0, .off⟩ ∧
      Quiesced bench ∧ (withCtx bench 4 (fun c => { c with source := .live })).busEntry 4 = bench.busEntry 4 ∧
      ¬ BusFree (withCtx bench 4 (fun c => { c with source := .live })) 4 := by
  unfold HasRoom BusFree BusClashes Quiesced; and_intros <;> decide +kernel

theorem test_meets_CardEntriesAreWritten :
    HasRoom powered ∧ powered.cardEntry 1 = ⟨some 5, 0⟩ ∧ powered.cardInUse 1 = false ∧
      (∀ d : CardId, d ≠ 1 → some (7 : LaneId) ≠ none → (powered.cardEntry d).lane ≠ some 7) ∧
      powered.laneHasCard 5 = true ∧ (cardOfBlock 13 = 1 ∧ powered.siteOnBlock 13 = some 5 ∧ powered.supplyOn 5 = true) ∧
      (withXp bench 127 .unknown).cardInUse 1 = true ∧ CardEntry.mk (some 5) 0 ≠ powered.cardEntry 0 ∧
      ((1 : CardId) ≠ 0 ∧ (powered.cardEntry 1).lane = some 5) := by
  unfold HasRoom; and_intros <;> decide +kernel

theorem test_meets_PlainEntriesAreWritten :
    HasRoom bench ∧ limit20.InRange ∧ (LimitEntry.mk .both 5#32 5#32 2147483647 15).InRange ∧
      ¬ (LimitEntry.mk .both 5#32 4#32 0 0).InRange ∧ (LimitEntry.mk .lowOnly 5#32 4#32 0 0).InRange ∧
      ¬ (LimitEntry.mk .record 0#32 0#32 2147483648 0).InRange := by
  unfold HasRoom LimitEntry.InRange; and_intros <;> decide +kernel

theorem test_meets_WritesStopAtTheFirstRefusedEntry :
    HasRoom (withResponses bench 31) ∧ [0#8, 0#8, 25#8, 0#8, 0#8, 0#8, 0#8, 0#8].length = 8 ∧
      25 ≤ byteAt [0#8, 0#8, 25#8, 0#8, 0#8, 0#8, 0#8, 0#8] 2 ∧
      ∀ old ∈ (withResponses bench 31).trunk.responses, old.heldBy = none := by
  unfold HasRoom; and_intros <;> decide +kernel

/-- A write of two MARK entries, the second refused: FLOW HOLD taken between them is answered behind it (R187, R188). -/
theorem test_write_holds_its_place :
    let p := [8#8, 0#8, 0#8, 0#8, 1#8, 2#8, 5#8, 1#8, 2#8, 5#8]
    let t := after (.tableWriteMark 3#16 p 1) (after (.flowHold 4#16 []) (after (.tableWriteMark 3#16 p 0) bench))
    t.trunk.responses.map (fun r => (r.tag, r.status, r.heldBy)) = [(3#16, .badIndex, none), (4#16, .ok, none)] ∧
      t.tables.mark = ⟨true, 2, 5⟩ := by decide +kernel

theorem test_meets_TableReadsReturnEntries :
    HasRoom bench ∧ tableSize (9#8).toNat = none ∧ tableSize (7#8).toNat = some (2048, 254) ∧ 254 < 255 ∧
      1 ≤ 254 ∧ 1794 + 254 ≤ 2048 ∧ 2048 < 1795 + 254 ∧ tableSize (8#8).toNat = some (1, 338) := by
  unfold HasRoom; and_intros <;> decide +kernel

theorem test_meets_BusAbortEmptiesTheBus :
    HasRoom measuring ∧ (measuring.ctx 2).state.working = true ∧ 8 ≤ (8#8).toNat := by
  unfold HasRoom; and_intros <;> decide +kernel

/-- Bus 2 SUSPENDED for a redo of site 5, in a sweep of two sites of which one is judged. -/
def redoing : State :=
  withCtx (atSite5 (withRack bench (.safe .interlock)) .suspended) 2 (fun c => { c with
    resume := .redo, sweep := ⟨.running, ⟨2, 3, 1, 2⟩, .rows, some (3, 2), 2, [6]⟩ })

theorem test_meets_BusAbort_redo :
    HasRoom redoing ∧ Quiesced redoing ∧ (redoing.ctx 2).slot = none ∧ (redoing.ctx 2).endPending = none ∧
      (redoing.ctx 2).step = some ⟨9#16, work5⟩ ∧ (redoing.ctx 2).state = .suspended ∧ (redoing.ctx 2).resume = .redo ∧
      (redoing.ctx 2).inFlight = some 5 ∧ redoing.queue.records.length < 63 ∧ (redoing.ctx 2).captured = none ∧
      (let s := withCtx redoing 2 (fun c => { c with state := .halted, resume := .next, inFlight := none })
       (s.ctx 2).state = .halted ∧ (s.ctx 2).sweep.status = .running ∧ s.queue.records.length < 64) := by
  unfold HasRoom Quiesced; and_intros <;> decide +kernel

/-- Bus 2 HALTED with a resume point. -/
def halted (r : Resume) : State := withCtx (atSite5 bench .halted) 2 (fun c => { c with resume := r, inFlight := none })

theorem test_meets_BusResumeLeavesHalted :
    HasRoom (halted .next) ∧ ((halted .next).ctx 2).state = .halted ∧ Quiesced (halted .next) ∧
      (withRack (halted .next) .service).isReady = false ∧ ((halted .next).ctx 2).resume = .next ∧
      ((halted .none).ctx 2).queue = [] ∧ ((halted .none).ctx 2).resume ≠ .next ∧ (bench.ctx 2).state ≠ .halted := by
  unfold HasRoom Quiesced; and_intros <;> decide +kernel

/-- HALTED in READY with a sweep to go on with, and with a step queued. -/
theorem test_meets_BusResume_ready :
    (halted .next).isReady = true ∧ (halted .next).tripped 2 = false ∧ ((halted .next).ctx 2).Clear ∧
      ((halted .next).ctx 2).step = some ⟨9#16, work5⟩ ∧ NetFits (halted .next) 2 7 ∧
      (let s := withCtx (halted .none) 2 (fun c => { c with queue := [⟨9#16, work5⟩, ⟨1#16, .release⟩] })
       (s.ctx 2).queue = ⟨9#16, work5⟩ :: [⟨1#16, .release⟩] ∧ work5.InRange s 2 ∧ s.panel.state = .opn ∧
         ((s.ctx 2).idled.took ⟨9#16, work5⟩ [⟨1#16, .release⟩]).net ≠ some 7 ∧ (s.siteEntry 5).enabled = true) := by
  unfold Ctx.Clear NetFits Work.InRange Selection.InRange NetFits; and_intros <;> decide +kernel

/-- R87 and R95: bus 2 goes on from HALTED with the site that its sweep has left. -/
theorem test_halted_goes_on :
    let s := withCtx seated 2 (fun c => { c with
      state := .halted, resume := .next, step := some ⟨9#16, work5⟩, sweep := swept .running (some (2, 1)) [6] })
    let t := after (.busResume 7#16 [2#8]) s
    t.out = [(5, .order 0#8 true 2 [40, 42, 45])] ∧ (t.ctx 2).state = .making ∧
      (t.ctx 2).sweep.cursor = some (3, 2) := by decide +kernel

/-- Bus 2 TRIPPED with its flag set, its source deasserted again, and a resume point. -/
def tripped (r : Resume) : State :=
  (withCtx (atSite5 bench .tripped) 2 (fun c => { c with resume := r, inFlight := none })).setTripped 2 true

theorem test_meets_ClearTripClearsTheFlag :
    HasRoom (tripped .next) ∧ (tripped .next).tripped 2 = true ∧ asserted (tripped .next) 2 = false ∧
      Quiesced (tripped .next) ∧ ((tripped .next).ctx 2).state = .tripped ∧ ((tripped .next).ctx 2).slot = none ∧
      ((tripped .next).ctx 2).endPending = none ∧ (withRack (tripped .next) (.safe .reset)).isReady = false ∧
      ((tripped .halted).ctx 2).resume = .halted ∧ ((tripped .none).ctx 2).resume = .none ∧
      ((tripped .none).ctx 2).queue = [] ∧ bench.tripped 2 = false ∧
      (after (.tripInChange true) bench).tripped 2 = true ∧ asserted (after (.tripInChange true) bench) 2 = true ∧
      (tripped .next).isReady = true ∧ ((tripped .next).ctx 2).request = none ∧
      ((tripped .next).ctx 2).step = some ⟨9#16, work5⟩ ∧ NetFits (tripped .next) 2 7 ∧
      (tripped .none).panel.state = .opn ∧
      (let s := withCtx (tripped .none) 2 (fun c => { c with queue := [⟨9#16, work5⟩] })
       (s.ctx 2).queue = ⟨9#16, work5⟩ :: [] ∧ work5.InRange s 2) := by
  unfold HasRoom Quiesced NetFits Work.InRange Selection.InRange NetFits; and_intros <;> decide +kernel

/-- R60, R131, R194: CLEAR TRIP returns bus 2 to HALTED, and STEP is pending; the return to IDLE raises nothing. -/
theorem test_clear_trip_to_halted_raises_step :
    let t := after (.clearTrip 1#16 [2#8]) (tripped .halted)
    (t.ctx 2).state = .halted ∧ t.trunk.attn = ⟨false, false, true, false, false⟩ ∧
      (after (.clearTrip 1#16 [2#8]) (tripped .none)).trunk.attn = AttnSet.empty := by decide +kernel

theorem test_meets_SupplyIsClamped :
    HasRoom powered ∧ (powered.cardEntry 1).lane = some 5 ∧ powered.laneHasCard 5 = true ∧
      cardOfBlock (powered.siteEntry 5).block = 1 ∧ powered.supplyOn 5 = true ∧
      (after (.supply 1#16 (le32 0xFFFFFFFF ++ [yesNo false])) powered).supplyOn 5 ≠ powered.supplyOn 5 ∧
      2 ≤ (2#8).toNat := by unfold HasRoom; and_intros <;> decide +kernel

/-- The interlock in a state. -/
def withInterlock (s : State) (i : Interlock) : State := { s with guard := { s.guard with interlock := i } }

theorem test_meets_RackCommandsMoveTheRack :
    HasRoom State.reset ∧ (withInterlock State.reset .clear).isSafe = true ∧
      (withInterlock State.reset .clear).guard.interlock = .clear ∧ bench.isSafe = false ∧
      (withInterlock State.reset .opn).guard.interlock = .opn ∧ State.reset.guard.interlock = .waiting ∧
      bench.guard.rack = .ready ∧
      (∀ x : Bus, (bench.ctx x).state = .idle ∧ (bench.ctx x).queue = [] ∧ (bench.ctx x).slot = none ∧
        (bench.ctx x).endPending = none ∧ ∀ p : Pt, bench.claimed x p = false) ∧
      (withXp bench 255 .unknown).claimed 2 255 = true ∧ (sevenSteps.ctx 2).queue ≠ [] ∧
      State.reset.guard.rack ≠ .ready ∧ (withRack bench .service).guard.rack = .service ∧
      (∀ l : LaneId, ((withRack bench .service).lane l).state ≠ .test) ∧
      ((withLane (withRack bench .service) 7 .test .none 0).lane 7).state = .test ∧ bench.guard.rack ≠ .service := by
  unfold HasRoom; and_intros <;> decide +kernel

/-- RESUME at a bus SUSPENDED for a redo of an enabled and of a disabled site, for the next site, and IDLE with a step. -/
theorem test_meets_RackCommands_resumed :
    let s := withInterlock redoing .clear
    let q := withCtx (withInterlock (withRack bench (.safe .reset)) .clear) 2 (fun c => { c with
      queue := [⟨9#16, work5⟩, ⟨1#16, .release⟩] })
    s.isSafe = true ∧ Quiesced s ∧ OthersRest s 2 ∧ s.tripped 2 = false ∧ (s.ctx 2).Clear ∧
      (s.ctx 2).state = .suspended ∧ (s.ctx 2).step = some ⟨9#16, work5⟩ ∧ NetFits s 2 7 ∧ (s.ctx 2).resume = .redo ∧
      (s.ctx 2).inFlight = some 5 ∧ (s.siteEntry 5).enabled = true ∧ (s.siteEntry 6).enabled = false ∧
      ((withCtx s 2 (fun c => { c with inFlight := some 6 })).ctx 2).inFlight = some 6 ∧ (s.ctx 2).captured = none ∧
      s.queue.records.length < 64 ∧ ((withCtx s 2 (fun c => { c with resume := .next })).ctx 2).resume = .next ∧
      ((withCtx s 2 (fun c => { c with step := some ⟨9#16, .connect 5 7⟩ })).ctx 2).step = some ⟨9#16, .connect 5 7⟩ ∧
      Quiesced q ∧ OthersRest q 2 ∧ (q.ctx 2).Clear ∧ (q.ctx 2).state = .idle ∧
      (q.ctx 2).queue = ⟨9#16, work5⟩ :: [⟨1#16, .release⟩] ∧ work5.InRange q 2 ∧ q.panel.state = .opn := by
  unfold Quiesced OthersRest Ctx.Clear NetFits Work.InRange Selection.InRange NetFits; and_intros <;> decide +kernel

/-- R88 and 9.7: at RESUME the site that SAFE cut off is made again. -/
theorem test_resume_redoes_the_site :
    let t := after (.resume 7#16 []) (withInterlock redoing .clear)
    t.out = [(5, .order 0#8 true 2 [40, 42, 45])] ∧ (t.ctx 2).state = .making := by decide +kernel

/-- R22, R32: crosspoint (2,104) was CLOSED at the make request and has been opened since; with the grant of point 106 the
make order is listed, reserves and holds it too, and passes its checks. -/
theorem test_grant_reserves_every_open_crosspoint :
    let s := withXp (withXp (withOrder blocked .brk [5]) 109 .reserved) 104 .opn
    let t := arbitrate s 106
    (t.card 1).ordinary = [⟨.make, 2, [104, 106, 109], true⟩] ∧ (t.xp 2 104).state = .reserved ∧
      sendCheck t 1 ⟨.make, 2, [104, 106, 109], true⟩ = .pass := by decide +kernel

/-- R88: SAFE finds bus 2 in POSTING with a HALT_BUS record of a done step; R132: a trip then finds it in the slot. -/
theorem test_halt_bus_at_safe_and_trip :
    let s := withCtx (judgeInvalid (withRecords (atSite5 bench .measuring) 64 true) 2 .timeout) 2 (fun c => { c with
      state := .posting, after := .act .haltBus })
    let t := safeCtx s 2
    (t.ctx 2).state = .suspended ∧ (t.ctx 2).resume = .none ∧ ((tripCtx t 2).ctx 2).resume = .halted := by
  decide +kernel

/-- R85, R86: a RELEASE step has failed and halted its bus; the release of a BUS ABORT fails too, and makes no record. -/
theorem test_failed_release_makes_one_record :
    let s := withCtx (withLane bench 3 .recover .instrument 4) 4 (fun c => { c with
      state := .halted, step := some ⟨9#16, .release⟩, source := .unsure, relFail := some .lane })
    let t := after (.busAbort 7#16 [4#8]) s
    (t.ctx 4).state = .idle ∧ t.queue.records = s.queue.records ∧
      (after (.step 7#16 (Step.bytes 4 ⟨9#16, .release⟩)) (withCtx s 4 (fun c => { c with state := .idle, step := none
        }))).queue.records ≠ [] := by decide +kernel

theorem test_meets_RackResetLeavesARestingRack :
    HasRoom (withResponses measuring 31) ∧ (bench.busEntry 4).kind = .source ∧ bench.channelUsable 4 = true ∧
      (withLane bench 3 .recover .instrument 4).channelUsable 4 = false ∧
      ({ bench with trunk := { bench.trunk with tx := some (.result 1#16 (.fold 3 false) true) } } : State).trunk.tx =
        some (.result 1#16 (.fold 3 false) true) ∧
      (measuring.ctx 2).state = .measuring ∧ measuring.channelUsable 2 = true ∧
      OpensFirst (withResponses measuring 31) ∧
      ((withOrder measuring .make [104]).card 1).pending = some ⟨18#8, ⟨.make, 2, [104], false⟩⟩ := by
  unfold HasRoom
  exact ⟨by decide +kernel, by decide +kernel, by decide +kernel, by decide +kernel, rfl, by decide +kernel,
    by decide +kernel, opensFirst_of_empty (by decide +kernel), by decide +kernel⟩

/-- R41, R66, R157: RACK RESET during a take with a make order in flight: CANCEL goes out, the relay that is CLOSED is
listed to open, the order keeps its tag, and the accumulator and the site in flight are gone. -/
theorem test_rack_reset_during_a_take :
    let s := withXp (withXp (withOrder measuring .make [106]) 104 .closed) 106 .closing
    let t := after (.rackReset 7#16 []) s
    t.out = [(3, .cancel 3 20#8), (3, .quiet 0)] ∧ t.inPriority 2 104 = true ∧ (t.xp 2 106).mark = true ∧
      (t.card 1).pending = some ⟨18#8, ⟨.make, 2, [106], false⟩⟩ ∧ t.ctx 2 = Ctx.initial := by decide +kernel

theorem test_meets_PanelsOpenAndClose :
    HasRoom bench ∧ State.reset.panel.state = .none ∧ (withPanel bench .closed).panel.state = .closed ∧
      bench.panel.state = .opn ∧ (withPanel bench .closing).panel.state = .closing ∧ Quiesced bench ∧
      (bench.busEntry 4).kind = .source ∧
      (∀ x : Bus, (bench.ctx x).finished = true) ∧ bench.queue.foldCount = 0 ∧
      ({ bench with queue := { bench.queue with foldCount := 4294967295 } } : State).queue.foldCount ≠ 0 ∧
      bench.panel.foldPending = false ∧ (withRecords bench 63 true).queue.records.length < 64 ∧
      64 ≤ (withRecords bench 64 true).queue.records.length ∧ (sevenSteps.ctx 2).finished = false ∧
      (halted .none).panel.state ≠ .closed ∧ (withPanel bench .closed).panel.state ≠ .opn := by
  unfold HasRoom Quiesced; and_intros <;> decide +kernel

theorem test_meets_FlowCommandsReport : HasRoom (withResponses bench 31) := by unfold HasRoom; decide +kernel

/-- R157: RACK RESET leaves the record of an unusable channel UNSURE and sends nothing to it (log 5); a usable one gets a
QUIET frame, and its record is QUIET. -/
theorem test_rack_reset_source :
    let s := withCtx bench 4 (fun c => { c with source := .live })
    let u := after (.rackReset 7#16 []) (withLane s 3 .recover .instrument 4)
    u.out = [] ∧ (u.ctx 4).source = .unsure ∧ ((after (.rackReset 7#16 []) s).ctx 4).source = .quiet ∧
      (after (.rackReset 7#16 []) s).out = [(3, .quiet 0)] := by decide +kernel

/-- R66: PANEL BEGIN leaves the source record and its exchange as they are (log 5); the ACK then ends the exchange. -/
theorem test_panel_begin_source :
    let t := after (.panelBegin 7#16 []) (withCtx (withPanel bench .closed) 4 (fun c => { c with source := .goingQuiet }))
    (t.ctx 4).source = .goingQuiet ∧ t.out = [] ∧ ((after (.ack 3 0#8 0#8) t).ctx 4).source = .quiet := by decide +kernel

/-- A frame in the transmitter. -/
def sending (s : State) (f : TxFrame) : State := { s with trunk := { s.trunk with tx := some f } }

theorem test_meets_FrameSentStartsTheNextFrame :
    bench.trunk.tx = none ∧
      (sending (withRecords (withResponses bench 2) 1 false) (.response ⟨1#16, 4#8, .ok, [], none⟩)).trunk.tx =
        some (.response ⟨1#16, 4#8, .ok, [], none⟩) ∧
      Quiesced bench ∧ bench.panel.state ≠ .closing ∧ bench.trunk.attn.highest = bench.trunk.lastReported ∧
      (bench.raise .progress).trunk.attn.highest ≠ (bench.raise .progress).trunk.lastReported ∧
      bench.trunk.responses = [] ∧ bench.trunk.flowHold = false ∧
      (withResponses bench 1).trunk.responses = [⟨1#16, 4#8, .ok, [], none⟩] := by
  unfold Quiesced; and_intros <;> decide +kernel

/-- The head record of `n` FOLD records is being sent. -/
def sendingHead (n : Nat) (compact : Bool) : State :=
  sending (withRecords bench n compact) (.result 3#16 (.fold 1 false) true)

theorem test_meets_SentRecordsLeaveTheQueue :
    Quiesced (sendingHead 64 true) ∧
      (sendingHead 64 true).queue.records = .fold 1 false :: List.replicate 63 (.fold 1 false) ∧
      (sendingHead 63 true).queue.records = .fold 1 false :: List.replicate 62 (.fold 1 false) ∧
      (sendingHead 17 true).queue.records = .fold 1 false :: List.replicate 16 (.fold 1 false) ∧
      (sendingHead 17 true).queue.compact = true ∧ (sendingHead 17 false).queue.compact = false ∧
      (sendingHead 64 true).trunk.tx = some (.result 3#16 (.fold 1 false) true) ∧
      ((withCtx (sendingHead 64 true) 7 (fun c => { c with slot := some ⟨.fold 1 false, false⟩ })).ctx 7).slot =
        some ⟨.fold 1 false, false⟩ ∧ (List.replicate 63 (Rec.fold 1 false)).length = 63 ∧
      (∀ y, ((sendingHead 64 true).ctx y).slot = none) ∧
      ({ sendingHead 64 true with panel := { bench.panel with state := .closing, foldPending := true } } : State).panel.foldPending
        = true ∧
      ((sendingHead 64 true).panel.foldPending = false ∧ (sendingHead 64 true).panel.state ≠ .closing) ∧
      (sending bench (.result 3#16 (.fold 1 false) false)).panel.state ≠ .closing ∧
      (sending bench (.result 3#16 (.fold 1 false) false)).queue.records = [] ∧
      Quiesced (sending bench (.result 3#16 (.fold 1 false) false)) ∧
      (sending (withRecords bench 1 false) (.result 3#16 (.fold 1 false) false)).queue.records = [.fold 1 false] := by
  unfold Quiesced; and_intros <;> decide +kernel

theorem test_meets_LaneCommandsMoveTheirLane :
    HasRoom bench ∧ Quiesced bench ∧ (bench.lane 3).state = .active ∧
      ((withLane bench 7 .recover .card 0).lane 7).state = .recover ∧ bench.panel.state ≠ .closing ∧
      ((withLane bench 7 .off .none 0).lane 7).state = .off ∧ (bench.lane 0).state ≠ .off ∧ 8 ≤ (8#8).toNat := by
  unfold HasRoom Quiesced; and_intros <;> decide +kernel

/-- A lane in TEST with its held response: LANE RESET completes it at its place with the counts reached (R184). -/
theorem test_lane_reset_ends_a_test :
    let held : Resp := ⟨1#16, 0x13#8, .ok, [], some (.lane 7)⟩
    let s := bench.modLane 7 (fun k => { k with state := .test, testCount := 9, testSent := 3, testMatched := 2 })
    let s := { s with trunk := { s.trunk with responses := [held] } }
    HasRoom s ∧ (s.lane 7).state = .test ∧ testsEnded s 7 ≠ s.trunk.responses ∧
      (after (.laneReset 2#16 [7#8]) s).trunk.responses =
        [⟨1#16, 0x13#8, .ok, [9#8, 3#8, 2#8], none⟩, ⟨2#16, 0x10#8, .ok, [1#8], none⟩] := by
  unfold HasRoom; and_intros <;> decide +kernel

/-- A bus at site 5 whose points are CLOSED, in a state of its work. -/
def connected (st : CtxState) : State :=
  atSite5 (withXp (withXp (withXp powered 104 .closed) 106 .closed) 109 .closed) st

/-- Every clause about the loss of card 1 and of the instrument on lane 3 (R177). -/
theorem test_meets_LaneGone :
    ((connected .holding).lane 5).partner = .card ∧ (connected .holding).cardOnLane 5 = some 1 ∧
      (cardOf 104 = 1 ∧ (connected .holding).claimed 2 104 = true) ∧
      (cardOfBlock 13 = 1 ∧ (connected .holding).siteOnBlock 13 = some 5) ∧
      (let s := withCtx (atSite5 bench .making) 2 (fun c => { c with request := some (.make ⟨1, target5.points, []⟩) })
       (s.ctx 2).request = some (.make ⟨1, target5.points, []⟩) ∧ WorksAt s 2 .making 5) ∧
      WorksAt blocked 2 .blocked 5 ∧ ((connected .settling).ctx 2).onCard 1 = true ∧
      (∃ p : Pt, cardOf p = 1 ∧ (connected .settling).claimed 2 p = true) ∧ WorksAt (connected .settling) 2 .settling 5 ∧
      WorksAt (connected .restoring) 2 .restoring 5 ∧ WorksAt (connected .measuring) 2 .measuring 5 ∧
      ((connected .holding).ctx 2).state = .holding ∧ ((connected .holding).ctx 2).queue = [] ∧
      (bench.lane 3).partner = .instrument ∧ (bench.busEntry 2).lane = 3 ∧ (bench.busEntry 4).lane = 3 ∧
      (bench.busEntry 4).kind = .source ∧ WorksAt (atSource .quieting .quiet) 4 .quieting 5 ∧
      ((atSource .quieting .quiet).ctx 4).request = some .quiet ∧ WorksAt (atSource .restoring .live) 4 .restoring 5 ∧
      ((atSource .restoring .live).ctx 4).request = some .live := by
  and_intros
  all_goals first
    | decide +kernel
    | exact ⟨_, _, _, _, _, _, _, _, rfl⟩

/-- The states of the clauses about card 1 and about the instrument on lane 3 keep the law of claims and of priority parts. -/
theorem test_meets_LaneGone_lawful :
    ClaimsLawful (connected .holding) ∧ ClaimsLawful blocked ∧ ClaimsLawful (connected .settling) ∧
      ClaimsLawful (atSource .quieting .quiet) ∧ Quiesced (connected .holding) ∧ Quiesced blocked ∧
      HasRoom (connected .holding) ∧ ((connected .holding).lane 5).state = .active ∧
      ((atSource .quieting .quiet).lane 3).state = .active ∧
      2 ≤ (((connected .holding).modLane 5 (fun k => { k with errors := 2 })).lane 5).errors := by
  refine ⟨?_, ?_, ?_, ?_, ?_⟩
  · apply claimsLawful_of <;> (try unfold OneClaimant) <;> decide +kernel
  · apply claimsLawful_of <;> (try unfold OneClaimant) <;> decide +kernel
  · apply claimsLawful_of <;> (try unfold OneClaimant) <;> decide +kernel
  · apply claimsLawful_of <;> (try unfold OneClaimant) <;> decide +kernel
  · unfold Quiesced HasRoom; decide +kernel

/-- A recovery open of an UNKNOWN crosspoint of card 1, lawful in every sense that the loss of the card asks for, can be
rejected and can time out (R24, R25). -/
theorem test_meets_recovery_lawful :
    let s := withXp (withOrder bench .recovery [104]) 104 .unknown
    ClaimsLawful s ∧ OpensFirst s ∧ TablesLawful s ∧ Quiesced s ∧ (s.lane 5).state = .active ∧
      (s.card 1).pending = some ⟨18#8, ⟨.recovery, 2, [104], false⟩⟩ ∧ (s.cardEntry 1).lane = some 5 ∧
      ((after (.reject 5 18#8 0#8) s).lane 5).state = .recover ∧ ((after (.reject 5 18#8 0#8) s).xp 2 104).state = .unknown ∧
      ((after (.orderTimeout 1) s).lane 5).state = .recover ∧ ((after (.orderTimeout 1) s).xp 2 104).state = .unknown := by
  refine ⟨?_, opensFirst_of_empty (by decide +kernel), test_tables_lawful_bench, ?_⟩
  · apply claimsLawful_of <;> (try unfold OneClaimant) <;> decide +kernel
  · unfold Quiesced; decide +kernel

/-- A card is lost under a hold, and an instrument under a take: the hold goes and the take ends INVALID with cause LANE
(R81, R84, R177). -/
theorem test_lanes_leave_their_users :
    (let t := after (.laneReset 1#16 [5#8]) (connected .holding)
     (t.ctx 2).state = .idle ∧ t.trunk.attn.step = true ∧ (t.xp 2 104).state = .unknown ∧ t.supplyOn 5 = false) ∧
    (let t := after (.laneOff 1#16 [3#8]) measuring
     t.queue.records.map Rec.bytes =
       [[0#8, 0#8, 0#8, 2#8, 9#8, 0#8, 5#8, 1#8, 4#8, 0#8, 0#8, 0#8, 0#8, 0#8, 0#8, 0#8, 1#8]] ∧
       (t.ctx 4).source = .unsure) := by decide +kernel

/-- The field checks of the five typed tables at the least byte that each refuses, and a card lane below NONE. -/
theorem test_meets_EntryFieldChecks :
    2 ≤ byteAt [2#8, 0#8, 0#8, 0#8] 0 ∧ 32 ≤ byteAt [0#8, 0#8, 0#8, 32#8] 3 ∧
      3 ≤ byteAt [0#8, 0#8, 0#8, 0#8, 0#8, 3#8, 0#8, 0#8] 5 ∧ 8 ≤ byteAt [0#8, 0#8, 0#8, 0#8, 0#8, 8#8] 5 ∧
      8 ≤ byteAt [254#8, 0#8, 0#8, 0#8, 0#8] 0 ∧ byteAt [254#8, 0#8, 0#8, 0#8, 0#8] 0 ≠ 255 ∧
      25 ≤ byteAt [0#8, 0#8, 25#8, 0#8, 0#8, 0#8, 0#8, 0#8] 2 ∧ 4 ≤ byteAt (4#8 :: List.replicate 13 0#8) 0 ∧
      3 ≤ byteAt [0#8, 3#8, 0#8] 1 ∧ 32 ≤ byteAt [0#8, 0#8, 32#8] 2 := by and_intros <;> decide

theorem test_meets_LaneTestsHoldTheirResponse :
    let s := withRack (withLane bench 5 .down .none 0) .service
    HasRoom s ∧ s.guard.rack = .service ∧ (s.lane 7).state ≠ .active ∧ (s.lane 7).state ≠ .recover ∧
      (s.lane 7).state ≠ .test ∧ s.cardOnLane 7 = none ∧ s.cardOnLane 5 = some 1 ∧ s.cardInUse 1 = false ∧
      (withXp s 127 .unknown).cardInUse 1 = true ∧ bench.guard.rack ≠ .service ∧
      ((withLane s 7 .test .none 0).lane 7).state = .test ∧ ((withLane s 7 .recover .card 0).lane 7).state = .recover := by
  unfold HasRoom; and_intros <;> decide +kernel

theorem test_meets_StatusReadsReportAndClear : HasRoom (withResponses bench 31) := by unfold HasRoom; decide +kernel

theorem test_meets_BadFramesCountToRecover :
    goodLaneFrame [] = false ∧ (bench.lane 3).state = .active ∧ (bench.lane 3).errors < 2 ∧
      2 ≤ ((bench.modLane 3 (fun k => { k with errors := 2 })).lane 3).errors ∧ (bench.lane 0).state ≠ .active ∧
      goodLaneFrame (LaneFrame.probe.bytes 0) = true ∧ isTrafficForm (LaneFrame.probe.bytes 0) = false := by
  and_intros <;> decide +kernel

theorem test_meets_UnmatchedAnswersAreDiscarded :
    (bench.lane 0).state ≠ .active ∧ bench.cardOnLane 3 = none ∧ bench.cardOnLane 5 = some 1 ∧
      (bench.card 1).pending = none ∧
      ((withOrder bench .make [104]).card 1).pending = some ⟨18#8, ⟨.make, 2, [104], false⟩⟩ ∧ 18#8 ≠ 17#8 := by
  and_intros <;> decide +kernel

theorem test_meets_UnmatchedAnswersAreDiscarded_late :
    let s := withOrder bench .make [104]
    s.cardOnLane 5 = some 1 ∧ (s.card 1).pending = some ⟨18#8, ⟨.make, 2, [104], false⟩⟩ ∧
      OrderKind.make ≠ .recovery ∧ TagsFollow s := by
  refine ⟨by decide +kernel, by decide +kernel, by decide, fun c => ?_⟩
  unfold CardCtl.TagFollows
  revert c
  decide +kernel

theorem test_meets_DoneEndsTheOrder :
    let s := withOrder (bench.setXp 2 104 ⟨.closing, 16777215, false⟩) .make [104, 106, 109]
    (s.lane 5).state = .active ∧ s.cardOnLane 5 = some 1 ∧
      (s.card 1).pending = some ⟨18#8, ⟨.make, 2, [104, 106, 109], false⟩⟩ ∧ ([104, 106, 109] : List Pt).Nodup := by
  and_intros <;> decide +kernel

/-- The ends of orders after which nothing more happens at their crosspoints, and a make that leads to SETTLING. -/
theorem test_meets_DoneEndsTheOrder_after :
    let s := withXp (withOrder bench .make [104]) 104 .closing
    Quiesced s ∧ NothingListed s 1 ∧ (∀ p ∈ ([104, 106, 109] : List Pt), cardOf p = 1) ∧ StartsNothing s 2 ∧
      NoWaiter s [104] ∧ (s.xp 2 104).mark = false ∧
      orderMarked (s.setXp 2 104 ⟨.closing, 0, true⟩) ⟨.make, 2, [104], false⟩ = [104] ∧
      StartsNothing (withCtx s 2 (fun c => { c with
        state := .releasing, request := some (.opens ⟨[], false, false⟩) })) 2 ∧
      (let m := withCtx (atSite5 s .making) 2 (fun c => { c with request := some (.make ⟨1, [104, 106, 109], []⟩) })
       (m.ctx 2).request = some (.make ⟨1, [104, 106, 109], []⟩) ∧ (m.ctx 2).state = .making ∧
         (m.ctx 2).inFlight.isSome = true ∧ (m.ctx 2).target = some target5 ∧ target5.settle ≠ 0) := by
  unfold Quiesced NothingListed StartsNothing NoWaiter
  and_intros
  all_goals first
    | exact Or.inl (by decide +kernel)
    | exact Or.inr ⟨by decide +kernel, by decide +kernel, fun r h => by
        cases (Option.some.inj (h.symm.trans (by rfl : _ = some (Request.opens ⟨[], false, false⟩)))); rfl⟩
    | decide +kernel

/-- R23: a close that an emergency open has marked is opened again when it is done. -/
theorem test_marked_close_opens_again :
    let s := (withOrder bench .make [104, 106]).setXp 2 104 ⟨.closing, 0, true⟩ |>.setXp 2 106 ⟨.closing, 0, true⟩
    let t := after (.done 5 18#8) s
    t.out = [(5, .order 19#8 false 2 [40, 42])] ∧ t.xp 2 104 = ⟨.opening, 1, false⟩ := by decide +kernel

/-- R19: a break order that waited behind an emergency open leaves out the point that is OPEN by then, and with none left
it takes no tag (log 14). -/
theorem test_sent_break_leaves_out_open :
    let s := withXp (withXp (withOrder bench .emergency [104]) 104 .opening) 106 .closed
    let with_ (ps : List Pt) : State := s.setCard 1 { s.card 1 with ordinary := [⟨.brk, 2, ps, false⟩] }
    (after (.done 5 18#8) (with_ [104, 106])).out = [(5, .order 19#8 false 2 [42])] ∧
      (after (.done 5 18#8) (with_ [104])).out = [] ∧
      ((after (.done 5 18#8) (with_ [104])).card 1).nextTag = 19#8 := by decide +kernel

theorem test_meets_RejectKeepsItsReason :
    let s := withXp (withOrder bench .brk [104]) 104 .opening
    (s.lane 5).state = .active ∧ s.cardOnLane 5 = some 1 ∧
      (s.card 1).pending = some ⟨18#8, ⟨.brk, 2, [104], false⟩⟩ ∧ (s.xp 2 104).state = .opening ∧
      (s.xp 2 104).mark = false ∧ ((s.setXp 2 104 ⟨.opening, 0, true⟩).xp 2 104).mark = true ∧
      ((withOrder bench .recovery [104]).card 1).pending = some ⟨18#8, ⟨.recovery, 2, [104], false⟩⟩ ∧
      ((withXp (withOrder bench .make [104]) 104 .closing).xp 2 104).state = .closing := by
  and_intros <;> decide +kernel

/-- Rejected orders of each kind after which nothing more happens at their crosspoints. -/
theorem test_meets_RejectKeepsItsReason_after :
    let s := withXp (withOrder bench .make [104]) 104 .closing
    Quiesced s ∧ (∀ p ∈ ([104] : List Pt), cardOf p = 1) ∧ NothingListed s 1 ∧ NoWaiter s [104] ∧
      StartsNothing s 2 ∧ (s.xp 2 104).state = .closing ∧
      (let a := withCtx (s.setCard 1 { s.card 1 with pending := some ⟨18#8, ⟨.make, 2, [104], true⟩⟩ }) 2 (fun c =>
         { c with request := some (.make ⟨1, [104], []⟩) })
       (a.card 1).pending = some ⟨18#8, ⟨.make, 2, [104], true⟩⟩ ∧ (a.ctx 2).queue = [] ∧
         (a.ctx 2).sweep.status ≠ .running) ∧
      ([104] : List Pt) ≠ [] ∧ orderMarked (s.setXp 2 104 ⟨.opening, 0, true⟩) ⟨.brk, 2, [104], false⟩ ≠ [] ∧
      ((s.setXp 2 104 ⟨.opening, 0, true⟩).xp 2 104).mark = true ∧
      ((withXp s 104 .opening).xp 2 104).state = .opening ∧ ((withXp s 104 .opening).xp 2 104).mark = false := by
  unfold Quiesced NothingListed StartsNothing NoWaiter
  and_intros
  all_goals first
    | exact Or.inl (by decide +kernel)
    | decide +kernel

theorem test_meets_OrderTimeoutsRecover :
    (bench.card 1).pending = none ∧
      ((withOrder bench .recovery [104]).card 1).pending = some ⟨18#8, ⟨.recovery, 2, [104], false⟩⟩ ∧
      (bench.cardEntry 1).lane = some 5 ∧ (bench.lane 5).state = .active ∧
      ((withOrder bench .recovery [104]).matrixWork = [] ∧ (withOrder bench .recovery [104]).mail = []) ∧
      ((withOrder bench .make [104]).card 1).pending = some ⟨18#8, ⟨.make, 2, [104], false⟩⟩ := by
  and_intros <;> decide +kernel

theorem test_meets_PresenceReportsAreApplied :
    bench.laneHasCard 5 = true ∧ bench.cardOnLane 5 = some 1 ∧ bench.siteOnBlock (blockOnCard 1 5) = some 5 ∧
      (0x20#8).getLsbD 5 = true ∧ (0xDF#8).getLsbD 5 = false ∧ bench.blockPresence (blockOnCard 1 5) ≠ .present ∧
      (after (.presence 5 0x20#8) bench).blockPresence (blockOnCard 1 5) = .present ∧ bench.laneHasCard 3 = false := by
  and_intros <;> decide +kernel

/-- The powered board at site 5, seated, while bus 2 works or holds in a state. -/
def poweredWork (st : CtxState) : State := (after (.presence 5 0x20#8) (connected st)).setSupply 5 true

theorem test_meets_PresenceReports_departed :
    (poweredWork .holding).laneHasCard 5 = true ∧ (poweredWork .holding).cardOnLane 5 = some 1 ∧
      Quiesced (poweredWork .holding) ∧ Leaves (poweredWork .holding) 1 0x00#8 5 ∧
      WorksAt (poweredWork .quieting) 2 .quieting 5 ∧ WorksAt (poweredWork .breaking) 2 .breaking 5 ∧
      WorksAt (poweredWork .blocked) 2 .blocked 5 ∧ WorksAt (poweredWork .making) 2 .making 5 ∧
      WorksAt (poweredWork .settling) 2 .settling 5 ∧ WorksAt (poweredWork .restoring) 2 .restoring 5 ∧
      WorksAt (poweredWork .measuring) 2 .measuring 5 ∧ WorksAt (poweredWork .suspended) 2 .suspended 5 ∧
      ((poweredWork .holding).ctx 2).state = .holding ∧ ((poweredWork .holding).ctx 2).site = some 5 ∧
      (poweredWork .holding).panel.state ≠ .closing ∧ ∀ u, ¬ Leaves bench 1 0x00#8 u := by
  unfold Leaves
  and_intros
  all_goals first
    | decide +kernel
    | exact ⟨_, _, _, _, _, _, _, _, rfl⟩

/-- R166 and R168: the powered board at site 5 is pulled while bus 2 holds there. -/
theorem test_powered_board_leaves :
    let t := after (.presence 5 0x00#8) (poweredWork .holding)
    t.out.head? = some (5, .supply 0#8) ∧ t.supplyOn 5 = false ∧ t.trunk.attn.step = true ∧
      (t.ctx 2).state = .releasing := by decide +kernel

/-- Bus 4's source record in a state. -/
def withSource (v : SrcState) : State := withCtx bench 4 (fun c => { c with source := v })

theorem test_meets_ExchangesEndTheirRecords :
    Quiesced (withSource .goingLive) ∧ ((withSource .goingLive).ctx 4).request = none ∧
      (withSource .goingLive).laneHasInstrument 3 = true ∧ sourceBusOn (withSource .goingLive) 3 0#8 = some 4 ∧
      ((withSource .goingLive).ctx 4).source = .goingLive ∧ ((withSource .goingQuiet).ctx 4).source = .goingQuiet ∧
      (withSource .goingLive).channelUsable 4 = true ∧ (bench.ctx 4).source = .quiet := by
  unfold Quiesced; and_intros <;> decide +kernel

/-- Bus 4 waits at site 5 on a QUIET or LIVE exchange. -/
def exchanging (st : CtxState) (r : Request) (v : SrcState) : State :=
  withCtx (atSource st r) 4 (fun c => { c with source := v, site := some 5, net := some 8, target := some ⟨[107], 13, .force, 5⟩ })

/-- An exchange on which QUIETING or RESTORING waits, and the discard cases of R50. -/
theorem test_meets_ExchangesEndTheirRecords_waiting :
    let q := exchanging .quieting .quiet .goingQuiet
    let r := exchanging .restoring .live .goingLive
    Quiesced q ∧ q.laneHasInstrument 3 = true ∧ sourceBusOn q 3 0#8 = some 4 ∧ (q.ctx 4).source = .goingQuiet ∧
      (q.ctx 4).request = some .quiet ∧ (q.ctx 4).state = .quieting ∧ (q.ctx 4).inFlight.isSome = true ∧
      (q.ctx 4).target = some ⟨[107], 13, .force, 5⟩ ∧ ([107] : List Pt).Pairwise (· < ·) ∧
      (∀ p ∈ ([107] : List Pt), blockOf p = 13) ∧ q.isSafe = false ∧ q.tripped 4 = false ∧
      (∃ p ∈ ([107] : List Pt), (q.xp 4 p).state ≠ .closed) ∧ CardIdleOn q 1 5 ∧
      Quiesced r ∧ sourceBusOn r 3 0#8 = some 4 ∧ (r.ctx 4).source = .goingLive ∧ (r.ctx 4).request = some .live ∧
      (r.ctx 4).state = .restoring ∧ (r.ctx 4).inFlight.isSome = true ∧ r.channelUsable 4 = true ∧
      (r.ctx 4).step = some ⟨9#16, .measure (.single 5) 8 20 1 0 60000 false⟩ ∧
      ((withCtx r 4 (fun c => { c with step := some ⟨9#16, .connect 5 8⟩ })).ctx 4).step = some ⟨9#16, .connect 5 8⟩ ∧
      (r.ctx 4).queue = [] ∧ (r.ctx 4).endPending = none ∧ r.isSafe = false ∧ WorksAt q 4 .quieting 5 ∧
      WorksAt r 4 .restoring 5 ∧ 64 ≤ (withRecords r 64 true).queue.records.length ∧ sourceBusOn q 3 1#8 = none ∧
      ((withSource .unsure).ctx 4).source ≠ .goingQuiet ∧ (r.ctx 4).source ≠ .goingQuiet ∧
      (q.ctx 4).source ≠ .goingLive := by
  unfold Quiesced CardIdleOn
  and_intros
  all_goals first
    | decide +kernel
    | exact ⟨_, _, _, _, _, _, _, _, rfl⟩

/-- R69 to R71 and R73: the ACK of QUIET lets the make go out, and the ACK of LIVE the TAKE. -/
theorem test_acks_go_on :
    (after (.ack 3 0#8 0#8) (exchanging .quieting .quiet .goingQuiet)).out = [(5, .order 0#8 true 4 [43])] ∧
      (after (.ack 3 0#8 1#8) (exchanging .restoring .live .goingLive)).out = [(3, .take 0 1#8 1)] ∧
      (after (.ack 3 0#8 0#8) (exchanging .restoring .live .goingLive)).out = [] := by decide +kernel

/-- Bus 2 measures with K = 2 and D = 1, one counted reading (index 2) in. -/
def halfTaken : State := withCtx measuring 2 (fun c => { c with
  step := some ⟨9#16, .measure (.single 5) 7 20 2 1 60000 false⟩, acc := [sample 2 1000000] })

theorem test_meets_ReadingsAreCounted :
    measuring.laneHasInstrument 0 = false ∧ measuring.laneHasInstrument 3 = true ∧ readingBus measuring 3 4#8 = none ∧
      readingBus halfTaken 3 3#8 = some 2 ∧ (halfTaken.ctx 2).captured = some capture5 ∧
      (halfTaken.ctx 2).state = .measuring ∧ (halfTaken.ctx 2).takeTag = 20#8 ∧ (0#8).toNat < 1 ∧
      1 + 2 ≤ (3#8).toNat ∧ (∃ m ∈ (halfTaken.ctx 2).acc, m.index = (2#8).toNat) ∧ 1 ≤ (1#8).toNat ∧
      (2#8).toNat < 1 + 2 ∧ (∀ m ∈ (halfTaken.ctx 2).acc, m.index ≠ (1#8).toNat) ∧
      ((withCtx halfTaken 2 (fun c => { c with acc := [] })).ctx 2).acc.length + 1 < 2 := by
  and_intros <;> decide +kernel

/-- A stale reading: of an earlier take, and at a bus that is IDLE without a capture (R75, R76). -/
theorem test_meets_ReadingsAreCounted_stale :
    readingBus halfTaken 3 3#8 = some 2 ∧ (halfTaken.ctx 2).takeTag ≠ 19#8 ∧ readingBus bench 3 3#8 = some 2 ∧
      (bench.ctx 2).state ≠ .measuring ∧ (bench.ctx 2).captured = none := by and_intros <;> decide +kernel

theorem test_meets_LastReadingIsJudged :
    Quiesced halfTaken ∧ readingBus halfTaken 3 3#8 = some 2 ∧ (halfTaken.ctx 2).captured = some capture5 ∧
      (halfTaken.ctx 2).acc.length + 1 = 2 ∧ (halfTaken.ctx 2).inFlight = some 5 ∧ (halfTaken.ctx 2).request = none ∧
      halfTaken.queue.compact = false ∧ (withRecords halfTaken 63 true).queue.compact = true ∧
      (withRecords halfTaken 63 true).queue.records.length < 64 ∧
      64 ≤ (withRecords halfTaken 64 true).queue.records.length ∧
      verdictOf limit20 (average [sample 2 1000000, sample 1 1010000]) false = .pass ∧ limit20.mode ≠ .record ∧
      (withRecords halfTaken 63 true).queue.foldCount < 4294967295 := by
  unfold Quiesced; and_intros <;> decide +kernel

/-- Lane 5 is clearing in TRAIN with its card. -/
def clearing (p : Partner) : State :=
  (withLane bench 5 .train p 4).modLane 5 (fun k => { k with phase := .clearing })

theorem test_meets_LanesTrain :
    (bench.lane 0).state = .detect ∧ ((withLane bench 5 .train .none 0).lane 5).state = .train ∧
      ((withLane bench 5 .train .none 0).lane 5).phase = .identification ∧
      ((1 : Fin 5).val = (1#8).toNat ∧ (4 : Fin 5).val = (4#8).toNat ∧ 1 ≤ (1#8).toNat) ∧
      ((0#8 ≠ 1#8 ∧ 0#8 ≠ 2#8) ∧ 7#8 ≠ 8#8 ∧ 4 < (5#8).toNat) ∧ ((clearing .card).lane 5).phase = .clearing ∧
      ((clearing .card).lane 5).state = .train ∧ Quiesced (clearing .card) ∧ ((clearing .card).lane 5).partner = .card ∧
      (clearing .card).cardOnLane 5 = some 1 ∧ (∀ y : Bus, ((clearing .card).ctx y).waitsFor = []) ∧
      ((clearing .instrument).lane 5).partner = .instrument := by
  unfold Quiesced; and_intros <;> decide +kernel

theorem test_meets_LaneFramesOutOfPlaceAreDiscarded :
    (bench.lane 3).state ≠ .detect ∧ ¬ ((bench.lane 3).state = .train ∧ (bench.lane 3).phase = .identification) ∧
      ¬ (((clearing .card).lane 5).state = .train ∧ ((clearing .card).lane 5).phase = .identification) ∧
      ¬ ((bench.lane 3).state = .train ∧ (bench.lane 3).phase = .clearing) ∧ (bench.lane 3).state ≠ .recover ∧
      (bench.lane 3).state ≠ .test ∧ bench.laneHasInstrument 5 = false ∧ (bench.lane 3).channels.val ≤ (4#8).toNat ∧
      2 ≤ (2#8).toNat ∧ 2 ≤ (255#8).toNat := by and_intros <;> decide +kernel

theorem test_meets_LanesRecoverAndTimeOut :
    let s := withLane bench 3 .recover .instrument 4
    (s.lane 3).state = .recover ∧ ((2#8).toNat = (s.lane 3).partner.code ∧ (4#8).toNat = (s.lane 3).channels.val) ∧
      ¬ ((2#8).toNat = (s.lane 3).partner.code ∧ (3#8).toNat = (s.lane 3).channels.val) ∧ Quiesced s ∧
      ((withLane bench 3 .down .none 0).lane 3).state = .down ∧ (bench.lane 0).state = .detect ∧
      ((clearing .card).lane 5).state = .train ∧ (bench.lane 3).state ≠ .down ∧ (bench.lane 3).state ≠ .detect ∧
      (bench.lane 3).state ≠ .train ∧ (bench.lane 3).state ≠ .recover ∧ (bench.lane 3).state ≠ .test := by
  unfold Quiesced; and_intros <;> decide +kernel

/-- Card 1 in RECOVER with UNKNOWN crosspoints on two bus rows. -/
def returning : State :=
  (withXp (withLane bench 5 .recover .card 0) 106 .unknown).setXp 4 107 ⟨.unknown, 0, false⟩

theorem test_meets_LanesRecover_card :
    (returning.lane 5).state = .recover ∧ ((1#8).toNat = (returning.lane 5).partner.code ∧
      (0#8).toNat = (returning.lane 5).channels.val) ∧ (returning.lane 5).partner = .card ∧
      returning.cardOnLane 5 = some 1 ∧ (returning.card 1).idle = true ∧ Quiesced returning ∧
      (∃ (x : Bus) (p : Pt), cardOf p = 1 ∧ (returning.xp x p).state = .unknown) ∧
      (∀ (x : Bus) (p : Pt), cardOf p = 1 → ((withLane bench 5 .recover .card 0).xp x p).state ≠ .unknown) := by
  unfold Quiesced; and_intros <;> decide +kernel

/-- R40: the recovery open of the lower bus row goes out, and that of the higher one is listed. -/
theorem test_card_returns :
    let t := after (.resync 5 1#8 0#8) returning
    t.out = [(5, .order 0#8 false 2 [42])] ∧ (t.card 1).priority = [⟨.recovery, 4, [107], false⟩] := by decide +kernel

/-- Lane 7 in TEST with 255 frames asked for and `n` sent. -/
def testing (n : Nat) : State := bench.modLane 7 (fun k => { k with state := .test, testCount := 255, testSent := n })

theorem test_meets_TestFramesCount :
    ((testing 253).lane 7).state = .test ∧ ((testing 253).lane 7).testSent + 1 < ((testing 253).lane 7).testCount ∧
      ((testing 254).lane 7).testCount ≤ ((testing 254).lane 7).testSent + 1 ∧
      ([] : List Byte) ≠ testFrameBytes (byte (((testing 0).lane 7).testSent + 1)) := by
  and_intros <;> decide +kernel

/-- A bus settles. -/
def settling (x : Bus) (w : Work) : State :=
  withCtx bench x (fun c => { c with state := .settling, settleTimer := some 15, step := some ⟨9#16, w⟩ })

theorem test_meets_SettledBusesGoOn :
    ((bench.ctx 2).state ≠ .settling ∧ (bench.ctx 2).settleTimer = none) ∧ Quiesced (settling 2 work5) ∧
      ((settling 2 work5).ctx 2).state = .settling ∧ ((settling 2 work5).ctx 2).settleTimer.isSome = true ∧
      ((settling 2 work5).ctx 2).step = some ⟨9#16, work5⟩ ∧ (bench.busEntry 2).kind ≠ .source ∧
      (settling 2 work5).channelUsable 2 = true ∧ (bench.busEntry 4).kind = .source ∧
      ((settling 4 work5).ctx 4).source = .quiet ∧ (settling 4 work5).channelUsable 4 = true ∧
      (settling 4 work5).isSafe = false ∧ (settling 4 work5).tripped 4 = false ∧
      ((settling 2 (.connect 5 7)).ctx 2).step = some ⟨9#16, .connect 5 7⟩ ∧
      ((settling 2 (.connect 5 7)).ctx 2).queue = [] ∧ ((settling 2 (.connect 5 7)).ctx 2).endPending = none := by
  unfold Quiesced; and_intros <;> decide +kernel

theorem test_meets_FailedSitesAreJudgedInvalid :
    Quiesced blocked ∧ (blocked.ctx 2).step = some ⟨9#16, work5⟩ ∧ (blocked.ctx 2).inFlight.isSome = true ∧
      (blocked.ctx 2).state = .blocked ∧ (blocked.ctx 2).request = some (.make ⟨1, [104, 106, 109], [106]⟩) ∧
      (blocked.ctx 2).captured = none ∧ blocked.queue.records.length < 64 ∧
      64 ≤ (withRecords blocked 64 true).queue.records.length ∧ (measuring.ctx 2).state = .measuring ∧
      (measuring.ctx 2).measureTimer.isSome = true ∧ (measuring.ctx 2).captured = some capture5 ∧
      (measuring.ctx 2).request = none ∧ measuring.channelUsable 2 = true ∧
      ((bench.ctx 2).state ≠ .measuring ∧ (bench.ctx 2).waitsFor = []) := by
  unfold Quiesced; and_intros <;> decide +kernel

/-- Bus 2 waits for point 106 with a CONNECT step. -/
def blockedConnect : State := withCtx blocked 2 (fun c => { c with step := some ⟨9#16, .connect 5 7⟩ })

theorem test_meets_FailedSites_connect :
    Quiesced blockedConnect ∧ (blockedConnect.ctx 2).step = some ⟨9#16, .connect 5 7⟩ ∧
      (blockedConnect.ctx 2).state = .blocked ∧
      (blockedConnect.ctx 2).request = some (.make ⟨1, [104, 106, 109], [106]⟩) ∧
      (blockedConnect.ctx 2).inFlight = some 5 ∧ (blockedConnect.ctx 2).site = some 5 ∧
      (blockedConnect.ctx 2).captured = none ∧ blockedConnect.queue.records.length < 64 ∧
      (blockedConnect.ctx 2).endPending = none ∧ (blockedConnect.ctx 2).sweep.status ≠ .running ∧
      (blockedConnect.ctx 2).queue = [] ∧ (∀ y : Bus, y ≠ 2 → (blockedConnect.ctx y).waitsFor = []) ∧
      blockedConnect.sourceQuiet 2 = true ∧ blockedConnect.breaksOutstanding 2 = false ∧
      (∀ p : Pt, blockedConnect.claimed 2 p = true → (blockedConnect.xp 2 p).state = .reserved) ∧
      64 ≤ (withRecords blockedConnect 64 true).queue.records.length := by
  unfold Quiesced; and_intros <;> decide +kernel

/-- R33, R85: the block wait of a CONNECT step ends; with nothing to open the bus is IDLE, and HALTED where row 0 says so. -/
theorem test_block_wait_of_a_connect :
    let s := withXp blockedConnect 104 .reserved
    let t := after (.blockWaitExpiry 2) s
    let h := after (.blockWaitExpiry 2) { s with tables := { s.tables with disps := s.tables.disps.set 4 ⟨0, .haltBus, false⟩ } }
    t.queue.records = [invalidRecord s 2 9#16 0 false .conflict] ∧ (t.ctx 2).state = .idle ∧ (t.xp 2 104).state = .opn ∧
      (h.ctx 2).state = .halted ∧ (h.ctx 2).resume = .none ∧ h.trunk.attn.step = true := by decide +kernel

theorem test_meets_SamplesFollowTheStages :
    1 ≤ 24 ∧ (2 * (shiftRound 3 1 * 2 ^ 1 - 3)).natAbs = 2 ^ 1 ∧ 2 * (8388607 : Int).natAbs < 2 ^ 24 ∧
      (0 : Int) ≤ 0 ∧ (-1 : Int) ≤ 0 ∧ readingBus halfTaken 3 3#8 = some 2 ∧
      (halfTaken.ctx 2).step = some ⟨9#16, .measure (.single 5) 7 20 2 1 60000 false⟩ ∧ (0#8).toNat < 1 := by
  and_intros <;> decide +kernel

/-- Two samples whose mean is a tie, with one mark (R117, R120). -/
def tied : List Sample := [⟨2, -2, false, 3⟩, ⟨1, -1, true, 5⟩]

theorem test_meets_AveragesRoundToTheNearest :
    tied ≠ [] ∧ (2 * (average tied * tied.length - sampleSum tied)).natAbs = tied.length ∧ average tied = -2 ∧
      (∀ m ∈ tied, (-2 : Int) ≤ m.value ∧ m.value ≤ -1) ∧ ([⟨1, -1, true, 5⟩, ⟨2, -2, false, 3⟩] : List Sample).Perm tied ∧
      (⟨1, -1, true, 5⟩ : Sample) ∈ tied ∧ (∀ o ∈ tied, o.index = 1 → o = ⟨1, -1, true, 5⟩) :=
  ⟨by decide, by decide, by decide, by decide, .swap _ _ _, by decide, by decide⟩

/-- The bounds of R125 at both ends, with and without a guard band, and with overlapping zones. -/
theorem test_meets_ValuesAreJudgedByTheirLimits :
    (⟨.both, 10#32, 20#32, 6, 0⟩ : LimitEntry).high.toInt - 6 < (⟨.both, 10#32, 20#32, 6, 0⟩ : LimitEntry).low.toInt + 6 ∧
      verdictOf ⟨.both, 10#32, 20#32, 6, 0⟩ 10 false = .marginal ∧ verdictOf ⟨.both, 10#32, 20#32, 0, 0⟩ 20 false = .pass ∧
      verdictOf ⟨.both, 10#32, 20#32, 0, 0⟩ 21 false = .failHigh ∧ verdictOf ⟨.lowOnly, 10#32, 20#32, 5, 0⟩ 14 false = .marginal ∧
      verdictOf ⟨.highOnly, 10#32, 20#32, 5, 0⟩ 15 false = .pass ∧ verdictOf ⟨.record, 10#32, 20#32, 5, 0⟩ 99 true = .pass ∧
      verdictOf ⟨.both, 10#32, 20#32, 5, 0⟩ 0 true = .failHigh := by and_intros <;> decide

/-- Every sweep of the bench is on its walk; one with its rows in the wrong order is not. -/
theorem test_meets_TablesStayLawful_walks :
    WalksLawful bench ∧ ¬ (Sweep.OnWalk ⟨.running, ⟨0, 0, 3, 2⟩, .rows, none, 1, []⟩) := by
  have cursors : ∀ x, (bench.ctx x).sweep.cursor = none := by decide +kernel
  have queues : ∀ x, (bench.ctx x).queue = [] := by decide +kernel
  refine ⟨fun x => ⟨⟨?_, fun cell h => ?_⟩, fun st h => ?_⟩, fun h => absurd h.1.2 (by decide)⟩
  · unfold Window.InOrder; revert x; decide +kernel
  · rw [cursors x] at h; cases h
  · rw [queues x] at h; cases h

theorem test_meets_TablesStayLawful :
    TablesLawful bench ∧ DisabledAtRest bench ∧ step { bench with pending := [.markPulseEnd] } =
      .next { bench with markHigh := false, out := [] } := by
  unfold DisabledAtRest Ctx.Restful
  exact ⟨test_tables_lawful_bench, by decide +kernel, rfl⟩

theorem test_meets_QueuesStayBounded :
    QueueLawful (withRecords (withResponses bench 32) 64 true) ∧ QueueLawful (withRecords bench 47 false) ∧
      (withResponses bench 32).trunk.responses.length ≤ 32 := by
  unfold QueueLawful; and_intros <;> decide +kernel

theorem test_meets_MatrixStaysLawful :
    Sparse.wf (withXp measuring 255 .closed).matrix.xps = true ∧ WearLawful bench ∧ OpensFirst bench ∧ TagsFollow bench := by
  refine ⟨by decide +kernel, fun x p => ?_, test_bench_opensFirst, fun c => ?_⟩
  · exact Nat.zero_le _
  · unfold CardCtl.TagFollows; revert c; decide +kernel

/-- The law of claims holds of the bench with an order in flight, and fails once a second bus claims its point. -/
theorem test_meets_MatrixStaysLawful_claims :
    TablesLawful bench ∧ OneClaimant (withXp bench 104 .closed) ∧
      ¬ OneClaimant ((withXp bench 104 .closed).setXp 4 104 ⟨.reserved, 0, false⟩) := by
  refine ⟨test_meets_TablesStayLawful.1, ?_, fun h => ?_⟩
  · unfold OneClaimant; decide +kernel
  · exact absurd (h 104 2 4 (by decide +kernel) (by decide +kernel)) (by decide)

theorem test_claims_lawful_bench : ClaimsLawful bench := by
  apply claimsLawful_of <;> (try unfold OneClaimant) <;> decide +kernel

theorem test_meets_NothingClosesInSafe :
    TablesLawful bench ∧ OpensFirst bench ∧ DisabledAtRest bench ∧
      (after (.step 7#16 (Step.bytes 4 ⟨9#16, .connect 5 8⟩)) bench).out = [] ++ (5, .order 0#8 true 4 [43]) :: [] ∧
      ((after (.step 7#16 (Step.bytes 4 ⟨9#16, .connect 5 8⟩)) bench).busEntry 4).kind = .source :=
  ⟨test_meets_TablesStayLawful.1, test_bench_opensFirst, test_meets_TablesStayLawful.2.1, by decide +kernel,
    by decide +kernel⟩

theorem test_meets_StoresMoveOnlyByTheirCommands :
    Instr.lidOpens ≠ .powerReset ∧ Instr.lidOpens.tableWrite = none ∧ WearLawful bench ∧
      (∃ t, exec (.done 5 18#8) (withXp (withOrder bench .make [104]) 104 .closing) = .next t ∧ (t.xp 2 104).wear ≠ 0) :=
  ⟨by decide +kernel, rfl, test_meets_MatrixStaysLawful.2.1, _, rfl, by decide +kernel⟩

theorem test_meets_GuardAndLanesMoveOnlyByTheirEvents :
    (after .lidOpens bench).guard.rack ≠ bench.guard.rack ∧ (tripped .none).tripped 2 = true ∧
      (after (.clearTrip 1#16 [2#8]) (tripped .none)).tripped 2 = false ∧
      (after (.laneReset 1#16 [3#8]) bench).lane 3 ≠ bench.lane 3 := by and_intros <;> decide +kernel

end Sys2Proof.Tests
end

