-- ==== Sys2Proof/Proofs/PendingOrders.lean ====
section
/-!
SUPPORT. An order that is pending stays pending through everything a command leads to: no operation of the matrix
controller that answers a request or sends an order, and no bus context, ends it or takes its place (R22). At most its
request is withdrawn, so that it answers nobody (R34).
-/

namespace Sys2Proof.Machine

/-- The pending order with no request left to answer (R31, R34). -/
def PendingOrder.unasked (q : PendingOrder) : PendingOrder := { q with order := { q.order with answers := false } }

/-- The order pending in `k` is pending in `k'`, at most with no request left to answer. -/
def CardCtl.OrderStays (k k' : CardCtl) : Prop :=
  ∀ q, k.pending = some q → k'.pending = some q ∨ k'.pending = some q.unasked

/-- Every card's pending order stays. -/
def OrdersStay (k k' : Vector CardCtl 4) : Prop := ∀ c : CardId, k[c].OrderStays k'[c]

/-! ### The relation -/

/-- A card whose pending order is the same has kept it. -/
theorem CardCtl.OrderStays.of_eq {k k' : CardCtl} (h : k'.pending = k.pending) : k.OrderStays k' :=
  fun _ hq => .inl (h.trans hq)

/-- A card with no pending order has none to keep. -/
theorem CardCtl.OrderStays.of_none {k k' : CardCtl} (h : k.pending = none) : k.OrderStays k' :=
  fun _ hq => absurd (h.symm.trans hq) (by simp)

theorem CardCtl.OrderStays.trans {k k' k'' : CardCtl} (h : k.OrderStays k') (h' : k'.OrderStays k'') :
    k.OrderStays k'' := fun q hq => by
  rcases h q hq with hk | hk
  · exact h' q hk
  · exact .inr ((h' _ hk).elim id id)

/-- Withdrawing a bus's orders leaves the pending one, which answers nobody where it was the bus's (R34, R35). -/
theorem CardCtl.orphan_without_orderStays (k : CardCtl) (x : Bus) (drop : OrderKind → Bool) :
    k.OrderStays ((k.without x drop).orphan x) := by
  unfold CardCtl.orphan
  split
  · next p hp =>
    split
    · intro q hq
      cases hp.symm.trans hq
      exact .inr rfl
    · exact .of_eq rfl
  · exact .of_eq rfl

theorem OrdersStay.refl (k : Vector CardCtl 4) : OrdersStay k k := fun _ => .of_eq rfl

/-- A pending order that answers nobody stays as it is. -/
theorem OrdersStay.pending {s t : State} (h : OrdersStay s.matrix.cards t.matrix.cards) {c : CardId} {q : PendingOrder}
    (hq : (s.card c).pending = some q) (hanswers : q.order.answers = false) : (t.card c).pending = some q := by
  have hunasked : q.unasked = q := by
    obtain ⟨tag, kind, bus, points, answers⟩ := q
    cases hanswers
    rfl
  exact (h c q hq).elim id (fun hq' => hq'.trans (congrArg some hunasked))

section

variable {k : Vector CardCtl 4} {s : State}

theorem setCard_stays (c : CardId) (d : CardCtl) (hd : (s.card c).OrderStays d) (h : OrdersStay k s.matrix.cards) :
    OrdersStay k (s.setCard c d).matrix.cards := fun e => by
  have hcard := State.card_setCard s c e d
  simp only [State.card] at hcard hd
  rw [hcard]
  split
  · next he => subst he; exact (h c).trans hd
  · exact h e

/-- Operations on a list, one after another. -/
theorem foldl_stays {α : Type} (f : State → α → State)
    (hf : ∀ u a, OrdersStay k u.matrix.cards → OrdersStay k (f u a).matrix.cards) (l : List α)
    (h : OrdersStay k s.matrix.cards) : OrdersStay k (l.foldl f s).matrix.cards := by
  induction l generalizing s with
  | nil => exact h
  | cons a l ih => exact ih (hf s a h)

end

/-! ### Operations that leave the matrix controller alone -/

/-- Crosspoint records are no orders. -/
@[simp] theorem State.modXps_cards (s : State) (x : Bus) (ps : List Pt) (f : XRec → XRec) :
    (s.modXps x ps f).matrix.cards = s.matrix.cards := by
  unfold State.modXps
  induction ps generalizing s with
  | nil => rfl
  | cons p ps ih => exact ih _

@[simp] theorem State.modOpens_matrix (s : State) (x : Bus) (f : OpenReq → OpenReq) :
    (s.modOpens x f).matrix = s.matrix := rfl

@[simp] theorem answerOpens_matrix (s : State) (x : Bus) : (answerOpens s x).matrix = s.matrix := by
  unfold answerOpens
  split
  · split <;> rfl
  · rfl

@[simp] theorem tellRequest_matrix (s : State) (o : Order) (failure : Option Cause) :
    (tellRequest s o failure).matrix = s.matrix := by
  unfold tellRequest
  split
  · rfl
  · split
    · rfl
    · split <;> rfl
    · rfl

@[simp] theorem quietRequest_matrix (s : State) (x : Bus) : (quietRequest s x).1.matrix = s.matrix := by
  unfold quietRequest
  split
  · rfl
  · split
    · rfl
    · rfl
    · rfl
    all_goals split <;> rfl

@[simp] theorem liveRequest_matrix (s : State) (x : Bus) : (liveRequest s x).1.matrix = s.matrix := by
  unfold liveRequest
  split
  · rfl
  · split
    · split <;> rfl
    all_goals rfl

@[simp] theorem appendRecord_matrix (s : State) (r : Rec) : (appendRecord s r).matrix = s.matrix := by
  obtain ⟨a, -, happend⟩ := appendRecord_only s r
  rw [happend]

@[simp] theorem slotTaken_matrix (s : State) (x : Bus) : (slotTaken s x).matrix = s.matrix := rfl

@[simp] theorem offer_matrix (s : State) (x : Bus) : (offer s x).matrix = s.matrix := by
  unfold offer
  split
  · rfl
  · split
    · rfl
    · split
      · simp
      · rfl

@[simp] theorem judge_matrix (s : State) (x : Bus) (v : Verdict) (body : MeasBody) (fl : Flags) (unit : Fin 16) (n : Nat)
    (row : Fin 16) (site : Option Site) : (judge s x v body fl unit n row site).matrix = s.matrix := by
  unfold judge
  dsimp only
  simp only [State.modCtx_matrix, offer_matrix]
  cases site <;> split <;> rfl

@[simp] theorem judgeInvalid_matrix (s : State) (x : Bus) (cause : Cause) :
    (judgeInvalid s x cause).matrix = s.matrix := judge_matrix _ _ _ _ _ _ _ _ _

@[simp] theorem toIdle_matrix (s : State) (x : Bus) : (toIdle s x).matrix = s.matrix := rfl

@[simp] theorem cancelTake_matrix (s : State) (x : Bus) : (cancelTake s x).matrix = s.matrix := by
  unfold cancelTake
  dsimp only
  split <;> rfl

@[simp] theorem enterMeasuring_matrix (s : State) (x : Bus) : (enterMeasuring s x).matrix = s.matrix := by
  unfold enterMeasuring
  split
  · split
    · dsimp only
      split <;> rfl
    · simp
  · rfl

@[simp] theorem enterHolding_matrix (s : State) (x : Bus) : (enterHolding s x).matrix = s.matrix := rfl

@[simp] theorem afterLive_matrix (s : State) (x : Bus) : (afterLive s x).matrix = s.matrix := by
  unfold afterLive
  split <;> simp

@[simp] theorem sweepEnds_matrix (s : State) (x : Bus) (e : EndKind) : (sweepEnds s x e).matrix = s.matrix := rfl

@[simp] theorem releaseFails_matrix (s : State) (x : Bus) (cause : Cause) :
    (releaseFails s x cause).matrix = s.matrix := by
  unfold releaseFails
  dsimp only
  split <;> simp

@[simp] theorem releaseAnswered_matrix (s : State) (x : Bus) (failure : Option Cause) :
    (releaseAnswered s x failure).matrix = s.matrix := by
  unfold releaseAnswered
  dsimp only
  split
  · rfl
  · simp only [State.post_matrix, State.modCtx_matrix, releaseFails_matrix]
    split <;> rfl

@[simp] theorem arrive_matrix (s : State) (x : Bus) : (arrive s x).matrix = s.matrix := by
  unfold arrive
  split <;> rfl

@[simp] theorem placeEnd_matrix (s : State) (x : Bus) : (placeEnd s x).matrix = s.matrix := by
  unfold placeEnd
  dsimp only
  split
  · simp
  · rfl

/-! ### The matrix controller -/

section

variable {k : Vector CardCtl 4} {s : State}

/-- What an order sent makes pending (R21, R22). -/
theorem sendOrder_cards (s : State) (c : CardId) (o : Order) :
    (sendOrder s c o).matrix.cards =
      (s.setCard c { s.card c with
        pending := some ⟨(s.card c).nextTag, o⟩, nextTag := (s.card c).nextTag + 1 }).matrix.cards := by
  unfold sendOrder
  simp only [State.modXps_cards]
  split
  · split <;> rfl
  · rfl

/-- An order is sent to a card that has none pending. -/
theorem sendOrder_stays (c : CardId) (o : Order) (hn : (s.card c).pending = none) (h : OrdersStay k s.matrix.cards) :
    OrdersStay k (sendOrder s c o).matrix.cards := by
  rw [sendOrder_cards]
  exact setCard_stays c _ (.of_none hn) h

theorem sendOpen_stays (c : CardId) (o : Order) (hn : (s.card c).pending = none) (h : OrdersStay k s.matrix.cards) :
    OrdersStay k (sendOpen s c o).matrix.cards := by
  unfold sendOpen
  split
  · split
    · simpa using h
    · exact h
  · exact sendOrder_stays c _ hn h

theorem withdrawOrder_stays (c : CardId) (o : Order) (m : Mail) (h : OrdersStay k s.matrix.cards) :
    OrdersStay k (withdrawOrder s c o m).matrix.cards := by
  unfold withdrawOrder
  dsimp only
  split <;> simpa using h

/-- The next order is sent only where none is pending (R22). -/
theorem sendNext_stays (c : CardId) (h : OrdersStay k s.matrix.cards) : OrdersStay k (sendNext s c).matrix.cards := by
  unfold sendNext
  dsimp only
  split
  · exact h
  · next hp =>
    have hn : (s.card c).pending = none := by simpa using hp
    split
    · exact sendOpen_stays c _ (by simpa using hn) (setCard_stays c _ (.of_eq rfl) h)
    · next o rest _ _ =>
      have hset : OrdersStay k (s.setCard c { s.card c with ordinary := rest }).matrix.cards :=
        setCard_stays c _ (.of_eq rfl) h
      have hnone : ((s.setCard c { s.card c with ordinary := rest }).card c).pending = none := by simpa using hn
      split
      · split
        · exact sendOrder_stays c o hnone hset
        · exact withdrawOrder_stays c o _ hset
        · exact withdrawOrder_stays c o _ hset
      · exact sendOpen_stays c o hnone hset
    · exact h

theorem reserve_stays (x : Bus) (ps : List Pt) (h : OrdersStay k s.matrix.cards) :
    OrdersStay k (s.reserve x ps).matrix.cards := by simpa [State.reserve] using h

theorem placeOrdinary_stays (c : CardId) (o : Order) (h : OrdersStay k s.matrix.cards) :
    OrdersStay k (placeOrdinary s c o).1.matrix.cards := by
  have hset : OrdersStay k (s.setCard c { s.card c with ordinary := (s.card c).ordinary ++ [o] }).matrix.cards :=
    setCard_stays c _ (.of_eq rfl) h
  unfold placeOrdinary
  dsimp only
  split
  · exact h
  · have hplaced : OrdersStay k (if o.kind = .make then
        (s.setCard c { s.card c with ordinary := (s.card c).ordinary ++ [o] }).reserve o.bus o.points
        else s.setCard c { s.card c with ordinary := (s.card c).ordinary ++ [o] }).matrix.cards := by
      split
      · exact reserve_stays o.bus o.points hset
      · exact hset
    dsimp only
    split
    · exact sendNext_stays c hplaced
    · exact hplaced

theorem returnReservations_stays (x : Bus) (h : OrdersStay k s.matrix.cards) :
    OrdersStay k (returnReservations s x).matrix.cards := by simpa [returnReservations] using h

theorem withdrawMake_stays (x : Bus) (h : OrdersStay k s.matrix.cards) :
    OrdersStay k (withdrawMake s x).matrix.cards := by
  unfold withdrawMake
  split
  · exact returnReservations_stays x
      (foldl_stays _ (fun _ c hu => setCard_stays c _ (CardCtl.orphan_without_orderStays _ x _) hu) _ h)
  · exact h

theorem placeMake_stays {x : Bus} {c : CardId} {ps : List Pt} {r : State × Bool} (hr : placeMake s x c ps = r)
    (h : OrdersStay k s.matrix.cards) : OrdersStay k r.1.matrix.cards := by
  have hplaced := placeOrdinary_stays c ⟨.make, x, needClosing s x ps, true⟩ h
  subst hr
  unfold placeMake
  split
  · next he => rw [he] at hplaced; exact hplaced
  · next he => rw [he] at hplaced; exact returnReservations_stays x hplaced

theorem makeRequest_stays (x : Bus) (tg : Target) (h : OrdersStay k s.matrix.cards) :
    OrdersStay k (makeRequest s x tg).1.matrix.cards := by
  have hreserved := reserve_stays x tg.points h
  unfold makeRequest
  split
  · exact h
  · dsimp only
    split
    · exact hreserved
    · split
      · split
        all_goals next he => exact placeMake_stays he hreserved
      · exact hreserved

theorem placeBreak_stays (x : Bus) (g : CardId × List Pt) (h : OrdersStay k s.matrix.cards) :
    OrdersStay k (placeBreak s x g).matrix.cards := by
  have hplaced := placeOrdinary_stays g.1 ⟨.brk, x, g.2, true⟩ h
  unfold placeBreak
  split
  · split
    all_goals (rename_i he; rw [he] at hplaced; exact hplaced)
  · exact h

theorem opensRequest_stays (x : Bus) (ps : List Pt) (h : OrdersStay k s.matrix.cards) :
    OrdersStay k (opensRequest s x ps).matrix.cards := by
  unfold opensRequest
  dsimp only
  rw [answerOpens_matrix]
  exact foldl_stays _ (fun _ g hu => placeBreak_stays x g hu) _ (by simpa using h)

theorem handleAwaited_stays (x : Bus) (ps : List Pt) (h : OrdersStay k s.matrix.cards) :
    OrdersStay k (handleAwaited s x ps).matrix.cards := by
  unfold handleAwaited
  split
  · dsimp only
    rw [answerOpens_matrix]
    exact foldl_stays _ (fun _ g hu => placeBreak_stays x g hu) _ h
  · exact h

theorem arbitrate_stays (p : Pt) (h : OrdersStay k s.matrix.cards) : OrdersStay k (arbitrate s p).matrix.cards := by
  unfold arbitrate
  split
  · exact h
  · split
    · exact h
    · next x _ _ =>
      have hreserved := reserve_stays x [p] h
      dsimp only
      split
      · split
        · split
          all_goals next he => exact placeMake_stays he hreserved
        · exact hreserved
      · exact hreserved

theorem doMatrix_stays (w : MatrixWork) (h : OrdersStay k s.matrix.cards) : OrdersStay k (doMatrix s w).matrix.cards := by
  cases w with
  | point p => exact arbitrate_stays p h
  | send c => exact sendNext_stays c h

/-! ### The bus contexts -/

theorem endSite_stays (x : Bus) (cause : Cause) (h : OrdersStay k s.matrix.cards) :
    OrdersStay k (endSite s x cause).matrix.cards := by
  unfold endSite
  simp only [State.post_matrix, State.modCtx_matrix, judgeInvalid_matrix]
  split
  · exact withdrawMake_stays x h
  · exact withdrawMake_stays x h
  · exact h
  · simpa using h
  · exact h

theorem enterRestoring_stays (x : Bus) (h : OrdersStay k s.matrix.cards) :
    OrdersStay k (enterRestoring s x).matrix.cards := by
  have hlive : OrdersStay k (liveRequest (s.modCtx x (fun c => { c with state := .restoring })) x).1.matrix.cards := by
    simpa using h
  unfold enterRestoring
  dsimp only
  split
  all_goals (rename_i hq; rw [hq] at hlive)
  · simpa using hlive
  · exact endSite_stays x _ hlive
  · exact hlive
  · exact hlive

theorem afterSettle_stays (x : Bus) (h : OrdersStay k s.matrix.cards) : OrdersStay k (afterSettle s x).matrix.cards := by
  unfold afterSettle
  dsimp only
  split
  · exact enterRestoring_stays x h
  · simpa using h

theorem settleDecision_stays (x : Bus) (stood : Bool) (h : OrdersStay k s.matrix.cards) :
    OrdersStay k (settleDecision s x stood).matrix.cards := by
  unfold settleDecision
  dsimp only
  split
  · exact afterSettle_stays x h
  · split
    all_goals
      split
      · exact afterSettle_stays x h
      · exact h

theorem askMake_stays (x : Bus) (h : OrdersStay k s.matrix.cards) : OrdersStay k (askMake s x).matrix.cards := by
  unfold askMake
  split
  · exact h
  · next tg _ =>
    have hmake := makeRequest_stays (s := s.modCtx x (fun c => { c with state := .making })) x tg h
    dsimp only
    split
    all_goals (rename_i hq; rw [hq] at hmake)
    · exact hmake
    · exact endSite_stays x _ hmake
    · exact settleDecision_stays x true hmake
    · exact hmake
    · exact hmake

theorem afterQuiet_stays (x : Bus) (h : OrdersStay k s.matrix.cards) : OrdersStay k (afterQuiet s x).matrix.cards := by
  unfold afterQuiet
  split
  · exact askMake_stays x h
  · exact opensRequest_stays x _ h

theorem enterQuieting_stays (x : Bus) (h : OrdersStay k s.matrix.cards) :
    OrdersStay k (enterQuieting s x).matrix.cards := by
  have hquiet : OrdersStay k (quietRequest (s.modCtx x (fun c => { c with state := .quieting })) x).1.matrix.cards := by
    simpa using h
  unfold enterQuieting
  dsimp only
  split
  all_goals (rename_i hq; rw [hq] at hquiet)
  · exact hquiet
  · exact endSite_stays x _ hquiet
  · exact afterQuiet_stays x hquiet

theorem startSite_stays (x : Bus) (u : Site) (h : OrdersStay k s.matrix.cards) :
    OrdersStay k (startSite s x u).matrix.cards := by
  unfold startSite
  split
  · exact h
  · split
    · exact h
    · dsimp only
      split
      · simpa using h
      · split
        · exact settleDecision_stays x true h
        · split
          · exact enterQuieting_stays x h
          · exact afterQuiet_stays x h

theorem nextSite_stays (x : Bus) (h : OrdersStay k s.matrix.cards) : OrdersStay k (nextSite s x).matrix.cards := by
  unfold nextSite
  dsimp only
  split
  · exact startSite_stays x _ h
  · exact h

theorem enterReleasing_stays (x : Bus) (d : Dest) (h : OrdersStay k s.matrix.cards) :
    OrdersStay k (enterReleasing s x d).matrix.cards := by
  have hquiet : OrdersStay k (quietRequest (s.modCtx x (fun c =>
      { c with state := .releasing, dest := d, relDone := false, after := .none, lastOk := false, inFlight := none }))
      x).1.matrix.cards := by simpa using h
  unfold enterReleasing
  dsimp only
  split
  all_goals (rename_i hq; rw [hq] at hquiet)
  · exact hquiet
  · exact opensRequest_stays x _ (by simpa using hquiet)
  · exact opensRequest_stays x _ hquiet

theorem endStep_stays (x : Bus) (h : OrdersStay k s.matrix.cards) : OrdersStay k (endStep s x).matrix.cards := by
  unfold endStep
  split
  · split
    · exact h
    · exact enterReleasing_stays x _ h
  · exact enterReleasing_stays x _ h

theorem goOn_stays (x : Bus) (a : Action) (h : OrdersStay k s.matrix.cards) :
    OrdersStay k (goOn s x a).matrix.cards := by
  unfold goOn
  split
  · exact enterReleasing_stays x _ h
  · split
    · exact nextSite_stays x h
    · exact endStep_stays x h

theorem continueSweep_stays (x : Bus) (n : Nat) (h : OrdersStay k s.matrix.cards) :
    OrdersStay k (continueSweep s x n).matrix.cards := by
  unfold continueSweep
  dsimp only
  split
  · exact nextSite_stays x h
  · exact nextSite_stays x h
  all_goals exact h

theorem takeHead_stays (x : Bus) (h : OrdersStay k s.matrix.cards) : OrdersStay k (takeHead s x).matrix.cards := by
  unfold takeHead
  split
  · exact h
  · dsimp only
    split
    · exact enterReleasing_stays x _ h
    · exact startSite_stays x _ h
    · exact startSite_stays x _ h
    · exact nextSite_stays x h
    · exact continueSweep_stays x _ h

theorem leaveTripped_stays (x : Bus) (h : OrdersStay k s.matrix.cards) :
    OrdersStay k (leaveTripped s x).matrix.cards := by
  unfold leaveTripped
  split
  · split
    · exact nextSite_stays x h
    · exact h
  · exact h
  · exact h

theorem poke_stays (x : Bus) (h : OrdersStay k s.matrix.cards) : OrdersStay k (poke s x).matrix.cards := by
  have hend : OrdersStay k (placeEnd s x).matrix.cards := by simpa using h
  unfold poke
  dsimp only
  generalize placeEnd s x = u at hend
  split
  · split
    · exact takeHead_stays x hend
    · exact hend
  · split
    · split <;> exact hend
    · split
      · exact takeHead_stays x hend
      · exact hend
  · split
    · simpa using hend
    · exact hend
  · split
    · split <;> exact hend
    · split
      · exact nextSite_stays x hend
      · exact hend
  · split
    · exact leaveTripped_stays x hend
    · exact hend
  · exact hend
  · split
    · exact hend
    · split
      · exact hend
      · exact enterReleasing_stays x _ hend
      · split
        · exact goOn_stays x _ hend
        · exact hend

theorem doMail_stays (m : Mail) (h : OrdersStay k s.matrix.cards) : OrdersStay k (doMail s m).matrix.cards := by
  cases m with
  | makeDone x =>
    unfold doMail
    dsimp only
    split
    · exact settleDecision_stays x false h
    · exact h
  | makeFailed x cause =>
    unfold doMail
    dsimp only
    split
    · exact endSite_stays x cause h
    · exact h
  | makeRefused x why => exact h
  | opened x failure =>
    unfold doMail
    dsimp only
    split
    · split
      · split
        · exact askMake_stays x h
        · exact endSite_stays x _ h
      · exact poke_stays x h
    · simpa using h
    · exact h
  | quieted x ok =>
    unfold doMail
    dsimp only
    split
    · split
      · split
        · exact afterQuiet_stays x h
        · exact endSite_stays x .lane h
      · exact poke_stays x h
    · refine opensRequest_stays x _ ?_
      split
      · exact h
      · simpa using h
    · exact h
  | lived x ok =>
    unfold doMail
    dsimp only
    split
    · split
      · split
        · simpa using h
        · exact endSite_stays x .lane h
      · exact poke_stays x h
    · exact h
  | poke x => exact poke_stays x h

/-! ### The end of a command -/

theorem drain_stays (n : Nat) (h : OrdersStay k s.matrix.cards) : OrdersStay k (drain n s).matrix.cards := by
  induction n generalizing s with
  | zero => exact h
  | succ n ih =>
    unfold drain
    split
    · exact ih (doMatrix_stays _ h)
    · exact ih (doMail_stays _ h)
    · exact h

/-- No consequence of a command ends a pending order (R22). -/
theorem finish_stays (s : State) : OrdersStay s.matrix.cards (finish s).matrix.cards := by
  rw [finish, pump_matrix, (panelCheck_only _).matrix]
  exact drain_stays drainBound (.refl _)

end

end Sys2Proof.Machine
end

