-- ==== Sys2Proof/Proofs/UnmatchedAnswers.lean ====
section
/-! O37: answers that match no pending order, the late answer to an order that has timed out among them (R26). -/

namespace Sys2Proof.Machine

/-! ### Discarded answers -/

/-- A good frame makes an ACTIVE lane's error count 0 and does nothing else (R176). -/
theorem goodFrame_begin (s : State) (l : LaneId) :
    goodFrame s.begin l = { s with
      out := []
      lanes := if (s.lane l).state = .active then s.lanes.set l { s.lane l with errors := 0 } else s.lanes } := by
  by_cases hl : (s.lane l).state = .active
  · rw [if_pos hl]; exact if_pos hl
  · rw [if_neg hl]; exact if_neg hl

/-- Which order an answer ends does not hang on the lane's error count. -/
theorem answeredOrder_goodFrame (s : State) (l : LaneId) (tag : Byte) :
    answeredOrder (goodFrame s.begin l) l tag = answeredOrder s l tag := by
  have hstate : ((goodFrame s.begin l).lane l).state = (s.lane l).state := by
    unfold goodFrame
    split
    · rw [State.lane_modLane_self]; rfl
    · rfl
  unfold answeredOrder
  rw [hstate, goodFrame_begin]
  rfl

/-- An answer that ends no order is discarded: a DONE and a REJECT only count as good frames (R26, R171). -/
theorem onlyCountsGood_of_unanswered {s : State} {l : LaneId} {tag : Byte} (h : answeredOrder s l tag = none)
    (reason : Byte) : OnlyCountsGood (.done l tag) s l ∧ OnlyCountsGood (.reject l tag reason) s l := by
  have hgood : answeredOrder (goodFrame s.begin l) l tag = none := (answeredOrder_goodFrame s l tag).trans h
  unfold OnlyCountsGood
  rw [← goodFrame_begin]
  constructor
  · show execDone l tag s = _
    simp only [execDone, hgood]
  · show execReject l tag reason s = _
    simp only [execReject, hgood]

/-- An answer ends no order on a lane that is not ACTIVE, on a lane without a card, and with a tag other than that of
the card's pending order (R26, R171). -/
theorem answeredOrder_none {s : State} {l : LaneId} {tag : Byte}
    (h : (s.lane l).state ≠ .active ∨ s.cardOnLane l = none ∨
      ∃ c, s.cardOnLane l = some c ∧ ∀ p, (s.card c).pending = some p → p.tag ≠ tag) :
    answeredOrder s l tag = none := by
  unfold answeredOrder
  rcases h with hlane | hcard | ⟨c, hcard, htag⟩
  · rw [if_neg hlane]
  · simp only [hcard, ite_self]
  · simp only [hcard]
    split
    · split
      · next p hp => exact if_neg (htag p hp)
      · rfl
    · rfl

/-! ### The late answer -/

/-- The part of an expiry that makes a recovery open pending: the order has ended, its crosspoints are UNKNOWN, and the
open of exactly these has been sent (R25). -/
def recoverySent (s : State) (c : CardId) (o : Order) : State :=
  sendOrder ((endPending s c).modXps o.bus o.points (fun r => { r with state := .unknown, mark := false })) c
    ⟨.recovery, o.bus, o.points, false⟩

/-- Where the order was no recovery open itself, its request is told after that, and no lane is asked for RECOVER
(R25). -/
theorem orderTimedOut_eq (s : State) (c : CardId) {o : Order} (hkind : o.kind ≠ .recovery) :
    orderTimedOut s c o =
      (handleAwaited (tellRequest (recoverySent s c o) o (some .orderFail)) o.bus o.points, false) := by
  unfold orderTimedOut
  cases hk : o.kind with
  | recovery => exact absurd hk hkind
  | _ => rfl

/-- The recovery open takes the card's next tag (R21, R25). -/
theorem recoverySent_pending (s : State) (c : CardId) (o : Order) :
    ((recoverySent s c o).card c).pending = some ⟨(s.card c).nextTag, ⟨.recovery, o.bus, o.points, false⟩⟩ := by
  have hended : ((endPending s c).modXps o.bus o.points
      (fun r => { r with state := .unknown, mark := false })).card c = { s.card c with pending := none } := by
    rw [State.card, State.modXps_cards]
    exact State.card_setCard_self s c _
  unfold recoverySent
  rw [State.card, sendOrder_cards, ← State.card, State.card_setCard_self, hended]

/-- A tag is not the one before it, at the wrap from 255 to 0 either (R21). -/
theorem tag_add_one_ne (tag : Byte) : tag + 1 ≠ tag := by bv_omega

/-- The recovery open is pending after the whole of the expiry (R25). -/
theorem orderTimedOut_pending (s : State) (c : CardId) {o : Order} (hkind : o.kind ≠ .recovery) :
    ((orderTimedOut s c o).1.card c).pending = some ⟨(s.card c).nextTag, ⟨.recovery, o.bus, o.points, false⟩⟩ := by
  rw [orderTimedOut_eq s c hkind]
  have hstays : OrdersStay (recoverySent s c o).matrix.cards
      (handleAwaited (tellRequest (recoverySent s c o) o (some .orderFail)) o.bus o.points).matrix.cards :=
    handleAwaited_stays _ _ (by rw [tellRequest_matrix]; exact .refl _)
  exact hstays.pending (recoverySent_pending s c o) rfl

/-- An expiry writes no table. -/
theorem orderTimedOut_tables (s : State) (c : CardId) {o : Order} (hkind : o.kind ≠ .recovery) :
    (orderTimedOut s c o).1.tables = s.tables := by
  rw [orderTimedOut_eq s c hkind]
  have hended : Keeps (fun _ => False) s
      ((endPending s c).modXps o.bus o.points (fun r => { r with state := .unknown, mark := false })) :=
    .modXps _ _ _ (fun _ => rfl) (.endPending c (.refl s))
  have hsent : Keeps (fun _ => False) s (recoverySent s c o) :=
    hended.sendOrder c _ (fun _ _ _ hmake => by cases hmake)
  exact ((hsent.tellRequest o _).handleAwaited _ _).tables

/-- After the expiry of an order's timer the command ends with the recovery open pending under the next tag: nothing that
follows from the expiry ends it (R25, R26). -/
theorem exec_orderTimeout_pending {s : State} {c : CardId} {tag : Byte} {o : Order}
    (hp : (s.card c).pending = some ⟨tag, o⟩) (hkind : o.kind ≠ .recovery) (htags : TagsFollow s) :
    ∃ t, exec (.orderTimeout c) s = .next t ∧
      (t.card c).pending = some ⟨tag + 1, ⟨.recovery, o.bus, o.points, false⟩⟩ ∧ t.tables = s.tables := by
  have hexec : exec (.orderTimeout c) s = .next (finish (orderTimedOut s.begin c o).1) := by
    have hp' : (s.begin.card c).pending = some ⟨tag, o⟩ := hp
    show execOrderTimeout c s = _
    simp only [execOrderTimeout, hp', orderTimedOut_eq s.begin c hkind]
    rfl
  have hpending : ((orderTimedOut s.begin c o).1.card c).pending =
      some ⟨tag + 1, ⟨.recovery, o.bus, o.points, false⟩⟩ := by
    rw [htags c _ hp]
    exact orderTimedOut_pending s.begin c hkind
  exact ⟨_, hexec, (finish_stays _).pending hpending rfl,
    (finish_leaves _).1.trans (orderTimedOut_tables s.begin c hkind)⟩

end Sys2Proof.Machine

open Sys2Proof Sys2Proof.Machine

/-- Settles O37: the three cases of R26 and the lane of R171 leave no order to end, and after a timeout the recovery open
is pending with another tag, which makes the late answer one of them. -/
theorem unmatchedAnswersAreDiscarded : Obligations.UnmatchedAnswersAreDiscarded := by
  unfold Obligations.UnmatchedAnswersAreDiscarded
  intro s l tag reason
  refine ⟨fun h => onlyCountsGood_of_unanswered (answeredOrder_none h) reason, fun c o hcard hp hkind htags => ?_⟩
  obtain ⟨t, hexec, hpending, htables⟩ := exec_orderTimeout_pending hp hkind htags
  have hcard' : t.cardOnLane l = some c := by
    simpa only [State.cardOnLane, State.cardEntry, htables] using hcard
  have hlate : answeredOrder t l tag = none := by
    refine answeredOrder_none (.inr (.inr ⟨c, hcard', fun p hp' => ?_⟩))
    cases hpending.symm.trans hp'
    exact tag_add_one_ne tag
  exact ⟨t, hexec, hpending, onlyCountsGood_of_unanswered hlate reason⟩

end

