-- ==== Sys2Proof/Proofs/Rounding.lean ====
section
/-!
SUPPORT. Division to the nearest integer, ties away from zero: what the second stage of a sample (R113) and the average
of a take (R117) have in common. Both are `nearest`, and the facts about rounding are proved of it once.
-/

namespace Sys2Proof.Machine

/-- The quotient `p / k` to nearest, ties away from zero: the formula of R117, and that of R113 with `k` a power of 2. -/
def nearest (p : Int) (k : Nat) : Int := withSign p ((2 * p.natAbs + k) / (2 * k))

/-! ### The sign -/

@[simp] theorem withSign_natAbs (p : Int) (m : Nat) : (withSign p m).natAbs = m := by
  unfold withSign
  split <;> omega

theorem withSign_of_nonneg {p : Int} (m : Nat) (h : 0 ≤ p) : withSign p m = m := if_neg (by omega)

theorem withSign_of_nonpos {p : Int} {m : Nat} (h : p ≤ 0) (hzero : p = 0 → m = 0) : withSign p m = -m := by
  unfold withSign
  split <;> omega

/-! ### The model's two divisions -/

theorem average_eq_nearest (acc : List Sample) : average acc = nearest (sampleSum acc) acc.length := rfl

/-- The added half of R113 is the added `k` of R117, both terms halved. -/
theorem half_quotient (a n : Nat) : (2 * a + 2 ^ (n + 1)) / (2 * 2 ^ (n + 1)) = (a + 2 ^ n) / 2 ^ (n + 1) := by
  have hhalf : 2 * a + 2 ^ (n + 1) = 2 * (a + 2 ^ n) := by ring
  rw [hhalf, Nat.mul_div_mul_left _ _ Nat.two_pos]

theorem shiftRound_zero (p : Int) : shiftRound p 0 = p := if_pos rfl

theorem shiftRound_succ (p : Int) (n : Nat) :
    shiftRound p (n + 1) = withSign p ((p.natAbs + 2 ^ n) / 2 ^ (n + 1)) := if_neg n.succ_ne_zero

/-! ### Magnitude and sign of the quotient -/

theorem nearest_natAbs (p : Int) (k : Nat) : (nearest p k).natAbs = (2 * p.natAbs + k) / (2 * k) := withSign_natAbs _ _

/-- Less than half rounds to 0. -/
theorem nearest_eq_zero {p : Int} {k : Nat} (h : 2 * p.natAbs < k) : nearest p k = 0 := by
  rw [← Int.natAbs_eq_zero, nearest_natAbs, Nat.div_eq_of_lt (by omega)]

theorem nearest_of_nonneg {p : Int} (k : Nat) (h : 0 ≤ p) : nearest p k = ((2 * p.natAbs + k) / (2 * k) : Nat) :=
  withSign_of_nonneg _ h

theorem nearest_of_nonpos {p : Int} {k : Nat} (hk : 0 < k) (h : p ≤ 0) :
    nearest p k = -((2 * p.natAbs + k) / (2 * k) : Nat) := by
  refine withSign_of_nonpos h (fun hp => Nat.div_eq_of_lt ?_)
  rw [hp]
  omega

/-- A number and its negation round to opposite values. -/
theorem nearest_neg (p : Int) {k : Nat} (hk : 0 < k) : nearest (-p) k = -nearest p k := by
  rcases le_total 0 p with hp | hp
  · rw [nearest_of_nonneg k hp, nearest_of_nonpos hk (by omega), Int.natAbs_neg]
  · rw [nearest_of_nonpos hk hp, nearest_of_nonneg k (by omega), Int.natAbs_neg, neg_neg]

theorem nearest_nonneg {p : Int} (k : Nat) (h : 0 ≤ p) : 0 ≤ nearest p k := by
  rw [nearest_of_nonneg k h]
  exact Int.natCast_nonneg _

theorem nearest_nonpos {p : Int} {k : Nat} (hk : 0 < k) (h : p ≤ 0) : nearest p k ≤ 0 := by
  rw [nearest_of_nonpos hk h]
  exact neg_nonpos.mpr (Int.natCast_nonneg _)

/-! ### The rounding error -/

/-- What the dropped remainder leaves: the magnitude is within half of the exact one, and a tie goes up. -/
theorem nearest_natAbs_mul (p : Int) {k : Nat} (hk : 0 < k) :
    2 * ((nearest p k).natAbs * k) ≤ 2 * p.natAbs + k ∧ 2 * p.natAbs < 2 * ((nearest p k).natAbs * k) + k := by
  rw [nearest_natAbs]
  have hlow := Nat.div_mul_le_self (2 * p.natAbs + k) (2 * k)
  have hhigh := Nat.lt_div_mul_add (a := 2 * p.natAbs + k) (b := 2 * k) (by omega)
  rw [Nat.mul_left_comm] at hlow hhigh
  omega

/-- The error has the same magnitude as that between the magnitudes, since the signs agree. -/
theorem nearest_error_natAbs (p : Int) {k : Nat} (hk : 0 < k) :
    (2 * (nearest p k * k - p)).natAbs = (2 * ((nearest p k).natAbs * k : Nat) - 2 * p.natAbs : Int).natAbs := by
  rcases le_total 0 p with hp | hp
  · have hmul : nearest p k * k = ((nearest p k).natAbs * k : Nat) := by
      rw [Nat.cast_mul, Int.natAbs_of_nonneg (nearest_nonneg k hp)]
    omega
  · have hmul : nearest p k * k = -((nearest p k).natAbs * k : Nat) := by
      rw [Nat.cast_mul, Int.ofNat_natAbs_of_nonpos (nearest_nonpos hk hp), neg_mul, neg_neg]
    omega

/-- The quotient is the nearest integer. -/
theorem nearest_error_le (p : Int) {k : Nat} (hk : 0 < k) : (2 * (nearest p k * k - p)).natAbs ≤ k := by
  obtain ⟨hlow, hhigh⟩ := nearest_natAbs_mul p hk
  rw [nearest_error_natAbs p hk]
  omega

/-- A quotient halfway between two integers goes to the one of larger magnitude. -/
theorem nearest_tie_away {p : Int} {k : Nat} (hk : 0 < k) (h : (2 * (nearest p k * k - p)).natAbs = k) :
    p.natAbs < (nearest p k).natAbs * k := by
  obtain ⟨hlow, hhigh⟩ := nearest_natAbs_mul p hk
  rw [nearest_error_natAbs p hk] at h
  omega

/-- Rounding to nearest passes no integer bound of the exact quotient. -/
theorem nearest_mem_bounds {p lo hi : Int} {k : Nat} (hk : 0 < k) (hlo : lo * k ≤ p) (hhi : p ≤ hi * k) :
    lo ≤ nearest p k ∧ nearest p k ≤ hi := by
  have herror := nearest_error_le p hk
  constructor
  · by_contra! hlt
    have hstep : (nearest p k + 1) * k ≤ lo * k := Int.mul_le_mul_of_nonneg_right hlt (by omega)
    rw [add_one_mul] at hstep
    omega
  · by_contra! hlt
    have hstep : (hi + 1) * k ≤ nearest p k * k := Int.mul_le_mul_of_nonneg_right hlt (by omega)
    rw [add_one_mul] at hstep
    omega

theorem nearest_one (p : Int) : nearest p 1 = p := by
  have herror := nearest_error_le p Nat.one_pos
  omega

/-- The second stage of a sample divides by a power of 2 (R113). -/
theorem shiftRound_eq_nearest (p : Int) (n : Nat) : shiftRound p n = nearest p (2 ^ n) := by
  cases n with
  | zero => rw [shiftRound_zero, pow_zero, nearest_one]
  | succ n => rw [shiftRound_succ, nearest, half_quotient]

end Sys2Proof.Machine
end

