-- ==== Sys2Proof/Proofs/Samples.lean ====
section
/-! O51: the stages of a sample, the overload override and the settling discard (R108, R112 to R115). -/

namespace Sys2Proof.Machine

/-! ### The product -/

theorem raw_range (raw : BitVec 24) : -8388608 ≤ raw.toInt ∧ raw.toInt ≤ 8388607 := by
  have hlow := BitVec.le_toInt raw
  have hhigh := BitVec.toInt_lt (x := raw)
  omega

theorem gain_range (gain : BitVec 16) : -32768 ≤ gain.toInt ∧ gain.toInt ≤ 32767 := by
  have hlow := BitVec.le_toInt gain
  have hhigh := BitVec.toInt_lt (x := gain)
  omega

/-- The bound of R112: 2 to the power 38. -/
theorem product_natAbs_le (raw : BitVec 24) (gain : BitVec 16) :
    (raw.toInt * gain.toInt).natAbs ≤ 274877906944 := by
  have hraw := raw_range raw
  have hgain := gain_range gain
  calc (raw.toInt * gain.toInt).natAbs = raw.toInt.natAbs * gain.toInt.natAbs := Int.natAbs_mul _ _
    _ ≤ 8388608 * 32768 := Nat.mul_le_mul (by omega) (by omega)

/-- Only the lowest raw value with the lowest gain reaches the bound (R112): a smaller magnitude of either factor gives
a smaller product. -/
theorem product_natAbs_eq_iff (raw : BitVec 24) (gain : BitVec 16) :
    (raw.toInt * gain.toInt).natAbs = 274877906944 ↔ raw.toInt = -8388608 ∧ gain.toInt = -32768 := by
  have hraw := raw_range raw
  have hgain := gain_range gain
  constructor
  · intro h
    rw [Int.natAbs_mul] at h
    have hrawTop : 8388608 ≤ raw.toInt.natAbs := by
      by_contra! hlt
      have hless : raw.toInt.natAbs * gain.toInt.natAbs ≤ 8388607 * 32768 := Nat.mul_le_mul (by omega) (by omega)
      omega
    have hgainTop : 32768 ≤ gain.toInt.natAbs := by
      by_contra! hlt
      have hless : raw.toInt.natAbs * gain.toInt.natAbs ≤ 8388608 * 32767 := Nat.mul_le_mul (by omega) (by omega)
      omega
    omega
  · rintro ⟨h, h'⟩
    rw [h, h']
    rfl

/-- The largest product of a positive raw value (R112). -/
theorem product_le_of_pos {raw : BitVec 24} (gain : BitVec 16) (h : 0 < raw.toInt) :
    raw.toInt * gain.toInt ≤ 8388607 * 32767 :=
  calc raw.toInt * gain.toInt ≤ raw.toInt * 32767 := Int.mul_le_mul_of_nonneg_left (gain_range gain).2 h.le
    _ ≤ 8388607 * 32767 := Int.mul_le_mul_of_nonneg_right (raw_range raw).2 (by decide)

/-! ### The clamp and the override -/

/-- The clamp takes the nearest value of the result range, and marks exactly the sums outside it (R114). -/
theorem clamp_eq (v : Int) :
    clamp v = (max (-2147483648) (min 2147483647 v), decide (v < -2147483648 ∨ 2147483647 < v)) := by
  unfold clamp maxResult minResult
  split
  · next hhigh => rw [decide_eq_true (.inr hhigh), min_eq_left hhigh.le]; rfl
  · split
    · next hhigh hlow => rw [decide_eq_true (.inl hlow), max_eq_left (by omega)]
    · next hhigh hlow => rw [decide_eq_false (by omega), min_eq_right (by omega), max_eq_right (by omega)]

theorem sampleOf_measured (e : ScaleEntry) (raw : Int) :
    sampleOf e raw false = clamp (shiftRound (raw * e.gain.toInt) e.shift.val + e.offset.toInt) := rfl

theorem sampleOf_overload (e : ScaleEntry) (raw : Int) :
    sampleOf e raw true = (if 0 ≤ raw then 2147483647 else -2147483648, true) := rfl

/-! ### The settling discards -/

/-- A reading below the counted indices is not used, whatever the bus is doing (R75, R108). -/
theorem readingUse_of_settling {c : Ctx} {stag : Half} {sel : Selection} {n : Net} {lim : Fin 256} {k d timeout : Nat}
    {hold : Bool} (hstep : c.step = some ⟨stag, .measure sel n lim k d timeout hold⟩) (takeTag : Byte) {index : Nat}
    (h : index < d) : readingUse c takeTag index = .discarded := by
  unfold readingUse
  rw [hstep]
  cases c.captured with
  | none => rfl
  | some cap => exact if_neg fun hcounted => absurd hcounted.2.2.1 (by omega)

/-- A reading that its bus does not use only counts as a good frame (R75, R176). -/
theorem onlyCountsGood_of_discarded {s : State} {l : LaneId} {ch takeTag index : Byte} {x : Bus}
    (hbus : readingBus s l ch = some x) (h : readingUse (s.ctx x) takeTag index.toNat = .discarded)
    (range : Byte) (raw : BitVec 24) : OnlyCountsGood (.reading l ch takeTag index range raw) s l := by
  have hbus' : readingBus (goodFrame s.begin l) l ch = some x := by
    rw [goodFrame_begin]
    exact hbus
  have huse : readingUse ((goodFrame s.begin l).ctx x) takeTag index.toNat = .discarded := by
    rw [goodFrame_begin]
    exact h
  unfold OnlyCountsGood
  rw [← goodFrame_begin]
  show execReading l ch takeTag index range raw s = _
  simp only [execReading, hbus', huse, ite_self]

end Sys2Proof.Machine

open Sys2Proof Sys2Proof.Machine

/-- Settles O51: the product by the ranges of its factors, the quotient as a division to nearest, the one clamp, and the
settling discard. -/
theorem samplesFollowTheStages : Obligations.SamplesFollowTheStages := by
  unfold Obligations.SamplesFollowTheStages
  refine ⟨fun e raw => ?_, fun p n => ?_, by decide, by decide, by decide, ?_⟩
  · exact ⟨product_natAbs_le raw e.gain, product_natAbs_eq_iff raw e.gain, product_le_of_pos e.gain,
      (sampleOf_measured e raw.toInt).trans (clamp_eq _), sampleOf_overload e raw.toInt⟩
  · have hpow : 0 < 2 ^ n := Nat.two_pow_pos n
    have hmagnitude : 1 ≤ n → (shiftRound p n).natAbs = (p.natAbs + 2 ^ (n - 1)) / 2 ^ n := by
      intro hn
      obtain ⟨m, rfl⟩ := Nat.exists_eq_add_of_le' hn
      rw [shiftRound_succ, withSign_natAbs, Nat.add_sub_cancel]
    have herror := nearest_error_le p hpow
    have htie := nearest_tie_away (p := p) hpow
    push_cast at herror htie
    refine ⟨shiftRound_zero p, ?_, hmagnitude, ?_⟩
    · rw [shiftRound_eq_nearest, shiftRound_eq_nearest, nearest_neg p hpow]
    · rw [shiftRound_eq_nearest]
      exact ⟨nearest_nonneg _, nearest_nonpos hpow, herror, fun _ => htie, nearest_eq_zero⟩
  · intro s l ch tt idx range raw x stag sel n lim k d timeout hold hbus hstep hidx
    exact onlyCountsGood_of_discarded hbus (readingUse_of_settling hstep tt hidx) range raw

end

