-- ==== Sys2Proof/Proofs/Averages.lean ====
section
/-! O52: the average of a take, its unit and its flags (R117 to R121). -/

namespace Sys2Proof.Machine

/-! ### The sum and the average -/

/-- The sum lies between K times the smallest and K times the largest sample. -/
theorem sampleSum_mem_bounds {acc : List Sample} {lo hi : Int} (h : ∀ m ∈ acc, lo ≤ m.value ∧ m.value ≤ hi) :
    lo * acc.length ≤ sampleSum acc ∧ sampleSum acc ≤ hi * acc.length := by
  have hlow := List.card_nsmul_le_sum (acc.map (·.value)) lo (List.forall_mem_map.mpr fun m hm => (h m hm).1)
  have hhigh := List.sum_le_card_nsmul (acc.map (·.value)) hi (List.forall_mem_map.mpr fun m hm => (h m hm).2)
  rw [List.length_map, nsmul_eq_mul, mul_comm] at hlow hhigh
  exact ⟨hlow, hhigh⟩

/-- The average needs no clamp of its own (R117). -/
theorem average_mem_bounds {acc : List Sample} (hne : acc ≠ []) {lo hi : Int}
    (h : ∀ m ∈ acc, lo ≤ m.value ∧ m.value ≤ hi) : lo ≤ average acc ∧ average acc ≤ hi :=
  nearest_mem_bounds (List.length_pos_of_ne_nil hne) (sampleSum_mem_bounds h).1 (sampleSum_mem_bounds h).2

theorem average_singleton (m : Sample) : average [m] = m.value := by
  rw [average_eq_nearest, sampleSum, List.map_singleton, List.sum_singleton]
  exact nearest_one m.value

/-- The order of arrival plays no part (R117). -/
theorem average_perm {acc other : List Sample} (h : other.Perm acc) : average other = average acc := by
  have hsum : sampleSum other = sampleSum acc := (h.map Sample.value).sum_eq
  rw [average_eq_nearest, average_eq_nearest, hsum, h.length_eq]

/-- Where the mean lies halfway, the average is of the larger magnitude; that needs an even K (R117). -/
theorem average_tie {acc : List Sample} (hne : acc ≠ [])
    (h : (2 * (average acc * acc.length - sampleSum acc)).natAbs = acc.length) :
    (sampleSum acc).natAbs < (average acc).natAbs * acc.length ∧ acc.length % 2 = 0 :=
  ⟨nearest_tie_away (List.length_pos_of_ne_nil hne) h, by omega⟩

/-! ### The flags and the unit -/

/-- Z and N speak of the average, V of the marks, W of the captured answer; S is clear (R119 to R122). -/
theorem flagsOf_iff (avg : Int) (acc : List Sample) (worn : Bool) :
    ¬ ((flagsOf avg acc worn).z = true ∧ (flagsOf avg acc worn).n = true) ∧
      ((flagsOf avg acc worn).z = true ↔ avg = 0) ∧ ((flagsOf avg acc worn).n = true ↔ avg < 0) ∧
      ((flagsOf avg acc worn).v = true ↔ ∃ m ∈ acc, m.v = true) ∧
      (flagsOf avg acc worn).w = worn ∧ (flagsOf avg acc worn).s = false := by
  have hz : (flagsOf avg acc worn).z = true ↔ avg = 0 := beq_iff_eq
  have hn : (flagsOf avg acc worn).n = true ↔ avg < 0 := decide_eq_true_iff
  refine ⟨?_, hz, hn, List.any_eq_true, rfl, rfl⟩
  rw [hz, hn]
  omega

/-- The unit is that of the one sample kept under index D (R118). -/
theorem unitOf_eq {acc : List Sample} {d : Nat} {m : Sample} (hm : m ∈ acc) (hd : m.index = d)
    (hone : ∀ o ∈ acc, o.index = d → o = m) : unitOf acc d = m.unit := by
  unfold unitOf
  split
  · next o ho =>
    have hindex : o.index = d := by simpa using List.find?_some ho
    rw [hone o (List.mem_of_find?_eq_some ho) hindex]
  · next hnone => exact absurd (beq_iff_eq.mpr hd) (List.find?_eq_none.mp hnone m hm)

end Sys2Proof.Machine

open Sys2Proof Sys2Proof.Machine

/-- Settles O52: the average is the division to nearest of the sum by K, so its facts are those of `nearest`; one third
in the worked example of R119 is less than half. -/
theorem averagesRoundToTheNearest : Obligations.AveragesRoundToTheNearest := by
  unfold Obligations.AveragesRoundToTheNearest
  refine ⟨fun acc hne => ?_, fun i j k a b c => ?_, fun acc d m => unitOf_eq⟩
  · have hlen : 0 < acc.length := List.length_pos_of_ne_nil hne
    refine ⟨nearest_natAbs _ _, nearest_nonneg _, nearest_nonpos hlen, nearest_error_le _ hlen, average_tie hne, ?_,
      fun lo hi => average_mem_bounds hne, fun other => average_perm, flagsOf_iff (average acc) acc⟩
    rintro m rfl
    exact average_singleton m
  · exact nearest_eq_zero (p := -1) (k := 3) (by decide)

end

