-- ==== Sys2Proof/Proofs/Verdicts.lean ====
section
/-! O53: the verdict of a value (R125 to R128), and what a verdict does to the record of its site (R133, R134). -/

namespace Sys2Proof.Machine

/-! ### The verdict in each mode -/

section
variable {e : LimitEntry} {v : Int}

/-- Mode RECORD judges nothing (R127). -/
theorem verdictOf_record (h : e.mode = .record) (flag : Bool) : verdictOf e v flag = .pass := by simp [verdictOf, h]

/-- A value with V set fails by its sign, whatever the bounds (R128). -/
theorem verdictOf_overload (h : e.mode ≠ .record) : verdictOf e v true = if 0 ≤ v then .failHigh else .failLow := by
  simp [verdictOf, h]

theorem verdictOf_lowOnly (h : e.mode = .lowOnly) : verdictOf e v false =
    if v < e.low.toInt then .failLow else if v < e.low.toInt + e.guardBand then .marginal else .pass := by
  simp [verdictOf, h]

theorem verdictOf_highOnly (h : e.mode = .highOnly) : verdictOf e v false =
    if e.high.toInt < v then .failHigh else if e.high.toInt - e.guardBand < v then .marginal else .pass := by
  simp [verdictOf, h]

theorem verdictOf_both (h : e.mode = .both) : verdictOf e v false =
    if v < e.low.toInt then .failLow else if e.high.toInt < v then .failHigh
    else if v < e.low.toInt + e.guardBand ∨ e.high.toInt - e.guardBand < v then .marginal else .pass := by
  simp [verdictOf, h]

/-- No value between the bounds, either bound included, fails (R125): the guard bands alone decide. -/
theorem verdictOf_both_within (h : e.mode = .both) (hlow : e.low.toInt ≤ v) (hhigh : v ≤ e.high.toInt) :
    verdictOf e v false =
      if v < e.low.toInt + e.guardBand ∨ e.high.toInt - e.guardBand < v then .marginal else .pass := by
  rw [verdictOf_both h, if_neg hlow.not_gt, if_neg hhigh.not_gt]

theorem verdictOf_both_marginal (h : e.mode = .both) (hlow : e.low.toInt ≤ v) (hhigh : v ≤ e.high.toInt)
    (hband : v < e.low.toInt + e.guardBand ∨ e.high.toInt - e.guardBand < v) : verdictOf e v false = .marginal := by
  rw [verdictOf_both_within h hlow hhigh, if_pos hband]

theorem verdictOf_both_pass (h : e.mode = .both) (hlow : e.low.toInt + e.guardBand ≤ v)
    (hhigh : v ≤ e.high.toInt - e.guardBand) : verdictOf e v false = .pass := by
  rw [verdictOf_both_within h (by omega) (by omega), if_neg (by omega)]

end

/-! ### The more severe state -/

/-- No two site states are equally severe (R133). -/
theorem SiteState.severity_injective : Function.Injective SiteState.severity := by
  intro a b
  cases a <;> cases b <;> decide

theorem SiteState.worse_eq_or (a b : SiteState) : a.worse b = a ∨ a.worse b = b := by
  unfold SiteState.worse
  split
  · exact .inr rfl
  · exact .inl rfl

theorem SiteState.severity_worse (a b : SiteState) : (a.worse b).severity = max a.severity b.severity := by
  unfold SiteState.worse
  split
  · next h => exact (max_eq_right h.le).symm
  · next h => exact (max_eq_left (not_lt.mp h)).symm

theorem SiteState.worse_right_comm (a b c : SiteState) : (a.worse b).worse c = (a.worse c).worse b := by
  apply SiteState.severity_injective
  simp only [SiteState.severity_worse]
  exact max_right_comm _ _ _

/-! ### The record after a judgement, field by field -/

section
variable (r : SiteVerdict) (v w : Verdict) (d e : DispEntry)

@[simp] theorem SiteVerdict.judge_state : (r.judge v d).state = r.state.worse v.siteState := rfl

@[simp] theorem SiteVerdict.judge_judged : (r.judge v d).judged = min (r.judged + 1) 65535 := rfl

@[simp] theorem SiteVerdict.judge_firstBin :
    (r.judge v d).firstBin = if r.firstBin = 0 then d.bin else r.firstBin := rfl

@[simp] theorem SiteVerdict.judge_skip : (r.judge v d).skip = (r.skip || d.action == .skipSite) := rfl

theorem SiteVerdict.judge_fails :
    (r.judge v d).fails = if v = .failLow ∨ v = .failHigh then min (r.fails + 1) 65535 else r.fails := by
  simp [SiteVerdict.judge]

variable {r v w d e}

theorem SiteVerdict.judge_fails_of_fail (h : v = .failLow ∨ v = .failHigh) :
    (r.judge v d).fails = min (r.fails + 1) 65535 := by
  rw [SiteVerdict.judge_fails, if_pos h]

theorem SiteVerdict.judge_fails_of_not_fail (h : v = .pass ∨ v = .marginal ∨ v = .invalid) :
    (r.judge v d).fails = r.fails := by
  rw [SiteVerdict.judge_fails, if_neg]
  obtain rfl | rfl | rfl := h <;> decide

theorem SiteVerdict.judge_skip_iff : (r.judge v d).skip = true ↔ r.skip = true ∨ d.action = .skipSite := by
  simp

/-! ### Two judgements in either order -/

theorem SiteVerdict.judge_fails_right_comm :
    ((r.judge v d).judge w e).fails = ((r.judge w e).judge v d).fails := by
  simp only [SiteVerdict.judge_fails]
  split <;> split <;> rfl

theorem SiteVerdict.judge_skip_right_comm : ((r.judge v d).judge w e).skip = ((r.judge w e).judge v d).skip := by
  simp only [SiteVerdict.judge_skip]
  exact Bool.or_right_comm _ _ _

/-- The order of two judgements shows in the first bin alone (R134). -/
theorem SiteVerdict.judge_right_comm : (r.judge v d).judge w e =
    { (r.judge w e).judge v d with firstBin := ((r.judge v d).judge w e).firstBin } :=
  SiteVerdict.mk.injEq .. |>.mpr
    ⟨SiteState.worse_right_comm _ _ _, rfl, rfl, judge_fails_right_comm, judge_skip_right_comm⟩

/-- The first judgement's bin stands where it is not 0 (R134). -/
theorem SiteVerdict.judge_judge_firstBin_of_ne (hr : r.firstBin = 0) (hd : d.bin ≠ 0) :
    ((r.judge v d).judge w e).firstBin = d.bin := by
  simp [hr, hd]

theorem SiteVerdict.judge_judge_firstBin_of_eq (hr : r.firstBin = 0) (hd : d.bin = 0) :
    ((r.judge v d).judge w e).firstBin = e.bin := by
  simp [hr, hd]

end

end Sys2Proof.Machine

open Sys2Proof Sys2Proof.Machine

/-- Settles O53: each mode's cases in the order of R125 to R128, a judgement field by field, and two judgements, whose
states agree because no two are equally severe. -/
theorem valuesAreJudgedByTheirLimits : Obligations.ValuesAreJudgedByTheirLimits := by
  unfold Obligations.ValuesAreJudgedByTheirLimits
  refine ⟨fun e v => ⟨fun h => ?both, fun h => ?lowOnly, fun h => ?highOnly, verdictOf_record, fun h => ?overload⟩,
    by decide, rfl, rfl, rfl, rfl, rfl, fun r v d => ?record, fun r v w d e =>
      ⟨SiteVerdict.judge_right_comm, SiteVerdict.judge_judge_firstBin_of_ne,
        SiteVerdict.judge_judge_firstBin_of_eq⟩⟩
  case both =>
    refine ⟨fun hlow => ?_, fun hlow hhigh => ?_, fun hlow hhigh => ?within⟩
    · rw [verdictOf_both h, if_pos hlow]
    · rw [verdictOf_both h, if_neg hlow.not_gt, if_pos hhigh]
    case within =>
      have marginal := verdictOf_both_marginal h hlow hhigh
      exact ⟨marginal, verdictOf_both_pass h, fun hzero => verdictOf_both_pass h (by omega) (by omega),
        fun hpos hbound => marginal (by omega), fun hoverlap => marginal (by omega)⟩
  case lowOnly =>
    rw [verdictOf_lowOnly h]
    refine ⟨fun hlow => if_pos hlow, fun hlow hband => ?_, fun hband => ?_⟩
    · rw [if_neg hlow.not_gt, if_pos hband]
    · rw [if_neg (by omega), if_neg hband.not_gt]
  case highOnly =>
    rw [verdictOf_highOnly h]
    refine ⟨fun hhigh => if_pos hhigh, fun hhigh hband => ?_, fun hband => ?_⟩
    · rw [if_neg hhigh.not_gt, if_pos hband]
    · rw [if_neg (by omega), if_neg hband.not_gt]
  case overload =>
    rw [verdictOf_overload h]
    exact ⟨fun hv => if_pos hv, fun hv => if_neg hv.not_ge⟩
  case record =>
    rw [SiteVerdict.judge_state, SiteVerdict.judge_judged, SiteVerdict.judge_firstBin]
    exact ⟨SiteState.severity_worse _ _, SiteState.worse_eq_or _ _, fun hjudged => by omega, fun hjudged => by omega,
      fun hfail => by rw [SiteVerdict.judge_fails_of_fail hfail]; omega, SiteVerdict.judge_fails_of_not_fail,
      fun hbin => if_pos hbin, fun hbin => if_neg hbin, SiteVerdict.judge_skip_iff⟩

end

