-- ==== Sys2Proof/Proofs/Machine.lean ====
section
/-!
PROOFS. The step, the values after power reset, and the events that change nothing or one thing: O1, O3, O4, O6, O46, O57.
-/

namespace Sys2Proof.Machine

/-! ### Power reset -/

/-- Each kind of record stands at its power-reset value at every place of its table. -/
theorem State.reset_ctx (x : Bus) : State.reset.ctx x = Ctx.initial := by
  simp [State.ctx, State.reset, State.initial]

theorem State.reset_card (c : CardId) : State.reset.card c =
    { nextTag := 0#8, pending := none, priority := [], ordinary := [], rejectReason := none } := by
  simp [State.card, State.reset, State.initial, Matrix.initial]

theorem State.reset_xp (x : Bus) (p : Pt) : State.reset.xp x p = XRec.initial := rfl

theorem State.reset_lane (l : LaneId) : State.reset.lane l = Lane.initial := by
  simp [State.lane, State.reset, State.initial]

theorem State.reset_busEntry (x : Bus) : State.reset.busEntry x = ⟨false, .measure, 0, 0, 0, .off⟩ := by
  simp [State.busEntry, State.reset, State.initial, Tables.initial]

theorem State.reset_siteEntry (u : Site) : State.reset.siteEntry u = ⟨false, 0, 0, 0⟩ := by
  simp [State.siteEntry, State.reset, State.initial, Tables.initial]

theorem State.reset_cardEntry (c : CardId) : State.reset.cardEntry c = ⟨none, 0⟩ := by
  simp [State.cardEntry, State.reset, State.initial, Tables.initial]

/-- After power reset no crosspoint is claimed. -/
theorem State.reset_claimed (x : Bus) (p : Pt) : State.reset.claimed x p = false := rfl

/-- The law of R19 after power reset: nothing is claimed, ordered, targeted or requested. -/
theorem State.reset_claimsLawful : ClaimsLawful State.reset := by
  refine ⟨fun p x y hx => ?_, fun c q hq => ?_, fun c _ => ⟨?_, fun x p _ => ?_⟩, fun c o ho => ?_, fun x tg ht => ?_,
    fun x r hr => ?_⟩
  · rw [State.reset_claimed] at hx; cases hx
  · rw [State.reset_card] at hq; cases hq
  · rw [State.reset_card]; rfl
  · rw [State.reset_xp]; decide
  · rw [State.reset_card] at ho; cases ho
  · rw [State.reset_ctx] at ht; cases ht
  · rw [State.reset_ctx] at hr; cases hr

end Sys2Proof.Machine

open Sys2Proof Sys2Proof.Machine

/-- Settles O1: the two equations of `step`. -/
theorem stepRunsTheFrontCommand : Obligations.StepRunsTheFrontCommand := by
  unfold Obligations.StepRunsTheFrontCommand
  exact ⟨fun s c rest h => by rw [step, h], fun s h => by rw [step, h]⟩

/-- Settles O3: every table and every row of records is a replicated value. -/
theorem resetValues : Obligations.ResetValues := by
  unfold Obligations.ResetValues
  refine ⟨State.reset_siteEntry, fun n => ?_, State.reset_busEntry, State.reset_cardEntry, fun i => ?_, fun i => ?_,
    fun i => ?_, rfl, State.reset_xp, fun c => ?_, fun x => ?_, rfl, rfl, fun b => ?_, fun i => ?_, fun u => ?_, rfl, rfl,
    rfl, fun l => ?_, rfl, rfl⟩
  case refine_1 => simp [State.netEntry, State.reset, State.initial, Tables.initial]
  case refine_5 => rw [State.reset_card]; exact ⟨rfl, rfl, rfl, rfl, rfl⟩
  case refine_6 =>
    have htrip : State.reset.tripped x = false := by simp [State.tripped, State.reset, State.initial, Guard.initial]
    rw [State.reset_ctx]
    exact ⟨rfl, rfl, rfl, rfl, rfl, rfl, rfl, rfl, rfl, rfl, rfl, rfl, rfl, rfl, rfl, rfl, rfl, rfl, htrip⟩
  case refine_7 => simp [State.blockPresence, State.reset, State.initial, Guard.initial]
  case refine_9 =>
    simp [State.supplyOn, State.verdict, State.reset, State.initial, Guard.initial, Panel.initial, SiteVerdict.initial]
  case refine_10 => rw [State.reset_lane]; exact ⟨rfl, rfl, rfl, rfl, rfl, rfl⟩
  all_goals simp [State.reset, State.initial, Tables.initial, Guard.initial]

/-- Settles O4: the state after POWER_RESET is written out by `State.initial`. -/
theorem powerResetRestoresEverything : Obligations.PowerResetRestoresEverything := by
  unfold Obligations.PowerResetRestoresEverything
  intro s
  refine ⟨_, rfl, rfl, rfl, rfl, rfl, rfl, rfl, rfl, rfl, rfl, rfl, rfl, rfl, fun x => ?_, rfl, rfl, rfl, rfl, rfl, rfl, rfl,
    rfl⟩
  simp [State.tripped, State.initial, Guard.initial]

/-- Settles O6: the lid's two events by their premise. -/
theorem lidClosesAndQuiets : Obligations.LidClosesAndQuiets := by
  unfold Obligations.LidClosesAndQuiets
  intro s
  refine ⟨fun h => ?_, fun h => ?_, fun h => ?_, fun h => ?_⟩
  · simp only [exec, execLidCloses, State.begin_guard, h, if_true]; rfl
  · simp only [DoesNothing, exec, execLidCloses, State.begin_guard, h]; rfl
  · have hsafe : (s.begin.modGuard (fun g => { g with interlock := .clear })).isSafe = s.isSafe := rfl
    simp only [exec, execLidQuietTimerExpiry, State.begin_guard, h, if_true, hsafe]
    cases s.isSafe
    · exact ⟨_, rfl, pump_sameBlocks _, by rw [if_neg (by decide), pump_attn]; simp, by simp⟩
    · exact ⟨_, rfl, pump_sameBlocks _, by rw [if_pos rfl, pump_attn]; simp [AttnSet.raised], by simp⟩
  · simp only [DoesNothing, exec, execLidQuietTimerExpiry, State.begin_guard, h]; rfl

/-- Settles O57: after power reset every table entry is disabled, every list empty and every crosspoint open. -/
theorem resetIsLawful : Obligations.ResetIsLawful := by
  unfold Obligations.ResetIsLawful
  refine ⟨⟨fun t u _ ht => ?_, fun x y _ hx => ?_, fun c d _ hc => ?_⟩, ⟨by decide, by decide⟩, by decide, rfl,
    fun x p => ?_, fun c o ho => ?_, fun c q hq => ?_, fun x _ => ?_, ⟨rfl, rfl⟩, State.reset_claimsLawful,
    fun x => ⟨⟨?_, fun cell hc => ?_⟩, fun st hst => ?_⟩⟩
  · rw [State.reset_siteEntry] at ht; cases ht
  · rw [State.reset_busEntry] at hx; cases hx
  · rw [State.reset_cardEntry] at hc; exact absurd rfl hc
  · rw [State.reset_xp]; decide
  · rw [State.reset_card] at ho; cases ho
  · rw [State.reset_card] at hq; cases hq
  · rw [State.reset_ctx]; exact ⟨rfl, .inl rfl⟩
  · rw [State.reset_ctx]; exact ⟨le_rfl, le_rfl⟩
  · rw [State.reset_ctx] at hc; cases hc
  · rw [State.reset_ctx] at hst; cases hst

end

