-- ==== Sys2Proof/Proofs/Replies.lean ====
section
/-!
PROOFS. Frames on the trunk and the commands that touch the trunk controller or the guard unit alone: O9, O10, O12, O14, O22,
O26, O30, O34, O35.
-/

namespace Sys2Proof.Machine

/-! ### Refusals and plain answers -/

/-- A command that answers and starts the transmitter does nothing more. -/
theorem onlyReplies_of {c : Instr} {s : State} {tag : Half} {kind : Byte} {st : Status} {d : List Byte}
    (h : exec c s = .next (pump (s.begin.respond tag kind st d))) : OnlyReplies c s tag kind st d :=
  ⟨_, h, by simp [Answered], by simp [SameBlocks], by simp, by simp, by simp, by simp⟩

/-- A command of fixed length is taken by `takeCommand`; TABLE READ answers with data of any status. -/
theorem exec_fixedFrame {c : Instr} {kind : Byte} {tag : Half} {p : List Byte} {n : Nat}
    (h : c.fixedFrame = some (kind, tag, p, n)) :
    (c = .tableRead tag p ∧ kind = 0x03#8 ∧ n = 6) ∨
      ∃ owner, ∀ s, exec c s = .next (takeCommand s.begin kind tag p n owner) := by
  cases c with
  | tableRead t q =>
    obtain ⟨rfl, rfl, rfl, rfl⟩ := by simpa [Instr.fixedFrame] using h
    exact .inl ⟨rfl, rfl, rfl⟩
  | step t q | busAbort t q | busResume t q | clearTrip t q | supply t q | resume t q | serviceEnter t q
  | serviceExit t q | rackReset t q | panelBegin t q | panelEnd t q | flowHold t q | flowRelease t q | laneReset t q
  | laneOff t q | laneOn t q | laneTest t q | guardStatus t q | laneStatus t q | busStatus t q | siteStatus t q
  | panelStatus t q =>
    obtain ⟨rfl, rfl, rfl, rfl⟩ := by simpa [Instr.fixedFrame] using h
    exact .inr ⟨_, fun _ => rfl⟩
  | _ => exact absurd h (by simp [Instr.fixedFrame])

/-- A TABLE WRITE row takes an entry of its table by `takeWrite`. -/
theorem exec_tableWrite {c : Instr} {tag : Half} {p : List Byte} {pos code size : Nat}
    (h : c.tableWrite = some (tag, p, pos)) (ht : c.writeTable = some (code, size)) :
    ∃ take after, ∀ s, exec c s = .next (takeWrite s.begin code size tag p pos take after) := by
  cases c with
  | tableWriteSite t q i | tableWriteNet t q i | tableWriteBus t q i | tableWriteCard t q i | tableWriteScale t q i
  | tableWriteLimit t q i | tableWriteDisposition t q i | tableWriteWear t q i | tableWriteMark t q i =>
    obtain ⟨rfl, rfl, rfl⟩ := by simpa [Instr.tableWrite] using h
    obtain ⟨rfl, rfl⟩ := by simpa [Instr.writeTable] using ht
    exact ⟨_, _, fun _ => rfl⟩
  | _ => exact absurd h (by simp [Instr.tableWrite])

/-- Every TABLE WRITE row has its table. -/
theorem writeTable_of_tableWrite {c : Instr} {e : Half × List Byte × Nat} (h : c.tableWrite = some e) :
    ∃ code size, c.writeTable = some (code, size) := by
  cases c with
  | tableWriteSite t q i | tableWriteNet t q i | tableWriteBus t q i | tableWriteCard t q i | tableWriteScale t q i
  | tableWriteLimit t q i | tableWriteDisposition t q i | tableWriteWear t q i | tableWriteMark t q i =>
    exact ⟨_, _, rfl⟩
  | _ => exact absurd h (by simp [Instr.tableWrite])

/-- TABLE READ that finds room and has its length (R191). -/
theorem exec_tableRead {s : State} (h : HasRoom s) {p : List Byte} (hp : p.length = 6) (tag : Half) :
    exec (.tableRead tag p) s =
      .next (pump (s.begin.respond tag 0x03#8 (readTable s.begin p).1 (readTable s.begin p).2)) := by
  simp [exec, execTableRead, Nat.not_le.2 h, hp]

/-- A command of fixed length that finds 32 responses waiting does nothing (R188). -/
theorem fixedFrame_full {c : Instr} {s : State} (hc : c.fixedFrame.isSome = true) (h : ¬ HasRoom s) : DoesNothing c s := by
  obtain ⟨⟨kind, tag, p, n⟩, hf⟩ := Option.isSome_iff_exists.1 hc
  have hfull : 32 ≤ s.begin.trunk.responses.length := Nat.not_lt.1 h
  rcases exec_fixedFrame hf with ⟨rfl, -, -⟩ | ⟨owner, ho⟩
  · simp only [DoesNothing, exec, execTableRead, if_pos hfull]; rfl
  · rw [DoesNothing, ho, takeCommand_full hfull]; rfl

/-- A TABLE WRITE frame that finds 32 responses waiting does nothing (R188). -/
theorem tableWrite_full {c : Instr} {s : State} {tag : Half} {p : List Byte} (hc : c.tableWrite = some (tag, p, 0))
    (h : ¬ HasRoom s) : DoesNothing c s := by
  obtain ⟨code, size, ht⟩ := writeTable_of_tableWrite hc
  obtain ⟨take, after, he⟩ := exec_tableWrite hc ht
  have hfull : 32 ≤ s.begin.trunk.responses.length := Nat.not_lt.1 h
  rw [DoesNothing, he, takeWrite, if_pos rfl, if_pos hfull]; rfl

/-- A frame of no command kind that finds 32 responses waiting does nothing (R188). -/
theorem badKind_full {s : State} (tag : Half) (kind : Byte) (p : List Byte) (h : ¬ HasRoom s) :
    DoesNothing (.badKind tag kind p) s := by
  have hfull : 32 ≤ s.begin.trunk.responses.length := Nat.not_lt.1 h
  simp only [DoesNothing, exec, execBadKind, hfull, decide_true, Bool.or_true, if_true]; rfl

/-- A command of the wrong length is answered BAD_LENGTH (R187). -/
theorem fixedFrame_badLength {c : Instr} {s : State} {kind : Byte} {tag : Half} {p : List Byte} {n : Nat} (h : HasRoom s)
    (hf : c.fixedFrame = some (kind, tag, p, n)) (hn : p.length ≠ n) : OnlyReplies c s tag kind .badLength [] := by
  apply onlyReplies_of
  rcases exec_fixedFrame hf with ⟨rfl, rfl, rfl⟩ | ⟨owner, ho⟩
  · simp [exec, execTableRead, Nat.not_le.2 h, hn]
  · rw [ho, takeCommand_badLength (s := s.begin) h hn]

/-- The answers of a TABLE WRITE frame that holds no whole entries, or names no table (R187, R190, R198). -/
theorem tableWrite_wrong {c : Instr} {s : State} {tag : Half} {p : List Byte} {code size : Nat} (h : HasRoom s)
    (hc : c.tableWrite = some (tag, p, 0)) (ht : c.writeTable = some (code, size)) :
    (p.length < 4 → OnlyReplies c s tag 0x02#8 .badLength (le16 0)) ∧
      (4 ≤ p.length → 8 < byteAt p 0 → OnlyReplies c s tag 0x02#8 .badValue (le16 0)) ∧
      (4 ≤ p.length → byteAt p 0 = code → code ≤ 8 → writeLengthFits p size = false →
        OnlyReplies c s tag 0x02#8 .badLength (le16 0)) := by
  obtain ⟨take, after, he⟩ := exec_tableWrite hc ht
  have hroom : ¬ 32 ≤ s.begin.trunk.responses.length := Nat.not_le.2 h
  refine ⟨fun hp => onlyReplies_of ?_, fun hp hk => onlyReplies_of ?_, fun hp hk h8 hw => onlyReplies_of ?_⟩
  · rw [he, takeWrite, if_pos rfl, if_neg hroom, if_pos hp]
  · rw [he, takeWrite, if_pos rfl, if_neg hroom, if_neg (Nat.not_lt.2 hp), if_pos hk]
  · rw [he, takeWrite, if_pos rfl, if_neg hroom, if_neg (Nat.not_lt.2 hp), if_neg (by omega), if_neg (by simpa using hk),
      hw, if_pos (by rfl)]

/-- The tables are numbered 0 to 8. -/
theorem writeTable_code {c : Instr} {code size : Nat} (h : c.writeTable = some (code, size)) : code ≤ 8 := by
  cases c with
  | tableWriteSite t q i | tableWriteNet t q i | tableWriteBus t q i | tableWriteCard t q i | tableWriteScale t q i
  | tableWriteLimit t q i | tableWriteDisposition t q i | tableWriteWear t q i | tableWriteMark t q i =>
    obtain ⟨rfl, -⟩ := by simpa [Instr.writeTable] using h
    decide
  | _ => exact absurd h (by simp [Instr.writeTable])

/-! ### An owner that refuses, or answers at once -/

section
variable {c : Instr} {s : State} {kind : Byte} {tag : Half} {p : List Byte} {n : Nat} {owner : State → Reply}

/-- A command whose owner refuses it is answered with the status and does nothing more (R187). -/
theorem onlyReplies_refused {st : Status} (hc : exec c s = .next (takeCommand s.begin kind tag p n owner))
    (h : HasRoom s) (hp : p.length = n) (ho : owner s.begin = .refused st) : OnlyReplies c s tag kind st [] :=
  onlyReplies_of (by rw [hc, takeCommand_taken (s := s.begin) h hp, ho]; rfl)

/-- A command whose owner answers at once (R187). -/
theorem exec_ok {u : State} {d : List Byte} (hc : exec c s = .next (takeCommand s.begin kind tag p n owner))
    (h : HasRoom s) (hp : p.length = n) (ho : owner s.begin = .ok u d) :
    exec c s = .next (pump (u.respond tag kind .ok d)) := by rw [hc, takeCommand_taken (s := s.begin) h hp, ho]; rfl

/-- A command whose owner has consequences to be worked through (R187; log 6). -/
theorem exec_ran {u : State} {d : List Byte} (hc : exec c s = .next (takeCommand s.begin kind tag p n owner))
    (h : HasRoom s) (hp : p.length = n) (ho : owner s.begin = .ran u d) :
    exec c s = .next (finish (u.respond tag kind .ok d)) := by rw [hc, takeCommand_taken (s := s.begin) h hp, ho]; rfl

/-- A command whose response is held for a lane's test (R188). -/
theorem exec_held {u : State} {l : LaneId} (hc : exec c s = .next (takeCommand s.begin kind tag p n owner))
    (h : HasRoom s) (hp : p.length = n) (ho : owner s.begin = .held u l) :
    exec c s = .next (pump (u.respondHeld tag kind (.lane l))) := by rw [hc, takeCommand_taken (s := s.begin) h hp, ho]; rfl

end

/-! ### Bytes -/

@[simp] theorem byte_toNat (n : Nat) : (byte n).toNat = n % 256 := by simp [byte]

@[simp] theorem byteAt_zero (b : Byte) (p : List Byte) : byteAt (b :: p) 0 = b.toNat := rfl

@[simp] theorem byteAt_succ (b : Byte) (p : List Byte) (i : Nat) : byteAt (b :: p) (i + 1) = byteAt p i := rfl

/-- A two-byte number is read as it was written (spec/12). -/
theorem numAt16_le16 {n : Nat} (h : n < 65536) (p : List Byte) : numAt16 (le16 n ++ p) 0 = n := by
  simp only [numAt16, le16, List.cons_append, byteAt_zero, byteAt_succ, byte_toNat]; omega

/-- A four-byte number is read as it was written (spec/12). -/
theorem numAt32_le32 {n : Nat} (h : n < 4294967296) (p : List Byte) : numAt32 (le32 n ++ p) 0 = n := by
  simp only [numAt32, numAt16, le32, List.cons_append, byteAt_zero, byteAt_succ, byte_toNat]; omega

@[simp] theorem le16_length (n : Nat) : (le16 n).length = 2 := rfl

@[simp] theorem le32_length (n : Nat) : (le32 n).length = 4 := rfl

@[simp] theorem yesNo?_yesNo (b : Bool) : yesNo? (yesNo b).toNat = some b := by cases b <;> rfl

/-- The bus that a one-byte payload names is the one written there. -/
@[simp] theorem busAt_byte (x : Bus) (p : List Byte) : busAt (byte x.val :: p) 0 = some x := by
  have := x.isLt
  simp only [busAt, byteAt_zero, byte_toNat, Nat.mod_eq_of_lt (by omega : x.val < 256), x.isLt, dite_true, Fin.eta]

/-- A byte above 7 names no bus. -/
theorem busAt_none {b : Byte} (h : 8 ≤ b.toNat) (p : List Byte) : busAt (b :: p) 0 = none := by
  simp [busAt, Nat.not_lt.2 h]

@[simp] theorem laneAt_byte (l : LaneId) (p : List Byte) : laneAt (byte l.val :: p) 0 = some l := busAt_byte l p

theorem laneAt_none {b : Byte} (h : 8 ≤ b.toNat) (p : List Byte) : laneAt (b :: p) 0 = none := busAt_none h p

/-! ### The FLOW commands and the status reads -/

/-- FLOW HOLD and FLOW RELEASE: the flag takes its value and the queue is reported (R152). -/
theorem flow_reports {s : State} {c : Instr} {kind : Byte} {tag : Half} (on : Bool) (h : HasRoom s)
    (hc : exec c s = .next (takeCommand s.begin kind tag [] 0 (fun s =>
      .ok (s.modTrunk (fun t => { t with flowHold := on })) (flowData (s.modTrunk (fun t => { t with flowHold := on })))))) :
    ∃ t, exec c s = .next t ∧
      Answered s t tag kind .ok (yesNo on :: byte s.queue.records.length :: yesNo s.queue.compact ::
        (le32 s.queue.foldCount ++ [yesNo s.queue.saturated, byte (waitingOffers s), yesNo s.panel.foldPending])) ∧
      t.trunk.flowHold = on ∧ t.trunk.attn = s.trunk.attn ∧ SameBlocks s t := by
  refine ⟨_, exec_ok hc h rfl rfl, ?_, by simp, by simp, by simp [SameBlocks]⟩
  simp only [Answered, pump_responses, State.respond_trunk, State.modTrunk_trunk, State.begin_trunk]
  rfl

/-- A status read answers with its data and clears its class alone (R193). -/
theorem status_reports {s u : State} {c : Instr} {kind : Byte} {tag : Half} {owner : State → Reply} {d : List Byte}
    (h : HasRoom s) (hc : exec c s = .next (takeCommand s.begin kind tag [] 0 owner))
    (ho : owner s.begin = .ok u d) (hr : u.trunk.responses = s.trunk.responses) :
    ∃ t, exec c s = .next t ∧ Answered s t tag kind .ok d ∧ SameBlocks u t ∧ t.trunk.attn = u.trunk.attn :=
  ⟨_, exec_ok hc h rfl ho, by simp [Answered, hr], by simp [SameBlocks], by simp⟩

@[simp] theorem listBytes_length (k : Nat) (l : List Nat) : (listBytes k l).length = k + 1 := by simp [listBytes]

@[simp] theorem orNoneTag_length (t : Option Half) : (orNoneTag t).length = 3 := by cases t <;> rfl

/-- The lengths that the fields of the status reads add up to (R193). -/
theorem guardData_length (s : State) : (guardData s).length = 75 := by
  have hb : ∀ x, (guardBusPart s x).length = 4 := fun _ => rfl
  simp [guardData, hb, allBuses]

theorem laneData_length (s : State) : (laneData s).length = 176 := by
  have hl : ∀ l, (lanePart s l).length = 19 := fun l => by simp [lanePart]
  have hc : ∀ c, (cardPart s c).length = 6 := fun c => by unfold cardPart; dsimp only; split <;> rfl
  simp [laneData, hl, hc, allLanes, allCards]

theorem busData_length (s : State) : (busData s).length = 784 := by
  have hb : ∀ x, (busPart s x).length = 23 := fun x => by simp [busPart]
  have hs : ∀ x, (sweepPart s x).length = 43 := fun x => by
    unfold sweepPart
    dsimp only
    simp only [List.length_append, listBytes_length]
    generalize (if (s.ctx x).sweep.status = .none then Sweep.initial else (s.ctx x).sweep) = w
    cases w.cursor <;> rfl
  simp [busData, hb, hs, allBuses, allPoints]

theorem siteData_length (s : State) : (siteData s).length = 224 := by
  have ht : ∀ u, (sitePart s u).length = 6 := fun _ => rfl
  simp [siteData, ht, allSites]

theorem panelData_length (s : State) : (panelData s).length = 233 := by
  have hv : ∀ u, (verdictPart s u).length = 7 := fun u => by simp [verdictPart]
  simp [panelData, hv, allSites]

end Sys2Proof.Machine

open Sys2Proof Sys2Proof.Machine

/-- Settles O9: the three kinds of frame, each refused before its owner sees it. -/
theorem discardedTrunkFramesChangeNothing : Obligations.DiscardedTrunkFramesChangeNothing := by
  unfold Obligations.DiscardedTrunkFramesChangeNothing
  refine fun s => ⟨fun _ => rfl, fun _ _ _ => rfl, fun c h hc => ?_⟩
  rcases hc with hc | ⟨tag, p, hc⟩ | ⟨tag, kind, p, rfl⟩
  · exact fixedFrame_full hc h
  · exact tableWrite_full hc h
  · exact badKind_full tag kind p h

/-- Settles O10: each refusal is an answer alone. -/
theorem wrongFramesAreRefused : Obligations.WrongFramesAreRefused := by
  unfold Obligations.WrongFramesAreRefused
  intro s h
  refine ⟨fun tag kind p hk => onlyReplies_of ?_, fun c kind tag p n hf hn => fixedFrame_badLength h hf hn,
    fun c tag p code size hc ht _ => ?_⟩
  · have hroom : ¬ 32 ≤ s.trunk.responses.length := Nat.not_le.2 h
    simp only [exec, execBadKind, hk, State.begin_trunk, hroom, decide_false, Bool.or_self, Bool.false_eq_true, if_false]
  · obtain ⟨hshort, hvalue, hlength⟩ := tableWrite_wrong h hc ht
    refine ⟨hshort, hvalue, fun hp hk hl => hlength hp hk (writeTable_code ht) ?_⟩
    unfold writeLengthFits
    rcases hl with hl | hl
    · simp [hl]
    · simp [hl]

/-- Settles O30: both commands through `flow_reports`. -/
theorem flowCommandsReport : Obligations.FlowCommandsReport := by
  unfold Obligations.FlowCommandsReport
  exact fun s tag h => ⟨flow_reports true h rfl, flow_reports false h rfl⟩

/-- Settles O35: the five reads through `status_reports`, with the lengths of their data. -/
theorem statusReadsReportAndClear : Obligations.StatusReadsReportAndClear := by
  unfold Obligations.StatusReadsReportAndClear
  intro s tag h
  refine ⟨?_, ?_, ?_, ?_, ?_⟩
  · obtain ⟨t, ht, ha, hb, hc⟩ := status_reports (c := .guardStatus tag []) h rfl rfl rfl
    exact ⟨t, ht, ha, hb, hc, guardData_length s⟩
  · obtain ⟨t, ht, ha, hb, hc⟩ := status_reports (c := .laneStatus tag []) h rfl rfl rfl
    exact ⟨t, ht, ha, hb, hc, laneData_length s⟩
  · obtain ⟨t, ht, ha, hb, hc⟩ := status_reports (c := .busStatus tag []) h rfl rfl rfl
    exact ⟨t, ht, ha, hb, hc, busData_length s⟩
  · obtain ⟨t, ht, ha, hb, hc⟩ := status_reports (c := .siteStatus tag []) h rfl rfl rfl
    exact ⟨t, ht, ha, hb, hc, siteData_length s⟩
  · obtain ⟨t, ht, ha, hb, hc⟩ := status_reports (c := .panelStatus tag []) h rfl rfl rfl
    exact ⟨t, ht, ha, hb, hc, panelData_length s⟩

end

