-- ==== Sys2Proof/Proofs/Payloads.lean ====
section
/-!
PROOFS. The STEP payload and its checks, TABLE READ, LANE TEST and SUPPLY: O12, O14, O22, O26, O34.
-/

-- One proof after another: in the joined text each worker would hold a stack of its own.
set_option Elab.async false

namespace Sys2Proof.Machine

/-! ### The STEP payload (R63, R64) -/

/-- The fields of a step in range, as its payload holds them, pass the checks of R64. -/
theorem stepWork_bytes {s : State} {x : Bus} {st : Step} (he : (s.busEntry x).enabled = true)
    (hr : st.work.InRange s x) : stepWork s x (st.bytes x) = some st.work := by
  obtain ⟨tag, work⟩ := st
  cases work with
  | release => simp [stepWork, Step.bytes, Work.bytes, le16, he]
  | connect u n =>
    obtain ⟨hpin, hkind⟩ := hr
    have hn : n.val % 256 = n.val := by omega
    have hu : u.val % 256 = u.val := by omega
    simp [stepWork, Step.bytes, Work.bytes, Selection.bytes, le16, he, netUsable, hpin, hkind, fin?, hn, hu]
  | measure sel n lim k d timeout hold =>
    obtain ⟨⟨hpin, hkind⟩, hsel, hk1, hk, hd, ht1, ht⟩ := hr
    have hn : n.val % 256 = n.val := by omega
    have hlim : lim.val % 256 = lim.val := by omega
    have hk' : k % 256 = k := by omega
    have hd' : d % 256 = d := by omega
    have ht' : timeout % 256 + 256 * (timeout / 256 % 256) = timeout := by omega
    have hselection : selection? (Step.bytes x ⟨tag, .measure sel n lim k d timeout hold⟩) = some sel := by
      cases sel with
      | single u =>
        have hu : u.val % 256 = u.val := by omega
        simp [selection?, Step.bytes, Work.bytes, Selection.bytes, le16, fin?, hu]
      | sweepStart w axis count =>
        obtain ⟨hc, hrow, hc1, hc32⟩ := hsel
        have h0 : w.c0.val % 256 = w.c0.val := by omega
        have h1 : w.c1.val % 256 = w.c1.val := by omega
        have h2 : w.r0.val % 256 = w.r0.val := by omega
        have h3 : w.r1.val % 256 = w.r1.val := by omega
        have h4 : count % 256 = count := by omega
        cases axis <;>
          simp [selection?, sweepStart?, Step.bytes, Work.bytes, Selection.bytes, le16, fin?, h0, h1, h2, h3, h4,
            Axis.code, hc, hrow, hc1, hc32]
      | sweepContinue count =>
        obtain ⟨hc1, hc32⟩ := hsel
        have h4 : count % 256 = count := by omega
        simp [selection?, Step.bytes, Work.bytes, Selection.bytes, le16, h4, hc1, hc32]
    have hbytes : ∀ i, byteAt (Step.bytes x ⟨tag, .measure sel n lim k d timeout hold⟩) (i + 12) =
        byteAt ([byte n.val, byte lim.val, byte k, byte d] ++ le16 timeout ++ [yesNo hold, 0#8]) i := by
      intro i; cases sel <;> simp [Step.bytes, Work.bytes, Selection.bytes, le16]
    have h3 : byteAt (Step.bytes x ⟨tag, .measure sel n lim k d timeout hold⟩) 3 = 0 := rfl
    have h12 := hbytes 0
    have h13 := hbytes 1
    have h14 := hbytes 2
    have h15 := hbytes 3
    have h16 := hbytes 4
    have h17 := hbytes 5
    have h18 := hbytes 6
    simp only [le16, List.cons_append, List.nil_append, byteAt_zero, byteAt_succ, byte_toNat, hn, hlim, hk', hd',
      Nat.reduceAdd, Nat.zero_add] at h12 h13 h14 h15 h16 h17 h18
    simp [stepWork, h3, hselection, h12, h13, h14, h15, h16, h17, h18, fin?, netUsable, numAt16, ht', he, hpin, hkind, hk1, hk, hd,
      ht1, ht]

/-- What a STEP payload that passes check 4 of R64 holds. -/
theorem stepWork_some {s : State} {x : Bus} {p : List Byte} {w : Work} (h : stepWork s x p = some w) :
    (s.busEntry x).enabled = true ∧ byteAt p 3 ≤ 2 ∧ (byteAt p 3 = 1 → byteAt p 4 = 0) ∧
      (byteAt p 3 ≤ 1 → ∀ n : Net, byteAt p 12 = n.val → NetFits s x n) ∧
      (byteAt p 3 = 0 → (selection? p).isSome = true ∧ byteAt p 18 ≤ 1 ∧ 1 ≤ byteAt p 14 ∧ byteAt p 14 ≤ 16 ∧
        byteAt p 15 ≤ 3 ∧ 1 ≤ numAt16 p 16 ∧ numAt16 p 16 ≤ 60000) := by
  have hfits : ∀ m : Net, netUsable s x m = true → NetFits s x m := fun m hm => by simpa [netUsable, NetFits] using hm
  have hnet : ∀ {m n : Net}, fin? 64 (byteAt p 12) = some m → byteAt p 12 = n.val → m = n := by
    intro m n hm hn
    simp only [fin?, hn, n.isLt, dite_true, Option.some.injEq] at hm
    exact hm.symm
  unfold stepWork at h
  by_cases he : (s.busEntry x).enabled = true
  · simp only [he, Bool.not_true, Bool.false_eq_true, if_false] at h
    split at h
    · next h3 =>
      simp only [Option.bind_eq_bind, Option.bind_eq_some_iff] at h
      obtain ⟨m, hm, sel, hsel, hold, hhold, h⟩ := h
      split at h
      · next hc =>
        obtain ⟨hu, hk1, hk, hd, ht1, ht⟩ := hc
        refine ⟨he, by omega, by omega, fun _ n hn => hnet hm hn ▸ hfits m hu, fun _ => ⟨by rw [hsel]; rfl, ?_, hk1, hk, hd, ht1, ht⟩⟩
        unfold yesNo? at hhold
        split at hhold
        · omega
        · split at hhold
          · omega
          · exact absurd hhold (by simp)
      · exact absurd h (by simp)
    · next h3 =>
      simp only [Option.bind_eq_bind, Option.bind_eq_some_iff] at h
      obtain ⟨m, hm, u, hu, h⟩ := h
      split at h
      · next hc => exact ⟨he, by omega, fun _ => hc.2, fun _ n hn => hnet hm hn ▸ hfits m hc.1, by omega⟩
      · exact absurd h (by simp)
    · next h3 => exact ⟨he, by omega, by omega, by omega, by omega⟩
    · exact absurd h (by simp)
  · simp [he] at h

/-- What a sweep selection that passes the checks holds (R64). -/
theorem selection?_some {p : List Byte} (h : (selection? p).isSome = true) :
    byteAt p 4 ≤ 2 ∧ (1 ≤ byteAt p 4 → 1 ≤ byteAt p 11 ∧ byteAt p 11 ≤ 32) ∧
      (byteAt p 4 = 1 → byteAt p 6 ≤ byteAt p 7 ∧ byteAt p 7 < 8 ∧ byteAt p 8 ≤ byteAt p 9 ∧ byteAt p 9 < 8 ∧
        byteAt p 10 ≤ 1) := by
  have hfin : ∀ {n v : Nat} {i : Fin n}, fin? n v = some i → v = i.val := by
    intro n v i hi
    unfold fin? at hi
    split at hi
    · exact (congrArg Fin.val (Option.some.inj hi))
    · exact absurd hi (by simp)
  unfold selection? at h
  split at h
  · next h4 => exact ⟨by omega, by omega, by omega⟩
  · next h4 =>
    obtain ⟨sel, hsel⟩ := Option.isSome_iff_exists.1 h
    simp only [sweepStart?, Option.bind_eq_bind, Option.bind_eq_some_iff] at hsel
    obtain ⟨c0, hc0, c1, hc1, r0, hr0, r1, hr1, axis, haxis, hsel⟩ := hsel
    split at hsel
    · next hc =>
      obtain ⟨hcol, hrow, h1, h32⟩ := hc
      have e0 := hfin hc0
      have e1 := hfin hc1
      have e2 := hfin hr0
      have e3 := hfin hr1
      refine ⟨by omega, fun _ => ⟨h1, h32⟩, fun _ => ⟨?_, by omega, ?_, by omega, ?_⟩⟩
      · rw [e0, e1]; exact hcol
      · rw [e2, e3]; exact hrow
      · split at haxis
        · omega
        · omega
        · exact absurd haxis (by simp)
    · exact absurd hsel (by simp)
  · next h4 =>
    split at h
    · next hc => exact ⟨by omega, fun _ => hc, by omega⟩
    · exact absurd h (by simp)
  · exact absurd h (by simp)

/-- The payload of a step names its bus and has no bad index. -/
theorem busAt_bytes (x : Bus) (st : Step) : busAt (st.bytes x) 2 = some x := by
  have := x.isLt
  have h : byteAt (st.bytes x) 2 = x.val := by
    simp only [Step.bytes, le16, List.cons_append, List.nil_append, byteAt_succ, byteAt_zero, byte_toNat]; omega
  simp [busAt, h]

theorem stepIndexBad_bytes (x : Bus) (st : Step) : stepIndexBad (st.bytes x) = false := by
  have := x.isLt
  have h2 : ¬ 8 ≤ byteAt (st.bytes x) 2 := by
    simp only [Step.bytes, le16, List.cons_append, List.nil_append, byteAt_succ, byteAt_zero, byte_toNat]; omega
  obtain ⟨tag, work⟩ := st
  unfold stepIndexBad
  simp only [h2, decide_false, Bool.false_or]
  cases work with
  | release => simp [Step.bytes, Work.bytes, le16]
  | connect u n =>
    have := u.isLt; have := n.isLt
    simp [Step.bytes, Work.bytes, Selection.bytes, le16]; omega
  | measure sel n lim k d timeout hold =>
    have := n.isLt
    cases sel with
    | single u =>
      have := u.isLt
      simp [Step.bytes, Work.bytes, Selection.bytes, le16]; omega
    | sweepStart w axis count => simp [Step.bytes, Work.bytes, Selection.bytes, le16]; omega
    | sweepContinue count => simp [Step.bytes, Work.bytes, Selection.bytes, le16]; omega

/-- A step in range is read from its payload, but for the room in its queue (R64). -/
theorem stepChecked_bytes {s : State} {x : Bus} {st : Step} (hp : s.panel.state = .opn) (hs : s.guard.rack ≠ .service)
    (he : (s.busEntry x).enabled = true) (hr : st.work.InRange s x) :
    stepChecked s (st.bytes x) = if 8 ≤ (s.ctx x).queue.length then .error .full else .ok (x, st) := by
  have htag : numAt16 (st.bytes x) 0 = st.tag.toNat := numAt16_le16 st.tag.isLt _
  simp only [stepChecked, hp, hs, stepIndexBad_bytes, busAt_bytes, stepWork_bytes he hr, htag, ne_eq, not_true_eq_false,
    if_false, Bool.false_eq_true, BitVec.ofNat_toNat, BitVec.setWidth_eq]

/-- A STEP that is refused is answered with the status and does nothing more (R64). -/
theorem step_refused {s : State} (h : HasRoom s) {p : List Byte} (hp : p.length = 20) (tag : Half) {st : Status}
    (hs : stepChecked s p = .error st) : OnlyReplies (.step tag p) s tag 0x01#8 st [] := by
  refine onlyReplies_refused (owner := fun s => match stepChecked s p with
    | .error st => .refused st
    | .ok (x, step) => .ran ((s.modCtx x (fun c => { c with queue := c.queue ++ [step] })).post (.poke x))
        [byte ((s.ctx x).queue.length + 1)]) rfl h hp ?_
  have : stepChecked s.begin p = .error st := hs
  simp only [this]

/-! ### TABLE READ (R191) -/

/-- The fields of a TABLE READ payload. -/
theorem readTable_fields (code r : Byte) {first count : Nat} (hf : first < 65536) (hc : count < 65536) :
    byteAt ([code, r] ++ le16 first ++ le16 count) 0 = code.toNat ∧
      numAt16 ([code, r] ++ le16 first ++ le16 count) 2 = first ∧
      numAt16 ([code, r] ++ le16 first ++ le16 count) 4 = count := by
  refine ⟨rfl, ?_, ?_⟩ <;>
    · simp only [numAt16, le16, List.cons_append, List.nil_append, byteAt_zero, byteAt_succ, byte_toNat]; omega

/-- A TABLE READ of a table that does not exist is refused (R191). -/
theorem readTable_unknown (s : State) (code r : Byte) {first count : Nat} (hf : first < 65536) (hc : count < 65536)
    (ht : tableSize code.toNat = none) :
    readTable s ([code, r] ++ le16 first ++ le16 count) = (.badValue, []) := by
  obtain ⟨h0, -, -⟩ := readTable_fields code r hf hc
  simp only [readTable, h0, ht]

/-- What TABLE READ finds in its payload for a table that exists (R191). -/
theorem readTable_known (s : State) (code r : Byte) {first count size most : Nat} (hf : first < 65536)
    (hc : count < 65536) (ht : tableSize code.toNat = some (size, most)) :
    readTable s ([code, r] ++ le16 first ++ le16 count) =
      if count = 0 ∨ most < count then (.badValue, [])
      else
        (if size < first + count then .badIndex else .ok,
          [code, 0#8] ++ le16 first ++ le16 (min count (size - first)) ++
            (List.range (min count (size - first))).flatMap (fun i => entryBytes s code.toNat (first + i))) := by
  obtain ⟨h0, h2, h4⟩ := readTable_fields code r hf hc
  have hb : byte code.toNat = code := by simp [byte]
  simp only [readTable, h0, h2, h4, ht, hb]

/-! ### LANE TEST (R183) -/

/-- The number of test frames that a LANE TEST payload asks for. -/
theorem numAt16_laneTest (b : Byte) {n : Nat} (h : n < 65536) : numAt16 (b :: le16 n) 1 = n := by
  simp only [numAt16, le16, byteAt_zero, byteAt_succ, byte_toNat]; omega

/-- A LANE TEST that its checks refuse is answered with the status and does nothing more (R183). -/
theorem laneTest_refused {s : State} (h : HasRoom s) (tag : Half) (l : LaneId) {n : Nat} (hn : n < 65536) {st : Status}
    (hb : laneTestBad s l n = some st) : OnlyReplies (.laneTest tag (byte l.val :: le16 n)) s tag 0x13#8 st [] := by
  refine onlyReplies_refused (c := .laneTest tag (byte l.val :: le16 n)) rfl h rfl ?_
  have hb' : laneTestBad s.begin l n = some st := hb
  simp only [laneAt_byte, numAt16_laneTest _ hn, hb']

/-! ### SUPPLY (R166, R167) -/

/-- The mask of sites that rise has the bits of the sites. -/
theorem testBit_siteMask {l : List Site} (h : l.Pairwise (· < ·)) (u : Site) :
    (siteMask l).testBit u.val = decide (u ∈ l) := by
  have hsorted : (l.map Fin.val).SortedLT := ((List.pairwise_map (f := Fin.val) (R := (· < ·))).2 h).sortedLT
  have hmask : siteMask l = ((l.map Fin.val).map (2 ^ ·)).sum := by simp [siteMask, Function.comp_def]
  have hmem : (siteMask l).testBit u.val = true ↔ u ∈ l := by
    rw [hmask, ← Nat.mem_bitIndices, Nat.bitIndices_sum_map_two_pow hsorted]
    exact List.mem_map_of_injective Fin.val_injective
  by_cases hu : u ∈ l
  · simp only [hmem.2 hu, hu, decide_true]
  · rw [decide_eq_false hu, Bool.eq_false_iff]
    exact fun h => hu (hmem.1 h)

/-- The mask of sites that rise takes four bytes. -/
theorem siteMask_lt {l : List Site} (h : l.Pairwise (· < ·)) : siteMask l < 4294967296 := by
  have hsorted : (l.map Fin.val).SortedLT := ((List.pairwise_map (f := Fin.val) (R := (· < ·))).2 h).sortedLT
  have hmask : siteMask l = ((l.map Fin.val).map (2 ^ ·)).sum := by simp [siteMask, Function.comp_def]
  refine Nat.lt_pow_two_of_testBit (n := 32) _ (fun i hi => ?_)
  by_contra hb
  have hbit := Nat.mem_bitIndices.2 (by simpa using hb : (siteMask l).testBit i = true)
  rw [hmask, Nat.bitIndices_sum_map_two_pow hsorted, List.mem_map] at hbit
  obtain ⟨u, -, rfl⟩ := hbit
  exact absurd u.isLt (by omega)

/-- Setting supplies changes the supply records alone. -/
theorem setSupplies_eq (s : State) (l : List Site) (on : Bool) :
    setSupplies s l on = { s with guard := { s.guard with supply := (setSupplies s l on).guard.supply } } := by
  unfold setSupplies
  induction l generalizing s with
  | nil => rfl
  | cons u l ih => rw [List.foldl_cons, ih]; rfl

/-- The sites of the list take the setting, clamped; the others keep theirs (R167). -/
theorem setSupplies_supplyOn (s : State) (l : List Site) (on : Bool) (u : Site) :
    (setSupplies s l on).supplyOn u = if u ∈ l then on && maySupply s u else s.supplyOn u := by
  unfold setSupplies
  induction l generalizing s with
  | nil => simp
  | cons v l ih =>
    have hmay : maySupply (s.setSupply v (on && maySupply s v)) u = maySupply s u := rfl
    rw [List.foldl_cons, ih, hmay, State.supplyOn_setSupply]
    by_cases hu : u ∈ l
    · simp [hu]
    · by_cases hv : v = u
      · subst hv; simp [hu]
      · simp [hu, hv, Ne.symm hv]

/-- The SUPPLY frame of a card: its whole setting, on the lane its entry names (R166). -/
def supplyFrames (s : State) (c : CardId) : List (LaneId × LaneFrame) :=
  match (s.cardEntry c).lane with
  | some l => if s.laneHasCard l then [(l, .supply (supplyMask s c))] else []
  | none => []

/-- Sending cards their settings shows their frames and changes nothing (R166). -/
theorem sendCardSupplies_eq (s : State) (l : List CardId) :
    l.foldl sendCardSupply s = { s with out := s.out ++ l.flatMap (supplyFrames s) } := by
  induction l generalizing s with
  | nil => simp
  | cons c l ih =>
    have hone : sendCardSupply s c = { s with out := s.out ++ supplyFrames s c } := by
      unfold sendCardSupply supplyFrames
      cases (s.cardEntry c).lane with
      | none => simp
      | some l =>
        dsimp only [sendSupply]
        split
        · rfl
        · simp
    rw [List.foldl_cons, ih, hone, List.flatMap_cons, ← List.append_assoc]
    rfl

/-- A card's setting rests on the SITE table and the guard unit (R166). -/
theorem supplyMask_congr {s t : State} (c : CardId) (htab : t.tables = s.tables) (hg : t.guard = s.guard) :
    supplyMask t c = supplyMask s c := by
  have hsite : ∀ b, t.siteOnBlock b = s.siteOnBlock b := fun b => by simp only [State.siteOnBlock, State.siteEntry, htab]
  have hon : ∀ u, t.supplyOn u = s.supplyOn u := fun u => by simp only [State.supplyOn, hg]
  simp only [supplyMask, hsite, hon]

/-- The sites of a mask rise. -/
theorem maskSites_sorted (m : Nat) : (maskSites m).Pairwise (· < ·) := (List.pairwise_lt_finRange 32).filter _

@[simp] theorem mem_maskSites {m : Nat} {u : Site} : u ∈ maskSites m ↔ m.testBit u.val = true := by
  simp [maskSites, allSites, List.mem_finRange]

end Sys2Proof.Machine

open Sys2Proof Sys2Proof.Machine

/-- Settles O12: the five checks pass and every field is read back. -/
theorem stepPayloadsRoundTrip : Obligations.StepPayloadsRoundTrip := by
  unfold Obligations.StepPayloadsRoundTrip
  intro s x st hp hs he hr hq
  rw [stepChecked_bytes hp hs he hr, if_neg (Nat.not_le.2 hq)]

/-- Settles O14: the checks of R64, each reached when the ones before it pass. -/
theorem stepChecksInOrder : Obligations.StepChecksInOrder := by
  unfold Obligations.StepChecksInOrder
  intro s tag p h hlen
  refine ⟨fun hp => step_refused h hlen tag (by simp [stepChecked, hp]),
    fun hp hs => step_refused h hlen tag (by simp [stepChecked, hp, hs]),
    fun hp hs hi => step_refused h hlen tag ?_, fun x hp hs hx hi hv => step_refused h hlen tag ?_,
    fun x st hp hs hb he hr hq => step_refused h hlen tag ?_⟩
  · have hbad : stepIndexBad p = true := by
      simp only [stepIndexBad, Bool.or_eq_true, Bool.and_eq_true, decide_eq_true_eq, beq_iff_eq]
      omega
    simp [stepChecked, hp, hs, hbad]
  · have hgood : stepIndexBad p = false := by
      have := x.isLt
      simp only [stepIndexBad, Bool.or_eq_false_iff, Bool.and_eq_false_iff, decide_eq_false_iff_not, beq_eq_false_iff_ne]
      omega
    have hbus : busAt p 2 = some x := by simp [busAt, hx]
    have hnone : stepWork s x p = none := by
      cases hw : stepWork s x p with
      | none => rfl
      | some w =>
        obtain ⟨he, h3, h1, hn, h0⟩ := stepWork_some hw
        exfalso
        rcases hv with hv | hv | hv | ⟨n, hk, h12, hv⟩ | ⟨hk, hv⟩
        · exact absurd he (by simp [hv])
        · omega
        · exact hv.2 (h1 hv.1)
        · exact hv (hn hk n h12)
        · obtain ⟨hsel, hrest⟩ := h0 hk
          have := selection?_some hsel
          omega
    simp [stepChecked, hp, hs, hgood, hbus, hnone]
  · rw [hb, stepChecked_bytes hp hs he hr, if_pos hq]

/-- Settles O22: the answer of `readTable`, case by case. -/
theorem tableReadsReturnEntries : Obligations.TableReadsReturnEntries := by
  unfold Obligations.TableReadsReturnEntries
  intro s tag code r first count h hf hc
  have hread : exec (.tableRead tag ([code, r] ++ le16 first ++ le16 count)) s = _ := exec_tableRead h rfl tag
  refine ⟨fun ht => onlyReplies_of ?_, fun size most ht => ⟨fun hbad => onlyReplies_of ?_,
    fun h1 hm hle => onlyReplies_of ?_, fun h1 hm hlt => onlyReplies_of ?_⟩⟩
  · rw [hread, readTable_unknown s.begin code r hf hc ht]
  · rw [hread, readTable_known s.begin code r hf hc ht, if_pos hbad]
  · rw [hread, readTable_known s.begin code r hf hc ht, if_neg (by omega), if_neg (Nat.not_lt.2 hle),
      Nat.min_eq_left (by omega)]
    rfl
  · rw [hread, readTable_known s.begin code r hf hc ht, if_neg (by omega), if_pos hlt, Nat.min_eq_right (by omega)]
    rfl

/-- Settles O34: the checks of R183 in order, and the start of the test. -/
theorem laneTestsHoldTheirResponse : Obligations.LaneTestsHoldTheirResponse := by
  unfold Obligations.LaneTestsHoldTheirResponse
  intro s tag l n h hn
  refine ⟨fun h1 h255 hs ha hr ht hc => ?_, fun hbad => laneTest_refused h tag l hn (by simp [laneTestBad, hbad]),
    fun h1 h255 hbad => laneTest_refused h tag l hn ?_, fun c h1 h255 hs ha hr ht hc hu => laneTest_refused h tag l hn ?_,
    fun b hb => onlyReplies_refused (c := .laneTest tag (b :: le16 n)) rfl h rfl (by simp only [laneAt_none hb])⟩
  · have hgood : laneTestBad s.begin l n = none := by
      have : laneTestBad s.begin l n = laneTestBad s l n := rfl
      rw [this]
      unfold laneTestBad
      rw [if_neg (by omega), if_neg (by simp [hs]), if_neg (by simp [ha, hr, ht])]
      cases hcard : s.cardOnLane l with
      | none => rfl
      | some c => simp [hc c hcard]
    refine ⟨_, exec_held (c := .laneTest tag (byte l.val :: le16 n)) (u := startTest s.begin l n) (l := l) rfl h rfl ?_, ?_, ?_,
      fun k hk => ?_, ?_, by simp [startTest], by simp [startTest]⟩
    · simp only [laneAt_byte, numAt16_laneTest _ hn, hgood]
    · simp [startTest]
    · simp only [State.lane, pump_lanes, State.respondHeld_lanes, startTest, State.emit_lanes]
      exact State.lane_modLane_self s.begin l _
    · simp only [State.lane, pump_lanes, State.respondHeld_lanes, startTest, State.emit_lanes]
      exact (State.lane_modLane s.begin l k _).trans (if_neg (fun e => hk e.symm))
    · simp [SameBlocks, startTest]
  · unfold laneTestBad
    rw [if_neg (by omega)]
    rcases hbad with hbad | hbad
    · rw [if_pos hbad]
    · rw [if_pos hbad]; split <;> rfl
  · unfold laneTestBad
    rw [if_neg (by omega), if_neg (by simp [hs]), if_neg (by simp [ha, hr, ht]), hc]
    simp [hu]

/-- Settles O26: the setting by `setSupplies_supplyOn`, the two masks by their bits, the frames by `sendCardSupplies_eq`. -/
theorem supplyIsClamped : Obligations.SupplyIsClamped := by
  unfold Obligations.SupplyIsClamped
  intro s tag mask h
  have hmask : ∀ p, numAt32 (le32 mask.toNat ++ p) 0 = mask.toNat := fun p => numAt32_le32 mask.isLt p
  refine ⟨fun on => ?_, fun v hv => ?_⟩
  · have hon : yesNo? (byteAt (le32 mask.toNat ++ [yesNo on]) 4) = some on := yesNo?_yesNo on
    have hsites := maskSites_sorted mask.toNat
    generalize hu : setSupplies s.begin (maskSites mask.toNat) on = u
    have hsupply : ∀ v, u.supplyOn v = if mask.toNat.testBit v.val then
        on && (s.siteEntry v).enabled && s.sitePresence v == .present else s.supplyOn v := fun v => by
      rw [← hu, setSupplies_supplyOn]
      simp only [mem_maskSites, maySupply, Bool.and_assoc]
      rfl
    have hueq : u = { s.begin with guard := { s.guard with supply := u.guard.supply } } := hu ▸ setSupplies_eq _ _ _
    have hout : u.out = [] := by rw [hueq]; rfl
    generalize ha : (if on then (maskSites mask.toNat).filter (fun t => u.supplyOn t) else maskSites mask.toNat) = applied
    have happlied : applied.Pairwise (· < ·) := by rw [← ha]; split; exacts [hsites.filter _, hsites]
    have hmem : ∀ v, v ∈ applied ↔ mask.toNat.testBit v.val = true ∧ (on = true → u.supplyOn v = true) := fun v => by
      rw [← ha]; cases on <;> simp
    have hexec : exec (.supply tag (le32 mask.toNat ++ [yesNo on])) s =
        .next (pump (((changedCards s.begin u).foldl sendCardSupply u).respond tag 0x07#8 .ok
          (le32 (siteMask applied) ++
            le32 (siteMask ((maskSites mask.toNat).filter (fun t => !(t ∈ applied))))))) := by
      refine exec_ok (c := .supply tag (le32 mask.toNat ++ [yesNo on])) rfl h rfl ?_
      simp only [hon, hmask, hu, ha]
    have hleft : ((maskSites mask.toNat).filter (fun t => !(t ∈ applied))).Pairwise (· < ·) := hsites.filter _
    rw [sendCardSupplies_eq] at hexec
    have hsupply' : ∀ v, (pump (State.respond { u with out := u.out ++ (changedCards s.begin u).flatMap (supplyFrames u) }
        tag 0x07#8 .ok (le32 (siteMask applied) ++
          le32 (siteMask ((maskSites mask.toNat).filter (fun t => !(t ∈ applied))))))).supplyOn v = u.supplyOn v :=
      fun v => by simp only [State.supplyOn, pump_guard, State.respond_guard]
    refine ⟨_, _, _, hexec, ?_, siteMask_lt happlied, siteMask_lt hleft, fun v => (hsupply' v).trans (hsupply v), fun v => ⟨?_, ?_⟩, ?_, ?_, fun hsame => ?_,
      fun c ln hl hc hch => ?_⟩
    · simp only [Answered, pump_responses, State.respond_trunk]; rw [hueq]; rfl
    · rw [hsupply' v, testBit_siteMask happlied, Bool.eq_iff_iff]
      simp only [decide_eq_true_eq, hmem, Bool.and_eq_true, Bool.or_eq_true, Bool.not_eq_true']
      cases on <;> simp
    · rw [hsupply' v, testBit_siteMask hleft, Bool.eq_iff_iff]
      simp only [decide_eq_true_eq, List.mem_filter, mem_maskSites, Bool.not_eq_true', decide_eq_false_iff_not, hmem,
        Bool.and_eq_true]
      cases on <;> simp +contextual
    · simp only [SameBlocks, pump_tables, pump_matrix, pump_ctxs, pump_queue, pump_guard, pump_panel, pump_lanes,
        pump_markHigh, State.respond_tables, State.respond_matrix, State.respond_ctxs, State.respond_queue,
        State.respond_guard, State.respond_panel, State.respond_lanes, State.respond_markHigh]
      rw [hueq]
      exact ⟨rfl, rfl, rfl, rfl, rfl, rfl, rfl, rfl⟩
    · simp only [pump_attn, State.respond_trunk]; rw [hueq]; rfl
    · have hsame' : ∀ v, u.supplyOn v = s.begin.supplyOn v := fun v => (hsupply' v).symm.trans (hsame v)
      have hnone : changedCards s.begin u = [] := by simp [changedCards, hsame']
      simp [hnone, hout]
    · obtain ⟨v, hv, hne⟩ := hch
      have hchanged : c ∈ changedCards s.begin u := by
        simp only [changedCards, allCards, allSites, List.mem_filter, List.mem_finRange, true_and, List.any_eq_true,
          Bool.and_eq_true, beq_iff_eq, bne_iff_ne]
        exact ⟨v, hv, fun e => hne ((hsupply' v).trans e.symm)⟩
      have hlane : (u.cardEntry c).lane = some ln := by rw [hueq]; exact hl
      have hcard : u.laneHasCard ln = true := by rw [hueq]; exact hc
      rw [supplyMask_congr (s := u) c (by simp) (by simp)]
      simp only [pump_out, State.respond_out, hout, List.nil_append, List.mem_flatMap]
      exact ⟨c, hchanged, by simp only [supplyFrames, hlane, hcard, if_true]; exact List.mem_singleton.2 rfl⟩
  · refine onlyReplies_refused (c := .supply tag (le32 mask.toNat ++ [v])) rfl h rfl ?_
    have hbad : yesNo? (byteAt (le32 mask.toNat ++ [v]) 4) = none := by
      have h4 : byteAt (le32 mask.toNat ++ [v]) 4 = v.toNat := rfl
      rw [h4, yesNo?, if_neg (by omega), if_neg (by omega)]
    simp only [hbad]

end

