-- ==== Sys2Proof/Proofs/Frames.lean ====
section
/-!
PROOFS. Frames on a lane that are discarded or counted, the loopback test, and the next upward frame: O31, O43, O46, O48.
-/

namespace Sys2Proof.Machine

/-! ### A good frame -/

/-- A good frame changes the error count of its lane alone (R171, R176). -/
theorem goodFrame_lane (s : State) (l : LaneId) :
    ∃ n, (goodFrame s.begin l).lane l = { s.lane l with errors := n } := by
  unfold goodFrame
  split
  · exact ⟨0, State.lane_modLane_self _ _ _⟩
  · exact ⟨(s.lane l).errors, rfl⟩

/-- No other lane is touched. -/
theorem goodFrame_lane_ne (s : State) {l k : LaneId} (h : k ≠ l) : (goodFrame s.begin l).lane k = s.lane k := by
  unfold goodFrame
  split
  · exact (State.lane_modLane _ _ _ _).trans (if_neg (Ne.symm h))
  · rfl

/-- What the lanes' states, partners and channels say is the same after a good frame. -/
theorem goodFrame_same (s : State) (l k : LaneId) :
    ((goodFrame s.begin l).lane k).state = (s.lane k).state ∧ ((goodFrame s.begin l).lane k).partner = (s.lane k).partner ∧
      ((goodFrame s.begin l).lane k).channels = (s.lane k).channels ∧
      ((goodFrame s.begin l).lane k).phase = (s.lane k).phase := by
  by_cases hk : k = l
  · obtain ⟨n, hn⟩ := goodFrame_lane s l
    subst hk
    rw [hn]
    exact ⟨rfl, rfl, rfl, rfl⟩
  · rw [goodFrame_lane_ne s hk]
    exact ⟨rfl, rfl, rfl, rfl⟩

@[simp] theorem goodFrame_state (s : State) (l k : LaneId) :
    ((goodFrame s.begin l).lane k).state = (s.lane k).state := (goodFrame_same s l k).1

@[simp] theorem goodFrame_partner (s : State) (l k : LaneId) :
    ((goodFrame s.begin l).lane k).partner = (s.lane k).partner := (goodFrame_same s l k).2.1

@[simp] theorem goodFrame_channels (s : State) (l k : LaneId) :
    ((goodFrame s.begin l).lane k).channels = (s.lane k).channels := (goodFrame_same s l k).2.2.1

@[simp] theorem goodFrame_phase (s : State) (l k : LaneId) :
    ((goodFrame s.begin l).lane k).phase = (s.lane k).phase := (goodFrame_same s l k).2.2.2

@[simp] theorem goodFrame_laneHasInstrument (s : State) (l k : LaneId) :
    (goodFrame s.begin l).laneHasInstrument k = s.laneHasInstrument k := by simp [State.laneHasInstrument]

@[simp] theorem goodFrame_laneHasCard (s : State) (l k : LaneId) :
    (goodFrame s.begin l).laneHasCard k = s.laneHasCard k := by simp [State.laneHasCard]

/-- A good frame changes no block but the lanes. -/
theorem goodFrame_eq (s : State) (l : LaneId) :
    goodFrame s.begin l = { s.begin with lanes := (goodFrame s.begin l).lanes } := by
  unfold goodFrame; split <;> rfl

@[simp] theorem goodFrame_ctx (s : State) (l : LaneId) (x : Bus) : (goodFrame s.begin l).ctx x = s.ctx x := by
  rw [goodFrame_eq]; rfl

@[simp] theorem goodFrame_readingBus (s : State) (l : LaneId) (ch : Byte) :
    readingBus (goodFrame s.begin l) l ch = readingBus s l ch := by rw [goodFrame_eq]; rfl

@[simp] theorem goodFrame_sourceBusOn (s : State) (l : LaneId) (ch : Byte) :
    sourceBusOn (goodFrame s.begin l) l ch = sourceBusOn s l ch := by rw [goodFrame_eq]; rfl

/-- A frame whose meaning ends at the good frame only counts as one. -/
theorem onlyCountsGood_of {c : Instr} {s : State} {l : LaneId} (h : exec c s = .next (goodFrame s.begin l)) :
    OnlyCountsGood c s l := by rw [OnlyCountsGood, ← goodFrame_begin, h]

/-- A byte above 1 is no yes or no (R197). -/
theorem yesNo?_none {v : Nat} (h : 2 ≤ v) : yesNo? v = none := by
  unfold yesNo?; rw [if_neg (by omega), if_neg (by omega)]

/-- A TRIP out of place is discarded (R54, R197). -/
theorem trip_discarded {s : State} {l : LaneId} {a b : Byte}
    (h : s.laneHasInstrument l = false ∨ (s.lane l).channels.val ≤ a.toNat ∨ 2 ≤ b.toNat) :
    OnlyCountsGood (.trip l a b) s l := by
  apply onlyCountsGood_of
  simp only [exec, execTrip, goodFrame_laneHasInstrument, goodFrame_channels]
  split
  · next hc =>
    simp only [Bool.and_eq_true, decide_eq_true_eq] at hc
    rcases h with h | h | h
    · exact absurd hc.1 (by simp [h])
    · omega
    · rw [yesNo?_none h]; split
      · next heq => exact absurd heq (by simp)
      · rfl
  · rfl

/-- An ACK out of place is discarded (R50, R197). -/
theorem ack_discarded {s : State} {l : LaneId} {a b : Byte} (h : s.laneHasInstrument l = false ∨ 2 ≤ b.toNat) :
    OnlyCountsGood (.ack l a b) s l := by
  apply onlyCountsGood_of
  simp only [exec, execAck, goodFrame_laneHasInstrument]
  rcases h with h | h
  · simp [h]
  · rw [yesNo?_none h]
    split
    · split
      · next heq => exact absurd heq (by simp)
      · rfl
    · rfl

/-- A reading that reaches no bus is discarded (R76). -/
theorem reading_unreached {s : State} {l : LaneId} {ch : Byte}
    (h : s.laneHasInstrument l = false ∨ readingBus s l ch = none) (tt idx range : Byte) (raw : BitVec 24) :
    OnlyCountsGood (.reading l ch tt idx range raw) s l := by
  apply onlyCountsGood_of
  simp only [exec, execReading, goodFrame_laneHasInstrument, goodFrame_readingBus]
  rcases h with h | h
  · simp [h]
  · rw [h]; split <;> rfl

/-- A reading that is not of the current take, not counted or a repetition is not used (R75, R76). -/
theorem readingUse_discarded {c : Ctx} {tt : Byte} {i : Nat}
    (h : c.state ≠ .measuring ∨ c.takeTag ≠ tt ∨ ∀ stag sel n lim k d timeout hold,
      c.step = some ⟨stag, .measure sel n lim k d timeout hold⟩ → i < d ∨ d + k ≤ i ∨ ∃ m ∈ c.acc, m.index = i) :
    readingUse c tt i = .discarded := by
  unfold readingUse
  split
  · next stag sel n lim k d timeout hold cap hstep hcap =>
    refine if_neg (fun ⟨hm, ht, hd, hk, hall⟩ => ?_)
    rcases h with h | h | h
    · exact h hm
    · exact h ht
    · rcases h _ _ _ _ _ _ _ _ hstep with h | h | ⟨m, hm, he⟩
      · omega
      · omega
      · exact absurd (List.all_eq_true.1 hall m hm) (by simp [he])
  · rfl

/-- A reading that is counted (R75, R76). -/
theorem readingUse_counted {c : Ctx} {tt : Byte} {i : Nat} {stag : Half} {sel : Selection} {n : Net} {lim : Fin 256}
    {k d timeout : Nat} {hold : Bool} {cap : Capture} (hstep : c.step = some ⟨stag, .measure sel n lim k d timeout hold⟩)
    (hcap : c.captured = some cap) (hm : c.state = .measuring) (ht : c.takeTag = tt) (hd : d ≤ i) (hk : i < d + k)
    (hnew : ∀ m ∈ c.acc, m.index ≠ i) : readingUse c tt i = .counted cap d (k ≤ c.acc.length + 1) := by
  unfold readingUse
  rw [hstep, hcap]
  exact if_pos ⟨hm, ht, hd, hk, List.all_eq_true.2 (fun m hmem => by simpa using hnew m hmem)⟩

/-- A counted reading adds its sample, and ends the take where it is the last (R76, R78). -/
theorem exec_reading_counted {s : State} {l : LaneId} {ch tt idx range : Byte} {raw : BitVec 24} {x : Bus} {cap : Capture}
    {d : Nat} {last : Bool} (hl : s.laneHasInstrument l = true) (hb : readingBus s l ch = some x)
    (hu : readingUse (s.ctx x) tt idx.toNat = .counted cap d last) :
    exec (.reading l ch tt idx range raw) s =
      .next (if last then finish (completeTake ((goodFrame s.begin l).modCtx x
          (fun c => { c with acc := c.acc ++ [sampleFrom cap idx.toNat range raw] })) x cap d)
        else (goodFrame s.begin l).modCtx x (fun c => { c with acc := c.acc ++ [sampleFrom cap idx.toNat range raw] })) := by
  simp only [exec, execReading, goodFrame_laneHasInstrument, goodFrame_readingBus, goodFrame_ctx, hl, hb, hu, if_true]
  cases last <;> rfl

/-! ### The loopback test (R184) -/

/-- The event that a returned frame or the return timer is. -/
theorem exec_testFrame (s : State) (l : LaneId) (matched : Bool) (h : (s.lane l).state = .test) :
    exec (if matched then .testFrame l (testFrameBytes (byte ((s.lane l).testSent + 1))) else .testReturnTimeout l) s =
      .next (pump (testFrameOver s.begin l matched)) := by
  have h' : (s.begin.lane l).state = .test := h
  cases matched with
  | false => simp only [Bool.false_eq_true, if_false, exec, execTestReturnTimeout, h', if_true]
  | true =>
    have hbytes : testFrameBytes (byte ((s.lane l).testSent + 1)) = testFrameBytes (byte ((s.begin.lane l).testSent + 1)) :=
      rfl
    simp only [if_true, exec, execTestFrame, h', hbytes, and_self, if_true]

/-! ### The transmitter (R189, R195) -/

/-- What a free transmitter starts (R189, R195, R151). -/
theorem pump_starts {s : State} (h : s.trunk.tx = none) :
    (s.trunk.attn.highest ≠ s.trunk.lastReported → (pump s).trunk = s.trunk.sendAttention) ∧
      (s.trunk.attn.highest = s.trunk.lastReported →
        (∀ r rest, s.trunk.responses = r :: rest → r.heldBy = none →
          (pump s).trunk = { s.trunk with tx := some (.response r) }) ∧
        ((s.trunk.responses = [] ∨ ∃ r rest, s.trunk.responses = r :: rest ∧ r.heldBy ≠ none) →
          (∀ q rest, s.queue.records = q :: rest → s.trunk.flowHold = false → (pump s).trunk = s.trunk.sendResult q) ∧
          (s.queue.records = [] ∨ s.trunk.flowHold = true → (pump s).trunk = s.trunk))) := by
  have hp : (pump s).trunk = s.trunk.start s.queue.records := by rw [pump_free h]; rfl
  refine ⟨fun hd => ?_, fun hd => ⟨fun r rest hr hheld => ?_, fun hr => ⟨fun q rest hq hf => ?_, fun hn => ?_⟩⟩⟩
  · rw [hp, Trunk.start.eq_def, if_pos (by simpa [Trunk.attentionDue] using hd)]
  · rw [hp, Trunk.start.eq_def, if_neg (by simp [Trunk.attentionDue, hd]),
      (by rw [hr]; rfl : s.trunk.responses.head? = some r)]
    simp [hheld]
  · rw [hp, Trunk.start.eq_def, if_neg (by simp [Trunk.attentionDue, hd]), hq]
    rcases hr with hr | ⟨r, rest, hr, hheld⟩
    · simp [hr, hf]
    · simp [hr, hheld, hf]
  · rw [hp, Trunk.start.eq_def, if_neg (by simp [Trunk.attentionDue, hd])]
    rcases hr with hr | ⟨r, rest, hr, hheld⟩
    · rw [hr]
      cases hq : s.queue.records with
      | nil => rfl
      | cons q rest => simp [(hn.resolve_left (by simp [hq]) : s.trunk.flowHold = true)]
    · rw [hr]
      cases hq : s.queue.records with
      | nil => simp [hheld]
      | cons q rest => simp [hheld, (hn.resolve_left (by simp [hq]) : s.trunk.flowHold = true)]

/-- FRAME_SENT with a frame in the transmitter (R189). -/
theorem exec_frameSent {s : State} {f : TxFrame} (h : s.trunk.tx = some f) :
    exec .frameSent s = .next (finish (frameDone s.begin)) := by
  have h' : s.begin.trunk.tx = some f := h
  simp only [exec, execFrameSent, h', Option.isNone_some, Bool.false_eq_true, if_false]

/-- The response list when a frame has been sent: a response leaves its head (R189; log 10). -/
def TxFrame.leaves : TxFrame → List Resp → List Resp
  | .response _, l => l.tail
  | _, l => l

/-- A frame that is no RESULT leaves the transmitter free, and a response the list (R189). -/
theorem frameDone_other {s : State} {f : TxFrame} (h : s.trunk.tx = some f) (hf : ∀ seq r b, f ≠ .result seq r b) :
    frameDone s = s.modTrunk (fun t => { t with tx := none, responses := f.leaves t.responses }) := by
  unfold frameDone
  rw [h]
  cases f with
  | attention a b c => rfl
  | response r => rfl
  | result seq r b => exact absurd rfl (hf seq r b)

end Sys2Proof.Machine

open Sys2Proof Sys2Proof.Machine

/-- Settles O31: the frame that was sent by `frameDone_other`, the one that starts by `pump_starts`. -/
theorem frameSentStartsTheNextFrame : Obligations.FrameSentStartsTheNextFrame := by
  unfold Obligations.FrameSentStartsTheNextFrame
  refine fun s => ⟨fun h => ?_, fun f hf hno hq hp => ?_⟩
  · have h' : s.begin.trunk.tx = none := h
    simp only [DoesNothing, exec, execFrameSent, h', Option.isNone_none, if_true]
    rfl
  · have hexec := exec_frameSent hf
    rw [frameDone_other (s := s.begin) hf hno] at hexec
    generalize hu : s.begin.modTrunk (fun t => { t with tx := none, responses := f.leaves t.responses }) = u at hexec
    have htrunk : u.trunk = { s.trunk with tx := none, responses := f.leaves s.trunk.responses } := by
      rw [← hu]; rfl
    have hsame : SameBlocks s u := by rw [← hu]; simp [SameBlocks]
    have hpanel : u.panel.state ≠ .closing := by rw [← hu]; exact hp
    have hquiet : Quiesced u := by rw [← hu]; exact hq
    rw [finish_open hquiet hpanel] at hexec
    have hfree : u.trunk.tx = none := by rw [htrunk]
    obtain ⟨hdue, hnot⟩ := pump_starts hfree
    have hrecords : u.queue = s.queue := hsame.2.2.2.1
    rw [hrecords] at hnot
    refine ⟨_, hexec, ?_, by rw [pump_responses, htrunk]; cases f <;> rfl, fun hd => ?_, fun hd => ?_⟩
    · obtain ⟨h1, h2, h3, h4, h5, h6, h7, h8⟩ := hsame
      exact ⟨by rw [pump_tables, h1], by rw [pump_matrix, h2], by rw [pump_ctxs, h3], by rw [pump_queue, h4],
        by rw [pump_guard, h5], by rw [pump_panel, h6], by rw [pump_lanes, h7], by rw [pump_markHigh, h8]⟩
    · rw [hdue (by rw [htrunk]; exact hd), htrunk]
      exact ⟨rfl, rfl, rfl⟩
    · obtain ⟨hready, hresult⟩ := hnot (by rw [htrunk]; exact hd)
      rw [pump_responses]
      refine ⟨fun r rest hr hheld => by rw [hready r rest hr hheld], fun hr => ?_⟩
      obtain ⟨hsend, hnone⟩ := hresult hr
      refine ⟨fun q rest hq hflow => ?_, fun hn => ?_⟩
      · rw [hsend q rest hq (by rw [htrunk]; exact hflow), htrunk]
        exact ⟨rfl, rfl⟩
      · rw [hnone (by rw [htrunk]; exact hn), hfree]

/-- Settles O43: a reading that is not used, and one that is counted and not the last. -/
theorem readingsAreCounted : Obligations.ReadingsAreCounted := by
  unfold Obligations.ReadingsAreCounted
  intro s l ch tt idx range raw
  refine ⟨fun h => reading_unreached h tt idx range raw, fun x hb h => ?_, ?_⟩
  · exact onlyCountsGood_of_discarded hb (readingUse_discarded (h.imp_right .inl)) range raw
  · intro x stag sel n lim k d timeout hold cap hl hb hstep hcap
    refine ⟨fun h => onlyCountsGood_of_discarded hb (readingUse_discarded (.inr (.inr ?_))) range raw,
      fun hm ht hd hk hnew hmore => ?_⟩
    · intro stag' sel' n' lim' k' d' timeout' hold' hstep'
      obtain ⟨rfl, rfl⟩ : k' = k ∧ d' = d := by
        have := hstep.symm.trans hstep'
        simp only [Option.some.injEq, Step.mk.injEq, Work.measure.injEq] at this
        exact ⟨this.2.2.2.2.1.symm, this.2.2.2.2.2.1.symm⟩
      exact h
    · have hexec := exec_reading_counted (range := range) (raw := raw) hl hb
        (readingUse_counted hstep hcap hm ht hd hk hnew)
      rw [if_neg (by simpa using hmore)] at hexec
      refine ⟨_, hexec, ?_, ?_, fun y hy => ?_, ?_⟩
      · rw [State.ctx_modCtx_self, goodFrame_ctx]; rfl
      · rw [goodFrame_eq]; exact ⟨rfl, rfl, rfl, rfl, rfl, rfl, rfl, rfl⟩
      · rw [State.ctx_modCtx, if_neg (Ne.symm hy), goodFrame_ctx]
      · rw [State.modCtx_out, goodFrame_eq]; rfl

/-- Settles O46: each frame by the guard of its meaning. -/
theorem laneFramesOutOfPlaceAreDiscarded : Obligations.LaneFramesOutOfPlaceAreDiscarded := by
  unfold Obligations.LaneFramesOutOfPlaceAreDiscarded
  intro s l a b c d
  refine ⟨trip_discarded, ack_discarded, fun h => onlyCountsGood_of ?_, fun h => onlyCountsGood_of ?_,
    fun h => onlyCountsGood_of ?_, fun h => onlyCountsGood_of ?_, fun h bytes => ?_⟩
  · simp only [exec, execProbe, goodFrame_state, h, if_false]
  · simp only [exec, execIdent, goodFrame_state, goodFrame_phase, h, if_false]
  · simp only [exec, execCleared, goodFrame_state, goodFrame_phase, h, if_false]
  · simp only [exec, execResync, goodFrame_state, h, if_false]
  · have h' : (s.begin.lane l).state ≠ .test := h
    simp only [DoesNothing, exec, execTestFrame, h', false_and, if_false]
    rfl

/-- Settles O48: the frame is over, with another to come or with the test's end. -/
theorem testFramesCount : Obligations.TestFramesCount := by
  unfold Obligations.TestFramesCount
  intro s l matched c ht hc
  have hexec := exec_testFrame s l matched ht
  rw [← hc] at hexec
  have hst : (s.begin.lane l) = s.lane l := rfl
  refine ⟨fun hmore => ?_, fun hlast => ?_, fun bytes hb => ?_⟩
  · have hover : testFrameOver s.begin l matched = (s.begin.setLane l { s.lane l with
        testSent := (s.lane l).testSent + 1
        testMatched := (s.lane l).testMatched + if matched then 1 else 0 }).emit l
          (.test (byte ((s.lane l).testSent + 2))) := by
      unfold testFrameOver
      simp only [hst]
      rw [if_neg (Nat.not_le.2 hmore)]
      cases matched <;> rfl
    rw [hover] at hexec
    refine ⟨_, hexec, ?_, by simp, by simp, fun k hk => ?_, by simp [SameBlocks]⟩
    · simp only [State.lane, pump_lanes, State.emit_lanes]
      exact State.lane_setLane_self _ _ _
    · simp only [State.lane, pump_lanes, State.emit_lanes]
      exact (State.lane_setLane _ _ _ _).trans (if_neg (Ne.symm hk))
  · have hover : testFrameOver s.begin l matched = enterDetect (endTest (s.begin.setLane l { s.lane l with
        testSent := (s.lane l).testSent + 1
        testMatched := (s.lane l).testMatched + if matched then 1 else 0 }) l) l := by
      unfold testFrameOver
      simp only [hst]
      rw [if_pos hlast]
      cases matched <;> rfl
    have hend : ∀ u : State, (u.lane l).state = .test →
        endTest u l = (completeHeld u l (u.lane l).testData).modLane l Lane.noTest := fun u hu => by
      simp only [endTest, hu, if_true]
    rw [hover, hend _ (by rw [State.lane_setLane_self]; exact ht), State.lane_setLane_self] at hexec
    refine ⟨_, hexec, ?_, ?_, ?_, ?_, fun k hk => ?_, ?_⟩
    · simp only [State.lane, pump_lanes, enterDetect, State.emit_lanes]
      exact congrArg Lane.state (State.lane_modLane_self _ _ _)
    · simp only [State.lane, pump_lanes, enterDetect, State.emit_lanes]
      exact congrArg Lane.partner (State.lane_modLane_self _ _ _)
    · simp [enterDetect, completeHeld]
    · simp [enterDetect, completeHeld, Lane.testData]
    · simp only [State.lane, pump_lanes, enterDetect, State.emit_lanes]
      refine (State.lane_modLane _ l k _).trans ((if_neg (Ne.symm hk)).trans ?_)
      refine (State.lane_modLane _ l k _).trans ((if_neg (Ne.symm hk)).trans ?_)
      exact (State.lane_setLane _ l k _).trans (if_neg (Ne.symm hk))
    · simp [SameBlocks, enterDetect, completeHeld]
  · have hb' : bytes ≠ testFrameBytes (byte ((s.begin.lane l).testSent + 1)) := hb
    simp only [DoesNothing, exec, execTestFrame, hb', and_false, if_false]
    rfl

end

