-- ==== Sys2Proof/Proofs/Entries.lean ====
section
/-!
PROOFS. One entry of each table, and a write of two entries: O16, O17, O19, O20, O21.
-/

-- One proof after another: in the joined text each worker would hold a stack of its own.
set_option Elab.async false

namespace Sys2Proof.Machine

/-! ### One entry of a write (R187, R190) -/

/-- The payload of a TABLE WRITE with the entries `g` from index `i` on (spec/12). -/
abbrev writePayload (code r : Byte) (i : Nat) (g : List Byte) : List Byte := [code, r] ++ le16 i ++ g

section
variable {s : State} {code size : Nat} {b r : Byte} {i : Nat} {g : List Byte} {tag : Half}
  {take : State → Nat → List Byte → EntryAns} {after : State → State}

/-- The header of a write. -/
theorem writePayload_fields (b r : Byte) (g : List Byte) (hi : i < 65536) :
    byteAt (writePayload b r i g) 0 = b.toNat ∧ numAt16 (writePayload b r i g) 2 = i ∧
      (writePayload b r i g).length = 4 + g.length ∧ ∀ size pos, writeBytes (writePayload b r i g) size pos =
        (g.drop (pos * size)).take size := by
  refine ⟨rfl, ?_, by simp; omega, fun size pos => ?_⟩
  · simp only [writePayload, numAt16, le16, List.cons_append, List.nil_append, byteAt_zero, byteAt_succ, byte_toNat]
    omega
  · rw [writeBytes, ← List.drop_drop]; rfl

/-- A write of whole entries, up to 1000 bytes of them, has a length that fits (R190). -/
theorem writePayload_fits {n : Nat} (b r : Byte) (i : Nat) (hg : g.length = n * size) (hn : 0 < n) (hs : 0 < size)
    (hsize : n * size ≤ 1000) :
    writeCount (writePayload b r i g) size = n ∧ writeLengthFits (writePayload b r i g) size = true := by
  have hlen : (writePayload b r i g).length = 4 + n * size := by simp [hg]; omega
  have hpos : 0 < n * size := Nat.mul_pos hn hs
  refine ⟨by rw [writeCount, hlen, Nat.add_sub_cancel_left, Nat.mul_div_cancel _ hs], ?_⟩
  unfold writeLengthFits
  rw [hlen, Nat.add_sub_cancel_left, Nat.mul_mod_left]
  simp only [Bool.and_eq_true, decide_eq_true_eq, beq_self_eq_true]
  exact ⟨⟨by omega, trivial⟩, by omega⟩

/-- A write of whole entries begins with its first one (R190). -/
theorem takeWrite_first (h : HasRoom s) (hb : b.toNat = code) (hc : code ≤ 8) (hi : i < 65536)
    (hfit : writeLengthFits (writePayload b r i g) size = true) :
    takeWrite s code size tag (writePayload b r i g) 0 take after =
      writeEntry s tag (writePayload b r i g) size 0 take after := by
  obtain ⟨hcode, -, hlen, -⟩ := writePayload_fields b r g hi
  rw [takeWrite, if_pos rfl, if_neg (Nat.not_le.2 h), if_neg (by omega), if_neg (by omega), if_neg (by omega), hfit]
  rfl

/-- The first refused entry stops a write (R190). -/
theorem writeEntry_refused {pos : Nat} {p : List Byte} {st : Status}
    (ht : take s (numAt16 p 2 + pos) (writeBytes p size pos) = .refused st) :
    writeEntry s tag p size pos take after = pump (s.putWrite tag p pos (writeDone tag st pos)) := by
  rw [writeEntry, ht]

/-- An applied entry completes the write or leaves it waiting for the next (R190). -/
theorem writeEntry_applied {pos : Nat} {p : List Byte} {u : State}
    (ht : take s (numAt16 p 2 + pos) (writeBytes p size pos) = .applied u) :
    writeEntry s tag p size pos take after = after (u.putWrite tag p pos
      (if writeCount p size ≤ pos + 1 then writeDone tag .ok (pos + 1) else writeHeld tag p (pos + 1))) := by
  rw [writeEntry, ht]

/-- A write of one entry takes it (R187, R190). -/
theorem takeWrite_one (h : HasRoom s) (hb : b.toNat = code) (hc : code ≤ 8) (hi : i < 65536) (hg : g.length = size)
    (hs : 0 < size) (hsize : size ≤ 1000) :
    takeWrite s code size tag (writePayload b r i g) 0 take after =
        writeEntry s tag (writePayload b r i g) size 0 take after ∧
      take s (numAt16 (writePayload b r i g) 2 + 0) (writeBytes (writePayload b r i g) size 0) = take s i g ∧
      writeCount (writePayload b r i g) size = 1 := by
  obtain ⟨hcount, hfit⟩ := writePayload_fits (n := 1) b r i (hg.trans (Nat.one_mul _).symm) (by decide) hs (by omega)
  obtain ⟨-, hindex, -, hbytes⟩ := writePayload_fields b r g hi
  refine ⟨takeWrite_first h hb hc hi hfit, ?_, hcount⟩
  rw [hindex, hbytes, Nat.zero_mul, List.drop_zero, List.take_of_length_le (le_of_eq hg), Nat.add_zero]

variable {c : Instr} (hexec : exec c s = .next (takeWrite s.begin code size tag (writePayload b r i g) 0 take after))
include hexec

/-- A refused entry is answered with its status and 0 entries applied, and nothing else is done (R190). -/
theorem onlyReplies_entry (h : HasRoom s) (hb : b.toNat = code) (hc : code ≤ 8) (hi : i < 65536) (hg : g.length = size)
    (hs : 0 < size) (hsize : size ≤ 1000) {st : Status} (ht : take s.begin i g = .refused st) :
    OnlyReplies c s tag 0x02#8 st (le16 0) :=
  have ⟨hone, htake, _⟩ := takeWrite_one (s := s.begin) (r := r) (tag := tag) (take := take) (after := after) h hb hc hi hg
    hs hsize
  onlyReplies_of (by rw [hexec, hone, writeEntry_refused (htake.trans ht)]; rfl)

/-- An applied entry is answered OK with 1 entry applied (R190). -/
theorem exec_entry (h : HasRoom s) (hb : b.toNat = code) (hc : code ≤ 8) (hi : i < 65536) (hg : g.length = size)
    (hs : 0 < size) (hsize : size ≤ 1000) {u : State} (ht : take s.begin i g = .applied u) :
    exec c s = .next (after (u.respond tag 0x02#8 .ok (le16 1))) := by
  obtain ⟨hone, htake, hcount⟩ := takeWrite_one (s := s.begin) (r := r) (tag := tag) (take := take) (after := after) h hb
    hc hi hg hs hsize
  rw [hexec, hone, writeEntry_applied (htake.trans ht), hcount]
  rfl

end

/-- An applied entry without consequences: the answer, the blocks it leaves, and no attention (R190). -/
theorem entry_written {s u w : State} {c : Instr} {tag : Half}
    (hexec : exec c s = .next (pump (u.respond tag 0x02#8 .ok (le16 1)))) (hw : SameBlocks w u)
    (htrunk : u.trunk = s.trunk) : ∃ t, exec c s = .next t ∧ Answered s t tag 0x02#8 .ok (le16 1) ∧ SameBlocks w t ∧
      t.trunk.attn = s.trunk.attn ∧ t.out = u.out :=
  ⟨_, hexec, by simp [Answered, htrunk], by simpa [SameBlocks] using hw, by simp [htrunk], by simp⟩

/-! ### Decoding what was written (spec/12) -/

@[simp] theorem fin?_val {n : Nat} (i : Fin n) : fin? n i.val = some i := by simp [fin?]

/-- A number beyond its range is none of it. -/
theorem fin?_none {n v : Nat} (h : n ≤ v) : fin? n v = none := by simp [fin?, Nat.not_lt.2 h]

theorem siteEntry?_bytes (e : SiteEntry) : siteEntry? e.bytes = some e := by
  have h1 : e.col.val % 256 = e.col.val := by omega
  have h2 : e.row.val % 256 = e.row.val := by omega
  have h3 : e.block.val % 256 = e.block.val := by omega
  simp [siteEntry?, SiteEntry.bytes, h1, h2, h3]

/-- A SITE entry with a field out of range is none (R5, R197). -/
theorem siteEntry?_none {g : List Byte} (h : 2 ≤ byteAt g 0 ∨ 8 ≤ byteAt g 1 ∨ 8 ≤ byteAt g 2 ∨ 32 ≤ byteAt g 3) :
    siteEntry? g = none := by
  rw [Option.eq_none_iff_forall_ne_some]
  intro e he
  simp only [siteEntry?, Option.bind_eq_bind, Option.bind_eq_some_iff] at he
  obtain ⟨_, h0, _, h1, _, h2, _, h3, -⟩ := he
  rcases h with h | h | h | h
  · rw [yesNo?_none h] at h0; exact absurd h0 (by simp)
  · rw [fin?_none h] at h1; exact absurd h1 (by simp)
  · rw [fin?_none h] at h2; exact absurd h2 (by simp)
  · rw [fin?_none h] at h3; exact absurd h3 (by simp)

/-- The offsets of an entry fit where R11's field checks hold. -/
theorem offsetsFit_iff (e : NetEntry) :
    offsetsFit e.pinCount.val e.offsets[0] e.offsets[1] e.offsets[2] e.offsets[3] = true ↔
      (∀ i j : Fin 4, i < j → j.val < e.pinCount.val → e.offsets[i] ≠ e.offsets[j]) ∧
        ∀ i : Fin 4, e.pinCount.val ≤ i.val → e.offsets[i] = 0 := by
  obtain ⟨⟨n, hn⟩, o, k, t⟩ := e
  interval_cases n <;> simp [offsetsFit, Fin.forall_fin_succ]

/-- A NET entry is read as it was written but for its last check (R11). -/
theorem netEntry?_bytes_eq (e : NetEntry) (hs : e.settle < 65536) :
    netEntry? e.bytes =
      if e.settle ≤ 2000 ∧ offsetsFit e.pinCount.val e.offsets[0] e.offsets[1] e.offsets[2] e.offsets[3] = true then some e
      else none := by
  have h0 : e.pinCount.val % 256 = e.pinCount.val := by omega
  have h1 : e.offsets[0].val % 256 = e.offsets[0].val := by omega
  have h2 : e.offsets[1].val % 256 = e.offsets[1].val := by omega
  have h3 : e.offsets[2].val % 256 = e.offsets[2].val := by omega
  have h4 : e.offsets[3].val % 256 = e.offsets[3].val := by omega
  have hkind : netKind? e.kind.code.toNat = some e.kind := by cases e.kind <;> rfl
  have hsettle : numAt16 e.bytes 6 = e.settle := by
    simp only [NetEntry.bytes, numAt16, le16, List.cons_append, List.nil_append, byteAt_zero, byteAt_succ, byte_toNat]
    omega
  have hoffsets : #v[e.offsets[0], e.offsets[1], e.offsets[2], e.offsets[3]] = e.offsets := by
    ext i hi
    interval_cases i <;> rfl
  have hbytes : (byteAt e.bytes 0 = e.pinCount.val ∧ byteAt e.bytes 1 = e.offsets[0].val ∧
      byteAt e.bytes 2 = e.offsets[1].val ∧ byteAt e.bytes 3 = e.offsets[2].val ∧ byteAt e.bytes 4 = e.offsets[3].val) ∧
      byteAt e.bytes 5 = e.kind.code.toNat := by
    simp [NetEntry.bytes, h0, h1, h2, h3, h4]
  obtain ⟨⟨hb0, hb1, hb2, hb3, hb4⟩, hb5⟩ := hbytes
  simp only [netEntry?, hb0, hb1, hb2, hb3, hb4, hb5, hkind, hsettle, fin?_val, Option.bind_eq_bind, Option.bind_some,
    hoffsets]

/-- A NET entry is read as it was written where R11 takes it. -/
theorem netEntry?_bytes {e : NetEntry} (h : e.InRange) : netEntry? e.bytes = some e := by
  obtain ⟨hs, ho⟩ := h
  rw [netEntry?_bytes_eq e (by omega), if_pos ⟨hs, (offsetsFit_iff e).2 ho⟩]

/-- A NET entry that R11 does not take is refused. -/
theorem netEntry?_bytes_none {e : NetEntry} (hs : e.settle < 65536) (h : ¬ e.InRange) : netEntry? e.bytes = none := by
  rw [netEntry?_bytes_eq e hs, if_neg (fun ⟨h1, h2⟩ => h ⟨h1, (offsetsFit_iff e).1 h2⟩)]

/-- A NET entry with a field out of range is none (R11, R197). -/
theorem netEntry?_none {g : List Byte} (h : 5 ≤ byteAt g 0 ∨ 8 ≤ byteAt g 1 ∨ 8 ≤ byteAt g 2 ∨ 8 ≤ byteAt g 3 ∨
    8 ≤ byteAt g 4 ∨ 3 ≤ byteAt g 5) : netEntry? g = none := by
  have hkind : 3 ≤ byteAt g 5 → netKind? (byteAt g 5) = none := fun h => by
    obtain ⟨k, hk⟩ := Nat.exists_eq_add_of_le' h
    rw [hk]
    rfl
  rw [Option.eq_none_iff_forall_ne_some]
  intro e he
  simp only [netEntry?, Option.bind_eq_bind, Option.bind_eq_some_iff] at he
  obtain ⟨_, h0, _, h1, _, h2, _, h3, _, h4, _, h5, -⟩ := he
  rcases h with h | h | h | h | h | h
  · rw [fin?_none h] at h0; exact absurd h0 (by simp)
  · rw [fin?_none h] at h1; exact absurd h1 (by simp)
  · rw [fin?_none h] at h2; exact absurd h2 (by simp)
  · rw [fin?_none h] at h3; exact absurd h3 (by simp)
  · rw [fin?_none h] at h4; exact absurd h4 (by simp)
  · rw [hkind h] at h5; exact absurd h5 (by simp)

/-! ### The checks of the SITE and the NET table -/

theorem siteInUse_iff (s : State) (u : Site) (e : SiteEntry) : siteInUse s u e = true ↔ SiteInUse s u e := by
  simp only [siteInUse, SiteInUse, State.blockInUse, allBuses, Bool.or_eq_true, Bool.and_eq_true, List.any_eq_true,
    List.mem_finRange, true_and, bne_iff_ne, ne_eq, beq_iff_eq, Bool.not_eq_true', or_assoc]

theorem siteClash_iff (s : State) (u : Site) (e : SiteEntry) : siteClash s u e = true ↔ SiteClashes s u e := by
  simp only [siteClash, SiteClashes, allSites, Bool.or_eq_true, Bool.and_eq_true, List.any_eq_true, List.mem_finRange,
    true_and, bne_iff_ne, ne_eq, beq_iff_eq, and_assoc]

theorem netInUse_iff (s : State) (n : Net) : netInUse s n = true ↔ NetInUse s n := by
  simp only [netInUse, NetInUse, allBuses, Bool.and_eq_true, List.any_eq_true, List.mem_finRange, true_and, bne_iff_ne,
    ne_eq, beq_iff_eq, and_assoc]

/-- Writing an entry over itself changes nothing. -/
theorem modTables_sites_self (s : State) (u : Site) :
    s.modTables (fun k => { k with sites := k.sites.set u (s.siteEntry u) }) = s := by
  have : s.tables.sites.set u (s.siteEntry u) = s.tables.sites := Vector.set_getElem_self _
  simp only [State.modTables, this]

theorem modTables_nets_self (s : State) (n : Net) :
    s.modTables (fun k => { k with nets := k.nets.set n (s.netEntry n) }) = s := by
  have : s.tables.nets.set n (s.netEntry n) = s.tables.nets := Vector.set_getElem_self _
  simp only [State.modTables, this]

/-- A SITE entry that nothing bars is applied (R5 to R7). -/
theorem takeSite_applied {s : State} {u : Site} {e : SiteEntry}
    (h : e = s.siteEntry u ∨ (¬ SiteInUse s u e ∧ ¬ SiteClashes s u e)) :
    takeSite s u.val e.bytes = .applied (s.modTables (fun k => { k with sites := k.sites.set u e })) := by
  simp only [takeSite, fin?_val, siteEntry?_bytes]
  by_cases he : e = s.siteEntry u
  · rw [if_pos he, he, modTables_sites_self]
  · obtain ⟨hu, hc⟩ := h.resolve_left he
    rw [if_neg he, if_neg (mt (siteInUse_iff s u e).1 hu), if_neg (mt (siteClash_iff s u e).1 hc)]

/-- A NET entry that nothing bars is applied (R11, R12). -/
theorem takeNet_applied {s : State} {n : Net} {e : NetEntry} (hr : e.InRange) (h : e = s.netEntry n ∨ ¬ NetInUse s n) :
    takeNet s n.val e.bytes = .applied (s.modTables (fun k => { k with nets := k.nets.set n e })) := by
  simp only [takeNet, fin?_val, netEntry?_bytes hr]
  by_cases he : e = s.netEntry n
  · rw [if_pos he, he, modTables_nets_self]
  · rw [if_neg he, if_neg (mt (netInUse_iff s n).1 (h.resolve_left he))]

/-! ### The CARD table (R37, R165) -/

/-- The bytes of a CARD entry. -/
theorem cardEntry?_bytes_eq (e : CardEntry) (hw : e.wearLimit < 4294967296) :
    cardEntry? e.bytes = if 16777215 < e.wearLimit then none else some e := by
  have hlimit : numAt32 e.bytes 1 = e.wearLimit := by
    simp only [CardEntry.bytes, numAt32, numAt16, le32, byteAt_zero, byteAt_succ, byte_toNat]
    omega
  unfold cardEntry?
  simp only [hlimit]
  split
  · rfl
  · obtain ⟨lane, limit⟩ := e
    cases lane with
    | none => rfl
    | some l =>
      have h0 : byteAt (CardEntry.bytes ⟨some l, limit⟩) 0 = l.val := by
        simp only [CardEntry.bytes, Option.map_some, orNone8, byteAt_zero, byte_toNat]; omega
      rw [if_neg (by rw [h0]; omega), h0, fin?_val]
      rfl

/-- A CARD entry with a lane that is none and not NONE is refused (R37). -/
theorem cardEntry?_none {g : List Byte} (h : 8 ≤ byteAt g 0) (hn : byteAt g 0 ≠ 255) : cardEntry? g = none := by
  unfold cardEntry?
  dsimp only
  split
  · rfl
  · simp only [fin?_none h, Option.map_none]

/-- Blocks that become UNKNOWN, one after another. -/
theorem foldl_setPresence (l : List (Fin 8)) (c : CardId) (v : Presence) (s : State) (b : Block) :
    (l.foldl (fun s k => s.setPresence (blockOnCard c k) v) s).blockPresence b =
      if ∃ k ∈ l, blockOnCard c k = b then v else s.blockPresence b := by
  induction l generalizing s with
  | nil => simp
  | cons k l ih =>
    rw [List.foldl_cons, ih, State.blockPresence_setPresence]
    by_cases hl : ∃ j ∈ l, blockOnCard c j = b
    · rw [if_pos hl, if_pos (by obtain ⟨j, hj, e⟩ := hl; exact ⟨j, List.mem_cons_of_mem _ hj, e⟩)]
    · rw [if_neg hl]
      by_cases hk : blockOnCard c k = b
      · rw [if_pos hk, if_pos ⟨k, List.mem_cons_self, hk⟩]
      · rw [if_neg hk, if_neg]
        rintro ⟨j, hj, e⟩
        rcases List.mem_cons.1 hj with rfl | hj
        · exact hk e
        · exact hl ⟨j, hj, e⟩

/-- Supplies that go OFF, one after another. -/
theorem foldl_setSupply (l : List Site) (v : Bool) (s : State) (u : Site) :
    (l.foldl (fun s t => s.setSupply t v) s).supplyOn u = if u ∈ l then v else s.supplyOn u := by
  induction l generalizing s with
  | nil => simp
  | cons t l ih =>
    rw [List.foldl_cons, ih, State.supplyOn_setSupply]
    by_cases hl : u ∈ l
    · simp [hl]
    · by_cases ht : t = u
      · simp [hl, ht]
      · simp [hl, ht, Ne.symm ht]

/-- The eight blocks of a card are those that it serves (R2). -/
theorem exists_blockOnCard (c : CardId) (b : Block) : (∃ k : Fin 8, blockOnCard c k = b) ↔ cardOfBlock b = c := by
  constructor
  · rintro ⟨k, rfl⟩
    exact Fin.ext (by simp only [cardOfBlock, blockOnCard]; omega)
  · intro h
    have hb := congrArg Fin.val h
    simp only [cardOfBlock] at hb
    exact ⟨⟨b.val % 8, by omega⟩, Fin.ext (by simp only [blockOnCard]; omega)⟩

/-- The powered sites of a card are those on its blocks whose supply is ON (R165). -/
theorem mem_poweredOnCard {s : State} {c : CardId} {u : Site} :
    u ∈ poweredOnCard s c ↔ s.supplyOn u = true ∧ ∃ b, cardOfBlock b = c ∧ s.siteOnBlock b = some u := by
  simp only [poweredOnCard, List.mem_filterMap, List.mem_finRange, true_and]
  constructor
  · rintro ⟨k, hk⟩
    split at hk
    · next t ht =>
      split at hk
      · next hon =>
        cases hk
        exact ⟨hon, _, (exists_blockOnCard c _).1 ⟨k, rfl⟩, ht⟩
      · exact absurd hk (by simp)
    · exact absurd hk (by simp)
  · rintro ⟨hon, b, hb, hs⟩
    obtain ⟨k, rfl⟩ := (exists_blockOnCard c b).2 hb
    exact ⟨k, by simp [hs, hon]⟩

/-- A card that can no longer report loses its blocks and its supplies, and nothing else (R165). -/
theorem cardBlocksLost_eq (s : State) (c : CardId) :
    cardBlocksLost s c = { s with guard := { s.guard with
      presence := (cardBlocksLost s c).guard.presence, supply := (cardBlocksLost s c).guard.supply } } := by
  have hp : ∀ (l : List (Fin 8)) (u : State), l.foldl (fun s k => s.setPresence (blockOnCard c k) .unknown) u =
      { u with guard := { u.guard with
        presence := (l.foldl (fun s k => s.setPresence (blockOnCard c k) .unknown) u).guard.presence } } := by
    intro l
    induction l with
    | nil => exact fun _ => rfl
    | cons k l ih => intro u; rw [List.foldl_cons, ih]; rfl
  have hs : ∀ (l : List Site) (u : State), l.foldl (fun s t => s.setSupply t false) u =
      { u with guard := { u.guard with supply := (l.foldl (fun s t => s.setSupply t false) u).guard.supply } } := by
    intro l
    induction l with
    | nil => exact fun _ => rfl
    | cons k l ih => intro u; rw [List.foldl_cons, ih]; rfl
  unfold cardBlocksLost
  dsimp only
  rw [hs, hp]

theorem cardBlocksLost_presence (s : State) (c : CardId) (b : Block) :
    (cardBlocksLost s c).blockPresence b = if cardOfBlock b = c then .unknown else s.blockPresence b := by
  have hs : ∀ (l : List Site) (u : State), (l.foldl (fun s t => s.setSupply t false) u).blockPresence b =
      u.blockPresence b := by
    intro l
    induction l with
    | nil => exact fun _ => rfl
    | cons k l ih => intro u; rw [List.foldl_cons, ih]; rfl
  unfold cardBlocksLost
  dsimp only
  rw [hs, foldl_setPresence]
  simp only [List.mem_finRange, true_and, exists_blockOnCard]

theorem cardBlocksLost_supply (s : State) (c : CardId) (u : Site) :
    (cardBlocksLost s c).supplyOn u = if u ∈ poweredOnCard s c then false else s.supplyOn u := by
  have hp : ∀ (l : List (Fin 8)) (w : State),
      (l.foldl (fun s k => s.setPresence (blockOnCard c k) .unknown) w).supplyOn u = w.supplyOn u := by
    intro l
    induction l with
    | nil => exact fun _ => rfl
    | cons k l ih => intro w; rw [List.foldl_cons, ih]; rfl
  unfold cardBlocksLost
  dsimp only
  rw [foldl_setSupply, hp]

/-- The supplies on a lost card are OFF; the others stand (R165). -/
theorem cardBlocksLost_supplyOn {s t : State} {c : CardId} (h : ∀ u, t.supplyOn u =
    if u ∈ poweredOnCard s c then false else s.supplyOn u) :
    (∀ (b : Block) (u : Site), cardOfBlock b = c → s.siteOnBlock b = some u → t.supplyOn u = false) ∧
      ∀ u : Site, (∀ b, cardOfBlock b = c → s.siteOnBlock b ≠ some u) → t.supplyOn u = s.supplyOn u := by
  refine ⟨fun b u hb hu => ?_, fun u hu => ?_⟩
  · rw [h]
    cases hon : s.supplyOn u with
    | true => rw [if_pos (mem_poweredOnCard.2 ⟨hon, b, hb, hu⟩)]
    | false => split <;> rfl
  · rw [h, if_neg (fun hm => ?_)]
    obtain ⟨-, b, hb, hs⟩ := mem_poweredOnCard.1 hm
    exact hu b hb hs

/-- What applying a CARD entry leaves, and sends on the card's old lane (R37, R165). -/
theorem applyCard_sameLane {s : State} {c : CardId} {e : CardEntry} (h : e.lane = (s.cardEntry c).lane) :
    applyCard s c e = s.modTables (fun k => { k with cards := k.cards.set c e }) := by
  unfold applyCard
  exact if_pos h

/-- The SUPPLY frame to a card that loses its lane (R165). -/
def oldLaneFrames (s : State) (c : CardId) : List (LaneId × LaneFrame) :=
  match (s.cardEntry c).lane with
  | some l => if !(poweredOnCard s c).isEmpty && s.laneHasCard l then [(l, .supply 0#8)] else []
  | none => []

/-- A change of lane: the frame on the old lane, then the card's blocks and supplies are lost (R37, R165). -/
theorem applyCard_otherLane {s : State} {c : CardId} {e : CardEntry} (h : e.lane ≠ (s.cardEntry c).lane) :
    applyCard s c e = cardBlocksLost { s.modTables (fun k => { k with cards := k.cards.set c e }) with
      out := s.out ++ oldLaneFrames s c } c := by
  unfold applyCard oldLaneFrames
  rw [if_neg h]
  cases (s.cardEntry c).lane with
  | none => simp [State.modTables]
  | some l =>
    have hcard : (s.modTables (fun k => { k with cards := k.cards.set c e })).laneHasCard l = s.laneHasCard l := rfl
    simp only [sendSupply, hcard, Bool.and_eq_true]
    by_cases hp : (!(poweredOnCard s c).isEmpty) = true
    · by_cases hl : s.laneHasCard l = true
      · rw [if_pos hp, if_pos hl, if_pos ⟨hp, hl⟩]; rfl
      · rw [if_pos hp, if_neg hl, if_neg fun h => hl h.2, List.append_nil]; rfl
    · rw [if_neg hp, if_neg fun h => hp h.1, List.append_nil]; rfl

/-- One CARD entry is taken where the checks of R37 pass. -/
theorem takeCard_applied {s : State} {c : CardId} {e : CardEntry} (hw : e.wearLimit ≤ 16777215)
    (h : e = s.cardEntry c ∨ ((∀ d, d ≠ c → e.lane ≠ none → (s.cardEntry d).lane ≠ e.lane) ∧
      (e.lane = (s.cardEntry c).lane ∨ s.cardInUse c = false))) :
    takeCard s c.val e.bytes = .applied (applyCard s c e) := by
  simp only [takeCard, fin?_val, cardEntry?_bytes_eq e (by omega), if_neg (show ¬ 16777215 < e.wearLimit by omega)]
  by_cases he : e = s.cardEntry c
  · have hself : s.modTables (fun k => { k with cards := k.cards.set c e }) = s := by
      rw [he]; simp [State.modTables, State.cardEntry]
    rw [if_pos he, applyCard_sameLane (by rw [he]), hself]
  · obtain ⟨hlane, huse⟩ := h.resolve_left he
    rw [if_neg he, if_neg ?_, if_neg ?_]
    · rintro ⟨hne, hin⟩
      simp [huse.resolve_left hne] at hin
    · simp only [Bool.and_eq_true, List.any_eq_true, bne_iff_ne, beq_iff_eq, Option.isSome_iff_ne_none]
      rintro ⟨hn, d, -, hd, hl⟩
      exact hlane d hd hn hl

/-! ### The plain tables (R110, R124, R130, R105, R38) -/

theorem scaleEntry?_bytes (e : ScaleEntry) : scaleEntry? e.bytes = some e := by
  have hs : e.shift.val % 256 = e.shift.val := by omega
  have hu : e.unit.val % 256 = e.unit.val := by omega
  have hgain : numAt16 e.bytes 0 = e.gain.toNat := numAt16_le16 e.gain.isLt _
  have hoffset : numAt32 e.bytes 4 = e.offset.toNat := by
    have := e.offset.isLt
    simp only [ScaleEntry.bytes, numAt32, numAt16, le16, le32, List.cons_append, List.nil_append, byteAt_zero,
      byteAt_succ, byte_toNat]
    omega
  have h2 : byteAt e.bytes 2 = e.shift.val := hs ▸ byte_toNat _
  have h3 : byteAt e.bytes 3 = e.unit.val := hu ▸ byte_toNat _
  simp only [scaleEntry?, h2, h3, fin?_val, hgain, hoffset, Option.bind_eq_bind, Option.bind_some, BitVec.ofNat_toNat,
    BitVec.setWidth_eq]

theorem scaleEntry?_none {g : List Byte} (h : 25 ≤ byteAt g 2 ∨ 16 ≤ byteAt g 3) : scaleEntry? g = none := by
  rw [Option.eq_none_iff_forall_ne_some]
  intro e he
  simp only [scaleEntry?, Option.bind_eq_bind, Option.bind_eq_some_iff] at he
  obtain ⟨_, h2, _, h3, -⟩ := he
  rcases h with h | h
  · rw [fin?_none h] at h2; exact absurd h2 (by simp)
  · rw [fin?_none h] at h3; exact absurd h3 (by simp)

theorem limitEntry?_bytes_eq (e : LimitEntry) (hg : e.guardBand < 4294967296) :
    limitEntry? e.bytes =
      if e.guardBand ≤ 2147483647 ∧ ¬ (e.mode = .both ∧ e.high.toInt < e.low.toInt) then some e else none := by
  have hr : e.row.val % 256 = e.row.val := by omega
  have hmode : limitMode? (byteAt e.bytes 0) = some e.mode := by
    rw [show byteAt e.bytes 0 = e.mode.code.toNat from rfl]; cases e.mode <;> rfl
  have h1 : byteAt e.bytes 1 = e.row.val := hr ▸ byte_toNat _
  have hlow : numAt32 e.bytes 2 = e.low.toNat := by
    have := e.low.isLt
    simp only [LimitEntry.bytes, numAt32, numAt16, le32, List.cons_append, List.nil_append, byteAt_zero,
      byteAt_succ, byte_toNat]
    omega
  have hhigh : numAt32 e.bytes 6 = e.high.toNat := by
    have := e.high.isLt
    simp only [LimitEntry.bytes, numAt32, numAt16, le32, List.cons_append, List.nil_append, byteAt_zero,
      byteAt_succ, byte_toNat]
    omega
  have hband : numAt32 e.bytes 10 = e.guardBand := by
    simp only [LimitEntry.bytes, numAt32, numAt16, le32, List.cons_append, List.nil_append, byteAt_zero,
      byteAt_succ, byte_toNat]
    omega
  simp only [limitEntry?, hmode, h1, hlow, hhigh, hband, fin?_val, Option.bind_eq_bind, Option.bind_some,
    BitVec.ofNat_toNat, BitVec.setWidth_eq]

theorem limitEntry?_none {g : List Byte} (h : 4 ≤ byteAt g 0 ∨ 16 ≤ byteAt g 1) : limitEntry? g = none := by
  have hmode : 4 ≤ byteAt g 0 → limitMode? (byteAt g 0) = none := fun h => by
    obtain ⟨k, hk⟩ := Nat.exists_eq_add_of_le' h
    rw [hk]
    rfl
  rw [Option.eq_none_iff_forall_ne_some]
  intro e he
  simp only [limitEntry?, Option.bind_eq_bind, Option.bind_eq_some_iff] at he
  obtain ⟨_, h0, _, h1, -⟩ := he
  rcases h with h | h
  · rw [hmode h] at h0; exact absurd h0 (by simp)
  · rw [fin?_none h] at h1; exact absurd h1 (by simp)

theorem dispEntry?_bytes (e : DispEntry) : dispEntry? e.bytes = some e := by
  have hb : e.bin.val % 256 = e.bin.val := by omega
  have h0 : byteAt e.bytes 0 = e.bin.val := hb ▸ byte_toNat _
  have h1 : action? (byteAt e.bytes 1) = some e.action := by
    rw [show byteAt e.bytes 1 = e.action.code.toNat from rfl]; cases e.action <;> rfl
  have h2 : yesNo? (byteAt e.bytes 2) = some e.attention := yesNo?_yesNo _
  simp only [dispEntry?, h0, h1, h2, fin?_val, Option.bind_eq_bind, Option.bind_some]

theorem dispEntry?_none {g : List Byte} (h : 64 ≤ byteAt g 0 ∨ 3 ≤ byteAt g 1 ∨ 2 ≤ byteAt g 2) :
    dispEntry? g = none := by
  have haction : 3 ≤ byteAt g 1 → action? (byteAt g 1) = none := fun h => by
    obtain ⟨k, hk⟩ := Nat.exists_eq_add_of_le' h
    rw [hk]
    rfl
  rw [Option.eq_none_iff_forall_ne_some]
  intro e he
  simp only [dispEntry?, Option.bind_eq_bind, Option.bind_eq_some_iff] at he
  obtain ⟨_, h0, _, h1, _, h2, -⟩ := he
  rcases h with h | h | h
  · rw [fin?_none h] at h0; exact absurd h0 (by simp)
  · rw [haction h] at h1; exact absurd h1 (by simp)
  · rw [yesNo?_none h] at h2; exact absurd h2 (by simp)

theorem markEntry?_bytes (e : MarkEntry) : markEntry? e.bytes = some e := by
  have hb : e.bus.val % 256 = e.bus.val := by omega
  have ht : e.site.val % 256 = e.site.val := by omega
  have h0 : yesNo? (byteAt e.bytes 0) = some e.enabled := yesNo?_yesNo _
  have h1 : byteAt e.bytes 1 = e.bus.val := hb ▸ byte_toNat _
  have h2 : byteAt e.bytes 2 = e.site.val := ht ▸ byte_toNat _
  simp only [markEntry?, h0, h1, h2, fin?_val, Option.bind_eq_bind, Option.bind_some]

theorem markEntry?_none {g : List Byte} (h : 2 ≤ byteAt g 0 ∨ 8 ≤ byteAt g 1 ∨ 32 ≤ byteAt g 2) :
    markEntry? g = none := by
  rw [Option.eq_none_iff_forall_ne_some]
  intro e he
  simp only [markEntry?, Option.bind_eq_bind, Option.bind_eq_some_iff] at he
  obtain ⟨_, h0, _, h1, _, h2, -⟩ := he
  rcases h with h | h | h
  · rw [yesNo?_none h] at h0; exact absurd h0 (by simp)
  · rw [fin?_none h] at h1; exact absurd h1 (by simp)
  · rw [fin?_none h] at h2; exact absurd h2 (by simp)

theorem wear?_bytes {w : Nat} (h : w < 4294967296) : wear? (le32 w) = if w ≤ 16777215 then some w else none := by
  have : numAt32 (le32 w) 0 = w := by simpa using numAt32_le32 h []
  simp only [wear?, this, maxWear]

theorem takeScale_applied (s : State) (n : Fin 32) (e : ScaleEntry) :
    takeScale s n.val e.bytes = .applied (s.modTables (fun k => { k with scales := k.scales.set n e })) := by
  simp only [takeScale, fin?_val, scaleEntry?_bytes]

theorem takeLimit_applied (s : State) (n : Fin 256) {e : LimitEntry} (hg : e.guardBand < 4294967296) (hr : e.InRange) :
    takeLimit s n.val e.bytes = .applied (s.modTables (fun k => { k with limits := k.limits.set n e })) := by
  have hread : limitEntry? e.bytes = some e := (limitEntry?_bytes_eq e hg).trans (if_pos hr)
  simp only [takeLimit, fin?_val, hread]

theorem takeDisp_applied (s : State) (n : Fin 80) (e : DispEntry) :
    takeDisp s n.val e.bytes = .applied (s.modTables (fun k => { k with disps := k.disps.set n e })) := by
  simp only [takeDisp, fin?_val, dispEntry?_bytes]

theorem takeMark_applied (s : State) (e : MarkEntry) :
    takeMark s 0 e.bytes = .applied (s.modTables (fun k => { k with mark := e })) := by
  simp only [takeMark, markEntry?_bytes, ne_eq, not_true, if_false]

/-- One WEAR entry: the count of one crosspoint's record (R38). -/
theorem takeWear_applied (s : State) (x : Bus) (p : Pt) {w : Nat} (h : w ≤ 16777215) :
    takeWear s (256 * x.val + p.val) (le32 w) = .applied (s.setXp x p { s.xp x p with wear := w }) := by
  have := x.isLt; have := p.isLt
  unfold takeWear
  rw [if_neg (by omega), wear?_bytes (by omega), if_pos h]
  rfl

/-- An entry of a table without consequences is answered, and its table holds it (R190). -/
theorem entry_taken {s : State} {code size i : Nat} {b r : Byte} {g : List Byte} {tag : Half} {c : Instr}
    {take : State → Nat → List Byte → EntryAns} {f : Tables → Tables}
    (hexec : exec c s = .next (takeWrite s.begin code size tag (writePayload b r i g) 0 take pump)) (h : HasRoom s)
    (hb : b.toNat = code) (hc : code ≤ 8) (hi : i < 65536) (hg : g.length = size) (hs : 0 < size) (hsize : size ≤ 1000)
    (ht : take s.begin i g = .applied (s.begin.modTables f)) :
    ∃ t, exec c s = .next t ∧ Answered s t tag 0x02#8 .ok (le16 1) ∧ SameBlocks { s with tables := f s.tables } t := by
  obtain ⟨t, hexec, ha, hb, -, -⟩ := entry_written (w := { s with tables := f s.tables })
    (exec_entry hexec h hb hc hi hg hs hsize ht) (by simp [SameBlocks]) rfl
  exact ⟨t, hexec, ha, hb⟩

/-! ### The next entry of a write (R188, R190) -/

/-- The first response that is named is replaced where it stands. -/
theorem replaceFirst_append {which : Resp → Bool} {new r : Resp} {l m : List Resp} (hl : ∀ q ∈ l, which q = false)
    (hr : which r = true) : replaceFirst which new (l ++ r :: m) = l ++ new :: m := by
  induction l with
  | nil => simp [replaceFirst, hr]
  | cons q l ih =>
    have hq := hl q List.mem_cons_self
    rw [List.cons_append, replaceFirst, ih fun q hm => hl q (List.mem_cons_of_mem _ hm), hq, if_neg Bool.false_ne_true, List.cons_append]

/-- The held response of a write is the one that waits for its next entry. -/
theorem writeHeld_awaits (tag : Half) (p : List Byte) (pos : Nat) : (writeHeld tag p pos).awaitsEntry tag p pos = true := by
  simp [Resp.awaitsEntry, writeHeld]

/-- A write that waits for its entry takes it (R187; log 9). -/
theorem takeWrite_next {s : State} {code size pos : Nat} {tag : Half} {p : List Byte}
    {take : State → Nat → List Byte → EntryAns} {after : State → State} (h0 : pos ≠ 0) (hcode : byteAt p 0 = code)
    (hfit : writeLengthFits p size = true) (hpos : pos < writeCount p size)
    (hheld : writeHeld tag p pos ∈ s.trunk.responses) :
    takeWrite s code size tag p pos take after = writeEntry s tag p size pos take after := by
  rw [takeWrite, if_neg h0, if_pos ⟨hcode, hfit, hpos, List.any_eq_true.2 ⟨_, hheld, writeHeld_awaits tag p pos⟩⟩]

/-- The first of two SCALE entries: it is applied, and the response waits at the end of the list (R187, R188). -/
theorem exec_scale_first {s : State} {tag : Half} {r : Byte} {n : Fin 32} {e : ScaleEntry} {g : List Byte} (h : HasRoom s)
    (hg : g.length = 8) :
    ∃ t, exec (.tableWriteScale tag (writePayload 4#8 r n.val (e.bytes ++ g)) 0) s = .next t ∧
      t.trunk.responses = s.trunk.responses ++ [writeHeld tag (writePayload 4#8 r n.val (e.bytes ++ g)) 1] ∧
      SameBlocks { s with tables := { s.tables with scales := s.tables.scales.set n e } } t := by
  have hn : n.val < 65536 := by omega
  obtain ⟨hcount, hfit⟩ := writePayload_fits (g := e.bytes ++ g) (n := 2) (size := 8) 4#8 r n.val
    (by rw [List.length_append, hg]; rfl) (by decide) (by decide) (by decide)
  obtain ⟨-, hindex, -, hbytes⟩ := writePayload_fields 4#8 r (e.bytes ++ g) hn
  have htake : takeScale s.begin (numAt16 (writePayload 4#8 r n.val (e.bytes ++ g)) 2 + 0)
      (writeBytes (writePayload 4#8 r n.val (e.bytes ++ g)) 8 0) =
      .applied (s.begin.modTables (fun k => { k with scales := k.scales.set n e })) := by
    rw [hindex, hbytes, Nat.zero_mul, List.drop_zero, List.take_left' (l₁ := e.bytes) (i := 8) rfl]
    exact takeScale_applied s.begin n e
  have hexec : exec (.tableWriteScale tag (writePayload 4#8 r n.val (e.bytes ++ g)) 0) s =
    .next (takeWrite s.begin 4 8 tag _ 0 takeScale pump) := rfl
  refine ⟨_, by rw [hexec, takeWrite_first (s := s.begin) (code := 4) h rfl (by decide) hn hfit,
    writeEntry_applied htake, hcount], by simp [State.putWrite_responses], ?_⟩
  simp [SameBlocks, State.putWrite, State.modTrunk, State.modTables]

section
variable {s : State} {tag : Half} {r : Byte} {i : Nat} {e g : List Byte} {old more : List Resp} (hi : i < 65536)
  (he : e.length = 8) (hg : g.length = 8)
  (hold : ∀ q ∈ old, q.awaitsEntry tag (writePayload 4#8 r i (e ++ g)) 1 = false)
  (hs : s.trunk.responses = old ++ writeHeld tag (writePayload 4#8 r i (e ++ g)) 1 :: more)
include hs

include hold in
/-- The waiting response of a write is replaced at its place (R188). -/
theorem putWrite_replaces (u : State) (hu : u.trunk = s.trunk) (q : Resp) :
    (pump (u.putWrite tag (writePayload 4#8 r i (e ++ g)) 1 q)).trunk.responses = old ++ q :: more := by
  rw [pump_responses, State.putWrite_responses, if_neg (by decide), hu, hs,
    replaceFirst_append hold (writeHeld_awaits tag _ 1)]

include hi he hg

/-- The second of two SCALE entries is taken while the response of the first waits (R188, R190). -/
theorem exec_scale_second :
    exec (.tableWriteScale tag (writePayload 4#8 r i (e ++ g)) 1) s =
        .next (writeEntry s.begin tag (writePayload 4#8 r i (e ++ g)) 8 1 takeScale pump) ∧
      takeScale s.begin (numAt16 (writePayload 4#8 r i (e ++ g)) 2 + 1) (writeBytes (writePayload 4#8 r i (e ++ g)) 8 1) =
        takeScale s.begin (i + 1) g ∧
      writeCount (writePayload 4#8 r i (e ++ g)) 8 = 2 := by
  obtain ⟨hcount, hfit⟩ := writePayload_fits (g := e ++ g) (n := 2) (size := 8) 4#8 r i
    (by rw [List.length_append, he, hg]) (by decide) (by decide) (by decide)
  obtain ⟨hcode, hindex, -, hbytes⟩ := writePayload_fields 4#8 r (e ++ g) hi
  have hheld : writeHeld tag (writePayload 4#8 r i (e ++ g)) 1 ∈ s.begin.trunk.responses :=
    hs ▸ List.mem_append_right _ List.mem_cons_self
  have hexec : exec (.tableWriteScale tag (writePayload 4#8 r i (e ++ g)) 1) s =
    .next (takeWrite s.begin 4 8 tag _ 1 takeScale pump) := rfl
  refine ⟨?_, ?_, hcount⟩
  · rw [hexec, takeWrite_next (s := s.begin) (code := 4) (by decide) hcode hfit (by rw [hcount]; decide) hheld]
  · rw [hindex, hbytes, Nat.one_mul, List.drop_left' he, List.take_of_length_le (le_of_eq hg)]

include hold

/-- An applied second entry completes the response with 2 applied (R190). -/
theorem scale_second_applied {n : Fin 32} {e' : ScaleEntry} (hn : n.val = i + 1) (hg' : g = e'.bytes) :
    ∃ t, exec (.tableWriteScale tag (writePayload 4#8 r i (e ++ g)) 1) s = .next t ∧
      t.trunk.responses = old ++ ⟨tag, 0x02#8, .ok, le16 2, none⟩ :: more ∧
      SameBlocks { s with tables := { s.tables with scales := s.tables.scales.set n e' } } t := by
  obtain ⟨hexec, htake, hcount⟩ := exec_scale_second hi he hg hs
  have happlied : takeScale s.begin (i + 1) g = .applied (s.begin.modTables (fun k => { k with scales := k.scales.set n e' })) := by
    rw [← hn, hg', takeScale_applied]
  refine ⟨_, by rw [hexec, writeEntry_applied (htake.trans happlied), hcount]; rfl,
    putWrite_replaces hold hs (s.begin.modTables (fun k => { k with scales := k.scales.set n e' })) rfl _, ?_⟩
  simp [SameBlocks, State.putWrite, State.modTrunk, State.modTables]

/-- A refused second entry completes the response with 1 applied (R190). -/
theorem scale_second_refused {n : Fin 32} (hn : n.val = i + 1) (hbad : scaleEntry? g = none) :
    ∃ t, exec (.tableWriteScale tag (writePayload 4#8 r i (e ++ g)) 1) s = .next t ∧
      t.trunk.responses = old ++ ⟨tag, 0x02#8, .badValue, le16 1, none⟩ :: more ∧ SameBlocks s t := by
  obtain ⟨hexec, htake, hcount⟩ := exec_scale_second hi he hg hs
  have hrefused : takeScale s.begin (i + 1) g = .refused .badValue := by
    rw [← hn]; simp only [takeScale, fin?_val, hbad]
  refine ⟨_, by rw [hexec, writeEntry_refused (htake.trans hrefused)]; rfl, putWrite_replaces hold hs s.begin rfl _, ?_⟩
  simp [SameBlocks, State.putWrite, State.modTrunk]

end

end Sys2Proof.Machine

open Sys2Proof Sys2Proof.Machine

/-- Settles O16: the entry is applied by `takeSite_applied`, and refused by the check that stops it. -/
theorem siteEntriesAreWritten : Obligations.SiteEntriesAreWritten := by
  unfold Obligations.SiteEntriesAreWritten
  intro s tag r u e h
  have hu : u.val < 65536 := by omega
  refine ⟨fun hok => ?_, fun hne huse => ?_, fun hne huse hclash => ?_, fun g hg hbad => ?_, fun i hi hi' => ?_⟩
  · have hexec := exec_entry (c := .tableWriteSite tag (writePayload 0#8 r u.val e.bytes) 0) (take := takeSite) (size := 4) rfl h rfl
      (by decide) hu rfl (by decide) (by decide) (takeSite_applied (s := s.begin) hok)
    obtain ⟨t, ht, ha, hb, hattn, -⟩ := entry_written
      (w := { s with tables := { s.tables with sites := s.tables.sites.set u e } }) hexec (by simp [SameBlocks]) rfl
    have hsites : t.tables.sites = s.tables.sites.set u e := by rw [hb.1]
    refine ⟨t, ht, ha, ?_, fun v hv => ?_, by rw [hsites]; exact hb, hattn⟩
    · simp [State.siteEntry, hsites]
    · simp only [State.siteEntry, hsites]
      exact Vector.getElem_set_ne _ _ (fun e => hv (Fin.ext e.symm))
  · refine onlyReplies_entry (take := takeSite) (size := 4) rfl h rfl (by decide) hu rfl (by decide) (by decide) ?_
    have hne' : e ≠ s.begin.siteEntry u := hne
    have huse' : siteInUse s.begin u e = true := (siteInUse_iff s u e).2 huse
    simp only [takeSite, fin?_val, siteEntry?_bytes, if_neg hne', if_pos huse']
  · refine onlyReplies_entry (take := takeSite) (size := 4) rfl h rfl (by decide) hu rfl (by decide) (by decide) ?_
    have hne' : e ≠ s.begin.siteEntry u := hne
    have huse' : ¬ siteInUse s.begin u e = true := mt (siteInUse_iff s u e).1 huse
    have hclash' : siteClash s.begin u e = true := (siteClash_iff s u e).2 hclash
    simp only [takeSite, fin?_val, siteEntry?_bytes, if_neg hne', if_neg huse', if_pos hclash']
  · exact onlyReplies_entry (take := takeSite) (size := 4) rfl h rfl (by decide) hu hg (by decide) (by decide)
      (by simp only [takeSite, fin?_val, siteEntry?_none hbad])
  · exact onlyReplies_entry (take := takeSite) (size := 4) rfl h rfl (by decide) hi' rfl (by decide) (by decide)
      (by simp only [takeSite, fin?_none hi])

/-- Settles O17: the entry is applied by `takeNet_applied`, and refused by the check that stops it. -/
theorem netEntriesAreWritten : Obligations.NetEntriesAreWritten := by
  unfold Obligations.NetEntriesAreWritten
  intro s tag r n e h hs
  have hn : n.val < 65536 := by omega
  refine ⟨fun hr hok => ?_, fun hr => ?_, fun hr hne huse => ?_, fun g hg hbad => ?_, fun i hi hi' => ?_⟩
  · have hexec := exec_entry (c := .tableWriteNet tag (writePayload 1#8 r n.val e.bytes) 0) (take := takeNet) (size := 8) rfl h rfl
      (by decide) hn rfl (by decide) (by decide) (takeNet_applied (s := s.begin) hr hok)
    obtain ⟨t, ht, ha, hb, hattn, -⟩ := entry_written
      (w := { s with tables := { s.tables with nets := s.tables.nets.set n e } }) hexec (by simp [SameBlocks]) rfl
    have hnets : t.tables.nets = s.tables.nets.set n e := by rw [hb.1]
    refine ⟨t, ht, ha, ?_, fun v hv => ?_, by rw [hnets]; exact hb, hattn⟩
    · simp [State.netEntry, hnets]
    · simp only [State.netEntry, hnets]
      exact Vector.getElem_set_ne _ _ (fun e => hv (Fin.ext e.symm))
  · exact onlyReplies_entry (take := takeNet) (size := 8) rfl h rfl (by decide) hn rfl (by decide) (by decide)
      (by simp only [takeNet, fin?_val, netEntry?_bytes_none hs hr])
  · refine onlyReplies_entry (take := takeNet) (size := 8) rfl h rfl (by decide) hn rfl (by decide) (by decide) ?_
    have hne' : e ≠ s.begin.netEntry n := hne
    have huse' : netInUse s.begin n = true := (netInUse_iff s n).2 huse
    simp only [takeNet, fin?_val, netEntry?_bytes hr, if_neg hne', if_pos huse']
  · exact onlyReplies_entry (take := takeNet) (size := 8) rfl h rfl (by decide) hn hg (by decide) (by decide)
      (by simp only [takeNet, fin?_val, netEntry?_none hbad])
  · exact onlyReplies_entry (take := takeNet) (size := 8) rfl h rfl (by decide) hi' rfl (by decide) (by decide)
      (by simp only [takeNet, fin?_none hi])

/-- Settles O19: the checks of R37 in order, and what a change of lane does (R165). -/
theorem cardEntriesAreWritten : Obligations.CardEntriesAreWritten := by
  unfold Obligations.CardEntriesAreWritten
  intro s tag r c e h hw
  have hc : c.val < 65536 := by omega
  have hread (hle : e.wearLimit ≤ 16777215) : cardEntry? e.bytes = some e := by
    rw [cardEntry?_bytes_eq e hw, if_neg (by omega)]
  refine ⟨fun hok hle => ?_, fun hbad => ?_, fun hle hne hn hother => ?_, fun hle hne hother huse => ?_,
    fun g hg hbad hn => ?_, fun i hi hi' => ?_⟩
  · have hexec := exec_entry (c := .tableWriteCard tag (writePayload 3#8 r c.val e.bytes) 0) (take := takeCard) (size := 5)
      rfl h rfl (by decide) hc rfl (by decide) (by decide)
      (takeCard_applied (s := s.begin) hle (hok.imp_right fun hok => hok.2))
    have hrun := entry_written (tag := tag) (w := applyCard s.begin c e) hexec (by simp [SameBlocks])
    by_cases hl : e.lane = (s.cardEntry c).lane
    · rw [applyCard_sameLane (s := s.begin) hl] at hrun
      obtain ⟨t, ht, ha, hb, -, hout⟩ := hrun rfl
      have htables : t.tables = { s.tables with cards := s.tables.cards.set c e } := hb.1
      obtain ⟨-, hm, hx, hq, hg, hp, hla, hmark⟩ := hb
      refine ⟨t, ht, ha, htables, ⟨rfl, hm, hx, hq, rfl, hp, hla, hmark⟩, by rw [hg]; rfl, fun _ => ⟨hg, hout⟩,
        fun hne => absurd hl hne⟩
    · rw [applyCard_otherLane (s := s.begin) hl, cardBlocksLost_eq] at hrun
      obtain ⟨t, ht, ha, hb, -, hout⟩ := hrun rfl
      obtain ⟨htables, hm, hx, hq, hg, hp, hla, hmark⟩ := hb
      have hpres (b : Block) : t.blockPresence b = if cardOfBlock b = c then .unknown else s.blockPresence b := by
        simp only [State.blockPresence, hg]
        exact cardBlocksLost_presence _ c b
      have hsup (u : Site) : t.supplyOn u = if u ∈ poweredOnCard s c then false else s.supplyOn u := by
        simp only [State.supplyOn, hg]
        exact cardBlocksLost_supply _ c u
      obtain ⟨hoff, hstand⟩ := cardBlocksLost_supplyOn hsup
      refine ⟨t, ht, ha, htables, ⟨rfl, hm, hx, hq, rfl, hp, hla, hmark⟩, by rw [hg]; rfl, fun he => absurd he hl,
        fun _ => ⟨hpres, hoff, hstand, fun l hold hcard ⟨b, u, hb, hu, hon⟩ => ?_⟩⟩
      have hpowered : (poweredOnCard s c).isEmpty = false := by
        rw [← Bool.not_eq_true, List.isEmpty_iff]
        exact List.ne_nil_of_mem (mem_poweredOnCard.2 ⟨hon, b, hb, hu⟩)
      have hout' : t.out = [] ++ oldLaneFrames s c := hout
      rw [hout', oldLaneFrames, hold]
      simp only [hpowered, hcard, Bool.not_false, Bool.and_self, if_true, List.nil_append]
  · exact onlyReplies_entry (take := takeCard) (size := 5) rfl h rfl (by decide) hc rfl (by decide) (by decide)
      (by simp only [takeCard, fin?_val, cardEntry?_bytes_eq e hw, if_pos hbad])
  · refine onlyReplies_entry (take := takeCard) (size := 5) rfl h rfl (by decide) hc rfl (by decide) (by decide) ?_
    obtain ⟨d, hd, hl⟩ := hother
    have hne' : e ≠ s.begin.cardEntry c := hne
    have hclash : (e.lane.isSome && allCards.any (fun d => d != c && (s.begin.cardEntry d).lane == e.lane)) = true := by
      simp only [Bool.and_eq_true, List.any_eq_true, bne_iff_ne, beq_iff_eq, Option.isSome_iff_ne_none]
      exact ⟨hn, d, List.mem_finRange d, hd, hl⟩
    simp only [takeCard, fin?_val, hread hle, if_neg hne', if_pos hclash]
  · refine onlyReplies_entry (take := takeCard) (size := 5) rfl h rfl (by decide) hc rfl (by decide) (by decide) ?_
    have hne' : e ≠ s.begin.cardEntry c := fun he => hne (congrArg CardEntry.lane he)
    have hclash : ¬ (e.lane.isSome && allCards.any (fun d => d != c && (s.begin.cardEntry d).lane == e.lane)) = true := by
      simp only [Bool.and_eq_true, List.any_eq_true, bne_iff_ne, beq_iff_eq, Option.isSome_iff_ne_none]
      rintro ⟨hn, d, -, hd, hl⟩
      exact hother d hd hn hl
    have huse' : e.lane ≠ (s.begin.cardEntry c).lane ∧ s.begin.cardInUse c = true := ⟨hne, huse⟩
    simp only [takeCard, fin?_val, hread hle, if_neg hne', if_neg hclash, if_pos huse']
  · exact onlyReplies_entry (take := takeCard) (size := 5) rfl h rfl (by decide) hc hg (by decide) (by decide)
      (by simp only [takeCard, fin?_val, cardEntry?_none hbad hn])
  · exact onlyReplies_entry (take := takeCard) (size := 5) rfl h rfl (by decide) hi' rfl (by decide) (by decide)
      (by simp only [takeCard, fin?_none hi])

/-- Settles O20: each table's entry is taken or refused as it reads. -/
theorem plainEntriesAreWritten : Obligations.PlainEntriesAreWritten := by
  unfold Obligations.PlainEntriesAreWritten
  intro s tag r h
  refine ⟨fun n e => ?_, fun n e hg => ⟨fun hr => ?_, fun hr => ?_⟩, fun n e => ?_, fun e => ?_,
    fun x p w hw => ⟨fun hle => ?_, fun hlt => ?_⟩, fun i g => ⟨fun hi hg hbad => ?_, fun hi hg hbad => ?_,
      fun hi hg hbad => ?_, fun hi hg hbad => ?_⟩, fun i hi => ⟨fun e hbig => ?_, fun e hbig => ?_, fun e hbig => ?_,
        fun e hbig => ?_, fun w hbig => ?_⟩⟩
  · exact entry_taken (size := 8) rfl h rfl (by decide) (by omega) rfl (by decide) (by decide)
      (takeScale_applied s.begin n e)
  · exact entry_taken (size := 14) rfl h rfl (by decide) (by omega) rfl (by decide) (by decide)
      (takeLimit_applied s.begin n hg hr)
  · have hread : limitEntry? e.bytes = none := (limitEntry?_bytes_eq e hg).trans (if_neg hr)
    exact onlyReplies_entry (take := takeLimit) (size := 14) rfl h rfl (by decide) (by omega) rfl (by decide) (by decide)
      (by simp only [takeLimit, fin?_val, hread])
  · exact entry_taken (size := 3) rfl h rfl (by decide) (by omega) rfl (by decide) (by decide)
      (takeDisp_applied s.begin n e)
  · exact entry_taken (size := 3) rfl h rfl (by decide) (by omega) rfl (by decide) (by decide)
      (takeMark_applied s.begin e)
  · obtain ⟨t, ht, ha, hb, -, -⟩ := entry_written (s := s) (tag := tag) (w := s.setXp x p { s.xp x p with wear := w })
      (exec_entry (c := .tableWriteWear tag (writePayload 7#8 r (256 * x.val + p.val) (le32 w)) 0)
        (size := 4) rfl h rfl (by decide) (by omega) rfl (by decide) (by decide) (takeWear_applied s.begin x p hle))
      ⟨rfl, rfl, rfl, rfl, rfl, rfl, rfl, rfl⟩ rfl
    have hxp (y : Bus) (q : Pt) : t.xp y q = (s.setXp x p { s.xp x p with wear := w }).xp y q := by
      simp only [State.xp, hb.2.1]
    refine ⟨t, ht, ha, by simp [hxp, State.xp_setXp], fun y q hne => ?_, ?_⟩
    · rw [hxp, State.xp_setXp, if_neg (fun he => hne ⟨he.1.symm, he.2.symm⟩)]
    · obtain ⟨htables, hm, hrest⟩ := hb
      exact ⟨htables, by rw [hm]; rfl, hrest⟩
  · exact onlyReplies_entry (take := takeWear) (size := 4) rfl h rfl (by decide) (by omega) rfl (by decide) (by decide)
      (by rw [takeWear, if_neg (by omega), wear?_bytes hw, if_neg (by omega)])
  · exact onlyReplies_entry (take := takeScale) (size := 8) rfl h rfl (by decide) (by omega) hg (by decide) (by decide)
      (by simp only [takeScale, fin?, dif_pos hi, scaleEntry?_none hbad])
  · exact onlyReplies_entry (take := takeLimit) (size := 14) rfl h rfl (by decide) (by omega) hg (by decide) (by decide)
      (by simp only [takeLimit, fin?, dif_pos hi, limitEntry?_none hbad])
  · exact onlyReplies_entry (take := takeDisp) (size := 3) rfl h rfl (by decide) (by omega) hg (by decide) (by decide)
      (by simp only [takeDisp, fin?, dif_pos hi, dispEntry?_none hbad])
  · exact onlyReplies_entry (take := takeMark) (size := 3) rfl h rfl (by decide) (by omega) hg (by decide) (by decide)
      (by simp only [takeMark, hi, markEntry?_none hbad, ne_eq, not_true, if_false])
  · exact onlyReplies_entry (take := takeScale) (size := 8) rfl h rfl (by decide) hi rfl (by decide) (by decide)
      (by simp only [takeScale, fin?_none hbig])
  · exact onlyReplies_entry (take := takeLimit) (size := 14) rfl h rfl (by decide) hi rfl (by decide) (by decide)
      (by simp only [takeLimit, fin?_none hbig])
  · exact onlyReplies_entry (take := takeDisp) (size := 3) rfl h rfl (by decide) hi rfl (by decide) (by decide)
      (by simp only [takeDisp, fin?_none hbig])
  · exact onlyReplies_entry (take := takeMark) (size := 3) rfl h rfl (by decide) hi rfl (by decide) (by decide)
      (by rw [takeMark, if_pos (by omega)])
  · exact onlyReplies_entry (take := takeWear) (size := 4) rfl h rfl (by decide) hi rfl (by decide) (by decide)
      (by rw [takeWear, if_pos hbig])

/-- Settles O21: the first entry leaves the response waiting at its place, and the second completes it there. -/
theorem writesStopAtTheFirstRefusedEntry : Obligations.WritesStopAtTheFirstRefusedEntry := by
  unfold Obligations.WritesStopAtTheFirstRefusedEntry
  intro s tag r n e e' g p q h hg hbad hp hq hold
  have hn : n.val < 65536 := by omega
  have hp' : p = writePayload 4#8 r n.val (e.bytes ++ e'.bytes) := by rw [hp, writePayload]; simp only [List.append_assoc]
  have hq' : q = writePayload 4#8 r n.val (e.bytes ++ g) := by rw [hq, writePayload]; simp only [List.append_assoc]
  have hfree (w : List Byte) (hw : ∀ old ∈ s.trunk.responses, old.heldBy ≠ some (.write w 1)) :
      ∀ old ∈ s.trunk.responses, old.awaitsEntry tag w 1 = false := fun old hm => by
    simp [Resp.awaitsEntry, hw old hm]
  have hfreeP := hfree p fun old hm => (hold old hm).1
  have hfreeQ := hfree q fun old hm => (hold old hm).2
  subst hp' hq'
  obtain ⟨t, ht, hr, hb⟩ := exec_scale_first (tag := tag) (r := r) (n := n.castSucc) (e := e) (g := e'.bytes) h rfl
  obtain ⟨u, hu, hr', hb'⟩ := exec_scale_first (tag := tag) (r := r) (n := n.castSucc) (e := e) h hg
  refine ⟨⟨t, ht, hr, hb, fun more => ?_⟩, ⟨u, hu, hr', fun more => ?_⟩⟩
  · obtain ⟨w, hw, hwr, htables, hrest⟩ := scale_second_applied (n := n.succ) (e' := e') (more := more) hn rfl rfl hfreeP
      (s := { t with trunk := { t.trunk with responses := t.trunk.responses ++ more } }) (by simp [hr]) rfl rfl
    refine ⟨w, hw, hwr, htables.trans ?_, ?_⟩
    · rw [show t.tables = _ from hb.1]; rfl
    · simpa [hb.2] using hrest
  · obtain ⟨w, hw, hwr, htables, hrest⟩ := scale_second_refused (n := n.succ) (more := more) hn rfl hg hfreeQ
      (s := { u with trunk := { u.trunk with responses := u.trunk.responses ++ more } }) (by simp [hr']) rfl
      (scaleEntry?_none (.inl hbad))
    exact ⟨w, hw, hwr, htables.trans hb'.1, by simpa [hb'.2] using hrest⟩

end

