-- ==== Sys2Proof/Proofs/Moves.lean ====
section
/-!
PROOFS. The elementary moves of the inside of a command. `Move` lists all that the consequences of a command do to the
machine, one constructor for each kind of change with what is known where it is made; `Run` is any number of them. Every
operation of the matrix controller, the source records and the contexts is a `Run`, proved here once, so that an invariant
of the inside of a command needs a proof for each kind of move only.
-/

namespace Sys2Proof.Machine

/-! ### What is known where a move is made -/

/-- The sweep of a context is on its walk, and the windows in its step queue are in order (R64, R92). -/
def Ctx.WalkLawful (c : Ctx) : Prop :=
  c.sweep.OnWalk ∧ ∀ st ∈ c.queue, ∀ w axis count n lim k d timeout hold,
    st.work = .measure (.sweepStart w axis count) n lim k d timeout hold → w.InOrder

/-- The target and the make request of a context keep to one card (R14, R21). -/
def Ctx.OneCard (c : Ctx) : Prop :=
  (∀ tg, c.target = some tg → ∀ p ∈ tg.points, cardOf p = cardOfBlock tg.block) ∧
    ∀ r, c.request = some (.make r) → ∀ p ∈ r.points, cardOf p = r.card

/-- A context may be replaced by `c'`: its source record stands, its laws are kept, and a make request is new only where
nothing bars the bus (R27). -/
structure CtxMove (s : State) (x : Bus) (c' : Ctx) : Prop where
  source : c'.source = (s.ctx x).source
  walk : (s.ctx x).WalkLawful → c'.WalkLawful
  oneCard : (s.ctx x).OneCard → c'.OneCard
  make : ∀ r, c'.request = some (.make r) → (s.ctx x).request = some (.make r) ∨ s.barred x = none

/-- An update of a context that gives it no new walk, step, source record, target or make request. -/
structure Ctx.Tame (c c' : Ctx) : Prop where
  queue : c'.queue = c.queue ∨ c'.queue = []
  window : c'.sweep.window = c.sweep.window
  axis : c'.sweep.axis = c.sweep.axis
  cursor : c'.sweep.cursor = c.sweep.cursor
  source : c'.source = c.source
  target : c'.target = c.target ∨ c'.target = none
  request : c'.request = c.request ∨ ∀ r, c'.request ≠ some (.make r)

/-- How the request of any bus may be changed by the matrix controller: answered, granted a point, or its waiting noted
(R30, R31, R32). -/
def Ctx.RequestMoves (c : Ctx) (r : Option Request) : Prop :=
  r = none ∨ (∃ q w, c.request = some (.make q) ∧ r = some (.make { q with waiting := w })) ∨
    ∃ q q', c.request = some (.opens q) ∧ r = some (.opens q')

/-- A bus that may get reservations: nothing bars it, or its make request stands (R27, R32). -/
def MayMake (s : State) (x : Bus) : Prop := s.barred x = none ∨ ∃ r, (s.ctx x).request = some (.make r)

/-- Orders leave the ordinary part of a card's list, and the pending order may lose the request it answers (R31, R34). -/
structure CardCtl.Shrunk (k k' : CardCtl) : Prop where
  ordinary : k'.ordinary.Sublist k.ordinary
  priority : k'.priority = k.priority
  nextTag : k'.nextTag = k.nextTag
  reason : k'.rejectReason = k.rejectReason
  pending : k'.pending = k.pending ∨ ∃ q, k.pending = some q ∧ k'.pending = some q.unasked

/-- Order `o` is the next of the card's list, and `k'` is the card without it (R22). -/
def CardCtl.Pops (k : CardCtl) (o : Order) (k' : CardCtl) : Prop :=
  (∃ rest, k.priority = o :: rest ∧ k' = { k with priority := rest }) ∨
    (k.priority = [] ∧ o.kind ≠ .make ∧ ∃ rest, k.ordinary = o :: rest ∧ k' = { k with ordinary := rest })

/-- A frame that closes no relay and makes no source live. -/
def LaneFrame.harmless : LaneFrame → Bool
  | .order _ close _ _ => !close
  | .live _ => false
  | _ => true

/-- A card that may be given an order: its lane is usable, or it has an order already (R27, R39). -/
def CardServes (s : State) (c : CardId) : Prop := s.cardUsable c = true ∨ (s.card c).idle = false

/-- One move inside a command. `L` is what is known of the state that the run of moves began with, `C` says that relays may
close and sources go live, and `Y` names the buses whose contexts are at work. -/
inductive Move (L C : Prop) (Y : Bus → Prop) (s : State) : State → Prop
  | plain (t : State) (h : t = { s with
      trunk := { s.trunk with attn := t.trunk.attn }, queue := t.queue, markHigh := t.markHigh
      matrixWork := t.matrixWork, mail := t.mail })
      (hm : ∀ x, Mail.poke x ∈ t.mail → Mail.poke x ∈ s.mail ∨ Y x)
      (hq : t.queue = s.queue ∨ ∃ x, Y x ∧ (64 ≤ s.queue.records.length → t.queue.records = s.queue.records) := by
        exact Or.inl rfl) : Move L C Y s t
  | emit (l : LaneId) (f : LaneFrame) (h : f.harmless = true) : Move L C Y s (s.emit l f)
  | source (x : Bus) (v : SrcState) (hx : Y x) (h : (s.ctx x).source ≠ .quiet)
      (hv : (v = .goingQuiet ∧ s.channelUsable x = true) ∨ v = .unsure) : Move L C Y s (s.setSource x v)
  | goLive (x : Bus) (hC : C) (hx : Y x) (h : (s.ctx x).source = .quiet) (hb : s.barred x = none) :
      Move L C Y s ((s.emit (s.busEntry x).lane (.live (s.busEntry x).channel)).setSource x .goingLive)
  | ctx (x : Bus) (c' : Ctx) (hx : Y x) (h : CtxMove s x c') : Move L C Y s (s.setCtx x c')
  | request (x : Bus) (r : Option Request) (h : (s.ctx x).RequestMoves r) :
      Move L C Y s (s.modCtx x (fun c => { c with request := r }))
  | unblock (x : Bus) (h : (s.ctx x).state = .blocked) : Move L C Y s (s.modCtx x (fun c => { c with state := .making }))
  | unreserve (x : Bus) (ps : List Pt) : Move L C Y s (s.modXps x ps XRec.unreserved)
  | reserve (x : Bus) (ps : List Pt) (hC : C) (h : MayMake s x) (hy : Y x ∨ ∃ r, (s.ctx x).request = some (.make r)) : Move L C Y s (s.reserve x ps)
  | mark (x : Bus) (ps : List Pt) (h : ∀ p ∈ ps, (s.xp x p).state = .closing ∨ (s.xp x p).state = .opening) :
      Move L C Y s (s.modXps x ps (fun r => { r with mark := true }))
  | shrink (c : CardId) (k : CardCtl) (h : (s.card c).Shrunk k) : Move L C Y s (s.setCard c k)
  | list (c : CardId) (o : Order) (hk : o.kind = .make ∨ o.kind = .brk)
      (hp : (∀ x, (s.ctx x).OneCard) → ∀ p ∈ o.points, cardOf p = c) (hu : CardServes s c) : Move L C Y s (s.setCard c { s.card c with ordinary := (s.card c).ordinary ++ [o] })
  | listFirst (c : CardId) (l : List Order) (o : Order) (hk : o.kind = .recovery ∨ o.kind = .emergency)
      (hl : ∀ q, q ∈ l ↔ q ∈ (s.card c).priority ∨ q = o) (hp : L → ∀ p ∈ o.points, cardOf p = c)
      (hu : L → CardServes s c) : Move L C Y s (s.setCard c { s.card c with priority := l })
  | drop (c : CardId) (k : CardCtl) (o : Order) (hp : (s.card c).pending = none) (h : (s.card c).Pops o k)
      (hn : o.leftToOpen s = []) : Move L C Y s (s.setCard c k)
  | sendOpen (c : CardId) (k : CardCtl) (o : Order) (hp : (s.card c).pending = none) (h : (s.card c).Pops o k) :
      Move L C Y s (sendOrder (s.setCard c k) c { o with points := o.leftToOpen s })
  | sendMake (c : CardId) (o : Order) (rest : List Order) (hC : C) (hp : (s.card c).pending = none)
      (h : (s.card c).ordinary = o :: rest) (hk : o.kind = .make)
      (hc : sendCheck (s.setCard c { s.card c with ordinary := rest }) c o = .pass) :
      Move L C Y s (sendOrder (s.setCard c { s.card c with ordinary := rest }) c o)
  | verdict (u : Site) (row : Fin 16) (v : Verdict) :
      Move L C Y s (s.setVerdict u ((s.verdict u).judge v s.tables.disps[dispNo row v]))

/-- Any number of moves, one after another. -/
abbrev Run (L C : Prop) (Y : Bus → Prop) : State → State → Prop := Relation.ReflTransGen (Move L C Y)

/-! ### Reading and writing -/

@[simp] theorem State.xp_setCard (s : State) (c : CardId) (k : CardCtl) (x : Bus) (p : Pt) :
    (s.setCard c k).xp x p = s.xp x p := rfl

theorem State.setCard_setCard (s : State) (c : CardId) (k k' : CardCtl) :
    (s.setCard c k).setCard c k' = s.setCard c k' := by
  simp [State.setCard]

theorem State.setCard_card (s : State) (c : CardId) : s.setCard c (s.card c) = s := by
  have h : s.matrix.cards.set c.val (s.card c) = s.matrix.cards := by simp [State.card]
  simp only [State.setCard, h]

theorem State.setCtx_setCtx (s : State) (x : Bus) (c c' : Ctx) : (s.setCtx x c).setCtx x c' = s.setCtx x c' := by
  simp [State.setCtx]

/-- Two changes of one context are one change. -/
theorem State.modCtx_modCtx (s : State) (x : Bus) (f g : Ctx → Ctx) :
    (s.modCtx x f).modCtx x g = s.modCtx x (fun c => g (f c)) := by
  rw [State.modCtx, State.ctx_modCtx_self, State.modCtx, State.setCtx_setCtx, State.modCtx]

/-- Crosspoint records and a card's orders are apart. -/
theorem State.modXps_setCard (s : State) (c : CardId) (k : CardCtl) (x : Bus) (ps : List Pt) (f : XRec → XRec) :
    (s.setCard c k).modXps x ps f = (s.modXps x ps f).setCard c k := by
  induction ps generalizing s with
  | nil => rfl
  | cons p ps ih => exact ih (s.setXp x p (f (s.xp x p)))

theorem State.reserve_setCard (s : State) (c : CardId) (k : CardCtl) (x : Bus) (ps : List Pt) :
    (s.setCard c k).reserve x ps = (s.reserve x ps).setCard c k := State.modXps_setCard _ _ _ _ _ _

/-- Crosspoint records change no other block. -/
theorem State.modXps_eq (s : State) (x : Bus) (ps : List Pt) (f : XRec → XRec) :
    s.modXps x ps f = { s with matrix := { s.matrix with xps := (s.modXps x ps f).matrix.xps } } := by
  induction ps generalizing s with
  | nil => rfl
  | cons p ps ih =>
    have h := ih (s.setXp x p (f (s.xp x p)))
    exact h

@[simp] theorem State.modXps_card (s : State) (x : Bus) (ps : List Pt) (f : XRec → XRec) (c : CardId) :
    (s.modXps x ps f).card c = s.card c := by rw [State.modXps_eq]; rfl

@[simp] theorem State.reserve_card (s : State) (x : Bus) (ps : List Pt) (c : CardId) :
    (s.reserve x ps).card c = s.card c := State.modXps_card _ _ _ _ _

@[simp] theorem State.reserve_ctx (s : State) (x y : Bus) (ps : List Pt) : (s.reserve x ps).ctx y = s.ctx y := by
  unfold State.reserve; rw [State.modXps_eq]; rfl

/-- What bars a bus rests on the guard unit alone. -/
theorem barred_congr {s t : State} (h : t.guard = s.guard) (x : Bus) : t.barred x = s.barred x := by
  have hsafe : t.isSafe = s.isSafe := by simp only [State.isSafe, h]
  have htrip : t.tripped x = s.tripped x := by simp only [State.tripped, h]
  unfold State.barred; rw [hsafe, htrip]

/-- Whether a card is usable rests on the tables and the lanes. -/
theorem cardUsable_congr {s t : State} (ht : t.tables = s.tables) (hl : t.lanes = s.lanes) (c : CardId) :
    t.cardUsable c = s.cardUsable c := by
  simp [State.cardUsable, State.cardEntry, State.laneHasCard, State.lane, ht, hl]

/-! ### Points, blocks and cards (R1, R2) -/

theorem cardOf_pointOf (b : Block) (o : Fin 8) : cardOf (pointOf b o) = cardOfBlock b := by
  simp only [cardOf, pointOf, cardOfBlock, Fin.mk.injEq]; omega

/-- The points of a resolved target lie on the card of its block (R14). -/
theorem resolve_oneCard {s : State} {x : Bus} {u : Site} {n : Net} {tg : Target} (h : resolve s x u n = some tg) :
    ∀ p ∈ tg.points, cardOf p = cardOfBlock tg.block := by
  unfold resolve at h
  dsimp only at h
  split at h
  · cases h
  · cases h
    intro p hp
    obtain ⟨o, -, rfl⟩ := List.mem_map.1 hp
    exact cardOf_pointOf _ _

/-- A run of a cut list holds points of the list (R21). -/
theorem mem_of_mem_chunks {n : Nat} {ps run : List Pt} (h : run ∈ chunks n ps) {p : Pt} (hp : p ∈ run) : p ∈ ps := by
  induction n generalizing ps with
  | zero => cases h
  | succ n ih =>
    cases ps with
    | nil => cases h
    | cons q ps =>
      rcases List.mem_cons.1 h with rfl | h
      · exact List.mem_of_mem_take hp
      · exact List.mem_of_mem_drop (ih h)

/-- Each group holds points of the request on its own card (R21). -/
theorem mem_of_mem_cardGroups {ps : List Pt} {g : CardId × List Pt} (h : g ∈ cardGroups ps) {p : Pt} (hp : p ∈ g.2) :
    cardOf p = g.1 ∧ p ∈ ps := by
  obtain ⟨c, -, hg⟩ := List.mem_flatMap.1 h
  obtain ⟨run, hrun, rfl⟩ := List.mem_map.1 hg
  have hmem := (List.mem_filter.1 (mem_of_mem_chunks hrun hp)).2
  simp only [Bool.and_eq_true, decide_eq_true_eq, beq_iff_eq] at hmem
  exact ⟨hmem.2, hmem.1⟩

/-! ### Walks (R92, R93) -/

/-- A cell is on the walk when it lies in the window, in either order. -/
theorem Window.mem_walk (w : Window) (a : Axis) (c r : Fin 8) :
    (c, r) ∈ w.walk a ↔ (w.c0 ≤ c ∧ c ≤ w.c1) ∧ w.r0 ≤ r ∧ r ≤ w.r1 := by
  cases a <;> simp [Window.walk, List.mem_finRange, and_comm]

/-- Whether a sweep is on its walk rests on window, axis and cursor. -/
theorem Sweep.OnWalk.congr {w w' : Sweep} (h : w.OnWalk) (hw : w'.window = w.window) (ha : w'.axis = w.axis)
    (hc : w'.cursor = w.cursor) : w'.OnWalk := by
  unfold Sweep.OnWalk; rw [hw, ha, hc]; exact h

/-- The next cell of a walk is a cell of it (R93). -/
theorem Sweep.nextCell_mem {w : Sweep} (h : w.OnWalk) {cell : Fin 8 × Fin 8} (hn : w.nextCell = some cell) :
    cell ∈ w.window.walk w.axis := by
  obtain ⟨⟨hc, hr⟩, hcur⟩ := h
  obtain ⟨c', r'⟩ := cell
  unfold Sweep.nextCell at hn
  split at hn
  · cases hn
    exact (Window.mem_walk ..).2 ⟨⟨le_rfl, hc⟩, le_rfl, hr⟩
  · next c r hcr =>
    obtain ⟨⟨h1, h2⟩, h3, h4⟩ := (Window.mem_walk ..).1 (hcur _ hcr)
    rw [Window.mem_walk]
    simp only [Fin.le_def, Fin.lt_def] at *
    split at hn
    all_goals
      split at hn
      · cases hn
        simp only [Fin.val_add, Fin.val_one]
        omega
      · split at hn
        · cases hn
          simp only [Fin.val_add, Fin.val_one]
          omega
        · cases hn

/-- Sweep advance stays on the walk (R97). -/
theorem advance_onWalk (s : State) (n : Nat) {w : Sweep} (h : w.OnWalk) : (advance s n w).1.OnWalk := by
  induction n generalizing w with
  | zero => exact h
  | succ n ih =>
    unfold advance
    split
    · exact h
    · next cell hn =>
      have hw : ({ w with cursor := some cell } : Sweep).OnWalk :=
        ⟨h.1, fun cell' hc => by cases hc; exact Sweep.nextCell_mem h hn⟩
      dsimp only
      split
      · exact hw
      · exact ih hw

/-! ### Updates of a context that need no argument -/

theorem Ctx.Tame.walkLawful {c c' : Ctx} (h : c.Tame c') (hw : c.WalkLawful) : c'.WalkLawful := by
  refine ⟨hw.1.congr h.window h.axis h.cursor, fun st hst => hw.2 st ?_⟩
  rcases h.queue with hq | hq
  · rwa [hq] at hst
  · rw [hq] at hst; cases hst

theorem Ctx.Tame.oneCard {c c' : Ctx} (h : c.Tame c') (hc : c.OneCard) : c'.OneCard := by
  refine ⟨fun tg htg => hc.1 tg ?_, fun r hr => hc.2 r ?_⟩
  · rcases h.target with ht | ht
    · rwa [ht] at htg
    · rw [ht] at htg; cases htg
  · rcases h.request with ht | ht
    · rwa [ht] at hr
    · exact absurd hr (ht r)

theorem Ctx.Tame.ctxMove {s : State} {x : Bus} {c' : Ctx} (h : (s.ctx x).Tame c') : CtxMove s x c' where
  source := h.source
  walk := h.walkLawful
  oneCard := h.oneCard
  make := fun r hr => by
    rcases h.request with ht | ht
    · exact .inl (ht ▸ hr)
    · exact absurd hr (ht r)

/-- The judged site joins the sweep; its walk stands (R98). -/
theorem Sweep.join_walk (w : Sweep) (u : Option Site) :
    (w.join u).window = w.window ∧ (w.join u).axis = w.axis ∧ (w.join u).cursor = w.cursor := by
  unfold Sweep.join; split <;> exact ⟨rfl, rfl, rfl⟩

end Sys2Proof.Machine
end

