-- ==== Sys2Proof/Proofs/Runs.lean ====
section
/-!
PROOFS. Every operation of the inside of a command is a `Run` of moves: the rules for the updates, then the matrix
controller, the source records and the contexts in the order of the model's files.
-/

-- One lemma per operation, elaborated one after another: in the joined text they would each hold a worker's stack.
set_option Elab.async false

namespace Sys2Proof.Machine

/-! ### What the operations are made of -/

/-- The bus that a thing is told to (log 6). -/
def Mail.bus : Mail → Bus
  | .makeDone x | .makeFailed x _ | .makeRefused x _ | .opened x _ | .quieted x _ | .lived x _ | .poke x => x

theorem CardCtl.idle_iff (k : CardCtl) : k.idle = true ↔ k.pending = none ∧ k.priority = [] ∧ k.ordinary = [] := by
  simp [CardCtl.idle, and_assoc]

/-- Withdrawing a bus's orders shrinks a card's list (R34, R35). -/
theorem CardCtl.shrunk_without (k : CardCtl) (x : Bus) (drop : OrderKind → Bool) : k.Shrunk ((k.without x drop).orphan x) := by
  have hsub : (k.without x drop).ordinary.Sublist k.ordinary := List.filter_sublist
  unfold CardCtl.orphan
  split
  · next q hq =>
    split
    · exact ⟨hsub, rfl, rfl, rfl, .inr ⟨q, hq, rfl⟩⟩
    · exact ⟨hsub, rfl, rfl, rfl, .inl rfl⟩
  · exact ⟨hsub, rfl, rfl, rfl, .inl rfl⟩

/-- The last part of placing a make order on a card that sends it at once: it goes out, or its checks withdraw it (R22,
R29). -/
def sendOrWithdraw (s : State) (c : CardId) (o : Order) : State :=
  match sendCheck s c o with
  | .pass => sendOrder s c o
  | .refused why => withdrawOrder s c o (.makeRefused o.bus why)
  | .failed cause => withdrawOrder s c o (.makeFailed o.bus cause)

/-- An idle card whose list gets one order has that order next (R22). -/
theorem sendNext_listed {s : State} {c : CardId} (hidle : (s.card c).idle = true) (o : Order) :
    sendNext (s.setCard c { s.card c with ordinary := (s.card c).ordinary ++ [o] }) c =
      if o.kind = .make then sendOrWithdraw s c o else sendOpen s c o := by
  obtain ⟨hp, hpr, hord⟩ := (CardCtl.idle_iff _).1 hidle
  have hback : (s.setCard c { s.card c with ordinary := (s.card c).ordinary ++ [o] }).setCard c
      { s.card c with ordinary := [] } = s := by
    rw [State.setCard_setCard, ← hord, State.setCard_card]
  unfold sendNext
  simp only [State.card_setCard_self, hp, hpr, hord, List.nil_append, Option.isSome_none, Bool.false_eq_true, if_false]
  simp only [hp, hpr, hord, List.nil_append] at hback
  rw [hback]
  rfl

/-- A make request that may take its claims is of a bus that nothing bars (R27). -/
theorem makeCheck_none {s : State} {x : Bus} {tg : Target} (h : makeCheck s x tg = none) : s.barred x = none := by
  unfold makeCheck at h
  split at h
  · cases h
  · assumption

/-- A bus that waits for a point has a make request (R32). -/
theorem request_of_mem_waiters {s : State} {x : Bus} {p : Pt} (h : x ∈ s.waiters p) :
    ∃ r, (s.ctx x).request = some (.make r) ∧ p ∈ r.waiting := by
  have hmem := (List.mem_filter.1 h).2
  unfold Ctx.waitsFor at hmem
  split at hmem
  · next r hr => exact ⟨r, hr, by simpa using hmem⟩
  · simp at hmem

theorem State.setCtx_ctx (s : State) (x : Bus) : s.setCtx x (s.ctx x) = s := by
  have h : s.ctxs.set x.val (s.ctx x) = s.ctxs := by simp [State.ctx]
  simp only [State.setCtx, h]

/-- An update that leaves a context as it is changes nothing. -/
theorem State.modCtx_eq_self {s : State} {x : Bus} {f : Ctx → Ctx} (h : f (s.ctx x) = s.ctx x) : s.modCtx x f = s := by
  rw [State.modCtx, h, State.setCtx_ctx]

namespace Run

variable {L C : Prop} {Y : Bus → Prop} {s t : State}

/-! ### The updates -/

theorem move {u : State} (h : Run L C Y s t) (m : Move L C Y t u) : Run L C Y s u := .tail h m

theorem post (m : Mail) (h : Run L C Y s t) (hm : ∀ x, m = .poke x → Y x := by nofun) : Run L C Y s (t.post m) :=
  h.move (.plain _ rfl (fun x hx => (List.mem_append.1 hx).imp id (fun hx => hm x (List.mem_singleton.1 hx).symm)))

/-- A context at work is told to look again. -/
theorem postPoke (x : Bus) (hx : Y x) (h : Run L C Y s t) : Run L C Y s (t.post (.poke x)) :=
  h.post _ (fun _ e => by cases e; exact hx)

theorem pushWork (w : List MatrixWork) (h : Run L C Y s t) : Run L C Y s (t.pushWork w) :=
  h.move (.plain _ rfl (fun _ => .inl))

theorem raise (c : AttnClass) (h : Run L C Y s t) : Run L C Y s (t.raise c) := h.move (.plain _ rfl (fun _ => .inl))

theorem emit (l : LaneId) (f : LaneFrame) (hf : f.harmless = true) (h : Run L C Y s t) : Run L C Y s (t.emit l f) :=
  h.move (.emit l f hf)

/-- A context is changed as `CtxMove` allows. -/
theorem modCtx (x : Bus) {f : Ctx → Ctx} (hx : Y x) (hf : CtxMove t x (f (t.ctx x))) (h : Run L C Y s t) :
    Run L C Y s (t.modCtx x f) := h.move (.ctx x _ hx hf)

/-- A context is changed by an update that needs no argument. -/
theorem touch (x : Bus) {f : Ctx → Ctx} (hx : Y x) (h : Run L C Y s t)
    (hf : ∀ c : Ctx, c.Tame (f c) := by intro _; constructor <;> simp) : Run L C Y s (t.modCtx x f) :=
  h.modCtx x hx (hf _).ctxMove

/-- The request of any bus ends (R31). -/
theorem endRequest (x : Bus) (h : Run L C Y s t) : Run L C Y s (t.modCtx x (fun c => { c with request := none })) :=
  h.move (.request x none (.inl rfl))

theorem modXps_unreserved (x : Bus) (ps : List Pt) (h : Run L C Y s t) : Run L C Y s (t.modXps x ps XRec.unreserved) :=
  h.move (.unreserve x ps)

/-- Operations on the members of a list, one after another. -/
theorem foldl {α : Type} (f : State → α → State) (l : List α)
    (hf : ∀ u, ∀ a ∈ l, Run L C Y s u → Run L C Y s (f u a)) (h : Run L C Y s t) : Run L C Y s (l.foldl f t) := by
  induction l generalizing t with
  | nil => exact h
  | cons a l ih =>
    exact ih (fun u b hb => hf u b (List.mem_cons_of_mem _ hb)) (hf t a List.mem_cons_self h)

/-- What may be at work may be widened. -/
theorem widen {Y' : Bus → Prop} (hY : ∀ x, Y x → Y' x) (h : Run L C Y s t) : Run L C Y' s t := by
  refine Relation.ReflTransGen.mono (r := Move L C Y) (fun a b m => ?_) s t h
  cases m with
  | plain _ h hm hq =>
    exact .plain _ h (fun x hx => (hm x hx).imp id (hY x)) (hq.imp id (fun ⟨x, hx, hr⟩ => ⟨x, hY x hx, hr⟩))
  | emit l f h => exact .emit l f h
  | source x v hx h hv => exact .source x v (hY x hx) h hv
  | goLive x hC hx h hb => exact .goLive x hC (hY x hx) h hb
  | ctx x c' hx h => exact .ctx x c' (hY x hx) h
  | request x r h => exact .request x r h
  | unblock x h => exact .unblock x h
  | unreserve x ps => exact .unreserve x ps
  | reserve x ps hC h hy => exact .reserve x ps hC h (hy.imp (hY x) id)
  | mark x ps h => exact .mark x ps h
  | shrink c k h => exact .shrink c k h
  | list c o hk hp hu => exact .list c o hk hp hu
  | listFirst c l o hk hl hp hu => exact .listFirst c l o hk hl hp hu
  | drop c k o hp h hn => exact .drop c k o hp h hn
  | sendOpen c k o hp h => exact .sendOpen c k o hp h
  | sendMake c o rest hC hp h hk hc => exact .sendMake c o rest hC hp h hk hc
  | verdict u row v => exact .verdict u row v

/-- Tables, lanes and guard unit stand. -/
theorem frame (h : Run L C Y s t) : t.tables = s.tables ∧ t.lanes = s.lanes ∧ t.guard = s.guard := by
  induction h with
  | refl => exact ⟨rfl, rfl, rfl⟩
  | tail _ m ih =>
    have hm : ∀ {a b : State}, Move L C Y a b → b.tables = a.tables ∧ b.lanes = a.lanes ∧ b.guard = a.guard := by
      intro a b m
      have hsend : ∀ (u : State) c o, (sendOrder u c o).tables = u.tables ∧ (sendOrder u c o).lanes = u.lanes ∧
          (sendOrder u c o).guard = u.guard := by
        intro u c o
        unfold sendOrder
        dsimp only
        rw [State.modXps_eq]
        split
        · split <;> exact ⟨rfl, rfl, rfl⟩
        · exact ⟨rfl, rfl, rfl⟩
      have hxps : ∀ (u : State) x ps f, (u.modXps x ps f).tables = u.tables ∧ (u.modXps x ps f).lanes = u.lanes ∧
          (u.modXps x ps f).guard = u.guard := by
        intro u x ps f
        rw [State.modXps_eq]; exact ⟨rfl, rfl, rfl⟩
      cases m with
      | plain _ h => rw [h]; exact ⟨rfl, rfl, rfl⟩
      | sendOpen c k o _ _ => exact hsend _ c _
      | sendMake c o rest _ _ _ _ _ => exact hsend _ c o
      | unreserve x ps => exact hxps _ _ _ _
      | reserve x ps _ _ => exact hxps _ _ _ _
      | mark x ps => exact hxps _ _ _ _
      | _ => exact ⟨rfl, rfl, rfl⟩
    obtain ⟨h1, h2, h3⟩ := hm m
    exact ⟨h1.trans ih.1, h2.trans ih.2.1, h3.trans ih.2.2⟩

theorem barred (h : Run L C Y s t) (x : Bus) : t.barred x = s.barred x := barred_congr h.frame.2.2 x

theorem cardUsable (h : Run L C Y s t) (c : CardId) : t.cardUsable c = s.cardUsable c :=
  cardUsable_congr h.frame.1 h.frame.2.1 c

/-! ### The matrix controller -/

theorem modOpens (x : Bus) (f : OpenReq → OpenReq) (h : Run L C Y s t) : Run L C Y s (t.modOpens x f) := by
  cases hr : (t.ctx x).request with
  | some r =>
    cases r with
    | opens q =>
      have he : t.modOpens x f = t.modCtx x (fun c => { c with request := some (.opens (f q)) }) := by
        simp only [State.modOpens, State.modCtx, hr]
      exact he ▸ h.move (.request x _ (.inr (.inr ⟨q, _, hr, rfl⟩)))
    | _ => rw [State.modOpens, State.modCtx_eq_self (by simp only [hr])]; exact h
  | none => rw [State.modOpens, State.modCtx_eq_self (by simp only [hr])]; exact h

theorem answerOpens (x : Bus) (h : Run L C Y s t) : Run L C Y s (answerOpens t x) := by
  unfold Machine.answerOpens
  split
  · split
    · exact (h.endRequest x).post _
    · exact h
  · exact h

theorem withdrawOrder (c : CardId) (o : Order) (m : Mail) (h : Run L C Y s t) (hm : ∀ x, m = .poke x → Y x := by nofun) :
    Run L C Y s (withdrawOrder t c o m) := by
  have h1 := (h.modXps_unreserved o.bus o.points).pushWork (o.points.map .point ++ [.send c])
  unfold Machine.withdrawOrder
  dsimp only
  split
  · exact (h1.endRequest _).post _ hm
  · exact h1

/-- The next order of a card's list is an open: it is sent for what it has left, or dropped (R22). -/
theorem sendOpen_popped (c : CardId) (k : CardCtl) (o : Order) (hp : (t.card c).pending = none)
    (hk : (t.card c).Pops o k) (h : Run L C Y s t) : Run L C Y s (sendOpen (t.setCard c k) c o) := by
  have hleft : o.leftToOpen (t.setCard c k) = o.leftToOpen t := rfl
  unfold sendOpen
  rw [hleft]
  split
  · next hn =>
    refine pushWork _ ?_
    split
    · exact (h.move (.drop c k o hp hk hn)).answerOpens _
    · exact h.move (.drop c k o hp hk hn)
  · exact h.move (.sendOpen c k o hp hk)

/-- The next order of a card; closing one needs leave to close. -/
theorem sendNext (c : CardId)
    (hC : (t.card c).priority = [] → ∀ o rest, (t.card c).ordinary = o :: rest → o.kind = .make → C) (h : Run L C Y s t) : Run L C Y s (sendNext t c) := by
  unfold Machine.sendNext
  dsimp only
  split
  · exact h
  · next hp =>
    have hp : (t.card c).pending = none := by simpa using hp
    split
    · next o rest hpr => exact h.sendOpen_popped c _ o hp (.inl ⟨rest, hpr, rfl⟩)
    · next o rest hpr hord =>
      have hshrunk : (t.card c).Shrunk { t.card c with ordinary := rest } :=
        ⟨by rw [hord]; exact List.sublist_cons_self o rest, rfl, rfl, rfl, .inl rfl⟩
      split
      · next hk =>
        split
        · next hc => exact h.move (.sendMake c o rest (hC hpr o rest hord hk) hp hord hk hc)
        · exact (h.move (.shrink c _ hshrunk)).withdrawOrder c o _
        · exact (h.move (.shrink c _ hshrunk)).withdrawOrder c o _
      · next hk => exact h.sendOpen_popped c _ o hp (.inr ⟨hpr, hk, rest, hord, rfl⟩)
    · exact h

/-- A make or break order is placed; a break is placed on a usable card only (R22, R30). -/
theorem placeOrdinary (c : CardId) (o : Order) (hk : o.kind = .make ∨ o.kind = .brk)
    (hp : (∀ x, (t.ctx x).OneCard) → ∀ p ∈ o.points, cardOf p = c) (hm : o.kind = .make → MayMake t o.bus)
    (hu : o.kind ≠ .make → t.cardUsable c = true) (hC : o.kind = .make → C)
    (hy : o.kind = .make → ∃ r, (t.ctx o.bus).request = some (.make r)) (h : Run L C Y s t) :
    Run L C Y s (placeOrdinary t c o).1 := by
  unfold Machine.placeOrdinary
  dsimp only
  split
  · exact h
  · by_cases hs : CardServes t c
    · have h1 := h.move (Move.list c o hk hp hs)
      have h2 : Run L C Y s (if o.kind = .make then
          (t.setCard c { t.card c with ordinary := (t.card c).ordinary ++ [o] }).reserve o.bus o.points
          else t.setCard c { t.card c with ordinary := (t.card c).ordinary ++ [o] }) := by
        split
        · next hmake => exact h1.move (.reserve o.bus o.points (hC hmake) (hm hmake) (.inr (hy hmake)))
        · exact h1
      dsimp only
      split
      · next hidle =>
        obtain ⟨-, -, hord⟩ := (CardCtl.idle_iff _).1 hidle
        refine h2.sendNext c (fun _ o' rest ho' hk' => ?_)
        have hcard : (if o.kind = .make then
            (t.setCard c { t.card c with ordinary := (t.card c).ordinary ++ [o] }).reserve o.bus o.points
            else t.setCard c { t.card c with ordinary := (t.card c).ordinary ++ [o] }).card c =
            { t.card c with ordinary := (t.card c).ordinary ++ [o] } := by
          split
          · rw [State.reserve_card, State.card_setCard_self]
          · rw [State.card_setCard_self]
        rw [hcard, hord] at ho'
        cases ho'
        exact hC hk'
      · exact h2
    · obtain ⟨hun, hidle⟩ : t.cardUsable c = false ∧ (t.card c).idle = true := by simpa [CardServes] using hs
      have hmake : o.kind = .make := by
        by_contra hn
        rw [hu hn] at hun; cases hun
      have hcard : (t.reserve o.bus o.points).card c = t.card c := State.reserve_card _ _ _ _
      dsimp only
      rw [if_pos hidle, if_pos hmake, State.reserve_setCard, ← hcard, sendNext_listed (by rw [hcard]; exact hidle),
        if_pos hmake]
      have h1 := h.move (Move.reserve o.bus o.points (hC hmake) (hm hmake) (.inr (hy hmake)))
      unfold sendOrWithdraw
      split
      · next hc =>
        have husable := (sendCheck_pass hc).2.2.2.1
        rw [h1.cardUsable c, ← h.cardUsable c, hun] at husable
        cases husable
      · exact h1.withdrawOrder c o _
      · exact h1.withdrawOrder c o _

theorem returnReservations (x : Bus) (h : Run L C Y s t) : Run L C Y s (returnReservations t x) :=
  (h.modXps_unreserved x _).pushWork _

theorem modCards (f : CardCtl → CardCtl) (hf : ∀ k : CardCtl, k.Shrunk (f k)) (h : Run L C Y s t) : Run L C Y s (t.modCards f) :=
  foldl _ _ (fun _ c _ hu => hu.move (.shrink c _ (hf _))) h

theorem withdrawMake (x : Bus) (h : Run L C Y s t) : Run L C Y s (withdrawMake t x) := by
  unfold Machine.withdrawMake
  split
  · exact ((h.endRequest x).modCards _ (fun k => k.shrunk_without x _)).returnReservations x
  · exact h

theorem placeMake (x : Bus) (c : CardId) (ps : List Pt) (hC : C) (hm : MayMake t x) (hr : ∃ r, (t.ctx x).request = some (.make r))
    (hp : (∀ y, (t.ctx y).OneCard) → ∀ p ∈ ps, cardOf p = c) (h : Run L C Y s t) : Run L C Y s (placeMake t x c ps).1 := by
  have h1 := h.placeOrdinary c ⟨.make, x, needClosing t x ps, true⟩ (.inl rfl)
    (fun hy p hmem => hp hy p (by
      have := (List.mem_filter.1 hmem).2
      simp only [Bool.and_eq_true, decide_eq_true_eq] at this
      exact this.1))
    (fun _ => hm) (fun hn => absurd rfl hn) (fun _ => hC) (fun _ => hr)
  unfold Machine.placeMake
  split
  · next he => rw [he] at h1; exact h1
  · next he => rw [he] at h1; exact (h1.endRequest x).returnReservations x

theorem makeRequest (x : Bus) (tg : Target) (hC : C) (hx : Y x)
    (htg : (t.ctx x).OneCard → ∀ p ∈ tg.points, cardOf p = cardOfBlock tg.block) (h : Run L C Y s t) :
    Run L C Y s (makeRequest t x tg).1 := by
  unfold Machine.makeRequest
  split
  · exact h
  · next hc =>
    have hb := makeCheck_none hc
    dsimp only
    have h1 := h.move (Move.reserve x tg.points hC (.inl hb) (.inl hx))
    have hb1 : (t.reserve x tg.points).barred x = none := by rw [h1.barred, ← h.barred]; exact hb
    have h2 : ∀ waiting, Run L C Y s ((t.reserve x tg.points).modCtx x (fun k =>
        { k with request := some (.make ⟨cardOfBlock tg.block, tg.points, waiting⟩) })) := fun waiting =>
      h1.modCtx x hx
        { source := rfl, walk := id
          oneCard := fun hone => ⟨hone.1, fun r hr => by cases hr; exact htg (by simpa using hone)⟩
          make := fun _ _ => .inr hb1 }
    have h3 : ∀ waiting, Run L C Y s (Machine.placeMake ((t.reserve x tg.points).modCtx x (fun k =>
        { k with request := some (.make ⟨cardOfBlock tg.block, tg.points, waiting⟩) })) x (cardOfBlock tg.block)
          tg.points).1 := fun waiting =>
      (h2 waiting).placeMake x _ _ hC (.inl hb1) ⟨_, by rw [State.ctx_modCtx_self]⟩ (fun hy p hmem => (hy x).2 _ (by rw [State.ctx_modCtx_self]) p hmem)
    split
    · exact h1
    · split
      · split
        · next he => exact Eq.mp (congrArg (fun r => Run L C Y s r.1) he) (h3 _)
        · next he => exact Eq.mp (congrArg (fun r => Run L C Y s r.1) he) (h3 _)
      · exact h2 _

theorem placeBreak (x : Bus) (g : CardId × List Pt) (hg : ∀ p ∈ g.2, cardOf p = g.1) (h : Run L C Y s t) :
    Run L C Y s (placeBreak t x g) := by
  unfold Machine.placeBreak
  split
  · next hu =>
    have h1 := h.placeOrdinary g.1 ⟨.brk, x, g.2, true⟩ (.inr rfl) (fun _ => hg) nofun (fun _ => hu) nofun nofun
    split
    · next he => rw [he] at h1; exact h1
    · next he => rw [he] at h1; exact h1.modOpens x _
  · exact h.modOpens x _

/-- The break orders of a request, card by card (R30). -/
theorem placeBreaks (x : Bus) (ps : List Pt) (h : Run L C Y s t) :
    Run L C Y s ((cardGroups ps).foldl (fun s g => Machine.placeBreak s x g) t) :=
  foldl _ _ (fun _ g hg hu => hu.placeBreak x g (fun _ hp => (mem_of_mem_cardGroups hg hp).1)) h

theorem opensRequest (x : Bus) (ps : List Pt) (hx : Y x) (h : Run L C Y s t) : Run L C Y s (opensRequest t x ps) := by
  unfold Machine.opensRequest
  dsimp only
  exact ((((h.touch x hx).modXps_unreserved x _).pushWork _).placeBreaks x _).answerOpens x

theorem handleAwaited (x : Bus) (ps : List Pt) (h : Run L C Y s t) : Run L C Y s (handleAwaited t x ps) := by
  unfold Machine.handleAwaited
  split
  · exact ((h.modOpens x _).placeBreaks x _).answerOpens x
  · exact h

theorem tellRequest (o : Order) (f : Option Cause) (h : Run L C Y s t) : Run L C Y s (tellRequest t o f) := by
  unfold Machine.tellRequest
  split
  · exact h
  · split
    · exact (h.endRequest _).post _ (by cases f <;> nofun)
    · split
      · exact h
      · exact h.modOpens _ _
      · exact h.modOpens _ _
    · exact h

theorem arbitrate (p : Pt) (hC : C) (h : Run L C Y s t) : Run L C Y s (arbitrate t p) := by
  unfold Machine.arbitrate
  split
  · exact h
  · split
    · exact h
    · next x rest hw =>
      obtain ⟨r, hr, -⟩ := request_of_mem_waiters (s := t) (p := p) (x := x) (by rw [hw]; exact List.mem_cons_self)
      have h1 := h.move (Move.reserve x [p] hC (.inr ⟨r, hr⟩) (.inr ⟨r, hr⟩))
      dsimp only
      rw [State.reserve_ctx, hr]
      dsimp only
      have h2 := h1.move (Move.request x (some (.make { r with waiting := r.waiting.filter (· ≠ p) }))
        (.inr (.inl ⟨r, _, by rw [State.reserve_ctx, hr], rfl⟩)))
      split
      · have h3 := h2.placeMake x r.card r.points hC (.inr ⟨_, by rw [State.ctx_modCtx_self]⟩) ⟨_, by rw [State.ctx_modCtx_self]⟩
          (fun hy q hq => (hy x).2 { r with waiting := r.waiting.filter (· ≠ p) } (by rw [State.ctx_modCtx_self]) q hq)
        split
        · next u he =>
          rw [he] at h3
          by_cases hb : (u.ctx x).state = .blocked
          · have heq : u.modCtx x (fun c => if c.state = .blocked then { c with state := .making } else c) =
                u.modCtx x (fun c => { c with state := .making }) := by simp only [State.modCtx, hb, if_true]
            rw [heq]; exact h3.move (.unblock x hb)
          · rw [State.modCtx_eq_self (by rw [if_neg hb])]; exact h3
        · next he => rw [he] at h3; exact h3.post _
      · exact h2

theorem blockWaitExpired (x : Bus) (h : Run L C Y s t) : Run L C Y s (blockWaitExpired t x) :=
  ((h.endRequest x).returnReservations x).post _

theorem doMatrix (w : MatrixWork) (hC : C) (h : Run L C Y s t) : Run L C Y s (doMatrix t w) := by
  cases w with
  | point p => exact h.arbitrate p hC
  | send c => exact h.sendNext c (fun _ _ _ _ _ => hC)

end Run

end Sys2Proof.Machine
end

