-- ==== Sys2Proof/Proofs/RunsContext.lean ====
section
/-!
PROOFS. The source records, the result queue, the judge and the contexts are `Run`s of moves, and so is the working through
of the consequences of a command.
-/

-- One lemma per operation, elaborated one after another: in the joined text they would each hold a worker's stack.
set_option Elab.async false

namespace Sys2Proof.Machine

namespace Run

variable {L C : Prop} {Y : Bus → Prop} {s t : State}

/-! ### Source records -/

theorem sendQuiet (x : Bus) (h : Run L C Y s t) : Run L C Y s (sendQuiet t x) := h.emit _ _ rfl

/-- A record that is not QUIET goes GOING_QUIET, with a QUIET frame, or UNSURE (R48, R51, R52). -/
theorem quietOrUnsure (x : Bus) (hx : Y x) (hq : (t.ctx x).source ≠ .quiet) (h : Run L C Y s t) :
    Run L C Y s (if t.channelUsable x then (Machine.sendQuiet t x).setSource x .goingQuiet else t.setSource x .unsure) := by
  split
  · next hu => exact (h.sendQuiet x).move (.source x .goingQuiet hx hq (.inl ⟨rfl, hu⟩))
  · exact h.move (.source x .unsure hx hq (.inr rfl))

theorem quietRequest (x : Bus) (hx : Y x) (h : Run L C Y s t) : Run L C Y s (quietRequest t x).1 := by
  have hgo (hq : (t.ctx x).source ≠ .quiet) : Run L C Y s (if t.channelUsable x then
      ((Machine.sendQuiet t x).setSource x .goingQuiet, SrcAns.waits) else (t.setSource x .unsure, .failed)).1 := by
    have := h.quietOrUnsure x hx hq
    split <;> simpa [*] using this
  unfold Machine.quietRequest
  split
  · exact h
  · split
    · exact h
    · exact h
    · exact h
    · next hs => exact hgo (by rw [hs]; decide)
    · next hs => exact hgo (by rw [hs]; decide)

theorem liveRequest (x : Bus) (hC : C) (hx : Y x) (h : Run L C Y s t) : Run L C Y s (liveRequest t x).1 := by
  unfold Machine.liveRequest
  split
  · exact h
  · next hb =>
    split
    · next hs =>
      split
      · exact h.move (.goLive x hC hx hs hb)
      · exact h
    · exact h
    · exact h
    · exact h
    · exact h

theorem answerQuiet (x : Bus) (ok : Bool) (h : Run L C Y s t) : Run L C Y s (answerQuiet t x ok) := by
  unfold Machine.answerQuiet
  split
  · exact (h.endRequest x).post _
  · exact h

theorem answerLive (x : Bus) (ok : Bool) (h : Run L C Y s t) : Run L C Y s (answerLive t x ok) := by
  unfold Machine.answerLive
  split
  · exact (h.endRequest x).post _
  · exact h

theorem ackExpired (x : Bus) (hx : Y x) (h : Run L C Y s t) : Run L C Y s (ackExpired t x) := by
  unfold Machine.ackExpired
  split
  · next hs => exact (h.move (.source x .unsure hx (by rw [hs]; decide) (.inr rfl))).answerQuiet x _
  · next hs => exact (h.quietOrUnsure x hx (by rw [hs]; decide)).answerLive x _
  · exact h

/-- A request may be dropped or stand. -/
theorem dropRequest (x : Bus) (p : Ctx → Prop) [DecidablePred p] (h : Run L C Y s t) :
    Run L C Y s (t.modCtx x (fun c => if p c then { c with request := none } else c)) := by
  by_cases hp : p (t.ctx x)
  · have he : t.modCtx x (fun c => if p c then { c with request := none } else c) =
        t.modCtx x (fun c => { c with request := none }) := by simp only [State.modCtx, if_pos hp]
    exact he ▸ h.endRequest x
  · exact (State.modCtx_eq_self (f := fun c => if p c then { c with request := none } else c) (if_neg hp)).symm ▸ h

theorem emergencyQuiet (x : Bus) (hx : Y x) (h : Run L C Y s t) : Run L C Y s (emergencyQuiet t x) := by
  have h1 := h.dropRequest x (fun c => (decide (c.request = some .quiet) || decide (c.request = some .live)) = true)
  unfold Machine.emergencyQuiet
  dsimp only
  split
  · exact h
  · split
    · exact h1
    · exact h1
    · next hs => exact h1.quietOrUnsure x hx (by rw [hs]; decide)
    · next hs => exact h1.quietOrUnsure x hx (by rw [hs]; decide)
    · next hs => exact h1.quietOrUnsure x hx (by rw [hs]; decide)

/-! ### The result queue and the judge -/

theorem appendRecord (x : Bus) (hx : Y x) (hl : t.queue.records.length < 64) (r : Rec) (h : Run L C Y s t) :
    Run L C Y s (appendRecord t r) := by
  unfold Machine.appendRecord
  dsimp only
  split <;> exact h.move (.plain _ rfl (fun _ => .inl) (.inr ⟨x, hx, fun h64 => absurd h64 (Nat.not_le.2 hl)⟩))

theorem slotTaken (x : Bus) (hx : Y x) (h : Run L C Y s t) : Run L C Y s (slotTaken t x) := (h.touch x hx).postPoke x hx

theorem offer (x : Bus) (hx : Y x) (h : Run L C Y s t) : Run L C Y s (offer t x) := by
  unfold Machine.offer
  split
  · exact h
  · split
    · exact Run.slotTaken x hx (h.move (.plain _ rfl (fun _ => .inl) (.inr ⟨x, hx, fun _ => by
        unfold ResultQueue.folded; split <;> rfl⟩)))
    · split
      · next hl => exact (h.appendRecord x hx hl _).slotTaken x hx
      · exact h

theorem judge (x : Bus) (hx : Y x) (v : Verdict) (body : MeasBody) (fl : Flags) (unit : Fin 16) (n : Nat) (row : Fin 16)
    (site : Option Site) (h : Run L C Y s t) : Run L C Y s (judge t x v body fl unit n row site) := by
  have h1 : Run L C Y s (match site with
      | some u => t.setVerdict u ((t.verdict u).judge v t.tables.disps[dispNo row v])
      | none => t) := by
    split
    · exact h.move (.verdict _ row v)
    · exact h
  have hset : ∀ {u : State} (slot : Option Slot) (e : Option EndInfo) (a : After) (ok : Bool), Run L C Y s u →
      Run L C Y s (u.setCtx x { u.ctx x with
        sweep := (u.ctx x).sweep.join site, endPending := e, slot := slot, inFlight := none, after := a, lastOk := ok }) :=
    fun {u} slot e a ok hu => hu.move (.ctx x _ hx (Ctx.Tame.ctxMove
      ⟨.inl rfl, (Sweep.join_walk _ _).1, (Sweep.join_walk _ _).2.1, (Sweep.join_walk _ _).2.2, rfl, .inl rfl, .inl rfl⟩))
  unfold Machine.judge
  dsimp only
  refine touch x hx (offer x hx ?_)
  split
  · exact (hset _ _ _ _ h1).raise _
  · exact hset _ _ _ _ h1

theorem judgeInvalid (x : Bus) (hx : Y x) (c : Cause) (h : Run L C Y s t) : Run L C Y s (judgeInvalid t x c) :=
  h.judge x hx _ _ _ _ _ _ _

theorem judgeTake (x : Bus) (hx : Y x) (k : Capture) (d : Nat) (h : Run L C Y s t) : Run L C Y s (judgeTake t x k d) :=
  h.judge x hx _ _ _ _ _ _ _

/-! ### The site sequence -/

theorem toIdle (x : Bus) (hx : Y x) (h : Run L C Y s t) : Run L C Y s (toIdle t x) := (h.touch x hx).postPoke x hx

theorem cancelTake (x : Bus) (hx : Y x) (h : Run L C Y s t) : Run L C Y s (cancelTake t x) := by
  unfold Machine.cancelTake
  dsimp only
  split
  · exact (h.emit _ _ rfl).touch x hx
  · exact h.touch x hx

/-- The context goes on to POSTING where a condition holds. -/
theorem posting (x : Bus) (hx : Y x) (p : Ctx → Bool) (h : Run L C Y s t) :
    Run L C Y s (t.modCtx x (fun c => if p c then { c with state := .posting } else c)) :=
  h.touch x hx (fun c => by split <;> constructor <;> simp)

theorem endSite (x : Bus) (hx : Y x) (c : Cause) (h : Run L C Y s t) : Run L C Y s (endSite t x c) := by
  unfold Machine.endSite
  dsimp only
  refine postPoke x hx (posting x hx (fun c => c.request.isNone) (judgeInvalid x hx c ?_))
  split
  · exact h.withdrawMake x
  · exact h.withdrawMake x
  · exact h.touch x hx
  · exact h.cancelTake x hx
  · exact h

theorem enterMeasuring (x : Bus) (hx : Y x) (h : Run L C Y s t) : Run L C Y s (enterMeasuring t x) := by
  unfold Machine.enterMeasuring
  split
  · split
    · dsimp only
      have h1 := fun tag cap timeout (l : LaneId) ch n =>
        (h.touch x hx (f := fun c => { c with state := .measuring, captured := some cap, acc := [], takeTag := tag, measureTimer := some timeout })).emit l (.take ch tag n) rfl
      split
      · exact (h1 _ _ _ _ _ _).move (.plain _ rfl (fun _ => .inl))
      · exact h1 _ _ _ _ _ _
    · exact ((h.judgeInvalid x hx _).touch x hx).postPoke x hx
  · exact h

theorem enterHolding (x : Bus) (hx : Y x) (h : Run L C Y s t) : Run L C Y s (enterHolding t x) := (h.touch x hx).postPoke x hx

theorem afterLive (x : Bus) (hx : Y x) (h : Run L C Y s t) : Run L C Y s (afterLive t x) := by
  unfold Machine.afterLive
  split
  · exact h.enterHolding x hx
  · exact h.enterMeasuring x hx

theorem enterRestoring (x : Bus) (hC : C) (hx : Y x) (h : Run L C Y s t) : Run L C Y s (enterRestoring t x) := by
  unfold Machine.enterRestoring
  dsimp only
  have h1 := Run.liveRequest x hC hx (h.touch x hx (f := fun c => { c with state := .restoring }))
  split
  all_goals (rename_i hq; rw [hq] at h1)
  · exact h1.afterLive x hx
  · exact h1.endSite x hx _
  · exact h1
  · exact h1.touch x hx

theorem afterSettle (x : Bus) (hC : C) (hx : Y x) (h : Run L C Y s t) : Run L C Y s (afterSettle t x) := by
  unfold Machine.afterSettle
  dsimp only
  split
  · exact (h.touch x hx).enterRestoring x hC hx
  · exact (h.touch x hx).afterLive x hx

theorem settleDecision (x : Bus) (hC : C) (hx : Y x) (b : Bool) (h : Run L C Y s t) : Run L C Y s (settleDecision t x b) := by
  have h1 := fun settle : Nat => h.touch x hx (f := fun c => { c with state := .settling, settleTimer := some settle })
  unfold Machine.settleDecision
  dsimp only
  split
  · exact h.afterSettle x hC hx
  · split
    · split
      · exact (h1 _).afterSettle x hC hx
      · exact h1 _
    · split
      · exact (h1 _).afterSettle x hC hx
      · exact h1 _

/-- The targets of all contexts keep to one card where a context's does (R14). -/
theorem askMake (x : Bus) (hC : C) (hx : Y x) (h : Run L C Y s t) : Run L C Y s (askMake t x) := by
  unfold Machine.askMake
  split
  · exact h
  · next tg htg =>
    dsimp only
    have h1 := Run.makeRequest x tg hC hx (fun hone => hone.1 tg (by simpa using htg))
      (h.touch x hx (f := fun c => { c with state := .making }))
    split
    all_goals (rename_i hq; rw [hq] at h1)
    · exact h1
    · exact h1.endSite x hx _
    · exact h1.settleDecision x hC hx _
    · exact h1.touch x hx
    · exact h1

theorem enterBreaking (x : Bus) (hx : Y x) (h : Run L C Y s t) : Run L C Y s (enterBreaking t x) :=
  (h.touch x hx).opensRequest x _ hx

theorem afterQuiet (x : Bus) (hC : C) (hx : Y x) (h : Run L C Y s t) : Run L C Y s (afterQuiet t x) := by
  unfold Machine.afterQuiet
  split
  · exact h.askMake x hC hx
  · exact h.enterBreaking x hx

theorem enterQuieting (x : Bus) (hC : C) (hx : Y x) (h : Run L C Y s t) : Run L C Y s (enterQuieting t x) := by
  unfold Machine.enterQuieting
  dsimp only
  have h1 := Run.quietRequest x hx (h.touch x hx (f := fun c => { c with state := .quieting }))
  split
  all_goals (rename_i hq; rw [hq] at h1)
  · exact h1.touch x hx
  · exact h1.endSite x hx _
  · exact h1.afterQuiet x hC hx

theorem startSite (x : Bus) (hC : C) (hx : Y x) (u : Site) (h : Run L C Y s t) : Run L C Y s (startSite t x u) := by
  unfold Machine.startSite
  split
  · exact h
  · split
    · exact h
    · next n _ =>
      dsimp only
      have h1 := h.touch x hx (f := fun c => { c with inFlight := some u, resume := .none, after := .none })
      split
      · exact ((h1.judgeInvalid x hx _).touch x hx).postPoke x hx
      · next tg hr =>
        have h2 := h1.modCtx x hx (f := fun c => { c with heldNet := c.net, site := some u, net := some n, target := some tg })
          { source := rfl
            walk := id
            oneCard := fun hone => ⟨fun tg' he => by cases he; exact resolve_oneCard hr, hone.2⟩
            make := fun r hm => .inl hm }
        split
        · exact h2.settleDecision x hC hx _
        · split
          · exact h2.enterQuieting x hC hx
          · exact h2.afterQuiet x hC hx

/-! ### Sweeps, releases and the end of a step -/

theorem sweepEnds (x : Bus) (hx : Y x) (k : EndKind) (h : Run L C Y s t) : Run L C Y s (sweepEnds t x k) :=
  (h.touch x hx).postPoke x hx

/-- A context gets a sweep that is on its walk where its own one is. -/
theorem setSweep (x : Bus) (hx : Y x) (w : Sweep) (r : Resume) (hw : (t.ctx x).WalkLawful → w.OnWalk) (h : Run L C Y s t) :
    Run L C Y s (t.modCtx x (fun c => { c with sweep := w, resume := r })) :=
  h.modCtx x hx { source := rfl, walk := fun hl => ⟨hw hl, hl.2⟩, oneCard := id, make := fun _ hm => .inl hm }

theorem nextSite (x : Bus) (hC : C) (hx : Y x) (h : Run L C Y s t) : Run L C Y s (nextSite t x) := by
  have hw : (t.ctx x).WalkLawful → (advance t 65 (t.ctx x).sweep).1.OnWalk := fun hl => advance_onWalk t 65 hl.1
  unfold Machine.nextSite
  dsimp only
  split
  · next w u he =>
    rw [he] at hw
    exact (h.setSweep x hx w (t.ctx x).resume hw).startSite x hC hx u
  · next w he =>
    rw [he] at hw
    exact (h.setSweep x hx { w with status := .windowEnd } .none (fun hl => (hw hl).congr rfl rfl rfl)).sweepEnds x hx _

theorem releaseFails (x : Bus) (hx : Y x) (c : Cause) (h : Run L C Y s t) : Run L C Y s (releaseFails t x c) := by
  unfold Machine.releaseFails
  dsimp only
  refine touch x hx ?_
  split
  · exact (h.judgeInvalid x hx c).touch x hx
  · exact h

theorem askRelease (x : Bus) (hx : Y x) (h : Run L C Y s t) : Run L C Y s (askRelease t x) := h.opensRequest x _ hx

theorem enterReleasing (x : Bus) (hx : Y x) (d : Dest) (h : Run L C Y s t) : Run L C Y s (enterReleasing t x d) := by
  unfold Machine.enterReleasing
  dsimp only
  have h1 := Run.quietRequest x hx (h.touch x hx (f := fun c =>
    { c with state := .releasing, dest := d, relDone := false, after := .none, lastOk := false, inFlight := none }))
  split
  all_goals (rename_i hq; rw [hq] at h1)
  · exact h1.touch x hx
  · exact (h1.releaseFails x hx _).askRelease x hx
  · exact h1.askRelease x hx

theorem releaseAnswered (x : Bus) (hx : Y x) (f : Option Cause) (h : Run L C Y s t) :
    Run L C Y s (releaseAnswered t x f) := by
  unfold Machine.releaseAnswered
  dsimp only
  refine postPoke x hx (touch x hx ?_)
  split
  · exact h
  · split
    · exact h.releaseFails x hx _
    · exact (h.raise _).releaseFails x hx _
    · exact h.releaseFails x hx _

theorem enterHalted (x : Bus) (hx : Y x) (h : Run L C Y s t) : Run L C Y s (enterHalted t x) := (h.touch x hx).raise _

theorem arrive (x : Bus) (hx : Y x) (h : Run L C Y s t) : Run L C Y s (arrive t x) := by
  unfold Machine.arrive
  split
  · exact h.toIdle x hx
  · exact h.enterHalted x hx

theorem loseHold (x : Bus) (hx : Y x) (h : Run L C Y s t) : Run L C Y s (loseHold t x) :=
  (h.raise _).enterReleasing x hx _

theorem endStep (x : Bus) (hx : Y x) (h : Run L C Y s t) : Run L C Y s (endStep t x) := by
  unfold Machine.endStep
  split
  · split
    · exact h.enterHolding x hx
    · exact h.enterReleasing x hx _
  · exact h.enterReleasing x hx _

theorem goOn (x : Bus) (hC : C) (hx : Y x) (a : Action) (h : Run L C Y s t) : Run L C Y s (goOn t x a) := by
  unfold Machine.goOn
  split
  · exact (h.touch x hx).enterReleasing x hx _
  · split
    · exact h.nextSite x hC hx
    · exact h.endStep x hx

theorem placeEnd (x : Bus) (hx : Y x) (h : Run L C Y s t) : Run L C Y s (placeEnd t x) := by
  unfold Machine.placeEnd
  dsimp only
  split
  · exact Run.offer x hx (h.move (.ctx x _ hx (Ctx.Tame.ctxMove ⟨.inl rfl, rfl, rfl, rfl, rfl, .inl rfl, .inl rfl⟩)))
  · exact h

/-! ### Taking steps -/

theorem beginSweep (x : Bus) (hC : C) (hx : Y x) (w : Sweep) (hw : (t.ctx x).WalkLawful → w.OnWalk) (h : Run L C Y s t) :
    Run L C Y s (beginSweep t x w) := (h.setSweep x hx w (t.ctx x).resume hw).nextSite x hC hx

theorem continueSweep (x : Bus) (hC : C) (hx : Y x) (n : Nat) (h : Run L C Y s t) : Run L C Y s (continueSweep t x n) := by
  unfold Machine.continueSweep
  dsimp only
  split
  · exact h.beginSweep x hC hx _ (fun hl => hl.1.congr rfl rfl rfl)
  · exact h.beginSweep x hC hx _ (fun hl => hl.1.congr rfl rfl rfl)
  · exact h.sweepEnds x hx _
  all_goals exact (h.setSweep x hx { (t.ctx x).sweep with count := n, judged := [], status := .windowEnd } (t.ctx x).resume
    (fun hl => hl.1.congr rfl rfl rfl)).sweepEnds x hx _

/-- A sweep that begins is on its walk where its window is in order (R64, R92). -/
theorem onWalk_of_inOrder {w : Sweep} (h : w.window.InOrder) (hc : w.cursor = none) : w.OnWalk :=
  ⟨h, fun cell he => by rw [hc] at he; cases he⟩

theorem takeHead (x : Bus) (hC : C) (hx : Y x) (h : Run L C Y s t) : Run L C Y s (takeHead t x) := by
  unfold Machine.takeHead
  split
  · exact h
  · next st rest hq =>
    dsimp only
    have hmem : st ∈ (t.ctx x).queue := by rw [hq]; exact List.mem_cons_self
    have h1 := h.modCtx x hx (f := fun c => { c with
        queue := rest, step := some st, lastOk := false, after := .none, captured := none, acc := [], relFail := none })
      { source := rfl
        walk := fun hl => ⟨hl.1, fun st' hm => hl.2 st' (by rw [hq]; exact List.mem_cons_of_mem _ hm)⟩
        oneCard := id
        make := fun _ hm => .inl hm }
    split
    · exact h1.enterReleasing x hx _
    · exact h1.startSite x hC hx _
    · exact h1.startSite x hC hx _
    · next win axis count net lim k d timeout hold hwork =>
      unfold Machine.beginSweep
      rw [State.modCtx_modCtx]
      exact (h.modCtx x hx
        { source := rfl
          walk := fun hl => ⟨onWalk_of_inOrder (hl.2 st hmem _ _ _ _ _ _ _ _ _ hwork) rfl,
            fun st' hm => hl.2 st' (by rw [hq]; exact List.mem_cons_of_mem _ hm)⟩
          oneCard := id
          make := fun _ hm => .inl hm }).nextSite x hC hx
    · exact h1.continueSweep x hC hx _

theorem leaveTripped (x : Bus) (hC : C) (hx : Y x) (h : Run L C Y s t) : Run L C Y s (leaveTripped t x) := by
  unfold Machine.leaveTripped
  split
  · split
    · exact h.nextSite x hC hx
    · exact h.touch x hx
  · exact (h.touch x hx).enterHalted x hx
  · exact h.toIdle x hx

theorem poke (x : Bus) (hC : C) (hx : Y x) (h : Run L C Y s t) : Run L C Y s (poke t x) := by
  have h1 := h.placeEnd x hx
  unfold Machine.poke
  dsimp only
  split
  · split
    · exact h1.takeHead x hC hx
    · exact h1
  · split
    · split
      · exact h1.toIdle x hx
      · exact h1
    · split
      · exact h1.takeHead x hC hx
      · exact h1
  · split
    · exact h1.arrive x hx
    · exact h1
  · split
    · split
      · exact h1.toIdle x hx
      · exact h1
    · split
      · exact h1.nextSite x hC hx
      · exact h1
  · split
    · exact h1.leaveTripped x hC hx
    · exact h1
  · exact h1
  · split
    · exact h1
    · split
      · exact h1
      · exact h1.enterReleasing x hx _
      · split
        · exact h1.goOn x hC hx _
        · exact h1.touch x hx

/-! ### Working through the consequences of a command (log 6) -/

theorem doMail (m : Mail) (hC : C) (hx : Y m.bus) (h : Run L C Y s t) : Run L C Y s (doMail t m) := by
  cases m with
  | makeDone x =>
    unfold Machine.doMail
    dsimp only
    split
    · exact h.settleDecision x hC hx _
    · exact h
  | makeFailed x cause =>
    unfold Machine.doMail
    dsimp only
    split
    · exact h.endSite x hx _
    · exact h
  | makeRefused x why => exact h
  | opened x failure =>
    unfold Machine.doMail
    dsimp only
    split
    · split
      · split
        · exact h.askMake x hC hx
        · exact h.endSite x hx _
      · exact h.poke x hC hx
    · exact h.releaseAnswered x hx _
    · exact h
  | quieted x ok =>
    unfold Machine.doMail
    dsimp only
    split
    · split
      · split
        · exact h.afterQuiet x hC hx
        · exact h.endSite x hx _
      · exact h.poke x hC hx
    · split
      · exact h.askRelease x hx
      · exact (h.releaseFails x hx _).askRelease x hx
    · exact h
  | lived x ok =>
    unfold Machine.doMail
    dsimp only
    split
    · split
      · split
        · exact h.afterLive x hx
        · exact h.endSite x hx _
      · exact h.poke x hC hx
    · exact h
  | poke x => exact h.poke x hC hx

theorem drain (n : Nat) (hC : C) (hY : ∀ x, Y x) (h : Run L C Y s t) : Run L C Y s (drain n t) := by
  induction n generalizing t with
  | zero => exact h
  | succ n ih =>
    unfold Machine.drain
    split
    · exact ih (Run.doMatrix _ hC (h.move (.plain _ rfl (fun _ => .inl))))
    · exact ih (Run.doMail _ hC (hY _) (h.move (.plain _ rfl (fun x _ => .inr (hY x)))))
    · exact h

end Run

end Sys2Proof.Machine
end

