-- ==== Sys2Proof/Proofs/RunsEvents.lean ====
section
/-!
PROOFS. What the outside events do to the contexts and to the matrix controller before the consequences are worked through:
trips, SAFE and READY, departures, losses, aborts, emergency and recovery opens. Each is a `Run` of moves.
-/

-- One lemma per operation, elaborated one after another: in the joined text they would each hold a worker's stack.
set_option Elab.async false

namespace Sys2Proof.Machine

/-! ### Crosspoint records after a change -/

/-- Each occurrence of a point in the list changes its record once. -/
theorem State.xp_modXps (s : State) (x y : Bus) (ps : List Pt) (f : XRec → XRec) (q : Pt) :
    (s.modXps x ps f).xp y q = if x = y then f^[ps.count q] (s.xp y q) else s.xp y q := by
  induction ps generalizing s with
  | nil => simp [State.modXps]
  | cons p ps ih =>
    have hcons : s.modXps x (p :: ps) f = (s.setXp x p (f (s.xp x p))).modXps x ps f := rfl
    rw [hcons, ih, State.xp_setXp]
    by_cases hx : x = y
    · subst hx
      by_cases hp : p = q
      · subst hp; simp [Function.iterate_succ_apply]
      · simp [hp]
    · simp [hx]

/-- A record that is not named stays. -/
theorem State.xp_modXps_ne (s : State) {x y : Bus} {ps : List Pt} (f : XRec → XRec) {q : Pt} (h : x ≠ y ∨ q ∉ ps) :
    (s.modXps x ps f).xp y q = s.xp y q := by
  rw [State.xp_modXps]
  split
  · next hx => rw [List.count_eq_zero_of_not_mem (h.resolve_left (fun hne => hne hx))]; rfl
  · rfl

/-- What each change keeps, the changes keep. -/
theorem State.xp_modXps_keeps (s : State) (x y : Bus) (ps : List Pt) {f : XRec → XRec} {P : XRec → Prop}
    (hf : ∀ r, P r → P (f r)) (q : Pt) (h : P (s.xp y q)) : P ((s.modXps x ps f).xp y q) := by
  rw [State.xp_modXps]
  split
  · exact Function.Iterate.rec P h hf _
  · exact h

/-- What a change makes true and keeps is true of every record named. -/
theorem State.xp_modXps_makes (s : State) (x : Bus) {ps : List Pt} {f : XRec → XRec} {P : XRec → Prop}
    (hf : ∀ r, P (f r)) {q : Pt} (h : q ∈ ps) : P ((s.modXps x ps f).xp x q) := by
  rw [State.xp_modXps, if_pos rfl]
  obtain ⟨n, hn⟩ := Nat.exists_eq_succ_of_ne_zero (List.count_pos_iff.2 h).ne'
  rw [hn, Function.iterate_succ_apply']
  exact hf _

/-- An idempotent change of crosspoints reaches each named crosspoint once. -/
theorem State.xp_modXps_idem (s : State) (x : Bus) {ps : List Pt} {f : XRec → XRec} (hf : ∀ r, f (f r) = f r) {q : Pt}
    (h : q ∈ ps) : (s.modXps x ps f).xp x q = f (s.xp x q) := by
  rw [State.xp_modXps, if_pos rfl]
  obtain ⟨n, hn⟩ : ∃ n, ps.count q = n + 1 := Nat.exists_eq_succ_of_ne_zero (List.count_pos_iff.2 h).ne'
  rw [hn]
  clear hn
  induction n with
  | zero => rfl
  | succ n ih => rw [Function.iterate_succ_apply', ih, hf]

/-- Points picked from all the points change once. -/
theorem State.xp_modXps_filter (s : State) (x y : Bus) (pick : Pt → Bool) (f : XRec → XRec) (q : Pt) :
    (s.modXps x (allPoints.filter pick) f).xp y q = if x = y ∧ pick q = true then f (s.xp y q) else s.xp y q := by
  rw [State.xp_modXps]
  by_cases hx : x = y
  · by_cases hq : pick q = true
    · have hnodup : (allPoints.filter pick).Nodup := (List.nodup_finRange 256).filter _
      rw [if_pos hx, if_pos ⟨hx, hq⟩, List.count_eq_one_of_mem hnodup (List.mem_filter.2 ⟨List.mem_finRange q, hq⟩)]
      rfl
    · rw [if_pos hx, if_neg (fun h => hq h.2),
        List.count_eq_zero_of_not_mem (fun hm => hq (List.mem_filter.1 hm).2)]
      rfl
  · rw [if_neg hx, if_neg (fun h => hx h.1)]

/-! ### The parts of an emergency open (R35) -/

/-- A make, break or release request is dropped; a quiet or live request stands (R35, R52). -/
def Ctx.withoutOrders (c : Ctx) : Ctx :=
  match c.request with
  | some (.make _) | some (.opens _) => { c with request := none }
  | _ => c

/-- What an emergency open does before it places its orders: the bus's request and listed orders are dropped, its
reservations return, and CLOSING and OPENING are marked (R35). -/
def emergencyCleared (s : State) (x : Bus) : State :=
  let s := s.modCtx x Ctx.withoutOrders
  let s := s.modCards (fun k => (k.without x (fun _ => true)).orphan x)
  let s := returnReservations s x
  s.modXps x (allPoints.filter (fun p => (s.xp x p).state == .closing || (s.xp x p).state == .opening))
    (fun r => { r with mark := true })

/-- What that does to a crosspoint record of the bus. -/
def XRec.emergencyCleared (r : XRec) : XRec :=
  match r.state with
  | .reserved => { r with state := .opn }
  | .closing | .opening => { r with mark := true }
  | _ => r

/-- The CLOSED points that an emergency open lists (R35). -/
def emergencyPoints (s : State) (x : Bus) : List Pt :=
  allPoints.filter (fun p => (s.xp x p).state == .closed && !s.inPriority x p)

theorem Ctx.withoutOrders_cases (c : Ctx) : c.withoutOrders = c ∨ c.withoutOrders = { c with request := none } := by
  unfold Ctx.withoutOrders
  split
  · exact .inr rfl
  · exact .inr rfl
  · exact .inl rfl

theorem XRec.closed_of_emergencyCleared {r : XRec} (h : r.emergencyCleared.state = .closed) : r.state = .closed := by
  cases hs : r.state <;> simp_all [XRec.emergencyCleared]

@[simp] theorem State.modCards_xp (s : State) (f : CardCtl → CardCtl) (x : Bus) (p : Pt) :
    (s.modCards f).xp x p = s.xp x p := by
  have h : ∀ (l : List CardId) (u : State), (l.foldl (fun s c => s.setCard c (f (s.card c))) u).xp x p = u.xp x p := by
    intro l
    induction l with
    | nil => exact fun _ => rfl
    | cons c l ih => exact fun u => (ih _).trans rfl
  exact h _ s

@[simp] theorem State.pushWork_xp (s : State) (w : List MatrixWork) (x : Bus) (p : Pt) :
    (s.pushWork w).xp x p = s.xp x p := rfl

theorem returnReservations_xp (s : State) (x y : Bus) (p : Pt) :
    (returnReservations s x).xp y p = if x = y then (s.xp y p).unreserved else s.xp y p := by
  unfold returnReservations
  dsimp only
  rw [State.pushWork_xp, State.xp_modXps_filter]
  by_cases hx : x = y
  · subst hx
    by_cases hr : (s.xp x p).state = .reserved
    · simp [hr]
    · simp [hr, XRec.unreserved]
  · simp [hx]

theorem emergencyCleared_xp (s : State) (x y : Bus) (p : Pt) :
    (emergencyCleared s x).xp y p = if x = y then (s.xp y p).emergencyCleared else s.xp y p := by
  unfold emergencyCleared
  dsimp only
  rw [State.xp_modXps_filter, returnReservations_xp, returnReservations_xp, State.modCards_xp, State.modCards_xp]
  by_cases hx : x = y
  · subst hx
    have hmod : (s.modCtx x Ctx.withoutOrders).xp x p = s.xp x p := rfl
    simp only [hmod, if_true, true_and]
    cases hs : (s.xp x p).state <;> simp [XRec.unreserved, XRec.emergencyCleared, hs]
  · simp only [hx, if_false, false_and]
    rfl

/-- The emergency open of a bus: what it drops and marks, then its orders (R35). -/
theorem emergencyOpen_eq (s : State) (x : Bus) :
    emergencyOpen s x = (cardGroups (emergencyPoints (emergencyCleared s x) x)).foldl
      (fun s g => placePriority s g.1 ⟨.emergency, x, g.2, false⟩) (emergencyCleared s x) := by
  have hpoints : ∀ (u : State) (pick : Pt → Bool),
      emergencyPoints (u.modXps x (allPoints.filter pick) (fun r => { r with mark := true })) x = emergencyPoints u x := by
    intro u pick
    unfold emergencyPoints
    refine List.filter_congr (fun p _ => ?_)
    have hstate : ((u.modXps x (allPoints.filter pick) (fun r => { r with mark := true })).xp x p).state =
        (u.xp x p).state := by
      rw [State.xp_modXps_filter]; split <;> rfl
    rw [hstate, State.inPriority, State.inPriority, State.modXps_card]
  rw [emergencyCleared, hpoints]
  rfl

/-- No run of a cut list is empty (R21). -/
theorem ne_nil_of_mem_chunks {n : Nat} {ps run : List Pt} (h : run ∈ chunks n ps) : run ≠ [] := by
  induction n generalizing ps with
  | zero => cases h
  | succ n ih =>
    cases ps with
    | nil => cases h
    | cons q ps =>
      rcases List.mem_cons.1 h with rfl | h
      · simp
      · exact ih h

/-- Each group holds a point (R21). -/
theorem exists_mem_of_mem_cardGroups {ps : List Pt} {g : CardId × List Pt} (h : g ∈ cardGroups ps) : ∃ p, p ∈ g.2 := by
  obtain ⟨c, -, hg⟩ := List.mem_flatMap.1 h
  obtain ⟨run, hrun, rfl⟩ := List.mem_map.1 hg
  exact List.exists_mem_of_ne_nil _ (ne_nil_of_mem_chunks hrun)

namespace Run

variable {L C : Prop} {Y : Bus → Prop} {s t : State}

/-! ### Priority orders -/

/-- An open joins the end of a card's priority part (R22). -/
theorem placePriority (c : CardId) (o : Order) (hk : o.kind = .recovery ∨ o.kind = .emergency)
    (hp : L → ∀ p ∈ o.points, cardOf p = c) (hu : L → CardServes t c) (h : Run L C Y s t) :
    Run L C Y s (placePriority t c o) := by
  have h1 := h.move (Move.listFirst c ((t.card c).priority ++ [o]) o hk (fun q => by simp) hp hu)
  unfold Machine.placePriority
  dsimp only
  split
  · exact h1.sendNext c (fun hn => by simp at hn)
  · exact h1

theorem placeAtHead (c : CardId) (o : Order) (hk : o.kind = .recovery ∨ o.kind = .emergency)
    (hp : L → ∀ p ∈ o.points, cardOf p = c) (hu : L → CardServes t c) (h : Run L C Y s t) :
    Run L C Y s (placeAtHead t c o) :=
  h.move (Move.listFirst c (o :: (t.card c).priority) o hk (fun q => by rw [List.mem_cons]; tauto) hp hu)

theorem placeMarked (c : CardId) (x : Bus) (ps : List Pt) (hp : L → ∀ p ∈ ps, cardOf p = c) (hu : L → CardServes t c)
    (h : Run L C Y s t) : Run L C Y s (placeMarked t c x ps) := by
  unfold Machine.placeMarked
  split
  · exact h
  · exact h.placePriority c _ (.inr rfl) hp hu

/-- Opens of points whose cards are usable, card by card (R35, R40). -/
theorem placeGroups (k : OrderKind) (hk : k = .recovery ∨ k = .emergency) (x : Bus) (ps : List Pt)
    (hu : L → ∀ p ∈ ps, s.cardUsable (cardOf p) = true) (h : Run L C Y s t) :
    Run L C Y s ((cardGroups ps).foldl (fun s g => Machine.placePriority s g.1 ⟨k, x, g.2, false⟩) t) := by
  refine foldl _ _ (fun u g hg hru => hru.placePriority g.1 _ hk (fun _ p hp => (mem_of_mem_cardGroups hg hp).1)
    (fun hl => .inl ?_)) h
  obtain ⟨p, hp⟩ := exists_mem_of_mem_cardGroups hg
  obtain ⟨hc, hmem⟩ := mem_of_mem_cardGroups hg hp
  rw [hru.cardUsable, ← hc]
  exact hu hl p hmem

/-- What an emergency open does before it places its orders (R35). -/
theorem emergencyCleared (x : Bus) (h : Run L C Y s t) : Run L C Y s (emergencyCleared t x) := by
  have hreq : Run L C Y s (t.modCtx x Ctx.withoutOrders) := by
    rcases (t.ctx x).withoutOrders_cases with he | he
    · rw [State.modCtx_eq_self he]; exact h
    · have hend : t.modCtx x Ctx.withoutOrders = t.modCtx x (fun c => { c with request := none }) := by
        rw [State.modCtx, he]; rfl
      exact hend ▸ h.endRequest x
  exact ((hreq.modCards _ (fun k => k.shrunk_without x (fun _ => true))).returnReservations x).move
    (Move.mark x _ (fun p hp => by simpa only [Bool.or_eq_true, beq_iff_eq] using (List.mem_filter.1 hp).2))

/-- An emergency open, where the cards of the CLOSED crosspoints are usable (R35, R39). -/
theorem emergencyOpen (x : Bus) (hu : L → ∀ p, (t.xp x p).state = .closed → t.cardUsable (cardOf p) = true)
    (h : Run L C Y s t) : Run L C Y s (emergencyOpen t x) := by
  rw [emergencyOpen_eq]
  refine (h.emergencyCleared x).placeGroups .emergency (.inr rfl) x _ (fun hl p hp => ?_)
  obtain ⟨-, hclosed⟩ := List.mem_filter.1 hp
  simp only [Bool.and_eq_true, beq_iff_eq, emergencyCleared_xp, if_true] at hclosed
  rw [← h.cardUsable]
  exact hu hl p (XRec.closed_of_emergencyCleared hclosed.1)

theorem requestLosesCard (c : CardId) (b : Bool) (x : Bus) (h : Run L C Y s t) :
    Run L C Y s (requestLosesCard t c b x) := by
  unfold Machine.requestLosesCard
  split
  · split
    · exact (h.endRequest x).post _
    · exact h
  · exact (h.modOpens x _).answerOpens x
  · exact h

/-- Recovery opens for the UNKNOWN crosspoints of a usable card (R40). -/
theorem recoveryOpens (c : CardId) (hu : L → t.cardUsable c = true) (h : Run L C Y s t) :
    Run L C Y s (recoveryOpens t c) := by
  refine foldl _ _ (fun u x _ hru => hru.placeGroups .recovery (.inl rfl) x _ (fun hl p hp => ?_)) h
  obtain ⟨hcard, -⟩ := List.mem_filter.1 hp
  have hc : cardOf p = c := by simpa [cardPoints, allPoints] using hcard
  rw [hc, ← h.cardUsable]
  exact hu hl

/-! ### The contexts and the outside events -/

theorem enterTripped (x : Bus) (hx : Y x) (r : Resume) (h : Run L C Y s t) : Run L C Y s (enterTripped t x r) :=
  (h.touch x hx (fun c => by by_cases hr : r = .none <;> constructor <;> simp [hr])).postPoke x hx

theorem tripCtx (x : Bus) (hx : Y x) (h : Run L C Y s t) : Run L C Y s (tripCtx t x) := by
  unfold Machine.tripCtx
  dsimp only
  split
  · exact h
  · exact h.enterTripped x hx _
  · exact h.enterTripped x hx _
  · exact h.enterTripped x hx _
  · exact h.enterTripped x hx _
  · split
    · exact (h.judgeInvalid x hx _).enterTripped x hx _
    · exact h.enterTripped x hx _
  · split
    · refine Run.enterTripped x hx _ (Run.judgeInvalid x hx _ ?_)
      split
      · exact h.cancelTake x hx
      · exact h
    · exact h.enterTripped x hx _

theorem safeCtx (x : Bus) (hx : Y x) (h : Run L C Y s t) : Run L C Y s (safeCtx t x) := by
  unfold Machine.safeCtx
  dsimp only
  split
  · exact h.postPoke x hx
  · exact (h.touch x hx).postPoke x hx
  · exact h
  · exact h
  · exact h
  · exact h
  · split
    · refine touch x hx ?_
      split
      · exact h.cancelTake x hx
      · exact h
    · exact (h.touch x hx).postPoke x hx

theorem readyCtx (x : Bus) (hC : C) (hx : Y x) (h : Run L C Y s t) : Run L C Y s (readyCtx t x) := by
  unfold Machine.readyCtx
  dsimp only
  split
  · split
    · split
      · exact h.startSite x hC hx _
      · exact h.postPoke x hx
    · exact (h.touch x hx).enterReleasing x hx _
    · split
      · exact h.enterReleasing x hx _
      · exact h.postPoke x hx
    · exact h.postPoke x hx
  · exact h.postPoke x hx
  · exact h.postPoke x hx
  · exact h

theorem departCtx (u : Site) (x : Bus) (hx : Y x) (h : Run L C Y s t) : Run L C Y s (departCtx t u x) := by
  unfold Machine.departCtx
  dsimp only
  split
  · exact h
  · exact h
  · exact h
  · exact h
  · split
    · exact h.loseHold x hx
    · exact h
  · split
    · exact ((h.judgeInvalid x hx _).touch x hx).postPoke x hx
    · exact h
  · split
    · exact h.endSite x hx _
    · exact h

theorem cardLossCtx (c : CardId) (x : Bus) (hx : Y x) (h : Run L C Y s t) : Run L C Y s (cardLossCtx t c x) := by
  unfold Machine.cardLossCtx
  dsimp only
  split
  · exact h
  · split
    · split
      · exact h.endSite x hx _
      · exact h
    · split
      · exact h.endSite x hx _
      · exact h
    · split
      · exact h.endSite x hx _
      · exact h
    · exact h.loseHold x hx
    · exact h

theorem instrumentLossCtx (x : Bus) (hx : Y x) (h : Run L C Y s t) : Run L C Y s (instrumentLossCtx t x) := by
  unfold Machine.instrumentLossCtx
  dsimp only
  split
  · split
    · exact h.endSite x hx _
    · exact h
  · exact h.loseHold x hx
  · exact h

theorem abortSweep (x : Bus) (hx : Y x) (h : Run L C Y s t) : Run L C Y s (abortSweep t x) :=
  h.touch x hx (fun c => by split <;> constructor <;> simp)

theorem abortCtx (x : Bus) (hx : Y x) (h : Run L C Y s t) : Run L C Y s (abortCtx t x) := by
  unfold Machine.abortCtx
  dsimp only
  split
  · exact h
  · exact h.enterReleasing x hx _
  · exact ((h.abortSweep x hx).touch x hx).postPoke x hx
  · refine postPoke x hx (touch x hx (abortSweep x hx ?_))
    split
    · exact h.judgeInvalid x hx _
    · exact h
  · exact (h.abortSweep x hx).enterTripped x hx _
  · exact (((h.abortSweep x hx).touch x hx).enterReleasing x hx _).postPoke x hx
  · refine postPoke x hx (touch x hx (abortSweep x hx ?_))
    split
    · exact h.endSite x hx _
    · exact h

theorem resumeHalted (x : Bus) (hC : C) (hx : Y x) (h : Run L C Y s t) : Run L C Y s (resumeHalted t x) := by
  unfold Machine.resumeHalted
  split
  · split
    · exact h.nextSite x hC hx
    · exact h.touch x hx
  · exact h.toIdle x hx

end Run

end Sys2Proof.Machine
end

