-- ==== Sys2Proof/Proofs/Deeds.lean ====
section
/-!
PROOFS. What a command does to the machine. A `Deed` is either something that the inside of a command does (`Keeps` and
`Run`), or one of the few changes that a command makes itself; `Does` is any number of them. `Act` names the changes that
only some commands may make. The invariants of every step then need a proof for each kind of deed only.
-/

-- One proof after another: in the joined text each worker would hold a stack of its own.
set_option Elab.async false

namespace Sys2Proof.Machine

/-! ### Deeds -/

/-- The changes that only some commands make. -/
inductive Act where
  | close
  | reply
  | rack (r : Rack)
  | clear (x : Bus)
  | trip
  | lane (l : LaneId)
  | work
  | tables
  | disps
  | wear
  | done
  | newPanel

/-- Card `c` loses its orders, and its claimed crosspoints become UNKNOWN (R39). -/
def cardEmptied (s : State) (c : CardId) : State :=
  allBuses.foldl (fun s x => s.modXps x ((cardPoints c).filter (fun p => s.claimed x p)) XRec.lost)
    (s.setCard c { s.card c with pending := none, priority := [], ordinary := [] })

/-- A lost card: it is emptied, and the requests that lose it are told (R39). -/
theorem cardLost_eq (s : State) (c : CardId) :
    cardLost s c = (allBuses.foldl (fun u x => requestLosesCard u c
      (x ∈ allBuses.filter (fun x => (s.card c).losesBreakOf x)) x) (cardEmptied s c),
        allBuses.filter (fun x => (cardPoints c).any (fun p => s.claimed x p))) := rfl

theorem cardEmptied_eq (s : State) (c : CardId) :
    cardEmptied s c = { s with matrix := { s.matrix with
      xps := (cardEmptied s c).matrix.xps
      cards := s.matrix.cards.set c.val { s.card c with pending := none, priority := [], ordinary := [] } } } := by
  have h : ∀ (l : List Bus) (u : State),
      l.foldl (fun s x => s.modXps x ((cardPoints c).filter (fun p => s.claimed x p)) XRec.lost) u =
        { u with matrix := { u.matrix with xps := (l.foldl (fun s x =>
          s.modXps x ((cardPoints c).filter (fun p => s.claimed x p)) XRec.lost) u).matrix.xps } } := by
    intro l
    induction l with
    | nil => exact fun _ => rfl
    | cons x l ih => intro u; rw [List.foldl_cons, ih, State.modXps_eq]
  unfold cardEmptied
  rw [h]
  rfl

theorem Keeps.cardEmptied {Q : Rec → Prop} {s t : State} (c : CardId) (h : Keeps Q s t) :
    Keeps Q s (cardEmptied t c) :=
  Keeps.foldl _ (fun _ _ hu => Keeps.modXps _ _ _ (fun r => by unfold XRec.lost; split <;> rfl) hu) _
    (Keeps.setCard c _ (by rfl) (by simp) (fun _ _ hp => by cases hp) h)

/-- No frame shown closes a relay or makes a source live. -/
def Calm (s : State) : Prop := ∀ e ∈ s.out, e.2.harmless = true

/-- The tag and the kind of a response (R187). -/
def Resp.head (r : Resp) : Half × Byte := (r.tag, r.kind)

/-- A change outside the tables, the matrix, the contexts, the lanes, the rack state and the trip flags, which leaves the
panel number and the verdict records, and the response list but where the command may answer. -/
structure Plain (A : Act → Prop) (s t : State) : Prop where
  tables : t.tables = s.tables := by rfl
  matrix : t.matrix = s.matrix := by rfl
  ctxs : t.ctxs = s.ctxs := by rfl
  lanes : t.lanes = s.lanes := by rfl
  pending : t.pending = s.pending := by rfl
  rack : t.guard.rack = s.guard.rack := by rfl
  trips : t.guard.trips = s.guard.trips := by rfl
  number : t.panel.number = s.panel.number := by rfl
  verdicts : t.panel.verdicts = s.panel.verdicts := by rfl
  bounded : QueueLawful s → QueueLawful t := by exact id
  responses : t.trunk.responses.map Resp.head = s.trunk.responses.map Resp.head ∨
    (A .reply ∧ (s.trunk.responses.length ≤ 32 → t.trunk.responses.length ≤ 32)) := by exact .inl rfl
  out : t.out = s.out ∨ t.out = [] := by exact .inl rfl

/-- One change that a command makes, which found the state `o` and may make the changes `A`. -/
inductive Deed (o : State) (A : Act → Prop) (s : State) : State → Prop
  | plain (t : State) (h : Plain A s t) : Deed o A s t
  | inner (t : State) (L C : Prop) (hw : A .work) (hC : C → A .close)
      (hL : TablesLawful o → ClaimsLawful o → TablesLawful s → ClaimsLawful s → L)
      (k : Keeps (fun _ => True) s t) (r : Run L C (fun _ => True) s t) : Deed o A s t
  | guard (g : Guard) (hrack : g.rack = s.guard.rack ∨ A (.rack g.rack))
      (htrips : ∀ x : Bus, s.tripped x = true → g.trips[x] = false → A (.clear x))
      (hset : ∀ x : Bus, s.tripped x = false → g.trips[x] = true → A .trip)
      (hout : (g.rack = s.guard.rack ∧ g.trips = s.guard.trips) ∨ (OpensFirst o → Calm s)) :
      Deed o A s { s with guard := g }
  | lane (l : LaneId) (v : Lane) (hA : A (.lane l))
      (hv : s.cardOnLane l ≠ none → s.laneHasCard l = true → v.state = .active ∧ v.partner = .card) :
      Deed o A s (s.setLane l v)
  | lost (l : LaneId) (v : Lane) (c : CardId) (hA : A (.lane l)) (hc : s.cardOnLane l = some c) :
      Deed o A s (cardEmptied (s.setLane l v) c)
  | tables (k : Tables) (hA : A .tables) (hd : k.disps = s.tables.disps ∨ A .disps)
      (hT : TablesLawful s → TablesLawful { s with tables := k })
      (hD : DisabledAtRest s → DisabledAtRest { s with tables := k })
      (hc : ∀ c, s.cardUsable c = true → State.cardUsable { s with tables := k } c = false → s.cardInUse c = false)
      (hout : OpensFirst o → Calm s) : Deed o A s { s with tables := k }
  | source (x : Bus) (v : SrcState) (hout : OpensFirst o → Calm s) : Deed o A s (s.setSource x v)
  | ctx (x : Bus) (c' : Ctx) (h : CtxMove s x c')
      (hrest : (s.busEntry x).enabled = true ∨ ((s.ctx x).Restful → c'.Restful)) : Deed o A s (s.setCtx x c')
  | orderEnds (c : CardId) (q : PendingOrder) (reason : Option Byte) (ps : List Pt) (f : XRec → XRec)
      (hq : (s.card c).pending = some q) (hps : ∀ p ∈ ps, p ∈ q.order.points)
      (hf : (∀ r, (f r).wear = r.wear) ∨ A .done ∧ ∀ r, (f r).wear = min (r.wear + 1) maxWear) :
      Deed o A s ((s.setCard c { s.card c with pending := none, rejectReason := reason }).modXps q.order.bus ps f)
  | cleared (c : CardId)
      (hidle : TablesLawful o → ClaimsLawful o → TablesLawful s → ClaimsLawful s → (s.card c).pending = none) :
      Deed o A s (allOpenConfirmed s c)
  | wear (x : Bus) (p : Pt) (w : Nat) (hA : A .wear) (hw : w ≤ maxWear) :
      Deed o A s (s.setXp x p { s.xp x p with wear := w })
  | newPanel (p : Panel) (hA : A .newPanel) : Deed o A s { s with panel := p }

/-- Any number of deeds, one after another. -/
abbrev Does (o : State) (A : Act → Prop) : State → State → Prop := Relation.ReflTransGen (Deed o A)

/-- What each deed keeps, a command keeps. -/
theorem Does.keeps {o : State} {A : Act → Prop} {P : State → Prop} (hP : ∀ u v, Deed o A u v → P u → P v) {s t : State}
    (h : Does o A s t) (hs : P s) : P t := by
  induction h with
  | refl => exact hs
  | tail _ d ih => exact hP _ _ d ih

/-- A command that may do more may do the same. -/
theorem Deed.mono {o s t : State} {A B : Act → Prop} (hAB : ∀ a, A a → B a) (h : Deed o A s t) : Deed o B s t := by
  cases h with
  | plain _ h => exact .plain _ { h with responses := h.responses.imp id (fun hr => ⟨hAB _ hr.1, hr.2⟩) }
  | inner _ L C hw hC hL k r => exact .inner _ L C (hAB _ hw) (fun h => hAB _ (hC h)) hL k r
  | guard g hr ht hs hout =>
    exact .guard g (hr.imp id (hAB _)) (fun x h1 h2 => hAB _ (ht x h1 h2)) (fun x h1 h2 => hAB _ (hs x h1 h2)) hout
  | lane l v hA hv => exact .lane l v (hAB _ hA) hv
  | lost l v c hA hc => exact .lost l v c (hAB _ hA) hc
  | tables k hA hd hT hD hc hout => exact .tables k (hAB _ hA) (hd.imp id (hAB _)) hT hD hc hout
  | source x v hout => exact .source x v hout
  | ctx x c' h hrest => exact .ctx x c' h hrest
  | orderEnds c q reason ps f hq hps hf => exact .orderEnds c q reason ps f hq hps (hf.imp id (fun h => ⟨hAB _ h.1, h.2⟩))
  | cleared c hidle => exact .cleared c hidle
  | wear x p w hA hw => exact .wear x p w (hAB _ hA) hw
  | newPanel p hA => exact .newPanel p (hAB _ hA)

theorem Does.mono {o s t : State} {A B : Act → Prop} (hAB : ∀ a, A a → B a) (h : Does o A s t) : Does o B s t := by
  induction h with
  | refl => exact .refl
  | tail _ d ih => exact ih.tail (d.mono hAB)

/-! ### The waiting commands and the response list -/

theorem Deed.pending {o s t : State} {A : Act → Prop} (h : Deed o A s t) : t.pending = s.pending := by
  cases h with
  | plain _ h => exact h.pending
  | inner _ L C _ _ _ k _ => exact k.pending
  | orderEnds c q reason ps f _ _ _ => rw [State.modXps_eq]; rfl
  | cleared c _ => exact (Keeps.allOpenConfirmed c (Keeps.refl (Q := fun _ => True) s)).pending
  | lost l v c _ _ => exact (Keeps.cardEmptied c (Keeps.refl (Q := fun _ => True) (s.setLane l v))).pending
  | _ => rfl

/-- The commands that wait behind a command stand. -/
theorem Does.pending {o s t : State} {A : Act → Prop} (h : Does o A s t) : t.pending = s.pending :=
  h.keeps (P := fun u => u.pending = s.pending) (fun _ _ d e => d.pending.trans e) rfl

/-- Only where the command may answer does the response list change. -/
theorem Deed.responses {o s t : State} {A : Act → Prop} (h : Deed o A s t) :
    t.trunk.responses.map Resp.head = s.trunk.responses.map Resp.head ∨
      (A .reply ∧ (s.trunk.responses.length ≤ 32 → t.trunk.responses.length ≤ 32)) := by
  cases h with
  | plain _ h => exact h.responses
  | inner _ L C _ _ _ k _ => exact .inl (by rw [k.trunk])
  | orderEnds c q reason ps f _ _ _ => exact .inl (by rw [State.modXps_eq]; rfl)
  | cleared c _ => exact .inl (by rw [(Keeps.allOpenConfirmed c (Keeps.refl (Q := fun _ => True) s)).trunk])
  | lost l v c _ _ => exact .inl (by rw [(Keeps.cardEmptied c (Keeps.refl (Q := fun _ => True) (s.setLane l v))).trunk]; rfl)
  | _ => exact .inl rfl

/-- The heads of the responses stand where the command may not answer. -/
theorem Does.heads {o s t : State} {A : Act → Prop} (h : Does o A s t) (hA : ¬ A .reply) :
    t.trunk.responses.map Resp.head = s.trunk.responses.map Resp.head :=
  h.keeps (P := fun u => u.trunk.responses.map Resp.head = s.trunk.responses.map Resp.head)
    (fun _ _ d e => (d.responses.resolve_right (fun hr => hA hr.1)).trans e) rfl

/-- At most 32 responses wait (R188). -/
theorem Does.room {o s t : State} {A : Act → Prop} (h : Does o A s t) (hs : s.trunk.responses.length ≤ 32) :
    t.trunk.responses.length ≤ 32 :=
  h.keeps (P := fun u => u.trunk.responses.length ≤ 32) (fun u v d e => by
    rcases d.responses with hm | ⟨-, hl⟩
    · rw [← List.length_map (f := Resp.head), hm, List.length_map]; exact e
    · exact hl e) hs

/-! ### The result queue (R142, R147) -/

theorem Deed.bounded {o s t : State} {A : Act → Prop} (h : Deed o A s t) (hs : QueueLawful s) : QueueLawful t := by
  cases h with
  | plain _ h => exact h.bounded hs
  | inner _ L C _ _ _ k _ => exact k.bounded hs
  | orderEnds c q reason ps f _ _ _ => rw [State.modXps_eq]; exact hs
  | cleared c _ => exact (Keeps.allOpenConfirmed c (Keeps.refl (Q := fun _ => True) s)).bounded hs
  | lost l v c _ _ => exact (Keeps.cardEmptied c (Keeps.refl (Q := fun _ => True) (s.setLane l v))).bounded hs
  | _ => exact hs

theorem Does.bounded {o s t : State} {A : Act → Prop} (h : Does o A s t) (hs : QueueLawful s) : QueueLawful t :=
  h.keeps (fun _ _ d => d.bounded) hs

/-! ### The tables and the contexts (R7, R37, R43, R44, R64, R92) -/

/-- The law of the tables rests on the tables. -/
theorem tablesLawful_congr {s t : State} (h : t.tables = s.tables) : TablesLawful t ↔ TablesLawful s := by
  simp only [TablesLawful, State.siteEntry, State.busEntry, State.cardEntry, h]

theorem disabledAtRest_congr {s t : State} (h : t.tables = s.tables) (hc : t.ctxs = s.ctxs) :
    DisabledAtRest t ↔ DisabledAtRest s := by
  simp only [DisabledAtRest, State.busEntry, State.ctx, h, hc]

theorem walksLawful_congr {s t : State} (hc : t.ctxs = s.ctxs) : WalksLawful t ↔ WalksLawful s := by
  simp only [WalksLawful, State.ctx, hc]

theorem Deed.tablesLawful {o s t : State} {A : Act → Prop} (h : Deed o A s t) (hs : TablesLawful s) : TablesLawful t := by
  cases h with
  | plain _ h => exact (tablesLawful_congr h.tables).2 hs
  | inner _ L C _ _ _ k _ => exact (tablesLawful_congr k.tables).2 hs
  | tables k _ _ hT _ _ _ => exact hT hs
  | orderEnds c q reason ps f _ _ _ => rw [State.modXps_eq]; exact hs
  | lost l v c _ _ => exact (tablesLawful_congr (by rw [cardEmptied_eq]; rfl)).2 hs
  | cleared c _ =>
    exact (tablesLawful_congr (Keeps.allOpenConfirmed c (Keeps.refl (Q := fun _ => True) s)).tables).2 hs
  | _ => exact hs

/-- The contexts stand when crosspoints and cards change. -/
theorem State.modXps_ctx (s : State) (x y : Bus) (ps : List Pt) (f : XRec → XRec) : (s.modXps x ps f).ctx y = s.ctx y := by
  rw [State.modXps_eq]; rfl

/-- A confirmed ALL-OPEN changes crosspoint records and leaves work, and nothing else (R40). -/
theorem allOpenConfirmed_eq (s : State) (c : CardId) :
    allOpenConfirmed s c = { s with
      matrix := { s.matrix with xps := (allOpenConfirmed s c).matrix.xps }, matrixWork := (allOpenConfirmed s c).matrixWork } := by
  have h : ∀ (l : List Bus) (u : State), l.foldl (fun s x => s.modXps x (cardPoints c) XRec.openDone) u =
      { u with matrix := { u.matrix with
        xps := (l.foldl (fun s x => s.modXps x (cardPoints c) XRec.openDone) u).matrix.xps } } := by
    intro l
    induction l with
    | nil => exact fun _ => rfl
    | cons x l ih => intro u; rw [List.foldl_cons, ih, State.modXps_eq]
  unfold allOpenConfirmed
  dsimp only
  rw [h]
  rfl

theorem Deed.disabledAtRest {o s t : State} {A : Act → Prop} (h : Deed o A s t) (hs : DisabledAtRest s) :
    DisabledAtRest t := by
  have hset : ∀ (x : Bus) (c' : Ctx), ((s.busEntry x).enabled = true ∨ ((s.ctx x).Restful → c'.Restful)) →
      DisabledAtRest (s.setCtx x c') := fun x c' hr y hy => by
    have hy' : (s.busEntry y).enabled = false := hy
    rw [State.ctx_setCtx]
    split
    · next e =>
      subst e
      rcases hr with hr | hr
      · rw [hr] at hy'; cases hy'
      · exact hr (hs _ hy')
    · exact hs y hy'
  cases h with
  | plain _ h => exact (disabledAtRest_congr h.tables h.ctxs).2 hs
  | inner _ L C _ _ _ k _ => exact k.rest hs
  | tables k _ _ _ hD _ _ => exact hD hs
  | source x v _ => exact hset x _ (.inr (fun h => h.of_same ⟨rfl, rfl, rfl⟩))
  | ctx x c' _ hrest => exact hset x c' hrest
  | orderEnds c q reason ps f _ _ _ => rw [State.modXps_eq]; exact hs
  | cleared c _ => exact (Keeps.allOpenConfirmed c (Keeps.refl (Q := fun _ => True) s)).rest hs
  | lost l v c _ _ => exact (Keeps.cardEmptied c (Keeps.refl (Q := fun _ => True) (s.setLane l v))).rest hs
  | _ => exact hs

/-- A move keeps the walks (R92). -/
theorem Move.walks {L C : Prop} {Y : Bus → Prop} {s t : State} (h : Move L C Y s t) (hs : WalksLawful s) :
    WalksLawful t := by
  have hset : ∀ (u : State) (x : Bus) (c' : Ctx), WalksLawful u → ((u.ctx x).WalkLawful → c'.WalkLawful) →
      WalksLawful (u.setCtx x c') := fun u x c' hu hc y => by
    rw [State.ctx_setCtx]
    split
    · next e => subst e; exact hc (hu _)
    · exact hu y
  have hxps : ∀ (u : State) x ps f, WalksLawful u → WalksLawful (u.modXps x ps f) := fun u x ps f hu =>
    (walksLawful_congr (by rw [State.modXps_eq])).2 hu
  have hsend : ∀ (u : State) c o, WalksLawful u → WalksLawful (sendOrder u c o) := fun u c o hu => by
    unfold sendOrder
    dsimp only
    refine hxps _ _ _ _ ?_
    split
    · split <;> exact hu
    · exact hu
  cases h with
  | plain _ h => rw [h]; exact hs
  | source x v _ _ _ => exact hset s x _ hs id
  | goLive x _ _ _ _ => exact hset _ x _ hs id
  | ctx x c' _ h => exact hset s x c' hs h.walk
  | request x r _ => exact hset s x _ hs id
  | unblock x _ => exact hset s x _ hs id
  | unreserve x ps => exact hxps _ _ _ _ hs
  | reserve x ps _ _ => exact hxps _ _ _ _ hs
  | mark x ps => exact hxps _ _ _ _ hs
  | sendOpen c k o _ _ => exact hsend _ c _ hs
  | sendMake c o rest _ _ _ _ _ => exact hsend _ c o hs
  | _ => exact hs

/-- What each move keeps, a run keeps. -/
theorem Run.keeps {L C : Prop} {Y : Bus → Prop} {P : State → Prop} (hP : ∀ u v, Move L C Y u v → P u → P v) {s t : State}
    (h : Run L C Y s t) (hs : P s) : P t := by
  induction h with
  | refl => exact hs
  | tail _ d ih => exact hP _ _ d ih

theorem Deed.walks {o s t : State} {A : Act → Prop} (h : Deed o A s t) (hs : WalksLawful s) : WalksLawful t := by
  have hset : ∀ (x : Bus) (c' : Ctx), ((s.ctx x).WalkLawful → c'.WalkLawful) → WalksLawful (s.setCtx x c') :=
    fun x c' hc y => by
      rw [State.ctx_setCtx]
      split
      · next e => subst e; exact hc (hs _)
      · exact hs y
  cases h with
  | plain _ h => exact (walksLawful_congr h.ctxs).2 hs
  | inner _ L C _ _ _ _ r => exact r.keeps (fun _ _ m => m.walks) hs
  | source x v _ => exact hset x _ id
  | ctx x c' h _ => exact hset x c' h.walk
  | orderEnds c q reason ps f _ _ _ => exact (walksLawful_congr (by rw [State.modXps_eq]; rfl)).2 hs
  | cleared c _ => exact (walksLawful_congr (by rw [allOpenConfirmed_eq])).2 hs
  | lost l k c _ _ => exact (walksLawful_congr (by rw [cardEmptied_eq]; rfl)).2 hs
  | _ => exact hs

/-! ### The matrix (R21, R22, R36) -/

/-- The crosspoint list is canonical, every wear count in its range, the priority parts hold opens and the order counters
follow. -/
structure MatrixKept (s : State) : Prop where
  canonical : Sparse.wf s.matrix.xps = true
  wear : WearLawful s
  opensFirst : OpensFirst s
  tags : TagsFollow s

theorem MatrixKept.congr {s t : State} (hs : MatrixKept s) (h : t.matrix = s.matrix) : MatrixKept t where
  canonical := by rw [h]; exact hs.canonical
  wear := fun x p => by rw [State.xp, h]; exact hs.wear x p
  opensFirst := fun c => by rw [State.card, h]; exact hs.opensFirst c
  tags := fun c => by rw [State.card, h]; exact hs.tags c

theorem Keeps.matrixKept {Q : Rec → Prop} {s t : State} (k : Keeps Q s t) (hs : MatrixKept s) : MatrixKept t where
  canonical := k.canonical hs.canonical
  wear := fun x p => by rw [State.xp, k.wear]; exact hs.wear x p
  opensFirst := k.opensFirst hs.opensFirst
  tags := k.tags hs.tags

/-- One record is replaced, its wear count in range. -/
theorem setXp_kept {s : State} (hs : MatrixKept s) (x : Bus) (p : Pt) {r : XRec} (hr : r.wear ≤ maxWear) :
    MatrixKept (s.setXp x p r) where
  canonical := Sparse.wf_set _ _ _ hs.canonical
  wear := fun y q => by
    rw [State.xp_setXp]
    split
    · exact hr
    · exact hs.wear y q
  opensFirst := hs.opensFirst
  tags := hs.tags

theorem modXps_kept {s : State} (hs : MatrixKept s) (x : Bus) (ps : List Pt) {f : XRec → XRec}
    (hf : ∀ r : XRec, r.wear ≤ maxWear → (f r).wear ≤ maxWear) : MatrixKept (s.modXps x ps f) := by
  induction ps generalizing s with
  | nil => exact hs
  | cons p ps ih => exact ih (setXp_kept hs x p (hf _ (hs.wear x p)))

/-- A card whose pending order ends keeps its list and its counter. -/
theorem setCard_ended_kept {s : State} (hs : MatrixKept s) (c : CardId) (reason : Option Byte) :
    MatrixKept (s.setCard c { s.card c with pending := none, rejectReason := reason }) where
  canonical := hs.canonical
  wear := hs.wear
  opensFirst := fun d o ho => by
    rw [State.card_setCard] at ho
    split at ho
    · next e => subst e; exact hs.opensFirst _ o ho
    · exact hs.opensFirst d o ho
  tags := fun d => by
    rw [State.card_setCard]
    split
    · intro q hq; cases hq
    · exact hs.tags d

theorem Deed.matrixKept {o s t : State} {A : Act → Prop} (h : Deed o A s t) (hs : MatrixKept s) : MatrixKept t := by
  cases h with
  | plain _ h => exact hs.congr h.matrix
  | inner _ L C _ _ _ k _ => exact k.matrixKept hs
  | orderEnds c q reason ps f _ _ hf =>
    refine modXps_kept (setCard_ended_kept hs c reason) _ _ (fun r hr => ?_)
    rcases hf with hf | ⟨-, hf⟩
    · rw [hf]; exact hr
    · rw [hf]; exact Nat.min_le_right _ _
  | cleared c _ => exact (Keeps.allOpenConfirmed c (Keeps.refl (Q := fun _ => True) s)).matrixKept hs
  | lost l v c _ _ => exact (Keeps.cardEmptied c (Keeps.refl (Q := fun _ => True) (s.setLane l v))).matrixKept (hs.congr rfl)
  | wear x p w _ hw => exact setXp_kept hs x p hw
  | _ => exact hs.congr rfl

/-! ### The stores (R36, R133 to R135) -/

/-- The tables move where the command may write them. -/
theorem Does.tables {o s t : State} {A : Act → Prop} (h : Does o A s t) (hA : ¬ A .tables) : t.tables = s.tables :=
  h.keeps (P := fun u => u.tables = s.tables) (fun u v d e => by
    refine Eq.trans ?_ e
    cases d with
    | plain _ h => exact h.tables
    | inner _ L C _ _ _ k _ => exact k.tables
    | tables k hk _ _ _ _ _ => exact absurd hk hA
    | orderEnds c q reason ps f _ _ _ => rw [State.modXps_eq]; rfl
    | cleared c _ => exact (Keeps.allOpenConfirmed c (Keeps.refl (Q := fun _ => True) u)).tables
    | lost l w c _ _ => exact (Keeps.cardEmptied c (Keeps.refl (Q := fun _ => True) (u.setLane l w))).tables
    | _ => rfl) rfl

/-- Wear counts stand but for a DONE and a WEAR write. -/
theorem Does.wear {o s t : State} {A : Act → Prop} (h : Does o A s t) (hdone : ¬ A .done) (hwear : ¬ A .wear) (x : Bus)
    (p : Pt) : (t.xp x p).wear = (s.xp x p).wear :=
  h.keeps (P := fun u => (u.xp x p).wear = (s.xp x p).wear) (fun u v d e => by
    refine Eq.trans ?_ e
    cases d with
    | plain _ h => rw [State.xp, State.xp, h.matrix]
    | inner _ L C _ _ _ k _ => exact k.wear _
    | orderEnds c q reason ps f _ _ hf =>
      refine State.xp_modXps_keeps (P := fun r => r.wear = (u.xp x p).wear) _ _ _ _ (fun r hr => ?_) p rfl
      rw [(hf.resolve_right (fun hd => hdone hd.1)), hr]
    | cleared c _ => exact (Keeps.allOpenConfirmed c (Keeps.refl (Q := fun _ => True) u)).wear _
    | lost l w c _ _ => exact (Keeps.cardEmptied c (Keeps.refl (Q := fun _ => True) (u.setLane l w))).wear _
    | wear _ _ _ hw _ => exact absurd hw hwear
    | _ => rfl) rfl

/-- Wear counts only rise but for a WEAR write. -/
theorem Does.wearUp {o s t : State} {A : Act → Prop} (h : Does o A s t) (hwear : ¬ A .wear) (hs : WearLawful s) (x : Bus)
    (p : Pt) : (s.xp x p).wear ≤ (t.xp x p).wear :=
  (h.keeps (P := fun u => WearLawful u ∧ (s.xp x p).wear ≤ (u.xp x p).wear) (fun u v d ⟨hu, hle⟩ => by
    have hsame : (∀ y q, (v.xp y q).wear = (u.xp y q).wear) → WearLawful v ∧ (s.xp x p).wear ≤ (v.xp x p).wear :=
      fun he => ⟨fun y q => by rw [he]; exact hu y q, by rw [he]; exact hle⟩
    cases d with
    | plain _ h => exact hsame fun y q => by rw [State.xp, State.xp, h.matrix]
    | inner _ L C _ _ _ k _ => exact hsame fun y q => k.wear _
    | orderEnds c q reason ps f _ _ hf =>
      rcases hf with hf | ⟨-, hf⟩
      · exact hsame fun y q' => State.xp_modXps_keeps (P := fun r => r.wear = (u.xp y q').wear) _ _ _ _
          (fun r hr => (hf r).trans hr) q' rfl
      · refine ⟨fun y q' => ?_, hle.trans ?_⟩
        · exact State.xp_modXps_keeps (P := fun r => r.wear ≤ maxWear) _ _ _ _
            (fun r hr => by rw [hf]; exact Nat.min_le_right _ _) q' (hu y q')
        · have hmore : ∀ r : XRec, (u.xp x p).wear ≤ r.wear ∧ r.wear ≤ maxWear →
              (u.xp x p).wear ≤ (f r).wear ∧ (f r).wear ≤ maxWear := fun r hr => by rw [hf]; omega
          exact (State.xp_modXps_keeps (P := fun r => (u.xp x p).wear ≤ r.wear ∧ r.wear ≤ maxWear)
            (u.setCard c { u.card c with pending := none, rejectReason := reason }) _ _ _ hmore p ⟨le_rfl, hu x p⟩).1
    | cleared c _ => exact hsame fun y q => (Keeps.allOpenConfirmed c (Keeps.refl (Q := fun _ => True) u)).wear _
    | lost l w c _ _ => exact hsame fun y q => (Keeps.cardEmptied c (Keeps.refl (Q := fun _ => True) (u.setLane l w))).wear _
    | wear _ _ _ hw _ => exact absurd hw hwear
    | _ => exact hsame fun y q => rfl) ⟨hs, le_rfl⟩).2

/-- A verdict record after judgements in order (R134). -/
def SiteVerdict.afterAll (disps : Vector DispEntry 80) (v : SiteVerdict) (js : List (Fin 16 × Verdict)) : SiteVerdict :=
  js.foldl (fun a j => a.judge j.2 disps[dispNo j.1 j.2]) v

/-- Verdict record `u` of `t` is that of `s` after some judgements. -/
def JudgedOnward (s t : State) (u : Site) : Prop :=
  ∃ js : List (Fin 16 × Verdict), t.verdict u = (s.verdict u).afterAll s.tables.disps js

theorem JudgedOnward.refl (s : State) (u : Site) : JudgedOnward s s u := ⟨[], rfl⟩

theorem JudgedOnward.trans {s t v : State} {u : Site} (h : JudgedOnward s t u) (hd : t.tables.disps = s.tables.disps)
    (k : JudgedOnward t v u) : JudgedOnward s v u := by
  obtain ⟨js, hj⟩ := h
  obtain ⟨ks, hk⟩ := k
  refine ⟨js ++ ks, ?_⟩
  rw [hk, hj, hd, SiteVerdict.afterAll, SiteVerdict.afterAll, SiteVerdict.afterAll, List.foldl_append]

/-- The judgement of a site is the only move that changes its verdict record. -/
theorem Move.judgedOnward {L C : Prop} {Y : Bus → Prop} {s t : State} (h : Move L C Y s t) (u : Site) :
    JudgedOnward s t u := by
  have hsame : t.panel = s.panel → JudgedOnward s t u := fun he => ⟨[], by rw [State.verdict, he]; rfl⟩
  have hxps : ∀ (v : State) x ps f, (v.modXps x ps f).panel = v.panel := fun v x ps f => by rw [State.modXps_eq]
  have hsend : ∀ (v : State) c o, (sendOrder v c o).panel = v.panel := fun v c o => by
    unfold sendOrder
    dsimp only
    rw [hxps]
    split
    · split <;> rfl
    · rfl
  cases h with
  | plain _ h => exact hsame (by rw [h])
  | unreserve x ps => exact hsame (hxps _ _ _ _)
  | reserve x ps _ _ => exact hsame (hxps _ _ _ _)
  | mark x ps => exact hsame (hxps _ _ _ _)
  | sendOpen c k o _ _ => exact hsame (hsend _ c _)
  | sendMake c o rest _ _ _ _ _ => exact hsame (hsend _ c o)
  | verdict w row v =>
    by_cases hw : w = u
    · subst hw
      exact ⟨[(row, v)], by simp [State.verdict, State.setVerdict, SiteVerdict.afterAll]⟩
    · refine ⟨[], ?_⟩
      have : w.val ≠ u.val := fun e => hw (Fin.ext e)
      simp [State.verdict, State.setVerdict, SiteVerdict.afterAll, this]
  | _ => exact hsame rfl

theorem Run.judgedOnward {L C : Prop} {Y : Bus → Prop} {s t : State} (h : Run L C Y s t) (u : Site) :
    JudgedOnward s t u := by
  induction h with
  | refl => exact .refl s u
  | tail r m ih => exact ih.trans (by rw [Run.frame (Y := Y) r |>.1]) (m.judgedOnward u)

/-- The panel number stands, and the verdict records move by judgements, but for PANEL BEGIN (R133 to R135). -/
theorem Does.panel {o s t : State} {A : Act → Prop} (h : Does o A s t) (hA : ¬ A .newPanel) (hd : ¬ A .disps) (u : Site) :
    t.panel.number = s.panel.number ∧ JudgedOnward s t u :=
  (h.keeps (P := fun v => v.tables.disps = s.tables.disps ∧ v.panel.number = s.panel.number ∧ JudgedOnward s v u)
    (fun v w d ⟨hv, hn, hj⟩ => by
      have hstep : w.tables.disps = v.tables.disps → w.panel.number = v.panel.number → JudgedOnward v w u →
          w.tables.disps = s.tables.disps ∧ w.panel.number = s.panel.number ∧ JudgedOnward s w u :=
        fun h1 h2 h3 => ⟨h1.trans hv, h2.trans hn, hj.trans hv h3⟩
      have hpanel : w.tables.disps = v.tables.disps → w.panel = v.panel →
          w.tables.disps = s.tables.disps ∧ w.panel.number = s.panel.number ∧ JudgedOnward s w u :=
        fun h1 h2 => hstep h1 (by rw [h2]) ⟨[], by rw [State.verdict, h2]; rfl⟩
      cases d with
      | plain _ h => exact hstep (by rw [h.tables]) h.number ⟨[], by rw [State.verdict, h.verdicts]; rfl⟩
      | inner _ L C _ _ _ k r => exact hstep (by rw [k.tables]) k.panelNumber (r.judgedOnward u)
      | tables k _ hk _ _ _ _ => exact hpanel (hk.resolve_right hd) rfl
      | orderEnds c q reason ps f _ _ _ => exact hpanel (by rw [State.modXps_eq]; rfl) (by rw [State.modXps_eq]; rfl)
      | cleared c _ => exact hpanel (by rw [allOpenConfirmed_eq]) (by rw [allOpenConfirmed_eq])
      | lost l k c _ _ => exact hpanel (by rw [cardEmptied_eq]; rfl) (by rw [cardEmptied_eq]; rfl)
      | newPanel p hp => exact absurd hp hA
      | _ => exact hpanel rfl rfl) ⟨rfl, rfl, .refl s u⟩).2

/-- A command that works through no consequences leaves the panel number and the verdict records, but for PANEL BEGIN. -/
theorem Does.panelStands {o s t : State} {A : Act → Prop} (h : Does o A s t) (hA : ¬ A .newPanel) (hw : ¬ A .work) :
    t.panel.number = s.panel.number ∧ t.panel.verdicts = s.panel.verdicts :=
  h.keeps (P := fun v => v.panel.number = s.panel.number ∧ v.panel.verdicts = s.panel.verdicts) (fun v w d ⟨h1, h2⟩ => by
    cases d with
    | plain _ h => exact ⟨h.number.trans h1, h.verdicts.trans h2⟩
    | inner _ L C hwork _ _ _ _ => exact absurd hwork hw
    | orderEnds c q reason ps f _ _ _ => rw [State.modXps_eq]; exact ⟨h1, h2⟩
    | cleared c _ => rw [allOpenConfirmed_eq]; exact ⟨h1, h2⟩
    | lost l k c _ _ => rw [cardEmptied_eq]; exact ⟨h1, h2⟩
    | newPanel p hp => exact absurd hp hA
    | _ => exact ⟨h1, h2⟩) ⟨rfl, rfl⟩

/-! ### The guard unit and the lanes (R45, R57, R157, R170) -/

/-- The rack state moves where the command may move it. -/
theorem Does.rack {o s t : State} {A : Act → Prop} (h : Does o A s t) : t.guard.rack = s.guard.rack ∨ A (.rack t.guard.rack) :=
  h.keeps (P := fun v => v.guard.rack = s.guard.rack ∨ A (.rack v.guard.rack)) (fun v w d hv => by
    have hsame : w.guard = v.guard → w.guard.rack = s.guard.rack ∨ A (.rack w.guard.rack) := fun e => by rw [e]; exact hv
    cases d with
    | plain _ h => rw [h.rack]; exact hv
    | inner _ L C _ _ _ k _ => exact hsame k.guard
    | guard g hr _ _ _ =>
      rcases hr with hr | hr
      · rw [hr]; exact hv
      · exact .inr hr
    | orderEnds c q reason ps f _ _ _ => exact hsame (by rw [State.modXps_eq]; rfl)
    | cleared c _ => exact hsame (by rw [allOpenConfirmed_eq])
    | lost l k c _ _ => exact hsame (by rw [cardEmptied_eq]; rfl)
    | _ => exact hsame rfl) (.inl rfl)

/-- A trip flag is cleared where the command may clear it. -/
theorem Does.trips {o s t : State} {A : Act → Prop} (h : Does o A s t) {x : Bus} (hA : ¬ A (.clear x))
    (hs : s.tripped x = true) : t.tripped x = true :=
  h.keeps (P := fun v => v.tripped x = true) (fun v w d hv => by
    have hsame : w.guard = v.guard → w.tripped x = true := fun e => by rw [State.tripped, e]; exact hv
    cases d with
    | plain _ h => rw [State.tripped, h.trips]; exact hv
    | inner _ L C _ _ _ k _ => exact hsame k.guard
    | guard g _ ht _ _ =>
      rw [← Bool.not_eq_false]
      exact fun hf => hA (ht x hv hf)
    | orderEnds c q reason ps f _ _ _ => exact hsame (by rw [State.modXps_eq]; rfl)
    | cleared c _ => exact hsame (by rw [allOpenConfirmed_eq])
    | lost l k c _ _ => exact hsame (by rw [cardEmptied_eq]; rfl)
    | _ => exact hsame rfl) hs

/-- A trip flag is set where the command may trip. -/
theorem Does.untripped {o s t : State} {A : Act → Prop} (h : Does o A s t) {x : Bus} (hA : ¬ A .trip)
    (hs : s.tripped x = false) : t.tripped x = false :=
  h.keeps (P := fun v => v.tripped x = false) (fun v w d hv => by
    have hsame : w.guard = v.guard → w.tripped x = false := fun e => by rw [State.tripped, e]; exact hv
    cases d with
    | plain _ h => rw [State.tripped, h.trips]; exact hv
    | inner _ L C _ _ _ k _ => exact hsame k.guard
    | guard g _ _ ht _ =>
      rw [← Bool.not_eq_true]
      exact fun hf => hA (ht x hv hf)
    | orderEnds c q reason ps f _ _ _ => exact hsame (by rw [State.modXps_eq]; rfl)
    | cleared c _ => exact hsame (by rw [allOpenConfirmed_eq])
    | lost l k c _ _ => exact hsame (by rw [cardEmptied_eq]; rfl)
    | _ => exact hsame rfl) hs

/-- A lane record moves where the command may move it. -/
theorem Does.lane {o s t : State} {A : Act → Prop} (h : Does o A s t) {l : LaneId} (hA : ¬ A (.lane l)) :
    t.lane l = s.lane l :=
  h.keeps (P := fun v => v.lane l = s.lane l) (fun v w d hv => by
    have hsame : w.lanes = v.lanes → w.lane l = s.lane l := fun e => by rw [State.lane, e]; exact hv
    cases d with
    | plain _ h => exact hsame h.lanes
    | inner _ L C _ _ _ k _ => exact hsame k.lanes
    | lost l' k c hl _ =>
      have hll : l' ≠ l := by rintro rfl; exact hA hl
      rw [State.lane, cardEmptied_eq]
      exact (State.lane_setLane v l' l k).trans ((if_neg hll).trans hv)
    | lane l' k hl _ =>
      rw [State.lane_setLane, if_neg (by rintro rfl; exact hA hl)]; exact hv
    | orderEnds c q reason ps f _ _ _ => exact hsame (by rw [State.modXps_eq]; rfl)
    | cleared c _ => exact hsame (by rw [allOpenConfirmed_eq])
    | _ => exact hsame rfl) rfl

end Sys2Proof.Machine
end

