-- ==== Sys2Proof/Proofs/Permits.lean ====
section
/-!
PROOFS. The frames that a command sends (R29, R49, R50): what sending an order does, which moves close a relay or make a
source live, and that every frame is permitted.
-/

namespace Sys2Proof.Machine

/-! ### Sending an order (R21, R22) -/

/-- The ORDER frame of an order that is sent, where the card's lane can take it (R21). -/
def orderFrames (s : State) (c : CardId) (o : Order) : List (LaneId × LaneFrame) :=
  match (s.cardEntry c).lane with
  | some l => if s.laneHasCard l then [(l, o.frame (s.card c).nextTag)] else []
  | none => []

theorem mem_orderFrames {s : State} {c : CardId} {o : Order} {e : LaneId × LaneFrame} (h : e ∈ orderFrames s c o) :
    e.2 = o.frame (s.card c).nextTag := by
  unfold orderFrames at h
  split at h
  · split at h
    · rw [List.mem_singleton.1 h]
    · cases h
  · cases h

/-- Sending an order: its frame, the card's tag and pending order, and the order's crosspoints (R21, R22). -/
theorem sendOrder_eq (s : State) (c : CardId) (o : Order) :
    sendOrder s c o = (State.setCard { s with out := s.out ++ orderFrames s c o } c
      { s.card c with pending := some ⟨(s.card c).nextTag, o⟩, nextTag := (s.card c).nextTag + 1 }).modXps o.bus o.points
        o.sentTo := by
  unfold sendOrder orderFrames
  cases (s.cardEntry c).lane with
  | none => simp
  | some l => cases hl : s.laneHasCard l <;> simp [hl, State.emit]

theorem sendOrder_out (s : State) (c : CardId) (o : Order) : (sendOrder s c o).out = s.out ++ orderFrames s c o := by
  rw [sendOrder_eq, State.modXps_eq]; rfl

@[simp] theorem sendOrder_tables (s : State) (c : CardId) (o : Order) : (sendOrder s c o).tables = s.tables := by
  rw [sendOrder_eq, State.modXps_eq]; rfl

@[simp] theorem sendOrder_ctxs (s : State) (c : CardId) (o : Order) : (sendOrder s c o).ctxs = s.ctxs := by
  rw [sendOrder_eq, State.modXps_eq]; rfl

theorem sendOrder_card (s : State) (c d : CardId) (o : Order) :
    (sendOrder s c o).card d =
      if c = d then { s.card c with pending := some ⟨(s.card c).nextTag, o⟩, nextTag := (s.card c).nextTag + 1 }
      else s.card d := by
  rw [sendOrder_eq, State.modXps_card, State.card_setCard]; rfl

theorem sendOrder_xp (s : State) (c : CardId) (o : Order) (y : Bus) (p : Pt) :
    (sendOrder s c o).xp y p = (s.modXps o.bus o.points o.sentTo).xp y p := by
  rw [sendOrder_eq, State.xp_modXps, State.xp_modXps]; rfl

/-- An open closes no relay (R21). -/
theorem Order.frame_harmless {o : Order} (h : o.kind ≠ .make) (tag : Byte) : (o.frame tag).harmless = true := by
  simp [Order.frame, LaneFrame.harmless, h]

/-- An order popped from a card's list is no close where the priority part holds opens (R22). -/
theorem CardCtl.Pops.kind {s : State} (hs : OpensFirst s) {c : CardId} {o : Order} {k : CardCtl} (h : (s.card c).Pops o k) :
    o.kind ≠ .make := by
  rcases h with ⟨rest, hp, -⟩ | ⟨-, hk, -⟩
  · rcases hs c o (by rw [hp]; exact List.mem_cons_self) with h | h <;> rw [h] <;> decide
  · exact hk

/-- What is left of a card's list after the next order has gone holds nothing new in its priority part. -/
theorem CardCtl.Pops.priority {k k' : CardCtl} {o : Order} (h : k.Pops o k') : ∀ q ∈ k'.priority, q ∈ k.priority := by
  rcases h with ⟨rest, hp, rfl⟩ | ⟨hp, -, rest, -, rfl⟩
  · intro q hq; rw [hp]; exact List.mem_cons_of_mem _ hq
  · exact fun _ => id

/-! ### The priority parts (R22) -/

/-- A card is replaced by one whose priority part holds only opens, and orders that it held before. -/
theorem setCard_opensFirst {s : State} (hs : OpensFirst s) (c : CardId) {k : CardCtl}
    (hk : ∀ q ∈ k.priority, q ∈ (s.card c).priority ∨ q.kind = .recovery ∨ q.kind = .emergency) :
    OpensFirst (s.setCard c k) := fun d o ho => by
  rw [State.card_setCard] at ho
  split at ho
  · next e => subst e; exact (hk o ho).elim (hs _ o) id
  · exact hs d o ho

theorem opensFirst_congr {s t : State} (h : t.matrix.cards = s.matrix.cards) (hs : OpensFirst s) : OpensFirst t :=
  fun c => by rw [State.card, h]; exact hs c

theorem modXps_opensFirst {s : State} (hs : OpensFirst s) (x : Bus) (ps : List Pt) (f : XRec → XRec) :
    OpensFirst (s.modXps x ps f) := fun c => by rw [State.modXps_card]; exact hs c

theorem sendOrder_opensFirst {s : State} (hs : OpensFirst s) (c : CardId) (o : Order) : OpensFirst (sendOrder s c o) :=
  fun d q hq => by
    rw [sendOrder_card] at hq
    split at hq
    · exact hs _ q hq
    · exact hs d q hq

/-- A move keeps the priority parts (R22). -/
theorem Move.opensFirst {L C : Prop} {Y : Bus → Prop} {s t : State} (h : Move L C Y s t) (hs : OpensFirst s) :
    OpensFirst t := by
  cases h with
  | plain _ h => rw [h]; exact hs
  | unreserve x ps => exact modXps_opensFirst hs _ _ _
  | reserve x ps _ _ => exact modXps_opensFirst hs _ _ _
  | mark x ps => exact modXps_opensFirst hs _ _ _
  | shrink c k h => exact setCard_opensFirst hs c (fun q hq => .inl (h.priority ▸ hq))
  | list c o _ _ _ => exact setCard_opensFirst hs c (fun q hq => .inl hq)
  | listFirst c l o hk hl _ _ =>
    refine setCard_opensFirst hs c (fun q hq => ?_)
    rcases (hl q).1 hq with h | rfl
    · exact .inl h
    · exact .inr hk
  | drop c k o _ h _ => exact setCard_opensFirst hs c (fun q hq => .inl (h.priority q hq))
  | sendOpen c k o _ h =>
    exact sendOrder_opensFirst (setCard_opensFirst hs c (fun q hq => .inl (h.priority q hq))) c _
  | sendMake c o rest _ _ _ _ _ =>
    exact sendOrder_opensFirst
      (setCard_opensFirst hs c (k := { s.card c with ordinary := rest }) (fun q hq => .inl hq)) c o
  | _ => exact hs

/-! ### Runs that close nothing -/

/-- A move that may not close sends nothing that closes (R21). -/
theorem Move.calm {L C : Prop} {Y : Bus → Prop} {s t : State} (h : Move L C Y s t) (hC : ¬ C) (ho : OpensFirst s)
    (hs : Calm s) : Calm t := by
  cases h with
  | plain _ h => rw [h]; exact hs
  | emit l f hf =>
    intro e he
    rcases List.mem_append.1 he with he | he
    · exact hs e he
    · rw [List.mem_singleton.1 he]; exact hf
  | goLive _ h => exact absurd h hC
  | sendMake _ _ _ h => exact absurd h hC
  | unreserve x ps => rw [Calm, State.modXps_eq]; exact hs
  | reserve x ps _ _ => rw [Calm, State.reserve, State.modXps_eq]; exact hs
  | mark x ps => rw [Calm, State.modXps_eq]; exact hs
  | sendOpen c k o _ h =>
    intro e he
    rw [sendOrder_out] at he
    rcases List.mem_append.1 he with he | he
    · exact hs e he
    · rw [mem_orderFrames he]; exact Order.frame_harmless (o := { o with points := o.leftToOpen s }) (h.kind ho) _
  | _ => exact hs

theorem Run.calm {L C : Prop} {Y : Bus → Prop} {s t : State} (h : Run L C Y s t) (hC : ¬ C) (ho : OpensFirst s)
    (hs : Calm s) : Calm t :=
  (h.keeps (P := fun u => OpensFirst u ∧ Calm u) (fun _ _ m hu => ⟨m.opensFirst hu.1, m.calm hC hu.1 hu.2⟩) ⟨ho, hs⟩).2

/-! ### Closes for quiet sources (R29) -/

/-- Every make order shown for a SOURCE bus found its record QUIET: it is so still, or its LIVE went out later (R29). -/
def QuietMakes (s : State) : Prop :=
  ∀ l tag x cols before later, s.out = before ++ (l, .order tag true x cols) :: later → (s.busEntry x).kind = .source →
    (s.ctx x).source = .quiet ∨ ((s.busEntry x).lane, .live (s.busEntry x).channel) ∈ later

/-- An element of two lists joined is in the first, with the second behind it, or in the second. -/
theorem append_eq_append_cons {α : Type} {l m b c : List α} {e : α} (h : l ++ m = b ++ e :: c) :
    (∃ c', c = c' ++ m ∧ l = b ++ e :: c') ∨ e ∈ m := by
  rcases List.append_eq_append_iff.1 h with ⟨a, rfl, ha⟩ | ⟨a, rfl, ha⟩
  · exact .inr (by rw [ha]; exact List.mem_append_right _ List.mem_cons_self)
  · cases a with
    | nil => exact .inr (by rw [List.nil_append] at ha; rw [← ha]; exact List.mem_cons_self)
    | cons a as => cases ha; exact .inl ⟨as, rfl, rfl⟩

/-- More frames, no close among them that finds a source not QUIET, and sources that leave QUIET only behind a LIVE. -/
theorem QuietMakes.grow {s t : State} (hs : QuietMakes s) {m : List (LaneId × LaneFrame)} (hout : t.out = s.out ++ m)
    (ht : t.tables = s.tables)
    (hm : ∀ l tag x cols, (l, LaneFrame.order tag true x cols) ∈ m → (s.busEntry x).kind = .source →
      (t.ctx x).source = .quiet)
    (hq : ∀ x, (s.ctx x).source = .quiet → (t.ctx x).source = .quiet ∨
      ((s.busEntry x).lane, .live (s.busEntry x).channel) ∈ m) : QuietMakes t := by
  intro l tag x cols before later he hk
  have hbus : t.busEntry x = s.busEntry x := by rw [State.busEntry, ht]; rfl
  rw [hbus] at hk ⊢
  rw [hout] at he
  rcases append_eq_append_cons he with ⟨c', rfl, hc⟩ | hmem
  · rcases hs l tag x cols before c' hc hk with h | h
    · exact (hq x h).imp id (fun h => List.mem_append_right _ h)
    · exact .inr (List.mem_append_left _ h)
  · exact .inl (hm l tag x cols hmem hk)

/-- Nothing closes: no make order is shown. -/
theorem Calm.quietMakes {s : State} (h : Calm s) : QuietMakes s := fun l tag x cols before later he _ => by
  have := h (l, .order tag true x cols) (by rw [he]; exact List.mem_append_right _ List.mem_cons_self)
  cases this

theorem Calm.permitted {s t : State} (h : Calm s) (ht : t.out = s.out) : ∀ e ∈ t.out, Permitted t e := fun e he => by
  have hh := h e (ht ▸ he)
  obtain ⟨l, f⟩ := e
  cases f with
  | order tag close x cols => cases close with
    | true => cases hh
    | false => trivial
  | live ch => cases hh
  | _ => trivial

/-- A move keeps the closes to quiet sources (R29). -/
theorem Move.quietMakes {L C : Prop} {Y : Bus → Prop} {s t : State} (h : Move L C Y s t) (ho : OpensFirst s)
    (hs : QuietMakes s) : QuietMakes t := by
  have hsame : ∀ {v : State}, v.out = s.out → v.tables = s.tables → (∀ x, (v.ctx x).source = (s.ctx x).source) →
      QuietMakes v := fun h1 h2 h3 =>
    hs.grow (m := []) (by rw [h1, List.append_nil]) h2 (fun _ _ _ _ hm => by cases hm) (fun x hx => .inl (by rw [h3, hx]))
  have hset : ∀ (x : Bus) (c' : Ctx), c'.source = (s.ctx x).source → QuietMakes (s.setCtx x c') := fun x c' hc =>
    hsame rfl rfl (fun y => by
      rw [State.ctx_setCtx]
      split
      · next e => subst e; exact hc
      · rfl)
  have hxps : ∀ x ps f, QuietMakes (s.modXps x ps f) := fun x ps f =>
    hsame (by rw [State.modXps_eq]) (by rw [State.modXps_eq]) (fun y => by rw [State.modXps_ctx])
  cases h with
  | plain _ h => exact hsame (by rw [h]) (by rw [h]) (fun x => by rw [h]; rfl)
  | emit l f hf =>
    refine hs.grow rfl rfl (fun l' tag x cols hm _ => ?_) (fun x hx => .inl hx)
    rw [← (Prod.mk.inj (List.mem_singleton.1 hm)).2] at hf; cases hf
  | source x v hx hne hv =>
    refine hs.grow (m := []) (by rw [List.append_nil]; rfl) rfl (fun _ _ _ _ hm => by cases hm) (fun y hy => .inl ?_)
    rw [State.setSource, State.modCtx, State.ctx_setCtx, if_neg (by rintro rfl; exact hne hy)]
    exact hy
  | goLive x hC hx hq hb =>
    refine hs.grow (m := [((s.busEntry x).lane, .live (s.busEntry x).channel)]) rfl rfl
      (fun l tag y cols hm _ => by cases List.mem_singleton.1 hm) (fun y hy => ?_)
    by_cases hxy : x = y
    · subst hxy; exact .inr List.mem_cons_self
    · left
      rw [State.setSource, State.modCtx, State.ctx_setCtx, if_neg hxy]
      exact hy
  | ctx x c' _ h => exact hset x c' h.source
  | request x r _ => exact hset x _ rfl
  | unblock x _ => exact hset x _ rfl
  | unreserve x ps => exact hxps _ _ _
  | reserve x ps _ _ => exact hxps _ _ _
  | mark x ps => exact hxps _ _ _
  | sendOpen c k o _ h =>
    refine hs.grow (sendOrder_out _ _ _) (sendOrder_tables _ _ _) (fun l tag x cols hm _ => ?_)
      (fun y hy => .inl (by rw [State.ctx, sendOrder_ctxs]; exact hy))
    have hf := Order.frame_harmless (o := { o with points := o.leftToOpen s }) (h.kind ho)
    have := mem_orderFrames hm
    have hh := hf ((s.setCard c k).card c).nextTag
    rw [← this] at hh; cases hh
  | sendMake c o rest _ _ _ _ hc =>
    refine hs.grow (sendOrder_out _ _ _) (sendOrder_tables _ _ _) (fun l tag x cols hm hk => ?_)
      (fun y hy => .inl (by rw [State.ctx, sendOrder_ctxs]; exact hy))
    have hx : o.bus = x := by
      have := mem_orderFrames hm
      injection this with _ _ hbus _
      exact hbus.symm
    have hquiet := (sendCheck_pass hc).2.2.1
    rw [State.ctx, sendOrder_ctxs]
    subst hx
    have hkind : ((s.setCard c { s.card c with ordinary := rest }).busEntry o.bus).kind = .source := hk
    rw [State.sourceQuiet, hkind] at hquiet
    exact beq_iff_eq.1 hquiet
  | _ => exact hsame rfl rfl (fun _ => rfl)

/-! ### The frames of a command -/

/-- The frames shown are permitted, and the closes among them are for quiet sources, in a state with its laws. -/
structure FramesOk (s : State) : Prop where
  tables : TablesLawful s
  opensFirst : OpensFirst s
  rest : DisabledAtRest s
  permitted : ∀ e ∈ s.out, Permitted s e
  quiet : QuietMakes s

/-- A deed keeps the priority parts (R22). -/
theorem Deed.opensFirst {o s t : State} {A : Act → Prop} (h : Deed o A s t) (hs : OpensFirst s) : OpensFirst t := by
  cases h with
  | plain _ h => exact opensFirst_congr (by rw [h.matrix]) hs
  | inner _ L C _ _ _ k _ => exact k.opensFirst hs
  | orderEnds c q reason ps f _ _ _ =>
    exact modXps_opensFirst (setCard_opensFirst hs c (k := { s.card c with pending := none, rejectReason := reason })
      (fun q hq => .inl hq)) _ _ _
  | lost l v c _ _ =>
    exact (Keeps.cardEmptied c (Keeps.refl (Q := fun _ => True) (s.setLane l v))).opensFirst hs
  | cleared c _ => exact opensFirst_congr (by rw [allOpenConfirmed_eq]) hs
  | _ => exact hs

/-- Permission rests on the rack state, the trip flags and the tables. -/
theorem Permitted.of_same {s t : State} (hr : t.guard.rack = s.guard.rack) (hp : t.guard.trips = s.guard.trips)
    (ht : t.tables = s.tables) {e : LaneId × LaneFrame} (h : Permitted s e) : Permitted t e := by
  have h1 : t.isSafe = s.isSafe := by simp only [State.isSafe, hr]
  have h2 : ∀ x, t.tripped x = s.tripped x := fun x => by simp only [State.tripped, hp]
  have h3 : ∀ l c, sourceBusOn t l c = sourceBusOn s l c := fun l c => by simp only [sourceBusOn, State.busEntry, ht]
  revert h
  unfold Permitted
  split <;> simp only [h1, h2, h3, imp_self]

/-- The frames of a state that is the same but for blocks that frames do not rest on. -/
theorem FramesOk.sameFrames {s t : State} (hs : FramesOk s) (hout : t.out = s.out) (hr : t.guard.rack = s.guard.rack)
    (hp : t.guard.trips = s.guard.trips) (ht : t.tables = s.tables)
    (hc : ∀ x, (t.ctx x).source = (s.ctx x).source) : (∀ e ∈ t.out, Permitted t e) ∧ QuietMakes t :=
  ⟨fun e he => (hs.permitted e (hout ▸ he)).of_same hr hp ht,
    hs.quiet.grow (m := []) (by rw [hout, List.append_nil]) ht (fun _ _ _ _ hm => by cases hm)
      (fun x hx => .inl (by rw [hc, hx]))⟩

theorem Calm.frames {s t : State} (h : Calm s) (ht : t.out = s.out) : (∀ e ∈ t.out, Permitted t e) ∧ QuietMakes t :=
  ⟨h.permitted ht, Calm.quietMakes (by rw [Calm, ht]; exact h)⟩

/-- A deed keeps the frames permitted (R29, R49, R50). -/
theorem Deed.framesOk {o s t : State} {A : Act → Prop} (h : Deed o A s t) (ho : OpensFirst o) (hs : FramesOk s) :
    FramesOk t := by
  have hframes : (∀ e ∈ t.out, Permitted t e) ∧ QuietMakes t := by
    cases h with
    | plain _ h =>
      rcases h.out with hout | hout
      · exact hs.sameFrames hout h.rack h.trips h.tables (fun x => by rw [State.ctx, h.ctxs]; rfl)
      · have hcalm : Calm t := fun e he => by rw [hout] at he; cases he
        exact hcalm.frames rfl
    | inner _ L C _ _ _ k r =>
      obtain ⟨m, hout, hm⟩ := k.frames hs.tables hs.opensFirst hs.rest
      refine ⟨fun e he => (Permitted.congr k.guard k.tables e).2 ?_, ?_⟩
      · rw [hout] at he
        exact (List.mem_append.1 he).elim (hs.permitted e) (hm e)
      · exact (r.keeps (P := fun u => OpensFirst u ∧ QuietMakes u)
          (fun _ _ m hu => ⟨m.opensFirst hu.1, m.quietMakes hu.1 hu.2⟩) ⟨hs.opensFirst, hs.quiet⟩).2
    | guard g _ _ _ hout =>
      rcases hout with ⟨hr, hp⟩ | hout
      · exact hs.sameFrames rfl hr hp rfl (fun _ => rfl)
      · exact (hout ho).frames rfl
    | lost l v c _ _ =>
      rw [cardEmptied_eq]
      exact hs.sameFrames rfl rfl rfl rfl (fun _ => rfl)
    | lane l v _ _ => exact hs.sameFrames rfl rfl rfl rfl (fun _ => rfl)
    | tables k _ _ _ _ _ hout => exact (hout ho).frames rfl
    | source x v hout => exact (hout ho).frames rfl
    | ctx x c' h _ =>
      refine hs.sameFrames rfl rfl rfl rfl (fun y => ?_)
      rw [State.ctx_setCtx]
      split
      · next e => subst e; exact h.source
      · rfl
    | orderEnds c q reason ps f _ _ _ =>
      have heq := State.modXps_eq (s.setCard c { s.card c with pending := none, rejectReason := reason }) q.order.bus
        ps f
      rw [heq]
      exact hs.sameFrames rfl rfl rfl rfl (fun _ => rfl)
    | cleared c _ =>
      rw [allOpenConfirmed_eq]
      exact hs.sameFrames rfl rfl rfl rfl (fun _ => rfl)
    | wear x p w _ _ => exact hs.sameFrames rfl rfl rfl rfl (fun _ => rfl)
    | newPanel p _ => exact hs.sameFrames rfl rfl rfl rfl (fun _ => rfl)
  exact ⟨h.tablesLawful hs.tables, h.opensFirst hs.opensFirst, h.disabledAtRest hs.rest, hframes.1, hframes.2⟩

end Sys2Proof.Machine
end

