-- ==== Sys2Proof/Proofs/Claims.lean ====
section
/-!
PROOFS. The law of R19 with what keeps it (`ClaimsLawful`): every move of the inside of a command keeps it, and every deed.
-/

-- One proof after another: in the joined text each worker would hold a stack of its own.
set_option Elab.async false

namespace Sys2Proof.Machine

/-- `ClaimsLawful`, part by part: one claimant to a point (R19); pending orders hold crosspoints of their card that are
under way (R22); a card that is not usable has no orders and nothing CLOSED (R39); listed orders (R21), targets and make
requests (R14) keep to one card. -/
structure Claims (s : State) : Prop where
  one : OneClaimant s
  sent : ∀ c q, (s.card c).pending = some q → ∀ p ∈ q.order.points, cardOf p = c ∧
    (if q.order.kind = .make then (s.xp q.order.bus p).state = .closing
     else (s.xp q.order.bus p).state = .opening ∨ (s.xp q.order.bus p).state = .unknown)
  lost : ∀ c, s.cardUsable c = false → (s.card c).idle = true ∧
    ∀ (x : Bus) (p : Pt), cardOf p = c → (s.xp x p).state ≠ .closed
  listed : ∀ c, ∀ o ∈ (s.card c).priority ++ (s.card c).ordinary, ∀ p ∈ o.points, cardOf p = c
  oneCard : ∀ x, (s.ctx x).OneCard

theorem claimsLawful_iff {s : State} : ClaimsLawful s ↔ Claims s :=
  ⟨fun ⟨h1, h2, h3, h4, h5, h6⟩ => ⟨h1, h2, h3, h4, fun x => ⟨h5 x, h6 x⟩⟩,
    fun h => ⟨h.one, h.sent, h.lost, h.listed, fun x => (h.oneCard x).1, fun x => (h.oneCard x).2⟩⟩

/-- A point that is free is claimed by no bus (R19). -/
theorem pointFree_iff {s : State} {p : Pt} : s.pointFree p = true ↔ ∀ x, s.claimed x p = false := by
  simp [State.pointFree, allBuses, List.mem_finRange]

theorem claimed_iff {s : State} {x : Bus} {p : Pt} : s.claimed x p = true ↔ (s.xp x p).state ≠ .opn := by
  simp [State.claimed]

theorem claimedByOther_false {s : State} {x : Bus} {p : Pt} (h : s.claimedByOther x p = false) {y : Bus} (hy : y ≠ x) :
    s.claimed y p = false := by
  have hall : ∀ y ∈ allBuses, (y != x && s.claimed y p) = false := by
    simpa [State.claimedByOther, List.any_eq_false] using h
  simpa [hy] using hall y (List.mem_finRange y)

/-- The orders and the contexts stand, and the records change within the law. -/
theorem Claims.records {s t : State} (hs : Claims s) (hcards : t.matrix.cards = s.matrix.cards) (hctxs : t.ctxs = s.ctxs)
    (htables : t.tables = s.tables) (hlanes : t.lanes = s.lanes) (hone : OneClaimant t)
    (hkeep : ∀ x p, (s.xp x p).state = .closing ∨ (s.xp x p).state = .opening ∨ (s.xp x p).state = .unknown →
      (t.xp x p).state = (s.xp x p).state)
    (hclosed : ∀ x p, (t.xp x p).state = .closed → (s.xp x p).state = .closed) : Claims t where
  one := hone
  sent := fun c q hq p hp => by
    rw [State.card, hcards] at hq
    obtain ⟨hc, hst⟩ := hs.sent c q hq p hp
    refine ⟨hc, ?_⟩
    by_cases hk : q.order.kind = .make
    · rw [if_pos hk] at hst ⊢; rw [hkeep _ _ (.inl hst)]; exact hst
    · rw [if_neg hk] at hst ⊢; rw [hkeep _ _ (.inr hst)]; exact hst
  lost := fun c hc => by
    rw [cardUsable_congr htables hlanes] at hc
    rw [State.card, hcards]
    exact ⟨(hs.lost c hc).1, fun x p hp he => (hs.lost c hc).2 x p hp (hclosed x p he)⟩
  listed := fun c => by rw [State.card, hcards]; exact hs.listed c
  oneCard := fun x => by rw [State.ctx, hctxs]; exact hs.oneCard x

/-- Claims only go: still one claimant to a point. -/
theorem OneClaimant.fewer {s t : State} (hs : OneClaimant s) (h : ∀ x p, t.claimed x p = true → s.claimed x p = true) :
    OneClaimant t := fun p x y hx hy => hs p x y (h x p hx) (h y p hy)

theorem Claims.sameMatrix {s t : State} (hs : Claims s) (hm : t.matrix = s.matrix) (htables : t.tables = s.tables)
    (hlanes : t.lanes = s.lanes) (hone : ∀ x, (t.ctx x).OneCard) : Claims t where
  one := fun p x y hx hy => hs.one p x y (by simpa [State.claimed, State.xp, hm] using hx)
    (by simpa [State.claimed, State.xp, hm] using hy)
  sent := fun c q hq p hp => by rw [State.card, hm] at hq; rw [State.xp, hm]; exact hs.sent c q hq p hp
  lost := fun c hc => by
    rw [cardUsable_congr htables hlanes] at hc
    rw [State.card, hm]
    exact ⟨(hs.lost c hc).1, fun x p hp => by rw [State.xp, hm]; exact (hs.lost c hc).2 x p hp⟩
  listed := fun c => by rw [State.card, hm]; exact hs.listed c
  oneCard := hone

/-- A context is replaced by one that keeps to one card. -/
theorem Claims.setCtx {s : State} (hs : Claims s) (x : Bus) (c' : Ctx) (hc : (s.ctx x).OneCard → c'.OneCard) :
    Claims (s.setCtx x c') :=
  hs.sameMatrix rfl rfl rfl (fun y => by
    rw [State.ctx_setCtx]
    split
    · next e => subst e; exact hc (hs.oneCard _)
    · exact hs.oneCard y)

/-- Records named change, each keeping what is under way and closing nothing. -/
theorem Claims.modXps {s : State} (hs : Claims s) (x : Bus) (ps : List Pt) (f : XRec → XRec)
    (hopn : ∀ r : XRec, r.state = .opn → (f r).state = .opn)
    (hkeep : ∀ (v : XState) (r : XRec), v = .closing ∨ v = .opening ∨ v = .unknown → r.state = v → (f r).state = v)
    (hclosed : ∀ r : XRec, r.state ≠ .closed → (f r).state ≠ .closed) : Claims (s.modXps x ps f) := by
  refine hs.records (by rw [State.modXps_eq]) (by rw [State.modXps_eq]) (by rw [State.modXps_eq])
    (by rw [State.modXps_eq]) (hs.one.fewer (fun y p hy => ?_)) (fun y p hy => ?_) (fun y p => ?_)
  · rw [claimed_iff] at hy ⊢
    exact fun ho => hy (State.xp_modXps_keeps (P := fun r => r.state = .opn) _ _ _ _ hopn p ho)
  · exact State.xp_modXps_keeps (P := fun r => r.state = (s.xp y p).state) _ _ _ _ (fun r hr => hkeep _ r hy hr) p rfl
  · intro hc
    by_contra hn
    exact State.xp_modXps_keeps (P := fun r => r.state ≠ .closed) _ _ _ _ hclosed p hn hc

/-- Reservations of free points give no point two claimants (R19, R28). -/
theorem Claims.reserve {s : State} (hs : Claims s) (x : Bus) (ps : List Pt) : Claims (s.reserve x ps) := by
  have hxp : ∀ y p, (s.reserve x ps).xp y p = s.xp y p ∨
      (x = y ∧ s.pointFree p = true ∧ ((s.reserve x ps).xp y p).state = .reserved) := fun y p => by
    by_cases h : x = y ∧ p ∈ ps.filter s.pointFree
    · obtain ⟨rfl, hp⟩ := h
      exact .inr ⟨rfl, (List.mem_filter.1 hp).2,
        State.xp_modXps_makes (P := fun r => r.state = .reserved) s x (fun _ => rfl) hp⟩
    · exact .inl (State.xp_modXps_ne s _ (by tauto))
  refine hs.records (by rw [State.reserve, State.modXps_eq]) (by rw [State.reserve, State.modXps_eq])
    (by rw [State.reserve, State.modXps_eq]) (by rw [State.reserve, State.modXps_eq]) (fun p y z hy hz => ?_)
    (fun y p hst => ?_) (fun y p hst => ?_)
  · rw [claimed_iff] at hy hz
    rcases hxp y p with hy' | ⟨rfl, hfree, -⟩ <;> rcases hxp z p with hz' | ⟨rfl, hfree', -⟩
    · rw [hy'] at hy; rw [hz'] at hz
      exact hs.one p y z (claimed_iff.2 hy) (claimed_iff.2 hz)
    · rw [hy', ← claimed_iff, pointFree_iff.1 hfree' y] at hy; cases hy
    · rw [hz', ← claimed_iff, pointFree_iff.1 hfree z] at hz; cases hz
    · rfl
  · rcases hxp y p with h | ⟨rfl, hfree, -⟩
    · rw [h]
    · have := pointFree_iff.1 hfree x
      have hne : (s.xp x p).state ≠ .opn := by rcases hst with h | h | h <;> rw [h] <;> decide
      rw [claimed_iff.2 hne] at this; cases this
  · rcases hxp y p with h | ⟨-, -, h⟩
    · rw [h] at hst; exact hst
    · rw [h] at hst; cases hst

/-- A card's orders change: the pending one is as lawful, the listed ones keep to the card. -/
theorem Claims.setCard {s : State} (hs : Claims s) (c : CardId) (k : CardCtl)
    (hpend : ∀ q, k.pending = some q → ∃ q', (s.card c).pending = some q' ∧ q.order.points = q'.order.points ∧
      q.order.kind = q'.order.kind ∧ q.order.bus = q'.order.bus)
    (hlist : ∀ o ∈ k.priority ++ k.ordinary, ∀ p ∈ o.points, cardOf p = c)
    (hidle : s.cardUsable c = false → (s.card c).idle = true → k.idle = true) : Claims (s.setCard c k) where
  one := hs.one
  sent := fun d q hq p hp => by
    rw [State.card_setCard] at hq
    split at hq
    · next e =>
      subst e
      obtain ⟨q', hq', hpts, hkind, hbus⟩ := hpend q hq
      rw [hpts] at hp; rw [hkind, hbus]
      exact hs.sent _ q' hq' p hp
    · exact hs.sent d q hq p hp
  lost := fun d hd => by
    have hd' : s.cardUsable d = false := hd
    obtain ⟨h1, h2⟩ := hs.lost d hd'
    refine ⟨?_, h2⟩
    rw [State.card_setCard]
    split
    · next e => subst e; exact hidle hd' h1
    · exact h1
  listed := fun d => by
    rw [State.card_setCard]
    split
    · next e => subst e; exact hlist
    · exact hs.listed d
  oneCard := hs.oneCard

/-- An order taken from a card's list keeps to the card, and the card is usable (R21, R39). -/
theorem Claims.pops {s : State} (hs : Claims s) {c : CardId} {o : Order} {k : CardCtl} (h : (s.card c).Pops o k) :
    (∀ p ∈ o.points, cardOf p = c) ∧ (∀ q ∈ k.priority ++ k.ordinary, ∀ p ∈ q.points, cardOf p = c) ∧
      k.pending = (s.card c).pending ∧ (s.card c).idle = false := by
  rcases h with ⟨rest, hp, rfl⟩ | ⟨hp, -, rest, ho, rfl⟩
  · refine ⟨hs.listed c o (by simp [hp]), fun q hq => hs.listed c q ?_, rfl, by simp [CardCtl.idle, hp]⟩
    simp only [List.mem_append, hp, List.mem_cons] at hq ⊢
    tauto
  · refine ⟨hs.listed c o (by simp [ho]), fun q hq => hs.listed c q ?_, rfl, by simp [CardCtl.idle, ho]⟩
    simp only [List.mem_append, ho, List.mem_cons] at hq ⊢
    tauto

theorem Order.sentTo_idem (o : Order) (r : XRec) : o.sentTo (o.sentTo r) = o.sentTo r := by
  unfold Order.sentTo
  split
  · rfl
  · by_cases hr : r.state = .closed <;> simp [hr]

/-- The crosspoints of an order that has been sent (R22). -/
theorem sendOrder_xp_mem (s : State) (c : CardId) (o : Order) {p : Pt} (h : p ∈ o.points) :
    (Machine.sendOrder s c o).xp o.bus p = o.sentTo (s.xp o.bus p) := by
  rw [sendOrder_xp, State.xp_modXps_idem _ _ o.sentTo_idem h]

theorem sendOrder_xp_ne (s : State) (c : CardId) (o : Order) {y : Bus} {p : Pt} (h : o.bus ≠ y ∨ p ∉ o.points) :
    (Machine.sendOrder s c o).xp y p = s.xp y p := by
  rw [sendOrder_xp, State.xp_modXps_ne _ _ h]

/-- An order is sent: it keeps to the card, its crosspoints are under way, and nothing else moves (R19, R22). -/
theorem Claims.sendOrder {s : State} (hs : Claims s) (c : CardId) (o : Order) (hcard : ∀ p ∈ o.points, cardOf p = c)
    (hu : s.cardUsable c = true) (hstate : ∀ p ∈ o.points,
      if o.kind = .make then (o.sentTo (s.xp o.bus p)).state = .closing
      else (o.sentTo (s.xp o.bus p)).state = .opening ∨ (o.sentTo (s.xp o.bus p)).state = .unknown)
    (hclaim : ∀ p ∈ o.points, ∀ y, y ≠ o.bus → s.claimed y p = false) : Claims (Machine.sendOrder s c o) where
  one := fun p y z hy hz => by
    have hother : ∀ w, w ≠ o.bus → (Machine.sendOrder s c o).claimed w p = true → s.claimed w p = true ∧ p ∉ o.points :=
      fun w hw hcl => by
        rw [claimed_iff, sendOrder_xp_ne s c o (.inl hw.symm), ← claimed_iff] at hcl
        exact ⟨hcl, fun hm => by rw [hclaim p hm w hw] at hcl; cases hcl⟩
    have hown : ∀ w, w ≠ o.bus → (Machine.sendOrder s c o).claimed w p = true →
        (Machine.sendOrder s c o).claimed o.bus p = true → w = o.bus := fun w hw hcw hco => by
      obtain ⟨hbefore, hm⟩ := hother w hw hcw
      rw [claimed_iff, sendOrder_xp_ne s c o (.inr hm), ← claimed_iff] at hco
      exact hs.one p w o.bus hbefore hco
    by_cases h1 : y = o.bus <;> by_cases h2 : z = o.bus
    · rw [h1, h2]
    · rw [h1] at hy ⊢; exact (hown z h2 hz hy).symm
    · rw [h2] at hz ⊢; exact hown y h1 hy hz
    · exact hs.one p y z (hother y h1 hy).1 (hother z h2 hz).1
  sent := fun d q hq p hp => by
    rw [sendOrder_card] at hq
    split at hq
    · next e =>
      subst e
      cases hq
      refine ⟨hcard p hp, ?_⟩
      rw [sendOrder_xp_mem s c o hp]
      exact hstate p hp
    · next e =>
      obtain ⟨hd, hst⟩ := hs.sent d q hq p hp
      rw [sendOrder_xp_ne s c o (.inr (fun hm => e ((hcard p hm).symm.trans hd)))]
      exact ⟨hd, hst⟩
  lost := fun d hd => by
    have hlanes : (Machine.sendOrder s c o).lanes = s.lanes := by rw [sendOrder_eq, State.modXps_eq]; rfl
    rw [cardUsable_congr (sendOrder_tables s c o) hlanes] at hd
    have hne : c ≠ d := fun e => by rw [e, hd] at hu; cases hu
    obtain ⟨h1, h2⟩ := hs.lost d hd
    rw [sendOrder_card, if_neg hne]
    refine ⟨h1, fun x p hp => ?_⟩
    rw [sendOrder_xp_ne s c o (.inr (fun hm => hne ((hcard p hm).symm.trans hp)))]
    exact h2 x p hp
  listed := fun d => by
    rw [sendOrder_card]
    split
    · next e => subst e; exact hs.listed c
    · exact hs.listed d
  oneCard := fun x => by rw [State.ctx, sendOrder_ctxs]; exact hs.oneCard x

/-- An order that is not idle's card is usable (R39). -/
theorem Claims.usable {s : State} (hs : Claims s) {c : CardId} (h : (s.card c).idle = false) : s.cardUsable c = true := by
  by_contra hu
  rw [(hs.lost c (Bool.not_eq_true _ ▸ hu)).1] at h
  cases h

/-- A move keeps the law of the claims (R14, R19, R21, R22, R39). -/
theorem Move.claims {L C : Prop} {Y : Bus → Prop} {s t : State} (h : Move L C Y s t) (hL : L) (ho : OpensFirst s)
    (hs : Claims s) : Claims t := by
  cases h with
  | plain _ h => exact hs.sameMatrix (by rw [h]) (by rw [h]) (by rw [h]) (fun x => by rw [h]; exact hs.oneCard x)
  | emit l f _ => exact hs.sameMatrix rfl rfl rfl hs.oneCard
  | source x v _ _ _ => exact hs.setCtx x _ id
  | goLive x _ _ _ _ =>
    have hsent : Claims (s.emit (s.busEntry x).lane (.live (s.busEntry x).channel)) := hs.sameMatrix rfl rfl rfl hs.oneCard
    exact hsent.setCtx x { s.ctx x with source := .goingLive } id
  | ctx x c' _ h => exact hs.setCtx x c' h.oneCard
  | request x r hr =>
    refine hs.setCtx x _ (fun hone => ⟨hone.1, fun q hq => ?_⟩)
    rcases hr with rfl | ⟨q', w, hq', rfl⟩ | ⟨_, _, _, rfl⟩
    · cases hq
    · cases hq; exact hone.2 q' hq'
    · cases hq
  | unblock x _ => exact hs.setCtx x _ id
  | unreserve x ps =>
    refine hs.modXps x ps _ (fun r hr => ?_) (fun v r hv hr => ?_) (fun r hr => ?_)
    · simp [XRec.unreserved, hr]
    · rcases hv with rfl | rfl | rfl <;> simp [XRec.unreserved, hr]
    · unfold XRec.unreserved; split <;> simp [hr]
  | reserve x ps _ _ _ => exact hs.reserve x ps
  | mark x ps => exact hs.modXps x ps _ (fun _ => id) (fun _ _ _ => id) (fun _ => id)
  | shrink c k h =>
    refine hs.setCard c k (fun q hq => ?_) (fun o hm => hs.listed c o ?_) (fun _ hi => ?_)
    · rcases h.pending with he | ⟨q', hq', he⟩
      · exact ⟨q, he ▸ hq, rfl, rfl, rfl⟩
      · rw [he] at hq; cases hq; exact ⟨q', hq', rfl, rfl, rfl⟩
    · rw [List.mem_append] at hm ⊢
      exact hm.imp (fun h' => h.priority ▸ h') (fun h' => h.ordinary.subset h')
    · obtain ⟨h1, h2, h3⟩ := (CardCtl.idle_iff _).1 hi
      refine (CardCtl.idle_iff _).2 ⟨?_, h.priority.trans h2, List.sublist_nil.1 (h3 ▸ h.ordinary)⟩
      rcases h.pending with he | ⟨q', hq', _⟩
      · exact he.trans h1
      · rw [h1] at hq'; cases hq'
  | list c o hk hp hu =>
    refine hs.setCard c _ (fun q hq => ⟨q, hq, rfl, rfl, rfl⟩) (fun q hq => ?_) (fun hun hi => ?_)
    · rw [← List.append_assoc, List.mem_append, List.mem_singleton] at hq
      rcases hq with hq | rfl
      · exact hs.listed c q hq
      · exact hp hs.oneCard
    · rcases hu with hu | hu
      · rw [hu] at hun; cases hun
      · rw [hu] at hi; cases hi
  | listFirst c l o hk hl hp hu =>
    refine hs.setCard c _ (fun q hq => ⟨q, hq, rfl, rfl, rfl⟩) (fun q hq => ?_) (fun hun hi => ?_)
    · rw [List.mem_append, hl] at hq
      rcases hq with (hq | rfl) | hq
      · exact hs.listed c q (List.mem_append_left _ hq)
      · exact hp hL
      · exact hs.listed c q (List.mem_append_right _ hq)
    · rcases hu hL with hu | hu
      · rw [hu] at hun; cases hun
      · rw [hu] at hi; cases hi
  | drop c k o _ h _ =>
    obtain ⟨-, hlist, hpend, hidle⟩ := hs.pops h
    exact hs.setCard c k (fun q hq => ⟨q, hpend ▸ hq, rfl, rfl, rfl⟩) hlist (fun _ hi => by rw [hidle] at hi; cases hi)
  | sendOpen c k o _ h =>
    obtain ⟨hcard, hlist, hpend, hidle⟩ := hs.pops h
    have h1 : Claims (s.setCard c k) :=
      hs.setCard c k (fun q hq => ⟨q, hpend ▸ hq, rfl, rfl, rfl⟩) hlist (fun _ hi => by rw [hidle] at hi; cases hi)
    have hk := h.kind ho
    have hleft : ∀ p ∈ o.leftToOpen s, p ∈ o.points ∧ ((s.xp o.bus p).state = .closed ∨ (s.xp o.bus p).state = .unknown) :=
      fun p hp => by simpa [Order.leftToOpen] using hp
    refine h1.sendOrder c { o with points := o.leftToOpen s } (fun p hp => hcard p (hleft p hp).1) (hs.usable hidle)
      (fun p hp => ?_) (fun p hp y hy => ?_)
    · rw [if_neg hk]
      rcases (hleft p hp).2 with hst | hst <;> simp [Order.sentTo, hst]
    · have hx : s.claimed o.bus p = true := claimed_iff.2 (by rcases (hleft p hp).2 with hst | hst <;> rw [hst] <;> decide)
      by_contra hc
      exact hy (hs.one p y o.bus (Bool.not_eq_false _ ▸ hc) hx)
  | sendMake c o rest _ _ h hk hc =>
    have hpass := sendCheck_pass hc
    have h1 : Claims (s.setCard c { s.card c with ordinary := rest }) :=
      hs.setCard c _ (fun q hq => ⟨q, hq, rfl, rfl, rfl⟩)
        (fun q hq => hs.listed c q (by simp only [List.mem_append, h, List.mem_cons] at hq ⊢; tauto))
        (fun _ hi => by simp [CardCtl.idle, h] at hi)
    refine h1.sendOrder c o (hs.listed c o (by simp [h])) hpass.2.2.2.1 (fun p hp => ?_)
      (fun p hp y hy => claimedByOther_false (hpass.2.2.2.2 p hp) hy)
    rw [if_pos hk, Order.sentTo, hk]
  | verdict u row v => exact hs.sameMatrix rfl rfl rfl hs.oneCard

theorem Run.claims {L C : Prop} {Y : Bus → Prop} {s t : State} (h : Run L C Y s t) (hL : L) (ho : OpensFirst s)
    (hs : Claims s) : Claims t :=
  (h.keeps (P := fun u => OpensFirst u ∧ Claims u) (fun _ _ m hu => ⟨m.opensFirst hu.1, m.claims hL hu.1 hu.2⟩) ⟨ho, hs⟩).2

/-! ### Deeds -/

/-- The pending order of a card ends: its crosspoints were claimed, and no other order moves (R22, R23). -/
theorem Claims.orderEnds {s : State} (hs : Claims s) {c : CardId} {q : PendingOrder} (hq : (s.card c).pending = some q)
    (reason : Option Byte) {ps : List Pt} (hps : ∀ p ∈ ps, p ∈ q.order.points) (f : XRec → XRec) :
    Claims ((s.setCard c { s.card c with pending := none, rejectReason := reason }).modXps q.order.bus ps f) := by
  have hidle : (s.card c).idle = false := by simp [CardCtl.idle, hq]
  have hbefore : ∀ p ∈ ps, s.claimed q.order.bus p = true := fun p hp => by
    obtain ⟨-, hst⟩ := hs.sent c q hq p (hps p hp)
    rw [claimed_iff]
    split at hst
    · rw [hst]; decide
    · rcases hst with h | h <;> rw [h] <;> decide
  have hne : ∀ {y p}, q.order.bus ≠ y ∨ p ∉ ps →
      ((s.setCard c { s.card c with pending := none, rejectReason := reason }).modXps q.order.bus ps f).xp y p =
        s.xp y p := fun h => State.xp_modXps_ne _ _ h
  refine ⟨hs.one.fewer (fun y p hy => ?_), fun d q' hq' p hp => ?_, fun d hd => ?_, fun d => ?_, fun x => ?_⟩
  · by_cases h : q.order.bus = y ∧ p ∈ ps
    · obtain ⟨rfl, hp⟩ := h; exact hbefore p hp
    · rw [claimed_iff, hne (by tauto), ← claimed_iff] at hy; exact hy
  · rw [State.modXps_card, State.card_setCard] at hq'
    split at hq'
    · cases hq'
    · next e =>
      obtain ⟨hd, hst⟩ := hs.sent d q' hq' p hp
      rw [hne (.inr (fun hm => e (((hs.sent c q hq p (hps p hm)).1).symm.trans hd)))]
      exact ⟨hd, hst⟩
  · have hd' : s.cardUsable d = false := by
      rw [← hd]; exact (cardUsable_congr (by rw [State.modXps_eq]; rfl) (by rw [State.modXps_eq]; rfl) d).symm
    obtain ⟨h1, h2⟩ := hs.lost d hd'
    have hcd : c ≠ d := fun e => by rw [← e, hidle] at h1; cases h1
    rw [State.modXps_card, State.card_setCard, if_neg hcd]
    refine ⟨h1, fun x p hp => ?_⟩
    rw [hne (.inr (fun hm => hcd (((hs.sent c q hq p (hps p hm)).1).symm.trans hp)))]
    exact h2 x p hp
  · rw [State.modXps_card, State.card_setCard]
    split
    · next e => subst e; exact hs.listed c
    · exact hs.listed d
  · rw [State.modXps_ctx]; exact hs.oneCard x

/-- The records after a confirmed ALL-OPEN (R40). -/
theorem allOpenConfirmed_xp (s : State) (c : CardId) (y : Bus) (p : Pt) :
    (allOpenConfirmed s c).xp y p = if cardOf p = c then (s.xp y p).openDone else s.xp y p := by
  have h : ∀ (l : List Bus) (u : State), l.Nodup →
      (l.foldl (fun s x => s.modXps x (cardPoints c) XRec.openDone) u).xp y p =
        if y ∈ l ∧ cardOf p = c then (u.xp y p).openDone else u.xp y p := by
    intro l
    induction l with
    | nil => intro u _; simp
    | cons x l ih =>
      intro u hl
      obtain ⟨hx, hl⟩ := List.nodup_cons.1 hl
      rw [List.foldl_cons, ih _ hl]
      rw [show cardPoints c = allPoints.filter (fun p => cardOf p == c) from rfl, State.xp_modXps_filter]
      by_cases hy : x = y
      · subst hy
        by_cases hc : cardOf p = c <;> simp [hx, hc]
      · simp [hy, Ne.symm hy]
  have hall := h allBuses s (List.nodup_finRange 8)
  have hmem : y ∈ allBuses := List.mem_finRange y
  rw [show (allOpenConfirmed s c).xp y p =
    (allBuses.foldl (fun s x => s.modXps x (cardPoints c) XRec.openDone) s).xp y p from rfl, hall]
  simp [hmem]

theorem XRec.lost_opn {r : XRec} : r.lost.state = .opn ↔ r.state = .opn := by
  unfold XRec.lost
  split
  · rfl
  · next h => simp [h]

theorem XRec.lost_not_closed (r : XRec) : r.lost.state ≠ .closed := by
  unfold XRec.lost
  split
  · next h => rw [h]; decide
  · exact fun h => XState.noConfusion h

/-- The records after the loss of a card (R39). -/
theorem cardEmptied_xp (s : State) (c : CardId) (y : Bus) (p : Pt) :
    (cardEmptied s c).xp y p = if cardOf p = c then (s.xp y p).lost else s.xp y p := by
  have hone : ∀ (u : State) (x : Bus), (u.modXps x ((cardPoints c).filter (fun p => u.claimed x p)) XRec.lost).xp y p =
      if x = y ∧ cardOf p = c then (u.xp y p).lost else u.xp y p := fun u x => by
    rw [cardPoints, List.filter_filter, State.xp_modXps_filter]
    by_cases hx : x = y
    · subst hx
      by_cases hc : cardOf p = c
      · by_cases ho : (u.xp x p).state = .opn
        · simp [hc, State.claimed, XRec.lost, ho]
        · simp [hc, State.claimed, ho]
      · simp [hc]
    · simp [hx]
  have h : ∀ (l : List Bus) (u : State), l.Nodup →
      (l.foldl (fun s x => s.modXps x ((cardPoints c).filter (fun p => s.claimed x p)) XRec.lost) u).xp y p =
        if y ∈ l ∧ cardOf p = c then (u.xp y p).lost else u.xp y p := by
    intro l
    induction l with
    | nil => intro u _; simp
    | cons x l ih =>
      intro u hl
      obtain ⟨hx, hl⟩ := List.nodup_cons.1 hl
      rw [List.foldl_cons, ih _ hl, hone]
      by_cases hy : x = y
      · subst hy
        by_cases hc : cardOf p = c <;> simp [hx, hc]
      · simp [hy, Ne.symm hy]
  have hall := h allBuses (s.setCard c { s.card c with pending := none, priority := [], ordinary := [] })
    (List.nodup_finRange 8)
  rw [cardEmptied, hall]
  simp [show y ∈ allBuses from List.mem_finRange y]

theorem cardEmptied_card (s : State) (c d : CardId) :
    (cardEmptied s c).card d =
      if c = d then { s.card c with pending := none, priority := [], ordinary := [] } else s.card d := by
  rw [State.card, cardEmptied_eq]
  exact State.card_setCard s c d _

/-- A card whose entry names a lane is found on the lane, and it alone (R37). -/
theorem cardOnLane_ne_none {s : State} {l : LaneId} {c : CardId} (h : (s.cardEntry c).lane = some l) :
    s.cardOnLane l ≠ none := fun hn => by
  have := List.find?_eq_none.1 hn c (List.mem_finRange c)
  simp [h] at this

theorem cardEntry_of_cardOnLane {s : State} {l : LaneId} {c : CardId} (h : s.cardOnLane l = some c) :
    (s.cardEntry c).lane = some l := by
  simpa using List.find?_some h

/-- A lane leaves its card behind: the card is emptied, as no other card stands on the lane (R37, R39). -/
theorem Claims.lostCard {s : State} (hs : Claims s) (ht : TablesLawful s) {l : LaneId} {c : CardId} (v : Lane)
    (hc : s.cardOnLane l = some c) : Claims (cardEmptied (s.setLane l v) c) where
  one := hs.one.fewer (fun y p hy => by
    rw [claimed_iff, cardEmptied_xp] at hy
    rw [claimed_iff]
    split at hy
    · exact fun h => hy (XRec.lost_opn.2 h)
    · exact hy)
  sent := fun d q hq p hp => by
    rw [cardEmptied_card] at hq
    split at hq
    · cases hq
    · next hne =>
      obtain ⟨hd, hst⟩ := hs.sent d q hq p hp
      have hx : (cardEmptied (s.setLane l v) c).xp q.order.bus p = s.xp q.order.bus p := by
        rw [cardEmptied_xp, if_neg (fun e : cardOf p = c => hne (e.symm.trans hd))]; rfl
      rw [hx]
      exact ⟨hd, hst⟩
  lost := fun d hd => by
    by_cases hcd : c = d
    · subst hcd
      rw [cardEmptied_card, if_pos rfl]
      exact ⟨(CardCtl.idle_iff _).2 ⟨rfl, rfl, rfl⟩, fun x p hp => by
        rw [cardEmptied_xp, if_pos hp]; exact XRec.lost_not_closed _⟩
    · have hd' : s.cardUsable d = false := by
        rw [← Bool.not_eq_true] at hd ⊢
        refine fun hu => hd ?_
        rw [cardUsable_congr (s := s.setLane l v) (by rw [cardEmptied_eq]) (by rw [cardEmptied_eq])]
        have hl := cardEntry_of_cardOnLane hc
        unfold State.cardUsable at hu ⊢
        rw [show (s.setLane l v).cardEntry d = s.cardEntry d from rfl]
        cases hl' : (s.cardEntry d).lane with
        | none => rw [hl'] at hu; cases hu
        | some l' =>
          rw [hl'] at hu
          have hne : l ≠ l' := fun e => ht.2.2 c d hcd (by rw [hl]; simp) (by rw [hl, hl', e])
          simpa [State.laneHasCard, State.lane_setLane, hne] using hu
      obtain ⟨h1, h2⟩ := hs.lost d hd'
      rw [cardEmptied_card, if_neg hcd]
      exact ⟨h1, fun x p hp => by rw [cardEmptied_xp, if_neg (fun e => hcd (e.symm.trans hp))]; exact h2 x p hp⟩
  listed := fun d => by
    rw [cardEmptied_card]
    split
    · simp
    · exact hs.listed d
  oneCard := fun x => by rw [State.ctx, cardEmptied_eq]; exact hs.oneCard x

/-- A deed keeps the law of the claims. -/
theorem Deed.claims {o s t : State} {A : Act → Prop} (h : Deed o A s t) (hto : TablesLawful o)
    (hco : ClaimsLawful o) (ht : TablesLawful s) (ho : OpensFirst s) (hs : Claims s) : Claims t := by
  cases h with
  | plain _ h =>
    exact hs.sameMatrix h.matrix h.tables h.lanes (fun x => by rw [State.ctx, h.ctxs]; exact hs.oneCard x)
  | inner _ L C _ _ hL _ r => exact r.claims (hL hto hco ht (claimsLawful_iff.2 hs)) ho hs
  | guard g _ _ _ _ => exact hs.sameMatrix rfl rfl rfl hs.oneCard
  | lane l v _ hv =>
    refine ⟨hs.one, hs.sent, fun c hc => hs.lost c ?_, hs.listed, hs.oneCard⟩
    rw [← Bool.not_eq_true] at hc ⊢
    refine fun hu => hc ?_
    have hcard : (s.setLane l v).cardEntry c = s.cardEntry c := rfl
    unfold State.cardUsable at hu ⊢
    rw [hcard]
    cases hl' : (s.cardEntry c).lane with
    | none => rw [hl'] at hu; cases hu
    | some l' =>
      rw [hl'] at hu
      dsimp only at hu ⊢
      by_cases hll : l = l'
      · subst hll
        obtain ⟨h1, h2⟩ := hv (cardOnLane_ne_none hl') hu
        simp [State.laneHasCard, h1, h2]
      · simpa [State.laneHasCard, State.lane_setLane, hll] using hu
  | lost l v c _ hc => exact hs.lostCard ht v hc
  | tables k _ _ _ _ hc _ =>
    refine ⟨hs.one, hs.sent, fun c hu => ?_, hs.listed, hs.oneCard⟩
    cases hold : s.cardUsable c with
    | false => exact hs.lost c hold
    | true =>
      have hfree := hc c hold hu
      simp only [State.cardInUse, Bool.or_eq_false_iff, Bool.not_eq_false', Option.isSome_eq_false_iff,
        List.any_eq_false, Bool.not_eq_true'] at hfree
      obtain ⟨⟨⟨h1, h2⟩, h3⟩, h4⟩ := hfree
      refine ⟨(CardCtl.idle_iff (s.card c)).2
        ⟨Option.isNone_iff_eq_none.1 h1, List.isEmpty_iff.1 h2, List.isEmpty_iff.1 h3⟩, fun x p hp hst => ?_⟩
      have hmem : p ∈ cardPoints c := by simp [cardPoints, allPoints, hp]
      have hpf : s.pointFree p = true := by simpa using h4 p hmem
      have hx := pointFree_iff.1 hpf x
      rw [claimed_iff.2 (by rw [show (s.xp x p).state = XState.closed from hst]; decide)] at hx
      cases hx
  | source x v _ => exact hs.setCtx x _ id
  | ctx x c' h _ => exact hs.setCtx x c' h.oneCard
  | orderEnds c q reason ps f hq hps _ => exact hs.orderEnds hq reason hps f
  | cleared c hidle =>
    have hnone := hidle hto hco ht (claimsLawful_iff.2 hs)
    have hrest : (allOpenConfirmed s c).ctxs = s.ctxs ∧ (allOpenConfirmed s c).tables = s.tables ∧
        (allOpenConfirmed s c).lanes = s.lanes ∧ (allOpenConfirmed s c).matrix.cards = s.matrix.cards := by
      rw [allOpenConfirmed_eq]; exact ⟨rfl, rfl, rfl, rfl⟩
    obtain ⟨hctxs, htables, hlanes, hcards⟩ := hrest
    refine ⟨hs.one.fewer (fun y p hy => ?_), fun d q hq p hp => ?_, fun d hd => ?_, fun d => ?_, fun x => ?_⟩
    · rw [claimed_iff, allOpenConfirmed_xp] at hy
      rw [claimed_iff]
      split at hy
      · exact absurd rfl hy
      · exact hy
    · rw [State.card, hcards] at hq
      obtain ⟨hd, hst⟩ := hs.sent d q hq p hp
      have hne : cardOf p ≠ c := fun e => by
        have hq' : (s.card c).pending = some q := by rw [← e, hd]; exact hq
        rw [hnone] at hq'; cases hq'
      rw [allOpenConfirmed_xp, if_neg hne]
      exact ⟨hd, hst⟩
    · rw [cardUsable_congr htables hlanes] at hd
      rw [State.card, hcards]
      refine ⟨(hs.lost d hd).1, fun x p hp => ?_⟩
      rw [allOpenConfirmed_xp]
      split
      · simp [XRec.openDone]
      · exact (hs.lost d hd).2 x p hp
    · rw [State.card, hcards]; exact hs.listed d
    · rw [State.ctx, hctxs]; exact hs.oneCard x
  | wear x p w _ _ =>
    have hst : ∀ y q, ((s.setXp x p { s.xp x p with wear := w }).xp y q).state = (s.xp y q).state := fun y q => by
      rw [State.xp_setXp]
      split
      · next e => rw [e.1, e.2]
      · rfl
    exact hs.records rfl rfl rfl rfl
      (hs.one.fewer (fun y q hy => by rw [claimed_iff, hst, ← claimed_iff] at hy; exact hy))
      (fun y q _ => hst y q) (fun y q hc => by rw [← hst]; exact hc)
  | newPanel p _ => exact hs.sameMatrix rfl rfl rfl hs.oneCard

/-- A command keeps the law of the claims. -/
theorem Does.claims {o s t : State} {A : Act → Prop} (h : Does o A s t) (hto : TablesLawful o)
    (hco : ClaimsLawful o) (ht : TablesLawful s) (ho : OpensFirst s) (hs : ClaimsLawful s) : ClaimsLawful t :=
  claimsLawful_iff.2 (h.keeps (P := fun u => TablesLawful u ∧ OpensFirst u ∧ Claims u)
    (fun _ _ d ⟨h1, h2, h3⟩ => ⟨d.tablesLawful h1, d.opensFirst h2, d.claims hto hco h1 h2 h3⟩)
    ⟨ht, ho, claimsLawful_iff.1 hs⟩).2.2

end Sys2Proof.Machine
end

