-- ==== Sys2Proof/Proofs/Softly.lean ====
section
/-!
PROOFS. The changes that commands make, as deeds. A command works `Softly` while it has shown no frame that closes a relay
or makes a source live; that is so up to the consequences, which `finish` works through.
-/

namespace Sys2Proof.Machine

/-! ### Working softly -/

/-- A command that found the state `o` has come to `t` by deeds that show no close and no LIVE. -/
structure Softly (o : State) (A : Act → Prop) (t : State) : Prop where
  does : Does o A o t
  calm : OpensFirst o → OpensFirst t ∧ Calm t

/-- A card with a CLOSED crosspoint is usable (R39). -/
theorem ClaimsLawful.usable {s : State} (h : ClaimsLawful s) {x : Bus} {p : Pt} (hc : (s.xp x p).state = .closed) :
    s.cardUsable (cardOf p) = true := by
  rw [← Bool.not_eq_false]
  exact fun hu => ((claimsLawful_iff.1 h).lost _ hu).2 x p rfl hc

namespace Softly
variable {o t u : State} {A : Act → Prop}

/-- A command begins with no frames shown. -/
theorem start : Softly o A o.begin where
  does := .single (.plain _ { out := .inr rfl })
  calm := fun h => ⟨h, fun e he => by cases he⟩

theorem deed (h : Softly o A t) (d : Deed o A t u) (hc : OpensFirst o → Calm t → Calm u) : Softly o A u where
  does := h.does.tail d
  calm := fun ho => ⟨d.opensFirst (h.calm ho).1, hc ho (h.calm ho).2⟩

theorem plain (h : Softly o A t) (hp : Plain A t u) : Softly o A u :=
  h.deed (.plain _ hp) (fun _ hc => by
    rcases hp.out with he | he
    · rw [Calm, he]; exact hc
    · rw [Calm, he]; exact fun e he => by cases he)

/-- Something that the inside of a command does without closing a relay. -/
theorem inner (hw : A .work) (h : Softly o A t) (k : Keeps (fun _ => True) t u)
    (r : Run (ClaimsLawful t) False (fun _ => True) t u) : Softly o A u where
  does := h.does.tail (.inner _ _ _ hw False.elim (fun _ _ _ hc => hc) k r)
  calm := fun ho => ⟨k.opensFirst (h.calm ho).1, r.calm id (h.calm ho).1 (h.calm ho).2⟩

theorem guard (h : Softly o A t) (g : Guard) (hrack : g.rack = t.guard.rack ∨ A (.rack g.rack))
    (htrips : ∀ x : Bus, t.tripped x = true → g.trips[x] = false → A (.clear x))
    (hset : ∀ x : Bus, t.tripped x = false → g.trips[x] = true → A .trip) : Softly o A { t with guard := g } :=
  h.deed (.guard g hrack htrips hset (.inr (fun ho => (h.calm ho).2))) (fun _ hc => hc)

/-- The guard unit changes, but for the rack state and the trip flags. -/
theorem guardRest (h : Softly o A t) (g : Guard) (hrack : g.rack = t.guard.rack) (htrips : g.trips = t.guard.trips) :
    Softly o A { t with guard := g } :=
  h.guard g (.inl hrack) (fun x hs hf => by rw [htrips] at hf; rw [State.tripped, hf] at hs; cases hs)
    (fun x hs hf => by rw [htrips] at hf; rw [State.tripped, hf] at hs; cases hs)

theorem lane (h : Softly o A t) (l : LaneId) (v : Lane) (hA : A (.lane l))
    (hv : t.cardOnLane l ≠ none → t.laneHasCard l = true → v.state = .active ∧ v.partner = .card) :
    Softly o A (t.setLane l v) := h.deed (.lane l v hA hv) (fun _ hc => hc)

theorem lost (h : Softly o A t) (l : LaneId) (v : Lane) (c : CardId) (hA : A (.lane l)) (hc : t.cardOnLane l = some c) :
    Softly o A (cardEmptied (t.setLane l v) c) :=
  h.deed (.lost l v c hA hc) (fun _ hc => by rw [Calm, cardEmptied_eq]; exact hc)

theorem source (h : Softly o A t) (x : Bus) (v : SrcState) : Softly o A (t.setSource x v) :=
  h.deed (.source x v (fun ho => (h.calm ho).2)) (fun _ hc => hc)

theorem ctx (h : Softly o A t) (x : Bus) (f : Ctx → Ctx) (hm : CtxMove t x (f (t.ctx x)))
    (hrest : (t.busEntry x).enabled = true ∨ ((t.ctx x).Restful → (f (t.ctx x)).Restful)) : Softly o A (t.modCtx x f) :=
  h.deed (.ctx x _ hm hrest) (fun _ hc => hc)

theorem orderEnds (h : Softly o A t) (c : CardId) (q : PendingOrder) (reason : Option Byte) (ps : List Pt)
    (f : XRec → XRec) (hq : (t.card c).pending = some q) (hps : ∀ p ∈ ps, p ∈ q.order.points)
    (hf : (∀ r, (f r).wear = r.wear) ∨ A .done ∧ ∀ r, (f r).wear = min (r.wear + 1) maxWear) :
    Softly o A ((t.setCard c { t.card c with pending := none, rejectReason := reason }).modXps q.order.bus ps f) :=
  h.deed (.orderEnds c q reason ps f hq hps hf) (fun _ hc => by rw [Calm, State.modXps_eq]; exact hc)

theorem cleared (h : Softly o A t) (c : CardId)
    (hidle : TablesLawful o → ClaimsLawful o → TablesLawful t → ClaimsLawful t → (t.card c).pending = none) :
    Softly o A (allOpenConfirmed t c) :=
  h.deed (.cleared c hidle) (fun _ hc => by rw [Calm, allOpenConfirmed_eq]; exact hc)

theorem foldl {α : Type} (f : State → α → State) (l : List α) (hf : ∀ u, ∀ a ∈ l, Softly o A u → Softly o A (f u a))
    (h : Softly o A t) : Softly o A (l.foldl f t) := by
  induction l generalizing t with
  | nil => exact h
  | cons a l ih => exact ih (fun u b hb => hf u b (List.mem_cons_of_mem _ hb)) (hf t a List.mem_cons_self h)

/-! ### Frames, attention and mail -/

theorem raise (h : Softly o A t) (c : AttnClass) : Softly o A (t.raise c) := h.plain {}

theorem post (h : Softly o A t) (m : Mail) : Softly o A (t.post m) := h.plain {}

theorem pushWork (h : Softly o A t) (w : List MatrixWork) : Softly o A (t.pushWork w) := h.plain {}

/-- A frame that closes nothing is shown. -/
theorem emit (hw : A .work) (h : Softly o A t) (l : LaneId) (f : LaneFrame) (hf : f.harmless = true)
    (hp : Permitted t (l, f)) : Softly o A (t.emit l f) :=
  h.inner hw (Keeps.emit l f (fun _ _ _ => hp) (.refl t)) (Run.emit l f hf .refl)

/-! ### Trips (R57, R58) -/

theorem emergencyQuiet (hw : A .work) (x : Bus) (h : Softly o A t) : Softly o A (emergencyQuiet t x) :=
  h.inner hw ((Keeps.refl t).emergencyQuiet x) (Run.emergencyQuiet x trivial .refl)

theorem emergencyOpen (hw : A .work) (x : Bus) (h : Softly o A t) : Softly o A (emergencyOpen t x) :=
  h.inner hw ((Keeps.refl t).emergencyOpen x) (Run.emergencyOpen x (fun hc _ => hc.usable) .refl)

theorem setTripped (hA : A .trip) (x : Bus) (h : Softly o A t) : Softly o A (t.setTripped x true) :=
  h.guard _ (.inl rfl) (fun y hs hf => by
    have hset : (t.setTripped x true).tripped y = true := by
      rw [State.tripped_setTripped]; split
      · rfl
      · exact hs
    have hf' : (t.setTripped x true).tripped y = false := hf
    rw [hset] at hf'; cases hf') (fun _ _ _ => hA)

theorem tripBus (hw : A .work) (hA : A .trip) (x : Bus) (h : Softly o A t) : Softly o A (tripBus t x) :=
  raise (inner hw (emergencyOpen hw x (emergencyQuiet hw x (setTripped hA x h))) ((Keeps.refl _).tripCtx x)
    (Run.tripCtx x trivial .refl)) _

theorem evaluate (hw : A .work) (hA : A .trip) (x : Bus) (h : Softly o A t) : Softly o A (evaluate t x) := by
  unfold Machine.evaluate
  split
  · exact h.tripBus hw hA x
  · exact h

theorem evaluateThose (hw : A .work) (hA : A .trip) (which : BusEntry → Bool) (h : Softly o A t) :
    Softly o A (evaluateThose t which) :=
  foldl _ _ (fun _ x _ hu => hu.evaluate hw hA x) h

end Softly

/-! ### The end of a command -/

namespace Does
variable {o s t : State} {A : Act → Prop}

theorem plain {u : State} (h : Does o A s t) (hp : Plain A t u) : Does o A s u := h.tail (.plain _ hp)

/-- Something that the inside of a command does. -/
theorem inner {u : State} (hw : A .work) (hc : A .close) (h : Does o A s t) (k : Keeps (fun _ => True) t u)
    (r : Run (ClaimsLawful t) True (fun _ => True) t u) : Does o A s u :=
  h.tail (.inner _ _ _ hw (fun _ => hc) (fun _ _ _ hc => hc) k r)

theorem pump (h : Does o A s t) : Does o A s (pump t) :=
  h.plain { tables := pump_tables t, matrix := pump_matrix t, ctxs := pump_ctxs t, lanes := pump_lanes t
            pending := pump_pending t, rack := by rw [pump_guard], trips := by rw [pump_guard]
            number := by rw [pump_panel], verdicts := by rw [pump_panel]
            bounded := fun hb => by rw [QueueLawful, pump_queue]; exact hb
            responses := .inl (by rw [pump_responses]), out := .inl (pump_out t) }

theorem panelCheck (h : Does o A s t) : Does o A s (panelCheck t) := by
  have p := panelCheck_only t
  exact h.plain { tables := p.tables, matrix := p.matrix, ctxs := p.ctxs, lanes := p.lanes, pending := p.pending
                  rack := by rw [p.guard], trips := by rw [p.guard], number := p.number, verdicts := p.verdicts
                  bounded := p.bounded, responses := .inl (by rw [p.trunk]), out := .inl p.out }

theorem finish (hw : A .work) (hc : A .close) (h : Does o A s t) : Does o A s (finish t) :=
  pump (panelCheck (inner hw hc h (.drain drainBound (.refl t)) (Run.drain drainBound trivial (fun _ => trivial) .refl)))

end Does

end Sys2Proof.Machine
end

