-- ==== Sys2Proof/Proofs/Events.lean ====
section
/-!
PROOFS. What the parts of the machine do at an event of theirs, as soft work: the guard unit and the rack state, supplies and
presence, the lanes, the matrix controller at the end of an order, and the result queue.
-/

namespace Sys2Proof.Machine

/-! ### A lane leaves ACTIVE (R177) -/

/-- What a lane shows as it leaves ACTIVE: LANE attention, and a RESYNC on its way to RECOVER. -/
def laneShown (s : State) (l : LaneId) (cause : LossCause) : State :=
  if ((s.lane l).left cause).state = .recover then (s.raise .lane).emit l .resync else s.raise .lane

/-- The lane itself as it leaves ACTIVE, before its reports. -/
def laneLeft (s : State) (l : LaneId) (cause : LossCause) : State :=
  (laneShown s l cause).setLane l ((s.lane l).left cause)

theorem laneLeft_eq (s : State) (l : LaneId) (cause : LossCause) :
    (if (((s.modLane l (fun k => k.left cause)).raise .lane).lane l).state = .recover
      then ((s.modLane l (fun k => k.left cause)).raise .lane).emit l .resync
      else (s.modLane l (fun k => k.left cause)).raise .lane) = laneLeft s l cause := by
  have hlane : ((s.modLane l (fun k => k.left cause)).raise .lane).lane l = (s.lane l).left cause :=
    State.lane_setLane_self s l _
  rw [hlane, laneLeft, laneShown]
  split <;> rfl

theorem laneLeave_card {s : State} {l : LaneId} (h : (s.lane l).partner = .card) (cause : LossCause) :
    laneLeave s l cause = reportCardLoss (laneLeft s l cause) l := by
  unfold laneLeave
  dsimp only
  rw [laneLeft_eq, h]

theorem laneLeave_instrument {s : State} {l : LaneId} (h : (s.lane l).partner = .instrument) (cause : LossCause) :
    laneLeave s l cause = reportInstrumentLoss (laneLeft s l cause) l := by
  unfold laneLeave
  dsimp only
  rw [laneLeft_eq, h]

theorem laneLeave_none {s : State} {l : LaneId} (h : (s.lane l).partner = .none) (cause : LossCause) :
    laneLeave s l cause = laneLeft s l cause := by
  unfold laneLeave
  dsimp only
  rw [laneLeft_eq, h]

theorem laneShown_laneHasCard (s : State) (l k : LaneId) (cause : LossCause) :
    (laneShown s l cause).laneHasCard k = s.laneHasCard k := by unfold laneShown; split <;> rfl

/-- A card whose lane is not ACTIVE has no order (R39). -/
theorem ClaimsLawful.pending_none {s : State} (hc : ClaimsLawful s) {l : LaneId} {c : CardId}
    (hs : (s.lane l).state ≠ .active) (hl : s.cardOnLane l = some c) : (s.card c).pending = none := by
  have hu : s.cardUsable c = false := by
    simp [State.cardUsable, cardEntry_of_cardOnLane hl, State.laneHasCard, hs]
  exact ((CardCtl.idle_iff _).1 ((claimsLawful_iff.1 hc).lost c hu).1).1

/-- A lane in TEST stays so when its test ends; another is left alone. -/
theorem endTest_state (s : State) (l : LaneId) : ((endTest s l).lane l).state = (s.lane l).state := by
  unfold endTest
  split
  · rw [State.modLane, State.lane_setLane_self]; rfl
  · rfl

namespace Softly
variable {o t : State} {A : Act → Prop}

/-- The guard unit changes, but for the rack state and the trip flags. -/
theorem modGuardRest (h : Softly o A t) (f : Guard → Guard) (hrack : (f t.guard).rack = t.guard.rack)
    (htrips : (f t.guard).trips = t.guard.trips) : Softly o A (t.modGuard f) := h.guardRest _ hrack htrips

/-! ### The rack state (R156, R157) -/

theorem setRack (h : Softly o A t) (f : Guard → Guard) (hA : A (.rack (f t.guard).rack))
    (htrips : (f t.guard).trips = t.guard.trips) : Softly o A (t.modGuard f) :=
  h.guard _ (.inr hA) (fun x hs hf => by rw [htrips] at hf; rw [State.tripped, hf] at hs; cases hs)
    (fun x hs hf => by rw [htrips] at hf; rw [State.tripped, hf] at hs; cases hs)

theorem lidOpened (hw : A .work) (hA : A (.rack (.safe .interlock))) (h : Softly o A t) : Softly o A (lidOpened t) := by
  refine raise (foldl _ _ (fun u x _ hu => hu.inner hw ((Keeps.refl u).safeCtx x) (Run.safeCtx x trivial .refl)) ?_) _
  refine foldl _ _ (fun _ x _ hu => hu.emergencyOpen hw x) (foldl _ _ (fun _ x _ hu => hu.emergencyQuiet hw x) ?_)
  exact h.setRack _ hA rfl

/-! ### Supplies and presence (R163 to R168) -/

theorem setSupply (h : Softly o A t) (u : Site) (b : Bool) : Softly o A (t.setSupply u b) := h.guardRest _ rfl rfl

theorem setPresence (h : Softly o A t) (b : Block) (v : Presence) : Softly o A (t.setPresence b v) :=
  h.guardRest _ rfl rfl

theorem sendSupply (hw : A .work) (h : Softly o A t) (l : LaneId) (mask : Byte) : Softly o A (sendSupply t l mask) := by
  unfold Machine.sendSupply
  split
  · exact h.emit hw l _ rfl trivial
  · exact h

theorem sendCardSupply (hw : A .work) (h : Softly o A t) (c : CardId) : Softly o A (sendCardSupply t c) := by
  unfold Machine.sendCardSupply
  split
  · exact h.sendSupply hw _ _
  · exact h

theorem cardBlocksLost (h : Softly o A t) (c : CardId) : Softly o A (cardBlocksLost t c) :=
  foldl _ _ (fun _ u _ hu => hu.setSupply u false) (foldl _ _ (fun _ _ _ hu => hu.setPresence _ _) h)

theorem arrives (h : Softly o A t) (u : Site) : Softly o A (arrives t u) := raise (h.modGuardRest _ rfl rfl) _

theorem departs (h : Softly o A t) (u : Site) : Softly o A (departs t u) := raise (h.modGuardRest _ rfl rfl) _

theorem blockReport (h : Softly o A t) (b : Block) (v : Bool) : Softly o A (blockReport t b v).1 := by
  unfold Machine.blockReport
  dsimp only
  split
  · split
    · exact h
    · split
      · exact (h.setPresence b _).arrives _
      · exact h.setPresence b _
  · split
    · exact h
    · split
      · exact h.setPresence b _
      · split
        · exact h.setPresence b _
        · split
          · exact ((h.setPresence b _).setSupply _ _).departs _
          · exact (h.setPresence b _).departs _

theorem blockReports (h : Softly o A t) (c : CardId) (mask : Byte) : Softly o A (blockReports t c mask).1 := by
  unfold Machine.blockReports
  have hfold : ∀ (l : List (Fin 8)) (r : State × List Site), Softly o A r.1 →
      Softly o A (l.foldl (fun (r : State × List Site) k =>
        match Machine.blockReport r.1 (blockOnCard c k) (mask.getLsbD k.val) with
        | (s, some t) => (s, r.2 ++ [t])
        | (s, none) => (s, r.2)) r).1 := by
    intro l
    induction l with
    | nil => exact fun _ hr => hr
    | cons k l ih =>
      intro r hr
      refine ih _ ?_
      dsimp only
      have hb := hr.blockReport (blockOnCard c k) (mask.getLsbD k.val)
      generalize Machine.blockReport r.1 (blockOnCard c k) (mask.getLsbD k.val) = a at hb ⊢
      obtain ⟨u, v⟩ := a
      cases v <;> exact hb
  exact hfold _ _ h

theorem departCtx (hw : A .work) (h : Softly o A t) (u : Site) (x : Bus) : Softly o A (departCtx t u x) :=
  h.inner hw ((Keeps.refl t).departCtx u x) (Run.departCtx u x trivial .refl)

theorem presenceTaken (hw : A .work) (h : Softly o A t) (l : LaneId) (c : CardId) (mask : Byte) :
    Softly o A (presenceTaken t l c mask) := by
  unfold Machine.presenceTaken
  have hb := h.blockReports c mask
  generalize Machine.blockReports t c mask = r at hb ⊢
  obtain ⟨u, gone⟩ := r
  cases gone with
  | nil => exact hb
  | cons g gone =>
    exact foldl _ _ (fun _ u _ hu => foldl _ _ (fun _ x _ hv => hv.departCtx hw u x) hu) (hb.sendSupply hw _ _)

/-! ### Lanes (R172 to R184) -/

/-- A lane record changes where the lane stays with its card, or had none. -/
theorem modLane (h : Softly o A t) (l : LaneId) (f : Lane → Lane) (hA : A (.lane l))
    (hv : t.laneHasCard l = true → (f (t.lane l)).state = .active ∧ (f (t.lane l)).partner = .card) :
    Softly o A (t.modLane l f) := h.lane l _ hA (fun _ => hv)

/-- A lane that is not ACTIVE has no card. -/
theorem noCard {l : LaneId} {P : Prop} (h : (t.lane l).state ≠ .active) : t.laneHasCard l = true → P := fun hc => by
  simp [State.laneHasCard] at hc; exact absurd hc.1 h

theorem goodFrame (h : Softly o A t) (l : LaneId) (hA : A (.lane l)) : Softly o A (goodFrame t l) := by
  unfold Machine.goodFrame
  split
  · exact h.modLane l _ hA (fun hc => by simpa [State.laneHasCard] using hc)
  · exact h

theorem enterDetect (hw : A .work) (h : Softly o A t) (l : LaneId) (hA : A (.lane l)) (hs : (t.lane l).state ≠ .active) :
    Softly o A (enterDetect t l) := emit hw (h.modLane l _ hA (noCard hs)) l _ rfl trivial

/-- The reports of a lost card, its lane having left it (R39, R165). -/
theorem reportCardLoss (hw : A .work) {l : LaneId} {c : CardId} (hc : t.cardOnLane l = some c)
    (h : Softly o A (cardEmptied t c)) : Softly o A (reportCardLoss t l) := by
  unfold Machine.reportCardLoss
  rw [hc]
  dsimp only
  rw [cardLost_eq]
  dsimp only
  refine foldl _ _ (fun u x _ hu => hu.inner hw ((Keeps.refl u).cardLossCtx c x) (Run.cardLossCtx c x trivial .refl))
    (cardBlocksLost ?_ c)
  exact foldl _ _ (fun u x _ hu => hu.inner hw ((Keeps.refl u).requestLosesCard c _ x) (Run.requestLosesCard c _ x .refl)) h

theorem sourcesLost (hw : A .work) (h : Softly o A t) (l : LaneId) : Softly o A (sourcesLost t l) :=
  foldl _ _ (fun _ x _ hu => (hu.source x .unsure).inner hw (((Keeps.refl _).answerQuiet x _).answerLive x _)
    ((Run.answerQuiet x _ .refl).answerLive x _)) h

theorem sourcesQuieted (h : Softly o A t) (l : LaneId) : Softly o A (sourcesQuieted t l) :=
  foldl _ _ (fun _ x _ hu => hu.source x .quiet) h

theorem reportInstrumentLoss (hw : A .work) (h : Softly o A t) (l : LaneId) : Softly o A (reportInstrumentLoss t l) :=
  foldl _ _ (fun u x _ hu => hu.inner hw ((Keeps.refl u).instrumentLossCtx x) (Run.instrumentLossCtx x trivial .refl))
    (h.sourcesLost hw l)

theorem laneShown (hw : A .work) (h : Softly o A t) (l : LaneId) (cause : LossCause) :
    Softly o A (Machine.laneShown t l cause) := by
  unfold Machine.laneShown
  split
  · exact emit hw (h.raise _) l _ rfl trivial
  · exact h.raise _

/-- A lane leaves ACTIVE: with the reports of its card or its instrument (R177). -/
theorem laneLeave (hw : A .work) (h : Softly o A t) (l : LaneId) (cause : LossCause) (hA : A (.lane l)) :
    Softly o A (laneLeave t l cause) := by
  have hshown := h.laneShown hw l cause
  have hcard : ∀ P : Prop, (t.lane l).partner ≠ .card → (Machine.laneShown t l cause).laneHasCard l = true → P :=
    fun P hp hl => by
      rw [laneShown_laneHasCard] at hl
      simp [State.laneHasCard] at hl
      exact absurd hl.2 hp
  cases hp : (t.lane l).partner with
  | card =>
    rw [laneLeave_card hp]
    cases hc : (Machine.laneShown t l cause).cardOnLane l with
    | some c => exact reportCardLoss hw (c := c) hc (hshown.lost l _ c hA hc)
    | none =>
      have hn : (laneLeft t l cause).cardOnLane l = none := hc
      rw [Machine.reportCardLoss, hn]
      exact hshown.lane l _ hA (fun hne => absurd hc hne)
  | instrument =>
    rw [laneLeave_instrument hp]
    exact (hshown.lane l _ hA (fun _ => hcard _ (by rw [hp]; decide))).reportInstrumentLoss hw l
  | none =>
    rw [laneLeave_none hp]
    exact hshown.lane l _ hA (fun _ => hcard _ (by rw [hp]; decide))

/-- The matrix controller asks for RECOVER (R179). -/
theorem askRecover (hw : A .work) (h : Softly o A t) (c : CardId)
    (hA : ∀ l, (t.cardEntry c).lane = some l → A (.lane l)) : Softly o A (askRecover t c) := by
  unfold Machine.askRecover
  split
  · exact h
  · next l hl =>
    split
    · exact h.laneLeave hw l _ (hA l hl)
    · exact h

/-! ### Training and recovery (R173 to R178) -/

theorem enterTrain (hw : A .work) (h : Softly o A t) (l : LaneId) (hA : A (.lane l)) (hs : (t.lane l).state ≠ .active) :
    Softly o A (enterTrain t l) := emit hw (h.modLane l _ hA (noCard hs)) l _ rfl trivial

theorem identTaken (hw : A .work) (h : Softly o A t) (l : LaneId) (kind channels rows columns : Byte) (hA : A (.lane l))
    (hs : (t.lane l).state ≠ .active) : Softly o A (identTaken t l kind channels rows columns) := by
  unfold Machine.identTaken
  split
  · refine enterDetect hw (h.modLane l _ hA (noCard hs)) l hA ?_
    rw [State.modLane, State.lane_setLane_self]
    exact hs
  · dsimp only
    split
    · exact (emit hw (h.modLane l _ hA (noCard hs)) l .allOpen rfl trivial).sourcesQuieted l
    · exact emit hw (h.modLane l _ hA (noCard hs)) l .quietAll rfl trivial

theorem clearedTaken (h : Softly o A t) (l : LaneId) (hA : A (.lane l)) (hs : (t.lane l).state ≠ .active)
    (hpend : ∀ c, t.cardOnLane l = some c → ClaimsLawful o → (t.card c).pending = none) :
    Softly o A (clearedTaken t l) := by
  have hraised := (h.modLane l (fun k => { k.activated with fault := .none }) hA (noCard hs)).raise .lane
  unfold Machine.clearedTaken
  dsimp only
  split
  · split
    · next c hc => exact hraised.cleared c (fun _ hco _ _ => hpend c hc hco)
    · exact hraised
  · exact (hraised.sourcesQuieted l).modGuardRest _ rfl rfl
  · exact hraised

theorem resyncTaken (hw : A .work) (h : Softly o A t) (l : LaneId) (kind channels : Byte) (hA : A (.lane l))
    (hs : (t.lane l).state ≠ .active) : Softly o A (resyncTaken t l kind channels) := by
  have hset : ∀ v, Softly o A (t.setLane l v) := fun v => h.lane l v hA (fun _ => noCard hs)
  unfold Machine.resyncTaken
  dsimp only
  split
  · split
    · next c hp hc =>
      refine inner hw ((hset _).raise _) ((Keeps.refl _).recoveryOpens c) (Run.recoveryOpens c (fun _ => ?_) .refl)
      have hl := cardEntry_of_cardOnLane hc
      have hlane : ((t.setLane l (t.lane l).activated).raise .lane).lane l = (t.lane l).activated :=
        State.lane_setLane_self t l _
      have hhas : ((t.setLane l (t.lane l).activated).raise .lane).laneHasCard l = true := by
        rw [State.laneHasCard, hlane]; simp [Lane.activated, hp]
      rw [State.cardUsable, hl]
      exact hhas
    · exact (hset _).raise _
  · exact hset _

/-! ### The loopback test (R183, R184) -/

theorem completeHeld (h : Softly o A t) (l : LaneId) (data : List Byte) : Softly o A (completeHeld t l data) := by
  refine h.plain { responses := .inl ?_ }
  simp only [Machine.completeHeld, State.modTrunk, List.map_map]
  refine List.map_congr_left (fun r _ => ?_)
  simp only [Function.comp, Resp.head]
  split <;> rfl

theorem endTest (h : Softly o A t) (l : LaneId) (hA : A (.lane l)) : Softly o A (endTest t l) := by
  unfold Machine.endTest
  split
  · next hs =>
    exact (h.completeHeld l _).modLane l _ hA (noCard (by
      rw [show (Machine.completeHeld t l (t.lane l).testData).lane l = t.lane l from rfl, hs]; decide))
  · exact h

theorem testFrameOver (hw : A .work) (h : Softly o A t) (l : LaneId) (matched : Bool) (hA : A (.lane l))
    (hs : (t.lane l).state = .test) : Softly o A (testFrameOver t l matched) := by
  have hset : ∀ v, Softly o A (t.setLane l v) := fun v => h.lane l v hA (fun _ => noCard (by rw [hs]; decide))
  unfold Machine.testFrameOver
  dsimp only
  split
  · refine ((hset _).endTest l hA).enterDetect hw l hA ?_
    rw [endTest_state, State.lane_setLane_self]
    show (t.lane l).state ≠ .active
    rw [hs]; decide
  · exact (hset _).emit hw l _ rfl trivial

theorem startTest (hw : A .work) (h : Softly o A t) (l : LaneId) (n : Nat) (hA : A (.lane l))
    (hs : (t.lane l).state ≠ .active) : Softly o A (startTest t l n) :=
  emit hw (h.modLane l _ hA (noCard hs)) l _ rfl trivial

theorem laneReset (hw : A .work) (h : Softly o A t) (l : LaneId) (hA : A (.lane l)) : Softly o A (laneReset t l) := by
  unfold Machine.laneReset
  split
  · exact h.laneLeave hw l _ hA
  · next hs => exact (h.endTest l hA).modLane l _ hA (noCard (by rw [endTest_state]; exact hs))

theorem laneOff (hw : A .work) (h : Softly o A t) (l : LaneId) (hA : A (.lane l)) : Softly o A (laneOff t l) := by
  unfold Machine.laneOff
  split
  · exact h.laneLeave hw l _ hA
  · next hs => exact h.modLane l _ hA (noCard (by rw [hs]; decide))
  · next hs _ => exact (h.endTest l hA).modLane l _ hA (noCard (by rw [endTest_state]; exact hs))

theorem laneOn (hw : A .work) (h : Softly o A t) (l : LaneId) (hA : A (.lane l)) : Softly o A (laneOn t l) := by
  unfold Machine.laneOn
  split
  · next hs => exact h.enterDetect hw l hA (by rw [hs]; decide)
  · exact h

end Softly
end Sys2Proof.Machine
end

