-- ==== Sys2Proof/Proofs/OrderEnds.lean ====
section
/-!
PROOFS. The end of an order (R23 to R25), RACK RESET (R196), the rack become READY (R159), a sent RESULT frame (R151) and the
table entries, as deeds.
-/

namespace Sys2Proof.Machine

/-! ### The pending order that a frame answers (R26) -/

/-- The frame answers the pending order of the card on its lane. -/
theorem answeredOrder_some {s : State} {l : LaneId} {tag : Byte} {c : CardId} {o : Order}
    (h : answeredOrder s l tag = some (c, o)) :
    (s.lane l).state = .active ∧ s.cardOnLane l = some c ∧ ∃ q, (s.card c).pending = some q ∧ q.order = o ∧ q.tag = tag := by
  unfold answeredOrder at h
  split at h
  · next hs =>
    split at h
    · cases h
    · next c' hc =>
      split at h
      · next q hq =>
        split at h
        · next ht => cases h; exact ⟨hs, hc, q, hq, rfl, ht⟩
        · cases h
      · cases h
  · cases h

/-- What the claims law says of the card of a pending order: it is usable, and the order keeps to it (R21, R39). -/
theorem ClaimsLawful.pending {s : State} (h : ClaimsLawful s) {c : CardId} {q : PendingOrder}
    (hq : (s.card c).pending = some q) : s.cardUsable c = true ∧ ∀ p ∈ q.order.points, cardOf p = c :=
  ⟨(claimsLawful_iff.1 h).usable (by simp [CardCtl.idle, hq]), fun p hp => ((claimsLawful_iff.1 h).sent c q hq p hp).1⟩

/-- A recovery open that is sent at once is one placed at the head of an empty card's list and sent (R25). -/
theorem Run.sendRecovery {L C : Prop} {Y : Bus → Prop} {s t : State} (c : CardId) (x : Bus) (ps : List Pt)
    (hpend : (t.card c).pending = none) (hps : ∀ p ∈ ps, (t.xp x p).state = .unknown) (hp : L → ∀ p ∈ ps, cardOf p = c)
    (hu : L → CardServes t c) (h : Run L C Y s t) : Run L C Y s (sendOrder t c ⟨.recovery, x, ps, false⟩) := by
  have h1 := h.move (Move.listFirst c (⟨.recovery, x, ps, false⟩ :: (t.card c).priority) ⟨.recovery, x, ps, false⟩
    (.inl rfl) (fun q => by rw [List.mem_cons]; tauto) hp hu)
  have h2 := h1.move (Move.sendOpen c (t.card c) ⟨.recovery, x, ps, false⟩
    (by rw [State.card_setCard_self]; exact hpend)
    (.inl ⟨(t.card c).priority, by rw [State.card_setCard_self], by rw [State.card_setCard_self]⟩))
  rw [State.setCard_setCard, State.setCard_card] at h2
  have hleft : Order.leftToOpen (t.setCard c { t.card c with
      priority := ⟨.recovery, x, ps, false⟩ :: (t.card c).priority }) ⟨.recovery, x, ps, false⟩ = ps :=
    List.filter_eq_self.2 (fun p hp => by simp [hps p hp])
  rw [hleft] at h2
  exact h2

/-- A crosspoint of a rejected make order (R24). -/
def XRec.makeRejected (r : XRec) : XRec :=
  if r.state = .closing then { r with state := .opn, mark := false } else { r with mark := false }

/-- A crosspoint of a rejected break order (R24). -/
def XRec.breakRejected (r : XRec) : XRec :=
  if r.mark then { r with state := .unknown, mark := false }
  else if r.state = .opening then { r with state := .closed } else r

/-- A crosspoint that nothing is known of (R24, R25). -/
def XRec.unsure (r : XRec) : XRec := { r with state := .unknown, mark := false }

theorem XRec.makeRejected_wear (r : XRec) : r.makeRejected.wear = r.wear := by unfold XRec.makeRejected; split <;> rfl

theorem XRec.breakRejected_wear (r : XRec) : r.breakRejected.wear = r.wear := by
  unfold XRec.breakRejected
  split
  · rfl
  · split <;> rfl

/-- The card of a rejected order: the reason is kept (R24). -/
def rejectedCard (s : State) (c : CardId) (reason : Byte) : State :=
  s.setCard c { s.card c with pending := none, rejectReason := some reason }

section
variable {s : State} {c : CardId} {ord : Order} {reason : Byte}

theorem orderRejected_make (h : ord.kind = .make) : orderRejected s c ord reason =
    (tellRequest ((rejectedCard s c reason).modXps ord.bus ord.points XRec.makeRejected) ord (some .orderFail), false) := by
  simp only [orderRejected, h]; rfl

/-- The break order's crosspoints after its rejection, with the recovery open of the marked ones listed first (R24). -/
def breakRejectedState (s : State) (c : CardId) (ord : Order) (reason : Byte) : State :=
  let u := (rejectedCard s c reason).modXps ord.bus ord.points XRec.breakRejected
  if (orderMarked s ord).isEmpty then u else placeAtHead u c ⟨.recovery, ord.bus, orderMarked s ord, false⟩

theorem orderRejected_brk (h : ord.kind = .brk) : orderRejected s c ord reason =
    (tellRequest (breakRejectedState s c ord reason) ord (some .orderFail), false) := by
  simp only [orderRejected, h]; rfl

theorem orderRejected_emergency (h : ord.kind = .emergency) : orderRejected s c ord reason =
    (placeAtHead ((rejectedCard s c reason).modXps ord.bus ord.points (fun r => { r with state := .unknown })) c
      ⟨.recovery, ord.bus, ord.points, false⟩, false) := by
  simp only [orderRejected, h]; rfl

theorem orderRejected_recovery (h : ord.kind = .recovery) :
    orderRejected s c ord reason = (rejectedCard s c reason, true) := by
  simp only [orderRejected, h]; rfl

/-- A timed-out order's crosspoints are UNKNOWN (R25). -/
def timedOutState (s : State) (c : CardId) (ord : Order) : State :=
  (endPending s c).modXps ord.bus ord.points XRec.unsure

theorem orderTimedOut_recovery (h : ord.kind = .recovery) : orderTimedOut s c ord =
    ((handleAwaited (timedOutState s c ord) ord.bus ord.points).pushWork [.send c], true) := by
  simp only [orderTimedOut, h]; rfl

theorem orderTimedOut_other (h : ord.kind ≠ .recovery) : orderTimedOut s c ord =
    (handleAwaited (tellRequest (sendOrder (timedOutState s c ord) c ⟨.recovery, ord.bus, ord.points, false⟩) ord
      (some .orderFail)) ord.bus ord.points, false) := by
  cases hk : ord.kind with
  | recovery => exact absurd hk h
  | make => simp only [orderTimedOut, hk]; rfl
  | brk => simp only [orderTimedOut, hk]; rfl
  | emergency => simp only [orderTimedOut, hk]; rfl

end

/-- What is known of the pending order of a card from the state the command found (R21, R39). -/
def PendingKnown (o t : State) (c : CardId) (ps : List Pt) : Prop :=
  ClaimsLawful o → t.cardUsable c = true ∧ ∀ p ∈ ps, cardOf p = c

/-- What is known stands when the pending order ends. -/
theorem PendingKnown.ended {o t : State} {c : CardId} {ps : List Pt} (hps : PendingKnown o t c ps)
    (reason : Option Byte) (x : Bus) (qs : List Pt) (f : XRec → XRec) :
    PendingKnown o ((t.setCard c { t.card c with pending := none, rejectReason := reason }).modXps x qs f) c ps :=
  fun hc => ⟨by rw [cardUsable_congr (s := t) (by rw [State.modXps_eq]; rfl) (by rw [State.modXps_eq]; rfl)]; exact (hps hc).1,
    (hps hc).2⟩

/-- The reset context: its sweep is the initial one and nothing is left in it (R66). -/
theorem initialCtx_move (s : State) (x : Bus) :
    CtxMove s x { Ctx.initial with source := (s.ctx x).source } where
  source := rfl
  walk := fun _ => ⟨⟨⟨le_rfl, le_rfl⟩, fun cell hc => by cases hc⟩, fun st hst => by cases hst⟩
  oneCard := fun _ => ⟨fun tg h => (by cases h), fun r h => (by cases h)⟩
  make := fun r h => by cases h

namespace Softly
variable {o t : State} {A : Act → Prop}

/-- Something that the inside of a command does, where what is known comes from the state the command found. -/
theorem innerOf {L : Prop} {u : State} (hw : A .work) (hL : ClaimsLawful o → L) (h : Softly o A t)
    (k : Keeps (fun _ => True) t u) (r : Run L False (fun _ => True) t u) : Softly o A u where
  does := h.does.tail (.inner _ _ _ hw False.elim (fun _ hc _ _ => hL hc) k r)
  calm := fun ho => ⟨k.opensFirst (h.calm ho).1, r.calm id (h.calm ho).1 (h.calm ho).2⟩

theorem tellRequest (hw : A .work) (h : Softly o A t) (ord : Order) (f : Option Cause) : Softly o A (tellRequest t ord f) :=
  h.inner hw ((Keeps.refl t).tellRequest ord f) (Run.tellRequest ord f .refl)

theorem handleAwaited (hw : A .work) (h : Softly o A t) (x : Bus) (ps : List Pt) : Softly o A (handleAwaited t x ps) :=
  h.inner hw ((Keeps.refl t).handleAwaited x ps) (Run.handleAwaited x ps .refl)

section
variable {c : CardId} {q : PendingOrder}

theorem orderDone (hw : A .work) (h : Softly o A t) (hq : (t.card c).pending = some q) (hA : A .done) :
    Softly o A (orderDone t c q.order) := by
  refine tellRequest hw (h.orderEnds c q (t.card c).rejectReason q.order.points _ hq (fun _ => id) ?_) _ _
  by_cases hk : q.order.kind = .make
  · rw [if_pos hk]; exact .inr ⟨hA, fun _ => rfl⟩
  · rw [if_neg hk]; exact .inl (fun _ => rfl)

theorem afterDone (hw : A .work) (h : Softly o A t) (ord : Order) {marked : List Pt} (hm : PendingKnown o t c marked) :
    Softly o A (afterDone t c ord marked) := by
  unfold Machine.afterDone
  refine pushWork (handleAwaited hw ?_ _ _) _
  split
  · exact h.innerOf hw hm ((Keeps.refl t).placeMarked c _ _) (Run.placeMarked c _ _ And.right (fun hl => .inl hl.1) .refl)
  · exact h

theorem placeAtHead (hw : A .work) (h : Softly o A t) (x : Bus) {ps : List Pt} (hps : PendingKnown o t c ps) :
    Softly o A (placeAtHead t c ⟨.recovery, x, ps, false⟩) :=
  h.innerOf hw hps ((Keeps.refl t).placeAtHead c _ (.inl rfl)) (Run.placeAtHead c _ (.inl rfl) And.right (fun hl => .inl hl.1) .refl)

theorem orderRejected (hw : A .work) (h : Softly o A t) (hq : (t.card c).pending = some q) (reason : Byte)
    (hk : PendingKnown o t c q.order.points) : Softly o A (orderRejected t c q.order reason).1 := by
  have hend : ∀ (ps : List Pt) (f : XRec → XRec), (∀ p ∈ ps, p ∈ q.order.points) → (∀ r, (f r).wear = r.wear) →
      Softly o A ((rejectedCard t c reason).modXps q.order.bus ps f) :=
    fun ps f hps hf => h.orderEnds c q (some reason) ps f hq hps (.inl hf)
  cases hkind : q.order.kind with
  | make =>
    rw [orderRejected_make hkind]
    dsimp only
    exact (hend _ _ (fun _ => id) XRec.makeRejected_wear).tellRequest hw _ _
  | brk =>
    have hbrk := hend q.order.points _ (fun _ => id) XRec.breakRejected_wear
    rw [orderRejected_brk hkind]
    dsimp only
    refine tellRequest hw ?_ _ _
    unfold breakRejectedState
    dsimp only
    split
    · exact hbrk
    · exact hbrk.placeAtHead hw _ (fun hc => ⟨((hk.ended _ _ _ _) hc).1, fun p hp => (hk hc).2 p (List.mem_filter.1 hp).1⟩)
  | emergency =>
    rw [orderRejected_emergency hkind]
    dsimp only
    exact (hend _ (fun r => { r with state := .unknown }) (fun _ => id) (fun _ => rfl)).placeAtHead hw _ (hk.ended _ _ _ _)
  | recovery =>
    rw [orderRejected_recovery hkind]
    dsimp only
    exact hend [] id (fun _ hp => by cases hp) (fun _ => rfl)

theorem orderTimedOut (hw : A .work) (h : Softly o A t) (hq : (t.card c).pending = some q)
    (hk : PendingKnown o t c q.order.points) : Softly o A (orderTimedOut t c q.order).1 := by
  have hend : Softly o A (timedOutState t c q.order) :=
    h.orderEnds c q (t.card c).rejectReason q.order.points XRec.unsure hq (fun _ => id) (.inl (fun _ => rfl))
  have hknown : PendingKnown o (timedOutState t c q.order) c q.order.points := hk.ended (t.card c).rejectReason _ _ _
  by_cases hkind : q.order.kind = .recovery
  · rw [orderTimedOut_recovery hkind]
    exact (hend.handleAwaited hw _ _).pushWork _
  · rw [orderTimedOut_other hkind]
    refine ((hend.innerOf hw hknown ((Keeps.refl _).sendOrder c _ (fun _ _ _ hm => by cases hm)) ?_).tellRequest hw _ _).handleAwaited hw _ _
    refine Run.sendRecovery c _ _ ?_ (fun p hp => ?_) And.right (fun hl => .inl hl.1) .refl
    · rw [timedOutState, State.modXps_card, endPending, State.card_setCard_self]
    · exact State.xp_modXps_makes (P := fun r => r.state = .unknown) _ _ (fun _ => rfl) hp

end

theorem afterReject (hw : A .work) (c : CardId) (ord : Order) {r : State × Bool} (h : Softly o A r.1) :
    Softly o A (afterReject c ord r).1 := (h.handleAwaited hw _ _).pushWork _

theorem thenRecover (hw : A .work) (c : CardId) {r : State × Bool} (h : Softly o A r.1)
    (hA : ∀ l, (r.1.cardEntry c).lane = some l → A (.lane l)) : Softly o A (thenRecover c r) := by
  unfold Machine.thenRecover
  split
  · exact h.askRecover hw c hA
  · exact h

/-! ### RACK RESET (R196) -/

theorem cancelTake (hw : A .work) (h : Softly o A t) (x : Bus) : Softly o A (cancelTake t x) :=
  h.inner hw ((Keeps.refl t).cancelTake x) (Run.cancelTake x trivial .refl)

theorem resetSource (hw : A .work) (h : Softly o A t) (x : Bus) : Softly o A (resetSource t x) := by
  refine source ?_ x _
  split
  · exact h.emit hw _ (.quiet (t.busEntry x).channel) rfl trivial
  · exact h

theorem resetCtx (hw : A .work) (h : Softly o A t) (x : Bus) : Softly o A (resetCtx t x) := by
  have h1 : Softly o A (if (t.ctx x).state = .measuring then Machine.cancelTake t x else t) := by
    split
    · exact h.cancelTake hw x
    · exact h
  exact (h1.resetSource hw x).ctx x _ (initialCtx_move _ x) (.inr (fun _ => ⟨rfl, .inl rfl⟩))

theorem resetQueue (h : Softly o A t) : Softly o A (resetQueue t) := h.plain { bounded := fun _ => ⟨Nat.zero_le 64, fun h48 => absurd (show 48 ≤ 0 from h48) (by decide)⟩ }

theorem resetPanel (h : Softly o A t) : Softly o A (resetPanel t) := by
  unfold Machine.resetPanel
  split
  · exact h.plain {}
  · exact h

theorem resetTrips (hw : A .work) (ht : A .trip) (hA : ∀ x, A (.clear x)) (h : Softly o A t) : Softly o A (resetTrips t) :=
  foldl _ _ (fun _ x _ hu => hu.evaluate hw ht x) (h.guard _ (.inl rfl) (fun x _ _ => hA x) (fun _ _ _ => ht))

theorem rackReset (hw : A .work) (ht : A .trip) (hr : A (.rack (.safe .reset))) (hA : ∀ x, A (.clear x)) (h : Softly o A t) :
    Softly o A (rackReset t) := by
  have h1 : Softly o A (t.modTrunk (fun k => { k with attn := AttnSet.empty })) := h.plain {}
  have h2 := foldl Machine.emergencyOpen allBuses (fun _ x _ hu => hu.emergencyOpen hw x)
    (h1.setRack (fun g => { g with rack := .safe .reset }) hr rfl)
  have h3 := (((foldl Machine.resetCtx allBuses (fun _ x _ hu => hu.resetCtx hw x) h2).resetQueue).resetPanel).resetTrips hw ht hA
  unfold Machine.rackReset
  dsimp only
  split
  · exact h3.raise _
  · exact h3

/-! ### Table entries (R45, R37) -/

theorem tables (h : Softly o A t) (k : Tables) (hA : A .tables) (hd : k.disps = t.tables.disps ∨ A .disps)
    (hT : TablesLawful t → TablesLawful { t with tables := k })
    (hD : DisabledAtRest t → DisabledAtRest { t with tables := k })
    (hc : ∀ c, t.cardUsable c = true → State.cardUsable { t with tables := k } c = false → t.cardInUse c = false) :
    Softly o A { t with tables := k } :=
  h.deed (.tables k hA hd hT hD hc (fun ho => (h.calm ho).2)) (fun _ hc => hc)

end Softly

end Sys2Proof.Machine
end

