-- ==== Sys2Proof/Proofs/EntryDeeds.lean ====
section
/-!
PROOFS. The table entries (R190) as deeds: which entries keep the law of the tables, and that a write answers once.
-/

-- One proof after another: in the joined text each worker would hold a stack of its own.
set_option Elab.async false

namespace Sys2Proof.Machine

/-- The changes of a command but for its answer. -/
def Silent (A : Act → Prop) : Act → Prop := fun a => a ≠ .reply ∧ A a

theorem Does.length {o s t : State} {A : Act → Prop} (h : Does o A s t) (hA : ¬ A .reply) :
    t.trunk.responses.length = s.trunk.responses.length := by
  have := congrArg List.length (h.heads hA)
  simpa only [List.length_map] using this

theorem Softly.length {o t : State} {A : Act → Prop} (h : Softly o (Silent A) t) :
    t.trunk.responses.length = o.trunk.responses.length := h.does.length (fun hr => hr.1 rfl)

/-! ### Entries that keep the law of the tables -/

section
variable {o t : State} {A : Act → Prop}

theorem Softly.modTables (h : Softly o A t) (f : Tables → Tables) (hA : A .tables)
    (hd : (f t.tables).disps = t.tables.disps ∨ A .disps) (hT : TablesLawful t → TablesLawful (t.modTables f))
    (hD : DisabledAtRest t → DisabledAtRest (t.modTables f))
    (hc : ∀ c, t.cardUsable c = true → (t.modTables f).cardUsable c = false → t.cardInUse c = false) :
    Softly o A (t.modTables f) := h.tables _ hA hd hT hD hc

theorem cardUsable_modTables {f : Tables → Tables} (h : (f t.tables).cards = t.tables.cards) (c : CardId) :
    (t.modTables f).cardUsable c = t.cardUsable c := by
  simp only [State.cardUsable, State.cardEntry, State.laneHasCard, State.lane, State.modTables, h]

/-- An entry of a table without a law of its own. -/
theorem Softly.otherTables (h : Softly o A t) (f : Tables → Tables) (hA : A .tables)
    (hd : (f t.tables).disps = t.tables.disps ∨ A .disps) (hs : (f t.tables).sites = t.tables.sites)
    (hb : (f t.tables).buses = t.tables.buses) (hc : (f t.tables).cards = t.tables.cards) :
    Softly o A (t.modTables f) := by
  refine h.modTables f hA hd (fun hT => ?_) (fun hD => ?_) (fun c hu hn => ?_)
  · simpa only [TablesLawful, State.siteEntry, State.busEntry, State.cardEntry, State.modTables, hs, hb, hc] using hT
  · simpa only [DisabledAtRest, State.busEntry, State.ctx, State.modTables, hb] using hD
  · rw [cardUsable_modTables hc, hu] at hn; cases hn

theorem takeSite_lawful {s u : State} {i : Nat} {b : List Byte} (h : takeSite s i b = .applied u) :
    u = s ∨ ∃ v e, siteClash s v e = false ∧ u = s.modTables (fun k => { k with sites := k.sites.set v e }) := by
  unfold takeSite at h
  split at h
  · cases h
  · split at h
    · cases h
    · split at h
      · cases h; exact .inl rfl
      · split at h
        · cases h
        · split at h
          · cases h
          · next hc => cases h; exact .inr ⟨_, _, Bool.not_eq_true _ ▸ hc, rfl⟩

/-- A SITE entry that clashes with no other keeps the sites distinct (R7). -/
theorem Softly.takeSite {u : State} {i : Nat} {b : List Byte} (hA : A .tables) (ht : Softly o A t)
    (h : Machine.takeSite t i b = .applied u) : Softly o A u := by
  rcases takeSite_lawful h with rfl | ⟨v, e, hclash, rfl⟩
  · exact ht
  · refine ht.modTables _ hA (.inl rfl) (fun hT => ⟨fun w w' hne hw hw' => ?_, hT.2.1, hT.2.2⟩) id
      (fun c hu hn => by rw [cardUsable_modTables rfl, hu] at hn; cases hn)
    have hfree : ∀ w, w ≠ v → (t.siteEntry w).enabled = true → e.enabled = true →
        (t.siteEntry w).block ≠ e.block ∧ ¬ ((t.siteEntry w).col = e.col ∧ (t.siteEntry w).row = e.row) :=
      fun w hw hen he => by
        have hc := mt (siteClash_iff t v e).2 (by rw [hclash]; decide)
        exact ⟨fun hb => hc ⟨he, w, hw, hen, .inr hb⟩, fun hb => hc ⟨he, w, hw, hen, .inl hb⟩⟩
    have hentry : ∀ w, (t.modTables (fun k => { k with sites := k.sites.set v e })).siteEntry w =
        if v = w then e else t.siteEntry w := fun w => by
      simp [State.siteEntry, State.modTables, Vector.getElem_set, Fin.ext_iff]
    have hlaw := hT.1 w w' hne
    rw [hentry] at hw hw' ⊢
    rw [hentry]
    by_cases hvw : v = w
    · rw [if_pos hvw] at hw ⊢
      rw [if_neg (fun e => hne (hvw.symm.trans e))] at hw' ⊢
      obtain ⟨h1, h2⟩ := hfree w' (fun e => hne (hvw.symm.trans e.symm)) hw' hw
      exact ⟨Ne.symm h1, fun ⟨hc, hr⟩ => h2 ⟨hc.symm, hr.symm⟩⟩
    · rw [if_neg hvw] at hw ⊢
      by_cases hvw' : v = w'
      · rw [if_pos hvw'] at hw' ⊢
        exact hfree w (Ne.symm hvw) hw hw'
      · rw [if_neg hvw'] at hw' ⊢
        exact hlaw hw hw'

theorem Softly.takeNet {u : State} {i : Nat} {b : List Byte} (hA : A .tables) (ht : Softly o A t)
    (h : Machine.takeNet t i b = .applied u) : Softly o A u := by
  unfold Machine.takeNet at h
  split at h
  · cases h
  · split at h
    · cases h
    · split at h
      · cases h; exact ht
      · split at h
        · cases h
        · cases h; exact ht.otherTables _ hA (.inl rfl) rfl rfl rfl

theorem Softly.takeScale {u : State} {i : Nat} {b : List Byte} (hA : A .tables) (ht : Softly o A t)
    (h : Machine.takeScale t i b = .applied u) : Softly o A u := by
  unfold Machine.takeScale at h
  split at h
  · cases h
  · split at h
    · cases h
    · cases h; exact ht.otherTables _ hA (.inl rfl) rfl rfl rfl

theorem Softly.takeLimit {u : State} {i : Nat} {b : List Byte} (hA : A .tables) (ht : Softly o A t)
    (h : Machine.takeLimit t i b = .applied u) : Softly o A u := by
  unfold Machine.takeLimit at h
  split at h
  · cases h
  · split at h
    · cases h
    · cases h; exact ht.otherTables _ hA (.inl rfl) rfl rfl rfl

theorem Softly.takeDisp {u : State} {i : Nat} {b : List Byte} (hA : A .tables) (hd : A .disps) (ht : Softly o A t)
    (h : Machine.takeDisp t i b = .applied u) : Softly o A u := by
  unfold Machine.takeDisp at h
  split at h
  · cases h
  · split at h
    · cases h
    · cases h; exact ht.otherTables _ hA (.inr hd) rfl rfl rfl

theorem Softly.takeMark {u : State} {i : Nat} {b : List Byte} (hA : A .tables) (ht : Softly o A t)
    (h : Machine.takeMark t i b = .applied u) : Softly o A u := by
  unfold Machine.takeMark at h
  split at h
  · cases h
  · split at h
    · cases h
    · cases h; exact ht.otherTables _ hA (.inl rfl) rfl rfl rfl

theorem Softly.takeWear {u : State} {i : Nat} {b : List Byte} (hA : A .wear) (ht : Softly o A t)
    (h : Machine.takeWear t i b = .applied u) : Softly o A u := by
  unfold Machine.takeWear at h
  split at h
  · cases h
  · next hi =>
    split at h
    · cases h
    · next w hw =>
      cases h
      have hmax : w ≤ maxWear := by
        unfold wear? at hw
        split at hw
        · next hle => cases hw; exact hle
        · cases hw
      have hno : xpNo ⟨i / 256, by omega⟩ ⟨i % 256, by omega⟩ = i := by simp only [xpNo]; omega
      have hset := ht.deed (.wear ⟨i / 256, by omega⟩ ⟨i % 256, by omega⟩ w hA hmax) (fun _ hc => hc)
      rw [State.setXp, State.xp, hno] at hset
      exact hset

/-- A bus that may be written is at rest (R44). -/
theorem restful_of_busFree {s : State} {x : Bus} (h : busFree s x = true) : (s.ctx x).Restful := by
  simp only [busFree, Bool.and_eq_true, List.isEmpty_iff, Bool.or_eq_true, beq_iff_eq] at h
  exact ⟨h.1.1.2, h.1.1.1⟩

/-- A BUS entry that clashes with no other keeps the buses distinct, and a bus that it disables is at rest (R43, R44). -/
theorem Softly.applyBus (hw : A .work) (htrip : A .trip) (hA : A .tables) (ht : Softly o A t) (x : Bus) (e : BusEntry)
    (hclash : busClash t x e = false) (hfree : e = t.busEntry x ∨ busFree t x = true) : Softly o A (applyBus t x e) := by
  have hentry : ∀ y, (t.modTables (fun k => { k with buses := k.buses.set x e })).busEntry y =
      if x = y then e else t.busEntry y := fun y => by
    simp [State.busEntry, State.modTables, Vector.getElem_set, Fin.ext_iff]
  have hother : ∀ y, y ≠ x → (t.busEntry y).enabled = true → e.enabled = true →
      ¬ ((t.busEntry y).lane = e.lane ∧ (t.busEntry y).channel = e.channel) := fun y hy hen he hb => by
    have : busClash t x e = true := by
      simp only [busClash, allBuses, Bool.and_eq_true, List.any_eq_true, List.mem_finRange, true_and, bne_iff_ne, ne_eq,
        beq_iff_eq]
      exact ⟨he, y, ⟨⟨hy, hen⟩, hb.1⟩, hb.2⟩
    rw [hclash] at this; cases this
  have htab : Softly o A (t.modTables (fun k => { k with buses := k.buses.set x e })) := by
    refine ht.modTables _ hA (.inl rfl) (fun hT => ⟨hT.1, fun y z hne hy hz => ?_, hT.2.2⟩) (fun hD y hy => ?_)
      (fun c hu hn => by rw [cardUsable_modTables rfl, hu] at hn; cases hn)
    · rw [hentry] at hy hz ⊢
      rw [hentry]
      by_cases hxy : x = y
      · rw [if_pos hxy] at hy ⊢
        rw [if_neg (fun e => hne (hxy.symm.trans e))] at hz ⊢
        exact fun ⟨hl, hc⟩ => hother z (fun e => hne (hxy.symm.trans e.symm)) hz hy ⟨hl.symm, hc.symm⟩
      · rw [if_neg hxy] at hy ⊢
        by_cases hxz : x = z
        · rw [if_pos hxz] at hz ⊢
          exact hother y (Ne.symm hxy) hy hz
        · rw [if_neg hxz] at hz ⊢
          exact hT.2.1 y z hne hy hz
    · rw [hentry] at hy
      by_cases hxy : x = y
      · subst hxy
        rw [if_pos rfl] at hy
        rcases hfree with rfl | hfree
        · exact hD x hy
        · exact (show (t.ctx x).Restful from restful_of_busFree hfree)
      · rw [if_neg hxy] at hy
        exact hD y hy
  exact (htab.source x (sourceAfterWrite (t.busEntry x) e (t.ctx x).source)).evaluate hw htrip x

theorem Softly.takeBus {u : State} {i : Nat} {b : List Byte} (hw : A .work) (htrip : A .trip) (hA : A .tables)
    (ht : Softly o A t) (h : Machine.takeBus t i b = .applied u) : Softly o A u := by
  unfold Machine.takeBus at h
  split at h
  · cases h
  · next x _ =>
    split at h
    · cases h
    · next e _ =>
      split at h
      · cases h
      · next hfree =>
        split at h
        · cases h
        · next hclash =>
          cases h
          refine ht.applyBus hw htrip hA x e (Bool.not_eq_true _ ▸ hclash) ?_
          by_contra hn
          simp only [not_or, Bool.not_eq_true] at hn
          exact hfree ⟨hn.1, by simp [hn.2]⟩

/-- A CARD entry whose lane no other card has, of a card that is not in use where its lane changes (R37). -/
theorem Softly.applyCard (hw : A .work) (hA : A .tables) (ht : Softly o A t) (c : CardId) (e : CardEntry)
    (hlane : ∀ d, d ≠ c → e.lane ≠ none → (t.cardEntry d).lane ≠ e.lane)
    (hfree : e.lane = (t.cardEntry c).lane ∨ t.cardInUse c = false) : Softly o A (applyCard t c e) := by
  have hentry : ∀ d, (t.modTables (fun k => { k with cards := k.cards.set c e })).cardEntry d =
      if c = d then e else t.cardEntry d := fun d => by
    simp [State.cardEntry, State.modTables, Vector.getElem_set, Fin.ext_iff]
  have htab : Softly o A (t.modTables (fun k => { k with cards := k.cards.set c e })) := by
    refine ht.modTables _ hA (.inl rfl) (fun hT => ⟨hT.1, hT.2.1, fun d d' hne hd => ?_⟩) id (fun d hu hn => ?_)
    · rw [hentry] at hd ⊢
      rw [hentry]
      by_cases hcd : c = d
      · rw [if_pos hcd] at hd ⊢
        rw [if_neg (fun e => hne (hcd.symm.trans e))]
        exact Ne.symm (hlane d' (fun e => hne (hcd.symm.trans e.symm)) hd)
      · rw [if_neg hcd] at hd ⊢
        by_cases hcd' : c = d'
        · rw [if_pos hcd']
          intro he
          exact hlane d (Ne.symm hcd) (he ▸ hd) he
        · rw [if_neg hcd']
          exact hT.2.2 d d' hne hd
    · have hlanes : ∀ l, (t.modTables (fun k => { k with cards := k.cards.set c e })).laneHasCard l = t.laneHasCard l :=
        fun _ => rfl
      unfold State.cardUsable at hu hn
      rw [hentry] at hn
      by_cases hcd : c = d
      · subst hcd
        rw [if_pos rfl] at hn
        rcases hfree with he | hfree
        · rw [he] at hn
          simp only [hlanes] at hn
          rw [hu] at hn; cases hn
        · exact hfree
      · rw [if_neg hcd] at hn
        simp only [hlanes] at hn
        rw [hu] at hn; cases hn
  by_cases he : e.lane = (t.cardEntry c).lane
  · rw [applyCard_sameLane he]; exact htab
  · unfold Machine.applyCard
    dsimp only
    rw [if_neg he]
    refine cardBlocksLost ?_ c
    split
    · split
      · exact htab.sendSupply hw _ _
      · exact htab
    · exact htab

theorem Softly.takeCard {u : State} {i : Nat} {b : List Byte} (hw : A .work) (hA : A .tables) (ht : Softly o A t)
    (h : Machine.takeCard t i b = .applied u) : Softly o A u := by
  unfold Machine.takeCard at h
  split at h
  · cases h
  · next c _ =>
    split at h
    · cases h
    · next e _ =>
      split at h
      · cases h; exact ht
      · split at h
        · cases h
        · next hlane =>
          split at h
          · cases h
          · next hfree =>
            cases h
            refine ht.applyCard hw hA c e (fun d hd hne heq => hlane ?_) ?_
            · simp only [allCards, Bool.and_eq_true, List.any_eq_true, List.mem_finRange, true_and, bne_iff_ne, ne_eq,
                beq_iff_eq]
              exact ⟨Option.isSome_iff_ne_none.2 hne, d, hd, heq⟩
            · by_contra hn
              simp only [not_or, Bool.not_eq_false] at hn
              exact hfree hn

end

/-! ### A write and its response (R187, R188, R190) -/

theorem length_replaceFirst (which : Resp → Bool) (new : Resp) (l : List Resp) :
    (replaceFirst which new l).length = l.length := by
  induction l with
  | nil => rfl
  | cons r l ih =>
    unfold replaceFirst
    split
    · rfl
    · simp [ih]

section
variable {o t : State} {A : Act → Prop}

/-- A response joins the list where there is room (R188). -/
theorem Does.respond (hA : A .reply) (h : Does o A o t) (hl : t.trunk.responses.length < 32) (r : Resp) :
    Does o A o (t.modTrunk (fun k => { k with responses := k.responses ++ [r] })) :=
  h.plain { responses := .inr ⟨hA, fun _ => by simp [State.modTrunk]; omega⟩ }

theorem Does.putWrite (hA : A .reply) (h : Does o A o t) (tag : Half) (p : List Byte) (pos : Nat) (r : Resp)
    (hl : pos = 0 → t.trunk.responses.length < 32) : Does o A o (t.putWrite tag p pos r) := by
  refine h.plain { responses := .inr ⟨hA, fun h32 => ?_⟩ }
  by_cases hp : pos = 0
  · have := hl hp
    simp only [State.putWrite, State.modTrunk, if_pos hp, List.length_append, List.length_singleton]; omega
  · simp only [State.putWrite, State.modTrunk, if_neg hp, length_replaceFirst]; exact h32

/-- A TABLE WRITE: its entry, its response, and what is done at its end. -/
theorem does_takeWrite {code size : Nat} {tag : Half} {p : List Byte} {pos : Nat} {take : State → Nat → List Byte → EntryAns}
    {after : State → State} (hA : A .reply) (htake : ∀ i b u, take o.begin i b = .applied u → Softly o (Silent A) u)
    (hafter : ∀ u, Does o A o u → Does o A o (after u)) :
    Does o A o (takeWrite o.begin code size tag p pos take after) := by
  have hbegin : Does o A o o.begin := Softly.start.does
  have hentry : (pos = 0 → o.trunk.responses.length < 32) →
      Does o A o (writeEntry o.begin tag p size pos take after) := fun hl => by
    unfold writeEntry
    split
    · exact (hbegin.putWrite hA tag p pos _ hl).pump
    · next u hu =>
      have hs := htake _ _ u hu
      exact hafter _ ((hs.does.mono (fun _ h => h.2)).putWrite hA tag p pos _ (fun hp => by rw [hs.length]; exact hl hp))
  unfold takeWrite
  split
  · split
    · exact hbegin
    · next hroom =>
      have hl : o.begin.trunk.responses.length < 32 := Nat.not_le.1 hroom
      split
      · exact (hbegin.respond hA hl _).pump
      · split
        · exact (hbegin.respond hA hl _).pump
        · split
          · exact hbegin
          · split
            · exact (hbegin.respond hA hl _).pump
            · subst pos; exact hentry (fun _ => hl)
  · next hp =>
    split
    · exact hentry (fun h => absurd h hp)
    · exact hbegin

end

end Sys2Proof.Machine
end

