-- ==== Sys2Proof/Proofs/Commands.lean ====
section
/-!
PROOFS. Every command but POWER_RESET as deeds: which changes each may make (`Instr.acts`), what the owner of a trunk command
does (`owner_done`), and the whole command (`exec_does`).
-/

namespace Sys2Proof
open Machine

/-- The changes that a command may make, which finds the state `s`. -/
def Instr.acts (c : Instr) (s : State) : Act → Prop
  | .close | .reply => True
  | .rack r =>
    (c = .lidOpens ∧ r = .safe .interlock) ∨ (∃ tag, c = .rackReset tag [] ∧ r = .safe .reset) ∨
      (∃ tag, c = .resume tag [] ∧ s.isSafe = true ∧ s.guard.interlock = .clear ∧ r = .ready) ∨
      (∃ tag, c = .serviceEnter tag [] ∧ s.guard.rack = .ready ∧ r = .service) ∨
      ∃ tag, c = .serviceExit tag [] ∧ s.guard.rack = .service ∧ r = .ready
  | .clear x => (∃ tag, c = .rackReset tag []) ∨ ∃ tag, c = .clearTrip tag [byte x.val]
  | .lane l => c.laneOf = some l ∨ c.laneNamed = some l ∨ ∃ d, c = .orderTimeout d ∧ (s.cardEntry d).lane = some l
  | .trip => (∃ v, c = .tripInChange v) ∨ (∃ n v, c = .fxChange n v) ∨ (∃ l ch v, c = .trip l ch v) ∨
    (∃ tag p pos, c = .tableWriteBus tag p pos) ∨ ∃ tag, c = .rackReset tag []
  | .work => ∀ tag p pos, c ≠ .tableWriteDisposition tag p pos
  | .disps => ∃ tag p pos, c = .tableWriteDisposition tag p pos
  | .tables => c.tableWrite ≠ none
  | .wear => ∃ tag p pos, c = .tableWriteWear tag p pos
  | .done => ∃ l tag, c = .done l tag
  | .newPanel => ∃ tag p, c = .panelBegin tag p

end Sys2Proof

namespace Sys2Proof.Machine

/-- What an owner did to come to its reply. -/
def Reply.Done (o : State) (A : Act → Prop) : Reply → Prop
  | .refused _ => True
  | .ok u _ | .held u _ => Does o A o u
  | .ran u _ => A .work ∧ Does o A o u

/-! ### The work of a STEP (R64) -/

/-- The window of a sweep that is accepted is in order (R64). -/
theorem stepWork_inOrder {s : State} {x : Bus} {p : List Byte} {w : Work} (h : stepWork s x p = some w) :
    ∀ win axis count n lim k d timeout hold,
      w = .measure (.sweepStart win axis count) n lim k d timeout hold → win.InOrder := by
  rintro win axis count n lim k d timeout hold rfl
  have hsel : selection? p = some (.sweepStart win axis count) := by
    unfold stepWork at h
    simp only [Option.bind_eq_bind] at h
    split at h
    · simp at h
    · split at h
      · simp only [Option.bind_eq_some_iff] at h
        obtain ⟨net, -, sel, hs, hold', -, h⟩ := h
        split at h
        · simp only [Option.some.injEq, Work.measure.injEq] at h
          rw [hs, h.1]
        · cases h
      · simp only [Option.bind_eq_some_iff] at h
        obtain ⟨net, -, site, -, h⟩ := h
        split at h <;> cases h
      · cases h
      · cases h
  unfold selection? at hsel
  split at hsel
  · cases hf : fin? 32 (byteAt p 5) <;> rw [hf] at hsel <;> cases hsel
  · unfold sweepStart? at hsel
    simp only [Option.bind_eq_bind, Option.bind_eq_some_iff] at hsel
    obtain ⟨c0, -, c1, -, r0, -, r1, -, ax, -, hs⟩ := hsel
    split at hs
    · next hle => cases hs; exact ⟨hle.1, hle.2.1⟩
    · cases hs
  · split at hsel <;> cases hsel
  · cases hsel

theorem stepChecked_ok {s : State} {p : List Byte} {x : Bus} {st : Step} (h : stepChecked s p = .ok (x, st)) :
    stepWork s x p = some st.work := by
  unfold stepChecked at h
  split at h
  · cases h
  · split at h
    · cases h
    · split at h
      · cases h
      · split at h
        · cases h
        · split at h
          · cases h
          · next w hw =>
            split at h
            · cases h
            · cases h; exact hw

/-- A step joins the queue of its bus: its window is in order (R64). -/
theorem queueMove {s : State} {x : Bus} {st : Step} (h : ∀ win axis count n lim k d timeout hold,
    st.work = .measure (.sweepStart win axis count) n lim k d timeout hold → win.InOrder) :
    CtxMove s x { s.ctx x with queue := (s.ctx x).queue ++ [st] } where
  source := rfl
  walk := fun hw => ⟨hw.1, fun st' hst => by
    rcases List.mem_append.1 hst with hst | hst
    · exact hw.2 st' hst
    · rw [List.mem_singleton.1 hst]; exact h⟩
  oneCard := id
  make := fun _ hr => .inl hr

/-! ### Payloads of one byte -/

theorem busAt_singleton {p : List Byte} (hp : p.length = 1) {x : Bus} (h : busAt p 0 = some x) : p = [byte x.val] := by
  obtain ⟨b, rfl⟩ := List.length_eq_one_iff.1 hp
  unfold busAt at h
  split at h
  · next hb =>
    cases h
    rw [byteAt_zero] at hb
    simp [byte]
  · cases h

/-! ### Soft work and work that may close -/

section
variable {o t : State} {A : Act → Prop}

theorem Does.foldl {α : Type} {s : State} (f : State → α → State) (l : List α)
    (hf : ∀ u, ∀ a ∈ l, Does o A s u → Does o A s (f u a)) (h : Does o A s t) : Does o A s (l.foldl f t) := by
  induction l generalizing t with
  | nil => exact h
  | cons a l ih => exact ih (fun u b hb => hf u b (List.mem_cons_of_mem _ hb)) (hf t a List.mem_cons_self h)

theorem Does.becomeReady (hw : A .work) (hc : A .close) (hA : A (.rack .ready)) (h : Softly o A t) :
    Does o A o (becomeReady t) :=
  foldl _ _ (fun u x _ hu => hu.inner hw hc ((Keeps.refl u).readyCtx x) (Run.readyCtx x trivial trivial .refl))
    (h.setRack (fun g => { g with rack := .ready }) hA rfl).does

theorem Softly.emptyQueue (h : Softly o A t) (x : Bus) : Softly o A (t.modCtx x (fun c => { c with queue := [] })) :=
  h.ctx x _ (Ctx.Tame.ctxMove ⟨.inr rfl, rfl, rfl, rfl, rfl, .inl rfl, .inl rfl⟩) (.inr (fun hr => ⟨rfl, hr.2⟩))

theorem Softly.beginPanelCtx (h : Softly o A t) (x : Bus) : Softly o A (beginPanelCtx t x) :=
  h.ctx x _ { source := rfl, walk := fun hw => ⟨⟨⟨le_rfl, le_rfl⟩, fun _ hc => by cases hc⟩, hw.2⟩, oneCard := id
              make := fun _ hr => .inl hr } (.inr id)

theorem Softly.clearTripped (h : Softly o A t) (x : Bus) (hA : A (.clear x)) : Softly o A (t.setTripped x false) :=
  h.guard _ (.inl rfl) (fun y hs hf => by
    have hf' : (t.setTripped x false).tripped y = false := hf
    rw [State.tripped_setTripped] at hf'
    split at hf'
    · next e => exact e ▸ hA
    · rw [hs] at hf'; cases hf') (fun y hs hf => by
    have hf' : (t.setTripped x false).tripped y = true := hf
    rw [State.tripped_setTripped] at hf'
    split at hf'
    · cases hf'
    · rw [hs] at hf'; cases hf')

end

/-- What the owner of a trunk command of fixed length does. -/
theorem owner_done {c : Instr} {kind : Byte} {tag : Half} {p : List Byte} {n : Nat}
    (h : c.fixedFrame = some (kind, tag, p, n)) (s : State) :
    (c = .tableRead tag p ∧ kind = 0x03#8 ∧ n = 6) ∨
      ∃ owner, exec c s = .next (takeCommand s.begin kind tag p n owner) ∧
        (p.length = n → (owner s.begin).Done s (Silent (c.acts s))) := by
  have hstart : ∀ A, Softly s A s.begin := fun A => .start
  have hclose : Silent (c.acts s) .close := ⟨nofun, trivial⟩
  cases c with
  | tableRead t q =>
    obtain ⟨rfl, rfl, rfl, rfl⟩ := by simpa [Instr.fixedFrame] using h
    exact .inl ⟨rfl, rfl, rfl⟩
  | step t q =>
    obtain ⟨rfl, rfl, rfl, rfl⟩ := by simpa [Instr.fixedFrame] using h
    refine .inr ⟨_, rfl, fun hp => ?_⟩
    split
    · trivial
    · next x st hst =>
      have hwork := stepChecked_ok hst
      refine ⟨⟨nofun, nofun⟩, (((hstart _).ctx x _ (queueMove (stepWork_inOrder hwork)) (.inl (stepWork_some hwork).1)).post _).does⟩
  | busAbort t q =>
    obtain ⟨rfl, rfl, rfl, rfl⟩ := by simpa [Instr.fixedFrame] using h
    refine .inr ⟨_, rfl, fun hp => ?_⟩
    split
    · trivial
    · next x _ =>
      have hw : Silent (Instr.acts (.busAbort t q) s) .work := ⟨nofun, nofun⟩
      exact ⟨hw, (((hstart _).emptyQueue x).inner hw ((Keeps.refl _).abortCtx x) (Run.abortCtx x trivial .refl)).does⟩
  | busResume t q =>
    obtain ⟨rfl, rfl, rfl, rfl⟩ := by simpa [Instr.fixedFrame] using h
    refine .inr ⟨_, rfl, fun hp => ?_⟩
    split
    · trivial
    · next x _ =>
      have hw : Silent (Instr.acts (.busResume t q) s) .work := ⟨nofun, nofun⟩
      split
      · next hs => exact ⟨hw, (hstart _).does.inner hw hclose ((Keeps.refl _).resumeHalted x hs)
          (Run.resumeHalted x trivial trivial .refl)⟩
      · trivial
  | clearTrip t q =>
    obtain ⟨rfl, rfl, rfl, rfl⟩ := by simpa [Instr.fixedFrame] using h
    refine .inr ⟨_, rfl, fun hp => ?_⟩
    split
    · trivial
    · next x hx =>
      split
      · trivial
      · split
        · trivial
        · exact ⟨⟨nofun, nofun⟩, (((hstart _).clearTripped x ⟨nofun, .inr ⟨t, by rw [busAt_singleton hp hx]⟩⟩).post _).does⟩
  | supply t q =>
    obtain ⟨rfl, rfl, rfl, rfl⟩ := by simpa [Instr.fixedFrame] using h
    refine .inr ⟨_, rfl, fun hp => ?_⟩
    dsimp only
    split
    · trivial
    · exact (Softly.foldl _ _ (fun _ c _ hu => hu.sendCardSupply ⟨nofun, nofun⟩ c)
        (Softly.foldl _ _ (fun _ u _ hu => hu.setSupply u _) (hstart _))).does
  | resume t q =>
    obtain ⟨rfl, rfl, rfl, rfl⟩ := by simpa [Instr.fixedFrame] using h
    refine .inr ⟨_, rfl, fun hp => ?_⟩
    split
    · trivial
    · next hs =>
      split
      · trivial
      · trivial
      · next hi =>
        obtain rfl := List.length_eq_zero_iff.1 hp
        exact ⟨⟨nofun, nofun⟩, Does.becomeReady ⟨nofun, nofun⟩ hclose
          ⟨nofun, .inr (.inr (.inl ⟨t, rfl, show s.isSafe = true by
            rw [← Bool.not_eq_false]; exact fun he => hs (by rw [show s.begin.isSafe = s.isSafe from rfl, he]; rfl), hi, rfl⟩))⟩ (hstart _)⟩
  | serviceEnter t q =>
    obtain ⟨rfl, rfl, rfl, rfl⟩ := by simpa [Instr.fixedFrame] using h
    refine .inr ⟨_, rfl, fun hp => ?_⟩
    split
    · trivial
    · next hr =>
      split
      · obtain rfl := List.length_eq_zero_iff.1 hp
        exact ((hstart _).setRack (fun g => { g with rack := .service })
          ⟨nofun, .inr (.inr (.inr (.inl ⟨t, rfl, not_not.1 hr, rfl⟩)))⟩ rfl).does
      · trivial
  | serviceExit t q =>
    obtain ⟨rfl, rfl, rfl, rfl⟩ := by simpa [Instr.fixedFrame] using h
    refine .inr ⟨_, rfl, fun hp => ?_⟩
    split
    · trivial
    · next hr =>
      split
      · trivial
      · obtain rfl := List.length_eq_zero_iff.1 hp
        exact ⟨⟨nofun, nofun⟩, Does.becomeReady ⟨nofun, nofun⟩ hclose
          ⟨nofun, .inr (.inr (.inr (.inr ⟨t, rfl, not_not.1 hr, rfl⟩)))⟩ (hstart _)⟩
  | rackReset t q =>
    obtain ⟨rfl, rfl, rfl, rfl⟩ := by simpa [Instr.fixedFrame] using h
    refine .inr ⟨_, rfl, fun hp => ?_⟩
    obtain rfl := List.length_eq_zero_iff.1 hp
    exact ⟨⟨nofun, nofun⟩, (Softly.rackReset ⟨nofun, nofun⟩ ⟨nofun, .inr (.inr (.inr (.inr ⟨t, rfl⟩)))⟩ ⟨nofun, .inr (.inl ⟨t, rfl, rfl⟩)⟩
      (fun _ => ⟨nofun, .inl ⟨t, rfl⟩⟩) (hstart _)).does⟩
  | panelBegin t q =>
    obtain ⟨rfl, rfl, rfl, rfl⟩ := by simpa [Instr.fixedFrame] using h
    refine .inr ⟨_, rfl, fun hp => ?_⟩
    dsimp only
    split
    · exact (Softly.foldl _ _ (fun _ x _ hu => hu.beginPanelCtx x)
        ((hstart _).deed (.newPanel { s.begin.panel with
          state := .opn, number := s.begin.panel.number + 1, verdicts := Vector.replicate 32 SiteVerdict.initial }
          ⟨nofun, t, q, rfl⟩) (fun _ hc => hc))).does
    · trivial
  | panelEnd t q =>
    obtain ⟨rfl, rfl, rfl, rfl⟩ := by simpa [Instr.fixedFrame] using h
    refine .inr ⟨_, rfl, fun hp => ?_⟩
    dsimp only
    split
    · exact ⟨⟨nofun, nofun⟩, ((hstart _).plain {}).does⟩
    · trivial
  | flowHold t q | flowRelease t q | guardStatus t q | laneStatus t q | busStatus t q | panelStatus t q =>
    obtain ⟨rfl, rfl, rfl, rfl⟩ := by simpa [Instr.fixedFrame] using h
    exact .inr ⟨_, rfl, fun hp => ((hstart _).plain {}).does⟩
  | siteStatus t q =>
    obtain ⟨rfl, rfl, rfl, rfl⟩ := by simpa [Instr.fixedFrame] using h
    exact .inr ⟨_, rfl, fun hp => (((hstart _).modGuardRest
      (fun g => { g with arrival := Vector.replicate 32 false, departure := Vector.replicate 32 false }) rfl rfl).plain {}).does⟩
  | laneReset t q =>
    obtain ⟨rfl, rfl, rfl, rfl⟩ := by simpa [Instr.fixedFrame] using h
    refine .inr ⟨_, rfl, fun hp => ?_⟩
    split
    · trivial
    · next l hl => exact ⟨⟨nofun, nofun⟩, ((hstart _).laneReset ⟨nofun, nofun⟩ l ⟨nofun, .inr (.inl hl)⟩).does⟩
  | laneOff t q =>
    obtain ⟨rfl, rfl, rfl, rfl⟩ := by simpa [Instr.fixedFrame] using h
    refine .inr ⟨_, rfl, fun hp => ?_⟩
    split
    · trivial
    · next l hl => exact ⟨⟨nofun, nofun⟩, ((hstart _).laneOff ⟨nofun, nofun⟩ l ⟨nofun, .inr (.inl hl)⟩).does⟩
  | laneOn t q =>
    obtain ⟨rfl, rfl, rfl, rfl⟩ := by simpa [Instr.fixedFrame] using h
    refine .inr ⟨_, rfl, fun hp => ?_⟩
    split
    · trivial
    · next l hl => exact ((hstart _).laneOn ⟨nofun, nofun⟩ l ⟨nofun, .inr (.inl hl)⟩).does
  | laneTest t q =>
    obtain ⟨rfl, rfl, rfl, rfl⟩ := by simpa [Instr.fixedFrame] using h
    refine .inr ⟨_, rfl, fun hp => ?_⟩
    split
    · trivial
    · next l hl =>
      split
      · trivial
      · next hbad =>
        refine ((hstart _).startTest ⟨nofun, nofun⟩ l _ ⟨nofun, .inr (.inl hl)⟩ (fun ha => ?_)).does
        unfold laneTestBad at hbad
        split at hbad
        · cases hbad
        · split at hbad
          · cases hbad
          · rw [if_pos (.inl ha)] at hbad; cases hbad
  | _ => exact absurd h (by simp [Instr.fixedFrame])

/-! ### Taking a command (R187, R188) -/

section
variable {o : State} {A : Act → Prop} {kind : Byte} {tag : Half} {p : List Byte} {n : Nat} {owner : State → Reply}

theorem does_takeCommand (hrep : A .reply) (hc : A .close)
    (ho : p.length = n → (owner o.begin).Done o (Silent A)) : Does o A o (takeCommand o.begin kind tag p n owner) := by
  have hbegin : Does o A o o.begin := Softly.start.does
  have hsilent : ∀ {u}, Does o (Silent A) o u → Does o A o u := fun hu => hu.mono (fun _ ha => ha.2)
  unfold takeCommand
  split
  · exact hbegin
  · next hroom =>
    have hl : ∀ {u}, Does o (Silent A) o u → u.trunk.responses.length < 32 := fun hu => by
      rw [hu.length (fun hr => hr.1 rfl)]; exact Nat.not_le.1 hroom
    split
    · exact (hbegin.respond hrep (Nat.not_le.1 hroom) _).pump
    · next hp =>
      have hdone := ho (not_not.1 hp)
      generalize owner o.begin = r at hdone
      cases r with
      | refused st => exact (hbegin.respond hrep (Nat.not_le.1 hroom) _).pump
      | ok u d => exact ((hsilent hdone).respond hrep (hl hdone) _).pump
      | ran u d => exact ((hsilent hdone.2).respond hrep (hl hdone.2) _).finish hdone.1.2 hc
      | held u l => exact ((hsilent hdone).respond hrep (hl hdone) _).pump

/-- A command that is taken is answered once, behind the responses that wait (R187, R188). -/
theorem takeCommand_heads (hroom : o.trunk.responses.length < 32)
    (ho : p.length = n → (owner o.begin).Done o (Silent A)) :
    (takeCommand o.begin kind tag p n owner).trunk.responses.map Resp.head =
      o.trunk.responses.map Resp.head ++ [(tag, kind)] := by
  have hkeep : ∀ {u}, Does o (Silent A) o u → u.trunk.responses.map Resp.head = o.trunk.responses.map Resp.head :=
    fun hu => hu.heads (fun hr => hr.1 rfl)
  have hjoin : ∀ (u : State) (r : Resp), u.trunk.responses.map Resp.head = o.trunk.responses.map Resp.head →
      r.head = (tag, kind) → ((u.modTrunk (fun k => { k with responses := k.responses ++ [r] })).trunk.responses.map
        Resp.head) = o.trunk.responses.map Resp.head ++ [(tag, kind)] := fun u r hu hr => by
    simp only [State.modTrunk, List.map_append, hu, List.map_cons, List.map_nil, hr]
  unfold takeCommand
  rw [if_neg (Nat.not_le.2 (show o.begin.trunk.responses.length < 32 from hroom))]
  split
  · rw [pump_responses]; exact hjoin _ _ rfl rfl
  · next hp =>
    have hdone := ho (not_not.1 hp)
    generalize owner o.begin = r at hdone
    cases r with
    | refused st => rw [answer, pump_responses]; exact hjoin _ _ rfl rfl
    | ok u d => rw [answer, pump_responses]; exact hjoin _ _ (hkeep hdone) rfl
    | ran u d => rw [answer, finish_responses]; exact hjoin _ _ (hkeep hdone.2) rfl
    | held u l => rw [answer, pump_responses]; exact hjoin _ _ (hkeep hdone) rfl

end

end Sys2Proof.Machine
end

