-- ==== Sys2Proof/Proofs/AllCommands.lean ====
section
/-!
PROOFS. Pins, frames and timers as deeds, and with them every command but POWER_RESET (`exec_does`): O2, O11, O54, O55, O56,
O58, O59, O60.
-/

-- One proof after another: in the joined text each worker would hold a stack of its own.
set_option Elab.async false

namespace Sys2Proof.Machine

/-- The command comes to a next state by the deeds it may do. -/
def Goes (c : Instr) (s : State) : Prop := ∃ t, exec c s = .next t ∧ Does s (c.acts s) s t

/-! ### Pins -/

section
variable {s : State}

theorem goes_lidOpens : Goes .lidOpens s := by
  unfold Goes exec execLidOpens
  dsimp only
  split
  · exact ⟨_, rfl, Softly.start.does⟩
  · exact ⟨_, rfl, (Softly.lidOpened nofun (.inl ⟨rfl, rfl⟩) .start).does.finish nofun trivial⟩

theorem goes_lidCloses : Goes .lidCloses s := by
  unfold Goes exec execLidCloses
  dsimp only
  split
  · exact ⟨_, rfl, (Softly.start.modGuardRest _ rfl rfl).does⟩
  · exact ⟨_, rfl, Softly.start.does⟩

theorem goes_lidQuietTimerExpiry : Goes .lidQuietTimerExpiry s := by
  have hclear : Softly s (Instr.acts .lidQuietTimerExpiry s) (s.begin.modGuard (fun g => { g with interlock := .clear })) :=
    Softly.start.modGuardRest _ rfl rfl
  unfold Goes exec execLidQuietTimerExpiry
  dsimp only
  split
  · refine ⟨_, rfl, Does.pump ?_⟩
    split
    · exact (hclear.raise _).does
    · exact hclear.does
  · exact ⟨_, rfl, Softly.start.does⟩

theorem goes_tripInChange (level : Bool) : Goes (.tripInChange level) s := by
  unfold Goes exec execTripInChange
  dsimp only
  split
  · exact ⟨_, rfl, Softly.start.does⟩
  · exact ⟨_, rfl, ((Softly.start.modGuardRest (fun g => { g with tripIn := level }) rfl rfl).evaluateThose nofun
      (.inl ⟨level, rfl⟩) _).does.finish
      nofun trivial⟩

theorem goes_fxChange (line : Fin 4) (level : Bool) : Goes (.fxChange line level) s := by
  unfold Goes exec execFxChange
  dsimp only
  split
  · exact ⟨_, rfl, Softly.start.does⟩
  · exact ⟨_, rfl, ((Softly.start.modGuardRest (fun g => { g with fx := g.fx.set line level }) rfl rfl).evaluateThose
      nofun (.inr (.inl ⟨line, level, rfl⟩)) _).does.finish nofun trivial⟩

/-! ### The transmitter (R189, R151) -/

/-- The head record leaves the queue, and its place is given (R146, R148, R150, R151). -/
theorem Does.removeHead {o t : State} {A : Act → Prop} (hw : A .work) (hc : A .close) (h : Does o A o t) :
    Does o A o (removeHead t) := by
  have htail : Does o A o { t with queue := { t.queue with records := t.queue.records.tail } } :=
    h.plain { bounded := fun hb => ⟨by have := hb.1; simp; omega, fun h48 => hb.2 (by simp at h48; omega)⟩ }
  have hclose : ∀ {u}, Does o A o u → Does o A o (closePanel u) := fun hu => hu.plain {}
  have hfold : ∀ {u : State}, u.queue.records.length < 64 → Does o A o u →
      Does o A o (appendRecord u (.fold 0 false)) := fun hl hu =>
    hu.inner hw hc ((Keeps.refl _).appendRecord _ hl (.inr (fun _ => trivial))) (Run.appendRecord 0 trivial hl _ .refl)
  unfold Machine.removeHead
  dsimp only
  split
  · next h63 =>
    unfold grantPlace
    split
    · next x _ =>
      split
      · exact htail.inner hw hc (((Keeps.refl _).appendRecord _ (by rw [h63]; decide) (.inr (fun _ => trivial))).slotTaken x)
          (Run.slotTaken x trivial (Run.appendRecord x trivial (by rw [h63]; decide) _ .refl))
      · exact htail
    · split
      · unfold offerClosingFold
        split
        · exact hclose htail
        · split
          · next hl => exact hclose (hfold hl htail)
          · exact htail
      · exact htail
  · split
    · next h16 =>
      simp only [Bool.and_eq_true, decide_eq_true_eq] at h16
      have hleave : Does o A o { t with queue := { t.queue with records := t.queue.records.tail, compact := false } } :=
        htail.plain { bounded := fun hb => ⟨hb.1, fun h48 => absurd (h16.1 ▸ h48 : 48 ≤ 16) (by decide)⟩ }
      have h16' : t.queue.records.tail.length < 64 := by rw [h16.1]; decide
      unfold leaveCompact
      dsimp only
      split
      · split
        · exact hclose (hfold h16' hleave)
        · exact hfold h16' hleave
      · split
        · exact hclose hleave
        · exact hleave
    · exact htail

theorem Does.frameDone {o t : State} {A : Act → Prop} (hw : A .work) (hc : A .close) (hr : A .reply) (h : Does o A o t) :
    Does o A o (frameDone t) := by
  unfold Machine.frameDone
  split
  · exact h
  · exact h.plain {}
  · exact h.plain { responses := .inr ⟨hr, fun hl => by simp [State.modTrunk]; omega⟩ }
  · have hfree : Does o A o (t.modTrunk (fun k => { k with tx := none })) := h.plain {}
    dsimp only
    split
    · exact hfree.removeHead hw hc
    · exact hfree

theorem goes_frameSent : Goes .frameSent s := by
  unfold Goes exec execFrameSent
  dsimp only
  split
  · exact ⟨_, rfl, Softly.start.does⟩
  · exact ⟨_, rfl, (Softly.start.does.frameDone nofun trivial trivial).finish nofun trivial⟩

theorem goes_badKind (tag : Half) (kind : Byte) (p : List Byte) : Goes (.badKind tag kind p) s := by
  unfold Goes exec execBadKind
  dsimp only
  split
  · exact ⟨_, rfl, Softly.start.does⟩
  · next h =>
    refine ⟨_, rfl, (Softly.start.does.respond trivial ?_ _).pump⟩
    simp only [Bool.or_eq_true, decide_eq_true_eq, not_or, Nat.not_le] at h
    exact h.2

theorem goes_tableRead (tag : Half) (p : List Byte) : Goes (.tableRead tag p) s := by
  unfold Goes exec execTableRead
  dsimp only
  split
  · exact ⟨_, rfl, Softly.start.does⟩
  · next hl =>
    split
    · exact ⟨_, rfl, (Softly.start.does.respond trivial (Nat.not_le.1 hl) _).pump⟩
    · exact ⟨_, rfl, (Softly.start.does.respond trivial (Nat.not_le.1 hl) _).pump⟩

/-! ### Frames on a lane -/

theorem softly_goodFrame (A : Act → Prop) {l : LaneId} (hA : A (.lane l)) : Softly s A (goodFrame s.begin l) :=
  Softly.start.goodFrame l hA

theorem goes_badFrame (l : LaneId) (bytes : List Byte) : Goes (.badFrame l bytes) s := by
  have hl : Instr.acts (.badFrame l bytes) s (.lane l) := .inl rfl
  have hmod : ∀ n, Softly s (Instr.acts (.badFrame l bytes) s) (s.begin.modLane l (fun k => { k with errors := n })) :=
    fun n => Softly.start.modLane l _ hl (fun hc => by simpa [State.laneHasCard] using hc)
  unfold Goes exec execBadFrame
  dsimp only
  split
  · exact ⟨_, rfl, Softly.start.does⟩
  · split
    · exact ⟨_, rfl, ((hmod 3).laneLeave nofun l _ hl).does.finish nofun trivial⟩
    · exact ⟨_, rfl, (hmod ((s.begin.lane l).errors + 1)).does⟩

theorem goes_laneFrameDiscard (l : LaneId) (bytes : List Byte) : Goes (.laneFrameDiscard l bytes) s := by
  unfold Goes exec execLaneFrameDiscard
  dsimp only
  split
  · exact ⟨_, rfl, (softly_goodFrame _ (.inl rfl)).does⟩
  · exact ⟨_, rfl, Softly.start.does⟩

/-- A good frame leaves the cards usable and their orders alone. -/
theorem goodFrame_pendingKnown {l : LaneId} {c : CardId} {q : PendingOrder}
    (hq : ((goodFrame s.begin l).card c).pending = some q) : PendingKnown s (goodFrame s.begin l) c q.order.points := by
  intro hc
  have hcard : (goodFrame s.begin l).card c = s.card c := by rw [goodFrame_eq]; rfl
  rw [hcard] at hq
  have husable : (goodFrame s.begin l).cardUsable c = s.cardUsable c := by
    unfold State.cardUsable
    simp only [goodFrame_laneHasCard]
    rw [goodFrame_eq]; rfl
  rw [husable]
  exact hc.pending hq

theorem goes_done (l : LaneId) (tag : Byte) : Goes (.done l tag) s := by
  have hgood := softly_goodFrame (s := s) (Instr.acts (.done l tag) s) (l := l) (.inl rfl)
  unfold Goes exec execDone
  dsimp only
  split
  · next c o ho =>
    obtain ⟨-, -, q, hq, rfl, -⟩ := answeredOrder_some ho
    have hdone : Softly s (Instr.acts (.done l tag) s) (orderDone (goodFrame s.begin l) c q.order) :=
      hgood.orderDone nofun hq ⟨l, tag, rfl⟩
    have hknown := goodFrame_pendingKnown hq
    refine ⟨_, rfl, (hdone.afterDone nofun _ (fun hc => ⟨?_, fun p hp => (hknown hc).2 p (List.mem_filter.1 hp).1⟩)).does.finish
      nofun trivial⟩
    rw [← (hknown hc).1]
    have k := (Keeps.refl (Q := fun _ => True) (((endPending (goodFrame s.begin l) c).modXps q.order.bus q.order.points
      (if q.order.kind = .make then XRec.closeDone else XRec.openDone)))).tellRequest q.order none
    rw [orderDone, cardUsable_congr k.tables k.lanes]
    exact cardUsable_congr (by rw [State.modXps_eq]; rfl) (by rw [State.modXps_eq]; rfl) c
  · exact ⟨_, rfl, hgood.does⟩

theorem goes_reject (l : LaneId) (tag reason : Byte) : Goes (.reject l tag reason) s := by
  have hgood := softly_goodFrame (s := s) (Instr.acts (.reject l tag reason) s) (l := l) (.inl rfl)
  unfold Goes exec execReject
  dsimp only
  split
  · next c o ho =>
    obtain ⟨-, hc, q, hq, rfl, -⟩ := answeredOrder_some ho
    have hrej := (hgood.orderRejected nofun hq reason (goodFrame_pendingKnown hq)).afterReject nofun c q.order
    refine ⟨_, rfl, (hrej.thenRecover nofun c (fun l' hl' => .inl ?_)).does.finish nofun trivial⟩
    have htab := hrej.does.tables nofun
    rw [State.cardEntry, htab] at hl'
    have hcl : (s.cardEntry c).lane = some l := by
      have := cardEntry_of_cardOnLane hc
      rwa [goodFrame_eq] at this
    exact (hcl.symm.trans hl')
  · exact ⟨_, rfl, hgood.does⟩

theorem goes_presence (l : LaneId) (mask : Byte) : Goes (.presence l mask) s := by
  have hgood := softly_goodFrame (s := s) (Instr.acts (.presence l mask) s) (l := l) (.inl rfl)
  unfold Goes exec execPresence
  dsimp only
  split
  · split
    · exact ⟨_, rfl, (hgood.presenceTaken nofun l _ mask).does.finish nofun trivial⟩
    · exact ⟨_, rfl, hgood.does⟩
  · exact ⟨_, rfl, hgood.does⟩

theorem Softly.setInstTrip {o t : State} {A : Act → Prop} (hw : A .work) (hA : A .trip) (h : Softly o A t) (l : LaneId) (ch : Chan)
    (v : Bool) : Softly o A (setInstTrip t l ch v) := by
  unfold Machine.setInstTrip
  split
  · exact h
  · exact (h.modGuardRest _ rfl rfl).evaluateThose hw hA _

theorem goes_trip (l : LaneId) (channel state : Byte) : Goes (.trip l channel state) s := by
  have hgood := softly_goodFrame (s := s) (Instr.acts (.trip l channel state) s) (l := l) (.inl rfl)
  unfold Goes exec execTrip
  dsimp only
  split
  · split
    · split
      · exact ⟨_, rfl, hgood.does⟩
      · exact ⟨_, rfl, (hgood.setInstTrip nofun (.inr (.inr (.inl ⟨l, channel, state, rfl⟩))) l _ _).does.finish nofun trivial⟩
    · exact ⟨_, rfl, hgood.does⟩
  · exact ⟨_, rfl, hgood.does⟩

theorem Softly.ackTaken {o t : State} {A : Act → Prop} (hw : A .work) (h : Softly o A t) (x : Bus) (live : Bool) :
    Softly o A (ackTaken t x live) := by
  unfold Machine.ackTaken
  split
  · exact (h.source x .live).inner hw ((Keeps.refl _).answerLive x _) (Run.answerLive x _ .refl)
  · exact (h.source x .quiet).inner hw ((Keeps.refl _).answerQuiet x _) (Run.answerQuiet x _ .refl)

theorem goes_ack (l : LaneId) (channel command : Byte) : Goes (.ack l channel command) s := by
  have hgood := softly_goodFrame (s := s) (Instr.acts (.ack l channel command) s) (l := l) (.inl rfl)
  unfold Goes exec execAck
  dsimp only
  split
  · split
    · split
      · exact ⟨_, rfl, (hgood.ackTaken nofun _ _).does.finish nofun trivial⟩
      · exact ⟨_, rfl, hgood.does⟩
    · exact ⟨_, rfl, hgood.does⟩
  · exact ⟨_, rfl, hgood.does⟩

/-- A reading is used by a context that measures (R75). -/
theorem measuring_of_readingUse {c : Ctx} {tag : Byte} {i : Nat} {k : Capture} {d : Nat} {last : Bool}
    (h : readingUse c tag i = .counted k d last) : c.state = .measuring := by
  unfold readingUse at h
  split at h
  · split at h
    · next hm => exact hm.1
    · cases h
  · cases h

theorem Softly.completeTake {o t : State} {A : Act → Prop} (hw : A .work) (h : Softly o A t) (x : Bus) (k : Capture) (d : Nat)
    (hs : (t.ctx x).state = .measuring) : Softly o A (completeTake t x k d) := by
  have hwork : AtWork t x := (Keeps.refl (Q := fun _ => True) t).inState hs
  refine h.inner hw (Keeps.post _ (Keeps.upd x hwork (Keeps.judgeTake x k d (fun _ => trivial) ?_))) ?_
  · exact (Keeps.refl t).touch x
  · exact Run.postPoke x trivial (Run.touch x trivial (Run.judgeTake x trivial k d (Run.touch x trivial .refl)))

theorem goes_reading (l : LaneId) (channel takeTag index range : Byte) (raw : BitVec 24) :
    Goes (.reading l channel takeTag index range raw) s := by
  have hgood := softly_goodFrame (s := s) (Instr.acts (.reading l channel takeTag index range raw) s) (l := l) (.inl rfl)
  unfold Goes exec execReading
  dsimp only
  split
  · split
    · exact ⟨_, rfl, hgood.does⟩
    · next x _ =>
      split
      · exact ⟨_, rfl, hgood.does⟩
      · next cap d last huse =>
        have hcount := hgood.inner nofun ((Keeps.refl _).touch x
            (f := fun c => { c with acc := c.acc ++ [sampleFrom cap index.toNat range raw] }))
          (Run.touch x (f := fun c => { c with acc := c.acc ++ [sampleFrom cap index.toNat range raw] }) trivial .refl)
        split
        · refine ⟨_, rfl, Does.finish nofun trivial ?_⟩
          have hm := measuring_of_readingUse huse
          exact (hcount.completeTake nofun x cap d (by rw [State.ctx_modCtx_self]; exact hm)).does
        · exact ⟨_, rfl, hcount.does⟩
  · exact ⟨_, rfl, hgood.does⟩

theorem goes_probe (l : LaneId) : Goes (.probe l) s := by
  have hgood := softly_goodFrame (s := s) (Instr.acts (.probe l) s) (l := l) (.inl rfl)
  unfold Goes exec execProbe
  dsimp only
  split
  · next hs => exact ⟨_, rfl, (hgood.enterTrain nofun l (.inl rfl) (by rw [hs]; decide)).does⟩
  · exact ⟨_, rfl, hgood.does⟩

theorem goes_ident (l : LaneId) (kind channels rows columns : Byte) : Goes (.ident l kind channels rows columns) s := by
  have hgood := softly_goodFrame (s := s) (Instr.acts (.ident l kind channels rows columns) s) (l := l) (.inl rfl)
  unfold Goes exec execIdent
  dsimp only
  split
  · next hs => exact ⟨_, rfl, (hgood.identTaken nofun l _ _ _ _ (.inl rfl) (by rw [hs.1]; decide)).does⟩
  · exact ⟨_, rfl, hgood.does⟩

theorem goes_cleared (l : LaneId) : Goes (.cleared l) s := by
  have hgood := softly_goodFrame (s := s) (Instr.acts (.cleared l) s) (l := l) (.inl rfl)
  unfold Goes exec execCleared
  dsimp only
  split
  · next hs =>
    refine ⟨_, rfl, (hgood.clearedTaken l (.inl rfl) (by rw [hs.1]; decide) (fun c hc hlaw => ?_)).does.finish nofun trivial⟩
    rw [goodFrame_eq] at hc ⊢
    rw [goodFrame_state] at hs
    exact hlaw.pending_none (l := l) (by rw [hs.1]; decide) hc
  · exact ⟨_, rfl, hgood.does⟩

theorem goes_resync (l : LaneId) (kind channels : Byte) : Goes (.resync l kind channels) s := by
  have hgood := softly_goodFrame (s := s) (Instr.acts (.resync l kind channels) s) (l := l) (.inl rfl)
  unfold Goes exec execResync
  dsimp only
  split
  · next hs => exact ⟨_, rfl, (hgood.resyncTaken nofun l _ _ (.inl rfl) (by rw [hs]; decide)).does.finish nofun trivial⟩
  · exact ⟨_, rfl, hgood.does⟩

theorem goes_testFrame (l : LaneId) (bytes : List Byte) : Goes (.testFrame l bytes) s := by
  unfold Goes exec execTestFrame
  dsimp only
  split
  · next hs => exact ⟨_, rfl, (Softly.start.testFrameOver nofun l true (.inl rfl) hs.1).does.pump⟩
  · exact ⟨_, rfl, Softly.start.does⟩

/-! ### Timers -/

theorem goes_downTimerExpiry (l : LaneId) : Goes (.downTimerExpiry l) s := by
  unfold Goes exec execDownTimerExpiry
  dsimp only
  split
  · next hs => exact ⟨_, rfl, (Softly.start.enterDetect nofun l (.inl rfl) (by rw [hs]; decide)).does⟩
  · exact ⟨_, rfl, Softly.start.does⟩

theorem goes_probeTimerExpiry (l : LaneId) : Goes (.probeTimerExpiry l) s := by
  unfold Goes exec execProbeTimerExpiry
  dsimp only
  split
  · exact ⟨_, rfl, (Softly.start.emit nofun l .probe rfl trivial).does⟩
  · exact ⟨_, rfl, Softly.start.does⟩

theorem goes_trainingTimeout (l : LaneId) : Goes (.trainingTimeout l) s := by
  unfold Goes exec execTrainingTimeout
  dsimp only
  split
  · next hs =>
    have hn : (s.begin.lane l).state ≠ .active := by rw [hs]; decide
    refine ⟨_, rfl, ((Softly.start.modLane l _ (.inl rfl) (Softly.noCard hn)).enterDetect nofun l (.inl rfl) ?_).does⟩
    rw [State.modLane, State.lane_setLane_self]
    exact hn
  · exact ⟨_, rfl, Softly.start.does⟩

theorem goes_resyncResend (l : LaneId) : Goes (.resyncResend l) s := by
  unfold Goes exec execResyncResend
  dsimp only
  split
  · exact ⟨_, rfl, (Softly.start.emit nofun l .resync rfl trivial).does⟩
  · exact ⟨_, rfl, Softly.start.does⟩

theorem goes_resyncTimerExpiry (l : LaneId) : Goes (.resyncTimerExpiry l) s := by
  unfold Goes exec execResyncTimerExpiry
  dsimp only
  split
  · next hs => exact ⟨_, rfl, (Softly.start.modLane l _ (.inl rfl) (Softly.noCard (by rw [hs]; decide))).does⟩
  · exact ⟨_, rfl, Softly.start.does⟩

theorem goes_testReturnTimeout (l : LaneId) : Goes (.testReturnTimeout l) s := by
  unfold Goes exec execTestReturnTimeout
  dsimp only
  split
  · next hs => exact ⟨_, rfl, (Softly.start.testFrameOver nofun l false (.inl rfl) hs).does.pump⟩
  · exact ⟨_, rfl, Softly.start.does⟩

theorem goes_orderTimeout (c : CardId) : Goes (.orderTimeout c) s := by
  unfold Goes exec execOrderTimeout
  dsimp only
  split
  · next q hq =>
    have hout := (Softly.start (o := s) (A := Instr.acts (.orderTimeout c) s)).orderTimedOut nofun hq
      (fun hc => hc.pending hq)
    refine ⟨_, rfl, (hout.thenRecover nofun c (fun l hl => .inr (.inr ⟨c, rfl, ?_⟩))).does.finish nofun trivial⟩
    rw [State.cardEntry, hout.does.tables nofun] at hl
    exact hl
  · exact ⟨_, rfl, Softly.start.does⟩

theorem goes_blockWaitExpiry (x : Bus) : Goes (.blockWaitExpiry x) s := by
  unfold Goes exec execBlockWaitExpiry
  dsimp only
  split
  · exact ⟨_, rfl, Softly.start.does⟩
  · exact ⟨_, rfl, (Softly.start.inner nofun ((Keeps.refl _).blockWaitExpired x) (Run.blockWaitExpired x .refl)).does.finish
      nofun trivial⟩

theorem goes_ackTimeout (x : Bus) : Goes (.ackTimeout x) s := by
  unfold Goes exec execAckTimeout
  dsimp only
  split
  · exact ⟨_, rfl, (Softly.start.inner nofun ((Keeps.refl _).ackExpired x) (Run.ackExpired x trivial .refl)).does.finish
      nofun trivial⟩
  · exact ⟨_, rfl, Softly.start.does⟩

theorem goes_settleTimerExpiry (x : Bus) : Goes (.settleTimerExpiry x) s := by
  unfold Goes exec execSettleTimerExpiry
  dsimp only
  split
  · next hs =>
    exact ⟨_, rfl, (Softly.start.does.inner nofun trivial ((Keeps.refl _).afterSettle x
      ((Keeps.refl (Q := fun _ => True) s.begin).inState hs.1)) (Run.afterSettle x trivial trivial .refl)).finish nofun trivial⟩
  · exact ⟨_, rfl, Softly.start.does⟩

theorem goes_measureTimeout (x : Bus) : Goes (.measureTimeout x) s := by
  unfold Goes exec execMeasureTimeout
  dsimp only
  split
  · next hs =>
    exact ⟨_, rfl, (Softly.start.inner nofun ((Keeps.refl _).endSite x
      ((Keeps.refl (Q := fun _ => True) s.begin).inState hs.1) _) (Run.endSite x trivial _ .refl)).does.finish nofun trivial⟩
  · exact ⟨_, rfl, Softly.start.does⟩

end

/-! ### Every command -/

/-- Every command but POWER_RESET comes to a next state by the deeds it may do. -/
theorem exec_does (c : Instr) (s : State) (hc : c ≠ .powerReset) : Goes c s := by
  have hwrite : ∀ {take after code size tag p pos}, (∀ i b u, take s.begin i b = .applied u → Softly s (Silent (c.acts s)) u) →
      (∀ u, Does s (c.acts s) s u → Does s (c.acts s) s (after u)) →
      exec c s = .next (takeWrite s.begin code size tag p pos take after) → Goes c s :=
    fun htake hafter he => ⟨_, he, does_takeWrite trivial htake hafter⟩
  cases hf : c.fixedFrame with
  | some e =>
    obtain ⟨kind, tag, p, n⟩ := e
    rcases owner_done hf s with ⟨rfl, -, -⟩ | ⟨owner, he, hdone⟩
    · exact goes_tableRead tag p
    · exact ⟨_, he, does_takeCommand trivial trivial hdone⟩
  | none =>
    cases c with
    | powerReset => exact absurd rfl hc
    | lidOpens => exact goes_lidOpens
    | lidCloses => exact goes_lidCloses
    | lidQuietTimerExpiry => exact goes_lidQuietTimerExpiry
    | tripInChange v => exact goes_tripInChange v
    | fxChange l v => exact goes_fxChange l v
    | markPulseEnd => exact ⟨_, rfl, (Softly.start.plain (u := { s.begin with markHigh := false }) {}).does⟩
    | trunkFrameDiscard b => exact ⟨_, rfl, Softly.start.does⟩
    | badKind t k p => exact goes_badKind t k p
    | responseListFull t k p => exact ⟨_, rfl, Softly.start.does⟩
    | tableWriteSite t p i => exact hwrite (fun _ _ _ h => Softly.start.takeSite ⟨nofun, nofun⟩ h) (fun _ h => h.pump) rfl
    | tableWriteNet t p i => exact hwrite (fun _ _ _ h => Softly.start.takeNet ⟨nofun, nofun⟩ h) (fun _ h => h.pump) rfl
    | tableWriteBus t p i =>
      exact hwrite (fun _ _ _ h => Softly.start.takeBus ⟨nofun, nofun⟩
        ⟨nofun, .inr (.inr (.inr (.inl ⟨_, _, _, rfl⟩)))⟩ ⟨nofun, nofun⟩ h)
        (fun _ h => h.finish nofun trivial) rfl
    | tableWriteCard t p i =>
      exact hwrite (fun _ _ _ h => Softly.start.takeCard ⟨nofun, nofun⟩ ⟨nofun, nofun⟩ h) (fun _ h => h.pump) rfl
    | tableWriteScale t p i => exact hwrite (fun _ _ _ h => Softly.start.takeScale ⟨nofun, nofun⟩ h) (fun _ h => h.pump) rfl
    | tableWriteLimit t p i => exact hwrite (fun _ _ _ h => Softly.start.takeLimit ⟨nofun, nofun⟩ h) (fun _ h => h.pump) rfl
    | tableWriteDisposition t p i =>
      exact hwrite (fun _ _ _ h => Softly.start.takeDisp ⟨nofun, nofun⟩ ⟨nofun, t, p, i, rfl⟩ h) (fun _ h => h.pump) rfl
    | tableWriteWear t p i =>
      exact hwrite (fun _ _ _ h => Softly.start.takeWear ⟨nofun, t, p, i, rfl⟩ h) (fun _ h => h.pump) rfl
    | tableWriteMark t p i => exact hwrite (fun _ _ _ h => Softly.start.takeMark ⟨nofun, nofun⟩ h) (fun _ h => h.pump) rfl
    | frameSent => exact goes_frameSent
    | badFrame l b => exact goes_badFrame l b
    | laneFrameDiscard l b => exact goes_laneFrameDiscard l b
    | done l t => exact goes_done l t
    | reject l t r => exact goes_reject l t r
    | presence l m => exact goes_presence l m
    | trip l c v => exact goes_trip l c v
    | ack l c v => exact goes_ack l c v
    | reading l c t i r v => exact goes_reading l c t i r v
    | probe l => exact goes_probe l
    | ident l k c r n => exact goes_ident l k c r n
    | cleared l => exact goes_cleared l
    | resync l k c => exact goes_resync l k c
    | testFrame l b => exact goes_testFrame l b
    | downTimerExpiry l => exact goes_downTimerExpiry l
    | probeTimerExpiry l => exact goes_probeTimerExpiry l
    | trainingTimeout l => exact goes_trainingTimeout l
    | resyncResend l => exact goes_resyncResend l
    | resyncTimerExpiry l => exact goes_resyncTimerExpiry l
    | testReturnTimeout l => exact goes_testReturnTimeout l
    | orderTimeout c => exact goes_orderTimeout c
    | blockWaitExpiry x => exact goes_blockWaitExpiry x
    | ackTimeout x => exact goes_ackTimeout x
    | settleTimerExpiry x => exact goes_settleTimerExpiry x
    | measureTimeout x => exact goes_measureTimeout x
    | _ => exact absurd hf nofun

/-- A command that came to `t` did so by its deeds. -/
theorem does_of_exec {c : Instr} {s t : State} (hc : c ≠ .powerReset) (h : exec c s = .next t) : Does s (c.acts s) s t := by
  obtain ⟨u, hu, hd⟩ := exec_does c s hc
  rw [hu] at h
  cases h
  exact hd

/-- What every command keeps, POWER_RESET by the values it sets, every step keeps. -/
theorem step_keeps {P : State → Prop} (hP : ∀ s q, P { s with pending := q } ↔ P s)
    (hreset : ∀ a b c d q, P (State.initial a b c d q))
    (hdoes : ∀ c s t, Does s (Instr.acts c s) s t → P s → P t) {s t : State} (h : step s = .next t) (hs : P s) : P t := by
  unfold step at h
  split at h
  · cases h; exact hs
  · next c rest _ =>
    by_cases hc : c = .powerReset
    · subst hc; cases h; exact hreset _ _ _ _ _
    · exact hdoes c _ t (does_of_exec hc h) ((hP s rest).2 hs)

/-- The frames of the last command are gone when a command begins. -/
theorem exec_begin (c : Instr) (s : State) : exec c s.begin = exec c s := by cases c <;> rfl

/-- Judgements move a verdict record onward (R134). -/
theorem JudgedOnward.onward {s t : State} {u : Site} (h : JudgedOnward s t u) : (s.verdict u).Onward (t.verdict u) := by
  obtain ⟨js, hjs⟩ := h
  rw [hjs]
  clear hjs
  generalize s.verdict u = v
  induction js generalizing v with
  | nil => exact .refl v
  | cons j js ih => exact (v.judge_onward _ _).trans (ih _)

end Sys2Proof.Machine

open Sys2Proof Sys2Proof.Machine

/-- Settles O2: POWER_RESET keeps the waiting commands in the values it sets, every other command in its deeds. -/
theorem everyCommandCompletes : Obligations.EveryCommandCompletes := by
  unfold Obligations.EveryCommandCompletes
  intro c s
  by_cases hc : c = .powerReset
  · subst hc; exact ⟨_, rfl, rfl⟩
  · obtain ⟨t, ht, hd⟩ := exec_does c s hc
    exact ⟨t, ht, hd.pending⟩

/-- Settles O11: an owner answers nothing itself, so the one response is that of taking the command. -/
theorem everyCommandFrameIsAnsweredOnce : Obligations.EveryCommandFrameIsAnsweredOnce := by
  unfold Obligations.EveryCommandFrameIsAnsweredOnce
  intro c s kind tag p n hroom hf
  rcases owner_done hf s with ⟨rfl, rfl, rfl⟩ | ⟨owner, he, hdone⟩
  · by_cases hp : p.length = 6
    · exact ⟨_, exec_tableRead hroom hp tag, by simp [State.respond, State.modTrunk]⟩
    · obtain ⟨t, ht, hans, -⟩ := fixedFrame_badLength hroom hf hp
      exact ⟨t, ht, by rw [hans]; simp⟩
  · exact ⟨_, he, takeCommand_heads hroom hdone⟩

/-- Settles O54: every deed keeps the tables, the disabled buses and the walks. -/
theorem tablesStayLawful : Obligations.TablesStayLawful := by
  unfold Obligations.TablesStayLawful
  obtain ⟨htab, -, -, -, -, -, -, hrest, -, -, hwalk⟩ := resetIsLawful
  exact fun s t h => ⟨step_keeps (fun _ _ => Iff.rfl) (fun _ _ _ _ _ => htab) (fun _ _ _ hd => hd.keeps (fun _ _ d => d.tablesLawful)) h,
    step_keeps (fun _ _ => Iff.rfl) (fun _ _ _ _ _ => hrest) (fun _ _ _ hd => hd.keeps (fun _ _ d => d.disabledAtRest)) h,
    step_keeps (fun _ _ => Iff.rfl) (fun _ _ _ _ _ => hwalk) (fun _ _ _ hd => hd.keeps (fun _ _ d => d.walks)) h⟩

/-- Settles O55: every deed keeps the queue and the response list bounded. -/
theorem queuesStayBounded : Obligations.QueuesStayBounded := by
  unfold Obligations.QueuesStayBounded
  obtain ⟨-, hqueue, hresp, -⟩ := resetIsLawful
  exact fun s t hq hr h => ⟨step_keeps (P := QueueLawful) (fun _ _ => Iff.rfl) (fun _ _ _ _ _ => hqueue) (fun _ _ _ hd => hd.bounded) h hq,
    step_keeps (P := fun u => u.trunk.responses.length ≤ 32) (fun _ _ => Iff.rfl) (fun _ _ _ _ _ => hresp)
      (fun _ _ _ hd => hd.room) h hr⟩

/-- Settles O56: every deed keeps the matrix lawful, and the law of the claims where the tables are lawful. -/
theorem matrixStaysLawful : Obligations.MatrixStaysLawful := by
  unfold Obligations.MatrixStaysLawful
  obtain ⟨-, -, -, hwf, hwear, hopens, htags, -, -, hclaims, -⟩ := resetIsLawful
  intro s t h1 h2 h3 h4 h
  obtain ⟨g1, g2, g3, g4⟩ : MatrixKept t := step_keeps (fun _ _ => ⟨fun k => k.congr rfl, fun k => k.congr rfl⟩)
    (fun _ _ _ _ _ => ⟨hwf, hwear, hopens, htags⟩) (fun _ _ _ hd => hd.keeps (fun _ _ d => d.matrixKept)) h ⟨h1, h2, h3, h4⟩
  exact ⟨g1, g2, g3, g4, fun ht hcl => (step_keeps (P := fun u => TablesLawful u ∧ OpensFirst u ∧ ClaimsLawful u)
    (fun _ _ => Iff.rfl) (fun _ _ _ _ _ => ⟨(resetIsLawful).1, hopens, hclaims⟩)
    (fun _ u _ hd ⟨k1, k2, k3⟩ => ⟨hd.keeps (fun _ _ d => d.tablesLawful) k1, hd.keeps (fun _ _ d => d.opensFirst) k2,
      hd.claims k1 k3 k1 k2 k3⟩) h ⟨ht, h3, hcl⟩).2.2⟩

/-- Settles O58: every deed shows only permitted frames, and closes for quiet sources only. -/
theorem nothingClosesInSafe : Obligations.NothingClosesInSafe := by
  unfold Obligations.NothingClosesInSafe
  intro c s t ht ho hd' h
  by_cases hc : c = .powerReset
  · subst hc
    cases h
    have hcalm : Calm (State.initial s.guard.lidOpen s.guard.tripIn s.guard.fx s.freeCount s.pending) := by
      intro e he
      simp only [State.initial, List.mem_cons, List.not_mem_nil, or_false] at he
      rcases he with rfl | rfl | rfl | rfl | rfl | rfl | rfl | rfl <;> rfl
    exact hcalm.frames rfl
  · have hcalm : Calm s.begin := fun e he => by cases he
    have hd := does_of_exec hc ((exec_begin c s).trans h)
    obtain ⟨-, -, -, h1, h2⟩ : FramesOk t := hd.keeps (fun _ _ d => d.framesOk (o := s.begin) ho)
      ⟨ht, ho, hd', (hcalm.frames rfl).1, (hcalm.frames rfl).2⟩
    exact ⟨h1, h2⟩

/-- Settles O59: the tables, the wear counts, the panel number and the verdict records move where a deed may move them. -/
theorem storesMoveOnlyByTheirCommands : Obligations.StoresMoveOnlyByTheirCommands := by
  unfold Obligations.StoresMoveOnlyByTheirCommands
  intro c s t h hc
  have hd := does_of_exec hc h
  refine ⟨fun hn => hd.tables (fun hA => hA hn), fun hw hn x p => hd.wearUp (fun ⟨tag, q, pos, e⟩ => hn tag q pos e) hw x p,
    fun x p hne => ?_, fun hn => ?_⟩
  · by_contra hno
    rw [not_or] at hno
    exact hne (hd.wear hno.1 hno.2 x p)
  · have hpanel : ¬ Instr.acts c s .newPanel := fun ⟨tag, p, e⟩ => hn tag p e
    have hstill : t.panel.verdicts = s.panel.verdicts → ∀ u, JudgedOnward s t u := fun hv u =>
      ⟨[], by rw [State.verdict, hv]; rfl⟩
    have hjudged : t.panel.number = s.panel.number ∧ ∀ u, JudgedOnward s t u := by
      by_cases hdisp : Instr.acts c s .disps
      · obtain ⟨tag, p, pos, rfl⟩ := hdisp
        obtain ⟨h1, h2⟩ := hd.panelStands hpanel (fun hw => hw tag p pos rfl)
        exact ⟨h1, hstill h2⟩
      · exact ⟨(hd.panel hpanel hdisp 0).1, fun u => (hd.panel hpanel hdisp u).2⟩
    exact ⟨hjudged.1, fun u => ⟨(hjudged.2 u).onward, hjudged.2 u⟩⟩

/-- Settles O60: the rack state, the trip flags and the lane records move where a deed may move them. -/
theorem guardAndLanesMoveOnlyByTheirEvents : Obligations.GuardAndLanesMoveOnlyByTheirEvents := by
  unfold Obligations.GuardAndLanesMoveOnlyByTheirEvents
  intro c s t h
  by_cases hc : c = .powerReset
  · subst hc
    cases h
    exact ⟨fun _ => .inl ⟨rfl, rfl⟩, fun _ _ _ => .inl rfl, fun _ _ => .inl rfl⟩
  · have hd := does_of_exec hc h
    refine ⟨fun hr => ?_, fun x hs hf => ?_, fun l hl => ?_⟩
    · rcases hd.rack with e | e
      · exact absurd e hr
      · rcases e with ⟨rfl, e⟩ | ⟨tag, rfl, e⟩ | ⟨tag, rfl, hs, hi, e⟩ | ⟨tag, rfl, hs, e⟩ | ⟨tag, rfl, hs, e⟩
        · exact .inr (.inl ⟨rfl, e⟩)
        · exact .inr (.inr (.inl ⟨tag, rfl, e⟩))
        · exact .inr (.inr (.inr (.inl ⟨tag, rfl, hs, hi, e⟩)))
        · exact .inr (.inr (.inr (.inr (.inl ⟨tag, rfl, hs, e⟩))))
        · exact .inr (.inr (.inr (.inr (.inr ⟨tag, rfl, hs, e⟩))))
    · by_contra hno
      rw [hd.trips (x := x) (fun hA => hno (.inr hA)) hs] at hf
      cases hf
    · by_contra hno
      exact hl (hd.lane (fun hA => hno (.inr hA)))

end

