-- ==== Sys2Proof/Proofs/Bystanders.lean ====
section
/-!
PROOFS. What the inside of a command does to a bus that is not at work (`Spared`), and to the crosspoints of a bus for which
nothing closes (`Apart`): CLOSED may only go to OPENING, a reservation may only return, marks stand, and what is listed to open
stays so. With them what an emergency open makes and what then stands of it (R35).
-/

-- One proof after another: in the joined text each worker would hold a stack of its own.
set_option Elab.async false

namespace Sys2Proof.Machine

/-! ### A context that is not at work -/

/-- From s to t a context has changed by what others do to it: its request is granted or answered, and with it BLOCKED may go
on to MAKING (R31, R32). -/
structure Ctx.Spared (c d : Ctx) : Prop where
  rest : d = { c with request := d.request, state := d.state }
  state : d.state = c.state ∨ (c.state = .blocked ∧ d.state = .making)
  request : c.request = none → d.request = none
  make : (∀ r, c.request ≠ some (.make r)) → ∀ r, d.request ≠ some (.make r)

theorem Ctx.Spared.refl (c : Ctx) : c.Spared c := ⟨rfl, .inl rfl, id, id⟩

theorem Ctx.Spared.trans {c d e : Ctx} (h : c.Spared d) (k : d.Spared e) : c.Spared e := by
  refine ⟨?_, ?_, fun hr => k.request (h.request hr), fun hr => k.make (h.make hr)⟩
  · rw [k.rest, h.rest]
  · rcases k.state with hk | ⟨hk, hk'⟩ <;> rcases h.state with hh | ⟨hh, hh'⟩
    · exact .inl (hk.trans hh)
    · exact .inr ⟨hh, hk.trans hh'⟩
    · exact .inr ⟨hh ▸ hk, hk'⟩
    · rw [hh'] at hk; cases hk

/-- A request that is granted or answered is not new. -/
theorem Ctx.RequestMoves.none {c : Ctx} {r : Option Request} (h : c.RequestMoves r) (hc : c.request = none) : r = none := by
  rcases h with h | ⟨q, w, hq, -⟩ | ⟨q, q', hq, -⟩
  · exact h
  · rw [hc] at hq; cases hq
  · rw [hc] at hq; cases hq

@[simp] theorem sendOrder_mail (s : State) (c : CardId) (o : Order) : (sendOrder s c o).mail = s.mail := by
  rw [sendOrder_eq, State.modXps_eq]; rfl

theorem Ctx.RequestMoves.make {c : Ctx} {r : Option Request} (h : c.RequestMoves r) (hc : ∀ q, c.request ≠ some (.make q)) (q : MakeReq) :
    r ≠ some (.make q) := by
  rintro rfl
  rcases h with h | ⟨q', w, hq, -⟩ | ⟨q', q'', -, h⟩
  · cases h
  · exact hc _ hq
  · cases h

section
variable {L C : Prop} {Y : Bus → Prop} {s t : State}

/-- A move at work elsewhere spares a context, and tells it nothing. -/
theorem Move.spared {x : Bus} (h : Move L C Y s t) (hx : ¬ Y x) :
    (s.ctx x).Spared (t.ctx x) ∧ (Mail.poke x ∈ t.mail → Mail.poke x ∈ s.mail) := by
  have hsame : ∀ {u : State}, u.ctxs = s.ctxs → u.mail = s.mail →
      (s.ctx x).Spared (u.ctx x) ∧ (Mail.poke x ∈ u.mail → Mail.poke x ∈ s.mail) := fun hc hm => by
    rw [State.ctx, State.ctx, hc, hm]; exact ⟨.refl _, id⟩
  have hset : ∀ {u v : State} (y : Bus) (c' : Ctx), u.ctxs = s.ctxs → u.mail = s.mail → v = u.setCtx y c' → y ≠ x →
      (s.ctx x).Spared (v.ctx x) ∧ (Mail.poke x ∈ v.mail → Mail.poke x ∈ s.mail) := fun y c' hc hm hv hne => by
    subst hv
    rw [State.ctx_setCtx, if_neg hne]
    exact hsame hc hm
  cases h with
  | plain _ h hm =>
    refine ⟨?_, fun hp => (hm x hp).resolve_right hx⟩
    rw [h]; exact .refl _
  | source y v hy _ _ => exact hset y _ rfl rfl rfl (fun e => hx (e ▸ hy))
  | goLive y _ hy _ _ => exact hset (u := s.emit _ _) y _ rfl rfl rfl (fun e => hx (e ▸ hy))
  | ctx y c' hy _ => exact hset y _ rfl rfl rfl (fun e => hx (e ▸ hy))
  | request y r hr =>
    by_cases e : y = x
    · subst e
      refine ⟨?_, id⟩
      rw [State.ctx_modCtx_self]
      exact ⟨rfl, .inl rfl, hr.none, hr.make⟩
    · exact hset y _ rfl rfl rfl e
  | unblock y hb =>
    by_cases e : y = x
    · subst e
      refine ⟨?_, id⟩
      rw [State.ctx_modCtx_self]
      exact ⟨rfl, .inr ⟨hb, rfl⟩, id, id⟩
    · exact hset y _ rfl rfl rfl e
  | unreserve y ps => rw [State.modXps_eq]; exact hsame rfl rfl
  | reserve y ps _ _ => rw [State.reserve, State.modXps_eq]; exact hsame rfl rfl
  | mark y ps => rw [State.modXps_eq]; exact hsame rfl rfl
  | sendOpen c k o _ _ => exact hsame (sendOrder_ctxs _ _ _) (sendOrder_mail _ _ _)
  | sendMake c o rest _ _ _ _ _ => exact hsame (sendOrder_ctxs _ _ _) (sendOrder_mail _ _ _)
  | _ => exact hsame rfl rfl

/-- Only contexts at work have records appended, and none is appended to a full queue (R144). -/
theorem Move.queue (h : Move L C Y s t) : t.queue = s.queue ∨
    ∃ x, Y x ∧ (64 ≤ s.queue.records.length → t.queue.records = s.queue.records) := by
  cases h with
  | plain _ _ _ hq => exact hq
  | sendOpen => exact .inl (by rw [sendOrder_eq, State.modXps_eq]; rfl)
  | sendMake => exact .inl (by rw [sendOrder_eq, State.modXps_eq]; rfl)
  | unreserve => exact .inl (by rw [State.modXps_eq])
  | reserve => exact .inl (by rw [State.reserve, State.modXps_eq])
  | mark => exact .inl (by rw [State.modXps_eq])
  | _ => exact .inl rfl

theorem Run.queueStays (h : Run L C Y s t) (hY : ∀ x, ¬ Y x) : t.queue = s.queue := by
  induction h with
  | refl => rfl
  | tail _ hm ih => exact (hm.queue.resolve_right (fun ⟨x, hx, _⟩ => hY x hx)).trans ih

/-- A full queue takes no record (R144). -/
theorem Run.queueFull (h : Run L C Y s t) (h64 : 64 ≤ s.queue.records.length) : t.queue.records = s.queue.records := by
  induction h with
  | refl => rfl
  | tail _ hm ih =>
    rcases hm.queue with hq | ⟨_, _, hr⟩
    · rw [hq, ih]
    · rw [hr (by rw [ih]; exact h64), ih]


theorem Run.spared {x : Bus} (h : Run L C Y s t) (hx : ¬ Y x) : (s.ctx x).Spared (t.ctx x) := by
  induction h with
  | refl => exact .refl _
  | tail _ m ih => exact ih.trans (m.spared hx).1

/-- A bus at which nothing works is not told to look again. -/
theorem Run.poke_old {x : Bus} (h : Run L C Y s t) (hx : ¬ Y x) (hp : Mail.poke x ∈ t.mail) : Mail.poke x ∈ s.mail := by
  induction h with
  | refl => exact hp
  | tail _ m ih => exact ih ((m.spared hx).2 hp)

/-! ### Frames shown -/

/-- Frames are added behind the earlier ones. -/
theorem Run.sent (h : Run L C Y s t) : ∃ l, t.out = s.out ++ l := by
  induction h with
  | refl => exact ⟨[], (List.append_nil _).symm⟩
  | @tail v w _ m ih =>
    obtain ⟨l, hl⟩ := ih
    have hmore : ∃ k, w.out = v.out ++ k := by
      have hsame : ∀ {u : State}, u.out = v.out → ∃ k, u.out = v.out ++ k := fun e => ⟨[], by rw [e, List.append_nil]⟩
      cases m with
      | plain _ h => exact hsame (by rw [h])
      | emit l f _ => exact ⟨[(l, f)], rfl⟩
      | goLive x _ _ _ _ => exact ⟨[_], rfl⟩
      | unreserve x ps => exact hsame (by rw [State.modXps_eq])
      | reserve x ps _ _ => exact hsame (by rw [State.reserve, State.modXps_eq])
      | mark x ps => exact hsame (by rw [State.modXps_eq])
      | sendOpen c k o _ _ => exact ⟨_, sendOrder_out _ _ _⟩
      | sendMake c o rest _ _ _ _ _ => exact ⟨_, sendOrder_out _ _ _⟩
      | _ => exact hsame rfl
    obtain ⟨k, hk⟩ := hmore
    exact ⟨l ++ k, by rw [hk, hl, List.append_assoc]⟩

/-! ### Crosspoints for which nothing closes -/

/-- From r to r' a crosspoint record has moved as it may while nothing closes: CLOSED to OPENING, OPEN-RESERVED to OPEN, and
the emergency mark stands (R22, R35). -/
def XRec.Sinks (r r' : XRec) : Prop :=
  (r'.state = r.state ∨ (r.state = .closed ∧ r'.state = .opening) ∨ (r.state = .reserved ∧ r'.state = .opn)) ∧
    (r.mark = true → r'.mark = true)

theorem XRec.Sinks.refl (r : XRec) : r.Sinks r := ⟨.inl rfl, id⟩

theorem XRec.Sinks.trans {a b c : XRec} (h : a.Sinks b) (k : b.Sinks c) : a.Sinks c := by
  refine ⟨?_, fun hm => k.2 (h.2 hm)⟩
  rcases k.1 with hk | ⟨hk, hk'⟩ | ⟨hk, hk'⟩ <;> rcases h.1 with hh | ⟨hh, hh'⟩ | ⟨hh, hh'⟩ <;> simp_all

/-- Nothing closes for bus `x`: no relay may close at all, or the bus is barred and has no make request (R27, R29). -/
def Shut (C : Prop) (x : Bus) (s : State) : Prop :=
  ¬ C ∨ (s.barred x ≠ none ∧ ∀ r, (s.ctx x).request ≠ some (.make r))

/-- A barred bus gets no make request (R27). -/
theorem Move.noMake {x : Bus} (h : Move L C Y s t) (hb : s.barred x ≠ none) (hr : ∀ r, (s.ctx x).request ≠ some (.make r)) :
    ∀ r, (t.ctx x).request ≠ some (.make r) := by
  have hsame : ∀ {u : State}, u.ctxs = s.ctxs → ∀ r, (u.ctx x).request ≠ some (.make r) := fun e => by
    rw [State.ctx, e]; exact hr
  have hset : ∀ {u v : State} (y : Bus) (c' : Ctx), u.ctxs = s.ctxs → v = u.setCtx y c' →
      (y = x → ∀ r, c'.request ≠ some (.make r)) → ∀ r, (v.ctx x).request ≠ some (.make r) := fun y c' hc hv h => by
    subst hv
    rw [State.ctx_setCtx]
    split
    · next e => exact h e
    · exact hsame hc
  cases h with
  | plain _ h _ => rw [h]; exact hr
  | source y v _ _ _ => exact hset y _ rfl rfl (fun e => e ▸ hr)
  | goLive y _ _ _ _ => exact hset (u := s.emit _ _) y _ rfl rfl (fun e => by subst e; exact hr)
  | ctx y c' _ h =>
    refine hset y _ rfl rfl (fun e r hq => ?_)
    subst e
    exact (h.make r hq).elim (hr r) hb
  | request y r hm =>
    refine hset y _ rfl rfl (fun e q hq => ?_)
    subst e
    exact hm.make hr q hq
  | unblock y _ => exact hset y _ rfl rfl (fun e => by subst e; exact hr)
  | unreserve y ps => rw [State.modXps_eq]; exact hr
  | reserve y ps _ _ => rw [State.reserve, State.modXps_eq]; exact hr
  | mark y ps => rw [State.modXps_eq]; exact hr
  | sendOpen c k o _ _ => exact hsame (sendOrder_ctxs _ _ _)
  | sendMake c o rest _ _ _ _ _ => exact hsame (sendOrder_ctxs _ _ _)
  | _ => exact hr

theorem Move.shut {x : Bus} (h : Move L C Y s t) (hs : Shut C x s) : Shut C x t :=
  hs.imp id (fun ⟨hb, hr⟩ => ⟨by rwa [Run.barred (.single h)], h.noMake hb hr⟩)

/-- A barred bus is not made live (R49). -/
theorem Move.notLive {x : Bus} (h : Move L C Y s t) (hb : s.barred x ≠ none)
    (hs : (s.ctx x).source ≠ .live ∧ (s.ctx x).source ≠ .goingLive) :
    (t.ctx x).source ≠ .live ∧ (t.ctx x).source ≠ .goingLive := by
  have hsame : ∀ {u : State}, (u.ctx x).source = (s.ctx x).source → (u.ctx x).source ≠ .live ∧ (u.ctx x).source ≠ .goingLive :=
    fun e => by rw [e]; exact hs
  by_cases hY : Y x
  · cases h with
    | plain _ h _ => rw [h]; exact hs
    | source y v _ _ hv =>
      by_cases e : y = x
      · subst e
        rw [State.setSource, State.ctx_modCtx_self]
        rcases hv with ⟨rfl, -⟩ | rfl <;> exact ⟨nofun, nofun⟩
      · exact hsame (by rw [State.setSource, State.ctx_modCtx, if_neg e])
    | goLive y _ _ _ hbar =>
      have hne : y ≠ x := fun e => hb (e ▸ hbar)
      refine hsame ?_
      rw [State.setSource, State.ctx_modCtx, if_neg hne]; rfl
    | ctx y c' _ h =>
      refine hsame ?_
      rw [State.ctx_setCtx]
      split
      · next e => subst e; exact h.source
      · rfl
    | request y r _ =>
      refine hsame ?_
      rw [State.ctx_modCtx]
      split
      · next e => subst e; rfl
      · rfl
    | unblock y _ =>
      refine hsame ?_
      rw [State.ctx_modCtx]
      split
      · next e => subst e; rfl
      · rfl
    | unreserve y ps => rw [State.modXps_eq]; exact hs
    | reserve y ps _ _ => rw [State.reserve, State.modXps_eq]; exact hs
    | mark y ps => rw [State.modXps_eq]; exact hs
    | sendOpen c k o _ _ => exact hsame (by rw [State.ctx, sendOrder_ctxs]; rfl)
    | sendMake c o rest _ _ _ _ _ => exact hsame (by rw [State.ctx, sendOrder_ctxs]; rfl)
    | _ => exact hs
  · exact hsame (by rw [(h.spared hY).1.rest])

/-- A make order is sent for no bus for which nothing closes (R29). -/
theorem sendCheck_shut {x : Bus} {c : CardId} {o : Order} {k : CardCtl} (hC : C) (hs : Shut C x s)
    (hc : sendCheck (s.setCard c k) c o = .pass) : o.bus ≠ x := by
  rintro rfl
  obtain hn | ⟨hb, -⟩ := hs
  · exact hn hC
  · have hb' : (s.setCard c k).barred o.bus = s.barred o.bus := barred_congr rfl _
    unfold sendCheck at hc
    rw [hb'] at hc
    cases hbar : s.barred o.bus with
    | none => exact hb hbar
    | some why => rw [hbar] at hc; cases hc

/-- What sending an open order does to any crosspoint (R22). -/
theorem sendOpen_sinks (c : CardId) (o : Order) (k : CardCtl) (hk : o.kind ≠ .make) (x : Bus) (p : Pt) :
    (s.xp x p).Sinks ((sendOrder (s.setCard c k) c o).xp x p) := by
  rw [sendOrder_xp]
  refine State.xp_modXps_keeps (P := fun r => (s.xp x p).Sinks r) _ _ _ _ (fun r hr => ?_) _ ?_
  · refine hr.trans ?_
    have hsent : o.sentTo r = if r.state = .closed then { r with state := .opening } else r := by
      unfold Order.sentTo
      cases hkind : o.kind <;> first | exact absurd hkind hk | rfl
    rw [hsent]
    split
    · next hc => exact ⟨.inr (.inl ⟨hc, rfl⟩), id⟩
    · exact .refl r
  · exact .refl _

/-- A move sinks the crosspoints of a bus for which nothing closes. -/
theorem Move.sinks {x : Bus} (h : Move L C Y s t) (ho : OpensFirst s) (hs : Shut C x s) (p : Pt) :
    (s.xp x p).Sinks (t.xp x p) := by
  cases h with
  | plain _ h _ => rw [h]; exact .refl _
  | unreserve y ps =>
    refine State.xp_modXps_keeps (P := fun r => (s.xp x p).Sinks r) _ _ _ _ (fun r hr => hr.trans ?_) _ (.refl _)
    unfold XRec.unreserved
    split
    · next hr => exact ⟨.inr (.inr ⟨hr, rfl⟩), id⟩
    · exact .refl _
  | reserve y ps hC hm _ =>
    by_cases e : y = x
    · subst e
      rcases hs with hn | ⟨hb, hr⟩
      · exact absurd hC hn
      · exact (hm.elim hb (fun ⟨r, hq⟩ => hr r hq)).elim
    · rw [State.reserve, State.xp_modXps_ne _ _ (.inl e)]; exact .refl _
  | mark y ps =>
    exact State.xp_modXps_keeps (f := fun r => { r with mark := true }) (P := fun r => (s.xp x p).Sinks r) _ _ _ _
      (fun r hr => hr.trans ⟨.inl rfl, fun _ => rfl⟩) _ (.refl _)
  | sendOpen c k o _ hp => exact sendOpen_sinks c { o with points := o.leftToOpen s } k (hp.kind ho) x p
  | sendMake c o rest hC _ _ _ hc =>
    rw [sendOrder_xp, State.xp_modXps_ne _ _ (.inl (sendCheck_shut hC hs hc))]; exact .refl _
  | _ => exact .refl _

/-- A move reserves only for a bus that may make, and that is at work or has its make request (R22, R27). -/
theorem Move.unreservedOr {x : Bus} (h : Move L C Y s t) {p : Pt} (hr : (s.xp x p).state ≠ .reserved) :
    (t.xp x p).state ≠ .reserved ∨ (C ∧ MayMake s x ∧ (Y x ∨ ∃ r, (s.ctx x).request = some (.make r))) := by
  have hkeeps : ∀ (u : State) y ps (f : XRec → XRec), (u.xp x p).state ≠ .reserved →
      (∀ r : XRec, r.state ≠ .reserved → (f r).state ≠ .reserved) → ((u.modXps y ps f).xp x p).state ≠ .reserved :=
    fun u y ps f hu hf => State.xp_modXps_keeps (P := fun r => r.state ≠ .reserved) _ _ _ _ hf _ hu
  have hsent : ∀ (o : Order) (r : XRec), r.state ≠ .reserved → (o.sentTo r).state ≠ .reserved := fun o r h => by
    unfold Order.sentTo
    split
    · nofun
    · split
      · nofun
      · exact h
  cases h with
  | plain _ h _ => left; rw [h]; exact hr
  | unreserve y ps => exact .inl (hkeeps _ _ _ _ hr (fun r h => by unfold XRec.unreserved; rw [if_neg h]; exact h))
  | reserve y ps hC hm hy =>
    by_cases e : y = x
    · subst e
      exact .inr ⟨hC, hm, hy⟩
    · left
      rw [State.reserve, State.xp_modXps_ne _ _ (.inl e)]
      exact hr
  | mark y ps => exact .inl (hkeeps _ _ _ _ hr (fun _ => id))
  | sendOpen c k o _ _ => left; rw [sendOrder_xp]; exact hkeeps _ _ _ _ hr (hsent _)
  | sendMake c o rest _ _ _ _ _ => left; rw [sendOrder_xp]; exact hkeeps _ _ _ _ hr (hsent _)
  | _ => exact .inl hr

/-- A move reserves nothing for such a bus. -/
theorem Move.unreserved {x : Bus} (h : Move L C Y s t) (hs : Shut C x s) {p : Pt} (hr : (s.xp x p).state ≠ .reserved) :
    (t.xp x p).state ≠ .reserved := by
  refine (h.unreservedOr hr).resolve_right (fun ⟨hC, hm, _⟩ => ?_)
  rcases hs with hn | ⟨hb, hq⟩
  · exact hn hC
  · exact (hm.elim hb (fun ⟨r, h⟩ => hq r h)).elim

/-- A CLOSED crosspoint of bus `x` is listed to open, or it is OPENING (R35). -/
def OpeningListed (s : State) (x : Bus) (p : Pt) : Prop :=
  (s.xp x p).state = .opening ∨ ((s.xp x p).state = .closed ∧ s.inPriority x p = true)

theorem inPriority_iff {s : State} {x : Bus} {p : Pt} :
    s.inPriority x p = true ↔ ∃ o ∈ (s.card (cardOf p)).priority, o.bus = x ∧ p ∈ o.points := by
  simp [State.inPriority]

/-- A move keeps what is listed to open, until it is OPENING (R22). -/
theorem Move.openingListed {x : Bus} (h : Move L C Y s t) (ho : OpensFirst s) (hs : Shut C x s) {p : Pt}
    (hl : OpeningListed s x p) : OpeningListed t x p := by
  have hsinks := h.sinks ho hs p
  rcases hl with hl | ⟨hl, hprio⟩
  · refine .inl ?_
    rcases hsinks.1 with h | ⟨h, -⟩ | ⟨h, -⟩
    · rw [h, hl]
    · rw [hl] at h; cases h
    · rw [hl] at h; cases h
  · rcases hsinks.1 with hst | ⟨-, hst⟩ | ⟨h, -⟩
    swap
    · exact .inl hst
    swap
    · rw [hl] at h; cases h
    obtain ⟨q, hq, hqx, hqp⟩ := inPriority_iff.1 hprio
    have hkeep : (∀ d, ∀ q ∈ (s.card d).priority, q ∈ (t.card d).priority) → OpeningListed t x p := fun hk =>
      .inr ⟨hst.trans hl, inPriority_iff.2 ⟨q, hk _ q hq, hqx, hqp⟩⟩
    have hset : ∀ {u : State} (c : CardId) (k : CardCtl), u.matrix = (s.setCard c k).matrix →
        (∀ q ∈ (s.card c).priority, q ∈ k.priority) → ∀ d, ∀ q ∈ (s.card d).priority, q ∈ (u.card d).priority :=
      fun c k hu hk d q hq => by
        rw [State.card, hu, ← State.card, State.card_setCard]
        split
        · next e => subst e; exact hk q hq
        · exact hq
    have hpop : ∀ {c : CardId} {k : CardCtl} {o : Order}, (s.card c).Pops o k → (o = q ∧ c = cardOf p → False) →
        q ∈ ((s.setCard c k).card (cardOf p)).priority := fun {c k o} hp hne => by
      rw [State.card_setCard]
      split
      · next e =>
        subst e
        rcases hp with ⟨rest, hpr, rfl⟩ | ⟨_, _, rest, _, rfl⟩
        · rw [hpr] at hq
          exact (List.mem_cons.1 hq).resolve_left (fun e => hne ⟨e.symm, rfl⟩)
        · exact hq
      · exact hq
    have hleft : ∀ o : Order, o = q → p ∈ o.leftToOpen s := fun o e => by
      subst e
      subst hqx
      simp only [Order.leftToOpen, List.mem_filter, Bool.or_eq_true, beq_iff_eq]
      exact ⟨hqp, .inl hl⟩
    cases h with
    | plain _ h _ => exact hkeep (fun d q hq => by rw [h]; exact hq)
    | unreserve y ps => exact hkeep (fun d q hq => by rw [State.modXps_card]; exact hq)
    | reserve y ps _ _ => exact hkeep (fun d q hq => by rw [State.reserve_card]; exact hq)
    | mark y ps => exact hkeep (fun d q hq => by rw [State.modXps_card]; exact hq)
    | shrink c k h => exact hkeep (hset c k rfl (fun q hq => h.priority ▸ hq))
    | list c o _ _ _ => exact hkeep (hset c _ rfl (fun q hq => hq))
    | listFirst c l o _ hl _ _ => exact hkeep (hset c _ rfl (fun q hq => (hl q).2 (.inl hq)))
    | drop c k o _ hp hn =>
      refine .inr ⟨hl, inPriority_iff.2 ⟨q, hpop hp (fun ⟨e, _⟩ => ?_), hqx, hqp⟩⟩
      have := hleft o e
      rw [hn] at this; cases this
    | sendOpen c k o _ hp =>
      by_cases e : o = q ∧ c = cardOf p
      · exfalso
        obtain ⟨rfl, rfl⟩ := e
        rw [sendOrder_xp] at hst
        subst hqx
        refine State.xp_modXps_makes (f := Order.sentTo { o with points := o.leftToOpen s }) (P := fun r => r.state ≠ .closed) _ _
          (fun r => ?_) (hleft _ rfl) (hst.trans hl)
        unfold Order.sentTo
        split
        · nofun
        · split
          · nofun
          · assumption
      · refine .inr ⟨hst.trans hl, inPriority_iff.2 ⟨q, ?_, hqx, hqp⟩⟩
        have hq' := hpop hp e
        rw [sendOrder_card]
        split
        · next e => subst e; exact hq'
        · exact hq'
    | sendMake c o rest _ _ _ _ _ =>
      refine hkeep (fun d q hq => ?_)
      rw [sendOrder_card]
      split
      · next e => subst e; rw [State.card_setCard_self]; exact hq
      · rw [State.card_setCard, if_neg ‹_›]; exact hq
    | _ => exact hkeep (fun _ _ => id)

theorem Run.shut {x : Bus} (h : Run L C Y s t) (hs : Shut C x s) : Shut C x t := by
  induction h with
  | refl => exact hs
  | tail _ m ih => exact m.shut ih

theorem Run.noMake {x : Bus} (h : Run L C Y s t) (hb : s.barred x ≠ none) (hr : ∀ r, (s.ctx x).request ≠ some (.make r)) :
    ∀ r, (t.ctx x).request ≠ some (.make r) := by
  induction h with
  | refl => exact hr
  | tail r m ih => exact m.noMake (by rwa [Run.barred r]) ih

theorem Run.notLive {x : Bus} (h : Run L C Y s t) (hb : s.barred x ≠ none)
    (hs : (s.ctx x).source ≠ .live ∧ (s.ctx x).source ≠ .goingLive) :
    (t.ctx x).source ≠ .live ∧ (t.ctx x).source ≠ .goingLive := by
  induction h with
  | refl => exact hs
  | tail r m ih => exact m.notLive (by rwa [Run.barred r]) ih

theorem Run.opensFirst' (h : Run L C Y s t) (ho : OpensFirst s) : OpensFirst t := by
  induction h with
  | refl => exact ho
  | tail _ m ih => exact m.opensFirst ih

theorem Run.sinks {x : Bus} (h : Run L C Y s t) (ho : OpensFirst s) (hs : Shut C x s) (p : Pt) :
    (s.xp x p).Sinks (t.xp x p) := by
  induction h with
  | refl => exact .refl _
  | tail r m ih => exact ih.trans (m.sinks (Run.opensFirst' r ho) (Run.shut r hs) p)

/-- Work elsewhere reserves nothing for a bus that has no make request (R22, R32). -/
theorem Run.unreservedElse {x : Bus} (h : Run L C Y s t) (hx : ¬ Y x) (hq : ∀ r, (s.ctx x).request ≠ some (.make r)) {p : Pt}
    (hr : (s.xp x p).state ≠ .reserved) : (t.xp x p).state ≠ .reserved := by
  induction h with
  | refl => exact hr
  | tail hrun hm ih =>
    refine (hm.unreservedOr ih).resolve_right (fun ⟨_, _, hy⟩ => ?_)
    rcases hy with hy | ⟨r, hy⟩
    · exact hx hy
    · exact (Run.spared hrun hx).make hq r hy

theorem Run.unreserved {x : Bus} (h : Run L C Y s t) (hs : Shut C x s) {p : Pt} (hr : (s.xp x p).state ≠ .reserved) :
    (t.xp x p).state ≠ .reserved := by
  induction h with
  | refl => exact hr
  | tail r m ih => exact m.unreserved (Run.shut r hs) ih

theorem Run.openingListed {x : Bus} (h : Run L C Y s t) (ho : OpensFirst s) (hs : Shut C x s) {p : Pt}
    (hl : OpeningListed s x p) : OpeningListed t x p := by
  induction h with
  | refl => exact hl
  | tail r m ih => exact m.openingListed (Run.opensFirst' r ho) (Run.shut r hs) ih

/-! ### An emergency open (R35) -/

/-- What an emergency open made of sunk records is what it makes of the records. -/
theorem XRec.Sinks.cleared {r r' : XRec} (h : r.Sinks r') : r.emergencyCleared.Sinks r'.emergencyCleared := by
  obtain ⟨hs, hm⟩ := h
  rcases hs with hs | ⟨hs, hs'⟩ | ⟨hs, hs'⟩
  · cases hr : r.state <;> simp_all [XRec.emergencyCleared, XRec.Sinks]
  · simp_all [XRec.emergencyCleared, XRec.Sinks]
  · simp_all [XRec.emergencyCleared, XRec.Sinks]

/-- The parts of a made emergency open: the records are those it clears, sunk, and what was CLOSED is listed. -/
theorem emergencyOpened_of {x : Bus} (hs : ∀ p, (s.xp x p).emergencyCleared.Sinks (t.xp x p))
    (hl : ∀ p, (s.xp x p).state = .closed → OpeningListed t x p) : EmergencyOpened s t x := by
  intro p
  obtain ⟨hst, hm⟩ := hs p
  cases h : (s.xp x p).state <;> simp only [XRec.emergencyCleared, h] at hst hm ⊢
  case closed => exact (hl p h).symm
  all_goals simp_all

/-- Cutting a list leaves no point out (R21). -/
theorem mem_chunks_of_mem {n : Nat} {ps : List Pt} (hn : ps.length ≤ n) {p : Pt} (h : p ∈ ps) :
    ∃ run ∈ chunks n ps, p ∈ run := by
  induction n generalizing ps with
  | zero => rw [List.length_eq_zero_iff.1 (Nat.le_zero.1 hn)] at h; cases h
  | succ n ih =>
    cases ps with
    | nil => cases h
    | cons q ps =>
      have hcut : p ∈ (q :: ps).take 16 ++ (q :: ps).drop 16 := by rw [List.take_append_drop]; exact h
      rcases List.mem_append.1 hcut with hcut | hcut
      · exact ⟨_, List.mem_cons_self, hcut⟩
      · obtain ⟨run, hrun, hp⟩ := ih (by simp at hn ⊢; omega) hcut
        exact ⟨run, List.mem_cons_of_mem _ hrun, hp⟩

/-- Every point of a request is in a group on its own card (R21). -/
theorem mem_cardGroups_of_mem {ps : List Pt} {p : Pt} (h : p ∈ ps) : ∃ g ∈ cardGroups ps, g.1 = cardOf p ∧ p ∈ g.2 := by
  have hmine : p ∈ allPoints.filter (fun q => q ∈ ps && cardOf q == cardOf p) := by
    simp [allPoints, List.mem_finRange, h]
  obtain ⟨run, hrun, hp⟩ := mem_chunks_of_mem le_rfl hmine
  exact ⟨(cardOf p, run), List.mem_flatMap.2 ⟨cardOf p, List.mem_finRange _, List.mem_map.2 ⟨run, hrun, rfl⟩⟩, rfl, hp⟩

/-- An open that is placed lists its points (R22). -/
theorem placePriority_listed (ho : OpensFirst s) {o : Order} (hk : o.kind = .emergency) {p : Pt} (hp : p ∈ o.points)
    (hc : (s.xp o.bus p).state = .closed ∨ (s.xp o.bus p).state = .opening) :
    OpeningListed (placePriority s (cardOf p) o) o.bus p := by
  have hplaced : OpeningListed (s.setCard (cardOf p) { s.card (cardOf p) with
      priority := (s.card (cardOf p)).priority ++ [o] }) o.bus p := by
    rcases hc with hc | hc
    · exact .inr ⟨hc, inPriority_iff.2 ⟨o, by rw [State.card_setCard_self]; simp, rfl, hp⟩⟩
    · exact .inl hc
  have hopens : OpensFirst (s.setCard (cardOf p) { s.card (cardOf p) with
      priority := (s.card (cardOf p)).priority ++ [o] }) := setCard_opensFirst ho _ (fun q hq => by
    rcases List.mem_append.1 hq with hq | hq
    · exact .inl hq
    · rw [List.mem_singleton.1 hq]; exact .inr (.inr hk))
  unfold placePriority
  dsimp only
  split
  · exact Run.openingListed (L := False) (C := False) (Y := fun _ => False)
      (Run.sendNext _ (fun hn => by rw [State.card_setCard_self] at hn; simp at hn) .refl) hopens (.inl id) hplaced
  · exact hplaced

theorem emergencyOpen_run (s : State) (x : Bus) : Run False False (fun _ => False) (emergencyCleared s x) (emergencyOpen s x) := by
  rw [emergencyOpen_eq]
  exact Run.placeGroups .emergency (.inr rfl) x _ False.elim .refl

theorem emergencyCleared_opensFirst (ho : OpensFirst s) (x : Bus) : OpensFirst (emergencyCleared s x) :=
  Run.opensFirst' (L := False) (C := False) (Y := fun _ => False) (Run.emergencyCleared x .refl) ho

/-- What an emergency open does to the bus's own crosspoints. -/
theorem emergencyOpen_sinks (ho : OpensFirst s) (x : Bus) (p : Pt) :
    (s.xp x p).emergencyCleared.Sinks ((emergencyOpen s x).xp x p) := by
  have h := (emergencyOpen_run s x).sinks (emergencyCleared_opensFirst ho x) (.inl id) (x := x) p
  rwa [emergencyCleared_xp, if_pos rfl] at h

/-- It leaves no reservation (R35). -/
theorem emergencyOpen_unreserved (s : State) (x : Bus) (p : Pt) : ((emergencyOpen s x).xp x p).state ≠ .reserved := by
  refine (emergencyOpen_run s x).unreserved (x := x) (.inl id) ?_
  rw [emergencyCleared_xp, if_pos rfl]
  unfold XRec.emergencyCleared
  cases h : (s.xp x p).state <;> simp [h]

/-- Every CLOSED crosspoint of the bus is listed to open, or OPENING (R35). -/
theorem emergencyOpen_listed (ho : OpensFirst s) (x : Bus) {p : Pt} (hc : (s.xp x p).state = .closed) :
    OpeningListed (emergencyOpen s x) x p := by
  have hcleared : ((emergencyCleared s x).xp x p).state = .closed := by
    rw [emergencyCleared_xp, if_pos rfl, XRec.emergencyCleared, hc]; exact hc
  have ho' := emergencyCleared_opensFirst ho x
  by_cases hin : (emergencyCleared s x).inPriority x p = true
  · exact (emergencyOpen_run s x).openingListed ho' (.inl id) (.inr ⟨hcleared, hin⟩)
  · obtain ⟨g, hg, hgc, hgp⟩ := mem_cardGroups_of_mem (ps := emergencyPoints (emergencyCleared s x) x) (p := p) (by
      simp [emergencyPoints, allPoints, List.mem_finRange, hcleared, hin])
    have hfold : ∀ (l : List (CardId × List Pt)) (u : State), OpensFirst u →
        (OpeningListed u x p ∨ ((u.xp x p).state = .closed ∧ g ∈ l)) →
        OpeningListed (l.foldl (fun s g => placePriority s g.1 ⟨.emergency, x, g.2, false⟩) u) x p := by
      intro l
      induction l with
      | nil => exact fun u _ h => h.resolve_right (fun h => by cases h.2)
      | cons a l ih =>
        intro u hu h
        have hrun : Run False False (fun _ => False) u (placePriority u a.1 ⟨.emergency, x, a.2, false⟩) :=
          Run.placePriority _ _ (.inr rfl) False.elim False.elim .refl
        refine ih _ (hrun.opensFirst' hu) ?_
        rcases h with h | ⟨hcl, hmem⟩
        · exact .inl (hrun.openingListed hu (.inl id) h)
        · rcases List.mem_cons.1 hmem with rfl | hmem
          · have hput := placePriority_listed hu (o := ⟨.emergency, x, g.2, false⟩) rfl hgp (.inl hcl)
            rw [← hgc] at hput
            exact .inl hput
          · rcases (hrun.sinks hu (.inl id) (x := x) p).1 with h | ⟨-, h⟩ | ⟨h, -⟩
            · exact .inr ⟨h.trans hcl, hmem⟩
            · exact .inl (.inl h)
            · rw [hcl] at h; cases h
    rw [emergencyOpen_eq]
    exact hfold _ _ ho' (.inr ⟨hcleared, hg⟩)

end

end Sys2Proof.Machine
end

