-- ==== Sys2Proof/Proofs/Judgements.lean ====
section
/-!
PROOFS. A judgement written out (R131, R144): the record it makes, the context it leaves, and the three ways its offer can
go. The steps of an END (R99) likewise.
-/

namespace Sys2Proof.Machine

/-! ### What a judgement makes -/

/-- The disposition of a row and a verdict (R130). -/
def State.disp (s : State) (row : Fin 16) (v : Verdict) : DispEntry := s.tables.disps[dispNo row v]

theorem State.disp_congr {s t : State} (h : t.tables = s.tables) (row : Fin 16) (v : Verdict) : t.disp row v = s.disp row v := by
  unfold State.disp; rw [h]

/-- The record of a judgement, before its append (R131). -/
def measOf (s : State) (x : Bus) (v : Verdict) (body : MeasBody) (flags : Flags) (unit : Fin 16) (n : Nat) (row : Fin 16)
    (site : Option Site) : MeasRec :=
  { flags := flags, panel := s.panel.number, bus := x, tag := (s.ctx x).stepTag, site := site
    ordinal := if (s.ctx x).sweep.status = .running then ((s.ctx x).sweep.join site).judged.length else 1
    verdict := v, bin := (s.disp row v).bin, samples := n, unit := unit, folded := 0, body := body }

/-- A pass that compact mode may fold (R144). -/
def Ctx.mayFold (c : Ctx) (v : Verdict) : Bool :=
  v == .pass && (match c.captured with | some k => k.limit.mode != .record | none => false)

/-- The context after its site is judged, the slot holding `slot` (R98, R131). -/
def Ctx.judged (c : Ctx) (v : Verdict) (d : DispEntry) (site : Option Site) (slot : Option Slot) : Ctx :=
  { c with
    sweep := c.sweep.join site
    endPending := if c.sweep.status == .running && (c.sweep.join site).status == .complete then
      some ⟨c.stepTag, (c.sweep.join site).judged.length, .complete⟩ else c.endPending
    slot := slot, inFlight := none, after := .act d.action, lastOk := v != .invalid, captured := none, acc := [] }

/-- The site's verdict record takes a judgement, and STEP is raised where the entry says so (R131, R134). -/
def judgementShown (s : State) (v : Verdict) (d : DispEntry) (site : Option Site) : State :=
  let u := match site with
    | some t => s.setVerdict t ((s.verdict t).judge v d)
    | none => s
  if d.attention then u.raise .step else u

@[simp] theorem judgementShown_ctxs (s : State) (v : Verdict) (d : DispEntry) (site : Option Site) :
    (judgementShown s v d site).ctxs = s.ctxs := by
  unfold judgementShown; cases site <;> dsimp only <;> split <;> rfl

@[simp] theorem judgementShown_queue (s : State) (v : Verdict) (d : DispEntry) (site : Option Site) :
    (judgementShown s v d site).queue = s.queue := by
  unfold judgementShown; cases site <;> dsimp only <;> split <;> rfl

/-- The offer of record `sl` by a context, which is `c none` when the record is taken and `c (some sl)` while it waits: folded,
appended, or left in the slot (R144). -/
def offered (s : State) (x : Bus) (c : Option Slot → Ctx) (sl : Slot) : State :=
  if s.queue.compact && sl.foldable then (State.setCtx { s with queue := s.queue.folded } x (c none)).post (.poke x)
  else if s.queue.records.length < 64 then ((appendRecord s sl.record).setCtx x (c none)).post (.poke x)
  else s.setCtx x (c (some sl))

theorem offer_setCtx (s : State) (x : Bus) (c : Ctx) (sl : Slot) (h : c.slot = some sl) :
    offer (s.setCtx x c) x = offered s x (fun k => { c with slot := k }) sl := by
  have hc : { c with slot := some sl } = c := by rw [← h]
  have happ : appendRecord (s.setCtx x c) sl.record = (appendRecord s sl.record).setCtx x c := by
    unfold appendRecord; dsimp only [State.setCtx]; split <;> rfl
  have htake : ∀ u : State, slotTaken (u.setCtx x c) x = (u.setCtx x { c with slot := none }).post (.poke x) := fun u => by
    rw [slotTaken, State.modCtx, State.ctx_setCtx_self, State.setCtx_setCtx]
  unfold offer offered
  rw [State.ctx_setCtx_self, h]
  dsimp only
  rw [happ, htake, hc]
  exact ite_congr rfl (fun _ => htake { s with queue := s.queue.folded }) (fun _ => rfl)

/-- What is done to the context after its offer may be done before. -/
theorem modCtx_offered (s : State) (x : Bus) (c : Option Slot → Ctx) (sl : Slot) (f : Ctx → Ctx) :
    (offered s x c sl).modCtx x f = offered s x (fun k => f (c k)) sl := by
  have hset : ∀ (w : State) (k : Ctx), (w.setCtx x k).modCtx x f = w.setCtx x (f k) := fun w k => by
    rw [State.modCtx, State.ctx_setCtx_self, State.setCtx_setCtx]
  have hpost : ∀ (w : State) (k : Ctx), ((w.setCtx x k).post (.poke x)).modCtx x f = (w.setCtx x (f k)).post (.poke x) :=
    fun w k => by rw [← hset]; rfl
  unfold offered
  split
  · exact hpost _ _
  · split
    · exact hpost _ _
    · exact hset _ _

/-- A judgement: the verdict record and STEP, then the context without its site, and the record folded, appended, or left in
the slot (R131, R144). -/
theorem judge_eq (s : State) (x : Bus) (v : Verdict) (body : MeasBody) (flags : Flags) (unit : Fin 16) (n : Nat)
    (row : Fin 16) (site : Option Site) :
    judge s x v body flags unit n row site =
      offered (judgementShown s v (s.disp row v) site) x
        ((s.ctx x).judged v (s.disp row v) site)
        ⟨.measure (measOf s x v body flags unit n row site), (s.ctx x).mayFold v⟩ := by
  have hjudge : judge s x v body flags unit n row site =
      (offer ((judgementShown s v (s.disp row v) site).setCtx x
        { (s.ctx x).judged v (s.disp row v) site
            (some ⟨.measure (measOf s x v body flags unit n row site), (s.ctx x).mayFold v⟩) with
          captured := (s.ctx x).captured, acc := (s.ctx x).acc }) x).modCtx x
        (fun c => { c with captured := none, acc := [] }) := by
    unfold judge judgementShown State.disp
    cases site with
    | none => dsimp only; split <;> rfl
    | some t => dsimp only; split <;> rfl
  rw [hjudge, offer_setCtx _ _ _ _ rfl, modCtx_offered]
  rfl

/-- An INVALID site is judged (R129). -/
theorem judgeInvalid_eq (s : State) (x : Bus) (cause : Cause) :
    judgeInvalid s x cause =
      offered (judgementShown s .invalid (s.disp (invalidRow s x) .invalid) (invalidSite (s.ctx x))) x
        ((s.ctx x).judged .invalid (s.disp (invalidRow s x) .invalid) (invalidSite (s.ctx x)))
        ⟨.measure (measOf s x .invalid (.invalid cause)
          ⟨false, false, false, match (s.ctx x).captured with | some k => k.worn | none => false, false⟩ 0 0
          (invalidRow s x) (invalidSite (s.ctx x))), false⟩ := judge_eq _ _ _ _ _ _ _ _ _

/-- The record of an END (R99). -/
def endRec (s : State) (x : Bus) (e : EndInfo) : Rec :=
  .sweepEnd { s := false, panel := s.panel.number, bus := x, info := e, folded := 0 }

/-- An END that is pending is placed in the empty slot and offered (R99). -/
theorem placeEnd_some {s : State} {x : Bus} {e : EndInfo} (hs : (s.ctx x).slot = none) (he : (s.ctx x).endPending = some e) :
    placeEnd s x = offered s x (fun k => { s.ctx x with slot := k, endPending := none }) ⟨endRec s x e, false⟩ := by
  unfold placeEnd
  dsimp only
  rw [hs, he]
  exact offer_setCtx _ _ _ _ rfl

theorem placeEnd_none {s : State} {x : Bus} (h : (s.ctx x).slot ≠ none ∨ (s.ctx x).endPending = none) :
    placeEnd s x = s := by
  unfold placeEnd
  dsimp only
  split
  · next hs he => rw [hs, he] at h; simp at h
  · rfl

/-! ### What an offer leaves -/

section
variable (s : State) (x : Bus) (c : Option Slot → Ctx) (sl : Slot)

/-- The offer is taken: folded or appended (R144). -/
def Slot.taken (sl : Slot) (s : State) : Bool := (s.queue.compact && sl.foldable) || decide (s.queue.records.length < 64)

theorem offered_ctx_self : (offered s x c sl).ctx x = c (if sl.taken s = true then none else some sl) := by
  unfold offered Slot.taken
  split
  · next h => rw [h]; exact State.ctx_setCtx_self _ _ _
  · next h =>
    rw [Bool.not_eq_true] at h
    rw [h]
    split
    · next hl => simp only [hl, decide_true, Bool.or_true, if_true]; exact State.ctx_setCtx_self _ _ _
    · next hl => simp only [hl, decide_false, Bool.or_false, Bool.false_eq_true, if_false]; exact State.ctx_setCtx_self _ _ _

theorem appendRecord_records (r : Rec) :
    (appendRecord s r).queue.records = s.queue.records ++ [r.stamped s.queue] := by
  unfold appendRecord
  dsimp only
  split <;> (cases r.delivers <;> rfl)

/-- The record of an offer that is not folded is appended, or the slot keeps it (R144). -/
theorem offered_records (hf : sl.foldable = false) :
    (offered s x c sl).queue.records = s.queue.records ++ (if sl.taken s = true then [sl.record.stamped s.queue] else []) := by
  unfold offered Slot.taken
  rw [hf, Bool.and_false, if_neg Bool.false_ne_true, Bool.false_or]
  split
  · next hl => rw [if_pos (decide_eq_true hl)]; exact appendRecord_records _ _
  · next hl => rw [if_neg (by simpa using hl), List.append_nil]; rfl

end

/-! ### A bus that has nothing to do -/

/-- A bus that does nothing when it looks, but place an END: TRIPPED with its flag set, HALTED, or, while the rack is not
READY, IDLE or SUSPENDED for a site, or IDLE with no step queued (R60, R67, R88, R89). -/
def Inert (s : State) (x : Bus) : Prop :=
  ((s.ctx x).state = .tripped ∧ s.tripped x = true) ∨ (s.ctx x).state = .halted ∨
    (s.isReady = false ∧ ((s.ctx x).state = .idle ∨
      ((s.ctx x).state = .suspended ∧ ((s.ctx x).resume = .none → (s.ctx x).step ≠ none)))) ∨
    ((s.ctx x).state = .idle ∧ (s.ctx x).queue = [])

theorem Inert.congr {s t : State} {x : Bus} (h : Inert s x) (hg : t.guard = s.guard) (hs : (t.ctx x).state = (s.ctx x).state)
    (hr : (t.ctx x).resume = (s.ctx x).resume) (hst : (t.ctx x).step = (s.ctx x).step) (hq : (t.ctx x).queue = (s.ctx x).queue) :
    Inert t x := by
  have hready : t.isReady = s.isReady := isReady_congr hg
  have htrip : t.tripped x = s.tripped x := by rw [State.tripped, State.tripped, hg]
  unfold Inert
  rw [hs, hr, hst, hq, hready, htrip]
  exact h

/-- The context has changed by what others do to it and by the placing of its END (R99). -/
structure Ctx.Rests (c d : Ctx) : Prop where
  rest : d = { c with request := d.request, slot := d.slot, endPending := d.endPending }
  slot : c.slot ≠ none ∨ c.endPending = none → d.slot = c.slot ∧ d.endPending = c.endPending
  request : c.request = none → d.request = none

theorem Ctx.Rests.refl (c : Ctx) : c.Rests c := ⟨rfl, fun _ => ⟨rfl, rfl⟩, id⟩

theorem Ctx.Rests.trans {c d e : Ctx} (h : c.Rests d) (k : d.Rests e) : c.Rests e := by
  refine ⟨?_, fun hs => ?_, fun hr => k.request (h.request hr)⟩
  · rw [k.rest, h.rest]
  · obtain ⟨h1, h2⟩ := h.slot hs
    obtain ⟨k1, k2⟩ := k.slot (by rw [h1, h2]; exact hs)
    exact ⟨k1.trans h1, k2.trans h2⟩

theorem Ctx.Spared.rests {c d : Ctx} (h : c.Spared d) (hs : c.state ≠ .blocked) : c.Rests d := by
  have hstate : d.state = c.state := h.state.resolve_right (fun hb => hs hb.1)
  refine ⟨?_, fun _ => ?_, h.request⟩
  · rw [h.rest, hstate]
  · rw [h.rest]; exact ⟨rfl, rfl⟩

theorem placeEnd_rests (s : State) (x : Bus) : (s.ctx x).Rests ((placeEnd s x).ctx x) := by
  by_cases h : (s.ctx x).slot ≠ none ∨ (s.ctx x).endPending = none
  · rw [placeEnd_none h]; exact .refl _
  · obtain ⟨hs, he⟩ := not_or.1 h
    obtain ⟨e, he⟩ := Option.ne_none_iff_exists'.1 he
    rw [placeEnd_some (not_not.1 hs) he, offered_ctx_self]
    exact ⟨rfl, fun hn => absurd hn h, id⟩

theorem Inert.not_blocked {s : State} {x : Bus} (h : Inert s x) : (s.ctx x).state ≠ .blocked := by
  intro hb
  simp [Inert, hb] at h

theorem Inert.rests {s t : State} {x : Bus} (h : Inert s x) (hg : t.guard = s.guard) (hr : (s.ctx x).Rests (t.ctx x)) :
    Inert t x := h.congr hg (by rw [hr.rest]) (by rw [hr.rest]) (by rw [hr.rest]) (by rw [hr.rest])

/-- A bus with nothing to do places its END when it looks. -/
theorem poke_inert {s : State} {x : Bus} (h : Inert s x) : poke s x = placeEnd s x := by
  have hi : Inert (placeEnd s x) x := h.rests (((Keeps.refl (Q := fun _ => False) s).placeEnd x).guard) (placeEnd_rests s x)
  unfold poke
  dsimp only
  generalize placeEnd s x = t at hi
  rcases hi with ⟨hs, ht⟩ | hs | ⟨hready, hs | ⟨hs, hstep⟩⟩ | ⟨hs, hq⟩
  · rw [hs]; simp [ht]
  · rw [hs]
  · rw [hs]; simp [mayTake, hready]
  · rw [hs]
    have hnone : ¬ ((t.ctx x).resume = .none ∧ (t.ctx x).step = none) := fun e => hstep e.1 e.2
    simp [hready, hnone]
  · rw [hs, hq]; rfl

/-- Its mail does nothing else. -/
theorem doMail_inert {s : State} {m : Mail} (h : Inert s m.bus) :
    doMail s m = if m = .poke m.bus then placeEnd s m.bus else s := by
  have hstate : (s.ctx m.bus).state = .tripped ∨ (s.ctx m.bus).state = .halted ∨ (s.ctx m.bus).state = .idle ∨
      (s.ctx m.bus).state = .suspended := by
    rcases h with ⟨hs, -⟩ | hs | ⟨-, hs | ⟨hs, -⟩⟩ | ⟨hs, -⟩ <;> simp [hs]
  cases m with
  | poke x => exact (poke_inert h).trans (if_pos rfl).symm
  | _ =>
    rw [if_neg (by nofun)]
    rcases hstate with hs | hs | hs | hs <;> simp_all [doMail, Mail.bus]

/-- What the consequences of a command do to a bus with nothing to do: nothing but place its END, and not that when it is not
told to look. -/
theorem drain_inert (n : Nat) {s : State} {x : Bus} (h : Inert s x) :
    (s.ctx x).Rests ((drain n s).ctx x) ∧
      (Mail.poke x ∉ s.mail → (drain n s).ctx x = { s.ctx x with request := ((drain n s).ctx x).request }) := by
  induction n generalizing s with
  | zero => exact ⟨.refl _, fun _ => rfl⟩
  | succ n ih =>
    have hstep : ∀ {u v : State}, u.ctxs = s.ctxs → u.guard = s.guard → (Mail.poke x ∈ u.mail → Mail.poke x ∈ s.mail) →
        Run False True (fun y => y ≠ x) u v → (s.ctx x).Rests ((drain n v).ctx x) ∧
          (Mail.poke x ∉ s.mail → (drain n v).ctx x = { s.ctx x with request := ((drain n v).ctx x).request }) :=
      fun {u v} hc hg hm r => by
        have hu : u.ctx x = s.ctx x := by rw [State.ctx, State.ctx, hc]
        have hsp : (s.ctx x).Spared (v.ctx x) := hu ▸ r.spared (fun e => e rfl)
        have hrest := hsp.rests h.not_blocked
        have hv := h.rests (r.frame.2.2.trans hg) hrest
        obtain ⟨ih1, ih2⟩ := ih hv
        refine ⟨hrest.trans ih1, fun hp => ?_⟩
        rw [ih2 (fun hq => hp (hm (r.poke_old (fun e => e rfl) hq)))]
        have hstate : (v.ctx x).state = (s.ctx x).state := by rw [hrest.rest]
        rw [hsp.rest, hstate]
    unfold drain
    split
    · next w rest hw => exact hstep (u := { s with matrixWork := rest }) rfl rfl id (Run.doMatrix w trivial .refl)
    · next m rest hw hm =>
      by_cases hx : m.bus = x
      · subst hx
        rw [doMail_inert (h.rests (t := { s with mail := rest }) rfl (.refl _))]
        split
        · next e =>
          have hrest := placeEnd_rests { s with mail := rest } m.bus
          refine ⟨hrest.trans (ih (h.rests ?_ hrest)).1, fun hp => absurd ?_ hp⟩
          · exact ((Keeps.refl (Q := fun _ => False) { s with mail := rest }).placeEnd m.bus).guard
          · rw [hm, ← e]; exact List.mem_cons_self
        · exact hstep (u := { s with mail := rest }) rfl rfl (fun hq => by rw [hm]; exact List.mem_cons_of_mem _ hq) .refl
      · exact hstep (u := { s with mail := rest }) rfl rfl (fun hq => by rw [hm]; exact List.mem_cons_of_mem _ hq)
          (Run.doMail m trivial hx .refl)
    · exact ⟨.refl _, fun _ => rfl⟩

end Sys2Proof.Machine
end

