-- ==== Sys2Proof/Proofs/Trips.lean ====
section
/-!
PROOFS. What a trip does to its bus (R58, R59), what the trips of other buses leave of it, and what stands of it at the end of
the command: O7 and O8.
-/

-- One proof after another: in the joined text each worker would hold a stack of its own.
set_option Elab.async false

namespace Sys2Proof.Machine

/-! ### What others do, apart from a bus's context -/

/-- From s to t the surroundings of bus `x` have changed only as they may while nothing closes for it. -/
structure Apart (x : Bus) (s t : State) : Prop where
  tables : t.tables = s.tables
  lanes : t.lanes = s.lanes
  tripped : t.tripped x = s.tripped x
  opens : OpensFirst s → OpensFirst t
  sinks : OpensFirst s → ∀ p, (s.xp x p).Sinks (t.xp x p)
  listed : OpensFirst s → ∀ p, OpeningListed s x p → OpeningListed t x p
  unreserved : ∀ p, (s.xp x p).state ≠ .reserved → (t.xp x p).state ≠ .reserved
  out : ∃ l, t.out = s.out ++ l
  records : ∃ l, t.queue.records = s.queue.records ++ l
  guardClass : s.trunk.attn.guard = true → t.trunk.attn.guard = true

theorem Apart.refl (x : Bus) (s : State) : Apart x s s where
  tables := rfl
  lanes := rfl
  tripped := rfl
  opens := id
  sinks := fun _ _ => .refl _
  listed := fun _ _ => id
  unreserved := fun _ => id
  out := ⟨[], (List.append_nil _).symm⟩
  records := ⟨[], (List.append_nil _).symm⟩
  guardClass := id

theorem Apart.trans {x : Bus} {s t u : State} (h : Apart x s t) (k : Apart x t u) : Apart x s u where
  tables := k.tables.trans h.tables
  lanes := k.lanes.trans h.lanes
  tripped := k.tripped.trans h.tripped
  opens := fun ho => k.opens (h.opens ho)
  sinks := fun ho p => (h.sinks ho p).trans (k.sinks (h.opens ho) p)
  listed := fun ho p hl => k.listed (h.opens ho) p (h.listed ho p hl)
  unreserved := fun p hr => k.unreserved p (h.unreserved p hr)
  out := by
    obtain ⟨l, hl⟩ := h.out
    obtain ⟨m, hm⟩ := k.out
    exact ⟨l ++ m, by rw [hm, hl, List.append_assoc]⟩
  records := by
    obtain ⟨l, hl⟩ := h.records
    obtain ⟨m, hm⟩ := k.records
    exact ⟨l ++ m, by rw [hm, hl, List.append_assoc]⟩
  guardClass := fun hg => k.guardClass (h.guardClass hg)

theorem AttnSet.raised_guard_eq {a : AttnSet} : a.raised .guard = a ↔ a.guard = true := by
  simp [AttnSet.ext_iff, AttnSet.raised]

/-- GUARD stays pending inside a command. -/
theorem Keeps.guardClass {Q : Rec → Prop} {s t : State} (k : Keeps Q s t) (h : s.trunk.attn.guard = true) :
    t.trunk.attn.guard = true := AttnSet.raised_guard_eq.1 (k.attn .guard (AttnSet.raised_guard_eq.2 h))

theorem Apart.channelUsable {x : Bus} {s t : State} (h : Apart x s t) : t.channelUsable x = s.channelUsable x := by
  unfold State.channelUsable State.laneHasInstrument State.lane State.busEntry; rw [h.tables, h.lanes]

/-- The inside of a command, while nothing closes for the bus. -/
theorem Apart.of_run {L C : Prop} {Y : Bus → Prop} {Q : Rec → Prop} {x : Bus} {s t : State} (k : Keeps Q s t)
    (r : Run L C Y s t) (hs : Shut C x s) : Apart x s t where
  tables := k.tables
  lanes := k.lanes
  tripped := by rw [State.tripped, State.tripped, k.guard]
  opens := k.opensFirst
  sinks := fun ho p => r.sinks ho hs p
  listed := fun ho _ hl => r.openingListed ho hs hl
  unreserved := fun _ hr => r.unreserved hs hr
  out := r.sent
  records := k.records.imp (fun _ h => h.1)
  guardClass := k.guardClass

/-- The trip flag of another bus. -/
theorem Apart.setTripped {x y : Bus} (hne : y ≠ x) (s : State) (b : Bool) : Apart x s (s.setTripped y b) :=
  { Apart.refl x s with tripped := by rw [State.tripped_setTripped, if_neg hne] }

/-- The trip of another bus. -/
theorem tripBus_apart {x y : Bus} (hne : y ≠ x) (s : State) :
    Apart x s (tripBus s y) ∧ (s.ctx x).Spared ((tripBus s y).ctx x) := by
  have k : Keeps (fun _ => True) (s.setTripped y true) (tripBus s y) :=
    ((((Keeps.refl _).emergencyQuiet y).emergencyOpen y).tripCtx y).raise _
  have r : Run False False (fun z => z = y) (s.setTripped y true) (tripBus s y) :=
    Run.raise _ (Run.tripCtx y rfl (Run.emergencyOpen y False.elim (Run.emergencyQuiet y rfl .refl)))
  exact ⟨(Apart.setTripped hne s true).trans (.of_run k r (.inl id)), r.spared (fun e => hne e.symm)⟩

theorem evaluate_apart {x y : Bus} (hne : y ≠ x) (s : State) :
    Apart x s (evaluate s y) ∧ (s.ctx x).Spared ((evaluate s y).ctx x) := by
  unfold evaluate
  split
  · exact tripBus_apart hne s
  · exact ⟨.refl _ _, .refl _⟩

/-! ### The context's part of a trip (R59) -/

/-- The context in TRIPPED with a resume point (R59). -/
def Ctx.enteredTripped (c : Ctx) (r : Resume) : Ctx :=
  { c with
    state := .tripped, resume := r, inFlight := none, after := .none, lastOk := false, settleTimer := none
    relDone := false
    relFail := if r = .none then none else c.relFail
    step := if r = .none then none else c.step
    site := if r = .none then none else c.site
    net := if r = .none then none else c.net
    target := if r = .none then none else c.target }

theorem enterTripped_eq (s : State) (x : Bus) (r : Resume) :
    enterTripped s x r = (s.setCtx x ((s.ctx x).enteredTripped r)).post (.poke x) := rfl

/-- A trip ends the site of the context: one in flight, or one held for redo (R59, R103). -/
def Ctx.hasSite (c : Ctx) : Bool :=
  (c.state.working && c.inFlight.isSome) || (c.state == .suspended && c.resume == .redo)

/-- What a trip makes TRIPPED remember where it ends no site (R59). -/
def Ctx.tripResume (c : Ctx) : Resume :=
  match c.state with
  | .tripped => c.resume
  | .idle | .holding => .none
  | .halted => .halted
  | .releasing => if c.dest = .halted then .halted else .none
  | .suspended => if c.haltInSlot then .halted else c.resume
  | _ => if c.haltInSlot then .halted else c.nextOrNone

/-- The take of a measuring context is cut off (R77). -/
def stopTake (s : State) (x : Bus) : State := if (s.ctx x).state = .measuring then cancelTake s x else s

theorem tripCtx_site {s : State} {x : Bus} (h : (s.ctx x).hasSite = true) :
    tripCtx s x = enterTripped (judgeInvalid (stopTake s x) x .trip) x
      ((judgeInvalid (stopTake s x) x .trip).ctx x).resumeAfter := by
  unfold tripCtx stopTake
  dsimp only
  cases hs : (s.ctx x).state <;> simp_all [Ctx.hasSite, CtxState.working]

theorem tripCtx_noSite {s : State} {x : Bus} (ht : (s.ctx x).state ≠ .tripped) (h : (s.ctx x).hasSite = false) :
    tripCtx s x = enterTripped s x (s.ctx x).tripResume := by
  unfold tripCtx Ctx.tripResume
  dsimp only
  cases hs : (s.ctx x).state <;> simp_all [Ctx.hasSite, CtxState.working]

theorem tripCtx_tripped {s : State} {x : Bus} (ht : (s.ctx x).state = .tripped) : tripCtx s x = s := by
  unfold tripCtx; dsimp only; rw [ht]

/-- The context whose take is cut off (R77). -/
def Ctx.stopped (c : Ctx) : Ctx :=
  if c.state = .measuring then { c with takeTag := c.takeTag + 1, acc := [], measureTimer := none } else c

theorem stopTake_ctx (s : State) (x : Bus) : (stopTake s x).ctx x = (s.ctx x).stopped := by
  unfold stopTake Ctx.stopped cancelTake
  dsimp only
  split
  · rw [State.ctx_modCtx_self]; split <;> rfl
  · rfl

/-- A take is CANCELled on a usable channel (R77). -/
theorem stopTake_out {s : State} {x : Bus} (hm : (s.ctx x).state = .measuring) (hu : s.channelUsable x = true) :
    ((s.busEntry x).lane, LaneFrame.cancel (s.busEntry x).channel (s.ctx x).takeTag) ∈ (stopTake s x).out := by
  unfold stopTake cancelTake
  dsimp only
  rw [if_pos hm, if_pos hu]
  exact List.mem_append_right _ (List.mem_singleton.2 rfl)

theorem stopTake_keeps (s : State) (x : Bus) : Keeps (fun _ => False) s (stopTake s x) := by
  unfold stopTake
  split
  · exact (Keeps.refl s).cancelTake x
  · exact .refl s

theorem Ctx.stopped_eq (c : Ctx) : c.stopped = { c with
    takeTag := if c.state = .measuring then c.takeTag + 1 else c.takeTag
    acc := if c.state = .measuring then [] else c.acc
    measureTimer := if c.state = .measuring then none else c.measureTimer } := by
  unfold Ctx.stopped
  split <;> rfl

/-- The disposition row rests on the tables, the step and the capture (R129). -/
theorem invalidRow_congr {s t : State} {x : Bus} (ht : t.tables.limits = s.tables.limits) (hs : (t.ctx x).step = (s.ctx x).step)
    (hc : (t.ctx x).captured = (s.ctx x).captured) : invalidRow t x = invalidRow s x := by
  unfold invalidRow
  rw [hs, hc, ht]

/-- Cutting off a take changes nothing that a judgement reads. -/
theorem invalidRow_stopTake (s : State) (x : Bus) : invalidRow (stopTake s x) x = invalidRow s x :=
  invalidRow_congr (by rw [(stopTake_keeps s x).tables]) (by rw [stopTake_ctx, Ctx.stopped_eq]) (by rw [stopTake_ctx, Ctx.stopped_eq])

theorem invalidSite_stopped (c : Ctx) : invalidSite c.stopped = invalidSite c := by
  rw [Ctx.stopped_eq]; rfl

/-- What judging an INVALID site leaves: the context by the outcome of its offer, and its record with the records appended
or in the slot (R129, R144). -/
theorem judgeInvalid_leaves (s : State) (x : Bus) (cause : Cause) :
    ∃ (slot : Option Slot) (m : MeasRec),
      (judgeInvalid s x cause).ctx x =
        (s.ctx x).judged .invalid (s.disp (invalidRow s x) .invalid) (invalidSite (s.ctx x)) slot ∧
      (m.bus = x ∧ m.site = invalidSite (s.ctx x) ∧ m.tag = (s.ctx x).stepTag ∧ m.body = .invalid cause) ∧
      (((judgeInvalid s x cause).queue.records = s.queue.records ++ [.measure m] ∧ slot = none) ∨
        ∃ sl, slot = some sl ∧ sl.record = .measure m) := by
  rw [judgeInvalid_eq]
  generalize (Flags.mk _ _ _ _ _) = fl
  generalize hm : measOf s x .invalid (.invalid cause) fl 0 0 (invalidRow s x) (invalidSite (s.ctx x)) = m
  rw [offered_ctx_self]
  have hrec := offered_records (judgementShown s .invalid (s.disp (invalidRow s x) .invalid) (invalidSite (s.ctx x)))
    x ((s.ctx x).judged .invalid (s.disp (invalidRow s x) .invalid) (invalidSite (s.ctx x)))
    ⟨.measure m, false⟩ rfl
  cases ht : Slot.taken ⟨.measure m, false⟩
      (judgementShown s .invalid (s.disp (invalidRow s x) .invalid) (invalidSite (s.ctx x))) with
  | false =>
    refine ⟨_, m, rfl, ?_, .inr ⟨_, rfl, rfl⟩⟩
    subst hm; exact ⟨rfl, rfl, rfl, rfl⟩
  | true =>
    rw [ht, if_pos rfl, judgementShown_queue] at hrec
    refine ⟨_, { m with folded := s.queue.foldCount, flags := { m.flags with s := s.queue.saturated } }, rfl, ?_, .inl ⟨hrec, rfl⟩⟩
    subst hm; exact ⟨rfl, rfl, rfl, rfl⟩

theorem stopTake_queue (s : State) (x : Bus) : (stopTake s x).queue = s.queue := by
  unfold stopTake cancelTake
  dsimp only
  split
  · split <;> rfl
  · rfl

/-- TRIPPED keeps the step with a resume point, and no step without one (R59). -/
theorem Ctx.enteredTripped_step (c : Ctx) (r : Resume) :
    ((c.enteredTripped r).resume = .none → (c.enteredTripped r).step = none ∧ (c.enteredTripped r).site = none ∧
      (c.enteredTripped r).net = none ∧ (c.enteredTripped r).target = none) ∧
    ((c.enteredTripped r).resume ≠ .none → (c.enteredTripped r).step = c.step ∧ (c.enteredTripped r).site = c.site ∧
      (c.enteredTripped r).net = c.net ∧ (c.enteredTripped r).target = c.target) := by
  refine ⟨fun h => ?_, fun h => ?_⟩
  · have hr : r = .none := h
    simp [Ctx.enteredTripped, hr]
  · have hr : r ≠ .none := h
    simp [Ctx.enteredTripped, hr]

/-- The resume point after a judged site (R59, R132). -/
theorem resumeAfter_judged (s : State) (x : Bus) {u : Site} (hu : invalidSite (s.ctx x) = some u) (slot : Option Slot) :
    ((s.ctx x).stopped.judged .invalid (s.disp (invalidRow s x) .invalid) (invalidSite (s.ctx x)) slot).resumeAfter =
      rememberedAfter s x u := by
  rw [hu]
  unfold rememberedAfter Ctx.resumeAfter Ctx.nextOrNone
  simp only [Ctx.judged, Ctx.stopped_eq, After.act.injEq]
  rfl

/-- What a trip leaves in a context whose site it ends (R59, R103). -/
theorem tripCtx_leaves_site {s : State} {x : Bus} (h : (s.ctx x).hasSite = true) : TripLeaves s (tripCtx s x) x := by
  obtain ⟨slot, m, hctx, ⟨hbus, hsite, htag, hbody⟩, hrec⟩ := judgeInvalid_leaves (stopTake s x) x .trip
  rw [stopTake_ctx, invalidSite_stopped] at hsite
  rw [stopTake_ctx] at htag
  rw [stopTake_ctx, invalidRow_stopTake, State.disp_congr (stopTake_keeps s x).tables, invalidSite_stopped] at hctx
  obtain ⟨sent, hout⟩ :=
    (Run.judgeInvalid (L := False) (C := False) (Y := fun y => y = x) (s := stopTake s x) x rfl .trip .refl).sent
  rw [tripCtx_site h, enterTripped_eq, hctx]
  set d := ((s.ctx x).stopped.judged .invalid (s.disp (invalidRow s x) .invalid) (invalidSite (s.ctx x)) slot)
  have hd : ((((judgeInvalid (stopTake s x) x .trip).setCtx x (d.enteredTripped d.resumeAfter)).post (.poke x)).ctx x) =
      d.enteredTripped d.resumeAfter := State.ctx_setCtx_self _ _ _
  have hcases : ((s.ctx x).state.working = true ∧ (s.ctx x).inFlight.isSome = true) ∨
      ((s.ctx x).state = .suspended ∧ (s.ctx x).resume = .redo) := by
    simpa [Ctx.hasSite] using h
  unfold TripLeaves
  dsimp only
  rw [hd]
  refine ⟨?_, fun u _ hu => ⟨?_, rfl, resumeAfter_judged s x hu slot⟩, fun hm _ => ⟨?_, rfl, ?_, fun hu => ?_⟩, fun hw hn => ?_,
    fun hs hn => ?_, fun hs => ?_, fun hs => ?_, fun hs => ?_, fun _ => ?_⟩
  · simp [d, Ctx.enteredTripped, Ctx.judged, Ctx.stopped_eq]
  · refine ⟨m, ?_, hbus, hsite.trans hu, ?_, hbody⟩
    · rcases hrec with ⟨hrec, -⟩ | ⟨sl, hsl, hrec⟩
      · left
        have hq : (((judgeInvalid (stopTake s x) x .trip).setCtx x (d.enteredTripped d.resumeAfter)).post (.poke x)).queue.records =
            s.queue.records ++ [.measure m] := by rw [← stopTake_queue s x]; exact hrec
        rw [hq, List.drop_left]
        exact List.mem_singleton.2 rfl
      · exact .inr ⟨sl, by rw [hd]; exact hsl, hrec⟩
    · rw [htag, Ctx.stopped_eq]; rfl
  · simp [d, Ctx.enteredTripped, Ctx.judged, Ctx.stopped_eq, hm]
  · simp [d, Ctx.enteredTripped, Ctx.judged, Ctx.stopped_eq, hm]
  · show _ ∈ (judgeInvalid (stopTake s x) x .trip).out
    rw [hout]
    exact List.mem_append_left _ (stopTake_out hm hu)
  · rcases hcases with hc | hc
    · rw [hn] at hc; cases hc.2
    · rw [hc.1] at hw; cases hw
  · rcases hcases with hc | hc
    · rw [hs] at hc; cases hc.1
    · exact absurd hc.2 hn
  · rcases hcases with hc | hc <;> rcases hs with hs | hs <;> rw [hs] at hc <;> cases hc.1
  · rcases hcases with hc | hc <;> rw [hs] at hc <;> cases hc.1
  · rcases hcases with hc | hc <;> rw [hs] at hc <;> cases hc.1
  · have hstep : d.step = (s.ctx x).step ∧ d.site = (s.ctx x).site ∧ d.net = (s.ctx x).net ∧ d.target = (s.ctx x).target := by
      simp [d, Ctx.judged, Ctx.stopped_eq]
    obtain ⟨h1, h2, h3, h4⟩ := hstep
    have := d.enteredTripped_step d.resumeAfter
    rwa [h1, h2, h3, h4] at this

/-- What a trip leaves in a context where it ends no site (R59). -/
theorem tripCtx_leaves_noSite {s : State} {x : Bus} (ht : (s.ctx x).state ≠ .tripped) (h : (s.ctx x).hasSite = false) :
    TripLeaves s (tripCtx s x) x := by
  have hcases : ((s.ctx x).state.working = true → (s.ctx x).inFlight = none) ∧
      ((s.ctx x).state = .suspended → (s.ctx x).resume ≠ .redo) := by
    simpa [Ctx.hasSite] using h
  obtain ⟨hflight, hredo⟩ := hcases
  rw [tripCtx_noSite ht h, enterTripped_eq]
  have hd : (((s.setCtx x ((s.ctx x).enteredTripped (s.ctx x).tripResume)).post (.poke x)).ctx x) =
      (s.ctx x).enteredTripped (s.ctx x).tripResume := State.ctx_setCtx_self _ _ _
  unfold TripLeaves
  dsimp only
  rw [hd]
  refine ⟨rfl, fun u hu _ => ?_, fun hm hf => ?_, fun hw _ => ⟨?_, fun _ => rfl⟩, fun hs hn => ⟨?_, fun _ => rfl⟩, fun hs => ?_,
    fun hs => ?_, fun hs => ?_, fun _ => (s.ctx x).enteredTripped_step _⟩
  · rcases hu with hu | hu
    · rw [hflight hu.1] at hu; cases hu.2
    · exact absurd hu.2 (hredo hu.1)
  · rw [hflight (by rw [hm]; rfl)] at hf; cases hf
  · show (s.ctx x).tripResume = _
    unfold Ctx.tripResume
    cases hs : (s.ctx x).state <;> simp_all [CtxState.working, Ctx.nextOrNone]
  · show (s.ctx x).tripResume = _
    simp [Ctx.tripResume, hs]
  · show (s.ctx x).tripResume = _
    rcases hs with hs | hs <;> simp [Ctx.tripResume, hs]
  · show (s.ctx x).tripResume = _
    simp [Ctx.tripResume, hs]
  · show (s.ctx x).tripResume = _
    simp [Ctx.tripResume, hs]

/-- What a trip leaves in its context (R59). -/
theorem tripCtx_leaves (s : State) (x : Bus) : ((tripCtx s x).ctx x).state = .tripped ∧ TripLeaves s (tripCtx s x) x := by
  by_cases ht : (s.ctx x).state = .tripped
  · rw [tripCtx_tripped ht]
    refine ⟨ht, ?_⟩
    unfold TripLeaves
    simp [ht, CtxState.working]
  · cases h : (s.ctx x).hasSite with
    | true => exact ⟨by rw [tripCtx_site h, enterTripped_eq]; exact congrArg Ctx.state (State.ctx_setCtx_self _ _ _), tripCtx_leaves_site h⟩
    | false => exact ⟨by rw [tripCtx_noSite ht h, enterTripped_eq]; exact congrArg Ctx.state (State.ctx_setCtx_self _ _ _), tripCtx_leaves_noSite ht h⟩

/-! ### From before the trips to the end of the command -/

/-- A context has changed in request, source record and the wait of its make request alone. -/
def Ctx.Nearly (c d : Ctx) : Prop :=
  ∃ q src st, d = { c with request := q, source := src, state := st } ∧ (st = c.state ∨ (c.state = .blocked ∧ st = .making))

theorem Ctx.Nearly.refl (c : Ctx) : c.Nearly c := ⟨c.request, c.source, c.state, rfl, .inl rfl⟩

theorem Ctx.Nearly.trans {c d e : Ctx} (h : c.Nearly d) (k : d.Nearly e) : c.Nearly e := by
  obtain ⟨q, src, st, rfl, hst⟩ := h
  obtain ⟨q', src', st', rfl, hst'⟩ := k
  refine ⟨q', src', st', rfl, ?_⟩
  rcases hst with rfl | ⟨hb, rfl⟩
  · exact hst'
  · rcases hst' with rfl | ⟨hb', -⟩
    · exact .inr ⟨hb, rfl⟩
    · cases hb'

theorem Ctx.Spared.nearly {c d : Ctx} (h : c.Spared d) : c.Nearly d :=
  ⟨d.request, c.source, d.state, h.rest, h.state⟩

/-- What R59 leaves is told of the state before the trips and at the end of the command alike. -/
theorem TripLeaves.transfer {o s u t : State} {x : Bus} (h : TripLeaves s u x) (hc : (o.ctx x).Nearly (s.ctx x))
    (hdisps : s.tables.disps = o.tables.disps) (hlimits : s.tables.limits = o.tables.limits)
    (hentry : (o.ctx x).state = .measuring → s.busEntry x = o.busEntry x ∧ s.channelUsable x = o.channelUsable x) (hos : ∃ l, s.queue.records = o.queue.records ++ l)
    (hd : (u.ctx x).Rests (t.ctx x)) (hut : ∃ l, t.queue.records = u.queue.records ++ l) (hout : ∃ l, t.out = u.out ++ l) :
    TripLeaves o t x := by
  obtain ⟨h1, h2, h3, h4, h5, h6, h7, h8, h9⟩ := h
  obtain ⟨before, hos⟩ := hos
  obtain ⟨after, hut⟩ := hut
  obtain ⟨sent, hout⟩ := hout
  obtain ⟨q, src, st, hsc, hst⟩ := hc
  have hrow : invalidRow s x = invalidRow o x := invalidRow_congr hlimits (by rw [hsc]) (by rw [hsc])
  have hremember : ∀ w, rememberedAfter s x w = rememberedAfter o x w := fun w => by
    unfold rememberedAfter
    simp only [hsc, hrow, hdisps]
  have hslot : ∀ sl, (u.ctx x).slot = some sl → (t.ctx x).slot = some sl := fun sl hs =>
    ((hd.slot (.inl (by rw [hs]; nofun))).1).trans hs
  have hsame : ∀ v, (o.ctx x).slot ≠ none → (v ≠ none → (u.ctx x).slot = v) → v = (o.ctx x).slot → (t.ctx x).slot = v :=
    fun v hn hv e => by
      subst e
      obtain ⟨sl, hsl⟩ := Option.ne_none_iff_exists'.1 hn
      rw [hsl] at hv ⊢
      exact hslot sl (hv nofun)
  have hended : ∀ w, EndedBy s u x w .trip → EndedBy o t x w .trip := by
    rintro w ⟨m, hm, hb, hw, htag, hbody⟩
    refine ⟨m, ?_, hb, hw, by rw [htag, hsc]; rfl, hbody⟩
    rcases hm with hm | ⟨sl, hsl, hr⟩
    · left
      have hlen : s.queue.records.length = o.queue.records.length + before.length := by rw [hos, List.length_append]
      rw [hlen, ← List.drop_drop] at hm
      rw [hut, List.drop_append]
      exact List.mem_append_left _ (List.mem_of_mem_drop hm)
    · exact .inr ⟨sl, hslot sl hsl, hr⟩
  have hrest := hd.rest
  simp only [hsc] at h1 h2 h3 h4 h5 h6 h7 h8 h9
  have hin : ∀ w, invalidSite { o.ctx x with request := q, source := src, state := st } = some w ↔
      invalidSite (o.ctx x) = some w := fun w => Iff.rfl
  have hhalt : Ctx.haltInSlot { o.ctx x with request := q, source := src, state := st } = (o.ctx x).haltInSlot := rfl
  simp only [hin] at h2
  simp only [hhalt] at h4 h5
  have hst' : (o.ctx x).state.working = st.working ∧ ((o.ctx x).state = .measuring ↔ st = .measuring) ∧
      ((o.ctx x).state = .suspended ↔ st = .suspended) ∧ ((o.ctx x).state = .idle ↔ st = .idle) ∧
      ((o.ctx x).state = .holding ↔ st = .holding) ∧ ((o.ctx x).state = .releasing ↔ st = .releasing) ∧
      ((o.ctx x).state = .halted ↔ st = .halted) ∧ ((o.ctx x).state = .tripped ↔ st = .tripped) := by
    rcases hst with rfl | ⟨hb, rfl⟩
    · simp
    · rw [hb]; simp [CtxState.working]
  obtain ⟨e1, e2, e3, e4, e5, e6, e7, e8⟩ := hst'
  unfold TripLeaves
  simp only [e1, e2, e3, e4, e5, e6, e7, e8, ne_eq]
  refine ⟨by rw [hrest]; exact h1, fun w hw hi => ?_, fun hm hf => ?_, fun hw hf => ?_, fun hs hr => ?_, fun hs => ?_, fun hs => ?_,
    fun hs => ?_, fun hs => ?_⟩
  · obtain ⟨k1, k2, k3⟩ := h2 w hw hi
    exact ⟨hended w k1, by rw [hrest]; exact k2, by rw [hrest, ← hremember]; exact k3⟩
  · obtain ⟨k1, k2, k3, k4⟩ := h3 hm hf
    refine ⟨by rw [hrest]; exact k1, by rw [hrest]; exact k2, by rw [hrest]; exact k3, fun hu => ?_⟩
    obtain ⟨hbus, hused⟩ := hentry (e2.2 hm)
    rw [hbus, hused] at k4
    rw [hout]; exact List.mem_append_left _ (k4 hu)
  · obtain ⟨k1, k2⟩ := h4 hw hf
    exact ⟨by rw [hrest]; exact k1, fun hn => hsame _ hn k2 rfl⟩
  · obtain ⟨k1, k2⟩ := h5 hs hr
    exact ⟨by rw [hrest]; exact k1, fun hn => hsame _ hn k2 rfl⟩
  · rw [hrest]; exact h6 hs
  · rw [hrest]; exact h7 hs
  · rw [hrest]; exact h8 hs
  · rw [hrest]; exact h9 hs

/-! ### The bus that a trip stops (R58) -/

/-- What stands of an emergency open while nothing closes for the bus. -/
theorem EmergencyOpened.stands {o u v : State} {x : Bus} (h : EmergencyOpened o u x) (hs : ∀ p, (u.xp x p).Sinks (v.xp x p))
    (hl : ∀ p, OpeningListed u x p → OpeningListed v x p) : EmergencyOpened o v x := by
  intro p
  have hp := h p
  obtain ⟨hst, hm⟩ := hs p
  cases hx : (o.xp x p).state <;> simp only [hx] at hp ⊢
  case closed => exact (hl p hp.symm).symm
  all_goals simp_all

theorem emergencyQuiet_nearly (s : State) (x : Bus) : (s.ctx x).Nearly ((emergencyQuiet s x).ctx x) := by
  have hreq : (s.ctx x).Nearly ((s.modCtx x (fun c =>
      if c.request = some .quiet ∨ c.request = some .live then { c with request := none } else c)).ctx x) := by
    rw [State.ctx_modCtx_self]
    split
    · exact ⟨none, _, _, rfl, .inl rfl⟩
    · exact .refl _
  have hsrc : ∀ (u : State) (v : SrcState), (u.ctx x).Nearly ((u.setSource x v).ctx x) := fun u v => by
    rw [State.setSource, State.ctx_modCtx_self]; exact ⟨_, v, _, rfl, .inl rfl⟩
  unfold emergencyQuiet
  simp only [Bool.or_eq_true, decide_eq_true_eq]
  split
  · exact .refl _
  · split
    · exact hreq
    · exact hreq
    all_goals
      split
      · exact hreq.trans (hsrc (sendQuiet _ x) _)
      · exact hreq.trans (hsrc _ _)

/-- An emergency quiet leaves no SOURCE bus live (R52). -/
theorem emergencyQuiet_notLive {s : State} {x : Bus} (hk : (s.busEntry x).kind = .source) :
    ((emergencyQuiet s x).ctx x).source ≠ .live ∧ ((emergencyQuiet s x).ctx x).source ≠ .goingLive := by
  have hset : ∀ (u : State) (v : SrcState), ((u.setSource x v).ctx x).source = v := fun u v => by
    rw [State.setSource, State.ctx_modCtx_self]
  unfold emergencyQuiet
  rw [hk]
  simp only [bne_self_eq_false, Bool.false_eq_true, if_false]
  split
  · next h => rw [h]; exact ⟨nofun, nofun⟩
  · next h => rw [h]; exact ⟨nofun, nofun⟩
  all_goals
    split <;> (rw [hset]; exact ⟨nofun, nofun⟩)

theorem emergencyCleared_ctx (s : State) (x : Bus) : (emergencyCleared s x).ctx x = (s.ctx x).withoutOrders := by
  unfold emergencyCleared returnReservations
  dsimp only
  have hcards : ∀ (u : State) (f : CardCtl → CardCtl), (u.modCards f).ctx x = u.ctx x := fun u f => by
    have h : ∀ (l : List CardId) (u : State), (l.foldl (fun s c => s.setCard c (f (s.card c))) u).ctx x = u.ctx x := by
      intro l
      induction l with
      | nil => exact fun _ => rfl
      | cons c l ih => exact fun u => (ih _).trans rfl
    exact h _ u
  have hxps : ∀ (u : State) ps f, (u.modXps x ps f).ctx x = u.ctx x := fun u ps f => by rw [State.modXps_eq]; rfl
  have hwork : ∀ (u : State) w, (u.pushWork w).ctx x = u.ctx x := fun _ _ => rfl
  rw [hxps, hwork, hxps, hcards, State.ctx_modCtx_self]

theorem emergencyOpen_nearly (s : State) (x : Bus) : (s.ctx x).Nearly ((emergencyOpen s x).ctx x) := by
  have h : ((emergencyCleared s x).ctx x).Nearly ((emergencyOpen s x).ctx x) := ((emergencyOpen_run s x).spared id).nearly
  rw [emergencyCleared_ctx] at h
  refine Ctx.Nearly.trans ?_ h
  rcases (s.ctx x).withoutOrders_cases with e | e <;> rw [e]
  · exact .refl _
  · exact ⟨none, _, _, rfl, .inl rfl⟩

/-- An emergency open leaves the bus no make request (R35). -/
theorem emergencyOpen_noMake (s : State) (x : Bus) (r : MakeReq) : ((emergencyOpen s x).ctx x).request ≠ some (.make r) := by
  refine ((emergencyOpen_run s x).spared id).make (fun q hq => ?_) r
  rw [emergencyCleared_ctx] at hq
  unfold Ctx.withoutOrders at hq
  split at hq
  · cases hq
  · cases hq
  · next h _ => exact h _ hq

/-- Bus `x` has been stopped by a trip; `o` is the state that the command found (R58, R59). -/
structure Stopped (o u : State) (x : Bus) : Prop where
  tripped : u.tripped x = true
  state : (u.ctx x).state = .tripped
  leaves : TripLeaves o u x
  guardClass : u.trunk.attn.guard = true
  source : (u.busEntry x).kind = .source → (u.ctx x).source ≠ .live ∧ (u.ctx x).source ≠ .goingLive
  noMake : ∀ r, (u.ctx x).request ≠ some (.make r)
  unreserved : ∀ p, (u.xp x p).state ≠ .reserved
  opened : OpensFirst o → OpensFirst u ∧ EmergencyOpened o u x

theorem Stopped.barred {o u : State} {x : Bus} (h : Stopped o u x) : u.barred x ≠ none := by
  unfold State.barred
  rw [h.tripped]
  split <;> nofun

theorem Stopped.inert {o u : State} {x : Bus} (h : Stopped o u x) : Inert u x := .inl ⟨h.state, h.tripped⟩

/-- A stopped bus stays stopped. -/
theorem Stopped.stays {o u v : State} {x : Bus} (h : Stopped o u x) (ha : Apart x u v) (hr : (u.ctx x).Rests (v.ctx x))
    (hsrc : (v.busEntry x).kind = .source → (u.ctx x).source ≠ .live ∧ (u.ctx x).source ≠ .goingLive →
      (v.ctx x).source ≠ .live ∧ (v.ctx x).source ≠ .goingLive)
    (hmake : ∀ r, (v.ctx x).request ≠ some (.make r)) : Stopped o v x where
  tripped := ha.tripped.trans h.tripped
  state := by rw [hr.rest]; exact h.state
  leaves := h.leaves.transfer (.refl _) rfl rfl (fun _ => ⟨rfl, rfl⟩) ⟨[], (List.append_nil _).symm⟩ hr ha.records ha.out
  guardClass := ha.guardClass h.guardClass
  source := fun hk => hsrc hk (h.source (by rw [State.busEntry, ← ha.tables]; exact hk))
  noMake := hmake
  unreserved := fun p => ha.unreserved p (h.unreserved p)
  opened := fun ho => ⟨ha.opens (h.opened ho).1, (h.opened ho).2.stands (ha.sinks (h.opened ho).1) (ha.listed (h.opened ho).1)⟩

/-- The emergency open of a bus on a state that others have been at. -/
theorem emergencyOpen_opened {o s : State} {x : Bus} (ha : Apart x o s) (ho : OpensFirst o) :
    EmergencyOpened o (emergencyOpen s x) x := by
  have hs := ha.opens ho
  refine emergencyOpened_of (fun p => (ha.sinks ho p).cleared.trans (emergencyOpen_sinks hs x p)) (fun p hp => ?_)
  rcases (ha.sinks ho p).1 with h | ⟨-, h⟩ | ⟨h, -⟩
  · exact emergencyOpen_listed hs x (h.trans hp)
  · refine .inl ?_
    have hcl : ((s.xp x p).emergencyCleared).state = .opening := by rw [XRec.emergencyCleared, h]
    rcases (emergencyOpen_sinks hs x p).1 with h' | ⟨h', -⟩ | ⟨h', -⟩
    · exact h'.trans hcl
    · rw [hcl] at h'; cases h'
    · rw [hcl] at h'; cases h'
  · rw [hp] at h; cases h

theorem Apart.setTripped_both {x : Bus} {o s : State} (ha : Apart x o s) (b : Bool) :
    Apart x (o.setTripped x b) (s.setTripped x b) :=
  { ha with tripped := by simp [State.tripped_setTripped] }

/-- The trip of a bus stops it (R58). -/
theorem tripBus_stopped {o s : State} {x : Bus} (ha : Apart x o s) (hc : (o.ctx x).Nearly (s.ctx x)) :
    Stopped o (tripBus s x) x := by
  have kq := (Keeps.refl (Q := fun _ => True) (s.setTripped x true)).emergencyQuiet x
  have rq : Run False False (fun y => y = x) (s.setTripped x true) (emergencyQuiet (s.setTripped x true) x) :=
    Run.emergencyQuiet x rfl .refl
  have aq := (ha.setTripped_both true).trans (Apart.of_run kq rq (.inl id))
  have nq : (o.ctx x).Nearly ((emergencyQuiet (s.setTripped x true) x).ctx x) :=
    hc.trans (emergencyQuiet_nearly (s.setTripped x true) x)
  have hsrc : (((emergencyQuiet (s.setTripped x true) x).busEntry x).kind = .source) →
      ((emergencyQuiet (s.setTripped x true) x).ctx x).source ≠ .live ∧
        ((emergencyQuiet (s.setTripped x true) x).ctx x).source ≠ .goingLive := fun hk =>
    emergencyQuiet_notLive (by rwa [State.busEntry, kq.tables] at hk)
  have htrip : (emergencyQuiet (s.setTripped x true) x).tripped x = true := by
    rw [State.tripped, kq.guard, ← State.tripped, State.tripped_setTripped, if_pos rfl]
  have hbus : tripBus s x = (tripCtx (emergencyOpen (emergencyQuiet (s.setTripped x true) x) x) x).raise .guard := rfl
  rw [hbus]
  generalize emergencyQuiet (s.setTripped x true) x = u at aq nq hsrc htrip
  have ko := (Keeps.refl (Q := fun _ => True) u).emergencyOpen x
  have ro : Run False False (fun y => y = x) u (emergencyOpen u x) := Run.emergencyOpen x False.elim .refl
  have ao := aq.trans (Apart.of_run ko ro (.inl id))
  have kc := (Keeps.refl (Q := fun _ => True) (emergencyOpen u x)).tripCtx x
  have rc : Run False False (fun y => y = x) (emergencyOpen u x) (tripCtx (emergencyOpen u x) x) := Run.tripCtx x rfl .refl
  have ac := Apart.of_run kc rc (x := x) (.inl id)
  have hbar : ∀ {v : State}, v.guard = u.guard → v.barred x ≠ none := fun {v} e => by
    unfold State.barred
    rw [show v.tripped x = true by rw [State.tripped, e]; exact htrip]
    split <;> nofun
  obtain ⟨hstate, hleaves⟩ := tripCtx_leaves (emergencyOpen u x) x
  have hopened : OpensFirst o → EmergencyOpened o (emergencyOpen u x) x :=
    emergencyOpen_opened (o := o.setTripped x true) aq
  have hmake := emergencyOpen_noMake u x
  have hfree := emergencyOpen_unreserved u x
  have no := nq.trans (emergencyOpen_nearly u x)
  generalize tripCtx (emergencyOpen u x) x = w at *
  generalize emergencyOpen u x = v at *
  exact
    { tripped := (ac.tripped.trans (congrArg (fun g : Guard => g.trips[x]) ko.guard)).trans htrip
      state := hstate
      leaves := TripLeaves.transfer (o := o) hleaves no (by rw [ao.tables]; rfl) (by rw [ao.tables]; rfl)
        (fun _ => ⟨by unfold State.busEntry; rw [ao.tables]; rfl, ao.channelUsable⟩) ao.records
        (.refl _) ⟨[], (List.append_nil _).symm⟩ ⟨[], (List.append_nil _).symm⟩
      guardClass := rfl
      source := fun hk => Run.notLive (t := w) (ro.trans rc) (hbar rfl) (hsrc (by
        have hk' : (w.busEntry x).kind = .source := hk
        rwa [State.busEntry, kc.tables, ko.tables] at hk'))
      noMake := rc.noMake (hbar ko.guard) hmake
      unreserved := fun p => ac.unreserved p (hfree p)
      opened := fun ho => by
        exact ⟨ac.opens (ao.opens ho), (hopened ho).stands (ac.sinks (ao.opens ho)) (ac.listed (ao.opens ho))⟩ }

/-! ### Trips one after another (R57) -/

/-- A trip sets the flag of its bus, and changes nothing else of the guard unit (R57). -/
theorem evaluate_guard (s : State) (y : Bus) :
    (evaluate s y).guard = if tripsNow s y = true then { s.guard with trips := s.guard.trips.set y true } else s.guard := by
  unfold evaluate
  split
  · have k : Keeps (fun _ => True) (s.setTripped y true) (tripBus s y) :=
      ((((Keeps.refl _).emergencyQuiet y).emergencyOpen y).tripCtx y).raise _
    rw [k.guard]; rfl
  · rfl

/-- A stopped bus stays so while others trip. -/
theorem Stopped.evaluate {o u : State} {x : Bus} (h : Stopped o u x) (y : Bus) : Stopped o (evaluate u y) x := by
  by_cases hne : y = x
  · subst hne
    have hnot : tripsNow u y = false := by simp [tripsNow, h.tripped]
    rw [Machine.evaluate, hnot]
    exact h
  · obtain ⟨ha, hs⟩ := evaluate_apart hne u
    refine h.stays ha (hs.rests (by rw [h.state]; nofun)) (fun _ hl => ?_) (hs.make h.noMake)
    rw [hs.rest]; exact hl

theorem Stopped.foldl_evaluate {o u : State} {x : Bus} (l : List Bus) (h : Stopped o u x) : Stopped o (l.foldl Machine.evaluate u) x := by
  induction l generalizing u with
  | nil => exact h
  | cons y l ih => exact ih (h.evaluate y)

/-- A bus that trips among others is stopped. -/
theorem foldl_evaluate_stopped {o s : State} {x : Bus} (l : List Bus) (ha : Apart x o s) (hn : (o.ctx x).Nearly (s.ctx x))
    (hf : s.tripped x = false) (ht : (l.foldl evaluate s).tripped x = true) : Stopped o (l.foldl evaluate s) x := by
  induction l generalizing s with
  | nil => exact absurd (hf.symm.trans ht) nofun
  | cons y l ih =>
    by_cases hne : y = x
    · subst hne
      by_cases htrip : tripsNow s y = true
      · have hstop : Stopped o (evaluate s y) y := by
          rw [evaluate, if_pos htrip]; exact tripBus_stopped ha hn
        exact hstop.foldl_evaluate l
      · have hsame : evaluate s y = s := by rw [evaluate, if_neg htrip]
        rw [List.foldl_cons, hsame] at ht ⊢
        exact ih ha hn hf ht
    · obtain ⟨hb, hs⟩ := evaluate_apart hne s
      exact ih (ha.trans hb) (hn.trans hs.nearly) (hb.tripped.trans hf) ht

/-! ### The end of the command -/

/-- A stopped bus is stopped when the command is done. -/
theorem Stopped.finish {o u : State} {x : Bus} (h : Stopped o u x) : Stopped o (finish u) x := by
  have kd := drain_keeps u
  have rd : Run False True (fun _ => True) u (drain drainBound u) := Run.drain drainBound trivial (fun _ => trivial) .refl
  have hd : Stopped o (drain drainBound u) x :=
    h.stays (.of_run kd rd (.inr ⟨h.barred, h.noMake⟩)) (drain_inert drainBound h.inert).1
      (fun _ hl => rd.notLive h.barred hl) (rd.noMake h.barred h.noMake)
  have hp := panelCheck_only (drain drainBound u)
  have hctx : ((Machine.finish u).ctx x) = ((drain drainBound u).ctx x) := by
    rw [Machine.finish, State.ctx, pump_ctxs, hp.ctxs]; rfl
  have hxp : ∀ p, ((Machine.finish u).xp x p) = ((drain drainBound u).xp x p) := fun p => by
    rw [Machine.finish, State.xp, pump_matrix, hp.matrix]; rfl
  have hcard : ∀ c, ((Machine.finish u).card c) = ((drain drainBound u).card c) := fun c => by
    rw [Machine.finish, State.card, pump_matrix, hp.matrix]; rfl
  have hend : Apart x (drain drainBound u) (Machine.finish u) :=
    { tables := by rw [Machine.finish, pump_tables, hp.tables]
      lanes := by rw [Machine.finish, pump_lanes, hp.lanes]
      tripped := by rw [Machine.finish, State.tripped, pump_guard, hp.guard]; rfl
      opens := fun ho c => by rw [hcard]; exact ho c
      sinks := fun _ p => by rw [hxp]; exact .refl _
      listed := fun _ p hl => by
        unfold OpeningListed State.inPriority at *
        rwa [hxp, hcard]
      unreserved := fun p hr => by rwa [hxp]
      out := ⟨[], by rw [Machine.finish, pump_out, hp.out, List.append_nil]⟩
      records := by obtain ⟨l, hl⟩ := hp.records; exact ⟨l, by rw [Machine.finish, pump_queue, hl]⟩
      guardClass := fun hg => by rw [Machine.finish, pump_attn, hp.attn]; exact hg }
  exact hd.stays hend (by rw [hctx]; exact .refl _) (fun _ hl => by rwa [hctx]) (by rw [hctx]; exact hd.noMake)

end Sys2Proof.Machine
end

