-- ==== Sys2Proof/Proofs/TripEvents.lean ====
section
/-!
PROOFS. The commands that can trip a bus: O7 and O8.
-/

-- One proof after another: in the joined text each worker would hold a stack of its own.
set_option Elab.async false

namespace Sys2Proof.Machine

/-! ### Emergency opens of every bus (R35) -/

/-- The second of two emergency opens finds what the first left. -/
theorem EmergencyOpened.trans {s u t : State} {x : Bus} (h : EmergencyOpened s u x) (k : EmergencyOpened u t x) :
    EmergencyOpened s t x := by
  intro p
  have hp := h p
  have kp := k p
  cases hx : (s.xp x p).state <;> simp only [hx] at hp ⊢
  case closed =>
    rcases hp with ⟨hc, -⟩ | hc
    · simpa only [hc] using kp
    · simp only [hc] at kp; exact .inr kp.1
  all_goals simp_all

theorem emergencyOpen_apart (s : State) (x y : Bus) : Apart x s (emergencyOpen s y) :=
  .of_run ((Keeps.refl (Q := fun _ => True) s).emergencyOpen y)
    (Run.emergencyOpen (L := False) (C := False) (Y := fun _ => False) y False.elim .refl) (.inl id)

theorem foldl_emergencyOpen_apart (l : List Bus) (s : State) (x : Bus) : Apart x s (l.foldl emergencyOpen s) := by
  induction l generalizing s with
  | nil => exact .refl _ _
  | cons y l ih => exact (emergencyOpen_apart s x y).trans (ih _)

/-- With the emergency open of every bus made, that of each is made (R35). -/
theorem foldl_emergencyOpen_opened {o s : State} {x : Bus} (l : List Bus) (hx : x ∈ l) (ha : Apart x o s) :
    (∀ p, ((l.foldl emergencyOpen s).xp x p).state ≠ .reserved) ∧
      (OpensFirst o → EmergencyOpened o (l.foldl emergencyOpen s) x) := by
  induction l generalizing s with
  | nil => cases hx
  | cons y l ih =>
    by_cases hl : x ∈ l
    · exact ih hl (ha.trans (emergencyOpen_apart s x y))
    · obtain rfl := (List.mem_cons.1 hx).resolve_right hl
      have hb := foldl_emergencyOpen_apart l (emergencyOpen s x) x
      rw [List.foldl_cons]
      refine ⟨fun p => hb.unreserved p (emergencyOpen_unreserved s x p), fun ho => ?_⟩
      have hs := (emergencyOpen_apart s x x).opens (ha.opens ho)
      exact (emergencyOpen_opened ha ho).stands (hb.sinks hs) (hb.listed hs)

/-! ### What a trip leaves, command by command -/

/-- Bus `x` is stopped, told of the state that the command found, but for what TRIPPED remembers (R58). -/
def OutOfService (s t : State) (x : Bus) : Prop :=
  (t.ctx x).state = .tripped ∧ t.trunk.attn.guard = true ∧
    ((t.busEntry x).kind = .source → (t.ctx x).source ≠ .live ∧ (t.ctx x).source ≠ .goingLive) ∧
    (∀ p : Pt, (t.xp x p).state ≠ .reserved) ∧ (OpensFirst s → EmergencyOpened s t x)

theorem Stopped.outOfService {o t : State} {x : Bus} (h : Stopped o t x) : OutOfService o t x :=
  ⟨h.state, h.guardClass, h.source, h.unreserved, fun ho => (h.opened ho).2⟩

/-- A response changes nothing of a stopped bus. -/
theorem Stopped.putWrite {o u : State} {x : Bus} (h : Stopped o u x) (tag : Half) (p : List Byte) (pos : Nat) (q : Resp) :
    Stopped o (u.putWrite tag p pos q) x := { h with }

theorem Stopped.respond {o u : State} {x : Bus} (h : Stopped o u x) (tag : Half) (kind : Byte) (st : Status) (data : List Byte) :
    Stopped o (u.respond tag kind st data) x := { h with }

theorem Stopped.raiseSite {o u : State} {x : Bus} (h : Stopped o u x) : Stopped o (u.raise .site) x := { h with }

/-- An emergency open is a matter of the matrix alone. -/
theorem EmergencyOpened.atMatrix {s t u : State} {x : Bus} (h : EmergencyOpened s t x) (hm : u.matrix = t.matrix) :
    EmergencyOpened s u x := by
  have hxp : ∀ p, u.xp x p = t.xp x p := fun p => by rw [State.xp, hm]; rfl
  have hcard : ∀ c, u.card c = t.card c := fun c => by rw [State.card, hm]; rfl
  intro p
  have hp := h p
  unfold State.inPriority at *
  rwa [hxp, hcard]

/-- What is told of one state is told of another with the same matrix. -/
theorem OutOfService.congr {s o t : State} {x : Bus} (h : OutOfService o t x) (hm : o.matrix = s.matrix) : OutOfService s t x := by
  obtain ⟨h1, h2, h3, h4, h5⟩ := h
  have hxp : ∀ p, o.xp x p = s.xp x p := fun p => by rw [State.xp, hm]; rfl
  have hcard : ∀ c, o.card c = s.card c := fun c => by rw [State.card, hm]; rfl
  refine ⟨h1, h2, h3, h4, fun ho p => ?_⟩
  have := h5 (fun c => by rw [hcard]; exact ho c) p
  rwa [hxp] at this

/-- Some buses are evaluated, and the command ends. -/
theorem evaluated_stopped {s : State} {x : Bus} {which : BusEntry → Bool} (hf : s.tripped x = false)
    (ht : (finish (evaluateThose s which)).tripped x = true) : Stopped s (finish (evaluateThose s which)) x := by
  have ht' : (evaluateThose s which).tripped x = true := by
    rw [State.tripped, ← finish_guard]; exact ht
  exact (foldl_evaluate_stopped _ (.refl _ _) (.refl _) hf ht').finish

/-- The states that a TABLE WRITE can end in: its entry is applied, or the guard unit stands (R190). -/
theorem takeWrite_cases (s : State) (code size : Nat) (tag : Half) (p : List Byte) (pos : Nat)
    (take : State → Nat → List Byte → EntryAns) (after : State → State) :
    (takeWrite s code size tag p pos take after).guard = s.guard ∨ ∃ i b u q, take s i b = .applied u ∧
      takeWrite s code size tag p pos take after = after (u.putWrite tag p pos q) := by
  have hentry : (writeEntry s tag p size pos take after).guard = s.guard ∨ ∃ i b u q, take s i b = .applied u ∧
      writeEntry s tag p size pos take after = after (u.putWrite tag p pos q) := by
    cases ht : take s (numAt16 p 2 + pos) (writeBytes p size pos) with
    | refused st => left; rw [writeEntry_refused ht, pump_guard]; rfl
    | applied u => exact .inr ⟨_, _, u, _, ht, writeEntry_applied ht⟩
  unfold takeWrite
  split
  · next hp =>
    subst hp
    split
    · exact .inl rfl
    · split
      · exact .inl (pump_guard _)
      · split
        · exact .inl (pump_guard _)
        · split
          · exact .inl rfl
          · split
            · exact .inl (pump_guard _)
            · exact hentry
  · split
    · exact hentry
    · exact .inl rfl

/-- An applied BUS entry: the entry is its bus's already, or the bus is free (R44). -/
theorem takeBus_applied {s u : State} {i : Nat} {b : List Byte} (h : takeBus s i b = .applied u) :
    ∃ y e, u = applyBus s y e ∧ (e = s.busEntry y ∨ busFree s y = true) := by
  unfold takeBus at h
  split at h
  · cases h
  · next y _ =>
    split at h
    · cases h
    · next e _ =>
      split at h
      · cases h
      · next hfree =>
        split at h
        · cases h
        · cases h
          refine ⟨y, e, rfl, ?_⟩
          by_contra hne
          rw [not_or] at hne
          exact hfree ⟨hne.1, by simpa using hne.2⟩

/-- A bus that the command found untripped is out of service, and its context is left by R58 and R59. -/
def TripsBus (s t : State) (x : Bus) : Prop := OutOfService s t x ∧ TripLeaves s t x

/-- What is told of a state is told of one that differs in its guard unit, its lanes' error counts and what is shown. -/
theorem Stopped.tripsBus {s o t : State} {x : Bus} (h : Stopped o t x) (hm : o.matrix = s.matrix) (ht : o.tables = s.tables)
    (hc : o.ctxs = s.ctxs) (hq : o.queue = s.queue) (hu : o.channelUsable x = s.channelUsable x) : TripsBus s t x := by
  refine ⟨h.outOfService.congr hm, h.leaves.transfer ?_ (by rw [ht]) (by rw [ht])
    (fun _ => ⟨by unfold State.busEntry; rw [ht], hu⟩) ⟨[], by rw [hq, List.append_nil]⟩ (.refl _)
    ⟨[], (List.append_nil _).symm⟩ ⟨[], (List.append_nil _).symm⟩⟩
  rw [State.ctx, State.ctx, hc]
  exact .refl _

/-! ### RACK RESET before its trips -/

/-- RACK RESET has cleared the classes and entered SAFE (R157, R196). -/
def resetSafe (s : State) : State :=
  (s.modTrunk (fun t => { t with attn := AttnSet.empty })).modGuard (fun g => { g with rack := .safe .reset })

/-- RACK RESET up to the clearing of the trip flags (R196). -/
def resetBefore (s : State) : State :=
  resetPanel (resetQueue (allBuses.foldl resetCtx (allBuses.foldl emergencyOpen (resetSafe s))))

theorem resetCtx_matrix (s : State) (x : Bus) : (resetCtx s x).matrix = s.matrix := by
  have h : (if (s.ctx x).state = .measuring then cancelTake s x else s).matrix = s.matrix := by
    split
    · exact cancelTake_matrix s x
    · rfl
  unfold resetCtx resetSource
  rw [← h]
  generalize (if (s.ctx x).state = .measuring then cancelTake s x else s) = u
  split <;> rfl

theorem resetBefore_matrix (s : State) :
    (resetBefore s).matrix = (allBuses.foldl emergencyOpen (resetSafe s)).matrix := by
  have hfold : ∀ (l : List Bus) (u : State), (l.foldl resetCtx u).matrix = u.matrix := by
    intro l
    induction l with
    | nil => exact fun _ => rfl
    | cons y l ih => exact fun u => (ih _).trans (resetCtx_matrix u y)
  have hpanel : ∀ u : State, (resetPanel u).matrix = u.matrix := fun u => by unfold resetPanel; split <;> rfl
  have hqueue : ∀ u : State, (resetQueue u).matrix = u.matrix := fun _ => rfl
  rw [resetBefore, hpanel, hqueue, hfold]

/-- RACK RESET after that: the flags are cleared, and the buses evaluated (R61, R196). -/
theorem rackReset_eq (s : State) : rackReset s =
    if anyDelta (resetTrips (resetBefore s)) then (resetTrips (resetBefore s)).raise .site else resetTrips (resetBefore s) := by
  unfold rackReset resetBefore resetSafe; rfl

section
variable {s t : State} {x : Bus} (hf : s.tripped x = false) (ht : t.tripped x = true)
include hf ht

theorem tripInChange_trips {v : Bool} (he : exec (.tripInChange v) s = .next t) : TripsBus s t x := by
  unfold exec execTripInChange at he
  dsimp only at he
  split at he
  · cases he; exact absurd (hf.symm.trans ht) nofun
  · cases he
    have hf' : (s.begin.modGuard (fun g => { g with tripIn := v })).tripped x = false := hf
    exact (evaluated_stopped hf' ht).tripsBus rfl rfl rfl rfl rfl

theorem fxChange_trips {n : Fin 4} {v : Bool} (he : exec (.fxChange n v) s = .next t) : TripsBus s t x := by
  unfold exec execFxChange at he
  dsimp only at he
  split at he
  · cases he; exact absurd (hf.symm.trans ht) nofun
  · cases he
    have hf' : (s.begin.modGuard (fun g => { g with fx := g.fx.set n v })).tripped x = false := hf
    exact (evaluated_stopped hf' ht).tripsBus rfl rfl rfl rfl rfl

theorem trip_trips {l : LaneId} {ch v : Byte} (he : exec (.trip l ch v) s = .next t) : TripsBus s t x := by
  have hgood : (goodFrame s.begin l).tripped x = false := by rw [goodFrame_eq]; exact hf
  have hsame : (goodFrame s.begin l).tripped x = t.tripped x → TripsBus s t x := fun e => by
    rw [hgood, ht] at e; cases e
  have hu : (goodFrame s.begin l).channelUsable x = s.channelUsable x := by
    have hbus : (goodFrame s.begin l).busEntry x = s.busEntry x := by rw [goodFrame_eq]; rfl
    unfold State.channelUsable
    simp only [hbus, goodFrame_laneHasInstrument, goodFrame_channels]
  unfold exec execTrip at he
  dsimp only at he
  split at he
  · split at he
    · split at he
      · cases he; exact hsame rfl
      · next hne =>
        cases he
        rename_i ch' v' _ _
        rw [setInstTrip, if_neg hne] at ht ⊢
        have hf' : ((goodFrame s.begin l).modGuard (fun g => { g with
            instTrips := g.instTrips.set (tripNo l ch') v' })).tripped x = false := hgood
        have hmatrix : (goodFrame s.begin l).matrix = s.matrix := by rw [goodFrame_eq]; rfl
        have htables : (goodFrame s.begin l).tables = s.tables := by rw [goodFrame_eq]; rfl
        have hctxs : (goodFrame s.begin l).ctxs = s.ctxs := by rw [goodFrame_eq]; rfl
        have hqueue : (goodFrame s.begin l).queue = s.queue := by rw [goodFrame_eq]; rfl
        exact (evaluated_stopped hf' ht).tripsBus hmatrix htables hctxs hqueue hu
    · cases he; exact hsame rfl
  · cases he; exact hsame rfl

theorem tableWriteBus_trips {tag : Half} {p : List Byte} {pos : Nat} (he : exec (.tableWriteBus tag p pos) s = .next t) :
    TripsBus s t x := by
  have he' : takeWrite s.begin 2 6 tag p pos takeBus finish = t := by cases he; rfl
  rcases takeWrite_cases s.begin 2 6 tag p pos takeBus finish with hg | ⟨i, b, u, q, hu, hw⟩
  · rw [he'] at hg
    rw [State.tripped, hg] at ht
    exact absurd (hf.symm.trans ht) nofun
  · rw [he'] at hw
    obtain ⟨y, e, rfl, hfree⟩ := takeBus_applied hu
    have ht' : (applyBus s.begin y e).tripped x = true := by
      rw [hw, State.tripped, finish_guard] at ht
      exact ht
    set w := (s.begin.modTables (fun k => { k with buses := k.buses.set y e })).modCtx y
      (fun c => { c with source := sourceAfterWrite (s.begin.busEntry y) e c.source }) with hwdef
    have happly : applyBus s.begin y e = [y].foldl evaluate w := rfl
    rw [happly] at ht' hw
    have hyx : y = x := by
      by_contra hne
      exact absurd ((((evaluate_apart hne w).1.tripped).trans hf).symm.trans ht') nofun
    subst hyx
    have hstop := (foldl_evaluate_stopped [y] (.refl y w) (.refl _) hf ht').putWrite tag p pos q
    rw [hw]
    have hentry : w.busEntry y = e := by simp [hwdef, State.busEntry, State.modCtx, State.modTables, State.setCtx]
    refine ⟨hstop.finish.outOfService.congr rfl, hstop.finish.leaves.transfer ?_ rfl rfl (fun hm => ?_)
      ⟨[], (List.append_nil _).symm⟩ (.refl _) ⟨[], (List.append_nil _).symm⟩ ⟨[], (List.append_nil _).symm⟩⟩
    · rw [hwdef, State.ctx_modCtx_self]
      exact ⟨_, sourceAfterWrite (s.begin.busEntry y) e (s.ctx y).source, _, rfl, .inl rfl⟩
    · rcases hfree with he | hfree
      · have hsame : w.busEntry y = s.busEntry y := hentry.trans he
        refine ⟨hsame, ?_⟩
        unfold State.channelUsable
        rw [hsame]
        rfl
      · have hidle : (s.ctx y).state = .idle ∨ (s.ctx y).state = .tripped := by
          simp only [busFree, Bool.and_eq_true, Bool.or_eq_true, beq_iff_eq] at hfree
          exact hfree.1.1.1.imp id And.left
        rw [hm] at hidle
        rcases hidle with h | h <;> cases h

theorem rackReset_trips {tag : Half} (he : exec (.rackReset tag []) s = .next t) : OutOfService s t x := by
  have he' : takeCommand s.begin 0x0B#8 tag [] 0 (fun s => .ran (rackReset s) []) = t := by cases he; rfl
  by_cases hroom : s.trunk.responses.length < 32
  swap
  · rw [takeCommand_full (s := s.begin) (Nat.not_lt.1 hroom)] at he'
    subst he'
    exact absurd (hf.symm.trans ht) nofun
  have hroom' : s.begin.trunk.responses.length < 32 := hroom
  rw [takeCommand_taken hroom' (p := []) (n := 0) rfl] at he'
  have hend : finish ((rackReset s.begin).respond tag 0x0B#8 .ok []) = t := he'
  set w := (resetBefore s.begin).modGuard (fun g => { g with trips := Vector.replicate 8 false }) with hw
  have hclear : w.tripped x = false := by simp [hw, State.tripped, State.modGuard]
  have hmatrix : w.matrix = (allBuses.foldl emergencyOpen (resetSafe s.begin)).matrix := by
    have hguard : ∀ (u : State) f, (u.modGuard f).matrix = u.matrix := fun _ _ => rfl
    rw [hw, hguard, resetBefore_matrix]
  have hflag : (rackReset s.begin).tripped x = true := by
    have hresp : ∀ u : State, (u.respond tag 0x0B#8 .ok []).guard = u.guard := fun _ => rfl
    rw [← hend, State.tripped, finish_guard, hresp] at ht
    rw [State.tripped, ht]
  have hdelta : Stopped w (rackReset s.begin) x := by
    have hstopped := foldl_evaluate_stopped (o := w) allBuses (.refl x w) (.refl _) hclear
    have htrips : resetTrips (resetBefore s.begin) = allBuses.foldl evaluate w := by rw [resetTrips]
    rw [← htrips] at hstopped
    rw [rackReset_eq] at hflag ⊢
    generalize resetTrips (resetBefore s.begin) = v at *
    have hraise : ∀ u : State, (u.raise .site).tripped x = u.tripped x := fun _ => rfl
    split at hflag
    · next hd =>
      rw [hraise] at hflag
      rw [if_pos hd]
      exact (hstopped hflag).raiseSite
    · next hd => rw [if_neg hd]; exact hstopped hflag
  clear_value w
  have hdone := (hdelta.respond tag 0x0B#8 .ok []).finish
  rw [hend] at hdone
  obtain ⟨h1, h2, h3, h4, h5⟩ := hdone.outOfService
  refine ⟨h1, h2, h3, h4, fun ho => ?_⟩
  obtain ⟨-, hopened⟩ := foldl_emergencyOpen_opened (s := resetSafe s.begin) allBuses (List.mem_finRange x) (.refl _ _)
  have hopens := (foldl_emergencyOpen_apart allBuses (resetSafe s.begin) x).opens ho
  have hwo : OpensFirst w := opensFirst_congr (by rw [hmatrix]) hopens
  exact EmergencyOpened.trans ((hopened ho).atMatrix hmatrix) (h5 hwo)

end

/-- POWER_RESET clears every trip flag. -/
theorem powerReset_untripped {s t : State} (he : exec .powerReset s = .next t) (x : Bus) : t.tripped x = false := by
  cases he
  simp [State.tripped, State.initial, Guard.initial]

/-! ### Which buses trip (R55, R57) -/

theorem LeavesStores.refl (s : State) : LeavesStores s s :=
  ⟨rfl, rfl, rfl, rfl, fun _ _ => rfl, fun _ => rfl, ⟨[], (List.append_nil _).symm⟩, fun _ => .refl _⟩

theorem LeavesStores.trans {s t u : State} (h : LeavesStores s t) (k : LeavesStores t u) : LeavesStores s u := by
  obtain ⟨h1, h2, h3, h4, h5, h6, ⟨l, h7⟩, h8⟩ := h
  obtain ⟨k1, k2, k3, k4, k5, k6, ⟨m, k7⟩, k8⟩ := k
  exact ⟨k1.trans h1, k2.trans h2, k3.trans h3, k4.trans h4, fun x p => (k5 x p).trans (h5 x p), fun c => (k6 c).trans (h6 c),
    ⟨l ++ m, by rw [k7, h7, List.append_assoc]⟩, fun u => (h8 u).trans (k8 u)⟩

/-- The inside of a command leaves the stores. -/
theorem Keeps.leaves {Q : Rec → Prop} {s t : State} (k : Keeps Q s t) : LeavesStores s t :=
  ⟨k.tables, k.lanes, k.freeCount, k.panelNumber, fun _ _ => k.wear _, k.reasons, k.records.imp (fun _ h => h.1), k.verdicts⟩

theorem evaluate_leaves (s : State) (y : Bus) : LeavesStores s (evaluate s y) := by
  unfold evaluate
  split
  · have k : Keeps (fun _ => True) (s.setTripped y true) (tripBus s y) :=
      ((((Keeps.refl _).emergencyQuiet y).emergencyOpen y).tripCtx y).raise _
    exact k.leaves
  · exact .refl s

/-- From s to t some buses of a list have tripped: the flags of those that an evaluation finds, and with one GUARD (R57). -/
structure Evaluated (s t : State) (l : List Bus) : Prop where
  leaves : LeavesStores s t
  guard : t.guard = { s.guard with trips := t.guard.trips }
  flags : ∀ x, t.tripped x = (s.tripped x || (decide (x ∈ l) && (s.busEntry x).enabled && asserted s x))
  raised : (∃ x, t.tripped x ≠ s.tripped x) ∨ s.trunk.attn.guard = true → t.trunk.attn.guard = true

/-- Whether a guard source is asserted rests on the tables and the guard unit, the trip flags apart (R55). -/
theorem asserted_congr {s t : State} (ht : t.tables = s.tables) (hg : t.guard = { s.guard with trips := t.guard.trips }) (x : Bus) :
    asserted t x = asserted s x := by
  have hbus : t.busEntry x = s.busEntry x := by rw [State.busEntry, ht]; rfl
  have hinst : t.guard.instTrips = s.guard.instTrips := by rw [hg]
  have hline : t.guard.tripIn = s.guard.tripIn := by rw [hg]
  have hfx : t.guard.fx = s.guard.fx := by rw [hg]
  unfold asserted
  simp only [hbus, hinst, hline, hfx]

theorem evaluate_evaluated (s : State) (y : Bus) : Evaluated s (evaluate s y) [y] := by
  have hg := evaluate_guard s y
  refine ⟨evaluate_leaves s y, ?_, fun x => ?_, fun h => ?_⟩
  · rw [hg]; split <;> rfl
  · rw [State.tripped, hg]
    by_cases ht : tripsNow s y = true
    · rw [if_pos ht]
      simp only [tripsNow, Bool.and_eq_true, Bool.not_eq_true'] at ht
      by_cases hx : x = y
      · subst hx; simp [ht]
      · have hne : ¬ y.val = x.val := fun e => hx (Fin.ext e.symm)
        simp [hx, hne, State.tripped]
    · rw [if_neg ht]
      by_cases hx : x = y
      · subst hx
        simp only [tripsNow, Bool.and_eq_true, Bool.not_eq_true', not_and, Bool.not_eq_true] at ht
        cases he : (s.busEntry x).enabled <;> cases hf : s.tripped x <;> simp_all [State.tripped]
      · simp [hx, State.tripped]
  · by_cases ht : tripsNow s y = true
    · rw [evaluate, if_pos ht]; rfl
    · have hsame : evaluate s y = s := by rw [evaluate, if_neg ht]
      rw [hsame] at h ⊢
      exact h.resolve_left (fun ⟨_, hx⟩ => hx rfl)

theorem Evaluated.cons {s t u : State} {y : Bus} {l : List Bus} (h : Evaluated s t [y]) (k : Evaluated t u l) :
    Evaluated s u (y :: l) := by
  refine ⟨h.leaves.trans k.leaves, by rw [k.guard, h.guard], fun x => ?_, fun hx => ?_⟩
  · have hbus : t.busEntry x = s.busEntry x := by rw [State.busEntry, h.leaves.1]; rfl
    rw [k.flags, h.flags, hbus, asserted_congr h.leaves.1 h.guard]
    have hmem : decide (x ∈ y :: l) = (decide (x ∈ [y]) || decide (x ∈ l)) := by simp
    rw [hmem]
    generalize s.tripped x = a, decide (x ∈ [y]) = b, decide (x ∈ l) = c, (s.busEntry x).enabled = d, asserted s x = e
    revert a b c d e
    decide
  · refine k.raised ?_
    by_cases hn : ∃ x, t.tripped x ≠ s.tripped x
    · exact .inr (h.raised (.inl hn))
    · rcases hx with ⟨x, hx⟩ | hx
      · refine .inl ⟨x, fun e => hn ⟨x, fun e' => hx (e.trans e')⟩⟩
      · exact .inr (h.raised (.inr hx))

theorem foldl_evaluated (l : List Bus) (s : State) : Evaluated s (l.foldl evaluate s) l := by
  induction l generalizing s with
  | nil =>
    exact ⟨.refl s, rfl, fun x => by simp, fun h => h.resolve_left (fun ⟨_, hx⟩ => hx rfl)⟩
  | cons y l ih => exact (evaluate_evaluated s y).cons (ih _)

/-- GUARD stays pending to the end of a command. -/
theorem finish_guardClass {s : State} (h : s.trunk.attn.guard = true) : (finish s).trunk.attn.guard = true := by
  rw [finish, pump_attn, (panelCheck_only _).attn]
  exact (drain_keeps s).guardClass h

/-- Some buses are evaluated and the command ends: what it leaves, and which buses have tripped (R55, R57). -/
theorem evaluated_ends (s : State) (which : BusEntry → Bool) :
    LeavesStores s (finish (evaluateThose s which)) ∧
    (finish (evaluateThose s which)).guard = { s.guard with trips := (finish (evaluateThose s which)).guard.trips } ∧
    (∀ x, (finish (evaluateThose s which)).tripped x =
      (s.tripped x || (which (s.busEntry x) && (s.busEntry x).enabled && asserted s x))) ∧
    ((∃ x, (finish (evaluateThose s which)).tripped x ≠ s.tripped x) → (finish (evaluateThose s which)).trunk.attn.guard = true) := by
  have h := foldl_evaluated (allBuses.filter (fun x => which (s.busEntry x))) s
  have hmem : ∀ x, decide (x ∈ allBuses.filter (fun x => which (s.busEntry x))) = which (s.busEntry x) := fun x => by
    simp [allBuses, List.mem_finRange]
  have htrip : ∀ x, (finish (evaluateThose s which)).tripped x = (evaluateThose s which).tripped x := fun x => by
    rw [State.tripped, finish_guard]; rfl
  refine ⟨h.leaves.trans (finish_leaves _), by rw [finish_guard]; exact h.guard, fun x => ?_, fun ⟨x, hx⟩ => ?_⟩
  · rw [htrip, ← hmem]; exact h.flags x
  · rw [htrip] at hx; exact finish_guardClass (h.raised (.inl ⟨x, hx⟩))

theorem exec_tripInChange {s : State} {v : Bool} (h : s.guard.tripIn ≠ v) : exec (.tripInChange v) s =
    .next (finish (evaluateThose (s.begin.modGuard (fun g => { g with tripIn := v })) (fun e => e.guardSource == .rackLine))) :=
  if_neg h

theorem exec_fxChange {s : State} {n : Fin 4} {v : Bool} (h : s.guard.fx[n] ≠ v) : exec (.fxChange n v) s =
    .next (finish (evaluateThose (s.begin.modGuard (fun g => { g with fx := g.fx.set n v }))
      (fun e => e.guardSource == .fixture n))) :=
  if_neg h

/-- A TRIP for a channel of an instrument lane (R54). -/
theorem exec_trip {s : State} {l : LaneId} {ch : Chan} (v : Bool) (hl : s.laneHasInstrument l = true)
    (hch : ch.val < (s.lane l).channels.val) : exec (.trip l (byte ch.val) (yesNo v)) s =
      .next (if s.guard.instTrips[tripNo l ch] = v then goodFrame s.begin l
        else finish (setInstTrip (goodFrame s.begin l) l ch v)) := by
  have hbyte : (byte ch.val).toNat = ch.val := by
    have := ch.isLt
    simp only [byte, BitVec.toNat_ofNat]; omega
  have hyes : yesNo? (yesNo v).toNat = some v := by cases v <;> rfl
  have hguard : (goodFrame s.begin l).guard = s.guard := by rw [goodFrame_eq]; rfl
  have hcond : ((goodFrame s.begin l).laneHasInstrument l &&
      decide (ch.val < ((goodFrame s.begin l).lane l).channels.val)) = true := by simp [hl, hch]
  show execTrip l (byte ch.val) (yesNo v) s = _
  unfold execTrip
  dsimp only
  rw [hbyte, hyes, fin?_val, hcond, if_pos rfl, hguard]
  dsimp only
  split <;> rfl

theorem exec_trip_changed {s : State} {l : LaneId} {ch : Chan} {v : Bool} (hl : s.laneHasInstrument l = true)
    (hch : ch.val < (s.lane l).channels.val) (hv : s.guard.instTrips[tripNo l ch] ≠ v) :
    exec (.trip l (byte ch.val) (yesNo v)) s = .next (finish (evaluateThose
      ((goodFrame s.begin l).modGuard (fun g => { g with instTrips := g.instTrips.set (tripNo l ch) v }))
      (fun e => e.lane == l && e.channel == ch))) := by
  have hguard : (goodFrame s.begin l).guard = s.guard := by rw [goodFrame_eq]; rfl
  rw [exec_trip v hl hch, if_neg hv, setInstTrip, hguard, if_neg hv]

theorem asserted_rackLine {s : State} {x : Bus} (h : (s.busEntry x).guardSource = .rackLine) : asserted s x = s.guard.tripIn := by
  simp only [asserted, h]

theorem asserted_fixture {s : State} {x : Bus} {n : Fin 4} (h : (s.busEntry x).guardSource = .fixture n) :
    asserted s x = s.guard.fx[n] := by
  simp only [asserted, h]

end Sys2Proof.Machine

open Sys2Proof Sys2Proof.Machine

/-- Settles O8: only an evaluation sets a trip flag, and the bus that it trips is stopped and stays so to the end of the
command (`Stopped`). -/
theorem trippedBusIsStopped : Obligations.TrippedBusIsStopped := by
  intro c s t x he hf ht
  suffices h : OutOfService s t x ∧ ((∀ tag p, c ≠ .rackReset tag p) → TripLeaves s t x) by
    obtain ⟨⟨h1, h2, h3, h4, h5⟩, h6⟩ := h
    exact ⟨h1, h2, h3, h4, h5, fun _ => h6⟩
  have hsettle : TripsBus s t x → OutOfService s t x ∧ ((∀ tag p, c ≠ .rackReset tag p) → TripLeaves s t x) :=
    fun h => ⟨h.1, fun _ => h.2⟩
  by_cases hc : c = .powerReset
  · subst hc
    exact absurd ((powerReset_untripped he x).symm.trans ht) nofun
  have htrip : c.acts s .trip := by
    by_contra hno
    exact absurd (((does_of_exec hc he).untripped hno hf).symm.trans ht) nofun
  rcases htrip with ⟨v, rfl⟩ | ⟨n, v, rfl⟩ | ⟨l, ch, v, rfl⟩ | ⟨tag, p, pos, rfl⟩ | ⟨tag, rfl⟩
  · exact hsettle (tripInChange_trips hf ht he)
  · exact hsettle (fxChange_trips hf ht he)
  · exact hsettle (trip_trips hf ht he)
  · exact hsettle (tableWriteBus_trips hf ht he)
  · exact ⟨rackReset_trips hf ht he, fun hno => absurd rfl (hno tag [])⟩

/-- Settles O7: the buses that the event evaluates are those that select its source, and an evaluation trips those that are
enabled and find it asserted (`evaluated_ends`). -/
theorem guardLinesTripTheirBuses : Obligations.GuardLinesTripTheirBuses := by
  intro s v
  refine ⟨fun hv => ⟨_, exec_tripInChange hv, ?_⟩, fun hv => if_pos hv, fun n hv => ⟨_, exec_fxChange hv, ?_⟩,
    fun n hv => if_pos hv, fun l ch hl hch => ⟨fun hv => onlyCountsGood_of ?_, fun hv => ⟨_, exec_trip_changed hl hch hv, ?_⟩⟩⟩
  · obtain ⟨h1, h2, h3, h4⟩ := evaluated_ends (s.begin.modGuard (fun g => { g with tripIn := v })) (fun e => e.guardSource == .rackLine)
    refine ⟨h1, h2, fun x => (h3 x).trans (congrArg (s.tripped x || ·) ?_), h4⟩
    show ((s.busEntry x).guardSource == .rackLine && (s.busEntry x).enabled && asserted _ x) = _
    cases hg : (s.busEntry x).guardSource == .rackLine with
    | false => simp
    | true =>
      have hg' : (s.busEntry x).guardSource = .rackLine := by simpa using hg
      have hline : asserted (s.begin.modGuard (fun g => { g with tripIn := v })) x = v :=
        asserted_rackLine (s := s.begin.modGuard (fun g => { g with tripIn := v })) hg'
      rw [hline, Bool.and_comm true]
  · obtain ⟨h1, h2, h3, h4⟩ := evaluated_ends (s.begin.modGuard (fun g => { g with fx := g.fx.set n v }))
      (fun e => e.guardSource == .fixture n)
    refine ⟨h1, h2, fun x => (h3 x).trans (congrArg (s.tripped x || ·) ?_), h4⟩
    show ((s.busEntry x).guardSource == .fixture n && (s.busEntry x).enabled && asserted _ x) = _
    cases hg : (s.busEntry x).guardSource == .fixture n with
    | false => simp
    | true =>
      have hg' : (s.busEntry x).guardSource = .fixture n := by simpa using hg
      have hline : asserted (s.begin.modGuard (fun g => { g with fx := g.fx.set n v })) x = v := by
        rw [asserted_fixture (s := s.begin.modGuard (fun g => { g with fx := g.fx.set n v })) hg']
        simp [State.modGuard]
      rw [hline, Bool.and_comm true]
  · rw [exec_trip v hl hch, if_pos hv]
  · obtain ⟨h1, h2, h3, h4⟩ := evaluated_ends ((goodFrame s.begin l).modGuard (fun g => { g with
      instTrips := g.instTrips.set (tripNo l ch) v })) (fun e => e.lane == l && e.channel == ch)
    have htables : (goodFrame s.begin l).tables = s.tables := by rw [goodFrame_eq]; rfl
    have hguard : (goodFrame s.begin l).guard = s.guard := by rw [goodFrame_eq]; rfl
    have hflag : ∀ x, (goodFrame s.begin l).tripped x = s.tripped x := fun x => by rw [State.tripped, hguard]; rfl
    refine ⟨h1.1.trans htables, h2.trans ?_, fun x => (h3 x).trans ?_, fun ⟨x, hx⟩ => h4 ⟨x, fun e => hx (e.trans (hflag x))⟩⟩
    · dsimp only [State.modGuard]
      rw [hguard]
    · have hbus : (goodFrame s.begin l).busEntry x = s.busEntry x := by rw [State.busEntry, htables]; rfl
      have hassert : asserted ((goodFrame s.begin l).modGuard (fun g => { g with
          instTrips := g.instTrips.set (tripNo l ch) v })) x =
          asserted { s with guard := { s.guard with instTrips := s.guard.instTrips.set (tripNo l ch) v } } x :=
        asserted_congr (t := (goodFrame s.begin l).modGuard (fun g => { g with
            instTrips := g.instTrips.set (tripNo l ch) v }))
          (s := { s with guard := { s.guard with instTrips := s.guard.instTrips.set (tripNo l ch) v } }) htables
          (by dsimp only [State.modGuard]; rw [hguard]) x
      rw [hassert]
      show ((goodFrame s.begin l).tripped x || (((goodFrame s.begin l).busEntry x).lane == l &&
        ((goodFrame s.begin l).busEntry x).channel == ch && ((goodFrame s.begin l).busEntry x).enabled && _)) = _
      rw [hflag, hbus]
      cases (s.busEntry x).enabled <;> simp
end

