-- ==== Sys2Proof/Proofs/AtRest.lean ====
section
/-!
PROOFS. Contexts while the rack is not READY: none comes to work. In SAFE with nothing asked of the matrix controller, the
consequences of a command are looks of contexts at rest, and they come to an end.
-/

-- One proof after another: in the joined text each worker would hold a stack of its own.
set_option Elab.async false

namespace Sys2Proof.Machine

/-! ### Entering IDLE and HALTED -/

theorem toIdle_eq (s : State) (x : Bus) : toIdle s x = (s.setCtx x (s.ctx x).idled).post (.poke x) := rfl

theorem toIdle_ctx (s : State) (x : Bus) : (toIdle s x).ctx x = (s.ctx x).idled := by
  rw [toIdle_eq]; exact State.ctx_setCtx_self _ _ _

theorem enterHalted_eq (s : State) (x : Bus) :
    enterHalted s x = (s.setCtx x { s.ctx x with state := .halted, relDone := false }).raise .step := rfl

theorem enterHalted_ctx (s : State) (x : Bus) :
    (enterHalted s x).ctx x = { s.ctx x with state := .halted, relDone := false } := by
  rw [enterHalted_eq]; exact State.ctx_setCtx_self _ _ _

theorem placeEnd_guard (s : State) (x : Bus) : (placeEnd s x).guard = s.guard :=
  ((Keeps.refl (Q := fun _ => False) s).placeEnd x).guard

theorem placeEnd_state (s : State) (x : Bus) : ((placeEnd s x).ctx x).state = (s.ctx x).state := by
  rw [(placeEnd_rests s x).rest]

/-! ### A look while the rack is not READY (R60, R83, R88, R89) -/

/-- What a look of bus `x` makes of `t`, in which its END is placed, while the rack is not READY: nothing, or with slot and END
clear its context goes to IDLE, to HALTED, or from TRIPPED to where it resumes. -/
inductive RestLook (t : State) (x : Bus) : State → Prop
  | stays : RestLook t x t
  | idles (hs : (t.ctx x).slot = none) (he : (t.ctx x).endPending = none)
      (hstate : (t.ctx x).state = .holding ∨ (t.ctx x).state = .releasing ∨ (t.ctx x).state = .suspended ∨ (t.ctx x).state = .tripped) :
      RestLook t x (toIdle t x)
  | halts (c : Ctx) (hc : c = t.ctx x ∨ c = { t.ctx x with resume := (t.ctx x).nextOrNone })
      (hs : (t.ctx x).slot = none) (he : (t.ctx x).endPending = none)
      (hstate : (t.ctx x).state = .releasing ∨ (t.ctx x).state = .tripped) :
      RestLook t x ((t.setCtx x { c with state := .halted, relDone := false }).raise .step)
  | suspends (hs : (t.ctx x).slot = none) (he : (t.ctx x).endPending = none) (hstate : (t.ctx x).state = .tripped) :
      RestLook t x (t.modCtx x (fun c => { c with state := .suspended }))

/-- A context at rest looks while the rack is not READY. -/
theorem poke_rest {s : State} {x : Bus} (hr : s.isReady = false) (hw : (s.ctx x).state.working = false) :
    RestLook (placeEnd s x) x (poke s x) := by
  have hr' : (placeEnd s x).isReady = false := by rw [isReady_congr (placeEnd_guard s x), hr]
  rw [← placeEnd_state] at hw
  unfold poke
  dsimp only
  generalize placeEnd s x = t at hr' hw
  have hmay : mayTake t x = false := by simp [mayTake, hr']
  rw [hmay, hr']
  cases hs : (t.ctx x).state <;> rw [hs] at hw
  case idle => simp only [Bool.and_false, Bool.false_eq_true, if_false]; exact .stays
  case holding =>
    simp only [Bool.and_false, Bool.false_eq_true, if_false, Bool.and_eq_true, Option.isNone_iff_eq_none]
    split
    · split
      · next hc => exact .idles hc.1 hc.2 (.inl hs)
      · exact .stays
    · exact .stays
  case releasing =>
    simp only [Bool.and_eq_true, Option.isNone_iff_eq_none]
    split
    · next hc =>
      unfold arrive
      split
      · exact .idles hc.2.1 hc.2.2 (.inr (.inl hs))
      · exact .halts _ (.inl rfl) hc.2.1 hc.2.2 (.inl hs)
    · exact .stays
  case suspended =>
    simp only [Bool.and_false, Bool.false_and, Bool.false_eq_true, if_false, Bool.and_eq_true, Option.isNone_iff_eq_none]
    split
    · split
      · next hc => exact .idles hc.1 hc.2 (.inr (.inr (.inl hs)))
      · exact .stays
    · exact .stays
  case tripped =>
    simp only [Bool.and_eq_true, Option.isNone_iff_eq_none]
    split
    · next hc =>
      unfold leaveTripped
      rw [hr']
      split
      · rw [if_neg Bool.false_ne_true]; exact .suspends hc.2.1 hc.2.2 hs
      · have hhalt : enterHalted (t.modCtx x (fun c => { c with resume := c.nextOrNone })) x =
            (t.setCtx x { { t.ctx x with resume := (t.ctx x).nextOrNone } with state := .halted, relDone := false }).raise .step := by
          rw [enterHalted_eq, State.ctx_modCtx_self, State.modCtx, State.setCtx_setCtx]
        rw [hhalt]
        exact .halts _ (.inr rfl) hc.2.1 hc.2.2 (.inr hs)
      · exact .idles hc.2.1 hc.2.2 (.inr (.inr (.inr hs)))
    · exact .stays
  case halted => exact .stays
  all_goals cases hw

theorem RestLook.notWorking {t u : State} {x : Bus} (h : RestLook t x u) (hw : (t.ctx x).state.working = false) :
    (u.ctx x).state.working = false := by
  cases h with
  | stays => exact hw
  | idles => rw [toIdle_ctx]; rfl
  | halts c _ _ _ _ =>
    have e : (((t.setCtx x { c with state := .halted, relDone := false }).raise .step).ctx x) =
        { c with state := .halted, relDone := false } := State.ctx_setCtx_self _ _ _
    rw [e]; rfl
  | suspends => rw [State.ctx_modCtx_self]; rfl

/-- The state of a context is not touched by a request for its claims (R30). -/
theorem opensRequest_state (s : State) (x : Bus) (ps : List Pt) (hb : (s.ctx x).state ≠ .blocked) :
    ((opensRequest s x ps).ctx x).state = (s.ctx x).state := by
  have hafter : Run False False (fun _ => False)
      (s.modCtx x (fun c => { c with request := some (.opens ⟨ps.filter (s.mustAwait x), false, false⟩) })) (opensRequest s x ps) :=
    Run.answerOpens x (Run.placeBreaks x _ ((Run.modXps_unreserved x _ .refl).pushWork _))
  have hstate := (hafter.spared (x := x) id).state
  rw [State.ctx_modCtx_self] at hstate
  exact hstate.resolve_right (fun h => hb h.1)

theorem judgeInvalid_state (s : State) (x : Bus) (cause : Cause) : ((judgeInvalid s x cause).ctx x).state = (s.ctx x).state := by
  obtain ⟨slot, m, hctx, -⟩ := judgeInvalid_leaves s x cause
  rw [hctx]; rfl

theorem releaseFails_state (s : State) (x : Bus) (cause : Cause) : ((releaseFails s x cause).ctx x).state = (s.ctx x).state := by
  unfold releaseFails
  dsimp only
  rw [State.ctx_modCtx_self]
  split
  · rw [State.ctx_modCtx_self]; exact judgeInvalid_state s x cause
  · rfl

theorem releaseAnswered_state (s : State) (x : Bus) (f : Option Cause) : ((releaseAnswered s x f).ctx x).state = (s.ctx x).state := by
  unfold releaseAnswered
  have hpost : ∀ (u : State) m, (u.post m).ctx x = u.ctx x := fun _ _ => rfl
  dsimp only
  rw [hpost, State.ctx_modCtx_self]
  cases f with
  | none => rfl
  | some cause =>
    have h : ∀ u : State, u.ctx x = s.ctx x → ((releaseFails u x cause).ctx x).state = (s.ctx x).state := fun u hu => by
      rw [releaseFails_state, hu]
    dsimp only
    split <;> exact h _ rfl

/-- Mail but a look does nothing to a context at rest that is not RELEASING. -/
theorem doMail_rest {s : State} {m : Mail} (hw : (s.ctx m.bus).state.working = false) (hr : (s.ctx m.bus).state ≠ .releasing)
    (hp : m ≠ .poke m.bus) : doMail s m = s := by
  have hstate : (s.ctx m.bus).state = .tripped ∨ (s.ctx m.bus).state = .halted ∨ (s.ctx m.bus).state = .idle ∨
      (s.ctx m.bus).state = .suspended ∨ (s.ctx m.bus).state = .holding := by
    revert hw hr
    cases (s.ctx m.bus).state <;> simp [CtxState.working]
  cases m with
  | poke x => exact absurd rfl hp
  | _ => rcases hstate with hs | hs | hs | hs | hs <;> simp_all [doMail, Mail.bus]

/-- Mail keeps a context RELEASING, but a look. -/
theorem doMail_releasing {s : State} {m : Mail} (hr : (s.ctx m.bus).state = .releasing) (hp : m ≠ .poke m.bus) :
    ((doMail s m).ctx m.bus).state = .releasing := by
  cases m with
  | poke x => exact absurd rfl hp
  | quieted x ok =>
    have hr' : (s.ctx x).state = .releasing := hr
    have hask : ∀ u : State, (u.ctx x).state = .releasing → ((askRelease u x).ctx x).state = .releasing := fun u hu => by
      rw [askRelease, opensRequest_state _ _ _ (by rw [hu]; nofun), hu]
    have hmail : doMail s (.quieted x ok) = askRelease (if ok then s else releaseFails s x .lane) x := by
      simp [doMail, hr']
    rw [hmail]
    refine hask _ ?_
    split
    · exact hr'
    · rw [releaseFails_state]; exact hr'
  | opened x f =>
    have hr' : (s.ctx x).state = .releasing := hr
    have hmail : doMail s (.opened x f) = releaseAnswered s x f := by simp [doMail, hr']
    rw [hmail]
    exact (releaseAnswered_state s x f).trans hr'
  | _ => simp_all [doMail, Mail.bus]

/-- Mail brings no context to work while the rack is not READY. -/
theorem doMail_notWorking {s : State} {m : Mail} (hr : s.isReady = false) (hw : (s.ctx m.bus).state.working = false) :
    ((doMail s m).ctx m.bus).state.working = false := by
  by_cases hp : m = .poke m.bus
  · rw [hp]
    exact (poke_rest hr hw).notWorking (by rw [placeEnd_state]; exact hw)
  · by_cases hrel : (s.ctx m.bus).state = .releasing
    · rw [doMail_releasing hrel hp]; rfl
    · rw [doMail_rest hw hrel hp]; exact hw

/-- A context that is spared does not come to work. -/
theorem Ctx.Spared.notWorking {c d : Ctx} (h : c.Spared d) (hw : c.state.working = false) : d.state.working = false := by
  rcases h.state with hs | ⟨hs, -⟩
  · rw [hs]; exact hw
  · rw [hs] at hw; cases hw

/-- The consequences of a command bring no context to work while the rack is not READY. -/
theorem drain_notWorking (n : Nat) {s : State} (hr : s.isReady = false) (hw : ∀ x, (s.ctx x).state.working = false) (x : Bus) :
    ((drain n s).ctx x).state.working = false := by
  induction n generalizing s with
  | zero => exact hw x
  | succ n ih =>
    unfold drain
    split
    · next w rest _ =>
      have r : Run False True (fun _ => False) { s with matrixWork := rest } (doMatrix { s with matrixWork := rest } w) :=
        Run.doMatrix w trivial .refl
      exact ih ((isReady_congr r.frame.2.2).trans hr) (fun y => (r.spared (x := y) id).notWorking (hw y))
    · next m rest _ _ =>
      have r : Run False True (fun y => y = m.bus) { s with mail := rest } (doMail { s with mail := rest } m) :=
        Run.doMail m trivial rfl .refl
      refine ih ((isReady_congr r.frame.2.2).trans hr) (fun y => ?_)
      by_cases hy : y = m.bus
      · subst hy
        exact doMail_notWorking (s := { s with mail := rest }) hr (hw _)
      · exact (r.spared hy).notWorking (hw y)
    · exact hw x

/-! ### What an emergency open leaves to do (R35) -/

/-- The matrix controller's open work, the mail and the contexts stand. -/
structure SameWork (s t : State) : Prop where
  ctxs : t.ctxs = s.ctxs
  work : t.matrixWork = s.matrixWork
  mail : t.mail = s.mail

theorem SameWork.refl (s : State) : SameWork s s := ⟨rfl, rfl, rfl⟩

theorem SameWork.trans {s t u : State} (h : SameWork s t) (k : SameWork t u) : SameWork s u :=
  ⟨k.ctxs.trans h.ctxs, k.work.trans h.work, k.mail.trans h.mail⟩

theorem setCard_sameWork (s : State) (c : CardId) (k : CardCtl) : SameWork s (s.setCard c k) := ⟨rfl, rfl, rfl⟩

theorem sendOrder_sameWork (s : State) (c : CardId) (o : Order) : SameWork s (sendOrder s c o) := by
  rw [sendOrder_eq, State.modXps_eq]; exact ⟨rfl, rfl, rfl⟩

/-- Nothing is pending or listed at a card: an open placed there is sent at once (R22). -/
theorem placePriority_idle {s : State} {c : CardId} {o : Order} (h : (s.card c).idle = true) (hn : o.leftToOpen s ≠ []) :
    placePriority s c o = sendOrder (s.setCard c { s.card c with priority := [] }) c { o with points := o.leftToOpen s } := by
  obtain ⟨hp, hprio, hord⟩ := (s.card c).idle_iff.1 h
  have hleft : ∀ k, o.leftToOpen (s.setCard c k) = o.leftToOpen s := fun _ => rfl
  unfold placePriority
  dsimp only
  rw [if_pos h, sendNext]
  dsimp only
  rw [State.card_setCard_self]
  dsimp only
  rw [hp, hprio]
  simp only [Option.isSome_none, Bool.false_eq_true, if_false, List.nil_append, State.setCard_setCard]
  unfold sendOpen
  rw [hleft]
  split
  · next he => exact absurd he hn
  · rfl

theorem placePriority_busy {s : State} {c : CardId} {o : Order} (h : (s.card c).idle = false) :
    placePriority s c o = s.setCard c { s.card c with priority := (s.card c).priority ++ [o] } := by
  unfold placePriority
  dsimp only
  rw [h]; rfl

/-- Opens of CLOSED points, card by card, are listed or sent and leave nothing else to do (R22, R35). -/
theorem placeGroups_sameWork (x : Bus) {ps : List Pt} {s : State} (hps : ∀ p ∈ ps, (s.xp x p).state = .closed) :
    SameWork s ((cardGroups ps).foldl (fun s g => placePriority s g.1 ⟨.emergency, x, g.2, false⟩) s) := by
  have hfold : ∀ (l : List (CardId × List Pt)) (u : State), (∀ g ∈ l, g ∈ cardGroups ps) →
      (∀ p ∈ ps, (u.card (cardOf p)).idle = true → (u.xp x p).state = .closed) →
      SameWork u (l.foldl (fun s g => placePriority s g.1 ⟨.emergency, x, g.2, false⟩) u) := by
    intro l
    induction l with
    | nil => exact fun u _ _ => .refl u
    | cons g l ih =>
      intro u hl hu
      have hg := hl g List.mem_cons_self
      obtain ⟨q, hq⟩ := exists_mem_of_mem_cardGroups hg
      have hcard := fun p hp => mem_of_mem_cardGroups hg (p := p) hp
      have hrest := fun g' hg' => hl g' (List.mem_cons_of_mem _ hg')
      rw [List.foldl_cons]
      cases hidle : (u.card g.1).idle with
      | true =>
        have hleft : q ∈ Order.leftToOpen u ⟨.emergency, x, g.2, false⟩ := by
          have hc := hu q (hcard q hq).2 (by rw [(hcard q hq).1]; exact hidle)
          simp [Order.leftToOpen, hq, hc]
        rw [placePriority_idle hidle (List.ne_nil_of_mem hleft)]
        have hsent := sendOrder_sameWork (u.setCard g.1 { u.card g.1 with priority := [] }) g.1
          { (⟨.emergency, x, g.2, false⟩ : Order) with points := Order.leftToOpen u ⟨.emergency, x, g.2, false⟩ }
        refine SameWork.trans ⟨hsent.ctxs, hsent.work, hsent.mail⟩ (ih _ hrest (fun p hp hid => ?_))
        rw [sendOrder_card] at hid
        split at hid
        · simp [CardCtl.idle] at hid
        · next hne =>
          rw [State.card_setCard, if_neg hne] at hid
          rw [sendOrder_xp, State.xp_modXps_ne]
          · exact hu p hp hid
          · refine .inr (fun hmem => hne ?_)
            exact ((hcard p (List.mem_filter.1 hmem).1).1).symm
      | false =>
        rw [placePriority_busy hidle]
        refine (setCard_sameWork u _ _).trans (ih _ hrest (fun p hp hid => ?_))
        rw [State.card_setCard] at hid
        split at hid
        · next e =>
          rw [CardCtl.idle_iff] at hid
          simp at hid
        · exact hu p hp hid
  exact hfold _ _ (fun _ => id) (fun p hp _ => hps p hp)

/-- An emergency open leaves the points of the returned reservations to the arbiter, and nothing else to do (R35). -/
theorem emergencyOpen_work (s : State) (x : Bus) :
    (emergencyOpen s x).ctxs = (s.modCtx x Ctx.withoutOrders).ctxs ∧
      (emergencyOpen s x).matrixWork =
        ((allPoints.filter (fun p => (s.xp x p).state == .reserved)).map .point).foldl insertWork s.matrixWork ∧
      (emergencyOpen s x).mail = s.mail := by
  have hgroups := placeGroups_sameWork x (ps := emergencyPoints (emergencyCleared s x) x) (s := emergencyCleared s x)
    (fun p hp => by
      have := (List.mem_filter.1 hp).2
      simp only [Bool.and_eq_true, beq_iff_eq] at this
      exact this.1)
  have hcards : ∀ (u : State) (f : CardCtl → CardCtl), SameWork u (u.modCards f) := fun u f => by
    have h : ∀ (l : List CardId) (u : State), SameWork u (l.foldl (fun s c => s.setCard c (f (s.card c))) u) := by
      intro l
      induction l with
      | nil => exact fun u => .refl u
      | cons c l ih => exact fun u => (setCard_sameWork u _ _).trans (ih _)
    exact h _ u
  have hclear : (emergencyCleared s x).ctxs = (s.modCtx x Ctx.withoutOrders).ctxs ∧
      (emergencyCleared s x).matrixWork =
        ((allPoints.filter (fun p => (s.xp x p).state == .reserved)).map .point).foldl insertWork s.matrixWork ∧
      (emergencyCleared s x).mail = s.mail := by
    have hk := hcards (s.modCtx x Ctx.withoutOrders) (fun k => (k.without x (fun _ => true)).orphan x)
    have hxp : ∀ p, ((s.modCtx x Ctx.withoutOrders).modCards (fun k => (k.without x (fun _ => true)).orphan x)).xp x p = s.xp x p :=
      fun p => by rw [State.modCards_xp]; rfl
    unfold emergencyCleared returnReservations
    dsimp only
    rw [State.modXps_eq]
    simp only [hxp]
    rw [State.modXps_eq]
    exact ⟨hk.ctxs, congrArg (fun w : List MatrixWork =>
      ((allPoints.filter (fun p => (s.xp x p).state == .reserved)).map MatrixWork.point).foldl insertWork w) hk.work,
      hk.mail⟩
  rw [emergencyOpen_eq]
  obtain ⟨h1, h2, h3⟩ := hclear
  exact ⟨hgroups.ctxs.trans h1, hgroups.work.trans h2, hgroups.mail.trans h3⟩

theorem length_insertWork (l : List MatrixWork) (w : MatrixWork) : (insertWork l w).length = l.length + 1 := by
  have h := congrArg List.length (List.takeWhile_append_dropWhile (p := fun v => !w.before v) (l := l))
  unfold insertWork
  rw [List.length_append] at *
  simp only [List.length_cons]
  omega

theorem mem_foldl_insertWork {ws l : List MatrixWork} {v : MatrixWork} (h : v ∈ ws.foldl insertWork l) : v ∈ ws ∨ v ∈ l := by
  induction ws generalizing l with
  | nil => exact .inr h
  | cons w ws ih =>
    rcases ih h with h | h
    · exact .inl (List.mem_cons_of_mem _ h)
    · rcases (mem_insertWork _ _ _).1 h with rfl | h
      · exact .inl List.mem_cons_self
      · exact .inr h

theorem length_foldl_insertWork (ws l : List MatrixWork) : (ws.foldl insertWork l).length = l.length + ws.length := by
  induction ws generalizing l with
  | nil => rfl
  | cons w ws ih => rw [List.foldl_cons, ih, length_insertWork, List.length_cons]; omega

/-! ### Looks in SAFE come to an end (R88) -/

/-- Nothing is left to do but points to look over and contexts at rest to look, and nothing waits for a point. -/
structure SafeCalm (s : State) : Prop where
  safe : s.isSafe = true
  noMake : ∀ x r, (s.ctx x).request ≠ some (.make r)
  rest : ∀ x, (s.ctx x).state.working = false
  work : ∀ w ∈ s.matrixWork, ∃ p, w = .point p
  mail : ∀ m ∈ s.mail, ∃ x, m = .poke x

theorem SafeCalm.notReady {s : State} (h : s.isSafe = true) : s.isReady = false := by
  unfold State.isSafe at h
  unfold State.isReady
  split at h
  · next hr => rw [hr]; rfl
  · cases h

/-- With nothing waiting, a freed point is granted to none (R32). -/
theorem SafeCalm.doMatrix {s : State} (h : SafeCalm s) {w : MatrixWork} (hw : ∃ p, w = .point p) : doMatrix s w = s := by
  obtain ⟨p, rfl⟩ := hw
  have hnone : s.waiters p = [] := by
    refine List.filter_eq_nil_iff.2 (fun x _ => ?_)
    have := h.noMake x
    unfold Ctx.waitsFor
    cases hr : (s.ctx x).request with
    | none => simp
    | some r =>
      cases r with
      | make r => exact absurd hr (this r)
      | _ => simp
  show arbitrate s p = s
  unfold arbitrate
  rw [hnone]
  split <;> rfl

end Sys2Proof.Machine
end

