-- ==== Sys2Proof/Proofs/Deliveries.lean ====
section
/-!
PROOFS. Commands whose consequences can be counted: what the end of a command leaves when nothing, or one thing, is left to
do; the stages after settling (O49).
-/

namespace Sys2Proof.Machine

/-! ### The end of a command with little left to do (log 6) -/

/-- `t` is `u` after the panel's test and the transmitter's choice. -/
structure Ends (u t : State) : Prop where
  tables : t.tables = u.tables
  matrix : t.matrix = u.matrix
  ctxs : t.ctxs = u.ctxs
  guard : t.guard = u.guard
  lanes : t.lanes = u.lanes
  markHigh : t.markHigh = u.markHigh
  out : t.out = u.out
  records : ∃ l, t.queue.records = u.queue.records ++ l
  idle : (∃ x, (u.ctx x).finished = false) ∨ u.panel.state ≠ .closing → t.queue = u.queue ∧ t.panel = u.panel

/-- A panel is not closed while a context is not finished (R138). -/
theorem panelCheck_unfinished {u : State} (h : (∃ x, (u.ctx x).finished = false) ∨ u.panel.state ≠ .closing) :
    panelCheck u = u := by
  rcases h with ⟨x, hx⟩ | h
  · refine if_neg (fun hc => ?_)
    have hall := (Bool.and_eq_true_iff.1 hc).2
    have := List.all_eq_true.1 hall x (List.mem_finRange x)
    rw [hx] at this; cases this
  · exact panelCheck_id h

theorem ends_closed (u : State) : Ends u (pump (panelCheck u)) := by
  have h := panelCheck_only u
  exact {
    tables := by rw [pump_tables, h.tables]
    matrix := by rw [pump_matrix, h.matrix]
    ctxs := by rw [pump_ctxs, h.ctxs]
    guard := by rw [pump_guard, h.guard]
    lanes := by rw [pump_lanes, h.lanes]
    markHigh := by rw [pump_markHigh, h.markHigh]
    out := by rw [pump_out, h.out]
    records := by rw [pump_queue]; exact h.records
    idle := fun h => by rw [pump_queue, pump_panel, panelCheck_unfinished h]; exact ⟨rfl, rfl⟩ }

theorem Ends.ctx {u t : State} (h : Ends u t) (x : Bus) : t.ctx x = u.ctx x := by rw [State.ctx, State.ctx, h.ctxs]

theorem Ends.xp {u t : State} (h : Ends u t) (x : Bus) (p : Pt) : t.xp x p = u.xp x p := by rw [State.xp, State.xp, h.matrix]

/-- `k` pieces of work lead from `s` to `t`. -/
inductive Delivers : Nat → State → State → Prop
  | refl (s : State) : Delivers 0 s s
  | mail {k : Nat} {s t : State} (m : Mail) (rest : List Mail) (hw : s.matrixWork = []) (hm : s.mail = m :: rest)
      (h : Delivers k (doMail { s with mail := rest } m) t) : Delivers (k + 1) s t
  | work {k : Nat} {s t : State} (w : MatrixWork) (rest : List MatrixWork) (hw : s.matrixWork = w :: rest)
      (h : Delivers k (doMatrix { s with matrixWork := rest } w) t) : Delivers (k + 1) s t

theorem drain_mail {s : State} {m : Mail} {rest : List Mail} (hw : s.matrixWork = []) (hm : s.mail = m :: rest) (n : Nat) :
    drain (n + 1) s = drain n (doMail { s with mail := rest } m) := by
  rw [drain]
  split
  · next h => rw [hw] at h; cases h
  · next h => rw [hm] at h; cases h; rfl
  · next h => rw [hm] at h; cases h

theorem drain_work {s : State} {w : MatrixWork} {rest : List MatrixWork} (hw : s.matrixWork = w :: rest) (n : Nat) :
    drain (n + 1) s = drain n (doMatrix { s with matrixWork := rest } w) := by
  rw [drain]
  split
  · next h => rw [hw] at h; cases h; rfl
  · next h _ => rw [hw] at h; cases h
  · next h _ => rw [hw] at h; cases h

theorem Delivers.drain {k : Nat} {s t : State} (h : Delivers k s t) (n : Nat) : drain (k + n) s = drain n t := by
  induction h with
  | refl => rw [Nat.zero_add]
  | mail m rest hw hm _ ih =>
    rw [Nat.add_right_comm, drain_mail hw hm]
    exact ih
  | work w rest hw _ ih =>
    rw [Nat.add_right_comm, drain_work hw]
    exact ih

theorem Delivers.trans {j k : Nat} {s t u : State} (h : Delivers j s t) (h' : Delivers k t u) : Delivers (j + k) s u := by
  induction h with
  | refl => rw [Nat.zero_add]; exact h'
  | mail m rest hw hm _ ih => rw [Nat.add_right_comm]; exact .mail m rest hw hm (ih h')
  | work w rest hw _ ih => rw [Nat.add_right_comm]; exact .work w rest hw (ih h')

theorem Delivers.drainAll {k : Nat} {s t : State} (h : Delivers k s t) (hk : k ≤ drainBound) :
    Machine.drain drainBound s = Machine.drain (drainBound - k) t := by
  conv_lhs => rw [← Nat.add_sub_cancel' hk]
  exact h.drain _

/-- A command whose work is done in a few pieces ends with what they leave. -/
theorem Delivers.ends {k : Nat} {s t : State} (h : Delivers k s t) (hq : Quiesced t) (hk : k ≤ drainBound) :
    Ends t (Machine.finish s) := by
  rw [Machine.finish, h.drainAll hk, drain_quiesced _ hq]
  exact ends_closed t

theorem ends_quiesced {s : State} (h : Quiesced s) : Ends s (finish s) := (Delivers.refl s).ends h (Nat.zero_le _)

/-! ### Looks that do nothing -/

/-- A HOLDING bus with no END and no step queued looks and does nothing outside SAFE (R67, R88). -/
theorem poke_holding {s : State} {x : Bus} (hs : (s.ctx x).state = .holding) (he : (s.ctx x).endPending = none)
    (hq : (s.ctx x).queue = []) (hsafe : s.isSafe = false) : poke s x = s := by
  unfold poke
  rw [placeEnd_none (.inr he)]
  simp [hs, hq, hsafe]

end Sys2Proof.Machine

open Sys2Proof Sys2Proof.Machine

namespace Sys2Proof.Machine

/-! ### The stages after settling (R72 to R74) -/

/-- The context that has sent its TAKE (R74). -/
def Ctx.measures (c : Ctx) (cap : Capture) (timeout : Nat) : Ctx :=
  { c with state := .measuring, captured := some cap, acc := [], takeTag := c.takeTag + 1, measureTimer := some timeout }

theorem markFires_setCtx (s : State) (x : Bus) (c : Ctx) (h : c.site = (s.ctx x).site) :
    markFires (s.setCtx x c) x = markFires s x := by
  unfold markFires
  rw [State.ctx_setCtx_self, h]; rfl

/-- A TAKE of `n` readings has gone out for the context `c` of bus `x`, and the MARK pin is driven where the MARK entry names
the bus and its site (R74, R106). -/
def takeSent (s : State) (x : Bus) (c : Ctx) (n : Nat) : State :=
  { (s.setCtx x c).emit (s.busEntry x).lane (.take (s.busEntry x).channel c.takeTag n) with
    markHigh := s.markHigh || markFires s x }

theorem takeSent_setCtx (s : State) (x : Bus) (c c' : Ctx) (n : Nat) (h : c.site = (s.ctx x).site) :
    takeSent (s.setCtx x c) x c' n = takeSent s x c' n := by
  unfold takeSent
  rw [markFires_setCtx s x c h, State.setCtx_setCtx]; rfl

/-- Entering MEASURING on a usable channel (R74). -/
theorem enterMeasuring_take {s : State} {x : Bus} {stag : Half} {sel : Selection} {n : Net} {lim : Fin 256} {k d timeout : Nat}
    {hold : Bool} (hstep : (s.ctx x).step = some ⟨stag, .measure sel n lim k d timeout hold⟩) (hu : s.channelUsable x = true) :
    enterMeasuring s x = takeSent s x ((s.ctx x).measures (captureNow s x lim) timeout) (d + k) := by
  have hmark : markFires ((s.setCtx x ((s.ctx x).measures (captureNow s x lim) timeout)).emit (s.busEntry x).lane
      (.take (s.busEntry x).channel ((s.ctx x).takeTag + 1) (d + k))) x = markFires s x :=
    markFires_setCtx s x ((s.ctx x).measures (captureNow s x lim) timeout) rfl
  unfold enterMeasuring takeSent
  rw [hstep]
  dsimp only
  rw [if_pos hu]
  cases hm : markFires s x with
  | true => exact (if_pos (hmark.trans hm)).trans (by rw [Bool.or_true]; rfl)
  | false =>
    exact (if_neg (fun h => Bool.false_ne_true (hm.symm.trans (hmark.symm.trans h)))).trans (by rw [Bool.or_false]; rfl)

/-- The end of a command that has sent a TAKE. -/
theorem ends_takeSent {s : State} (h : Quiesced s) (x : Bus) (c : Ctx) (n : Nat) :
    Ends (takeSent s x c n) (finish (takeSent s x c n)) := ends_quiesced h

theorem afterLive_measure {s : State} {x : Bus} {stag : Half} {sel : Selection} {n : Net} {lim : Fin 256} {k d timeout : Nat}
    {hold : Bool} (hstep : (s.ctx x).step = some ⟨stag, .measure sel n lim k d timeout hold⟩) :
    afterLive s x = enterMeasuring s x := by
  unfold afterLive; rw [hstep]

theorem afterLive_connect {s : State} {x : Bus} {stag : Half} {u : Site} {n : Net}
    (hstep : (s.ctx x).step = some ⟨stag, .connect u n⟩) : afterLive s x = enterHolding s x := by
  unfold afterLive; rw [hstep]

/-- The context that has entered HOLDING (R82). -/
def Ctx.holds (c : Ctx) : Ctx :=
  { c with state := .holding, step := none, inFlight := none, after := .none, lastOk := false, captured := none, acc := [] }

theorem enterHolding_eq (s : State) (x : Bus) : enterHolding s x = (s.setCtx x (s.ctx x).holds).post (.poke x) := rfl

/-- A CONNECT step that holds, with nothing queued, looks and stays (R82, R85). -/
theorem delivers_holding {s : State} {x : Bus} (h : Quiesced s) (he : (s.ctx x).endPending = none) (hq : (s.ctx x).queue = [])
    (hsafe : s.isSafe = false) : Delivers 1 (enterHolding s x) (s.setCtx x (s.ctx x).holds) := by
  have hstate : ({ enterHolding s x with mail := [] } : State) = s.setCtx x (s.ctx x).holds := by
    rw [enterHolding_eq]
    obtain ⟨-, hmail⟩ := h
    unfold State.post State.setCtx
    rw [hmail]
  have hpoke : poke (s.setCtx x (s.ctx x).holds) x = s.setCtx x (s.ctx x).holds :=
    poke_holding (by rw [State.ctx_setCtx_self]; rfl) (by rw [State.ctx_setCtx_self]; exact he)
      (by rw [State.ctx_setCtx_self]; exact hq) hsafe
  refine .mail (.poke x) [] h.1 (by rw [enterHolding_eq, State.post_mail, State.setCtx_mail, h.2]; rfl) ?_
  show Delivers 0 (poke { enterHolding s x with mail := [] } x) _
  rw [hstate, hpoke]
  exact .refl _

theorem ends_holding {s : State} {x : Bus} (h : Quiesced s) (he : (s.ctx x).endPending = none) (hq : (s.ctx x).queue = [])
    (hsafe : s.isSafe = false) : Ends (s.setCtx x (s.ctx x).holds) (finish (enterHolding s x)) :=
  (delivers_holding h he hq hsafe).ends h (by unfold drainBound; omega)

/-- A live request of a bus that nothing bars, its source QUIET on a usable channel (R49). -/
theorem liveRequest_sent {s : State} {x : Bus} (hb : s.barred x = none) (hq : (s.ctx x).source = .quiet) (hu : s.channelUsable x = true) :
    liveRequest s x = ((s.emit (s.busEntry x).lane (.live (s.busEntry x).channel)).setSource x .goingLive, .waits) := by
  unfold liveRequest
  rw [hb, hq]
  exact if_pos hu

theorem captureNow_setCtx (s : State) (x : Bus) (c : Ctx) (lim : Fin 256) (h : c.target = (s.ctx x).target) :
    captureNow (s.setCtx x c) x lim = captureNow s x lim := by
  unfold captureNow
  rw [State.ctx_setCtx_self, h]; rfl

theorem begin_ctx (s : State) (x : Bus) : s.begin.ctx x = s.ctx x := rfl

theorem exec_settleTimerExpiry {s : State} {x : Bus} (hs : (s.ctx x).state = .settling) (ht : (s.ctx x).settleTimer.isSome = true) :
    exec (.settleTimerExpiry x) s =
      .next (finish (afterSettle s.begin x)) := if_pos ⟨hs, ht⟩

/-- The context whose settle timer has run out (R72). -/
def Ctx.settled (c : Ctx) : Ctx := { c with settleTimer := none }

/-- The stage after settling of a bus without a source (R72). -/
theorem afterSettle_noSource {s : State} {x : Bus} (hk : (s.busEntry x).kind ≠ .source) :
    afterSettle s x = afterLive (s.setCtx x (s.ctx x).settled) x := if_neg hk

/-- The stage after settling of a bus with a source: RESTORING and its live request (R72, R73). -/
theorem afterSettle_source {s : State} {x : Bus} (hk : (s.busEntry x).kind = .source) (hb : s.barred x = none)
    (hq : (s.ctx x).source = .quiet) (hu : s.channelUsable x = true) :
    afterSettle s x = (s.setCtx x
      { s.ctx x with state := .restoring, settleTimer := none, source := .goingLive, request := some .live }).emit
        (s.busEntry x).lane (.live (s.busEntry x).channel) := by
  have hsettled : afterSettle s x = enterRestoring (s.setCtx x { s.ctx x with settleTimer := none }) x := if_pos hk
  have hmod : (s.setCtx x { s.ctx x with settleTimer := none }).modCtx x (fun c => { c with state := .restoring }) =
      s.setCtx x { s.ctx x with state := .restoring, settleTimer := none } := by
    rw [State.modCtx, State.ctx_setCtx_self, State.setCtx_setCtx]
  have hlive := liveRequest_sent (s := s.setCtx x { s.ctx x with state := .restoring, settleTimer := none }) (x := x) hb
    (by rw [State.ctx_setCtx_self]; exact hq) hu
  rw [hsettled, enterRestoring, hmod]
  dsimp only
  rw [hlive]
  dsimp only
  have hset : ∀ (u : State) (l : LaneId) (m : LaneFrame), ((u.emit l m).setSource x .goingLive).modCtx x
      (fun c => { c with request := some .live }) =
      (u.setCtx x { u.ctx x with source := .goingLive, request := some .live }).emit l m := fun u l m => by
    have hsource : (u.emit l m).setSource x .goingLive = (u.setCtx x { u.ctx x with source := .goingLive }).emit l m := rfl
    rw [hsource]
    have hmodc : ∀ (v : State) f, (v.emit l m).modCtx x f = (v.modCtx x f).emit l m := fun _ _ => rfl
    rw [hmodc, State.modCtx, State.ctx_setCtx_self, State.setCtx_setCtx]
  rw [hset, State.ctx_setCtx_self, State.setCtx_setCtx]; rfl

theorem barred_none_of {s : State} {x : Bus} (hs : s.isSafe = false) (ht : s.tripped x = false) : s.barred x = none := by
  unfold State.barred; simp [hs, ht]

end Sys2Proof.Machine

/-- Settles O49: the stages after settling, written out. -/
theorem settledBusesGoOn : Obligations.SettledBusesGoOn := by
  intro s x stag
  refine ⟨fun h => if_neg (fun hc => ?_), rfl, fun hq hs ht => ⟨?_, ?_, ?_⟩⟩
  · rcases h with h | h
    · exact h hc.1
    · exact absurd hc.2 (by rw [State.ctx, State.begin_ctxs, ← State.ctx, h]; nofun)
  · intro sel n lim k d timeout hold hstep hk hu
    refine ⟨_, exec_settleTimerExpiry hs ht, ?_⟩
    have hsettle : afterSettle s.begin x =
        takeSent s.begin x ((s.ctx x).settled.measures (captureNow s x lim) timeout) (d + k) := by
      have hstep' : ((s.begin.setCtx x (s.ctx x).settled).ctx x).step = some ⟨stag, .measure sel n lim k d timeout hold⟩ := by
        rw [State.ctx_setCtx_self]; exact hstep
      refine (afterSettle_noSource (s := s.begin) hk).trans ((afterLive_measure hstep').trans ?_)
      rw [enterMeasuring_take hstep' hu, takeSent_setCtx s.begin x (s.ctx x).settled _ _ rfl,
        captureNow_setCtx s.begin x (s.ctx x).settled lim rfl, State.ctx_setCtx_self]
      rfl
    rw [hsettle]
    have hends := ends_takeSent (s := s.begin) hq x ((s.ctx x).settled.measures (captureNow s x lim) timeout) (d + k)
    refine ⟨?_, hends.out, hends.markHigh, fun y hy => ?_, hends.matrix, hends.guard, hends.tables, hends.lanes⟩
    · rw [hends.ctx]; exact State.ctx_setCtx_self s.begin x _
    · rw [hends.ctx]; exact (State.ctx_setCtx _ _ _ _).trans (if_neg (Ne.symm hy))
  · intro hk hsrc hu hsafe htrip
    refine ⟨_, exec_settleTimerExpiry hs ht, ?_⟩
    have hlive := afterSettle_source (s := s.begin) hk (barred_none_of hsafe htrip) hsrc hu
    have hends := ends_quiesced (s := afterSettle s.begin x) (by rw [hlive]; exact hq)
    rw [hlive] at hends ⊢
    refine ⟨?_, hends.out, fun y hy => ?_, hends.matrix, hends.guard⟩
    · rw [hends.ctx]; exact State.ctx_setCtx_self s.begin x _
    · rw [hends.ctx]; exact (State.ctx_setCtx _ _ _ _).trans (if_neg (Ne.symm hy))
  · intro u n hstep hk hqueue hend hsafe
    refine ⟨_, exec_settleTimerExpiry hs ht, ?_⟩
    rw [afterSettle_noSource (s := s.begin) hk, afterLive_connect (by rw [State.ctx_setCtx_self]; exact hstep), begin_ctx]
    have hends := ends_holding (s := s.begin.setCtx x (s.ctx x).settled) (x := x) hq
      (by rw [State.ctx_setCtx_self]; exact hend) (by rw [State.ctx_setCtx_self]; exact hqueue) hsafe
    rw [State.ctx_setCtx_self, State.setCtx_setCtx] at hends
    have hctx := (hends.ctx x).trans (State.ctx_setCtx_self _ _ _)
    have hfin : (s.ctx x).settled.holds.finished = false := by simp [Ctx.finished, Ctx.holds]
    refine ⟨by rw [hctx]; rfl, by rw [hctx]; rfl, by rw [hctx]; rfl, by rw [hctx]; rfl, by rw [hctx]; rfl, hends.out, ?_, hends.matrix⟩
    rw [(hends.idle (.inl ⟨x, by rw [State.ctx_setCtx_self]; exact hfin⟩)).1]; rfl

end

