-- ==== Sys2Proof/Proofs/MatrixWork.lean ====
section
/-!
PROOFS. The matrix controller's part of the consequences comes to an end: each piece of work is one less, but where a make
request gets its last point, and there are no more of those than buses.
-/

-- One proof after another: in the joined text each worker would hold a stack of its own.
set_option Elab.async false

namespace Sys2Proof.Machine

/-! ### The controller's work and what an operation adds to it -/

/-- A card whose next order is left to be considered has one pending, or none listed. -/
def SendsIdle (s : State) : Prop := ∀ c, MatrixWork.send c ∈ s.matrixWork → (s.card c).pending ≠ none ∨ (s.card c).idle = true

/-- An operation of the matrix controller for the requests that stand: it adds at most `n` pieces of work, and takes points
that a request waits for from none. -/
structure Places (n : Nat) (s t : State) : Prop where
  work : t.matrixWork.length ≤ s.matrixWork.length + n
  sends : SendsIdle s → SendsIdle t
  waits : ∀ y, (t.ctx y).waitsFor = [] ∨ (t.ctx y).waitsFor = (s.ctx y).waitsFor
  mail : ∃ l, t.mail = s.mail ++ l

theorem Places.refl (s : State) : Places 0 s s := ⟨Nat.le_refl _, id, fun _ => .inr rfl, [], (List.append_nil _).symm⟩

theorem Places.trans {n m : Nat} {s t u : State} (h : Places n s t) (k : Places m t u) : Places (n + m) s u where
  work := by have h1 := h.work; have h2 := k.work; omega
  sends := k.sends ∘ h.sends
  waits := fun y => by
    rcases k.waits y with hk | hk
    · exact .inl hk
    · rw [hk]; exact h.waits y
  mail := by
    obtain ⟨l, hl⟩ := h.mail
    obtain ⟨m, hm⟩ := k.mail
    exact ⟨l ++ m, by rw [hm, hl, List.append_assoc]⟩

theorem Places.mono {n m : Nat} {s t : State} (h : Places n s t) (hn : n ≤ m) : Places m s t :=
  { h with work := Nat.le_trans h.work (Nat.add_le_add_left hn _) }

/-- Nothing of the work, the cards, the contexts and the mail changes. -/
theorem Places.of_eq {s t : State} (hw : t.matrixWork = s.matrixWork) (hc : t.matrix.cards = s.matrix.cards)
    (hx : t.ctxs = s.ctxs) (hm : t.mail = s.mail) : Places 0 s t where
  work := by rw [hw]; exact Nat.le_refl _
  sends := fun h c hs => by
    rw [hw] at hs
    have hcard : t.card c = s.card c := by rw [State.card, State.card, hc]
    rw [hcard]; exact h c hs
  waits := fun y => .inr (by rw [State.ctx, State.ctx, hx])
  mail := ⟨[], by rw [hm, List.append_nil]⟩

theorem Places.modXps (s : State) (x : Bus) (ps : List Pt) (f : XRec → XRec) : Places 0 s (s.modXps x ps f) := by
  rw [State.modXps_eq]; exact .of_eq rfl rfl rfl rfl

/-- A request is withdrawn or answered. -/
theorem Places.dropRequest (s : State) (x : Bus) : Places 0 s (s.modCtx x (fun c => { c with request := none })) where
  work := Nat.le_refl _
  sends := id
  waits := fun y => by
    rw [State.ctx_modCtx]
    split
    · exact .inl rfl
    · exact .inr rfl
  mail := ⟨[], (List.append_nil _).symm⟩

theorem Places.post (s : State) (m : Mail) : Places 0 s (s.post m) := ⟨Nat.le_refl _, id, fun _ => .inr rfl, [m], rfl⟩

/-- A context changes, but for its request. -/
theorem Places.modCtx (s : State) (x : Bus) {f : Ctx → Ctx} (hf : ∀ c, (f c).request = c.request) : Places 0 s (s.modCtx x f) where
  work := Nat.le_refl _
  sends := id
  waits := fun y => by
    rw [State.ctx_modCtx]
    split
    · next e => subst e; exact .inr (by rw [Ctx.waitsFor, Ctx.waitsFor, hf])
    · exact .inr rfl
  mail := ⟨[], (List.append_nil _).symm⟩

/-- Points are left to the arbiter. -/
theorem Places.points (s : State) (ps : List Pt) : Places ps.length s (s.pushWork (ps.map .point)) where
  work := by rw [State.pushWork_matrixWork, length_foldl_insertWork, List.length_map]
  sends := fun h c hc => by
    rw [State.pushWork_matrixWork] at hc
    rcases mem_foldl_insertWork hc with hc | hc
    · obtain ⟨_, _, h⟩ := List.mem_map.1 hc; cases h
    · exact h c hc
  waits := fun _ => .inr rfl
  mail := ⟨[], (List.append_nil _).symm⟩

/-- A card that has nothing listed or has an order pending is left to be looked at. -/
theorem Places.pushSend {s : State} {c : CardId} (hc : (s.card c).pending ≠ none ∨ (s.card c).idle = true) :
    Places 1 s (s.pushWork [.send c]) where
  work := by rw [State.pushWork_matrixWork, length_foldl_insertWork]; exact Nat.le_refl _
  sends := fun h d hd => by
    rw [State.pushWork_matrixWork] at hd
    rcases mem_foldl_insertWork hd with hd | hd
    · cases List.mem_singleton.1 hd; exact hc
    · exact h d hd
  waits := fun _ => .inr rfl
  mail := ⟨[], (List.append_nil _).symm⟩

/-- A card's orders change while it has one pending, or has none. -/
theorem Places.setCard {s : State} {c : CardId} {k : CardCtl}
    (h : ((s.card c).pending ≠ none ∨ (s.card c).idle = true) → k.pending ≠ none ∨ k.idle = true) : Places 0 s (s.setCard c k) where
  work := Nat.le_refl _
  sends := fun hs d hd => by
    have := hs d hd
    rw [State.card_setCard]
    split
    · next e => subst e; exact h this
    · exact this
  waits := fun _ => .inr rfl
  mail := ⟨[], (List.append_nil _).symm⟩

/-! ### Requests and orders (R22, R28, R30) -/

theorem Places.sendOrder (s : State) (c : CardId) (o : Order) : Places 0 s (sendOrder s c o) := by
  have hw := sendOrder_sameWork s c o
  refine ⟨by rw [hw.work]; exact Nat.le_refl _, fun hs d hd => ?_, fun y => .inr (by rw [State.ctx, State.ctx, hw.ctxs]),
    [], by rw [hw.mail, List.append_nil]⟩
  rw [hw.work] at hd
  rw [sendOrder_card]
  split
  · exact .inl nofun
  · exact hs d hd

theorem Places.answerOpens (s : State) (x : Bus) : Places 0 s (answerOpens s x) := by
  unfold Machine.answerOpens
  split
  · split
    · exact (Places.dropRequest s x).trans (.post _ _)
    · exact .refl s
  · exact .refl s

theorem Places.modOpens (s : State) (x : Bus) (f : OpenReq → OpenReq) : Places 0 s (s.modOpens x f) where
  work := Nat.le_refl _
  sends := id
  waits := fun y => by
    rw [State.modOpens, State.ctx_modCtx]
    split
    · next e =>
      subst e
      refine .inr ?_
      split
      · next hr => simp [Ctx.waitsFor, hr]
      · rfl
    · exact .inr rfl
  mail := ⟨[], (List.append_nil _).symm⟩

/-- A make order that its card may not send is withdrawn; nothing else is listed there (R29). -/
theorem Places.withdrawOrder {s : State} {c : CardId} (hc : (s.card c).idle = true) (o : Order) (m : Mail) :
    Places (o.points.length + 1) s (withdrawOrder s c o m) := by
  have hpush : ∀ u : State, u.pushWork (o.points.map .point ++ [.send c]) = (u.pushWork (o.points.map .point)).pushWork [.send c] :=
    fun u => by simp [State.pushWork, List.foldl_append]
  have hplaces : Places (o.points.length + 1) s ((s.modXps o.bus o.points XRec.unreserved).pushWork (o.points.map .point ++ [.send c])) := by
    have hmod := Places.modXps s o.bus o.points XRec.unreserved
    rw [hpush]
    refine Places.mono ((hmod.trans (.points _ o.points)).trans (.pushSend (.inr ?_))) (by omega)
    rw [State.modXps_eq]; exact hc
  unfold Machine.withdrawOrder
  dsimp only
  split
  · exact (hplaces.trans (.dropRequest _ _)).trans (.post _ _)
  · exact hplaces

/-- An open order of a card with nothing else to send goes out, or has nothing left to open (R22). -/
theorem Places.sendOpen {s : State} {c : CardId} (hc : (s.card c).idle = true) (o : Order) : Places 1 s (sendOpen s c o) := by
  unfold Machine.sendOpen
  split
  · have hcards : ∀ u : State, u.matrix.cards = s.matrix.cards → (u.card c).idle = true := fun u hu => by
      rw [State.card, hu]; exact hc
    split
    · exact Places.mono ((Places.answerOpens s o.bus).trans (.pushSend (.inr (hcards _ (answerOpens_matrix s o.bus ▸ rfl))))) (by omega)
    · exact .pushSend (.inr hc)
  · exact Places.mono (.sendOrder _ _ _) (by omega)

/-- What becomes of the order that a card has next (R22, R29). -/
def consider (s : State) (c : CardId) (o : Order) : State := if o.kind = .make then sendOrWithdraw s c o else sendOpen s c o

/-- The points of a make order are reserved when it is placed (R22). -/
def State.reserveFor (s : State) (o : Order) : State := if o.kind = .make then s.reserve o.bus o.points else s

theorem State.reserve_eq (s : State) (x : Bus) (ps : List Pt) :
    s.reserve x ps = { s with matrix := { s.matrix with xps := (s.reserve x ps).matrix.xps } } := by
  rw [State.reserve, State.modXps_eq]

theorem State.reserveFor_eq (s : State) (o : Order) :
    s.reserveFor o = { s with matrix := { s.matrix with xps := (s.reserveFor o).matrix.xps } } := by
  unfold State.reserveFor
  split
  · exact s.reserve_eq _ _
  · rfl

theorem State.setCard_reserveFor (s : State) (c : CardId) (k : CardCtl) (o : Order) :
    (if o.kind = .make then (s.setCard c k).reserve o.bus o.points else s.setCard c k) = (s.reserveFor o).setCard c k := by
  unfold State.reserveFor
  split
  · exact s.reserve_setCard _ _ _ _
  · rfl

theorem State.reserveFor_card (s : State) (c : CardId) (o : Order) : (s.reserveFor o).card c = s.card c := by
  rw [s.reserveFor_eq]; rfl

/-- Nothing is pending or listed at a card: an order placed there is considered at once (R22). -/
theorem placeOrdinary_idle {s : State} {c : CardId} (h : (s.card c).idle = true) (o : Order) :
    placeOrdinary s c o = (consider (s.reserveFor o) c o, true) := by
  unfold placeOrdinary
  dsimp only
  rw [if_neg (by rw [((s.card c).idle_iff.1 h).2.2]; decide), State.setCard_reserveFor, if_pos h, ← State.reserveFor_card s c o,
    sendNext_listed (by rw [State.reserveFor_card]; exact h)]
  rfl

/-- Behind other orders an order waits in the list (R22). -/
theorem placeOrdinary_busy {s : State} {c : CardId} (h : (s.card c).idle = false) (hl : (s.card c).ordinary.length < 8) (o : Order) :
    placeOrdinary s c o = ((s.reserveFor o).setCard c { s.card c with ordinary := (s.card c).ordinary ++ [o] }, true) := by
  unfold placeOrdinary
  dsimp only
  rw [if_neg (Nat.not_le.2 hl), State.setCard_reserveFor, h]
  rfl

/-- An order is not placed where 8 are listed (R22). -/
theorem placeOrdinary_full {s : State} {c : CardId} (hl : 8 ≤ (s.card c).ordinary.length) (o : Order) :
    placeOrdinary s c o = (s, false) := if_pos hl

theorem Places.consider {s : State} {c : CardId} (hc : (s.card c).idle = true) (o : Order) :
    Places (o.points.length + 1) s (consider s c o) := by
  unfold Machine.consider sendOrWithdraw
  split
  · split
    · exact Places.mono (.sendOrder s c o) (by omega)
    · exact .withdrawOrder hc o _
    · exact .withdrawOrder hc o _
  · exact Places.mono (.sendOpen hc o) (by omega)

theorem Places.reserve (s : State) (x : Bus) (ps : List Pt) : Places 0 s (s.reserve x ps) := by
  rw [State.reserve_eq]; exact .of_eq rfl rfl rfl rfl

theorem Places.reserveFor (s : State) (o : Order) : Places 0 s (s.reserveFor o) := by
  rw [State.reserveFor_eq]; exact .of_eq rfl rfl rfl rfl

/-- A make or break order is placed, or not (R22). -/
theorem Places.placeOrdinary (s : State) (c : CardId) (o : Order) : Places (o.points.length + 1) s (placeOrdinary s c o).1 := by
  by_cases hl : 8 ≤ (s.card c).ordinary.length
  · rw [placeOrdinary_full hl]; exact Places.mono (.refl s) (by omega)
  · cases hi : (s.card c).idle with
    | true =>
      rw [placeOrdinary_idle hi]
      exact Places.mono ((Places.reserveFor s o).trans (.consider (by rw [State.reserveFor_card]; exact hi) o)) (by omega)
    | false =>
      rw [placeOrdinary_busy hi (by omega)]
      refine Places.mono ((Places.reserveFor s o).trans (.setCard (fun h => ?_))) (by omega)
      rw [State.reserveFor_card, hi] at h
      exact .inl (h.resolve_right Bool.false_ne_true)

/-- Returned reservations change crosspoints and leave work to the arbiter (R33). -/
theorem returnReservations_eq (s : State) (x : Bus) : returnReservations s x =
    { s with
      matrix := { s.matrix with xps := (returnReservations s x).matrix.xps }
      matrixWork := (returnReservations s x).matrixWork } := by
  have h : ∀ ps ws, (s.modXps x ps XRec.unreserved).pushWork ws = { s with
      matrix := { s.matrix with xps := ((s.modXps x ps XRec.unreserved).pushWork ws).matrix.xps }
      matrixWork := ((s.modXps x ps XRec.unreserved).pushWork ws).matrixWork } := fun ps ws => by
    rw [State.modXps_eq]; rfl
  exact h _ _

theorem returnReservations_ctx (s : State) (x y : Bus) : (returnReservations s x).ctx y = s.ctx y := by
  rw [returnReservations_eq]; rfl

/-- The reservations of a bus return (R33). -/
theorem Places.returnReservations (s : State) (x : Bus) : Places 256 s (returnReservations s x) := by
  unfold Machine.returnReservations
  dsimp only
  refine Places.mono ((Places.modXps s x _ _).trans (.points _ _)) ?_
  have := List.length_filter_le (fun p => (s.xp x p).state == .reserved) allPoints
  rw [Nat.zero_add]
  exact this.trans (by simp [allPoints])

theorem length_needClosing (s : State) (x : Bus) (ps : List Pt) : (needClosing s x ps).length ≤ 256 :=
  (List.length_filter_le _ allPoints).trans (by simp [allPoints])

/-- The make order of a request is placed, or the request fails (R28). -/
theorem Places.placeMake (s : State) (x : Bus) (c : CardId) (ps : List Pt) : Places 600 s (placeMake s x c ps).1 := by
  have hplace := Places.placeOrdinary s c ⟨.make, x, needClosing s x ps, true⟩
  have hlen := length_needClosing s x ps
  unfold Machine.placeMake
  generalize Machine.placeOrdinary s c ⟨.make, x, needClosing s x ps, true⟩ = r at hplace
  obtain ⟨s', b⟩ := r
  dsimp only at hplace
  cases b with
  | true => exact hplace.mono (by omega)
  | false => exact ((hplace.trans (.dropRequest s' x)).trans (.returnReservations _ x)).mono (by omega)

/-! ### The work comes to an end -/

/-- What a context may still add to the work: its make order, once it has all its points. -/
def Ctx.mayPlace (c : Ctx) : Nat := if c.waitsFor = [] then 0 else 601

/-- The bound of the work left. -/
def workLeft (s : State) : Nat := s.matrixWork.length + ∑ x : Bus, (s.ctx x).mayPlace

theorem workLeft_le (s : State) : workLeft s ≤ s.matrixWork.length + 4808 := by
  have h : ∀ x ∈ Finset.univ, (s.ctx x).mayPlace ≤ 601 := fun x _ => by unfold Ctx.mayPlace; split <;> omega
  have := Finset.sum_le_card_nsmul Finset.univ (fun x : Bus => (s.ctx x).mayPlace) 601 h
  simp only [Finset.card_univ, Fintype.card_fin, smul_eq_mul] at this
  unfold workLeft
  omega

theorem Places.mayPlace {n : Nat} {s t : State} (h : Places n s t) (y : Bus) : (t.ctx y).mayPlace ≤ (s.ctx y).mayPlace := by
  unfold Ctx.mayPlace
  rcases h.waits y with hy | hy
  · rw [if_pos hy]; exact Nat.zero_le _
  · rw [hy]

theorem sendNext_idle {s : State} {c : CardId} (h : (s.card c).pending ≠ none ∨ (s.card c).idle = true) : sendNext s c = s := by
  unfold sendNext
  dsimp only
  rcases h with h | h
  · rw [if_pos (Option.isSome_iff_ne_none.2 h)]
  · obtain ⟨hp, hprio, hord⟩ := (s.card c).idle_iff.1 h
    rw [hp, hprio, hord]; rfl

/-- The request of bus `x` with point `p` granted (R32). -/
def Ctx.granted (c : Ctx) (r : MakeReq) (p : Pt) : Ctx :=
  { c with request := some (.make { r with waiting := r.waiting.filter (· ≠ p) }) }

/-- A free point is granted to the lowest waiting bus (R32). -/
theorem arbitrate_granted {s : State} {p : Pt} {x : Bus} {l : List Bus} {r : MakeReq} (hf : s.pointFree p = true)
    (hw : s.waiters p = x :: l) (hr : (s.ctx x).request = some (.make r)) :
    ∃ u, u = (s.reserve x [p]).setCtx x ((s.ctx x).granted r p) ∧ arbitrate s p =
      if r.waiting.filter (· ≠ p) = [] then
        if (placeMake u x r.card r.points).2 = true then
          (placeMake u x r.card r.points).1.modCtx x (fun c => if c.state = .blocked then { c with state := .making } else c)
        else (placeMake u x r.card r.points).1.post (.makeFailed x .orderFail)
      else u := by
  have hctx : (s.reserve x [p]).ctx x = s.ctx x := by rw [State.reserve_eq]; rfl
  refine ⟨_, rfl, ?_⟩
  unfold arbitrate
  rw [hw]
  simp only [hf, Bool.not_true, Bool.false_eq_true, if_false, hctx, hr]
  have hmod : (s.reserve x [p]).modCtx x (fun c => { c with request := some (.make { r with waiting := r.waiting.filter (· ≠ p) }) }) =
      (s.reserve x [p]).setCtx x ((s.ctx x).granted r p) := by rw [State.modCtx, hctx]; rfl
  rw [hmod]
  split
  · generalize placeMake ((s.reserve x [p]).setCtx x ((s.ctx x).granted r p)) x r.card r.points = q
    obtain ⟨q1, _ | _⟩ := q <;> rfl
  · rfl

/-- One piece of work less (R22, R32). -/
theorem doMatrix_less {s : State} {w : MatrixWork} {rest : List MatrixWork} (hw : s.matrixWork = w :: rest) (hs : SendsIdle s) :
    SendsIdle (doMatrix { s with matrixWork := rest } w) ∧
      workLeft (doMatrix { s with matrixWork := rest } w) < workLeft s ∧
      ∃ l, (doMatrix { s with matrixWork := rest } w).mail = s.mail ++ l := by
  have hrest : SendsIdle { s with matrixWork := rest } := fun c hc => hs c (by rw [hw]; exact List.mem_cons_of_mem _ hc)
  have hstay : workLeft { s with matrixWork := rest } < workLeft s := by
    unfold workLeft; rw [hw, List.length_cons]; exact Nat.add_lt_add_right (Nat.lt_succ_self _) _
  have hsame : ∀ u, u = { s with matrixWork := rest } → SendsIdle u ∧ workLeft u < workLeft s ∧ ∃ l, u.mail = s.mail ++ l := by
    rintro _ rfl; exact ⟨hrest, hstay, [], (List.append_nil _).symm⟩
  cases w with
  | send c => exact hsame _ (sendNext_idle (hs c (by rw [hw]; exact List.mem_cons_self)))
  | point p =>
    show SendsIdle (arbitrate { s with matrixWork := rest } p) ∧ workLeft (arbitrate { s with matrixWork := rest } p) < workLeft s ∧
      ∃ l, (arbitrate { s with matrixWork := rest } p).mail = s.mail ++ l
    have hmail : ({ s with matrixWork := rest } : State).mail = s.mail := rfl
    generalize ({ s with matrixWork := rest } : State) = b at hrest hstay hsame hmail ⊢
    cases hf : b.pointFree p with
    | false => exact hsame _ (by simp [arbitrate, hf])
    | true =>
      cases hwait : b.waiters p with
      | nil => exact hsame _ (by simp [arbitrate, hwait])
      | cons x l =>
        obtain ⟨r, hr, hp⟩ := request_of_mem_waiters (s := b) (x := x) (by rw [hwait]; exact List.mem_cons_self)
        obtain ⟨u, hu, he⟩ := arbitrate_granted hf hwait hr
        have hux : u.ctx x = (b.ctx x).granted r p := by rw [hu]; exact State.ctx_setCtx_self _ _ _
        have huy : ∀ y, y ≠ x → u.ctx y = b.ctx y := fun y hy => by
          rw [hu, State.ctx_setCtx, if_neg (Ne.symm hy), State.reserve_eq]; rfl
        have hb : (b.ctx x).mayPlace = 601 := by
          unfold Ctx.mayPlace
          rw [Ctx.waitsFor, hr, if_neg (List.ne_nil_of_mem hp)]
        have hwork : u.matrixWork = b.matrixWork := by rw [hu, State.reserve_eq]; rfl
        have humail : u.mail = b.mail := by rw [hu, State.reserve_eq]; rfl
        have hsends : SendsIdle u := fun c hc => by
          have hcard : u.card c = b.card c := by rw [hu, State.reserve_eq]; rfl
          rw [hcard]; exact hrest c (hwork ▸ hc)
        have hgiven : (u.ctx x).waitsFor = r.waiting.filter (· ≠ p) := by rw [hux]; rfl
        by_cases hlast : r.waiting.filter (· ≠ p) = []
        · have hplaces : Places 600 u (arbitrate b p) := by
            rw [he, if_pos hlast]
            have hmake := Places.placeMake u x r.card r.points
            split
            · exact hmake.trans (.modCtx _ x (fun c => by split <;> rfl))
            · exact hmake.trans (.post _ _)
          have hu0 : (u.ctx x).mayPlace = 0 := by unfold Ctx.mayPlace; rw [hgiven, if_pos hlast]
          have hsum : ∑ y : Bus, (u.ctx y).mayPlace + 601 = ∑ y : Bus, (b.ctx y).mayPlace := by
            rw [← Finset.add_sum_erase _ (fun y => (u.ctx y).mayPlace) (Finset.mem_univ x),
              ← Finset.add_sum_erase _ (fun y => (b.ctx y).mayPlace) (Finset.mem_univ x), hu0, hb,
              Finset.sum_congr rfl (fun y hy => by rw [huy y (Finset.ne_of_mem_erase hy)])]
            omega
          have hle : ∑ y : Bus, ((arbitrate b p).ctx y).mayPlace ≤ ∑ y : Bus, (u.ctx y).mayPlace :=
            Finset.sum_le_sum (fun y _ => hplaces.mayPlace y)
          obtain ⟨l', hl'⟩ := hplaces.mail
          refine ⟨hplaces.sends hsends, ?_, l', by rw [hl', humail, hmail]⟩
          have hlen := hplaces.work
          rw [hwork] at hlen
          unfold workLeft at hstay ⊢
          omega
        · rw [he, if_neg hlast]
          have hu1 : (u.ctx x).mayPlace = 601 := by unfold Ctx.mayPlace; rw [hgiven, if_neg hlast]
          have hsum : ∑ y : Bus, (u.ctx y).mayPlace = ∑ y : Bus, (b.ctx y).mayPlace :=
            Finset.sum_congr rfl (fun y _ => by
              by_cases hy : y = x
              · rw [hy, hu1, hb]
              · rw [huy y hy])
          refine ⟨hsends, ?_, [], by rw [humail, hmail, List.append_nil]⟩
          unfold workLeft at hstay ⊢
          rw [hwork, hsum]
          exact hstay

/-- The matrix controller's work is done in bounded time, before any context reacts (log 6). -/
theorem workDone {s : State} (hs : SendsIdle s) : ∃ k u, Delivers k s u ∧ k ≤ workLeft s ∧ u.matrixWork = [] ∧
    (∃ l, u.mail = s.mail ++ l) ∧ Keeps (fun _ => True) s u ∧ Run True True (fun _ => False) s u := by
  have h : ∀ (n : Nat) (s : State), workLeft s ≤ n → SendsIdle s → ∃ k u, Delivers k s u ∧ k ≤ n ∧ u.matrixWork = [] ∧
      (∃ l, u.mail = s.mail ++ l) ∧ Keeps (fun _ => True) s u ∧ Run True True (fun _ => False) s u := by
    intro n
    induction n with
    | zero =>
      intro s hn _
      refine ⟨0, s, .refl s, Nat.le_refl _, List.eq_nil_of_length_eq_zero ?_, ⟨[], (List.append_nil _).symm⟩, .refl s, .refl⟩
      unfold workLeft at hn
      omega
    | succ n ih =>
      intro s hn hs
      cases hw : s.matrixWork with
      | nil => exact ⟨0, s, .refl s, Nat.zero_le _, hw, ⟨[], (List.append_nil _).symm⟩, .refl s, .refl⟩
      | cons w rest =>
        obtain ⟨h1, h2, l, hl⟩ := doMatrix_less hw hs
        obtain ⟨k, u, hk, hkn, hu, ⟨l', hl'⟩, hkeep, hr⟩ := ih _ (by omega) h1
        have hpop : Run True True (fun _ => False) s { s with matrixWork := rest } := .single (.plain _ rfl (fun _ => .inl))
        refine ⟨k + 1, u, .work w rest hw hk, Nat.succ_le_succ hkn, hu, ⟨l ++ l', by rw [hl', hl, List.append_assoc]⟩,
          (((Keeps.refl s).matrixWork rest).doMatrix w).trans hkeep, ?_⟩
        exact (Run.doMatrix w trivial hpop).trans hr
  exact h _ s (Nat.le_refl _) hs

/-- With no request waiting for a point, the matrix controller's work changes nothing (R22, R32). -/
theorem workDone_noWaiters {s : State} (hs : SendsIdle s) (hw : ∀ y, (s.ctx y).waitsFor = []) :
    Delivers s.matrixWork.length s { s with matrixWork := [] } := by
  generalize hl : s.matrixWork = l
  induction l generalizing s with
  | nil => rw [show s = { s with matrixWork := [] } by rw [← hl]]; exact .refl _
  | cons w rest ih =>
    have hdone : doMatrix { s with matrixWork := rest } w = { s with matrixWork := rest } := by
      cases w with
      | send c => exact sendNext_idle (hs c (by rw [hl]; exact List.mem_cons_self))
      | point p =>
        have hnone : ({ s with matrixWork := rest } : State).waiters p = [] := by
          unfold State.waiters
          exact List.filter_eq_nil_iff.2 (fun y _ => by
            rw [show ({ s with matrixWork := rest } : State).ctx y = s.ctx y from rfl, hw y]; simp)
        show arbitrate _ p = _
        unfold arbitrate
        rw [hnone]
        split <;> rfl
    refine .work w rest hl ?_
    rw [hdone]
    exact ih (s := { s with matrixWork := rest }) (fun c hc => hs c (by rw [hl]; exact List.mem_cons_of_mem _ hc)) hw rfl

/-- The first thing to be told is told once the matrix controller's work is done (log 6). -/
theorem tellsFirst {s : State} (hs : SendsIdle s) {m : Mail} {rest : List Mail} (hm : s.mail = m :: rest) :
    ∃ k u, Delivers k s (doMail u m) ∧ k ≤ workLeft s + 1 ∧ u.matrixWork = [] ∧ (∃ l, u.mail = rest ++ l) ∧
      Keeps (fun _ => True) s u ∧ Run True True (fun _ => False) s u := by
  obtain ⟨k, u, hk, hle, hu, ⟨l, hl⟩, hkeep, hrun⟩ := workDone hs
  have hmail : u.mail = m :: (rest ++ l) := by rw [hl, hm]; rfl
  refine ⟨k + 1, { u with mail := rest ++ l }, hk.trans (.mail m _ hu hmail (.refl _)), Nat.succ_le_succ hle, hu, ⟨l, rfl⟩,
    hkeep.mail _, hrun.tail (.plain _ rfl (fun y hy => .inl ?_))⟩
  rw [hmail]
  exact List.mem_cons_of_mem _ hy

end Sys2Proof.Machine
end

