-- ==== Sys2Proof/Proofs/Releases.lean ====
section
/-!
PROOFS. A bus that releases its claims: RELEASING, its destination, and a release that has nothing to quiet or to open (R83, R85).
-/

namespace Sys2Proof.Machine

/-! ### Entering RELEASING (R83) -/

/-- The context that enters RELEASING toward `d`. -/
def Ctx.toRelease (c : Ctx) (d : Dest) : Ctx :=
  { c with state := .releasing, dest := d, relDone := false, after := .none, lastOk := false, inFlight := none }

theorem opensRequest_nothing {s : State} {x : Bus} (hb : s.breaksOutstanding x = false) :
    opensRequest s x [] = (s.modCtx x (fun c => { c with request := none })).post (.opened x none) := by
  have hmod : ∀ q, (s.modCtx x (fun c => { c with request := some q })).modCtx x (fun c => { c with request := none }) =
      s.modCtx x (fun c => { c with request := none }) := fun q => by
    rw [State.modCtx, State.modCtx, State.modCtx, State.ctx_setCtx_self, State.setCtx_setCtx]
  have hnone : opensRequest s x [] = answerOpens (s.modCtx x (fun c => { c with request := some (.opens ⟨[], false, false⟩) })) x := rfl
  rw [hnone]
  unfold answerOpens
  rw [State.ctx_modCtx_self]
  dsimp only
  have hb' : (s.modCtx x (fun c => { c with request := some (.opens ⟨[], false, false⟩) })).breaksOutstanding x = false := hb
  rw [hb', hmod]
  rfl

theorem sourceQuiet_request {s : State} {x : Bus} (h : s.sourceQuiet x = true) : quietRequest s x = (s, .done) := by
  unfold quietRequest
  split
  · rfl
  · next hk =>
    have hsrc : (s.ctx x).source = .quiet := by
      simp only [Bool.not_eq_true, bne_eq_false_iff_eq] at hk
      simpa [State.sourceQuiet, hk] using h
    rw [hsrc]

/-- A release of a bus that claims nothing and needs no quiet is answered at once (R83, R85). -/
theorem enterReleasing_nothing {s : State} {x : Bus} (hq : s.sourceQuiet x = true) (hb : s.breaksOutstanding x = false)
    (hc : s.claims x = []) (d : Dest) :
    enterReleasing s x d = (s.setCtx x { (s.ctx x).toRelease d with request := none }).post (.opened x none) := by
  have hquiet : quietRequest (s.modCtx x (fun c => c.toRelease d)) x = (s.modCtx x (fun c => c.toRelease d), .done) :=
    sourceQuiet_request (by rw [State.sourceQuiet, State.ctx_modCtx_self]; exact hq)
  have hdef : enterReleasing s x d = askRelease (s.modCtx x (fun c => c.toRelease d)) x := by
    show (match quietRequest (s.modCtx x (fun c => c.toRelease d)) x with
      | (s, .waits) => s.modCtx x (fun c => { c with request := some .quiet })
      | (s, .failed) => askRelease (releaseFails s x .lane) x
      | (s, _) => askRelease s x) = _
    rw [hquiet]
  have hclaims : (s.modCtx x (fun c => c.toRelease d)).claims x = [] := hc
  have hopens := opensRequest_nothing (s := s.modCtx x (fun c => c.toRelease d)) (x := x) hb
  rw [hdef, askRelease, hclaims, hopens]
  refine congrArg (State.post · _) ?_
  rw [State.modCtx, State.modCtx, State.ctx_setCtx_self, State.setCtx_setCtx]

/-! ### A context that releases -/

/-- A context that releases, with nothing queued, toward HALTED or IDLE with the step `st`, or that is there. -/
structure Ctx.Releases (c : Ctx) (st : Option Step) (halts there : Bool) : Prop where
  slot : c.slot = none
  inFlight : c.inFlight = none
  endPending : c.endPending = none
  queue : c.queue = []
  place : (there = false ∧ c.state = .releasing ∧ c.dest = (if halts then .halted else .idle) ∧ c.step = st) ∨
    c.state = (if halts then .halted else .idle)
  halted : halts = true → c.resume = .none ∧ c.step = st
  idle : c.state = .idle → c.step = none ∧ c.target = none

/-- The same of bus `x`, which raises STEP where it comes to HALTED (R194). -/
def Releases (s : State) (x : Bus) (st : Option Step) (halts there : Bool) : Prop :=
  (s.ctx x).Releases st halts there ∧ ((s.ctx x).state = .halted → s.trunk.attn.step = true)

/-- A set class of attention stays set under what keeps the rest. -/
theorem Keeps.stepRaised {Q : Rec → Prop} {s t : State} (h : Keeps Q s t) (hs : s.trunk.attn.step = true) : t.trunk.attn.step = true := by
  have hraised : s.trunk.attn.raised .step = s.trunk.attn := by
    show { s.trunk.attn with step := true } = s.trunk.attn
    rw [← hs]
  rw [← h.attn .step hraised]
  rfl

theorem Ctx.Releases.spared {c d : Ctx} {st : Option Step} {halts there : Bool} (h : c.Releases st halts there) (k : c.Spared d) :
    d.Releases st halts there ∧ d.state = c.state := by
  have hstate : d.state = c.state := k.state.resolve_right (fun ⟨hb, _⟩ => by
    rcases h.place with ⟨_, hp, _⟩ | hp
    · rw [hp] at hb; cases hb
    · rw [hp] at hb; cases halts <;> cases hb)
  refine ⟨?_, hstate⟩
  have hrest := k.rest
  rw [hstate] at hrest
  rw [hrest]
  exact ⟨h.slot, h.inFlight, h.endPending, h.queue, h.place, h.halted, h.idle⟩

theorem Releases.run {L C : Prop} {Q : Rec → Prop} {s u : State} {x : Bus} {st : Option Step} {halts there : Bool}
    (h : Releases s x st halts there) (k : Keeps Q s u) (r : Run L C (fun y => y ≠ x) s u) : Releases u x st halts there := by
  obtain ⟨hc, hstate⟩ := h.1.spared (Run.spared (x := x) r (fun e => e rfl))
  exact ⟨hc, fun hh => k.stepRaised (h.2 (hstate ▸ hh))⟩

/-- A bus that releases looks: it stays, or with its release done it goes to its destination (R83). -/
theorem poke_releases {s : State} {x : Bus} {st : Option Step} {halts there : Bool} (h : Releases s x st halts there) :
    Releases (poke s x) x st halts (there || (s.ctx x).relDone) := by
  obtain ⟨hc, hattn⟩ := h
  unfold poke
  rw [placeEnd_none (.inr hc.endPending)]
  dsimp only
  have hclear : ((s.ctx x).slot.isNone && (s.ctx x).endPending.isNone) = true := by rw [hc.slot, hc.endPending]; rfl
  rcases hc.place with ⟨hthere, hst, hd, hstep⟩ | hp
  · rw [hst, hthere, hclear, Bool.false_or, Bool.and_true]
    dsimp only
    cases hdone : (s.ctx x).relDone with
    | false =>
      rw [if_neg Bool.false_ne_true]
      exact ⟨hthere ▸ hc, hattn⟩
    | true =>
      rw [if_pos rfl]
      cases halts with
      | true =>
        have harrive : arrive s x = enterHalted s x := by unfold arrive; rw [hd]; rfl
        rw [harrive]
        refine ⟨?_, fun _ => rfl⟩
        rw [enterHalted_ctx]
        exact ⟨hc.slot, hc.inFlight, hc.endPending, hc.queue, .inr rfl, hc.halted, nofun⟩
      | false =>
        have harrive : arrive s x = toIdle s x := by unfold arrive; rw [hd]; rfl
        rw [harrive]
        refine ⟨?_, ?_⟩ <;> rw [toIdle_ctx]
        · exact ⟨hc.slot, rfl, hc.endPending, hc.queue, .inr rfl, nofun, fun _ => ⟨rfl, rfl⟩⟩
        · nofun
  · have hr : (s.ctx x).Releases st halts (there || (s.ctx x).relDone) := { hc with place := .inr hp }
    cases halts with
    | true => rw [hp]; exact ⟨hr, hattn⟩
    | false =>
      rw [hp, hc.queue]
      exact ⟨hr, hattn⟩

theorem opensRequest_rest (s : State) (x : Bus) (ps : List Pt) : ((opensRequest s x ps).ctx x) =
    { s.ctx x with request := ((opensRequest s x ps).ctx x).request, state := ((opensRequest s x ps).ctx x).state } := by
  have hafter : Run False False (fun _ => False)
      (s.modCtx x (fun c => { c with request := some (.opens ⟨ps.filter (s.mustAwait x), false, false⟩) })) (opensRequest s x ps) :=
    Run.answerOpens x (Run.placeBreaks x _ ((Run.modXps_unreserved x _ .refl).pushWork _))
  have h := (hafter.spared (x := x) id).rest
  rw [State.ctx_modCtx_self] at h
  exact h

/-- Asking for the release of its claims, a context goes on to release. -/
theorem askRelease_releases {s : State} {x : Bus} {st : Option Step} {halts there : Bool} (h : Releases s x st halts there) :
    Releases (askRelease s x) x st halts there := by
  have hne : (s.ctx x).state ≠ .blocked := fun hb => by
    rcases h.1.place with ⟨_, hp, _⟩ | hp
    · rw [hp] at hb; cases hb
    · rw [hp] at hb; cases halts <;> cases hb
  have hstate := opensRequest_state s x (s.claims x) hne
  have hrest := opensRequest_rest s x (s.claims x)
  rw [hstate] at hrest
  refine ⟨?_, fun hh => ((Keeps.refl (Q := fun _ => False) s).askRelease x).stepRaised (h.2 (hstate ▸ hh))⟩
  rw [askRelease, hrest]
  have hc := h.1
  exact ⟨hc.slot, hc.inFlight, hc.endPending, hc.queue, hc.place, hc.halted, hc.idle⟩

/-- A request of a release that is not a RELEASE step's fails: it is remembered (R85). -/
theorem releaseFails_noted {s : State} {x : Bus} (hst : ∀ tag, (s.ctx x).step ≠ some ⟨tag, .release⟩) (cause : Cause) :
    releaseFails s x cause = s.modCtx x (fun c => { c with relFail := if c.relFail.isNone then some cause else c.relFail }) := by
  unfold releaseFails
  dsimp only
  split
  · next tag hs _ => exact absurd hs (hst tag)
  · rfl

theorem Ctx.Releases.weaken {c : Ctx} {st : Option Step} {halts there there' : Bool} (h : c.Releases st halts there)
    (hw : there' = true → there = true) : c.Releases st halts there' :=
  { h with place := h.place.imp_left (fun ⟨ht, hp⟩ => ⟨Bool.eq_false_iff.2 (fun ht' => by rw [hw ht'] at ht; cases ht), hp⟩) }

/-- The step of a context RELEASING. -/
theorem Ctx.Releases.step_of {c : Ctx} {st : Option Step} {halts there : Bool} (h : c.Releases st halts there)
    (hr : c.state = .releasing) : c.step = st := by
  rcases h.place with ⟨_, _, _, hs⟩ | hp
  · exact hs
  · rw [hr] at hp; cases halts <;> cases hp

theorem releaseFails_releases {s : State} {x : Bus} {st : Option Step} {halts there : Bool}
    (hst : ∀ tag, st ≠ some ⟨tag, .release⟩) (hr : (s.ctx x).state = .releasing) (h : Releases s x st halts there) (cause : Cause) :
    Releases (releaseFails s x cause) x st halts there := by
  obtain ⟨hc, ha⟩ := h
  rw [releaseFails_noted (by rw [hc.step_of hr]; exact hst)]
  refine ⟨?_, ?_⟩ <;> rw [State.ctx_modCtx_self]
  · exact ⟨hc.slot, hc.inFlight, hc.endPending, hc.queue, hc.place, hc.halted, hc.idle⟩
  · exact ha

theorem releaseAnswered_releases {s : State} {x : Bus} {st : Option Step} {halts there : Bool}
    (hst : ∀ tag, st ≠ some ⟨tag, .release⟩) (hr : (s.ctx x).state = .releasing) (h : Releases s x st halts there) (f : Option Cause) :
    Releases (releaseAnswered s x f) x st halts there := by
  have hdone : ∀ u : State, Releases u x st halts there →
      Releases ((u.modCtx x (fun c => { c with relDone := true })).post (.poke x)) x st halts there := fun u ⟨hc, ha⟩ => by
    refine ⟨?_, ?_⟩ <;> rw [show ∀ (v : State) m, (v.post m).ctx x = v.ctx x from fun _ _ => rfl, State.ctx_modCtx_self]
    · exact ⟨hc.slot, hc.inFlight, hc.endPending, hc.queue, hc.place, hc.halted, hc.idle⟩
    · exact ha
  cases f with
  | none => exact hdone s h
  | some cause =>
    unfold releaseAnswered
    dsimp only
    split
    · exact hdone _ (releaseFails_releases hst hr h cause)
    · exact hdone _ (releaseFails_releases (s := s.raise .step) hst hr ⟨h.1, fun _ => rfl⟩ cause)
    · exact hdone _ (releaseFails_releases hst hr h cause)

/-- What a context that releases is told keeps it on its way (R83). -/
theorem doMail_releases {s : State} {m : Mail} {st : Option Step} {halts there : Bool} (hst : ∀ tag, st ≠ some ⟨tag, .release⟩)
    (h : Releases s m.bus st halts there) : Releases (doMail s m) m.bus st halts there := by
  have hstate : (s.ctx m.bus).state = .releasing ∨ ((s.ctx m.bus).state.working = false ∧ (s.ctx m.bus).state ≠ .releasing) := by
    rcases h.1.place with ⟨_, hs, _⟩ | hp
    · exact .inl hs
    · right; rw [hp]; cases halts <;> exact ⟨rfl, nofun⟩
  by_cases hp : m = .poke m.bus
  · rw [hp]
    obtain ⟨hc, ha⟩ := poke_releases h
    refine ⟨hc.weaken (fun ht => ?_), ha⟩
    rw [ht]
    rfl
  · rcases hstate with hs | ⟨hw, hn⟩
    · cases m with
      | poke x => exact absurd rfl hp
      | opened x f =>
        have hmail : doMail s (.opened x f) = releaseAnswered s x f := by
          have hs' : (s.ctx x).state = .releasing := hs
          simp [doMail, hs']
        rw [hmail]
        exact releaseAnswered_releases hst hs h f
      | quieted x ok =>
        have hmail : doMail s (.quieted x ok) = askRelease (if ok then s else releaseFails s x .lane) x := by
          have hs' : (s.ctx x).state = .releasing := hs
          simp [doMail, hs']
        rw [hmail]
        refine askRelease_releases ?_
        split
        · exact h
        · exact releaseFails_releases hst hs h _
      | _ =>
        simp only [Mail.bus] at hs h ⊢
        simpa [doMail, hs] using h
    · rw [doMail_rest hw hn hp]; exact h

theorem drain_releases (n : Nat) {s : State} {x : Bus} {st : Option Step} {halts there : Bool} (hst : ∀ tag, st ≠ some ⟨tag, .release⟩)
    (h : Releases s x st halts there) : Releases (drain n s) x st halts there := by
  induction n generalizing s with
  | zero => exact h
  | succ n ih =>
    rw [drain]
    split
    · next w rest _ =>
      exact ih (h.run (((Keeps.refl (Q := fun _ => True) s).matrixWork rest).doMatrix w)
        (.doMatrix (L := False) (C := True) w trivial (.single (.plain _ rfl (fun _ => .inl)))))
    · next m rest _ hm =>
      have hpop : Run False True (fun y => y ≠ x) s { s with mail := rest } :=
        .single (.plain _ rfl (fun y hy => .inl (by rw [hm]; exact List.mem_cons_of_mem _ hy)))
      by_cases hx : m.bus = x
      · subst hx
        exact ih (doMail_releases (s := { s with mail := rest }) hst h)
      · exact ih (h.run (((Keeps.refl (Q := fun _ => True) s).mail rest).doMail m) (.doMail m trivial hx hpop))
    · exact h

/-- The source record of `c` has changed. -/
def Ctx.sourced (c : Ctx) (v : SrcState) : Ctx := { c with source := v }

/-- A quiet request changes the source record alone in its context, and raises nothing (R49). -/
theorem quietRequest_ctx (s : State) (x : Bus) :
    ∃ v, (quietRequest s x).1.ctx x = (s.ctx x).sourced v ∧ (quietRequest s x).1.trunk = s.trunk := by
  have hset : ∀ u : State, u.ctx x = s.ctx x → u.trunk = s.trunk → ∀ w,
      ∃ v, (u.setSource x w).ctx x = (s.ctx x).sourced v ∧ (u.setSource x w).trunk = s.trunk := fun u hu ht w =>
    ⟨w, by rw [State.setSource, State.ctx_modCtx_self, hu]; rfl, ht⟩
  have hsame : ∃ v, s.ctx x = (s.ctx x).sourced v ∧ s.trunk = s.trunk := ⟨(s.ctx x).source, rfl, rfl⟩
  unfold quietRequest
  split
  · exact hsame
  · cases (s.ctx x).source <;> dsimp only
    case live | unsure =>
      split
      · exact hset (sendQuiet s x) rfl rfl _
      · exact hset s rfl rfl _
    all_goals exact hsame

/-- A context whose step has ended enters RELEASING (R79, R83). -/
theorem enterReleasing_releases {s : State} {x : Bus} {st : Option Step} {halts : Bool} (hst : ∀ tag, st ≠ some ⟨tag, .release⟩)
    (hstep : (s.ctx x).step = st) (hslot : (s.ctx x).slot = none) (hend : (s.ctx x).endPending = none)
    (hqueue : (s.ctx x).queue = []) (hresume : halts = true → (s.ctx x).resume = .none) :
    Releases (enterReleasing s x (if halts then .halted else .idle)) x st halts false := by
  obtain ⟨v, hv, ht⟩ := quietRequest_ctx (s.modCtx x (fun c => c.toRelease (if halts then .halted else .idle))) x
  have hr : ∀ u : State, (∃ w q, u.ctx x = { (s.ctx x).toRelease (if halts then .halted else .idle) with source := w, request := q }) →
      (u.ctx x).state = .releasing ∧ Releases u x st halts false := by
    rintro u ⟨w, q, hu⟩
    have hs : (u.ctx x).state = .releasing := by rw [hu]; rfl
    refine ⟨hs, ?_, fun hh => by rw [hs] at hh; cases hh⟩
    rw [hu]
    exact ⟨hslot, rfl, hend, hqueue, .inl ⟨rfl, rfl, rfl, hstep⟩, fun hh => ⟨hresume hh, hstep⟩, nofun⟩
  rw [State.ctx_modCtx_self] at hv
  have hdef : enterReleasing s x (if halts then .halted else .idle) =
      match quietRequest (s.modCtx x (fun c => c.toRelease (if halts then .halted else .idle))) x with
      | (s, .waits) => s.modCtx x (fun c => { c with request := some .quiet })
      | (s, .failed) => askRelease (releaseFails s x .lane) x
      | (s, _) => askRelease s x := rfl
  rw [hdef]
  generalize quietRequest (s.modCtx x (fun c => c.toRelease (if halts then .halted else .idle))) x = r at hv
  obtain ⟨u, ans⟩ := r
  have hu := hr u ⟨v, _, hv⟩
  cases ans with
  | waits => exact (hr _ ⟨v, some .quiet, by rw [State.ctx_modCtx_self, hv]; rfl⟩).2
  | failed => exact askRelease_releases (releaseFails_releases hst hu.1 hu.2 _)
  | _ => exact askRelease_releases hu.2

/-- A bus whose release is not answered looks and does nothing (R83). -/
theorem poke_unreleased {s : State} {x : Bus} (he : (s.ctx x).endPending = none) (hr : (s.ctx x).state = .releasing)
    (hd : (s.ctx x).relDone = false) : poke s x = s := by
  unfold poke
  rw [placeEnd_none (.inr he)]
  dsimp only
  rw [hr, hd]
  rfl

/-- A release that is answered at once leads to its destination (R83). -/
theorem released_at_once {v : State} {x : Bus} {st : Option Step} {halts : Bool} (hst : ∀ tag, st ≠ some ⟨tag, .release⟩)
    (hw : v.matrixWork = []) (hm : v.mail = [.poke x, .opened x none]) (hr : (v.ctx x).state = .releasing)
    (hd : (v.ctx x).relDone = false) (h : Releases v x st halts false) :
    ∃ w, Delivers 3 v w ∧ Releases w x st halts true := by
  have hpoke : poke { v with mail := [.opened x none] } x = { v with mail := [.opened x none] } :=
    poke_unreleased (s := { v with mail := [.opened x none] }) h.1.endPending hr hd
  have hopened : doMail { v with mail := [] } (.opened x none) = releaseAnswered { v with mail := [] } x none := by
    simp only [doMail, show ({ v with mail := [] } : State).ctx x = v.ctx x from rfl, hr]
  have hrel : Releases (releaseAnswered { v with mail := [] } x none) x st halts false :=
    releaseAnswered_releases (s := { v with mail := [] }) hst hr h none
  have hdone : ((releaseAnswered { v with mail := [] } x none).ctx x).relDone = true :=
    congrArg Ctx.relDone (State.ctx_modCtx_self { v with mail := [] } x (fun c => { c with relDone := true }))
  have hlast := poke_releases (s := { releaseAnswered { v with mail := [] } x none with mail := [] }) hrel
  rw [show ({ releaseAnswered { v with mail := [] } x none with mail := [] } : State).ctx x =
    (releaseAnswered { v with mail := [] } x none).ctx x from rfl, hdone] at hlast
  refine ⟨_, .mail _ _ hw hm ?_, hlast⟩
  show Delivers 2 (poke { v with mail := [.opened x none] } x) _
  rw [hpoke]
  refine .mail _ _ hw rfl ?_
  rw [hopened]
  exact .mail (.poke x) [] hw rfl (.refl _)

end Sys2Proof.Machine
end

