-- ==== Sys2Proof/Proofs/FailedSites.lean ====
section
/-!
PROOFS. Sites that end INVALID: the record written out, a context that waits with its record, and the timers that end a site
(O50).
-/

-- One proof after another: in the joined text each worker would hold a stack of its own.
set_option Elab.async false

namespace Sys2Proof.Machine

/-! ### The INVALID record (R129, R131, R145) -/

/-- Flag W of an INVALID record: from a capture only (R122). -/
def Ctx.capturedWorn (c : Ctx) : Bool := match c.captured with | some k => k.worn | none => false

/-- The record of an INVALID site before its append (R129). -/
def invalidRec (s : State) (x : Bus) (cause : Cause) : Rec :=
  .measure (measOf s x .invalid (.invalid cause) ⟨false, false, false, (s.ctx x).capturedWorn, false⟩ 0 0 (invalidRow s x)
    (invalidSite (s.ctx x)))

@[simp] theorem judgementShown_out (s : State) (v : Verdict) (d : DispEntry) (site : Option Site) :
    (judgementShown s v d site).out = s.out := by
  unfold judgementShown; cases site <;> dsimp only <;> split <;> rfl

@[simp] theorem offered_out (s : State) (x : Bus) (c : Option Slot → Ctx) (sl : Slot) : (offered s x c sl).out = s.out := by
  unfold offered
  split
  · rfl
  · split
    · obtain ⟨a, -, happend⟩ := appendRecord_only s sl.record
      rw [happend]
      rfl
    · rfl

@[simp] theorem judgeInvalid_out (s : State) (x : Bus) (cause : Cause) : (judgeInvalid s x cause).out = s.out := by
  rw [judgeInvalid_eq, offered_out, judgementShown_out]

/-- A judgement shows in a site verdict record and a class of attention alone (R131, R134). -/
theorem judgementShown_shape (s : State) (v : Verdict) (d : DispEntry) (site : Option Site) :
    judgementShown s v d site = { s with
      trunk := (judgementShown s v d site).trunk
      panel := (judgementShown s v d site).panel } := by
  unfold judgementShown; cases site <;> dsimp only <;> split <;> rfl

/-- The change from `s` to `t` is at bus `x`, the queue and what a judgement shows, and `x` looks once more. -/
structure JudgedOnly (s t : State) (x : Bus) : Prop where
  tables : t.tables = s.tables
  matrix : t.matrix = s.matrix
  guard : t.guard = s.guard
  lanes : t.lanes = s.lanes
  out : t.out = s.out
  work : t.matrixWork = s.matrixWork
  mail : t.mail = s.mail ++ [.poke x]
  others : ∀ y, y ≠ x → t.ctx y = s.ctx y

/-- A record that is taken (R144). -/
theorem offered_only {s : State} (x : Bus) (c : Option Slot → Ctx) {sl : Slot} (h : sl.taken s = true) :
    JudgedOnly s (offered s x c sl) x := by
  have hset : ∀ (u : State) d y, y ≠ x → ((u.setCtx x d).post (.poke x)).ctx y = u.ctx y := fun u d y hy =>
    (State.ctx_setCtx u x y d).trans (if_neg (Ne.symm hy))
  unfold Slot.taken at h
  unfold offered
  split
  · exact ⟨rfl, rfl, rfl, rfl, rfl, rfl, rfl, hset _ _⟩
  · next hc =>
    rw [Bool.eq_false_iff.2 hc, Bool.false_or, decide_eq_true_iff] at h
    obtain ⟨a, -, happend⟩ := appendRecord_only s sl.record
    dsimp only at happend
    rw [if_pos h, happend]
    exact ⟨rfl, rfl, rfl, rfl, rfl, rfl, rfl, hset _ _⟩

theorem JudgedOnly.of_shown {s t : State} {x : Bus} {v : Verdict} {d : DispEntry} {site : Option Site}
    (h : JudgedOnly (judgementShown s v d site) t x) : JudgedOnly s t x := by
  rw [judgementShown_shape] at h
  exact ⟨h.tables, h.matrix, h.guard, h.lanes, h.out, h.work, h.mail, h.others⟩

theorem judgeInvalid_only {s : State} (x : Bus) (cause : Cause) (h : s.queue.records.length < 64) :
    JudgedOnly s (judgeInvalid s x cause) x := by
  rw [judgeInvalid_eq]
  exact (offered_only x _ (by rw [Slot.taken, judgementShown_queue, decide_eq_true h, Bool.or_true])).of_shown

/-- The offer of a record that is not folded: appended where there is room, else left in the slot (R144). -/
theorem Slot.taken_record (s : State) (r : Rec) : Slot.taken ⟨r, false⟩ s = decide (s.queue.records.length < 64) := by
  unfold Slot.taken; rw [Bool.and_false, Bool.false_or]

theorem judgeInvalid_ctx (s : State) (x : Bus) (cause : Cause) :
    (judgeInvalid s x cause).ctx x = (s.ctx x).judged .invalid (s.disp (invalidRow s x) .invalid) (invalidSite (s.ctx x))
      (if s.queue.records.length < 64 then none else some ⟨invalidRec s x cause, false⟩) := by
  rw [judgeInvalid_eq, offered_ctx_self]
  have htaken := Slot.taken_record (judgementShown s .invalid (s.disp (invalidRow s x) .invalid) (invalidSite (s.ctx x)))
    (invalidRec s x cause)
  rw [judgementShown_queue] at htaken
  refine congrArg _ ?_
  exact if_congr (by rw [← decide_eq_true_iff (p := s.queue.records.length < 64), ← htaken]; rfl) rfl rfl

theorem judgeInvalid_records (s : State) (x : Bus) (cause : Cause) :
    (judgeInvalid s x cause).queue.records =
      s.queue.records ++ (if s.queue.records.length < 64 then [(invalidRec s x cause).stamped s.queue] else []) := by
  have htaken := Slot.taken_record (judgementShown s .invalid (s.disp (invalidRow s x) .invalid) (invalidSite (s.ctx x)))
    (invalidRec s x cause)
  rw [judgementShown_queue] at htaken
  have hrec := offered_records (judgementShown s .invalid (s.disp (invalidRow s x) .invalid) (invalidSite (s.ctx x)))
    x ((s.ctx x).judged .invalid (s.disp (invalidRow s x) .invalid) (invalidSite (s.ctx x))) ⟨invalidRec s x cause, false⟩ rfl
  rw [judgementShown_queue] at hrec
  rw [judgeInvalid_eq]
  refine hrec.trans (congrArg _ (if_congr ?_ rfl rfl))
  rw [htaken]; exact decide_eq_true_iff

/-- An INVALID record as the obligations write it (R129, R145). -/
theorem invalidRec_stamped {s u : State} {x : Bus} {tag : Half} {row : Fin 16} {worn : Bool} {cause : Cause}
    (hq : u.queue = s.queue) (hp : u.panel.number = s.panel.number) (ht : u.tables = s.tables)
    (hi : (u.ctx x).inFlight = (s.ctx x).inFlight) (hw : (u.ctx x).sweep = (s.ctx x).sweep)
    (hsite : invalidSite (u.ctx x) = (u.ctx x).inFlight) (htag : (u.ctx x).stepTag = tag) (hrow : invalidRow u x = row)
    (hworn : (u.ctx x).capturedWorn = worn) :
    (invalidRec u x cause).stamped u.queue = invalidRecord s x tag row worn cause := by
  have hdisp := State.disp_congr ht row .invalid
  unfold invalidRec measOf invalidRecord
  rw [hsite, htag, hrow, hworn, hi, hw, hdisp, hp, hq]
  rfl

/-! ### A context that waits with its record (R80, R144) -/

/-- The site is judged, and its record waits in the slot. -/
def Ctx.Posts (c : Ctx) (sl : Slot) : Prop :=
  c.slot = some sl ∧ c.inFlight = none ∧ (∃ a, c.after = .act a) ∧ c.state.working = true

/-- Only the request and the state have changed. -/
def Ctx.Waits (c d : Ctx) : Prop :=
  d = { c with state := d.state, request := d.request } ∧ (c.request = none → d.request = none) ∧
    (c.state = .posting → d.state = .posting)

theorem Ctx.Waits.refl (c : Ctx) : c.Waits c := ⟨rfl, id, id⟩

theorem Ctx.Waits.trans {c d e : Ctx} (h : c.Waits d) (k : d.Waits e) : c.Waits e := by
  obtain ⟨h1, h2, h3⟩ := h
  obtain ⟨k1, k2, k3⟩ := k
  refine ⟨?_, k2 ∘ h2, k3 ∘ h3⟩
  rw [k1, h1]

theorem Ctx.Posts.waits {c d : Ctx} {sl : Slot} (h : c.Posts sl) (k : c.Waits d) (hd : d.state.working = true) : d.Posts sl := by
  obtain ⟨h1, h2, h3, -⟩ := h
  obtain ⟨k, -⟩ := k
  rw [k]
  exact ⟨h1, h2, h3, hd⟩

/-- A context POSTING without a request stands. -/
theorem Ctx.Waits.eq {c d : Ctx} (h : c.Waits d) (hs : c.state = .posting) (hr : c.request = none) : d = c := by
  obtain ⟨h1, h2, h3⟩ := h
  rw [h1, h2 hr, h3 hs, ← hs, ← hr]

theorem Ctx.Spared.waits {c d : Ctx} (h : c.Spared d) : c.Waits d ∧ (c.state.working = true → d.state.working = true) := by
  refine ⟨⟨h.rest, h.request, fun hp => ?_⟩, fun hw => ?_⟩
  · rcases h.state with hs | ⟨hs, -⟩
    · rw [hs, hp]
    · rw [hp] at hs; cases hs
  · rcases h.state with hs | ⟨-, hs⟩
    · rw [hs, hw]
    · rw [hs]; rfl

/-- Looking, a context whose record waits does nothing, or goes to POSTING. -/
theorem poke_posts {s : State} {x : Bus} {sl : Slot} (h : (s.ctx x).Posts sl) :
    poke s x = s ∨ poke s x = s.modCtx x (fun c => { c with state := .posting }) := by
  obtain ⟨hs, hi, ⟨a, ha⟩, hw⟩ := h
  unfold poke
  rw [placeEnd_none (.inl (by rw [hs]; nofun))]
  dsimp only
  rw [ha, hs]
  revert hw
  cases (s.ctx x).state <;> simp [CtxState.working, hi] <;> cases (s.ctx x).request <;> simp

theorem doMail_posts {s : State} {m : Mail} {sl : Slot} (h : (s.ctx m.bus).Posts sl) :
    doMail s m = s ∨ doMail s m = s.modCtx m.bus (fun c => { c with state := .posting }) := by
  have hpoke := poke_posts h
  obtain ⟨-, hi, -, hw⟩ := h
  cases m with
  | poke x => exact hpoke
  | makeRefused => exact .inl rfl
  | makeDone x => left; simp_all [doMail, Mail.bus]
  | makeFailed x => left; simp_all [doMail, Mail.bus]
  | opened x f =>
    revert hw
    simp only [Mail.bus] at hi hpoke ⊢
    cases hs : (s.ctx x).state <;> simp [doMail, hs, hi, CtxState.working]; exact hpoke
  | quieted x ok =>
    revert hw
    simp only [Mail.bus] at hi hpoke ⊢
    cases hs : (s.ctx x).state <;> simp [doMail, hs, hi, CtxState.working]; exact hpoke
  | lived x ok =>
    revert hw
    simp only [Mail.bus] at hi hpoke ⊢
    cases hs : (s.ctx x).state <;> simp [doMail, hs, hi, CtxState.working]; exact hpoke

/-- Whatever follows from a command, a record that waits in its slot stays there. -/
theorem drain_posts (n : Nat) {s : State} {x : Bus} {sl : Slot} (h : (s.ctx x).Posts sl) :
    (s.ctx x).Waits ((drain n s).ctx x) ∧ ((drain n s).ctx x).state.working = true := by
  induction n generalizing s with
  | zero => exact ⟨.refl _, h.2.2.2⟩
  | succ n ih =>
    have hstep : ∀ v : State, (s.ctx x).Waits (v.ctx x) → (v.ctx x).state.working = true →
        (s.ctx x).Waits ((drain n v).ctx x) ∧ ((drain n v).ctx x).state.working = true := fun v hv hvw =>
      ⟨hv.trans (ih (h.waits hv hvw)).1, (ih (h.waits hv hvw)).2⟩
    have hspare : ∀ v : State, (s.ctx x).Spared (v.ctx x) → (s.ctx x).Waits ((drain n v).ctx x) ∧
        ((drain n v).ctx x).state.working = true := fun v hv => hstep v hv.waits.1 (hv.waits.2 h.2.2.2)
    rw [drain]
    split
    · next w rest _ =>
      have r : Run False True (fun _ => False) { s with matrixWork := rest } (doMatrix { s with matrixWork := rest } w) :=
        Run.doMatrix w trivial .refl
      exact hspare _ (r.spared (x := x) id)
    · next m rest _ _ =>
      by_cases hx : m.bus = x
      · subst hx
        rcases doMail_posts (s := { s with mail := rest }) (m := m) h with he | he
        · rw [he]; exact hstep _ (.refl _) h.2.2.2
        · rw [he]
          refine hstep _ ?_ (by rw [State.ctx_modCtx_self]; rfl)
          rw [State.ctx_modCtx_self]
          exact ⟨rfl, id, fun _ => rfl⟩
      · have r : Run False True (fun y => y = m.bus) { s with mail := rest } (doMail { s with mail := rest } m) :=
          Run.doMail m trivial rfl .refl
        exact hspare _ (r.spared (x := x) (fun e => hx e.symm))
    · exact ⟨.refl _, h.2.2.2⟩

/-! ### The end of a command: the queue and the frames -/

theorem finish_ctx (s : State) (x : Bus) : (finish s).ctx x = (drain drainBound s).ctx x := by
  rw [State.ctx, State.ctx, finish, pump_ctxs, (panelCheck_only _).ctxs]

/-- A full queue takes no record (R144, R150). -/
theorem finish_full {s : State} (h : 64 ≤ s.queue.records.length) : (finish s).queue.records = s.queue.records := by
  have hdrain : (drain drainBound s).queue.records = s.queue.records :=
    (Run.drain (L := False) (C := True) (Y := fun _ => True) drainBound trivial (fun _ => trivial) .refl).queueFull h
  have hcheck : ∀ u : State, 64 ≤ u.queue.records.length → (panelCheck u).queue.records = u.queue.records := fun u hu => by
    unfold panelCheck offerClosingFold
    split
    · split
      · rfl
      · split
        · next hl => exact absurd hl (Nat.not_lt.2 hu)
        · rfl
    · rfl
  rw [finish, pump_queue, hcheck _ (by rw [hdrain]; exact h), hdrain]

theorem finish_sent (s : State) : ∃ l, (finish s).out = s.out ++ l := by
  obtain ⟨l, hl⟩ := (Run.drain (L := False) (C := True) (Y := fun _ => True) drainBound trivial (fun _ => trivial) (.refl (a := s))).sent
  exact ⟨l, by rw [finish, pump_out, (panelCheck_only _).out, hl]⟩

/-! ### The end of a site (R80) -/

/-- What the context does by its state before its site is judged (R80). -/
def beforeEnd (s : State) (x : Bus) : State :=
  if (s.ctx x).state = .blocked ∨ (s.ctx x).state = .making then withdrawMake s x
  else if (s.ctx x).state = .settling then s.modCtx x Ctx.settled
  else stopTake s x

theorem endSite_eq (s : State) (x : Bus) (cause : Cause) : endSite s x cause =
    ((judgeInvalid (beforeEnd s x) x cause).modCtx x (fun c => if c.request.isNone then { c with state := .posting } else c)).post
      (.poke x) := by
  unfold endSite beforeEnd stopTake
  cases hs : (s.ctx x).state
  case settling => simp; rfl
  all_goals simp

/-- Nothing that a judgement of bus `x` reads or writes has changed. -/
structure Unjudged (s u : State) (x : Bus) : Prop where
  queue : u.queue = s.queue
  tables : u.tables = s.tables
  number : u.panel.number = s.panel.number
  ctx : u.ctx x = { s.ctx x with
    state := (u.ctx x).state, request := (u.ctx x).request, settleTimer := (u.ctx x).settleTimer
    takeTag := (u.ctx x).takeTag, acc := (u.ctx x).acc, measureTimer := (u.ctx x).measureTimer }
  working : (s.ctx x).state.working = true → (u.ctx x).state.working = true
  request : (s.ctx x).request = none → (u.ctx x).request = none

theorem Unjudged.of_run {L C : Prop} {Q : Rec → Prop} {s u : State} {x : Bus} (k : Keeps Q s u) (h : Run L C (fun _ => False) s u) :
    Unjudged s u x where
  queue := h.queueStays (fun _ => id)
  tables := k.tables
  number := k.panelNumber
  ctx := by rw [(h.spared (x := x) id).rest]
  working := (h.spared (x := x) id).waits.2
  request := (h.spared (x := x) id).request

theorem Unjudged.trans {s u v : State} {x : Bus} (h : Unjudged s u x) (k : Unjudged u v x) : Unjudged s v x where
  queue := k.queue.trans h.queue
  tables := k.tables.trans h.tables
  number := k.number.trans h.number
  ctx := by rw [k.ctx, h.ctx]
  working := k.working ∘ h.working
  request := k.request ∘ h.request

theorem beforeEnd_unjudged (s : State) (x : Bus) : Unjudged s (beforeEnd s x) x := by
  unfold beforeEnd
  split
  · exact .of_run ((Keeps.refl (Q := fun _ => False) s).withdrawMake x) (Run.withdrawMake (L := False) (C := False) x .refl)
  · split
    · refine ⟨rfl, rfl, rfl, ?_, ?_, ?_⟩ <;> rw [State.ctx_modCtx_self]
      · rfl
      · exact id
      · exact id
    · have hk := stopTake_keeps s x
      refine ⟨stopTake_queue s x, hk.tables, hk.panelNumber, ?_, ?_, ?_⟩ <;> rw [stopTake_ctx, Ctx.stopped_eq]
      · exact id
      · exact id

/-- Such a change does not show in the record. -/
theorem Unjudged.invalidRec {s u : State} {x : Bus} (h : Unjudged s u x) (cause : Cause) : invalidRec u x cause = invalidRec s x cause := by
  have hrow : invalidRow u x = invalidRow s x := invalidRow_congr (by rw [h.tables]) (by rw [h.ctx]) (by rw [h.ctx])
  have hdisp := State.disp_congr h.tables (invalidRow s x) .invalid
  unfold Machine.invalidRec measOf
  rw [hrow, hdisp, h.number, h.ctx]
  rfl

theorem Unjudged.invalidSite {s u : State} {x : Bus} (h : Unjudged s u x) : invalidSite (u.ctx x) = invalidSite (s.ctx x) := by
  rw [h.ctx]; rfl

/-- The end of a site appends its record where there is room (R80, R144). -/
theorem endSite_records (s : State) (x : Bus) (cause : Cause) : (endSite s x cause).queue.records =
    s.queue.records ++ (if s.queue.records.length < 64 then [(invalidRec s x cause).stamped s.queue] else []) := by
  have h := beforeEnd_unjudged s x
  rw [endSite_eq]
  show (judgeInvalid (beforeEnd s x) x cause).queue.records = _
  rw [judgeInvalid_records, h.invalidRec, h.queue]

/-- The context after its site has ended, the slot holding what a full queue has not taken (R80). -/
theorem endSite_ctx (s : State) (x : Bus) (cause : Cause) : ∃ c, c = ((beforeEnd s x).ctx x).judged .invalid
      (s.disp (invalidRow s x) .invalid) (invalidSite (s.ctx x))
      (if s.queue.records.length < 64 then none else some ⟨invalidRec s x cause, false⟩) ∧
    (endSite s x cause).ctx x = { c with state := if c.request = none then .posting else c.state } := by
  have h := beforeEnd_unjudged s x
  have hrow : invalidRow (beforeEnd s x) x = invalidRow s x := invalidRow_congr (by rw [h.tables]) (by rw [h.ctx]) (by rw [h.ctx])
  refine ⟨_, rfl, ?_⟩
  rw [endSite_eq]
  show ((judgeInvalid (beforeEnd s x) x cause).modCtx x _).ctx x = _
  rw [State.ctx_modCtx_self, judgeInvalid_ctx, h.invalidRec, h.invalidSite, h.queue, hrow, State.disp_congr h.tables]
  generalize Ctx.judged _ _ _ _ _ = c
  cases hr : c.request with
  | none => rw [if_pos rfl]; simp
  | some r => rw [if_neg (by nofun), if_neg (by nofun), ← hr]

/-- With the queue full the record waits (R144). -/
theorem endSite_posts {s : State} {x : Bus} (hw : (s.ctx x).state.working = true) (cause : Cause) (h64 : 64 ≤ s.queue.records.length) :
    ((endSite s x cause).ctx x).Posts ⟨invalidRec s x cause, false⟩ := by
  obtain ⟨c, hc, he⟩ := endSite_ctx s x cause
  rw [if_neg (Nat.not_lt.2 h64)] at hc
  have hcw : c.state.working = true := by rw [hc]; exact (beforeEnd_unjudged s x).working hw
  rw [he]
  refine ⟨by rw [hc]; rfl, by rw [hc]; rfl, ⟨_, by rw [hc]; rfl⟩, ?_⟩
  dsimp only
  split
  · rfl
  · exact hcw

theorem endSite_posting {s : State} {x : Bus} (hr : (s.ctx x).request = none) (cause : Cause) :
    ((endSite s x cause).ctx x).state = .posting ∧ ((endSite s x cause).ctx x).request = none := by
  obtain ⟨c, hc, he⟩ := endSite_ctx s x cause
  have hreq : c.request = none := by rw [hc]; exact (beforeEnd_unjudged s x).request hr
  rw [he]
  exact ⟨if_pos hreq, hreq⟩

/-- A command that ends the site of bus `x` while it works through its consequences (R78, R80, R144). -/
theorem judgedOrPosted_of_delivers {s v u : State} {x : Bus} {cause : Cause} {k : Nat} {r : Rec}
    (h : Delivers k v (endSite u x cause)) (hk : k ≤ drainBound) (hu : Unjudged s u x) (hw : (u.ctx x).state.working = true)
    (hreq : (u.ctx x).request = none) (ht : v.tables = s.tables) (hg : v.guard = s.guard) (hl : v.lanes = s.lanes)
    (hq : 64 ≤ s.queue.records.length → v.queue.records = s.queue.records) (hrec : (invalidRec u x cause).stamped u.queue = r) :
    JudgedOrPosted s (finish v) x r ∧
      (64 ≤ s.queue.records.length → (finish v).ctx x = (endSite u x cause).ctx x) := by
  have hleaves := finish_leaves v
  have hrun : ∀ n w, Run False True (fun _ => True) w (drain n w) := fun n w => Run.drain n trivial (fun _ => trivial) .refl
  have hposts : 64 ≤ s.queue.records.length → (finish v).ctx x = (endSite u x cause).ctx x := fun h64 => by
    rw [finish_ctx, h.drainAll hk]
    have hp := endSite_posting hreq cause
    exact (drain_posts _ (endSite_posts hw cause (by rw [hu.queue]; exact h64))).1.eq hp.1 hp.2
  refine ⟨⟨?_, ?_, ?_, fun hlt => ?_, fun h64 => ?_⟩, hposts⟩
  · rw [hleaves.1, ht]
  · rw [finish_guard, hg]
  · rw [hleaves.2.1, hl]
  · obtain ⟨l, hl, -⟩ := (Keeps.drain (Q := fun _ => False) (drainBound - k) (.refl (endSite u x cause))).records
    obtain ⟨l', hl'⟩ := (panelCheck_only (drain drainBound v)).records
    refine ⟨l ++ l', ?_⟩
    rw [finish, pump_queue, hl', h.drainAll hk, hl, endSite_records, hu.queue, if_pos hlt, ← hu.queue, hrec, hu.queue]
    simp
  · have hp := endSite_posting hreq cause
    obtain ⟨hslot, hin, -⟩ := endSite_posts hw cause (x := x) (s := u) (by rw [hu.queue]; exact h64)
    rw [hposts h64, finish_full (by rw [hq h64]; exact h64), hq h64]
    exact ⟨hp.1, by rw [hslot]; rfl, hin, hp.2, rfl⟩

/-! ### The timers that end a site (R33, R77) -/

theorem exec_blockWaitExpiry {s : State} {x : Bus} (h : (s.ctx x).waitsFor ≠ []) :
    exec (.blockWaitExpiry x) s = .next (finish (blockWaitExpired s.begin x)) :=
  if_neg (fun hc => h (List.isEmpty_iff.1 hc))

theorem exec_measureTimeout {s : State} {x : Bus} (hs : (s.ctx x).state = .measuring) (ht : (s.ctx x).measureTimer.isSome = true) :
    exec (.measureTimeout x) s = .next (finish (endSite s.begin x .timeout)) := if_pos ⟨hs, ht⟩

/-- The record of a MEASURE step's site is made from its own row (R80). -/
theorem invalidRow_measure {s : State} {x : Bus} {stag : Half} {sel : Selection} {n : Net} {lim : Fin 256} {k d timeout : Nat} {hold : Bool}
    (hstep : (s.ctx x).step = some ⟨stag, .measure sel n lim k d timeout hold⟩) :
    invalidSite (s.ctx x) = (s.ctx x).inFlight ∧ (s.ctx x).stepTag = stag ∧
      ((s.ctx x).captured = none → invalidRow s x = s.tables.limits[lim].row ∧ (s.ctx x).capturedWorn = false) ∧
      ∀ cap, (s.ctx x).captured = some cap → invalidRow s x = cap.limit.row ∧ (s.ctx x).capturedWorn = cap.worn := by
  unfold invalidSite Ctx.stepTag invalidRow Ctx.capturedWorn
  rw [hstep]
  refine ⟨rfl, rfl, fun h => ?_, fun cap h => ?_⟩ <;> rw [h] <;> exact ⟨rfl, rfl⟩

/-- The context whose block wait has ended (R33). -/
def Ctx.unasked (c : Ctx) : Ctx := { c with request := none }

theorem blockWaitExpired_queue (s : State) (x : Bus) : (blockWaitExpired s x).queue = s.queue := by
  show (returnReservations _ x).queue = _
  rw [returnReservations_eq]; rfl

theorem blockWaitExpired_mail {s : State} (hq : Quiesced s) (x : Bus) : (blockWaitExpired s.begin x).mail = [.makeFailed x .conflict] := by
  show (returnReservations _ x).mail ++ _ = _
  rw [returnReservations_eq]
  exact congrArg (· ++ [Mail.makeFailed x .conflict]) hq.2

theorem blockWaitExpired_ctx (s : State) (x : Bus) : (blockWaitExpired s x).ctx x = (s.ctx x).unasked := by
  show (returnReservations _ x).ctx x = _
  rw [returnReservations_ctx, State.ctx_modCtx_self]; rfl

/-- The reservations are given back (R33). -/
theorem blockWaitExpired_xp (s : State) (x : Bus) (p : Pt) : (blockWaitExpired s x).xp x p = (s.xp x p).unreserved := by
  show (returnReservations _ x).xp x p = _
  rw [returnReservations_xp, if_pos rfl]; rfl

theorem blockWaitExpired_cards (s : State) (x : Bus) : (blockWaitExpired s x).matrix.cards = s.matrix.cards := by
  show (returnReservations _ x).matrix.cards = _
  rw [returnReservations_eq]; rfl

/-- A crosspoint that is claimed by a reservation at most is not claimed once it is given back (R19). -/
theorem XRec.unreserved_free {r : XRec} (h : r.state ≠ .opn → r.state = .reserved) : ¬ (r.unreserved.state != .opn) = true := by
  unfold XRec.unreserved
  split
  · simp
  · next hr => simpa using fun hn => hr (h hn)

theorem XRec.unreserved_ne (r : XRec) : r.unreserved.state ≠ .reserved := by
  unfold XRec.unreserved
  split
  · nofun
  · next h => exact h

/-- What the expiry of a block wait comes to: the failed request is told once the returned points are granted (R33). -/
theorem blockWait_delivers {s : State} {x : Bus} (hq : Quiesced s) (hs : (s.ctx x).state = .blocked) (hi : (s.ctx x).inFlight.isSome = true) :
    ∃ k u, Delivers k (blockWaitExpired s.begin x) (endSite u x .conflict) ∧ k ≤ drainBound ∧ Unjudged s u x ∧
      (u.ctx x).state.working = true ∧ (u.ctx x).request = none ∧
      Run True True (fun _ => False) (blockWaitExpired s.begin x) u := by
  have hplaces : Places 256 s.begin (blockWaitExpired s.begin x) :=
    ((Places.dropRequest s.begin x).trans (.returnReservations _ x)).trans (.post _ _)
  have hwork : s.begin.matrixWork = [] := hq.1
  have hsends : SendsIdle (blockWaitExpired s.begin x) := hplaces.sends (fun c hc => by rw [hwork] at hc; cases hc)
  have hctx : (blockWaitExpired s.begin x).ctx x = (s.ctx x).unasked := blockWaitExpired_ctx _ x
  have hmail : (blockWaitExpired s.begin x).mail = [.makeFailed x .conflict] := blockWaitExpired_mail hq x
  obtain ⟨k, u, hk, hle, -, -, hkeep, hrun⟩ := tellsFirst hsends hmail
  have hspared := Run.spared (x := x) hrun id
  rw [hctx] at hspared
  have hin : (u.ctx x).inFlight.isSome = true := by rw [hspared.rest]; exact hi
  have hstate : (u.ctx x).state = .blocked ∨ (u.ctx x).state = .making := by
    rcases hspared.state with h | ⟨-, h⟩
    · exact .inl (h.trans hs)
    · exact .inr h
  have htold : doMail u (.makeFailed x .conflict) = endSite u x .conflict := by
    refine if_pos ?_
    rw [Bool.and_eq_true, Bool.or_eq_true, decide_eq_true_iff, decide_eq_true_iff]
    exact ⟨hstate.symm, hin⟩
  rw [htold] at hk
  refine ⟨k, u, hk, ?_, (?_ : Unjudged s (blockWaitExpired s.begin x) x).trans (.of_run hkeep hrun), ?_, hspared.request rfl, hrun⟩
  · have hlen := hplaces.work
    have hle' := workLeft_le (blockWaitExpired s.begin x)
    rw [hwork] at hlen
    simp only [List.length_nil] at hlen
    unfold drainBound
    omega
  · have hk := (Keeps.refl (Q := fun _ => False) s.begin).blockWaitExpired x
    refine ⟨blockWaitExpired_queue _ x, hk.tables, hk.panelNumber, ?_, ?_, ?_⟩
    all_goals rw [hctx]
    · rfl
    · exact id
    · exact fun _ => rfl
  · rcases hstate with h | h <;> exact (congrArg CtxState.working h).trans rfl

/-- A change of a context that changes nothing. -/
theorem State.modCtx_same {s : State} {x : Bus} {f : Ctx → Ctx} (h : f (s.ctx x) = s.ctx x) : s.modCtx x f = s := by
  rw [State.modCtx, h]
  unfold State.setCtx State.ctx
  simp

/-- A context that waits POSTING is left alone by all that follows from a command (R144). -/
theorem drain_posting (n : Nat) {s : State} {x : Bus} {sl : Slot} (h : (s.ctx x).Posts sl) (hs : (s.ctx x).state = .posting)
    (hr : (s.ctx x).request = none) : Run False True (fun y => y ≠ x) s (drain n s) := by
  induction n generalizing s with
  | zero => exact .refl
  | succ n ih =>
    have hstep : ∀ v : State, Run False True (fun y => y ≠ x) s v → Run False True (fun y => y ≠ x) s (drain n v) := fun v hv => by
      have hc := (Run.spared (x := x) hv (fun h => h rfl)).waits.1.eq hs hr
      exact hv.trans (ih (by rw [hc]; exact h) (by rw [hc]; exact hs) (by rw [hc]; exact hr))
    rw [drain]
    split
    · next w rest _ => exact hstep _ (.doMatrix w trivial (.single (.plain _ rfl (fun _ => .inl))))
    · next m rest _ hm =>
      have hpop : Run False True (fun y => y ≠ x) s { s with mail := rest } :=
        .single (.plain _ rfl (fun y hy => .inl (by rw [hm]; exact List.mem_cons_of_mem _ hy)))
      by_cases hx : m.bus = x
      · subst hx
        have hsame : doMail { s with mail := rest } m = { s with mail := rest } := by
          rcases doMail_posts (s := { s with mail := rest }) (m := m) h with he | he
          · exact he
          · rw [he]
            exact State.modCtx_same (s := { s with mail := rest }) (f := fun c => { c with state := .posting })
              (by rw [show ({ s with mail := rest } : State).ctx m.bus = s.ctx m.bus from rfl, ← hs])
        rw [hsame]
        exact hstep _ hpop
      · exact hstep _ (.doMail m trivial hx hpop)
    · exact .refl

theorem stopTake_matrix (s : State) (x : Bus) : (stopTake s x).matrix = s.matrix := by
  unfold stopTake cancelTake
  dsimp only
  split
  · split <;> rfl
  · rfl

/-- Ending a site, the context leaves the matrix alone where it asks for nothing (R80). -/
theorem endSite_matrix {s : State} {x : Bus} (hr : (s.ctx x).request = none) (cause : Cause) :
    (endSite s x cause).matrix = s.matrix := by
  rw [endSite_eq, State.post_matrix, State.modCtx_matrix, judgeInvalid_matrix]
  unfold beforeEnd
  split
  · unfold withdrawMake; rw [hr]
  · split
    · rfl
    · exact stopTake_matrix s x

/-- With the queue full, a failed request leaves its bus without a reservation (R33). -/
theorem endSite_unreserved {v u : State} {x : Bus} {cause : Cause} {k : Nat} (h : Delivers k v (endSite u x cause))
    (hk : k ≤ drainBound) (hw : (u.ctx x).state.working = true) (hreq : (u.ctx x).request = none)
    (h64 : 64 ≤ u.queue.records.length) {p : Pt} (hp : (u.xp x p).state ≠ .reserved) : ((finish v).xp x p).state ≠ .reserved := by
  have hposts := endSite_posting hreq cause
  have hrun := drain_posting (drainBound - k) (endSite_posts hw cause h64) hposts.1 hposts.2
  have hmatrix : (finish v).matrix = (drain (drainBound - k) (endSite u x cause)).matrix := by
    rw [finish, pump_matrix, (panelCheck_only _).matrix, h.drainAll hk]
  have hxp : ∀ y : State, y.matrix = u.matrix → (y.xp x p).state ≠ .reserved := fun y hy => by rw [State.xp, hy]; exact hp
  rw [State.xp, hmatrix]
  refine Run.unreservedElse hrun (fun hx => hx rfl) (fun r => by rw [hposts.2]; nofun) (hxp _ ?_)
  exact endSite_matrix hreq cause

theorem beforeEnd_measuring {s : State} {x : Bus} (hs : (s.ctx x).state = .measuring) :
    beforeEnd s.begin x = stopTake s.begin x := by
  unfold beforeEnd
  simp [begin_ctx, hs]

/-- What a MEASURE_TIMEOUT leaves of the take (R77). -/
theorem measureTimeout_frames {s : State} {x : Bus} (hs : (s.ctx x).state = .measuring) (hu : s.channelUsable x = true) :
    ∃ fs, (finish (endSite s.begin x .timeout)).out = ((s.busEntry x).lane, .cancel (s.busEntry x).channel (s.ctx x).takeTag) :: fs := by
  have hbefore : beforeEnd s.begin x = cancelTake s.begin x := by
    rw [beforeEnd_measuring hs, stopTake, begin_ctx, if_pos hs]
  have hcancel : (cancelTake s.begin x).out = [((s.busEntry x).lane, .cancel (s.busEntry x).channel (s.ctx x).takeTag)] := by
    unfold cancelTake
    dsimp only
    rw [if_pos (show s.begin.channelUsable x = true from hu)]
    rfl
  obtain ⟨l, hl⟩ := finish_sent (endSite s.begin x .timeout)
  have hout : (endSite s.begin x .timeout).out = (cancelTake s.begin x).out := by
    rw [endSite_eq, hbefore, State.post_out, State.modCtx_out, judgeInvalid_out]
  exact ⟨l, by rw [hl, hout, hcancel]; rfl⟩

/-- The record of a judged or posted site of a MEASURE step, as its step gives it. -/
theorem Unjudged.record {s u : State} {x : Bus} (h : Unjudged s u x) {tag : Half} {row : Fin 16} {worn : Bool} (cause : Cause)
    (hsite : Machine.invalidSite (s.ctx x) = (s.ctx x).inFlight) (htag : (s.ctx x).stepTag = tag) (hrow : invalidRow s x = row)
    (hworn : (s.ctx x).capturedWorn = worn) :
    (Machine.invalidRec u x cause).stamped u.queue = invalidRecord s x tag row worn cause := by
  rw [h.invalidRec, h.queue]
  exact invalidRec_stamped rfl rfl rfl rfl rfl hsite htag hrow hworn

/-! ### A CONNECT step that fails (R80, R83) -/

theorem beforeEnd_unasked {s : State} {x : Bus} (hs : (s.ctx x).state = .blocked ∨ (s.ctx x).state = .making)
    (hr : (s.ctx x).request = none) : beforeEnd s x = s := by
  unfold beforeEnd withdrawMake
  rw [if_pos hs, hr]

/-- The context whose site has ended with its record taken (R80). -/
def Ctx.ended (c : Ctx) (d : DispEntry) (site : Option Site) : Ctx := { c.judged .invalid d site none with state := .posting }

/-- A site that ends with its make withdrawn, its record taken (R80). -/
theorem endSite_unasked {s : State} {x : Bus} (hs : (s.ctx x).state = .blocked ∨ (s.ctx x).state = .making)
    (hr : (s.ctx x).request = none) (cause : Cause) (h : s.queue.records.length < 64) :
    (endSite s x cause).ctx x = (s.ctx x).ended (s.disp (invalidRow s x) .invalid) (invalidSite (s.ctx x)) ∧
      (endSite s x cause).tables = s.tables ∧ (endSite s x cause).matrix = s.matrix ∧
      (endSite s x cause).matrixWork = s.matrixWork ∧ (endSite s x cause).mail = s.mail ++ [.poke x, .poke x] := by
  have hj := judgeInvalid_only x cause h
  refine ⟨?_, ?_, ?_, ?_, ?_⟩
  · obtain ⟨c, hc, he⟩ := endSite_ctx s x cause
    rw [beforeEnd_unasked hs hr, if_pos h] at hc
    have hreq : c.request = none := by rw [hc]; exact hr
    rw [he, if_pos hreq, hc]
    rfl
  all_goals rw [endSite_eq, beforeEnd_unasked hs hr]
  · exact hj.tables
  · exact hj.matrix
  · exact hj.work
  · rw [State.post_mail, State.modCtx_mail, hj.mail, List.append_assoc]; rfl

theorem Sweep.join_of_running {w : Sweep} {site : Option Site} (h : (w.join site).status = .running) : w.status = .running := by
  unfold Sweep.join at h
  split at h
  · next hr => exact hr
  · exact h

theorem State.breaksOutstanding_congr {s t : State} (h : t.matrix.cards = s.matrix.cards) (x : Bus) :
    t.breaksOutstanding x = s.breaksOutstanding x := by
  unfold State.breaksOutstanding State.card
  rw [h]

theorem State.claims_congr {s t : State} (h : t.matrix = s.matrix) (x : Bus) : t.claims x = s.claims x := by
  unfold State.claims State.claimed State.xp
  rw [h]

/-- A context with a CONNECT step goes on after its site: it releases (R79). -/
theorem goOn_connect {s : State} {x : Bus} {stag : Half} {u : Site} {n : Net} (hstep : (s.ctx x).step = some ⟨stag, .connect u n⟩)
    (hw : (s.ctx x).sweep.status ≠ .running) (a : Action) :
    ∃ r, goOn s x a = enterReleasing (s.modCtx x (fun c => { c with resume := r })) x
      (if (a == .haltBus) = true then .halted else .idle) ∧ ((a == .haltBus) = true → r = .none) := by
  have hnone : (s.ctx x).nextOrNone = .none := if_neg hw
  have hend : endStep s x = enterReleasing s x .idle := by unfold endStep; rw [hstep]
  have hsame : s.modCtx x (fun c => { c with resume := (s.ctx x).resume }) = s := State.modCtx_same rfl
  cases a with
  | haltBus =>
    refine ⟨.none, ?_, fun _ => rfl⟩
    rw [← hnone]
    rfl
  | _ =>
    refine ⟨(s.ctx x).resume, ?_, nofun⟩
    rw [hsame]
    exact (if_neg hw).trans hend

/-- A context whose record is taken looks and goes on by its action (R79). -/
theorem poke_ended {s : State} {x : Bus} {c : Ctx} {d : DispEntry} {site : Option Site} (hc : s.ctx x = c.ended d site)
    (he : c.endPending = none) (hw : c.sweep.status ≠ .running) (hr : c.request = none) : poke s x = goOn s x d.action := by
  have hend : (c.ended d site).endPending = none := by
    show (if _ then _ else c.endPending) = none
    rw [if_neg (by simp [hw]), he]
  unfold poke
  rw [placeEnd_none (.inr (by rw [hc]; exact hend))]
  dsimp only
  rw [hc, hend]
  have hreq : (c.ended d site).request = none := hr
  rw [hreq]
  rfl

/-- The end of a CONNECT step's site leads to the release of its bus (R79, R80, R83). -/
theorem endSite_connect {b : State} {x : Bus} {stag : Half} {u : Site} {n : Net} (hq : Quiesced b)
    (hs : (b.ctx x).state = .blocked ∨ (b.ctx x).state = .making) (hr : (b.ctx x).request = none)
    (hstep : (b.ctx x).step = some ⟨stag, .connect u n⟩) (he : (b.ctx x).endPending = none)
    (hw : (b.ctx x).sweep.status ≠ .running) (hqueue : (b.ctx x).queue = []) (hlen : b.queue.records.length < 64) (cause : Cause) :
    (∃ v, Delivers 1 (endSite b x cause) v ∧
      Releases v x (b.ctx x).step ((b.disp (invalidRow b x) .invalid).action == .haltBus) false) ∧
    (b.sourceQuiet x = true → b.breaksOutstanding x = false → b.claims x = [] → ∃ v, Delivers 4 (endSite b x cause) v ∧
      Releases v x (b.ctx x).step ((b.disp (invalidRow b x) .invalid).action == .haltBus) true) := by
  obtain ⟨hctx, htables, hmatrix, hwork, hmail⟩ := endSite_unasked hs hr cause hlen
  rw [hq.1] at hwork
  rw [hq.2] at hmail
  have hst : ∀ tag, (b.ctx x).step ≠ some ⟨tag, .release⟩ := fun tag h => by rw [hstep] at h; cases h
  generalize endSite b x cause = e at hctx htables hmatrix hwork hmail
  generalize hd : b.disp (invalidRow b x) .invalid = d at hctx
  have hpop : ({ e with mail := [.poke x] } : State).ctx x = (b.ctx x).ended d (invalidSite (b.ctx x)) := hctx
  obtain ⟨r, hgo, hres⟩ := goOn_connect (s := { e with mail := [.poke x] }) (x := x) (stag := stag) (u := u) (n := n)
    (by rw [hpop]; exact hstep) (by rw [hpop]; exact fun h => hw (Sweep.join_of_running h)) d.action
  have hfirst : Delivers 1 e (goOn { e with mail := [.poke x] } x d.action) := by
    refine .mail (.poke x) [.poke x] hwork hmail ?_
    show Delivers 0 (poke { e with mail := [.poke x] } x) _
    rw [poke_ended hpop he hw hr]
    exact .refl _
  have hresumed : (({ e with mail := [.poke x] } : State).modCtx x (fun c => { c with resume := r })).ctx x =
      { (b.ctx x).ended d (invalidSite (b.ctx x)) with resume := r } := by rw [State.ctx_modCtx_self, hpop]
  have hend : ((b.ctx x).ended d (invalidSite (b.ctx x))).endPending = none := by
    show (if _ then _ else (b.ctx x).endPending) = none
    rw [if_neg (by simp [hw]), he]
  have hreleases := enterReleasing_releases (s := ({ e with mail := [.poke x] } : State).modCtx x (fun c => { c with resume := r }))
    (x := x) (st := (b.ctx x).step) (halts := d.action == .haltBus) hst (by rw [hresumed]; rfl) (by rw [hresumed]; rfl)
    (by rw [hresumed]; exact hend) (by rw [hresumed]; exact hqueue) (fun h => by rw [hresumed]; exact hres h)
  rw [hgo] at hfirst
  refine ⟨⟨_, hfirst, hreleases⟩, fun hquiet hbreaks hclaims => ?_⟩
  have hnothing := enterReleasing_nothing (s := ({ e with mail := [.poke x] } : State).modCtx x (fun c => { c with resume := r }))
    (x := x) (by
      rw [State.sourceQuiet, hresumed]
      show ((e.tables.buses[x]).kind != .source || (b.ctx x).source == .quiet) = true
      rw [htables]; exact hquiet)
    (by rw [← hbreaks]; exact State.breaksOutstanding_congr (congrArg _ hmatrix) x) (by rw [← hclaims]; exact State.claims_congr hmatrix x)
    (if (d.action == .haltBus) = true then .halted else .idle)
  obtain ⟨v, hv, hreleased⟩ := released_at_once hst (v := enterReleasing _ x _) (by rw [hnothing]; exact hwork)
    (by rw [hnothing]; rfl) (by rw [hnothing]; exact congrArg Ctx.state (State.ctx_setCtx_self _ _ _))
    (by rw [hnothing]; exact congrArg Ctx.relDone (State.ctx_setCtx_self _ _ _)) hreleases
  exact ⟨v, hfirst.trans hv, hreleased⟩

/-- A CONNECT step's site is judged by row 0, without a capture (R80). -/
theorem invalidRow_connect {s : State} {x : Bus} {stag : Half} {u v : Site} {n : Net}
    (hstep : (s.ctx x).step = some ⟨stag, .connect u n⟩) (hi : (s.ctx x).inFlight = some v) (hsite : (s.ctx x).site = some v)
    (hcap : (s.ctx x).captured = none) :
    invalidSite (s.ctx x) = (s.ctx x).inFlight ∧ (s.ctx x).stepTag = stag ∧ invalidRow s x = 0 ∧ (s.ctx x).capturedWorn = false := by
  unfold invalidSite Ctx.stepTag invalidRow Ctx.capturedWorn
  rw [hstep, hcap]
  exact ⟨hsite.trans hi.symm, rfl, rfl, rfl⟩

/-- A block wait that ends for bus `x` alone, with no other request waiting (R33). -/
theorem blockWait_alone {s : State} {x : Bus} (hq : Quiesced s) (hs : (s.ctx x).state = .blocked) (hi : (s.ctx x).inFlight.isSome = true)
    (hothers : ∀ y, y ≠ x → (s.ctx y).waitsFor = []) :
    ∃ b k, b = { blockWaitExpired s.begin x with matrixWork := [], mail := [] } ∧
      Delivers k (blockWaitExpired s.begin x) (endSite b x .conflict) ∧ k ≤ 257 := by
  have hplaces : Places 256 s.begin (blockWaitExpired s.begin x) :=
    ((Places.dropRequest s.begin x).trans (.returnReservations _ x)).trans (.post _ _)
  have hwork : s.begin.matrixWork = [] := hq.1
  have hsends : SendsIdle (blockWaitExpired s.begin x) := hplaces.sends (fun c hc => by rw [hwork] at hc; cases hc)
  have hmail : (blockWaitExpired s.begin x).mail = [.makeFailed x .conflict] := blockWaitExpired_mail hq x
  have hwaits : ∀ y, ((blockWaitExpired s.begin x).ctx y).waitsFor = [] := fun y => by
    by_cases hy : y = x
    · rw [hy, blockWaitExpired_ctx]; rfl
    · rcases hplaces.waits y with h | h
      · exact h
      · rw [h]; exact hothers y hy
  have htold : doMail { blockWaitExpired s.begin x with matrixWork := [], mail := [] } (.makeFailed x .conflict) =
      endSite { blockWaitExpired s.begin x with matrixWork := [], mail := [] } x .conflict := by
    have hc : ({ blockWaitExpired s.begin x with matrixWork := [], mail := [] } : State).ctx x = (s.ctx x).unasked :=
      blockWaitExpired_ctx _ x
    refine if_pos ?_
    rw [hc]
    show ((s.ctx x).state = .making || (s.ctx x).state = .blocked) && (s.ctx x).inFlight.isSome
    rw [hs, hi]; rfl
  refine ⟨_, (blockWaitExpired s.begin x).matrixWork.length + 1, rfl, (workDone_noWaiters hsends hwaits).trans (.mail _ [] rfl hmail ?_), Nat.succ_le_succ ?_⟩
  · rw [htold]; exact .refl _
  · have := hplaces.work
    rw [hwork] at this
    simpa using this

/-- What a command that drains to a released bus leaves of it. -/
theorem Releases.finish {v u : State} {x : Bus} {st : Option Step} {halts there : Bool} {k : Nat} (h : Releases u x st halts there)
    (hst : ∀ tag, st ≠ some ⟨tag, .release⟩) (hd : Delivers k v u) (hk : k ≤ drainBound) :
    Releases (Machine.finish v) x st halts there := by
  have hdrain := drain_releases (drainBound - k) hst h
  rw [← hd.drainAll hk] at hdrain
  obtain ⟨hc, ha⟩ := hdrain
  rw [← finish_ctx] at hc ha
  refine ⟨hc, fun hh => ?_⟩
  rw [Machine.finish, pump_attn, (panelCheck_only _).attn]
  exact ha hh

/-- Such a bus releases as the obligations say it (R83, R85). -/
theorem releasesAfter_of {s t : State} {x : Bus} {halts : Bool} (h : Releases t x (s.ctx x).step halts false)
    (h' : s.sourceQuiet x = true → s.breaksOutstanding x = false →
      (∀ p : Pt, s.claimed x p = true → (s.xp x p).state = .reserved) → Releases t x (s.ctx x).step halts true) :
    ReleasesAfter s t x halts := by
  obtain ⟨hc, ha⟩ := h
  refine ⟨hc.slot, hc.inFlight, hc.place.imp_left (fun ⟨_, hs, hd, _⟩ => ⟨hs, hd⟩), hc.halted, ha, hc.idle, fun h1 h2 h3 => ?_⟩
  rcases (h' h1 h2 h3).1.place with ⟨hf, _⟩ | hp
  · cases hf
  · rw [hp]; cases halts <;> nofun

end Sys2Proof.Machine

open Sys2Proof Sys2Proof.Machine

/-- Settles O50: the end of a site as one judgement whose record is appended or waits. -/
theorem failedSitesAreJudgedInvalid : Obligations.FailedSitesAreJudgedInvalid := by
  intro s x
  refine ⟨fun h => if_neg (fun hc => ?_), fun h => if_pos (List.isEmpty_iff.2 h), fun stag sel n lim k d timeout hold hq hstep hin => ⟨?_, ?_⟩, ?_⟩
  · rcases h with h | h
    · exact h hc.1
    · exact absurd hc.2 (by rw [begin_ctx, h]; nofun)
  · intro r hs hr hw hcap
    obtain ⟨hsite, htag, hrow, -⟩ := invalidRow_measure hstep
    obtain ⟨hrow, hworn⟩ := hrow hcap
    obtain ⟨j, u, hj, hle, hu, hwork, hreq, hrun⟩ := blockWait_delivers hq hs hin
    have hwait : (s.ctx x).waitsFor ≠ [] := by rw [Ctx.waitsFor, hr]; exact hw
    have hkeep := (Keeps.refl (Q := fun _ => False) s.begin).blockWaitExpired x
    refine ⟨_, exec_blockWaitExpiry hwait, (judgedOrPosted_of_delivers hj hle hu hwork hreq hkeep.tables hkeep.guard hkeep.lanes
      (fun _ => congrArg _ (blockWaitExpired_queue _ x)) (hu.record .conflict hsite htag hrow hworn)).1, fun p h64 => ?_⟩
    refine endSite_unreserved hj hle hwork hreq (by rw [hu.queue]; exact h64) ?_
    exact Run.unreservedElse hrun id (fun r => by rw [blockWaitExpired_ctx]; nofun) (by rw [blockWaitExpired_xp]; exact XRec.unreserved_ne _)
  · intro cap hs ht hcap hr
    obtain ⟨hsite, htag, -, hrow⟩ := invalidRow_measure hstep
    obtain ⟨hrow, hworn⟩ := hrow cap hcap
    have hu : Unjudged s s.begin x := ⟨rfl, rfl, rfl, rfl, id, id⟩
    have hkeep := (Keeps.refl (Q := fun _ => False) s.begin).endSite x ((Keeps.refl (Q := fun _ => False) s.begin).inState hs) .timeout
    obtain ⟨hjudged, hctx⟩ := judgedOrPosted_of_delivers (.refl _) (Nat.zero_le _) hu (by rw [begin_ctx, hs]; rfl) hr hkeep.tables
      hkeep.guard hkeep.lanes (fun h64 => by
        rw [endSite_records, if_neg (show ¬ s.begin.queue.records.length < 64 from Nat.not_lt.2 h64), List.append_nil]; rfl)
      (hu.record .timeout hsite htag hrow hworn)
    refine ⟨_, exec_measureTimeout hs ht, hjudged, measureTimeout_frames hs, fun h64 => ?_⟩
    obtain ⟨c, hc, he⟩ := endSite_ctx s.begin x .timeout
    have hbefore : (beforeEnd s.begin x).ctx x = (s.ctx x).stopped := by
      rw [beforeEnd_measuring hs, stopTake_ctx]; rfl
    rw [hctx h64, he, hc, hbefore, Ctx.stopped, if_pos hs]
    exact ⟨rfl, rfl, rfl⟩
  · intro stag u v n r hq hstep hs hr hw hi hsite hcap
    obtain ⟨hinv, htag, hrow, hworn⟩ := invalidRow_connect hstep hi hsite hcap
    have hin : (s.ctx x).inFlight.isSome = true := by rw [hi]; rfl
    obtain ⟨j, w, hj, hle, hu, hwork, hreq, -⟩ := blockWait_delivers hq hs hin
    have hwait : (s.ctx x).waitsFor ≠ [] := by rw [Ctx.waitsFor, hr]; exact hw
    have hkeep := (Keeps.refl (Q := fun _ => False) s.begin).blockWaitExpired x
    refine ⟨_, exec_blockWaitExpiry hwait, (judgedOrPosted_of_delivers hj hle hu hwork hreq hkeep.tables hkeep.guard hkeep.lanes
      (fun _ => congrArg _ (blockWaitExpired_queue _ x)) (hu.record .conflict hinv htag hrow hworn)).1,
      fun hlen hend hsweep hqueue hothers => ?_⟩
    obtain ⟨b, k, hb, hk, hkle⟩ := blockWait_alone hq hs hin hothers
    have hctx : b.ctx x = (s.ctx x).unasked := by rw [hb]; exact blockWaitExpired_ctx _ x
    have hdisp : (b.disp (invalidRow b x) .invalid).action = s.tables.disps[dispNo 0 .invalid].action := by
      have hrow' : invalidRow b x = 0 := by
        rw [← hrow]
        exact invalidRow_congr (by rw [hb]; exact congrArg _ hkeep.tables) (by rw [hctx]; rfl) (by rw [hctx]; rfl)
      rw [hrow', State.disp_congr (s := s) (by rw [hb]; exact hkeep.tables)]
      rfl
    have hxp : ∀ p, b.xp x p = (s.xp x p).unreserved := fun p => by rw [hb]; exact blockWaitExpired_xp _ x p
    have hstep' : (b.ctx x).step = (s.ctx x).step := by rw [hctx]; rfl
    have hst : ∀ tag, (s.ctx x).step ≠ some ⟨tag, .release⟩ := fun tag h => by rw [hstep] at h; cases h
    obtain ⟨⟨v1, hv1, hrel1⟩, hthere⟩ := endSite_connect (b := b) (x := x) (stag := stag) (u := u) (n := n) (by rw [hb]; exact ⟨rfl, rfl⟩)
      (by rw [hctx]; exact .inl hs) (by rw [hctx]; rfl) (by rw [hctx]; exact hstep) (by rw [hctx]; exact hend)
      (by rw [hctx]; exact hsweep) (by rw [hctx]; exact hqueue) (by rw [hb, blockWaitExpired_queue]; exact hlen) .conflict
    rw [hdisp, hstep'] at hrel1 hthere
    have hbound : ∀ i, i ≤ 4 → k + i ≤ drainBound := fun i hi => by unfold drainBound; omega
    refine releasesAfter_of (hrel1.finish hst (hk.trans hv1) (hbound 1 (by omega))) (fun hquiet hbreaks hclaims => ?_)
    obtain ⟨v2, hv2, hrel2⟩ := hthere (by
        rw [← hquiet, State.sourceQuiet, hctx, hb]
        exact congrArg (fun e : Tables => (e.buses[x].kind != .source || (s.ctx x).source == .quiet)) hkeep.tables) (by
        rw [← hbreaks, hb]
        exact State.breaksOutstanding_congr (blockWaitExpired_cards _ x) x) (List.filter_eq_nil_iff.2 (fun p _ => by
        rw [State.claimed, hxp]
        exact XRec.unreserved_free (fun hp => hclaims p (by simpa [State.claimed] using hp))))
    exact hrel2.finish hst (hk.trans hv2) (hbound 4 (by omega))

end

