-- ==== Sys2Proof/Proofs/Readings.lean ====
section
/-!
PROOFS. The last reading of a take: the judgement of its site, and what the end of a command appends (O44).
-/

namespace Sys2Proof.Machine

/-! ### What the end of a command appends (R144, R145, R150) -/

/-- The test of the panel's close appends at most a FOLD record (R138, R150). -/
theorem panelCheck_appends (s : State) : ∃ rs, (panelCheck s).queue.records = s.queue.records ++ rs ∧
    (∀ r ∈ rs, r.noReading = true) ∧ (rs = [] → (panelCheck s).queue = s.queue) ∧ ∀ r more, rs = r :: more → r = r.stamped s.queue := by
  have hsame : ∀ u : State, u.queue = s.queue → ∃ rs, u.queue.records = s.queue.records ++ rs ∧
      (∀ r ∈ rs, r.noReading = true) ∧ (rs = [] → u.queue = s.queue) ∧ ∀ r more, rs = r :: more → r = r.stamped s.queue := fun u hu =>
    ⟨[], by rw [hu, List.append_nil], nofun, fun _ => hu, nofun⟩
  unfold panelCheck
  split
  · split
    · exact hsame _ rfl
    · unfold offerClosingFold
      split
      · exact hsame _ rfl
      · split
        · refine ⟨[(Rec.fold 0 false).stamped s.queue], appendRecord_records _ _, fun r hr => ?_, nofun, fun r more hr => ?_⟩
          · rw [List.mem_singleton.1 hr]; rfl
          · obtain ⟨hr, -⟩ := List.cons.inj hr
            rw [← hr]; rfl
        · exact hsame _ rfl
  · exact hsame _ rfl

/-- The end of a command appends no reading, and the first record it appends carries the fold counter as it stands (R145). -/
theorem finish_appends (s : State) : ∃ rs, (finish s).queue.records = s.queue.records ++ rs ∧
    (∀ r ∈ rs, r.noReading = true) ∧ (rs = [] → (finish s).queue = s.queue) ∧ ∀ r more, rs = r :: more → r = r.stamped s.queue := by
  have k := drain_keeps s
  obtain ⟨l, hl, hlr⟩ := k.records
  obtain ⟨m, hm, hmr, hmq, hmf⟩ := panelCheck_appends (drain drainBound s)
  refine ⟨l ++ m, ?_, fun r hr => ?_, fun h => ?_, fun r more h => ?_⟩
  · rw [finish, pump_queue, hm, hl, List.append_assoc]
  · rcases List.mem_append.1 hr with hr | hr
    · exact (hlr r hr).resolve_right id
    · exact hmr r hr
  · obtain ⟨h1, h2⟩ := List.append_eq_nil_iff.1 h
    rw [finish, pump_queue, hmq h2]
    exact k.counts (fun _ => id) (by rw [hl, h1, List.append_nil])
  · cases l with
    | nil =>
      have hq := k.counts (fun _ => id) (by rw [hl, List.append_nil])
      rw [← hq]
      exact hmf r more h
    | cons a l =>
      obtain ⟨ha, -⟩ := List.cons.inj h
      rw [← ha]
      exact k.first (fun _ => id) a l hl

/-- STEP stays pending at the end of a command (R194). -/
theorem finish_stepRaised {s : State} (h : s.trunk.attn.step = true) : (finish s).trunk.attn.step = true := by
  rw [finish, pump_attn, (panelCheck_only _).attn]
  exact (drain_keeps s).stepRaised h

/-! ### An offer by its three ways (R144) -/

/-- The offer is not folded. -/
theorem offered_room {s : State} {x : Bus} {c : Option Slot → Ctx} {sl : Slot} (hf : (s.queue.compact && sl.foldable) = false)
    (hl : s.queue.records.length < 64) : (offered s x c sl).queue.records = s.queue.records ++ [sl.record.stamped s.queue] := by
  unfold offered
  rw [if_neg (by rw [hf]; exact Bool.false_ne_true), if_pos hl]
  exact appendRecord_records _ _

theorem offered_full {s : State} {x : Bus} {c : Option Slot → Ctx} {sl : Slot} (hf : (s.queue.compact && sl.foldable) = false)
    (hl : 64 ≤ s.queue.records.length) : offered s x c sl = s.setCtx x (c (some sl)) := by
  unfold offered
  rw [if_neg (by rw [hf]; exact Bool.false_ne_true), if_neg (Nat.not_lt.2 hl)]

theorem offered_folded {s : State} {x : Bus} {c : Option Slot → Ctx} {sl : Slot} (hf : (s.queue.compact && sl.foldable) = true) :
    (offered s x c sl).queue = s.queue.folded := by
  unfold offered
  rw [if_pos hf]; rfl

@[simp] theorem offered_panel (s : State) (x : Bus) (c : Option Slot → Ctx) (sl : Slot) : (offered s x c sl).panel = s.panel := by
  unfold offered
  split
  · rfl
  · split
    · obtain ⟨a, -, happend⟩ := appendRecord_only s sl.record
      rw [happend]
      rfl
    · rfl

theorem offered_stepRaised {s : State} (x : Bus) (c : Option Slot → Ctx) (sl : Slot) (h : s.trunk.attn.step = true) :
    (offered s x c sl).trunk.attn.step = true := by
  unfold offered
  split
  · exact h
  · split
    · obtain ⟨a, ha, happend⟩ := appendRecord_only s sl.record
      rw [happend]
      rcases ha with rfl | rfl <;> exact h
    · exact h

/-- The site's verdict record has taken the judgement (R134). -/
theorem judgementShown_verdict (s : State) (v : Verdict) (d : DispEntry) (u : Site) :
    (judgementShown s v d (some u)).verdict u = (s.verdict u).judge v d := by
  have h : (s.setVerdict u ((s.verdict u).judge v d)).verdict u = (s.verdict u).judge v d := (State.verdict_setVerdict _ _ _ _).trans (if_pos rfl)
  unfold judgementShown
  dsimp only
  split
  · exact h
  · exact h

theorem judgementShown_step (s : State) (v : Verdict) (d : DispEntry) (u : Option Site) (h : d.attention = true) :
    (judgementShown s v d u).trunk.attn.step = true := by
  unfold judgementShown
  rw [if_pos h]
  rfl

/-! ### The K-th reading (R76, R78) -/

/-- The context with its last reading counted, its measure timer stopped (R76). -/
def Ctx.measured (c : Ctx) (m : Sample) : Ctx := { c with acc := c.acc ++ [m], measureTimer := none }

/-- The context in POSTING, its take judged (R78). -/
def Ctx.posted (c : Ctx) (v : Verdict) (d : DispEntry) (site : Option Site) (slot : Option Slot) : Ctx :=
  { c.judged v d site slot with state := .posting }

/-- The record of a completed take, before its append (R131). -/
def takeRec (s : State) (x : Bus) (cap : Capture) (d : Nat) (v : Verdict) : Rec :=
  .measure (measOf s x v (.value (average (s.ctx x).acc)) (flagsOf (average (s.ctx x).acc) (s.ctx x).acc cap.worn)
    (unitOf (s.ctx x).acc d) (s.ctx x).acc.length cap.limit.row (s.ctx x).inFlight)

/-- A take is complete: its site is judged, and the context looks once more in POSTING (R78). -/
theorem completeTake_eq {b w : State} {x : Bus} {m : Sample} (hw : w = b.setCtx x ((b.ctx x).measured m)) (cap : Capture) (d : Nat)
    {v : Verdict} (hv : v = verdictOf cap.limit (average ((b.ctx x).measured m).acc) (((b.ctx x).measured m).acc.any (·.v))) :
    completeTake (b.modCtx x (fun c => { c with acc := c.acc ++ [m] })) x cap d =
      (offered (judgementShown w v (w.disp cap.limit.row v) (b.ctx x).inFlight) x
        (((b.ctx x).measured m).posted v (w.disp cap.limit.row v) (b.ctx x).inFlight)
        ⟨takeRec w x cap d v, ((b.ctx x).measured m).mayFold v⟩).post (.poke x) := by
  have hctx : w.ctx x = (b.ctx x).measured m := by rw [hw, State.ctx_setCtx_self]
  have hstate : (b.modCtx x (fun c => { c with acc := c.acc ++ [m] })).modCtx x (fun c => { c with measureTimer := none }) = w := by
    rw [hw, State.modCtx, State.modCtx, State.ctx_setCtx_self, State.setCtx_setCtx]; rfl
  have hin : (w.ctx x).inFlight = (b.ctx x).inFlight := by rw [hctx]; rfl
  have hverdict : verdictOf cap.limit (average (w.ctx x).acc) (flagsOf (average (w.ctx x).acc) (w.ctx x).acc cap.worn).v = v := by
    rw [hctx, hv]; rfl
  have htake : judgeTake w x cap d =
      offered (judgementShown w v (w.disp cap.limit.row v) (b.ctx x).inFlight) x
        (((b.ctx x).measured m).judged v (w.disp cap.limit.row v) (b.ctx x).inFlight)
        ⟨takeRec w x cap d v, ((b.ctx x).measured m).mayFold v⟩ := by
    unfold judgeTake
    dsimp only
    rw [hverdict, hin, judge_eq, takeRec, hin, hctx]
  unfold completeTake
  dsimp only
  rw [hstate, htake, modCtx_offered]
  rfl

theorem Sweep.join_judged {w : Sweep} {u : Site} (h : w.status = .running) : (w.join (some u)).judged = w.judged ++ [u] := by
  unfold Sweep.join
  rw [h]

theorem mayFold_measured {c : Ctx} {cap : Capture} (hc : c.captured = some cap) (m : Sample) (v : Verdict) :
    (c.measured m).mayFold v = (v == .pass && cap.limit.mode != .record) := by
  unfold Ctx.mayFold
  rw [show (c.measured m).captured = some cap from hc]

/-- A context that waits in POSTING for the queue looks and stays (R144). -/
theorem delivers_posting {s : State} {x : Bus} {sl : Slot} (h : Quiesced s) (hp : (s.ctx x).Posts sl) (hs : (s.ctx x).state = .posting) :
    Delivers 1 (s.post (.poke x)) s := by
  have hsame : poke s x = s := by
    rcases poke_posts hp with he | he
    · exact he
    · rw [he]
      exact State.modCtx_same (f := fun c => { c with state := .posting }) (by rw [← hs])
  have hstate : ({ s.post (.poke x) with mail := [] } : State) = s := by
    unfold State.post
    rw [← h.2]
  refine .mail (.poke x) [] h.1 (by rw [State.post_mail, h.2]; rfl) ?_
  show Delivers 0 (poke { s.post (.poke x) with mail := [] } x) s
  rw [hstate, hsame]
  exact .refl s

theorem ends_posting {s : State} {x : Bus} {sl : Slot} (h : Quiesced s) (hp : (s.ctx x).Posts sl) (hs : (s.ctx x).state = .posting) :
    Ends s (finish (s.post (.poke x))) :=
  (delivers_posting h hp hs).ends h (by unfold drainBound; omega)

end Sys2Proof.Machine

open Sys2Proof Sys2Proof.Machine

/-- Settles O44: the judgement of a completed take by the three ways of its offer. -/
theorem lastReadingIsJudged : Obligations.LastReadingIsJudged := by
  intro s l ch tt idx range raw x stag sel n lim k d timeout hold cap u acc v dn hq hl hb hstep hcap hm ht hd hk hnew hlen hi hr hacc hv hdn
  have hexec := exec_reading_counted (range := range) (raw := raw) hl hb (readingUse_counted hstep hcap hm ht hd hk hnew)
  rw [if_pos (by simpa using hlen.ge)] at hexec
  obtain ⟨b, hbase⟩ : ∃ b, b = goodFrame s.begin l := ⟨_, rfl⟩
  have hbctx : b.ctx x = s.ctx x := by rw [hbase]; exact goodFrame_ctx s l x
  have hbq : b.queue = s.queue := by rw [hbase, goodFrame_eq]; rfl
  obtain ⟨m, hmeas⟩ : ∃ m, m = sampleFrom cap idx.toNat range raw := ⟨_, rfl⟩
  obtain ⟨w, hw⟩ : ∃ w, w = b.setCtx x ((b.ctx x).measured m) := ⟨_, rfl⟩
  have hacc' : ((b.ctx x).measured m).acc = acc := by rw [hbctx, hmeas, hacc]; rfl
  have hdisp : w.disp cap.limit.row v = dn := by
    rw [hdn, hw, hbase, goodFrame_eq]; rfl
  have hjudged := completeTake_eq hw cap d (v := v) (by rw [hacc', hv])
  rw [hdisp, hbctx, hi] at hjudged
  rw [← hbase, ← hmeas, hjudged] at hexec
  have hwq : w.queue = s.queue := by rw [hw]; exact hbq
  have hquiet : Quiesced w := by rw [hw, hbase, goodFrame_eq]; exact hq
  have hverdict : w.verdict u = s.verdict u := by rw [hw, hbase, goodFrame_eq]; rfl
  have hctx : w.ctx x = (s.ctx x).measured m := by rw [hw, State.ctx_setCtx_self, hbctx]
  have hpanel : w.panel = s.panel := by rw [hw, hbase, goodFrame_eq]; rfl
  have hrec : ∀ q : ResultQueue, (takeRec w x cap d v).stamped q = .measure
      { flags := ⟨average acc == 0, decide (average acc < 0), acc.any (·.v), cap.worn, q.saturated⟩
        panel := s.panel.number, bus := x, tag := stag, site := some u
        ordinal := if (s.ctx x).sweep.status = .running then (s.ctx x).sweep.judged.length + 1 else 1
        verdict := v, bin := dn.bin, samples := k, unit := unitOf acc d, folded := q.foldCount
        body := .value (average acc) } := fun q => by
    unfold takeRec measOf
    have hmacc : ((s.ctx x).measured m).acc = acc := by rw [← hbctx]; exact hacc'
    have hmin : ((s.ctx x).measured m).inFlight = some u := hi
    have hmtag : ((s.ctx x).measured m).stepTag = stag := by
      show (s.ctx x).stepTag = stag
      rw [Ctx.stepTag, hstep]
    have hlength : acc.length = k := by rw [hacc, List.length_append]; exact hlen
    rw [hctx, hmacc, hmin, hmtag, hdisp, hpanel, hlength]
    have hordinal : (if ((s.ctx x).measured m).sweep.status = .running then
        (((s.ctx x).measured m).sweep.join (some u)).judged.length else 1) =
        if (s.ctx x).sweep.status = .running then (s.ctx x).sweep.judged.length + 1 else 1 :=
      ite_congr rfl (fun h => by
        rw [Sweep.join_judged (w := ((s.ctx x).measured m).sweep) h, List.length_append]; rfl) (fun _ => rfl)
    rw [hordinal]
    rfl
  have hmay := mayFold_measured hcap m v
  obtain ⟨i, hshown⟩ : ∃ i, i = judgementShown w v dn (some u) := ⟨_, rfl⟩
  have hiq : i.queue = s.queue := by rw [hshown, judgementShown_queue, hwq]
  have hiu : i.verdict u = (s.verdict u).judge v dn := by rw [hshown, judgementShown_verdict, hverdict]
  rw [← hshown] at hexec
  obtain ⟨J, hJ⟩ : ∃ J, J = offered i x (((s.ctx x).measured m).posted v dn (some u))
    ⟨takeRec w x cap d v, ((s.ctx x).measured m).mayFold v⟩ := ⟨_, rfl⟩
  rw [← hJ] at hexec
  have hJu : J.verdict u = (s.verdict u).judge v dn := by
    rw [← hiu, hJ, State.verdict, State.verdict, offered_panel]
  have hfold : ¬ (s.queue.compact = true ∧ v = .pass ∧ cap.limit.mode ≠ .record) →
      (i.queue.compact && ((s.ctx x).measured m).mayFold v) = false := fun hn => by
    rw [hiq, hmay, Bool.eq_false_iff]
    intro hc
    rw [Bool.and_eq_true, Bool.and_eq_true, beq_iff_eq, bne_iff_ne] at hc
    exact hn hc
  refine ⟨_, hexec, ?_, fun hatt => ?_, fun hn hroom => ?_, fun hn hfull => ?_, fun q hc hv' hmode hqe => ?_⟩
  · have hon := (finish_leaves (J.post (.poke x))).2.2.2.2.2.2.2 u
    rwa [State.verdict, State.post_panel, ← State.verdict, hJu] at hon
  · refine finish_stepRaised ?_
    rw [State.post_trunk, hJ]
    refine offered_stepRaised x _ _ ?_
    rw [hshown]
    exact judgementShown_step _ _ _ _ hatt
  · obtain ⟨rs, hrs, -⟩ := finish_appends (J.post (.poke x))
    refine ⟨rs, ?_⟩
    rw [hrs, State.post_queue, hJ, offered_room (hfold hn) (by rw [hiq]; exact hroom), hiq, hrec, List.append_assoc]
    rfl
  · have hset : J = i.setCtx x (((s.ctx x).measured m).posted v dn (some u) (some ⟨takeRec w x cap d v, ((s.ctx x).measured m).mayFold v⟩)) := by
      rw [hJ, offered_full (hfold hn) (by rw [hiq]; exact hfull)]
    have hJc : J.ctx x = ((s.ctx x).measured m).posted v dn (some u) (some ⟨takeRec w x cap d v, ((s.ctx x).measured m).mayFold v⟩) := by
      rw [hset, State.ctx_setCtx_self]
    have hends := ends_posting (s := J) (x := x) (by rw [hset, hshown, judgementShown_shape]; exact hquiet)
      (by rw [hJc]; exact ⟨rfl, rfl, ⟨_, rfl⟩, rfl⟩) (by rw [hJc]; rfl)
    have hidle := hends.idle (.inl ⟨x, by rw [hJc]; simp [Ctx.finished, Ctx.posted]⟩)
    refine ⟨by rw [hends.ctx, hJc]; rfl, by rw [hends.ctx, hJc]; rfl, ?_, ?_⟩
    · rw [hidle.1, hset, State.setCtx_queue, hiq]
    · rw [State.verdict, hidle.2, ← State.verdict, hJu]
  · have hJq : J.queue = q := by
      rw [hJ, offered_folded (by rw [hiq, hmay, hc, hv']; simpa using hmode), hiq, hqe]
      rfl
    have := finish_appends (J.post (.poke x))
    rw [State.post_queue, hJq] at this
    obtain ⟨rs, hrs, hno, hnil, hfirst⟩ := this
    refine ⟨rs, ?_, hno, hnil, hfirst⟩
    rw [hrs, hqe]
    split <;> rfl

end

