-- ==== Sys2Proof/Proofs/SiteStages.lean ====
section
/-!
PROOFS. The stages of a site written out: the break order or the make order that goes out, the wait for a point, and where the
work at a site begins (R28, R30, R68 to R72).
-/

-- One proof after another: in the joined text each worker would hold a stack of its own.
set_option Elab.async false

namespace Sys2Proof.Machine

/-! ### Lists of points -/

/-- A rising list with the points of a condition is what the condition selects. -/
theorem filter_points {ps : List Pt} {f : Pt → Bool} (hs : ps.Pairwise (· < ·)) (h : ∀ p, p ∈ ps ↔ f p = true) :
    allPoints.filter f = ps := by
  have hall : allPoints.Pairwise (· < ·) := List.pairwise_lt_finRange 256
  have hnodup : ∀ {l : List Pt}, l.Pairwise (· < ·) → l.Nodup := fun hl => hl.imp (fun h => ne_of_lt h)
  have hfilter := hall.filter f
  refine List.Perm.eq_of_pairwise (le := (· < ·)) (fun a b _ _ h1 h2 => absurd h1 (lt_asymm h2)) hfilter hs ?_
  refine (List.perm_ext_iff_of_nodup (hnodup hfilter) (hnodup hs)).2 (fun p => ?_)
  rw [List.mem_filter, h]
  exact ⟨fun hp => hp.2, fun hp => ⟨List.mem_finRange p, hp⟩⟩

/-- Two rising lists of the same points are equal. -/
theorem rising_eq {ps qs : List Pt} (hp : ps.Pairwise (· < ·)) (hq : qs.Pairwise (· < ·)) (h : ∀ p, p ∈ ps ↔ p ∈ qs) : ps = qs := by
  have e1 := filter_points (f := fun p => decide (p ∈ qs)) hp (fun p => by rw [h, decide_eq_true_iff])
  have e2 := filter_points (f := fun p => decide (p ∈ qs)) hq (fun p => by rw [decide_eq_true_iff])
  rw [← e1, e2]

theorem flatMap_single {α β : Type} {l : List α} {d : α} {f : α → List β} (hd : d ∈ l) (hn : l.Nodup) (h : ∀ c ∈ l, c ≠ d → f c = []) :
    l.flatMap f = f d := by
  induction l with
  | nil => cases hd
  | cons a l ih =>
    rw [List.flatMap_cons]
    obtain ⟨ha, hn⟩ := List.nodup_cons.1 hn
    rcases List.mem_cons.1 hd with rfl | hd
    · have : l.flatMap f = [] := List.flatMap_eq_nil_iff.2 (fun c hc =>
        h c (List.mem_cons_of_mem _ hc) (fun e => ha (e ▸ hc)))
      rw [this, List.append_nil]
    · rw [h a List.mem_cons_self (fun e => ha (e ▸ hd)), List.nil_append]
      exact ih hd hn (fun c hc => h c (List.mem_cons_of_mem _ hc))

/-- Up to 16 points of one card are one group (R21). -/
theorem cardGroups_single {ps : List Pt} {d : CardId} (hne : ps ≠ []) (hlen : ps.length ≤ 16) (hs : ps.Pairwise (· < ·))
    (hd : ∀ p ∈ ps, cardOf p = d) : cardGroups ps = [(d, ps)] := by
  have hmine : ∀ c, allPoints.filter (fun p => p ∈ ps && cardOf p == c) = if c = d then ps else [] := fun c => by
    split
    · next e =>
      subst e
      refine filter_points hs (fun p => ?_)
      rw [Bool.and_eq_true, decide_eq_true_iff, beq_iff_eq]
      exact ⟨fun hp => ⟨hp, hd p hp⟩, fun hp => hp.1⟩
    · next e =>
      refine List.filter_eq_nil_iff.2 (fun p _ => ?_)
      rw [Bool.and_eq_true, decide_eq_true_iff, beq_iff_eq]
      exact fun hp => e ((hd p hp.1).symm.trans hp.2).symm
  have hchunk : chunks ps.length ps = [ps] := by
    cases ps with
    | nil => exact absurd rfl hne
    | cons p ps =>
      have htake : (p :: ps).take 16 = p :: ps := List.take_of_length_le hlen
      have hdrop : (p :: ps).drop 16 = [] := List.drop_of_length_le hlen
      rw [List.length_cons, chunks, htake, hdrop]
      cases ps.length <;> rfl
  have hgroups : cardGroups ps = allCards.flatMap (fun c =>
      (chunks (if c = d then ps else []).length (if c = d then ps else [])).map (fun run => (c, run))) := by
    unfold cardGroups
    dsimp only
    simp only [hmine]
  have hsingle := flatMap_single (l := allCards) (d := d) (List.mem_finRange d) (List.nodup_finRange 4)
    (f := fun c => (chunks (if c = d then ps else []).length (if c = d then ps else [])).map (fun run => (c, run)))
    (fun c _ hc => by rw [if_neg hc]; rfl)
  rw [hgroups, hsingle, if_pos rfl, hchunk]
  rfl

/-! ### An order that goes out at once (R21, R22) -/

theorem CardIdleOn.idle {s : State} {c : CardId} {l : LaneId} (h : CardIdleOn s c l) : (s.card c).idle = true :=
  (CardCtl.idle_iff _).2 ⟨h.2.2.1, h.2.2.2.1, h.2.2.2.2⟩

theorem CardIdleOn.usable {s : State} {c : CardId} {l : LaneId} (h : CardIdleOn s c l) : s.cardUsable c = true := by
  unfold State.cardUsable
  rw [h.1]
  exact h.2.1

/-- Nothing of the cards, their table entries and the lanes has changed. -/
structure SameCards (s u : State) : Prop where
  cards : u.matrix.cards = s.matrix.cards
  tables : u.tables = s.tables
  lanes : ∀ l, u.laneHasCard l = s.laneHasCard l

theorem SameCards.card {s u : State} (h : SameCards s u) (c : CardId) : u.card c = s.card c := by rw [State.card, State.card, h.cards]

theorem SameCards.idleOn {s u : State} {c : CardId} {l : LaneId} (h : SameCards s u) (hi : CardIdleOn s c l) : CardIdleOn u c l := by
  obtain ⟨h1, h2, h3⟩ := hi
  refine ⟨?_, ?_, ?_⟩
  · rw [State.cardEntry, h.tables]; exact h1
  · rw [h.lanes]; exact h2
  · rw [h.card]; exact h3

theorem sendOrder_frames {s : State} {c : CardId} {l : LaneId} (h : CardIdleOn s c l) (o : Order) :
    (sendOrder s c o).out = s.out ++ [(l, .order (s.card c).nextTag (o.kind == .make) o.bus (o.points.map columnOf))] := by
  rw [sendOrder_out, orderFrames, h.1]
  dsimp only
  rw [if_pos h.2.1]
  rfl

/-- An order that is sent goes out as the obligations say it. -/
theorem orderWentOut_of {s u t : State} {c : CardId} {l : LaneId} {o : Order} {moving : XState} (hsame : SameCards s u)
    (hi : CardIdleOn s c l) (hout : u.out = []) (htout : t.out = (sendOrder u c o).out) (htm : t.matrix = (sendOrder u c o).matrix)
    (hin : ∀ p ∈ o.points, o.sentTo (u.xp o.bus p) = { s.xp o.bus p with state := moving })
    (hoff : ∀ y p, ¬ (y = o.bus ∧ p ∈ o.points) → u.xp y p = s.xp y p) : OrderWentOut s t c l o moving := by
  have hcard : ∀ d, t.card d = (sendOrder u c o).card d := fun d => by rw [State.card, State.card, htm]
  obtain ⟨-, -, h1, h2, h3⟩ := hsame.idleOn hi
  refine ⟨?_, ?_, ?_, ?_, ?_, fun d hd => ?_, fun y p => ?_⟩
  · rw [htout, sendOrder_frames (hsame.idleOn hi), hout, hsame.card]; rfl
  · rw [hcard, sendOrder_card, if_pos rfl, hsame.card]
  · rw [hcard, sendOrder_card, if_pos rfl, hsame.card]
  · rw [hcard, sendOrder_card, if_pos rfl]; exact h2
  · rw [hcard, sendOrder_card, if_pos rfl]; exact h3
  · rw [hcard, sendOrder_card, if_neg (Ne.symm hd), hsame.card]
  · rw [State.xp, htm, ← State.xp]
    by_cases h : y = o.bus ∧ p ∈ o.points
    · obtain ⟨rfl, hp⟩ := h
      rw [if_pos ⟨rfl, hp⟩, ← hin p hp, sendOrder_xp_mem _ _ _ hp]
    · rw [if_neg h, ← hoff y p h]
      refine sendOrder_xp_ne _ _ _ ?_
      by_cases e : o.bus = y
      · exact .inr (fun hp => h ⟨e.symm, hp⟩)
      · exact .inl e

/-! ### BREAKING (R30, R70) -/

/-- The context that asks for the break of what its target does not need. -/
def Ctx.breaks (c : Ctx) : Ctx := { c with state := .breaking, request := some (.opens ⟨[], false, false⟩) }

/-- A break order that goes out at once (R22, R30). -/
theorem placeBreak_sent {s : State} {x : Bus} {d : CardId} {l : LaneId} {ps : List Pt} (hi : CardIdleOn s d l) (hne : ps ≠ [])
    (hc : ∀ p ∈ ps, (s.xp x p).state = .closed) : placeBreak s x (d, ps) = sendOrder s d ⟨.brk, x, ps, true⟩ := by
  have hleft : Order.leftToOpen s ⟨.brk, x, ps, true⟩ = ps :=
    List.filter_eq_self.2 (fun p hp => by rw [hc p hp]; rfl)
  have hconsider : consider (s.reserveFor ⟨.brk, x, ps, true⟩) d ⟨.brk, x, ps, true⟩ = sendOrder s d ⟨.brk, x, ps, true⟩ := by
    have hopen : sendOpen s d ⟨.brk, x, ps, true⟩ = sendOrder s d ⟨.brk, x, ps, true⟩ := by
      unfold sendOpen
      rw [hleft]
      cases ps with
      | nil => exact absurd rfl hne
      | cons p ps => rfl
    exact hopen
  unfold placeBreak
  dsimp only
  rw [if_pos hi.usable, placeOrdinary_idle hi.idle, hconsider]

/-- The break of the points of one card that are CLOSED goes out at once (R30). -/
theorem opensRequest_sent {s : State} {x : Bus} {d : CardId} {l : LaneId} {ps : List Pt} (hi : CardIdleOn s d l) (hne : ps ≠ [])
    (hlen : ps.length ≤ 16) (hs : ps.Pairwise (· < ·)) (hd : ∀ p ∈ ps, cardOf p = d) (hc : ∀ p ∈ ps, (s.xp x p).state = .closed) :
    opensRequest s x ps = sendOrder (s.modCtx x (fun c => { c with request := some (.opens ⟨[], false, false⟩) })) d
      ⟨.brk, x, ps, true⟩ := by
  have hnone : ∀ f : XState → Bool, f .closed = false → ps.filter (fun p => f (s.xp x p).state) = [] := fun f hf =>
    List.filter_eq_nil_iff.2 (fun p hp => by rw [hc p hp, hf]; exact Bool.false_ne_true)
  have hawait : ps.filter (s.mustAwait x) = [] := hnone (fun st => st == .closing || st == .opening) rfl
  have hreserved : ps.filter (fun p => (s.xp x p).state == .reserved) = [] := hnone (fun st => st == .reserved) rfl
  have hclosed : ps.filter (fun p => (s.xp x p).state == .closed) = ps :=
    List.filter_eq_self.2 (fun p hp => by rw [hc p hp]; rfl)
  have hdef : opensRequest s x ps = answerOpens (placeBreak
      (s.modCtx x (fun c => { c with request := some (.opens ⟨[], false, false⟩) })) x (d, ps)) x := by
    unfold opensRequest
    dsimp only
    rw [hawait, hreserved, hclosed, cardGroups_single hne hlen hs hd]
    rfl
  rw [hdef, placeBreak_sent (s := s.modCtx x (fun c => { c with request := some (.opens ⟨[], false, false⟩) })) hi hne hc]
  have hout : ∀ u : State, (sendOrder u d ⟨.brk, x, ps, true⟩).breaksOutstanding x = true := fun u => by
    refine List.any_eq_true.2 ⟨d, List.mem_finRange d, ?_⟩
    dsimp only
    rw [sendOrder_card, if_pos rfl]
    simp [Order.breakOf]
  have hreq : ((sendOrder (s.modCtx x (fun c => { c with request := some (.opens ⟨[], false, false⟩) })) d ⟨.brk, x, ps, true⟩).ctx
      x).request = some (.opens ⟨[], false, false⟩) := by
    rw [State.ctx, sendOrder_ctxs, ← State.ctx, State.ctx_modCtx_self]
  unfold answerOpens
  rw [hreq]
  dsimp only
  rw [hout]
  rfl

/-! ### The make (R27, R28, R71) -/

theorem State.reserve_xp (s : State) (x y : Bus) (ps : List Pt) (p : Pt) : (s.reserve x ps).xp y p =
    if y = x ∧ p ∈ ps ∧ s.pointFree p = true then { s.xp y p with state := .reserved } else s.xp y p := by
  rw [State.reserve]
  split
  · next h =>
    obtain ⟨rfl, hp, hf⟩ := h
    exact State.xp_modXps_idem _ _ (f := fun r => { r with state := .reserved }) (fun _ => rfl) (List.mem_filter.2 ⟨hp, hf⟩)
  · next h =>
    refine State.xp_modXps_ne _ _ ?_
    by_cases e : x = y
    · exact .inr (fun hp => h ⟨e.symm, (List.mem_filter.1 hp).1, (List.mem_filter.1 hp).2⟩)
    · exact .inl e

/-- What a make request checks before anything is placed (R27, R28). -/
theorem makeCheck_passes {s : State} {x : Bus} {tg : Target} (hb : s.barred x = none) (hu : s.cardUsable (cardOfBlock tg.block) = true)
    (hblock : ∀ p ∈ tg.points, blockOf p = tg.block) (hclaims : ∀ p, s.claimed x p = true → p ∈ tg.points)
    (hstate : ∀ p ∈ tg.points, (s.xp x p).state ≠ .closing ∧ (s.xp x p).state ≠ .opening ∧ (s.xp x p).state ≠ .unknown) :
    makeCheck s x tg = none := by
  have hany : (s.claims x).any (fun p => blockOf p != tg.block) = false := List.any_eq_false.2 (fun p hp => by
    simpa using hblock p (hclaims p (List.mem_filter.1 hp).2))
  have hbusy : tg.points.any (fun p => (s.xp x p).state == .closing || (s.xp x p).state == .opening || (s.xp x p).state == .unknown) =
      false := List.any_eq_false.2 (fun p hp => by
    obtain ⟨h1, h2, h3⟩ := hstate p hp
    simp [h1, h2, h3])
  unfold makeCheck
  rw [hb]
  dsimp only
  rw [hu, hany, Bool.and_false, hbusy]
  rfl

/-- The context that has asked for a make. -/
def Ctx.makes (c : Ctx) (st : CtxState) (r : MakeReq) : Ctx := { c with state := st, request := some (.make r) }

/-- The state in which the make request of bus `x` stands, its free points reserved (R28). -/
def makeAsked (s : State) (x : Bus) (tg : Target) (st : CtxState) (waiting : List Pt) : State :=
  (s.reserve x tg.points).setCtx x ((s.ctx x).makes st ⟨cardOfBlock tg.block, tg.points, waiting⟩)

theorem makeAsked_same (s : State) (x : Bus) (tg : Target) (st : CtxState) (waiting : List Pt) :
    makeAsked s x tg st waiting = { s with
      matrix := { s.matrix with xps := (s.reserve x tg.points).matrix.xps }
      ctxs := (makeAsked s x tg st waiting).ctxs } := by
  unfold makeAsked
  rw [State.reserve_eq]
  rfl

theorem makeAsked_ctx (s : State) (x y : Bus) (tg : Target) (st : CtxState) (waiting : List Pt) :
    (makeAsked s x tg st waiting).ctx y =
      if x = y then (s.ctx x).makes st ⟨cardOfBlock tg.block, tg.points, waiting⟩ else s.ctx y := by
  rw [makeAsked, State.ctx_setCtx, State.reserve_ctx]

theorem makeAsked_xp (s : State) (x : Bus) (tg : Target) (st : CtxState) (waiting : List Pt) (y : Bus) (p : Pt) :
    (makeAsked s x tg st waiting).xp y p =
      if y = x ∧ p ∈ tg.points ∧ s.pointFree p = true then { s.xp y p with state := .reserved } else s.xp y p := by
  rw [← State.reserve_xp]; rfl

/-- Crosspoint records and a context are apart. -/
theorem State.modXps_setCtx (s : State) (y : Bus) (c : Ctx) (x : Bus) (ps : List Pt) (f : XRec → XRec) :
    (s.setCtx y c).modXps x ps f = (s.modXps x ps f).setCtx y c := by
  induction ps generalizing s with
  | nil => rfl
  | cons p ps ih => exact ih (s.setXp x p (f (s.xp x p)))

theorem State.reserve_setCtx (s : State) (y : Bus) (c : Ctx) (x : Bus) (ps : List Pt) :
    (s.setCtx y c).reserve x ps = (s.reserve x ps).setCtx y c := State.modXps_setCtx _ _ _ _ _ _

theorem State.reserve_modCtx (s : State) (y : Bus) (f : Ctx → Ctx) (x : Bus) (ps : List Pt) :
    (s.modCtx y f).reserve x ps = (s.reserve x ps).modCtx y f := by
  rw [State.modCtx, State.reserve_setCtx, State.modCtx, State.reserve_ctx]

theorem free_opn {s : State} {p : Pt} (h : s.pointFree p = true) (x : Bus) : (s.xp x p).state = .opn := by
  simpa [State.claimed] using pointFree_iff.1 h x

/-- A reservation closes nothing (R28). -/
theorem needClosing_reserve (s : State) (x : Bus) (ps qs : List Pt) :
    needClosing (s.reserve x qs) x ps = needClosing s x ps := by
  unfold needClosing
  refine List.filter_congr (fun p _ => ?_)
  rw [State.reserve_xp]
  split
  · next h => rw [free_opn h.2.2]; rfl
  · rfl

/-- The make request that a context sends on its way to MAKING, with the answer it gets (R28). -/
theorem makeRequest_asked {s : State} {x : Bus} {tg : Target} {ps : List Pt} (hcheck : makeCheck s x tg = none)
    (hw : tg.points.filter (fun p => (s.xp x p).state == .opn && !s.pointFree p) = ps)
    (hneed : ps = [] → needClosing s x tg.points ≠ []) :
    makeRequest (s.modCtx x (fun c => { c with state := .making })) x tg =
      if ps = [] then
        (if (placeMake (makeAsked s x tg .making []) x (cardOfBlock tg.block) tg.points).2 = true then
          ((placeMake (makeAsked s x tg .making []) x (cardOfBlock tg.block) tg.points).1, .placed)
        else ((placeMake (makeAsked s x tg .making []) x (cardOfBlock tg.block) tg.points).1, .failed .orderFail))
      else (makeAsked s x tg .making ps, .blocked) := by
  have hcheck' : makeCheck (s.modCtx x (fun c => { c with state := .making })) x tg = none := hcheck
  have hasked : ((s.modCtx x (fun c => { c with state := .making })).reserve x tg.points).modCtx x
      (fun k => { k with request := some (.make ⟨cardOfBlock tg.block, tg.points, ps⟩) }) = makeAsked s x tg .making ps := by
    rw [State.reserve_modCtx, State.modCtx_modCtx, State.modCtx, State.reserve_ctx]; rfl
  have hneed' : (decide (ps = []) && (needClosing ((s.modCtx x (fun c => { c with state := .making })).reserve x tg.points) x
      tg.points).isEmpty) = false := by
    rw [needClosing_reserve, Bool.and_eq_false_iff, decide_eq_false_iff_not]
    by_cases h : ps = []
    · right
      rw [Bool.eq_false_iff]
      exact fun he => hneed h (List.isEmpty_iff.1 he)
    · exact .inl h
  have hw' : tg.points.filter (fun p => ((s.modCtx x (fun c => { c with state := .making })).xp x p).state == .opn &&
      !(s.modCtx x (fun c => { c with state := .making })).pointFree p) = ps := hw
  unfold makeRequest
  rw [hcheck']
  dsimp only
  rw [hw', hneed', hasked, if_neg Bool.false_ne_true]
  by_cases h : ps = []
  · subst h
    rw [if_pos rfl, if_pos rfl]
    cases hp : placeMake (makeAsked s x tg .making []) x (cardOfBlock tg.block) tg.points with
    | mk u b => cases b <;> rfl
  · rw [if_neg h, if_neg h]

/-- The points of a make request that are free are reserved, and it waits for the rest (R28, R71). -/
theorem askMake_blocked {s : State} {x : Bus} {tg : Target} {ps : List Pt} (ht : (s.ctx x).target = some tg)
    (hcheck : makeCheck s x tg = none) (hne : ps ≠ [])
    (hw : tg.points.filter (fun p => (s.xp x p).state == .opn && !s.pointFree p) = ps) :
    askMake s x = makeAsked s x tg .blocked ps := by
  have hreq := makeRequest_asked hcheck hw (fun h => absurd h hne)
  rw [if_neg hne] at hreq
  unfold askMake
  rw [ht]
  dsimp only
  rw [hreq]
  dsimp only
  rw [makeAsked, State.modCtx, State.ctx_setCtx_self, State.setCtx_setCtx]
  rfl

/-- With every point free or closed the make order is placed (R28, R71). -/
theorem askMake_placed {s : State} {x : Bus} {tg : Target} (ht : (s.ctx x).target = some tg)
    (hcheck : makeCheck s x tg = none) (hneed : needClosing s x tg.points ≠ [])
    (hw : tg.points.filter (fun p => (s.xp x p).state == .opn && !s.pointFree p) = []) {u : State}
    (hplace : placeMake (makeAsked s x tg .making []) x (cardOfBlock tg.block) tg.points = (u, true)) :
    askMake s x = u := by
  have hreq := makeRequest_asked hcheck hw (fun _ => hneed)
  rw [if_pos rfl, hplace, if_pos rfl] at hreq
  unfold askMake
  rw [ht]
  dsimp only
  rw [hreq]

/-- An order of bus `x` passes its send checks where the points are free of other buses (R29). -/
theorem sendCheck_passes {s : State} {c : CardId} {o : Order} (hb : s.barred o.bus = none) (hq : s.sourceQuiet o.bus = true)
    (hu : s.cardUsable c = true) (hfree : ∀ p ∈ o.points, ∀ y, y ≠ o.bus → s.claimed y p = false) : sendCheck s c o = .pass := by
  have hunsure : ((s.busEntry o.bus).kind = .source && (s.ctx o.bus).source = .unsure) = false := by
    unfold State.sourceQuiet at hq
    cases hk : (s.busEntry o.bus).kind <;> simp_all
  have hother : o.points.any (s.claimedByOther o.bus) = false := List.any_eq_false.2 (fun p hp => by
    rw [Bool.not_eq_true, State.claimedByOther]
    refine List.any_eq_false.2 (fun y _ => ?_)
    by_cases hy : y = o.bus
    · simp [hy]
    · simp [hfree p hp y hy])
  unfold sendCheck
  rw [hb]
  dsimp only
  rw [hunsure, hq, hu, hother]
  rfl

theorem makeAsked_sameCards (s : State) (x : Bus) (tg : Target) (st : CtxState) (waiting : List Pt) (o : Order) :
    SameCards s ((makeAsked s x tg st waiting).reserveFor o) := by
  rw [State.reserveFor_eq, makeAsked_same]
  exact ⟨rfl, rfl, fun _ => rfl⟩

/-- The state in which the make order of bus `x` is sent. -/
def makeReady (s : State) (x : Bus) (tg : Target) (ps : List Pt) : State :=
  (makeAsked s x tg .making []).reserveFor ⟨.make, x, ps, true⟩

theorem makeReady_same (s : State) (x : Bus) (tg : Target) (ps : List Pt) : makeReady s x tg ps = { s with
    matrix := { s.matrix with xps := (makeReady s x tg ps).matrix.xps }
    ctxs := (makeAsked s x tg .making []).ctxs } := by
  unfold makeReady
  rw [State.reserveFor_eq, makeAsked_same]

theorem makeReady_xp (s : State) (x : Bus) (tg : Target) (ps : List Pt) (y : Bus) (p : Pt) :
    ((makeReady s x tg ps).xp y p = s.xp y p) ∨
      (y = x ∧ s.pointFree p = true ∧ (p ∈ tg.points ∨ p ∈ ps) ∧ (makeReady s x tg ps).xp y p = { s.xp y p with state := .reserved }) := by
  have h : (makeReady s x tg ps).xp y p = ((makeAsked s x tg .making []).reserve x ps).xp y p := rfl
  rw [h, State.reserve_xp]
  have hasked := makeAsked_xp s x tg .making [] y p
  split
  · next hc =>
    obtain ⟨rfl, hp, hf⟩ := hc
    have hfree : s.pointFree p = true := pointFree_iff.2 (fun z => by
      have := pointFree_iff.1 hf z
      rw [State.claimed, makeAsked_xp] at this
      split at this
      · cases this
      · exact this)
    refine .inr ⟨rfl, hfree, .inr hp, ?_⟩
    rw [hasked]
    split <;> rfl
  · rw [hasked]
    split
    · next hc => exact .inr ⟨hc.1, hc.2.2, .inl hc.2.1, rfl⟩
    · exact .inl rfl

/-- The make order of points that are free goes out at once (R22, R28). -/
theorem placeMake_sent {s : State} {x : Bus} {tg : Target} {l : LaneId} {ps : List Pt} (hi : CardIdleOn s (cardOfBlock tg.block) l)
    (hb : s.barred x = none) (hq : s.sourceQuiet x = true) (hps : needClosing s x tg.points = ps)
    (hfree : ∀ p ∈ ps, s.pointFree p = true) :
    placeMake (makeAsked s x tg .making []) x (cardOfBlock tg.block) tg.points =
      (sendOrder (makeReady s x tg ps) (cardOfBlock tg.block) ⟨.make, x, ps, true⟩, true) := by
  have hneed : needClosing (makeAsked s x tg .making []) x tg.points = ps := by
    rw [← hps, ← needClosing_reserve s x tg.points tg.points]; rfl
  have hidle : ((makeAsked s x tg .making []).card (cardOfBlock tg.block)).idle = true := by
    rw [makeAsked_same]; exact hi.idle
  have hsame := makeAsked_sameCards s x tg .making [] ⟨.make, x, ps, true⟩
  have hcheck : sendCheck (makeReady s x tg ps) (cardOfBlock tg.block) ⟨.make, x, ps, true⟩ = .pass := by
    refine sendCheck_passes ?_ ?_ (hsame.idleOn hi).usable (fun p hp y hy => ?_)
    · rw [makeReady_same]; exact hb
    · have hctx : (makeReady s x tg ps).ctx x = (s.ctx x).makes .making ⟨cardOfBlock tg.block, tg.points, []⟩ := by
        have h := makeAsked_ctx s x x tg .making []
        rw [if_pos rfl] at h
        rw [makeReady_same]; exact h
      unfold State.sourceQuiet
      rw [hctx, makeReady_same]
      exact hq
    · rw [State.claimed]
      rcases makeReady_xp s x tg ps y p with h | ⟨h, -⟩
      · rw [h]; exact pointFree_iff.1 (hfree p hp) y
      · exact absurd h hy
  have hconsider : consider (makeReady s x tg ps) (cardOfBlock tg.block) ⟨.make, x, ps, true⟩ =
      sendOrder (makeReady s x tg ps) (cardOfBlock tg.block) ⟨.make, x, ps, true⟩ := by
    have h : sendOrWithdraw (makeReady s x tg ps) (cardOfBlock tg.block) ⟨.make, x, ps, true⟩ =
        sendOrder (makeReady s x tg ps) (cardOfBlock tg.block) ⟨.make, x, ps, true⟩ := by
      unfold sendOrWithdraw
      rw [hcheck]
    exact h
  have hplace := placeOrdinary_idle hidle ⟨.make, x, ps, true⟩
  unfold placeMake
  rw [hneed, hplace]
  exact congrArg (·, true) hconsider

/-! ### The stage once the source is quiet (R69) -/

theorem breakSet_eq {s : State} {x : Bus} {tg : Target} (ht : (s.ctx x).target = some tg) :
    breakSet s x = allPoints.filter (fun p => s.claimed x p && !decide (p ∈ tg.points)) := by
  unfold breakSet State.claims
  rw [ht]
  dsimp only
  rw [List.filter_filter]
  exact List.filter_congr (fun p _ => Bool.and_comm _ _)

/-- A bus at work is not finished (R138). -/
theorem unfinished_of {c : Ctx} (h : c.state.working = true) : c.finished = false := by
  unfold Ctx.finished
  revert h
  cases c.state <;> simp [CtxState.working]

/-- A command that ends with an order sent for the target of bus `x`, which comes to work with it. -/
theorem OrderWentOut.ends {s u t : State} {x : Bus} {c : CardId} {l : LaneId} {o : Order} {moving : XState} {b : Ctx} (hsame : SameCards s u)
    (hi : CardIdleOn s c l) (hout : u.out = []) (hqueue : u.queue = s.queue) (hx : u.ctx x = b) (hb : b.state.working = true)
    (hothers : ∀ y, y ≠ x → u.ctx y = s.ctx y) (hin : ∀ p ∈ o.points, o.sentTo (u.xp o.bus p) = { s.xp o.bus p with state := moving })
    (hoff : ∀ y p, ¬ (y = o.bus ∧ p ∈ o.points) → u.xp y p = s.xp y p) (ht : Ends (sendOrder u c o) t) :
    t.ctx x = b ∧ OnlyBus s t x ∧ OrderWentOut s t c l o moving := by
  have hctx : ∀ y, (sendOrder u c o).ctx y = u.ctx y := fun y => by rw [State.ctx, State.ctx, sendOrder_ctxs]
  have hw := sendOrder_sameWork u c o
  refine ⟨by rw [ht.ctx, hctx, hx], ⟨fun y hy => by rw [ht.ctx, hctx, hothers y hy], ?_⟩,
    orderWentOut_of hsame hi hout ht.out ht.matrix hin hoff⟩
  have hidle := ht.idle (.inl ⟨x, by rw [hctx, hx]; exact unfinished_of hb⟩)
  rw [hidle.1, sendOrder_eq, State.modXps_eq]
  exact hqueue

/-- The state `w` is where the work that `v` waits for ends, if the way from `s` to `w` has left nothing more to do and has
touched no bus but `x`. -/
def ComesTo (s : State) (x : Bus) (v w : State) : Prop :=
  w.matrixWork = [] → w.mail = s.mail → w.guard = s.guard → (∀ y, y ≠ x → w.ctx y = s.ctx y) → Ends w (finish v)

theorem comesTo_of_delivers {s v w : State} {k : Nat} (hq : Quiesced s) (h : Delivers k v w) (hk : k ≤ drainBound) (x : Bus) :
    ComesTo s x v w := fun hw hm _ _ => h.ends ⟨hw, hm.trans hq.2⟩ hk

theorem ComesTo.sendOrder {s u v : State} {x : Bus} {c : CardId} {o : Order} (h : ComesTo s x v (sendOrder u c o))
    (hw : u.matrixWork = []) (hm : u.mail = s.mail) (hg : u.guard = s.guard) (hothers : ∀ y, y ≠ x → u.ctx y = s.ctx y) :
    Ends (Machine.sendOrder u c o) (finish v) := by
  have hsame := sendOrder_sameWork u c o
  exact h (hsame.work.trans hw) (hsame.mail.trans hm) ((congrArg State.guard (sendOrder_eq u c o)).trans (by rw [State.modXps_eq]; exact hg))
    (fun y hy => by rw [State.ctx, hsame.ctxs]; exact hothers y hy)

/-- The stage that follows once the source of a bus is quiet (R69 to R71). -/
theorem afterQuiet_breaksOrMakes {s v : State} {x : Bus} {tg : Target} (hq : s.matrixWork = []) (hout : s.out = [])
    (ht : (s.ctx x).target = some tg) (hsort : tg.points.Pairwise (· < ·)) (hblock : ∀ p ∈ tg.points, blockOf p = tg.block)
    (hb : s.barred x = none) (hsrc : s.sourceQuiet x = true) (hv : ComesTo s x v (afterQuiet s x)) :
    BreaksOrMakes s (finish v) x (s.ctx x) tg := by
  refine ⟨fun d l ps hne hlen hps hmem hc hi => ?_, fun hclaims => ?_⟩
  · have hset : ∀ u : State, (u.ctx x).target = some tg → (∀ p, u.claimed x p = s.claimed x p) → breakSet u x = ps := fun u hu hcl => by
      rw [breakSet_eq hu]
      exact filter_points hps (fun p => by rw [hmem, hcl]; simp)
    have hset' : breakSet (s.modCtx x (fun c => { c with state := .breaking })) x = ps :=
      hset _ (by rw [State.ctx_modCtx_self]; exact ht) (fun _ => rfl)
    have hafter : afterQuiet s x = sendOrder (s.setCtx x (s.ctx x).breaks) d ⟨.brk, x, ps, true⟩ := by
      unfold afterQuiet enterBreaking
      rw [hset s ht (fun _ => rfl), if_neg (fun he => hne (List.isEmpty_iff.1 he))]
      dsimp only
      rw [hset']
      have hs := opensRequest_sent (s := s.modCtx x (fun c => { c with state := .breaking })) (x := x) hi hne hlen hps
        (fun p hp => (hc p hp).1) (fun p hp => (hc p hp).2)
      rw [State.modCtx_modCtx] at hs
      exact hs
    rw [hafter] at hv
    refine OrderWentOut.ends (u := s.setCtx x (s.ctx x).breaks) (b := (s.ctx x).breaks) ⟨rfl, rfl, fun _ => rfl⟩ hi hout rfl
      (State.ctx_setCtx_self _ _ _) rfl
      (fun y hy => (State.ctx_setCtx _ _ _ _).trans (if_neg (Ne.symm hy))) (fun p hp => ?_) (fun _ _ _ => rfl)
      (hv.sendOrder hq rfl rfl (fun y hy => (State.ctx_setCtx _ _ _ _).trans (if_neg (Ne.symm hy))))
    exact if_pos (hc p hp).2
  · have hset : breakSet s x = [] := by
      rw [breakSet_eq ht]
      refine List.filter_eq_nil_iff.2 (fun p _ => ?_)
      simp only [Bool.and_eq_true, Bool.not_eq_true', decide_eq_false_iff_not, not_and, not_not]
      exact hclaims p
    have hafter : afterQuiet s x = askMake s x := by unfold afterQuiet; rw [hset]; rfl
    rw [hafter] at hv
    refine ⟨fun d l ps hd hne hps hmem hfree hi => ?_, fun d ps hd hu hne hps hstate hmem => ?_⟩
    · subst hd
      have hneed : needClosing s x tg.points = ps := filter_points hps (fun p => by rw [hmem]; simp)
      have hopn : ∀ p ∈ tg.points, (s.xp x p).state = .closed ∨ s.pointFree p = true := fun p hp => by
        by_cases h : (s.xp x p).state = .closed
        · exact .inl h
        · exact .inr (hfree p ((hmem p).2 ⟨hp, h⟩))
      have hcheck : makeCheck s x tg = none := makeCheck_passes hb hi.usable hblock hclaims (fun p hp => by
        rcases hopn p hp with h | h
        · rw [h]; exact ⟨nofun, nofun, nofun⟩
        · rw [free_opn h]; exact ⟨nofun, nofun, nofun⟩)
      have hwait : tg.points.filter (fun p => (s.xp x p).state == .opn && !s.pointFree p) = [] :=
        List.filter_eq_nil_iff.2 (fun p hp => by
          rcases hopn p hp with h | h
          · simp [h]
          · simp [h])
      have hmake := askMake_placed ht hcheck (by rw [hneed]; exact hne) hwait (placeMake_sent hi hb hsrc hneed hfree)
      rw [hmake] at hv
      have hctx : ∀ y, (makeReady s x tg ps).ctx y = (makeAsked s x tg .making []).ctx y := fun y => by rw [makeReady_same]; rfl
      refine OrderWentOut.ends (u := makeReady s x tg ps) (b := (s.ctx x).makes .making ⟨cardOfBlock tg.block, tg.points, []⟩)
        (makeAsked_sameCards s x tg .making [] _) hi ?_ ?_ ?_ rfl (fun y hy => ?_) (fun p hp => ?_) (fun y p hn => ?_)
        (hv.sendOrder ?_ ?_ ?_ (fun y hy => ?_))
      · rw [makeReady_same]; exact hout
      · rw [makeReady_same]
      · rw [hctx, makeAsked_ctx, if_pos rfl]
      · rw [hctx, makeAsked_ctx, if_neg (Ne.symm hy)]
      · rcases makeReady_xp s x tg ps x p with h | ⟨-, -, -, h⟩ <;> rw [h] <;> rfl
      · rcases makeReady_xp s x tg ps y p with h | ⟨rfl, hf, hp, -⟩
        · exact h
        · have hp' : p ∈ ps := hp.elim (fun h => (hmem p).2 ⟨h, by rw [free_opn hf]; nofun⟩) id
          exact absurd ⟨rfl, hp'⟩ hn
      · rw [makeReady_same]; exact hq
      · rw [makeReady_same]
      · rw [makeReady_same]
      · rw [hctx, makeAsked_ctx, if_neg (Ne.symm hy)]
    · subst hd
      have hcheck : makeCheck s x tg = none := makeCheck_passes hb hu hblock hclaims (fun p hp => by
        rcases hstate p hp with h | h <;> rw [h] <;> exact ⟨nofun, nofun, nofun⟩)
      have hwait : tg.points.filter (fun p => (s.xp x p).state == .opn && !s.pointFree p) = ps :=
        rising_eq (hsort.filter _) hps (fun p => by rw [List.mem_filter, hmem]; simp)
      rw [askMake_blocked ht hcheck hne hwait] at hv
      have hends := hv (by rw [makeAsked_same]; exact hq) (by rw [makeAsked_same]) (by rw [makeAsked_same])
        (fun y hy => by rw [makeAsked_ctx, if_neg (Ne.symm hy)])
      have hx : (makeAsked s x tg .blocked ps).ctx x = (s.ctx x).makes .blocked ⟨cardOfBlock tg.block, tg.points, ps⟩ := by
        rw [makeAsked_ctx, if_pos rfl]
      refine ⟨by rw [hends.ctx, hx]; rfl, ⟨fun y hy => by rw [hends.ctx, makeAsked_ctx, if_neg (Ne.symm hy)], ?_⟩, ?_, ?_, fun y p => ?_⟩
      · rw [(hends.idle (.inl ⟨x, by rw [hx]; exact unfinished_of rfl⟩)).1, makeAsked_same]
      · rw [hends.out, makeAsked_same]; exact hout
      · rw [hends.matrix, makeAsked_same]
      · rw [hends.xp, makeAsked_xp]

/-! ### Before the work begins -/

/-- `u` is `s` but for the context of bus `x`, and what no site's work looks at. -/
structure Alike (s u : State) (x : Bus) : Prop where
  tables : u.tables = s.tables
  matrix : u.matrix = s.matrix
  lanes : ∀ l, u.laneHasCard l = s.laneHasCard l
  channels : u.channelUsable x = s.channelUsable x
  queue : u.queue = s.queue
  panel : u.panel = s.panel
  presence : u.guard.presence = s.guard.presence
  others : ∀ y, y ≠ x → u.ctx y = s.ctx y

theorem Alike.xp {s u : State} {x : Bus} (h : Alike s u x) : u.xp = s.xp := by
  funext y p; rw [State.xp, State.xp, h.matrix]

theorem Alike.claimed {s u : State} {x : Bus} (h : Alike s u x) : u.claimed = s.claimed := by
  funext y p; rw [State.claimed, State.claimed, h.xp]

theorem Alike.pointFree {s u : State} {x : Bus} (h : Alike s u x) : u.pointFree = s.pointFree := by
  funext p; rw [State.pointFree, State.pointFree, h.claimed]

theorem Alike.cardUsable {s u : State} {x : Bus} (h : Alike s u x) : u.cardUsable = s.cardUsable := by
  funext c
  unfold State.cardUsable State.cardEntry
  rw [h.tables]
  split
  · rfl
  · exact h.lanes _

theorem Alike.card {s u : State} {x : Bus} (h : Alike s u x) : u.card = s.card := by
  funext c; rw [State.card, State.card, h.matrix]

theorem Alike.onlyBus {s u t : State} {x : Bus} (h : Alike s u x) (k : OnlyBus u t x) : OnlyBus s t x :=
  ⟨fun y hy => (k.1 y hy).trans (h.others y hy), k.2.trans h.queue⟩

theorem Alike.idleOn {s u : State} {x : Bus} (h : Alike s u x) {c : CardId} {l : LaneId} (hi : CardIdleOn s c l) : CardIdleOn u c l :=
  SameCards.idleOn ⟨congrArg _ h.matrix, h.tables, h.lanes⟩ hi

theorem Alike.wentOut {s u t : State} {x : Bus} (h : Alike s u x) {c : CardId} {l : LaneId} {o : Order} {m : XState}
    (k : OrderWentOut u t c l o m) : OrderWentOut s t c l o m := by
  unfold OrderWentOut at k ⊢
  rw [h.card, h.xp] at k
  exact k

/-- The stage after the quiet, seen from before. -/
theorem BreaksOrMakes.alike {s u t : State} {x : Bus} {b b' : Ctx} {tg : Target} (k : BreaksOrMakes u t x b tg) (h : Alike s u x)
    (hb : ∀ st r, { b with state := st, request := r } = { b' with state := st, request := r }) : BreaksOrMakes s t x b' tg := by
  obtain ⟨k1, k2⟩ := k
  rw [h.claimed] at k1 k2
  rw [h.xp] at k1 k2
  rw [h.pointFree, h.cardUsable] at k2
  refine ⟨fun d l ps hne hlen hps hmem hc hi => ?_, fun hclaims => ?_⟩
  · obtain ⟨h1, h2, h3⟩ := k1 d l ps hne hlen hps hmem hc (h.idleOn hi)
    exact ⟨h1.trans (hb _ _), h.onlyBus h2, h.wentOut h3⟩
  · obtain ⟨k3, k4⟩ := k2 hclaims
    refine ⟨fun d l ps hd hne hps hmem hfree hi => ?_, fun d ps hd hu hne hps hstate hmem => ?_⟩
    · obtain ⟨h1, h2, h3⟩ := k3 d l ps hd hne hps hmem hfree (h.idleOn hi)
      exact ⟨h1.trans (hb _ _), h.onlyBus h2, h.wentOut h3⟩
    · obtain ⟨h1, h2, h3, h4, h5⟩ := k4 d ps hd hu hne hps hstate hmem
      exact ⟨h1.trans (hb _ _), h.onlyBus h2, h3, h4.trans (congrArg _ h.matrix), h5⟩

/-! ### Resolution (R14) -/

theorem blockOf_pointOf (b : Block) (o : Fin 8) : blockOf (pointOf b o) = b := by
  apply Fin.ext
  show (8 * b.val + o.val) / 8 = b.val
  omega

/-- The target of a site and a net that fit the bus (R14). -/
theorem resolve_target {s : State} {x : Bus} {u : Site} {n : Net} {tg : Target} (he : (s.siteEntry u).enabled = true)
    (hf : NetFits s x n) (ht : TargetOf s u n tg) : resolve s x u n = some tg := by
  obtain ⟨hblock, hkind, hsettle, hsort, hmem⟩ := ht
  have hused : ((s.netEntry n).used.map (pointOf (s.siteEntry u).block)) = tg.points := by
    have hlt : (s.netEntry n).used.Pairwise (· < ·) := (List.pairwise_lt_finRange 8).filter _
    refine rising_eq (List.pairwise_map.2 (hlt.imp (fun {a b} h => ?_))) hsort (fun p => ?_)
    · show 8 * _ + a.val < 8 * _ + b.val
      exact Nat.add_lt_add_left h _
    · rw [hmem, List.mem_map]
      constructor
      · rintro ⟨o, ho, rfl⟩
        have ho' : o ∈ (s.netEntry n).offsets.toList.take (s.netEntry n).pinCount.val := by
          simpa [NetEntry.used] using ho
        obtain ⟨i, hi, he⟩ := List.mem_take_iff_getElem.1 ho'
        rw [Vector.length_toList] at hi
        have hcount : i < (s.netEntry n).pinCount.val := by omega
        exact ⟨⟨i, by omega⟩, hcount, by rw [← he]; rfl⟩
      · rintro ⟨i, hi, rfl⟩
        refine ⟨_, ?_, rfl⟩
        have : (s.netEntry n).offsets[i] ∈ (s.netEntry n).offsets.toList.take (s.netEntry n).pinCount.val :=
          List.mem_take_iff_getElem.2 ⟨i.val, by rw [Vector.length_toList]; omega, rfl⟩
        simpa [NetEntry.used] using this
  have hguard : (!(s.siteEntry u).enabled || (s.netEntry n).pinCount == 0 || (s.netEntry n).kind != (s.busEntry x).kind.netKind) = false := by
    rw [he]
    simp [hf.1, hf.2]
  unfold resolve
  dsimp only
  rw [hguard, hused, ← hblock, ← hkind, ← hsettle]
  rfl

/-- Work that starts at a site with its target (R68). -/
theorem startSite_target {s : State} {x : Bus} {u : Site} {n : Net} {tg : Target} {st : Step} (hstep : (s.ctx x).step = some st)
    (hn : st.net? = some n) (ht : resolve s x u n = some tg) {w : State} (hw : w = s.setCtx x ((s.ctx x).atSite u n tg)) :
    startSite s x u =
      if ((breakSet w x).isEmpty && !tg.points.any (fun p => (s.xp x p).state != .closed)) = true then settleDecision w x true
      else if (!s.sourceQuiet x) = true then enterQuieting w x else afterQuiet w x := by
  have hat : (s.modCtx x (fun c => { c with inFlight := some u, resume := .none, after := .none })).modCtx x
      (fun c => { c with heldNet := c.net, site := some u, net := some n, target := some tg }) = w := by
    rw [State.modCtx_modCtx, hw]; rfl
  have hres : resolve (s.modCtx x (fun c => { c with inFlight := some u, resume := .none, after := .none })) x u n = some tg := ht
  have hquiet : w.sourceQuiet x = s.sourceQuiet x := by
    rw [hw]
    unfold State.sourceQuiet
    rw [State.ctx_setCtx_self]
    rfl
  unfold startSite
  rw [hstep]
  dsimp only
  rw [hn]
  dsimp only
  rw [hres]
  dsimp only
  rw [hat, hquiet, hw]
  rfl

/-! ### The first stage (R68) -/

/-- The context that waits for its source to be quiet. -/
def Ctx.quiets (c : Ctx) : Ctx := { c with state := .quieting, source := .goingQuiet, request := some .quiet }

theorem quietRequest_sent {s : State} {x : Bus} (hk : (s.busEntry x).kind = .source) (hs : (s.ctx x).source = .live ∨ (s.ctx x).source = .unsure)
    (hu : s.channelUsable x = true) : quietRequest s x = ((sendQuiet s x).setSource x .goingQuiet, .waits) := by
  unfold quietRequest
  rw [hk]
  rcases hs with h | h <;> rw [h] <;> exact if_pos hu

theorem enterQuieting_sent {s : State} {x : Bus} (hk : (s.busEntry x).kind = .source) (hs : (s.ctx x).source = .live ∨ (s.ctx x).source = .unsure)
    (hu : s.channelUsable x = true) :
    enterQuieting s x = (s.setCtx x (s.ctx x).quiets).emit (s.busEntry x).lane (.quiet (s.busEntry x).channel) := by
  have hreq := quietRequest_sent (s := s.modCtx x (fun c => { c with state := .quieting })) hk
    (by rw [State.ctx_modCtx_self]; exact hs) hu
  have hmod : ∀ (u : State) (l : LaneId) (m : LaneFrame) f, (u.emit l m).modCtx x f = (u.modCtx x f).emit l m := fun _ _ _ _ => rfl
  unfold enterQuieting
  dsimp only
  rw [hreq]
  dsimp only
  rw [sendQuiet, State.setSource, hmod, hmod, State.modCtx_modCtx, State.modCtx_modCtx]
  rfl

/-- The first stage of the work at a site (R48, R68 to R72). -/
theorem startSite_begins {s v : State} {x : Bus} {u : Site} {n : Net} {st : Step} (hq : s.matrixWork = []) (hout : s.out = [])
    (hstep : (s.ctx x).step = some st) (hn : st.net? = some n) (he : (s.siteEntry u).enabled = true) (hf : NetFits s x n)
    (hb : s.barred x = none) (hv : ComesTo s x v (startSite s x u)) :
    SiteBegins s (finish v) x (s.ctx x) u n := by
  intro tg htg
  obtain ⟨w, hw⟩ : ∃ w, w = s.setCtx x ((s.ctx x).atSite u n tg) := ⟨_, rfl⟩
  have hwctx : w.ctx x = (s.ctx x).atSite u n tg := by rw [hw, State.ctx_setCtx_self]
  have halike : Alike s w x := by
    rw [hw]
    exact ⟨rfl, rfl, fun _ => rfl, rfl, rfl, rfl, rfl, fun y hy => (State.ctx_setCtx _ _ _ _).trans (if_neg (Ne.symm hy))⟩
  have hwq : w.matrixWork = [] := by rw [hw]; exact hq
  have hwmail : w.mail = s.mail := by rw [hw]; rfl
  have hwguard : w.guard = s.guard := by rw [hw]; rfl
  have hothers : ∀ c y, y ≠ x → (w.setCtx x c).ctx y = s.ctx y := fun c y hy => by
    rw [State.ctx_setCtx, if_neg (Ne.symm hy), halike.others y hy]
  have hwout : w.out = [] := by rw [hw]; exact hout
  have hset : breakSet w x = allPoints.filter (fun p => s.claimed x p && !decide (p ∈ tg.points)) := by
    rw [breakSet_eq (by rw [hwctx]; rfl), halike.claimed]
  have hstart := startSite_target hstep hn (resolve_target he hf htg) hw
  rw [hstart] at hv
  have hblock : ∀ p ∈ tg.points, blockOf p = tg.block := fun p hp => by
    obtain ⟨i, _, rfl⟩ := (htg.2.2.2.2 p).1 hp
    rw [blockOf_pointOf, htg.1]
  refine ⟨fun hclosed hclaims hsettle hnet => ?_, fun hwork => ?_⟩
  · have hnone : ((breakSet w x).isEmpty && !tg.points.any (fun p => (s.xp x p).state != .closed)) = true := by
      rw [hset, List.filter_eq_nil_iff.2 (fun p _ => by
        simp only [Bool.and_eq_true, Bool.not_eq_true', decide_eq_false_iff_not, not_and, not_not]; exact hclaims p)]
      rw [List.any_eq_false.2 (fun p hp => by rw [hclosed p hp]; simp)]
      rfl
    have hdecide : settleDecision w x true = w.setCtx x
        { (s.ctx x).atSite u n tg with state := .settling, settleTimer := some tg.settle } := by
      unfold settleDecision
      rw [hwctx]
      have hne : (true && ((s.ctx x).atSite u n tg).heldNet == ((s.ctx x).atSite u n tg).net) = false := by
        rw [Bool.true_and]
        exact beq_eq_false_iff_ne.2 hnet
      have htarget : ((s.ctx x).atSite u n tg).target = some tg := rfl
      dsimp only
      rw [hne, htarget]
      dsimp only
      rw [if_neg Bool.false_ne_true, if_neg hsettle, State.modCtx, hwctx]
      rfl
    rw [if_pos hnone, hdecide] at hv
    have hends := hv hwq hwmail hwguard (hothers _)
    have hx := (hends.ctx x).trans (State.ctx_setCtx_self _ _ _)
    refine ⟨hx, halike.onlyBus ⟨fun y hy => (hends.ctx y).trans ((State.ctx_setCtx _ _ _ _).trans (if_neg (Ne.symm hy))), ?_⟩,
      hends.matrix.trans halike.matrix, hends.out.trans hwout⟩
    exact (hends.idle (.inl ⟨x, by rw [State.ctx_setCtx_self]; exact unfinished_of rfl⟩)).1
  · have hsome : ¬ ((breakSet w x).isEmpty && !tg.points.any (fun p => (s.xp x p).state != .closed)) = true := fun h => by
      rw [Bool.and_eq_true, List.isEmpty_iff, Bool.not_eq_true', List.any_eq_false, hset, List.filter_eq_nil_iff] at h
      obtain ⟨h1, h2⟩ := h
      rcases hwork with ⟨p, hp, hc⟩ | ⟨p, hc, hp⟩
      · exact h2 p hp (by simpa using hc)
      · exact h1 p (List.mem_finRange p) (by simp [hc, hp])
    rw [if_neg hsome] at hv
    refine ⟨fun hkind hsrc hu => ?_, fun hquiet => ?_⟩
    · have hloud : (!s.sourceQuiet x) = true := by
        unfold State.sourceQuiet
        rw [hkind]
        rcases hsrc with h | h <;> rw [h] <;> rfl
      have hwkind : (w.busEntry x).kind = .source := by rw [hw]; exact hkind
      have hent := enterQuieting_sent (s := w) (x := x) hwkind (by rw [hwctx]; exact hsrc) (by rw [hw]; exact hu)
      rw [if_pos hloud, hent] at hv
      have hends := hv hwq hwmail hwguard (hothers _)
      have hx := (hends.ctx x).trans (State.ctx_setCtx_self w x (w.ctx x).quiets)
      refine ⟨hx.trans (by rw [hwctx]; rfl),
        halike.onlyBus ⟨fun y hy => (hends.ctx y).trans ((State.ctx_setCtx w x y _).trans (if_neg (Ne.symm hy))), ?_⟩,
        hends.matrix.trans halike.matrix, hends.out.trans ?_⟩
      · exact (hends.idle (.inl ⟨x, by
          rw [show ((w.setCtx x (w.ctx x).quiets).emit (w.busEntry x).lane (.quiet (w.busEntry x).channel)).ctx x = (w.ctx x).quiets from
            State.ctx_setCtx_self _ _ _]
          exact unfinished_of rfl⟩)).1
      · show w.out ++ _ = _
        rw [hwout, hw]; rfl
    · rw [if_neg (by rw [hquiet]; exact Bool.false_ne_true)] at hv
      have hwquiet : w.sourceQuiet x = true := by
        rw [← hquiet, hw]
        unfold State.sourceQuiet
        rw [State.ctx_setCtx_self]; rfl
      have h := afterQuiet_breaksOrMakes hwq hwout (by rw [hwctx]; rfl) htg.2.2.2.1 hblock (by rw [hw]; exact hb) hwquiet
        (fun h1 h2 h3 h4 => hv h1 (h2.trans hwmail) (h3.trans hwguard) (fun y hy => (h4 y hy).trans (halike.others y hy)))
      rw [hwctx] at h
      exact h.alike halike (fun _ _ => rfl)

/-- Where the work at a site begins, seen from before. -/
theorem SiteBegins.alike {s u t : State} {x : Bus} {c : Ctx} {y : Site} {n : Net} (k : SiteBegins u t x c y n) (h : Alike s u x)
    (hs : (u.ctx x).source = (s.ctx x).source) : SiteBegins s t x c y n := by
  intro tg htg
  have hsite : TargetOf u y n tg := by
    unfold TargetOf at htg ⊢
    rw [State.siteEntry, State.netEntry, h.tables]
    exact htg
  obtain ⟨k1, k2⟩ := k tg hsite
  have hentry : u.busEntry x = s.busEntry x := by rw [State.busEntry, State.busEntry, h.tables]
  have husable : u.channelUsable x = s.channelUsable x := h.channels
  have hquiet : u.sourceQuiet x = s.sourceQuiet x := by
    unfold State.sourceQuiet
    rw [hentry, hs]
  rw [h.claimed, h.xp] at k1 k2
  rw [hentry, hs, husable, hquiet] at k2
  refine ⟨fun h1 h2 h3 h4 => ?_, fun h1 => ⟨fun h2 h3 h4 => ?_, fun h2 => ?_⟩⟩
  · obtain ⟨a, b, c, d⟩ := k1 h1 h2 h3 h4
    exact ⟨a, h.onlyBus b, c.trans h.matrix, d⟩
  · obtain ⟨a, b, c, d⟩ := (k2 h1).1 h2 h3 h4
    exact ⟨a, h.onlyBus b, c.trans h.matrix, d⟩
  · exact ((k2 h1).2 h2).alike h (fun _ _ => rfl)

end Sys2Proof.Machine
end

