-- ==== Sys2Proof/Proofs/Exchanges.lean ====
section
/-!
PROOFS. Sites that end with their record among those appended or waiting (R78, R80), and the end of an exchange with the
instrument (O42).
-/

-- One proof after another: in the joined text each worker would hold a stack of its own.
set_option Elab.async false

namespace Sys2Proof.Machine

/-! ### A site that ends, as the obligations say it -/

/-- The record of an INVALID site of a MEASURE step names the bus, the site, the tag and the cause (R129). -/
theorem invalidRec_names {w : State} {x : Bus} {u : Site} (cause : Cause) (q : ResultQueue) (hin : (w.ctx x).inFlight = some u)
    (hstep : ∃ tag sel n lim k d timeout hold, (w.ctx x).step = some ⟨tag, .measure sel n lim k d timeout hold⟩) :
    (∃ m : MeasRec, invalidRec w x cause = .measure m ∧ m.bus = x ∧ m.site = some u ∧ m.tag = (w.ctx x).stepTag ∧
      m.body = .invalid cause) ∧
    ∃ m : MeasRec, (invalidRec w x cause).stamped q = .measure m ∧ m.bus = x ∧ m.site = some u ∧ m.tag = (w.ctx x).stepTag ∧
      m.body = .invalid cause := by
  obtain ⟨tag, sel, n, lim, k, d, timeout, hold, hstep⟩ := hstep
  have hsite : invalidSite (w.ctx x) = some u := by rw [← hin]; unfold invalidSite; rw [hstep]
  unfold invalidRec measOf
  rw [hsite]
  exact ⟨⟨_, rfl, rfl, rfl, rfl, rfl⟩, _, rfl, rfl, rfl, rfl, rfl⟩

/-- A command one of whose first consequences ends the site of bus `x`. -/
theorem endedBy_of_delivers {s v w : State} {x : Bus} {u : Site} {cause : Cause} {k : Nat} (h : Delivers k v (endSite w x cause))
    (hk : k ≤ drainBound) (hw : (w.ctx x).state.working = true) (hin : (w.ctx x).inFlight = some u)
    (hstep : ∃ tag sel n lim k d timeout hold, (w.ctx x).step = some ⟨tag, .measure sel n lim k d timeout hold⟩)
    (htag : (w.ctx x).stepTag = (s.ctx x).stepTag) (hrec : ∃ l, w.queue.records = s.queue.records ++ l) :
    EndedBy s (finish v) x u cause := by
  obtain ⟨⟨m, hm, hmbus, hmsite, hmtag, hmbody⟩, m', hm', hmbus', hmsite', hmtag', hmbody'⟩ := invalidRec_names cause w.queue hin hstep
  obtain ⟨l, hl⟩ := hrec
  by_cases h64 : 64 ≤ w.queue.records.length
  · have hp := endSite_posts hw cause h64
    obtain ⟨hwait, -⟩ := drain_posts (drainBound - k) hp
    refine ⟨m, .inr ⟨⟨invalidRec w x cause, false⟩, ?_, hm⟩, hmbus, hmsite, hmtag.trans htag, hmbody⟩
    rw [finish_ctx, h.drainAll hk, hwait.1]
    exact hp.1
  · refine ⟨m', .inl ?_, hmbus', hmsite', hmtag'.trans htag, hmbody'⟩
    obtain ⟨l1, hl1, -⟩ := (Keeps.drain (Q := fun _ => False) (drainBound - k) (.refl (endSite w x cause))).records
    obtain ⟨l2, hl2⟩ := (panelCheck_only (drain drainBound v)).records
    have hall : (finish v).queue.records = s.queue.records ++ (l ++ [.measure m'] ++ l1 ++ l2) := by
      rw [finish, pump_queue, hl2, h.drainAll hk, hl1, endSite_records, if_pos (Nat.lt_of_not_le h64), hm', hl]
      simp
    rw [hall, List.drop_left]
    simp

/-- An INVALID judgement whose record waits leaves nothing to be told. -/
theorem judgeInvalid_full {s : State} (x : Bus) (cause : Cause) (h64 : 64 ≤ s.queue.records.length) :
    judgeInvalid s x cause = { s with
      trunk := (judgeInvalid s x cause).trunk
      panel := (judgeInvalid s x cause).panel
      ctxs := (judgeInvalid s x cause).ctxs } := by
  have h : judgeInvalid s x cause = (judgementShown s .invalid (s.disp (invalidRow s x) .invalid) (invalidSite (s.ctx x))).setCtx x
      ((judgeInvalid s x cause).ctx x) := by
    rw [judgeInvalid_ctx, if_neg (Nat.not_lt.2 h64), judgeInvalid_eq]
    exact offered_full (by rw [Bool.and_false]) (by rw [judgementShown_queue]; exact h64)
  generalize judgeInvalid s x cause = t at h
  rw [h, judgementShown_shape]
  rfl

/-- With the queue full the command ends with the record waiting (R144). -/
theorem ends_endSite {v w : State} {x : Bus} {cause : Cause} {k : Nat} (h : Delivers k v (endSite w x cause)) (hk : k + 1 ≤ drainBound)
    (hq : Quiesced w) (hs : (w.ctx x).state = .quieting ∨ (w.ctx x).state = .restoring) (hr : (w.ctx x).request = none)
    (h64 : 64 ≤ w.queue.records.length) :
    ((finish v).ctx x).state = .posting ∧ ((finish v).ctx x).source = (w.ctx x).source ∧ (finish v).out = w.out := by
  have hbefore : beforeEnd w x = w := by
    unfold beforeEnd stopTake
    rcases hs with h | h <;> simp [h]
  have hwork : (w.ctx x).state.working = true := by rcases hs with h | h <;> rw [h] <;> rfl
  have hshape := judgeInvalid_full (s := w) x cause h64
  obtain ⟨j, hj⟩ : ∃ j, j = (judgeInvalid w x cause).modCtx x (fun c => if c.request.isNone then { c with state := .posting } else c) :=
    ⟨_, rfl⟩
  have hend : endSite w x cause = j.post (.poke x) := by rw [endSite_eq, hbefore, hj]
  have hctx : ∀ y, (endSite w x cause).ctx y = j.ctx y := fun y => by rw [hend]; rfl
  have hp := endSite_posts hwork cause h64
  have hposting := endSite_posting hr cause
  rw [hctx] at hp hposting
  have hjq : Quiesced j := by
    rw [hj, hshape]; exact hq
  have hends := (h.trans (hend ▸ delivers_posting hjq hp hposting.1)).ends hjq hk
  refine ⟨by rw [hends.ctx, hposting.1], ?_, ?_⟩
  · obtain ⟨c, hc, he⟩ := endSite_ctx w x cause
    rw [hends.ctx, ← hctx, he, hc, hbefore]
    rfl
  · rw [hends.out, hj, State.modCtx_out, judgeInvalid_out]

/-! ### The end of an exchange (R50, R51) -/

/-- The context whose exchange has ended with nothing asked of it, or with its request answered. -/
def Ctx.acked (c : Ctx) (v : SrcState) : Ctx := { c with source := v, request := none }

theorem answerQuiet_none {s : State} {x : Bus} (h : (s.ctx x).request ≠ some .quiet) (ok : Bool) : answerQuiet s x ok = s := if_neg h

theorem answerLive_none {s : State} {x : Bus} (h : (s.ctx x).request ≠ some .live) (ok : Bool) : answerLive s x ok = s := if_neg h

theorem answerQuiet_told {s : State} {x : Bus} (v : SrcState) (h : (s.ctx x).request = some .quiet) (ok : Bool) :
    answerQuiet (s.setSource x v) x ok = (s.setCtx x ((s.ctx x).acked v)).post (.quieted x ok) := by
  have hr : ((s.setSource x v).ctx x).request = some .quiet := by rw [State.setSource, State.ctx_modCtx_self]; exact h
  unfold answerQuiet
  rw [if_pos hr, State.setSource, State.modCtx_modCtx]
  rfl

theorem answerLive_told {s : State} {x : Bus} (v : SrcState) (h : (s.ctx x).request = some .live) (ok : Bool) :
    answerLive (s.setSource x v) x ok = (s.setCtx x ((s.ctx x).acked v)).post (.lived x ok) := by
  have hr : ((s.setSource x v).ctx x).request = some .live := by rw [State.setSource, State.ctx_modCtx_self]; exact h
  unfold answerLive
  rw [if_pos hr, State.setSource, State.modCtx_modCtx]
  rfl

theorem yesNo_exchange (live : Bool) : yesNo? (yesNo live).toNat = some live := by cases live <;> rfl

theorem exchange_iff {v : SrcState} {live : Bool} : v.exchange = some live ↔ v = if live then .goingLive else .goingQuiet := by
  cases v <;> cases live <;> simp [SrcState.exchange]

/-- An ACK that ends an exchange (R50). -/
theorem exec_ack {s : State} {l : LaneId} {ch : Byte} {x : Bus} {live : Bool} (hl : s.laneHasInstrument l = true)
    (hb : sourceBusOn s l ch = some x) (hs : (s.ctx x).source = if live then .goingLive else .goingQuiet) :
    exec (.ack l ch (yesNo live)) s = .next (finish (ackTaken (goodFrame s.begin l) x live)) := by
  simp only [exec, execAck, goodFrame_laneHasInstrument, goodFrame_sourceBusOn, hl, hb, yesNo_exchange, goodFrame_ctx,
    exchange_iff.2 hs, if_true]

/-- An ACK that ends none is discarded (R50). -/
theorem ack_unmatched {s : State} {l : LaneId} {ch : Byte} {live : Bool}
    (h : ∀ x, sourceBusOn s l ch = some x → (s.ctx x).source ≠ if live then .goingLive else .goingQuiet) :
    OnlyCountsGood (.ack l ch (yesNo live)) s l := by
  apply onlyCountsGood_of
  simp only [exec, execAck, goodFrame_laneHasInstrument, goodFrame_sourceBusOn, yesNo_exchange]
  split
  · cases hb : sourceBusOn s l ch with
    | none => rfl
    | some x =>
      dsimp only
      rw [goodFrame_ctx, if_neg (fun he => h x hb (exchange_iff.1 he))]
  · rfl

theorem exec_ackTimeout {s : State} {x : Bus} (hs : (s.ctx x).source = .goingQuiet ∨ (s.ctx x).source = .goingLive) :
    exec (.ackTimeout x) s = .next (finish (ackExpired s.begin x)) := if_pos hs

/-- The frames of an unanswered LIVE (R51). -/
def unansweredLive (s : State) (x : Bus) : List (LaneId × LaneFrame) :=
  if s.channelUsable x then [((s.busEntry x).lane, .quiet (s.busEntry x).channel)] else []

/-- The state of the record after an unanswered LIVE (R51). -/
def State.unanswered (s : State) (x : Bus) : SrcState := if s.channelUsable x then .goingQuiet else .unsure

theorem ackExpired_quiet {s : State} {x : Bus} (hs : (s.ctx x).source = .goingQuiet) :
    ackExpired s x = answerQuiet (s.setSource x .unsure) x false := by
  unfold ackExpired
  rw [hs]

theorem ackExpired_live {s : State} {x : Bus} (hs : (s.ctx x).source = .goingLive) :
    ackExpired s x = answerLive (State.setSource { s with out := s.out ++ unansweredLive s x } x (s.unanswered x)) x false := by
  unfold ackExpired unansweredLive State.unanswered
  rw [hs]
  dsimp only
  split
  · rfl
  · rw [List.append_nil]

/-- What a good frame does is seen by no site's work. -/
theorem alike_goodFrame (s : State) (l : LaneId) (x : Bus) (c : Ctx) : Alike s ((goodFrame s.begin l).setCtx x c) x := by
  have hlane := fun k => goodFrame_laneHasCard s l k
  have husable : (goodFrame s.begin l).channelUsable x = s.channelUsable x := by
    have hentry : (goodFrame s.begin l).busEntry x = s.busEntry x := by rw [goodFrame_eq]; rfl
    unfold State.channelUsable
    dsimp only
    rw [hentry, goodFrame_laneHasInstrument, goodFrame_channels]
  refine ⟨?_, ?_, hlane, husable, ?_, ?_, ?_, fun y hy => ?_⟩
  · rw [goodFrame_eq]; rfl
  · rw [goodFrame_eq]; rfl
  · rw [goodFrame_eq]; rfl
  · rw [goodFrame_eq]; rfl
  · rw [goodFrame_eq]; rfl
  · rw [State.ctx_setCtx, if_neg (Ne.symm hy), goodFrame_ctx]

/-- A command that ends where an exchange has ended with nothing asked. -/
theorem ends_unasked {s u t : State} {x : Bus} {v : SrcState} (h : Ends (u.setSource x v) t) (hctx : ∀ y, u.ctx y = s.ctx y)
    (hm : u.matrix = s.matrix) (hg : u.guard = s.guard) (ht : u.tables = s.tables) :
    t.ctx x = (s.ctx x).sourced v ∧ (∀ y : Bus, y ≠ x → t.ctx y = s.ctx y) ∧ t.matrix = s.matrix ∧ t.guard = s.guard ∧
      t.tables = s.tables ∧ t.out = u.out := by
  refine ⟨?_, fun y hy => ?_, h.matrix.trans hm, h.guard.trans hg, h.tables.trans ht, h.out⟩
  · rw [h.ctx, State.setSource, State.ctx_modCtx_self, hctx]; rfl
  · rw [h.ctx, State.setSource, State.ctx_modCtx, if_neg (Ne.symm hy), hctx]

/-- What an answered request is told, as the one thing left to do. -/
theorem delivers_told {u : State} {m : Mail} (h : Quiesced u) : Delivers 1 (u.post m) (doMail u m) := by
  have hstate : ({ u.post m with mail := [] } : State) = u := by
    unfold State.post
    rw [← h.2]
  refine .mail m [] h.1 (by rw [State.post_mail, h.2]; rfl) ?_
  rw [hstate]
  exact .refl _

theorem doMail_quieted {s : State} {x : Bus} (hs : (s.ctx x).state = .quieting) (hi : (s.ctx x).inFlight.isSome = true) (ok : Bool) :
    doMail s (.quieted x ok) = if ok then afterQuiet s x else endSite s x .lane := by
  simp only [doMail, hs, hi, if_true]

theorem doMail_lived {s : State} {x : Bus} (hs : (s.ctx x).state = .restoring) (hi : (s.ctx x).inFlight.isSome = true) (ok : Bool) :
    doMail s (.lived x ok) = if ok then afterLive s x else endSite s x .lane := by
  simp only [doMail, hs, hi, if_true]

/-- A request of bus `x` that is told that its exchange failed ends its site (R51, R69, R73). -/
theorem exchange_failed {s w v : State} {x : Bus} {u : Site} {st : CtxState} {src : SrcState} {fs : List (LaneId × LaneFrame)}
    (hw : w = State.setCtx { s.begin with out := fs } x ((s.ctx x).acked src)) (hq : Quiesced s) (hx : WorksAt s x st u)
    (hst : st = .quieting ∨ st = .restoring) (hv : Delivers 1 v (endSite w x .lane)) :
    EndedBy s (finish v) x u .lane ∧ (64 ≤ s.queue.records.length →
      ((finish v).ctx x).state = .posting ∧ ((finish v).ctx x).source = src ∧ (finish v).out = fs) := by
  obtain ⟨hs, hin, -, hstep⟩ := hx
  have hctx : w.ctx x = (s.ctx x).acked src := by rw [hw, State.ctx_setCtx_self]
  have hq' : Quiesced w := by rw [hw]; exact hq
  have hqueue : w.queue = s.queue := by rw [hw]; rfl
  have hk : 1 + 1 ≤ drainBound := by unfold drainBound; omega
  have hstate : (w.ctx x).state = st := by rw [hctx]; exact hs
  refine ⟨endedBy_of_delivers hv (Nat.le_of_succ_le hk) (by rw [hstate]; rcases hst with h | h <;> rw [h] <;> rfl) (by rw [hctx]; exact hin)
    (by rw [hctx]; exact hstep) (by rw [hctx]; rfl) ⟨[], by rw [hqueue, List.append_nil]⟩, fun h64 => ?_⟩
  have h := ends_endSite hv hk hq' (by rw [hstate]; exact hst) (by rw [hctx]; rfl) (by rw [hqueue]; exact h64)
  refine ⟨h.1, h.2.1.trans (by rw [hctx]; rfl), h.2.2.trans (by rw [hw]; rfl)⟩

theorem setSource_request (s : State) (x : Bus) (v : SrcState) : ((s.setSource x v).ctx x).request = (s.ctx x).request := by
  rw [State.setSource, State.ctx_modCtx_self]

/-- An exchange that an ACK ends, with nothing asked (R50). -/
theorem ack_unasked {s : State} {x : Bus} {l : LaneId} {ch : Byte} {live : Bool} (hq : Quiesced s) (hr : (s.ctx x).request = none)
    (hl : s.laneHasInstrument l = true) (hb : sourceBusOn s l ch = some x)
    (hs : (s.ctx x).source = if live then .goingLive else .goingQuiet) : ∃ t, exec (.ack l ch (yesNo live)) s = .next t ∧
      t.ctx x = (s.ctx x).sourced (if live then .live else .quiet) ∧ (∀ y : Bus, y ≠ x → t.ctx y = s.ctx y) ∧
      t.matrix = s.matrix ∧ t.guard = s.guard ∧ t.tables = s.tables ∧ t.out = [] := by
  have hrn : ∀ v r, ((((goodFrame s.begin l).setSource x v).ctx x)).request ≠ some r := fun v r => by
    rw [setSource_request, goodFrame_ctx, hr]; nofun
  have htaken : ackTaken (goodFrame s.begin l) x live = (goodFrame s.begin l).setSource x (if live then .live else .quiet) := by
    unfold ackTaken
    cases live with
    | true => exact answerLive_none (hrn _ _) _
    | false => exact answerQuiet_none (hrn _ _) _
  refine ⟨_, exec_ack hl hb hs, ?_⟩
  rw [htaken]
  have hquiet : Quiesced ((goodFrame s.begin l).setSource x (if live then .live else .quiet)) := by rw [goodFrame_eq]; exact hq
  obtain ⟨h1, h2, h3, h4, h5, h6⟩ := ends_unasked (ends_quiesced hquiet) (fun y => goodFrame_ctx s l y) (by rw [goodFrame_eq]; rfl)
    (by rw [goodFrame_eq]; rfl) (by rw [goodFrame_eq]; rfl)
  exact ⟨h1, h2, h3, h4, h5, h6.trans (by rw [goodFrame_eq]; rfl)⟩

/-- A QUIET without an answer, with nothing asked (R51). -/
theorem quietTimeout_unasked {s : State} {x : Bus} (hq : Quiesced s) (hr : (s.ctx x).request = none) (hs : (s.ctx x).source = .goingQuiet) :
    ∃ t, exec (.ackTimeout x) s = .next t ∧ t.ctx x = (s.ctx x).sourced .unsure ∧ (∀ y : Bus, y ≠ x → t.ctx y = s.ctx y) ∧
      t.matrix = s.matrix ∧ t.guard = s.guard ∧ t.tables = s.tables ∧ t.out = [] := by
  refine ⟨_, exec_ackTimeout (.inl hs), ?_⟩
  rw [ackExpired_quiet (s := s.begin) hs, answerQuiet_none (by rw [setSource_request, begin_ctx, hr]; nofun)]
  exact ends_unasked (u := s.begin) (ends_quiesced hq) (fun _ => rfl) rfl rfl rfl

/-- A LIVE without an answer, with nothing asked (R51). -/
theorem liveTimeout_unasked {s : State} {x : Bus} (hq : Quiesced s) (hr : (s.ctx x).request = none) (hs : (s.ctx x).source = .goingLive) :
    ∃ t, exec (.ackTimeout x) s = .next t ∧ t.ctx x = (s.ctx x).sourced (s.unanswered x) ∧ (∀ y : Bus, y ≠ x → t.ctx y = s.ctx y) ∧
      t.matrix = s.matrix ∧ t.guard = s.guard ∧ t.tables = s.tables ∧ t.out = unansweredLive s x := by
  refine ⟨_, exec_ackTimeout (.inr hs), ?_⟩
  have hnone : ((State.setSource { s.begin with out := s.begin.out ++ unansweredLive s.begin x } x (s.begin.unanswered x)).ctx
      x).request ≠ some .live := by
    rw [setSource_request]
    intro h
    have hnever := hr.symm.trans h
    cases hnever
  rw [ackExpired_live (s := s.begin) hs, answerLive_none hnone]
  exact ends_unasked (u := { s.begin with out := s.begin.out ++ unansweredLive s.begin x }) (ends_quiesced hq) (fun _ => rfl) rfl rfl rfl

/-- The state in which the request of bus `x` is told of the ACK. -/
def ackedState (s : State) (l : LaneId) (x : Bus) (v : SrcState) : State := (goodFrame s.begin l).setCtx x ((s.ctx x).acked v)

theorem ackedState_ctx (s : State) (l : LaneId) (x : Bus) (v : SrcState) : (ackedState s l x v).ctx x = (s.ctx x).acked v :=
  State.ctx_setCtx_self _ _ _

theorem ackedState_same (s : State) (l : LaneId) (x : Bus) (v : SrcState) : ackedState s l x v = { s with
    out := [], lanes := (goodFrame s.begin l).lanes, ctxs := (ackedState s l x v).ctxs } := by
  unfold ackedState
  rw [goodFrame_eq]
  rfl

theorem ackTaken_quiet {s : State} {x : Bus} (l : LaneId) (hr : (s.ctx x).request = some .quiet) :
    ackTaken (goodFrame s.begin l) x false = (ackedState s l x .quiet).post (.quieted x true) := by
  unfold ackedState
  rw [← goodFrame_ctx s l x]
  exact answerQuiet_told _ (by rw [goodFrame_ctx]; exact hr) _

theorem ackTaken_live {s : State} {x : Bus} (l : LaneId) (hr : (s.ctx x).request = some .live) :
    ackTaken (goodFrame s.begin l) x true = (ackedState s l x .live).post (.lived x true) := by
  unfold ackedState
  rw [← goodFrame_ctx s l x]
  exact answerLive_told _ (by rw [goodFrame_ctx]; exact hr) _

theorem ackedState_markFires (s : State) (l : LaneId) (x : Bus) (v : SrcState) : markFires (ackedState s l x v) x = markFires s x := by
  unfold markFires
  rw [ackedState_ctx, ackedState_same]
  rfl

theorem ackedState_captureNow (s : State) (l : LaneId) (x : Bus) (v : SrcState) (lim : Fin 256) :
    captureNow (ackedState s l x v) x lim = captureNow s x lim := by
  unfold captureNow
  rw [ackedState_ctx, ackedState_same]
  rfl

theorem ackedState_quiesced {s : State} (h : Quiesced s) (l : LaneId) (x : Bus) (v : SrcState) : Quiesced (ackedState s l x v) := by
  rw [ackedState_same]; exact h

end Sys2Proof.Machine

open Sys2Proof Sys2Proof.Machine

/-- Settles O42: the end of an exchange with nothing asked, and with each request that waits on it. -/
theorem exchangesEndTheirRecords : Obligations.ExchangesEndTheirRecords := by
  refine ⟨fun s x hq hr => ⟨fun l ch live hl hb hs => ack_unasked hq hr hl hb hs, quietTimeout_unasked hq hr, liveTimeout_unasked hq hr,
      fun h1 h2 => if_neg (fun h => h.elim h1 h2)⟩,
    fun s l ch live => ⟨fun h => ack_unmatched (fun x hx => by rw [h] at hx; cases hx),
      fun x hx hs => ack_unmatched (fun y hy => by rw [hx] at hy; cases hy; exact hs)⟩, ?_, ?_, ?_⟩
  · intro s x l ch tg hq hl hb hs hr hst hin htg hsort hblock hsafe htrip hwork
    have hctx := ackedState_ctx s l x .quiet
    have hwq := ackedState_quiesced hq l x .quiet
    have hdeliver := delivers_told (m := .quieted x true) hwq
    rw [doMail_quieted (by rw [hctx]; exact hst) (by rw [hctx]; exact hin), if_pos rfl] at hdeliver
    refine ⟨_, exec_ack (live := false) hl hb hs, ?_⟩
    rw [ackTaken_quiet l hr]
    have hbreaks := afterQuiet_breaksOrMakes hwq.1 (by rw [ackedState_same]) (by rw [hctx]; exact htg) hsort hblock
      (barred_none_of (by rw [ackedState_same]; exact hsafe) (by rw [ackedState_same]; exact htrip))
      (by unfold State.sourceQuiet; rw [hctx]; simp [Ctx.acked])
      (comesTo_of_delivers hwq hdeliver (by unfold drainBound; omega) x)
    rw [hctx] at hbreaks
    exact hbreaks.alike (alike_goodFrame s l x _) (fun _ _ => rfl)
  · intro s x l ch stag hq hl hb hs hr hst hin
    have hexec := exec_ack (live := true) hl hb hs
    rw [ackTaken_live l hr] at hexec
    have hctx := ackedState_ctx s l x .live
    have hwq := ackedState_quiesced hq l x .live
    have halike : Alike s (ackedState s l x .live) x := alike_goodFrame s l x _
    have hout : (ackedState s l x .live).out = [] := by rw [ackedState_same]
    have hguard : (ackedState s l x .live).guard = s.guard := by rw [ackedState_same]
    have hmark : (ackedState s l x .live).markHigh = s.markHigh := by rw [ackedState_same]
    have hfires := ackedState_markFires s l x .live
    have hcap := fun lim => ackedState_captureNow s l x .live lim
    generalize ackedState s l x .live = w at *
    have hdeliver := delivers_told (m := .lived x true) hwq
    rw [doMail_lived (by rw [hctx]; exact hst) (by rw [hctx]; exact hin), if_pos rfl] at hdeliver
    refine ⟨fun sel n lim k d timeout hold hstep hu => ⟨_, hexec, ?_⟩, fun u n hstep hqueue hend hsafe => ⟨_, hexec, ?_⟩⟩
    · have hstep' : (w.ctx x).step = some ⟨stag, .measure sel n lim k d timeout hold⟩ := by rw [hctx]; exact hstep
      rw [afterLive_measure hstep', enterMeasuring_take hstep' (by rw [halike.channels]; exact hu), hcap, hctx] at hdeliver
      have hends := hdeliver.ends hwq (by unfold drainBound; omega)
      have hx : (takeSent w x (((s.ctx x).acked .live).measures (captureNow s x lim) timeout) (d + k)).ctx x =
          ((s.ctx x).acked .live).measures (captureNow s x lim) timeout := State.ctx_setCtx_self w x _
      have hy : ∀ y, y ≠ x → (takeSent w x (((s.ctx x).acked .live).measures (captureNow s x lim) timeout) (d + k)).ctx y = w.ctx y :=
        fun y hy => (State.ctx_setCtx w x y _).trans (if_neg (Ne.symm hy))
      have hidle := hends.idle (.inl ⟨x, by rw [hx]; exact unfinished_of rfl⟩)
      have hentry : w.busEntry x = s.busEntry x := by rw [State.busEntry, State.busEntry, halike.tables]
      refine ⟨(hends.ctx x).trans hx, hends.out.trans ?_, hends.markHigh.trans ?_,
        halike.onlyBus ⟨fun y hyx => (hends.ctx y).trans (hy y hyx), hidle.1⟩, hends.matrix.trans halike.matrix,
        hends.guard.trans hguard, hends.tables.trans halike.tables⟩
      · show w.out ++ [((w.busEntry x).lane, LaneFrame.take (w.busEntry x).channel _ _)] = _
        rw [hout, hentry]; rfl
      · show (w.markHigh || markFires w x) = _
        rw [hmark, hfires]
    · have hstep' : (w.ctx x).step = some ⟨stag, .connect u n⟩ := by rw [hctx]; exact hstep
      rw [afterLive_connect hstep'] at hdeliver
      have hends := (hdeliver.trans (delivers_holding hwq (by rw [hctx]; exact hend) (by rw [hctx]; exact hqueue)
        (by rw [← hsafe]; unfold State.isSafe; rw [hguard]))).ends hwq (by unfold drainBound; omega)
      have hx := State.ctx_setCtx_self w x (w.ctx x).holds
      have hidle := hends.idle (.inl ⟨x, by rw [hx]; simp [Ctx.finished, Ctx.holds]⟩)
      rw [hctx] at hx
      refine ⟨(hends.ctx x).trans (by rw [hctx]; exact hx), halike.onlyBus ⟨fun y hyx => (hends.ctx y).trans
        ((State.ctx_setCtx w x y _).trans (if_neg (Ne.symm hyx))), hidle.1⟩, hends.out.trans hout, hends.matrix.trans halike.matrix,
        hends.guard.trans hguard⟩
  · intro s x u hq
    refine ⟨fun hx hs hr => ⟨_, exec_ackTimeout (.inl hs), ?_⟩, fun hx hs hr => ⟨_, exec_ackTimeout (.inr hs), ?_⟩⟩
    · obtain ⟨w, hw⟩ : ∃ w, w = State.setCtx { s.begin with out := [] } x ((s.ctx x).acked .unsure) := ⟨_, rfl⟩
      have hwq : Quiesced w := by rw [hw]; exact hq
      have hctx : w.ctx x = (s.ctx x).acked .unsure := by rw [hw, State.ctx_setCtx_self]
      have hdeliver := delivers_told (m := .quieted x false) hwq
      rw [doMail_quieted (by rw [hctx]; exact hx.1) (by rw [hctx, Ctx.acked, hx.2.1]; rfl), if_neg Bool.false_ne_true] at hdeliver
      rw [ackExpired_quiet (s := s.begin) hs, answerQuiet_told (s := s.begin) .unsure hr]
      rw [hw] at hdeliver
      exact exchange_failed rfl hq hx (.inl rfl) hdeliver
    · obtain ⟨w, hw⟩ : ∃ w, w = State.setCtx { s.begin with out := unansweredLive s x } x ((s.ctx x).acked (s.unanswered x)) := ⟨_, rfl⟩
      have hwq : Quiesced w := by rw [hw]; exact hq
      have hctx : w.ctx x = (s.ctx x).acked (s.unanswered x) := by rw [hw, State.ctx_setCtx_self]
      have hdeliver := delivers_told (m := .lived x false) hwq
      rw [doMail_lived (by rw [hctx]; exact hx.1) (by rw [hctx, Ctx.acked, hx.2.1]; rfl), if_neg Bool.false_ne_true] at hdeliver
      rw [ackExpired_live (s := s.begin) hs,
        answerLive_told (s := { s.begin with out := s.begin.out ++ unansweredLive s.begin x }) (s.begin.unanswered x) hr]
      rw [hw] at hdeliver
      have h := exchange_failed rfl hq hx (.inr rfl) hdeliver
      refine ⟨h.1, fun hu => ?_, fun h64 => ⟨(h.2 h64).1, (h.2 h64).2.1⟩⟩
      obtain ⟨fs, hfs⟩ := finish_sent (State.post (State.setCtx { s.begin with out := unansweredLive s x } x
        ((s.ctx x).acked (s.unanswered x))) (.lived x false))
      exact ⟨fs, hfs.trans (by
        show unansweredLive s x ++ fs = _
        rw [unansweredLive, if_pos hu]; rfl)⟩

end

