-- ==== Sys2Proof/Proofs/LaneTraining.lean ====
section
/-!
PROOFS. A lane that trains (O45), returns from RECOVER or times out (O47): what its partner's frames leave, and the
recovery opens that the return of a card places.
-/

-- One proof after another: in the joined text each worker would hold a stack of its own.
set_option Elab.async false

namespace Sys2Proof.Machine

/-! ### What the end of a command leaves of the attention set -/

theorem Keeps.laneRaised {Q : Rec → Prop} {s t : State} (h : Keeps Q s t) (hs : s.trunk.attn.lane = true) :
    t.trunk.attn.lane = true := by
  have hr : s.trunk.attn.raised .lane = s.trunk.attn := by rw [AttnSet.raised, ← hs]
  rw [← h.attn .lane hr]
  rfl

/-- LANE pending when the command has done its own part is pending after it (R194). -/
theorem finish_laneRaised {s : State} (h : s.trunk.attn.lane = true) : (finish s).trunk.attn.lane = true := by
  rw [finish, pump_attn, (panelCheck_only _).attn]
  exact (drain_keeps s).laneRaised h

/-! ### The records of the sources on a lane (R53, R174) -/

/-- The source of the context is QUIET. -/
def Ctx.quieted (c : Ctx) : Ctx := { c with source := .quiet }

theorem sourcesQuieted_ctx (s : State) (l : LaneId) (x : Bus) : (sourcesQuieted s l).ctx x =
    if (s.busEntry x).kind = .source ∧ (s.busEntry x).lane = l then (s.ctx x).quieted else s.ctx x := by
  have hfold : ∀ (bs : List Bus) (u : State), (bs.foldl (fun s x => s.setSource x .quiet) u).ctx x =
      if x ∈ bs then (u.ctx x).quieted else u.ctx x := by
    intro bs
    induction bs with
    | nil => intro u; rw [if_neg (List.not_mem_nil)]; rfl
    | cons b bs ih =>
      intro u
      rw [List.foldl_cons, ih]
      by_cases hb : b = x
      · subst hb
        rw [State.setSource, State.ctx_modCtx_self]
        by_cases hm : b ∈ bs
        · rw [if_pos hm, if_pos List.mem_cons_self]; rfl
        · rw [if_neg hm, if_pos List.mem_cons_self]; rfl
      · rw [State.setSource, State.ctx_modCtx, if_neg hb]
        simp [Ne.symm hb]
  rw [sourcesQuieted, hfold]
  simp [sourceBusesOn, allBuses]

/-- Nothing but contexts has changed. -/
theorem sourcesQuieted_rest (s : State) (l : LaneId) : sourcesQuieted s l = { s with ctxs := (sourcesQuieted s l).ctxs } := by
  unfold sourcesQuieted
  induction sourceBusesOn s l generalizing s with
  | nil => rfl
  | cons b bs ih => rw [List.foldl_cons, ih]; rfl

theorem clearInstTrips_clear (s : State) (l : LaneId) (ch : Chan) : (clearInstTrips s l).guard.instTrips[tripNo l ch] = false := by
  have hset : ∀ (v : Vector Bool 32) (i j : Fin 32), i = j ∨ v[j] = false → (v.set i false)[j] = false := fun v i j h => by
    rcases h with rfl | h
    · exact Vector.getElem_set_self _
    · rw [Fin.getElem_fin, Vector.getElem_set]
      split
      · rfl
      · exact h
  unfold clearInstTrips
  rw [State.modGuard]
  dsimp only
  fin_cases ch
  · exact hset _ _ _ (.inr (hset _ _ _ (.inr (hset _ _ _ (.inr (hset _ _ _ (.inl rfl)))))))
  · exact hset _ _ _ (.inr (hset _ _ _ (.inr (hset _ _ _ (.inl rfl)))))
  · exact hset _ _ _ (.inr (hset _ _ _ (.inl rfl)))
  · exact hset _ _ _ (.inl rfl)

/-! ### Training (O45) -/

theorem goodFrame_training {s : State} {l : LaneId} (h : (s.lane l).state ≠ .active) : goodFrame s.begin l = s.begin :=
  if_neg h

theorem exec_ident {s : State} {l : LaneId} (hs : (s.lane l).state = .train) (hp : (s.lane l).phase = .identification)
    (kind ch rows cols : Byte) :
    exec (.ident l kind ch rows cols) s = .next (identTaken s.begin l kind ch rows cols) := by
  have hg := goodFrame_training (s := s) (l := l) (by rw [hs]; decide)
  show execIdent l kind ch rows cols s = _
  unfold execIdent
  rw [hg]
  exact if_pos ⟨hs, hp⟩

theorem exec_cleared {s : State} {l : LaneId} (hs : (s.lane l).state = .train) (hp : (s.lane l).phase = .clearing) :
    exec (.cleared l) s = .next (finish (clearedTaken s.begin l)) := by
  have hg := goodFrame_training (s := s) (l := l) (by rw [hs]; decide)
  show execCleared l s = _
  unfold execCleared
  rw [hg]
  exact if_pos ⟨hs, hp⟩

/-- The record of a lane that has completed its training (R175). -/
def Lane.trained (k : Lane) : Lane := { k.activated with fault := .none }

/-- A lane whose training attempt has failed is in DETECT with its PROBE (R173, R174). -/
theorem detect_again (s : State) (l : LaneId) (f : Lane → Lane) (g : Lane) (hg : (f (s.lane l)).alone .detect = g) :
    enterDetect (s.modLane l f) l = { s with lanes := s.lanes.set l g, out := s.out ++ [(l, .probe)] } := by
  have hset : (s.lanes.set l (f (s.lane l))).set l g = s.lanes.set l g := Vector.set_set _ l.isLt
  rw [enterDetect, State.modLane, State.lane_modLane_self, hg, ← hset]
  rfl

/-- The lane has found a card on it, and ALL-OPEN has gone out (R175). -/
def cardFound (s : State) (l : LaneId) : State :=
  (s.modLane l (fun k => { k with partner := .card, channels := 0, phase := .clearing })).emit l .allOpen

theorem cardFound_lane (s : State) (l : LaneId) :
    (cardFound s l).lane l = { s.lane l with partner := .card, channels := 0, phase := .clearing } :=
  State.lane_modLane_self s l (fun k => { k with partner := .card, channels := 0, phase := .clearing })

/-- A lane that has completed its training, before its users are told (R175). -/
def laneReady (s : State) (l : LaneId) : State := (s.modLane l Lane.trained).raise .lane

theorem laneReady_lane (s : State) (l : LaneId) : (laneReady s l).lane l = (s.lane l).trained :=
  State.lane_modLane_self s l Lane.trained

theorem laneReady_lane_ne (s : State) {l k : LaneId} (h : k ≠ l) : (laneReady s l).lane k = s.lane k := by
  have hk : (s.modLane l Lane.trained).lane k = s.lane k := by rw [State.lane_modLane, if_neg (Ne.symm h)]
  exact hk

/-- What CLEARED tells the users of the lane (R40, R53, R54). -/
inductive Readied (s : State) (l : LaneId) : State → Prop
  | card (c : CardId) (hp : (s.lane l).partner = .card) (hc : s.cardOnLane l = some c) :
      Readied s l (allOpenConfirmed (laneReady s l) c)
  | instrument (hp : (s.lane l).partner = .instrument) : Readied s l (clearInstTrips (sourcesQuieted (laneReady s l) l) l)
  | alone (hp : (s.lane l).partner = .card → s.cardOnLane l = none) (hi : (s.lane l).partner ≠ .instrument) :
      Readied s l (laneReady s l)

theorem clearedTaken_cases (s : State) (l : LaneId) : Readied s l (clearedTaken s l) := by
  have hpart : ((laneReady s l).lane l).partner = (s.lane l).partner := by rw [laneReady_lane]; rfl
  show Readied s l (match ((laneReady s l).lane l).partner with
    | .card => match (laneReady s l).cardOnLane l with
      | some c => allOpenConfirmed (laneReady s l) c
      | none => laneReady s l
    | .instrument => clearInstTrips (sourcesQuieted (laneReady s l) l) l
    | .none => laneReady s l)
  rw [hpart]
  have hon : (laneReady s l).cardOnLane l = s.cardOnLane l := rfl
  cases hp : (s.lane l).partner with
  | card =>
    dsimp only
    rw [hon]
    cases hc : s.cardOnLane l with
    | some c => exact .card c hp hc
    | none => exact .alone (fun _ => hc) (by rw [hp]; decide)
  | instrument => exact .instrument hp
  | none => exact .alone (fun h => absurd (hp.symm.trans h) (by decide)) (by rw [hp]; decide)

/-- The users being told, the lane and LANE stand. -/
theorem Readied.shown {s t : State} {l : LaneId} (h : Readied s l t) :
    t.lanes = (laneReady s l).lanes ∧ t.trunk.attn.lane = true ∧ t.tables = s.tables := by
  cases h with
  | card c => rw [allOpenConfirmed_eq]; exact ⟨rfl, rfl, rfl⟩
  | instrument =>
    have h := sourcesQuieted_rest (laneReady s l) l
    refine ⟨?_, ?_, ?_⟩
    · show (sourcesQuieted (laneReady s l) l).lanes = _; rw [h]
    · show (sourcesQuieted (laneReady s l) l).trunk.attn.lane = _; rw [h]; rfl
    · show (sourcesQuieted (laneReady s l) l).tables = _; rw [h]; rfl
  | alone => exact ⟨rfl, rfl, rfl⟩

/-- With no bus waiting, confirmed opens of a card leave the arbiter nothing to grant (R32, R40). -/
theorem delivers_allOpen {s : State} (h : Quiesced s) (c : CardId) (hw : ∀ y, (s.ctx y).waitsFor = []) :
    ∃ k ≤ drainBound, Delivers k (allOpenConfirmed s c) { allOpenConfirmed s c with matrixWork := [] } := by
  have heq := allOpenConfirmed_eq s c
  have hwork : (allOpenConfirmed s c).matrixWork =
      (((cardPoints c).filter (fun p => !s.pointFree p)).map MatrixWork.point).foldl insertWork [] := by
    have hfold : ∀ (l : List Bus) (u : State), (l.foldl (fun s x => s.modXps x (cardPoints c) XRec.openDone) u).matrixWork =
        u.matrixWork := by
      intro l
      induction l with
      | nil => exact fun _ => rfl
      | cons x l ih => intro u; rw [List.foldl_cons, ih, State.modXps_eq]
    unfold allOpenConfirmed
    rw [State.pushWork]
    dsimp only
    rw [hfold, h.1]
  refine ⟨_, ?_, workDone_noWaiters (fun d hd => ?_) (fun y => ?_)⟩
  · rw [hwork, length_foldl_insertWork, List.length_map]
    have h1 := (List.length_filter_le (fun p => !s.pointFree p) (cardPoints c)).trans
      (List.length_filter_le (fun p => cardOf p == c) allPoints)
    have h2 : allPoints.length = 256 := List.length_finRange
    have h3 : drainBound = 1000000 := rfl
    simp only [List.length_nil, cardPoints] at h1 ⊢
    omega
  · rw [hwork] at hd
    rcases mem_foldl_insertWork hd with hd | hd
    · obtain ⟨p, -, hp⟩ := List.mem_map.1 hd
      cases hp
    · cases hd
  · rw [show (allOpenConfirmed s c).ctx y = s.ctx y by rw [heq]; rfl]
    exact hw y

/-- PROBE, IDENT and CLEARED: settles O45, by what each frame takes and whom CLEARED tells. -/
theorem lanesTrain : Obligations.LanesTrain := by
  unfold Obligations.LanesTrain
  intro s l
  refine ⟨fun hs => ?_, fun hs hp => ⟨fun ch => ?_, fun ch rows cols n hn hch => ?_, fun kind ch rows cols hbad => ?_⟩,
    fun hs hp hq => ?_⟩
  · have hg := goodFrame_training (s := s) (l := l) (by rw [hs]; decide)
    show execProbe l s = _
    unfold execProbe
    rw [hg]
    exact if_pos hs
  · have hid : identTaken s.begin l 1#8 ch 8#8 64#8 = sourcesQuieted (cardFound s.begin l) l := rfl
    have hrest := sourcesQuieted_rest (cardFound s.begin l) l
    have hlanes : (sourcesQuieted (cardFound s.begin l) l).lanes = (cardFound s.begin l).lanes := by rw [hrest]
    refine ⟨_, exec_ident hs hp _ _ _ _, ?_, ?_, fun x => ?_, ?_⟩
    · rw [hid, State.lane, hlanes]; exact cardFound_lane s.begin l
    · rw [hid, hrest]; rfl
    · rw [hid, sourcesQuieted_ctx]; rfl
    · rw [hid]
      refine ⟨?_, ?_, rfl, ?_, ?_, ?_, rfl, ?_⟩ <;> rw [hrest] <;> rfl
  · have hid : identified 2#8 ch rows cols = some (.instrument, n) := by
      have hn5 : ch.toNat ≤ 4 := by have := n.isLt; omega
      unfold identified
      rw [if_neg (by decide), if_pos rfl, dif_pos ⟨hch, hn5⟩]
      exact congrArg some (Prod.ext rfl (Fin.ext hn.symm))
    rw [exec_ident hs hp, identTaken, hid]
    rfl
  · have hid : identified kind ch rows cols = none := by
      unfold identified
      rcases hbad with ⟨h1, h2⟩ | ⟨rfl, h⟩ | ⟨rfl, h⟩
      · rw [if_neg h1, if_neg h2]
      · rw [if_pos rfl, if_neg]
        rcases h with h | h <;> simp [h]
      · rw [if_neg (by decide), if_pos rfl, dif_neg]
        rintro ⟨h1, h2⟩
        rcases h with rfl | h
        · exact absurd h1 (by decide)
        · omega
    rw [exec_ident hs hp, identTaken, hid]
    exact congrArg Host.Outcome.next (detect_again s.begin l (fun k => { k with fault := .badIdent }) _ rfl)
  · obtain ⟨hlanes, hatt, htab⟩ := (clearedTaken_cases s.begin l).shown
    have hleave := finish_leaves (clearedTaken s.begin l)
    have hlane : ∀ k, (finish (clearedTaken s.begin l)).lane k = (laneReady s.begin l).lane k := fun k => by
      rw [State.lane, hleave.2.1, hlanes]; rfl
    refine ⟨_, exec_cleared hs hp, ?_, fun k hk => ?_, finish_laneRaised hatt, ?_, fun c hc hcl hw x p => ?_, fun hi => ?_⟩
    · rw [hlane, laneReady_lane]; rfl
    · rw [hlane, laneReady_lane_ne _ hk]; rfl
    · rw [hleave.1, htab]; rfl
    · have htaken : clearedTaken s.begin l = allOpenConfirmed (laneReady s.begin l) c := by
        have h := clearedTaken_cases s.begin l
        generalize clearedTaken s.begin l = t at h
        cases h with
        | card c' hp' hc' => rw [Option.some.inj (hc'.symm.trans hcl)]
        | instrument hp' => exact absurd (hp'.symm.trans hc) (by decide)
        | alone hn hi => exact absurd ((hn hc).symm.trans hcl) (by simp)
      obtain ⟨k, hk, hd⟩ := delivers_allOpen (s := laneReady s.begin l) hq c hw
      rw [htaken, (hd.ends ⟨rfl, by rw [allOpenConfirmed_eq]; exact hq.2⟩ hk).xp]
      show (allOpenConfirmed (laneReady s.begin l) c).xp x p = _
      rw [allOpenConfirmed_xp]
      rfl
    · have htaken : clearedTaken s.begin l = clearInstTrips (sourcesQuieted (laneReady s.begin l) l) l := by
        have h := clearedTaken_cases s.begin l
        generalize clearedTaken s.begin l = t at h
        cases h with
        | card c' hp' hc' => exact absurd (hp'.symm.trans hi) (by decide)
        | instrument hp' => rfl
        | alone hn hi' => exact absurd hi hi'
      have hrest := sourcesQuieted_rest (laneReady s.begin l) l
      have hquiet : Quiesced (clearInstTrips (sourcesQuieted (laneReady s.begin l) l) l) := by
        show (sourcesQuieted (laneReady s.begin l) l).matrixWork = [] ∧ (sourcesQuieted (laneReady s.begin l) l).mail = []
        rw [hrest]; exact hq
      have hends := ends_quiesced hquiet
      rw [htaken]
      refine ⟨fun x hk hx => ?_, fun ch => ?_, ?_⟩
      · rw [hends.ctx]
        show ((sourcesQuieted (laneReady s.begin l) l).ctx x).source = _
        rw [sourcesQuieted_ctx, if_pos ⟨hk, hx⟩]; rfl
      · rw [hends.guard]; exact clearInstTrips_clear _ l ch
      · rw [hends.matrix]
        show (sourcesQuieted (laneReady s.begin l) l).matrix = _
        rw [hrest]; rfl

/-! ### The return of a card (R40) -/

theorem run_of_chunks {n : Nat} {ps run : List Pt} (h : run ∈ chunks n ps) : run.Sublist ps ∧ run.length ≤ 16 := by
  induction n generalizing ps with
  | zero => cases h
  | succ n ih =>
    cases ps with
    | nil => cases h
    | cons q ps =>
      rcases List.mem_cons.1 h with rfl | h
      · exact ⟨List.take_sublist _ _, by rw [List.length_take]; exact min_le_left _ _⟩
      · exact ⟨(ih h).1.trans (List.drop_sublist _ _), (ih h).2⟩

/-- A group is at most 16 points with its columns rising (R21). -/
theorem group_rises {ps : List Pt} {g : CardId × List Pt} (h : g ∈ cardGroups ps) :
    g.2.length ≤ 16 ∧ g.2.Pairwise (· < ·) := by
  obtain ⟨c, -, hg⟩ := List.mem_flatMap.1 h
  obtain ⟨run, hrun, rfl⟩ := List.mem_map.1 hg
  obtain ⟨hsub, hlen⟩ := run_of_chunks hrun
  exact ⟨hlen, (List.Pairwise.filter _ (List.pairwise_lt_finRange 256)).sublist hsub⟩

/-- The points of a card whose crosspoints with a bus are UNKNOWN. -/
def unknownOn (s : State) (c : CardId) (x : Bus) : List Pt := (cardPoints c).filter (fun p => (s.xp x p).state == .unknown)

theorem mem_unknownOn {s : State} {c : CardId} {x : Bus} {p : Pt} :
    p ∈ unknownOn s c x ↔ cardOf p = c ∧ (s.xp x p).state = .unknown := by
  simp [unknownOn, cardPoints, allPoints, and_comm]

/-- The recovery opens of one bus at a card (R21, R40). -/
def busRecovery (s : State) (c : CardId) (x : Bus) : List Order :=
  (cardGroups (unknownOn s c x)).map (fun g => ⟨.recovery, x, g.2, false⟩)

/-- The recovery opens of every bus at a card, bus by bus (R40). -/
def recoveryList (s : State) (c : CardId) : List Order := allBuses.flatMap (busRecovery s c)

/-- A recovery open of UNKNOWN crosspoints of card `c`, within the form of R21. -/
structure Recovers (s : State) (c : CardId) (o : Order) : Prop where
  kind : o.kind = .recovery
  some : o.points ≠ []
  few : o.points.length ≤ 16
  rising : o.points.Pairwise (· < ·)
  unknown : ∀ p ∈ o.points, cardOf p = c ∧ (s.xp o.bus p).state = .unknown

theorem recovers_of_mem {s : State} {c : CardId} {x : Bus} {o : Order} (h : o ∈ busRecovery s c x) : Recovers s c o ∧ o.bus = x := by
  obtain ⟨g, hg, rfl⟩ := List.mem_map.1 h
  obtain ⟨p, hp⟩ := exists_mem_of_mem_cardGroups hg
  exact ⟨⟨rfl, List.ne_nil_of_mem hp, (group_rises hg).1, (group_rises hg).2,
    fun q hq => mem_unknownOn.1 (mem_of_mem_cardGroups hg hq).2⟩, rfl⟩

/-- Every UNKNOWN crosspoint of the card is in a recovery open of its bus. -/
theorem mem_recoveryList {s : State} {c : CardId} {x : Bus} {p : Pt} (hc : cardOf p = c) (hp : (s.xp x p).state = .unknown) :
    ∃ o ∈ recoveryList s c, o.bus = x ∧ p ∈ o.points := by
  obtain ⟨g, hg, -, hpg⟩ := mem_cardGroups_of_mem (mem_unknownOn.2 ⟨hc, hp⟩)
  exact ⟨_, List.mem_flatMap.2 ⟨x, List.mem_finRange x, List.mem_map.2 ⟨g, hg, rfl⟩⟩, rfl, hpg⟩

theorem recoveryList_recovers {s : State} {c : CardId} : ∀ o ∈ recoveryList s c, Recovers s c o := fun o h => by
  obtain ⟨x, -, hx⟩ := List.mem_flatMap.1 h
  exact (recovers_of_mem hx).1

theorem recoveryList_rises (s : State) (c : CardId) : ((recoveryList s c).map (·.bus)).Pairwise (· ≤ ·) := by
  have hbuses : allBuses.Pairwise (· < ·) := List.pairwise_lt_finRange 8
  rw [List.pairwise_map]
  refine List.pairwise_flatMap.2 ⟨fun x _ => ?_, hbuses.imp (fun {x y} hxy a ha b hb => ?_)⟩
  · refine List.Pairwise.imp_of_mem (R := fun _ _ => True) (fun {a b} ha hb _ => ?_) (List.pairwise_of_forall (fun _ _ => trivial))
    rw [(recovers_of_mem ha).2, (recovers_of_mem hb).2]
  · rw [(recovers_of_mem ha).2, (recovers_of_mem hb).2]
    exact hxy.le

/-- What placing opens at card `c` leaves alone. -/
structure Unmoved (s t : State) (c : CardId) : Prop where
  xp : ∀ x p, t.xp x p = s.xp x p
  same : SameWork s t
  others : ∀ d, d ≠ c → t.card d = s.card d
  tables : t.tables = s.tables
  lanes : t.lanes = s.lanes

theorem Unmoved.refl (s : State) (c : CardId) : Unmoved s s c := ⟨fun _ _ => rfl, .refl s, fun _ _ => rfl, rfl, rfl⟩

theorem Unmoved.trans {s t u : State} {c : CardId} (h : Unmoved s t c) (k : Unmoved t u c) : Unmoved s u c :=
  ⟨fun x p => (k.xp x p).trans (h.xp x p), h.same.trans k.same, fun d hd => (k.others d hd).trans (h.others d hd),
    k.tables.trans h.tables, k.lanes.trans h.lanes⟩

theorem Recovers.moved {s t : State} {c : CardId} {o : Order} (h : Recovers s c o) (hu : Unmoved s t c) : Recovers t c o :=
  ⟨h.kind, h.some, h.few, h.rising, fun p hp => ⟨(h.unknown p hp).1, by rw [hu.xp]; exact (h.unknown p hp).2⟩⟩

/-- A recovery open that an idle card is given goes out at once. -/
theorem Recovers.placed_idle {s : State} {c : CardId} {o : Order} (h : Recovers s c o) (hi : (s.card c).idle = true) :
    placePriority s c o = sendOrder s c o := by
  obtain ⟨-, hprio, -⟩ := (CardCtl.idle_iff _).1 hi
  have hleft : o.leftToOpen s = o.points := List.filter_eq_self.2 (fun p hp => by rw [(h.unknown p hp).2]; rfl)
  rw [placePriority_idle hi (by rw [hleft]; exact h.some), hleft, show ({ s.card c with priority := [] } : CardCtl) = s.card c by
    rw [← hprio], State.setCard_card]

theorem Recovers.sentTo {s : State} {c : CardId} {o : Order} (h : Recovers s c o) {p : Pt} (hp : p ∈ o.points) :
    o.sentTo (s.xp o.bus p) = s.xp o.bus p := by
  unfold Order.sentTo
  rw [h.kind, (h.unknown p hp).2]
  rfl

theorem Recovers.placed {s : State} {c : CardId} {o : Order} (h : Recovers s c o) : Unmoved s (placePriority s c o) c := by
  cases hi : (s.card c).idle with
  | true =>
    rw [h.placed_idle hi]
    refine ⟨fun x p => ?_, sendOrder_sameWork s c o, fun d hd => ?_, sendOrder_tables s c o, ?_⟩
    · by_cases hm : o.bus = x ∧ p ∈ o.points
      · obtain ⟨rfl, hp⟩ := hm
        rw [sendOrder_xp_mem _ _ _ hp, h.sentTo hp]
      · exact sendOrder_xp_ne s c o (not_and_or.1 hm)
    · rw [sendOrder_card, if_neg (Ne.symm hd)]
    · rw [sendOrder_eq, State.modXps_eq]; rfl
  | false =>
    rw [placePriority_busy hi]
    exact ⟨fun _ _ => rfl, setCard_sameWork _ _ _, fun d hd => by rw [State.card_setCard, if_neg (Ne.symm hd)], rfl, rfl⟩

theorem foldl_placed {c : CardId} (os : List Order) {s : State} (h : ∀ o ∈ os, Recovers s c o) :
    Unmoved s (os.foldl (fun s o => placePriority s c o) s) c := by
  induction os generalizing s with
  | nil => exact .refl s c
  | cons o os ih =>
    have h1 := (h o List.mem_cons_self).placed
    exact h1.trans (ih (fun q hq => (h q (List.mem_cons_of_mem _ hq)).moved h1))

/-- The opens are placed one after another. -/
theorem recoveryOpens_list (s : State) (c : CardId) :
    recoveryOpens s c = (recoveryList s c).foldl (fun s o => placePriority s c o) s := by
  have hbus : ∀ (u : State) (x : Bus), Unmoved s u c →
      (cardGroups (unknownOn u c x)).foldl (fun s g => placePriority s g.1 ⟨.recovery, x, g.2, false⟩) u =
        (busRecovery s c x).foldl (fun s o => placePriority s c o) u := fun u x hu => by
    have hsame : unknownOn u c x = unknownOn s c x := List.filter_congr (fun p _ => by rw [hu.xp])
    have hcard : ∀ g ∈ cardGroups (unknownOn s c x), g.1 = c := fun g hg => by
      obtain ⟨p, hp⟩ := exists_mem_of_mem_cardGroups hg
      have hmem := mem_of_mem_cardGroups hg hp
      exact hmem.1.symm.trans (mem_unknownOn.1 hmem.2).1
    rw [hsame, busRecovery, List.foldl_map]
    exact List.foldl_ext _ _ u (fun v g hg => by rw [hcard g hg])
  have hfold : ∀ (bs : List Bus) (u : State), Unmoved s u c →
      bs.foldl (fun s x => (cardGroups ((cardPoints c).filter (fun p => (s.xp x p).state == .unknown))).foldl
        (fun s g => placePriority s g.1 ⟨.recovery, x, g.2, false⟩) s) u =
      (bs.flatMap (busRecovery s c)).foldl (fun s o => placePriority s c o) u := by
    intro bs
    induction bs with
    | nil => exact fun _ _ => rfl
    | cons b bs ih =>
      intro u hu
      rw [List.foldl_cons, List.flatMap_cons, List.foldl_append, ← hbus u b hu]
      refine ih _ ?_
      have hb := hbus u b hu
      unfold unknownOn at hb
      rw [hb]
      exact hu.trans (foldl_placed _ (fun o ho => (recovers_of_mem ho).1.moved hu))
  exact hfold allBuses s (.refl s c)

theorem recoveryOpens_unmoved (s : State) (c : CardId) : Unmoved s (recoveryOpens s c) c := by
  rw [recoveryOpens_list]
  exact foldl_placed _ recoveryList_recovers

/-- With an order pending, opens join the end of the priority part. -/
theorem foldl_listed {c : CardId} (os : List Order) {s : State} (h : (s.card c).pending.isSome = true) :
    os.foldl (fun s o => placePriority s c o) s = s.setCard c { s.card c with priority := (s.card c).priority ++ os } := by
  induction os generalizing s with
  | nil => rw [List.append_nil]; exact (State.setCard_card s c).symm
  | cons o os ih =>
    have hbusy : (s.card c).idle = false := by
      rw [CardCtl.idle, Option.isNone_eq_false_iff.2 h]; rfl
    rw [List.foldl_cons, placePriority_busy hbusy, ih (by rw [State.card_setCard_self]; exact h), State.card_setCard_self,
      State.setCard_setCard, List.append_assoc]
    rfl

/-- The recovery opens of a card that returns with no order, on its usable lane (R40). -/
theorem recoveryOpens_placed {s t : State} {c : CardId} {l : LaneId} (hi : CardIdleOn s c l) (hout : s.out = [])
    (htm : t.matrix = (recoveryOpens s c).matrix) (htc : t.ctxs = (recoveryOpens s c).ctxs)
    (hto : t.out = (recoveryOpens s c).out) : RecoveryPlaced s t c l := by
  have hun := recoveryOpens_unmoved s c
  have hcard : ∀ d, t.card d = (recoveryOpens s c).card d := fun d => by rw [State.card, State.card, htm]
  have hxp : ∀ x p, t.xp x p = s.xp x p := fun x p => by rw [State.xp, htm]; exact hun.xp x p
  have hlist := recoveryOpens_list s c
  have hrec := recoveryList_recovers (s := s) (c := c)
  cases hos : recoveryList s c with
  | nil =>
    rw [hos] at hlist
    refine ⟨hxp, htc.trans hun.same.ctxs, fun d hd => (hcard d).trans (hun.others d hd), ?_, fun _ => ?_, fun ⟨x, p, hc, hp⟩ => ?_⟩
    · rw [hcard, hlist]; exact hi.2.2.2.2
    · rw [hcard, hto, hlist]; exact ⟨rfl, hout⟩
    · obtain ⟨o, ho, -⟩ := mem_recoveryList hc hp
      rw [hos] at ho; cases ho
  | cons o rest =>
    rw [hos] at hlist hrec
    have ho := hrec o List.mem_cons_self
    have hsent : (sendOrder s c o).card c =
        { s.card c with pending := some ⟨(s.card c).nextTag, o⟩, nextTag := (s.card c).nextTag + 1 } := by
      rw [sendOrder_card, if_pos rfl]
    have heq : recoveryOpens s c = (sendOrder s c o).setCard c
        { (sendOrder s c o).card c with priority := ((sendOrder s c o).card c).priority ++ rest } := by
      rw [hlist, List.foldl_cons, ho.placed_idle hi.idle, foldl_listed rest (by rw [hsent]; rfl)]
    have hprio : (t.card c).priority = rest := by
      rw [hcard, heq, State.card_setCard_self, hsent, show (s.card c).priority = [] from hi.2.2.2.1]; rfl
    refine ⟨hxp, htc.trans hun.same.ctxs, fun d hd => (hcard d).trans (hun.others d hd), ?_, fun hnone => ?_,
      fun _ => ⟨o, ?_, ?_, ?_, ?_, ?_, fun x p hc hp => ?_⟩⟩
    · rw [hcard, heq, State.card_setCard_self, hsent]; exact hi.2.2.2.2
    · obtain ⟨p, hp⟩ := List.exists_mem_of_ne_nil _ ho.some
      exact absurd (ho.unknown p hp).2 (hnone o.bus p (ho.unknown p hp).1)
    · rw [hcard, heq, State.card_setCard_self, hsent]
    · rw [hcard, heq, State.card_setCard_self, hsent]
    · rw [hto, heq]
      show (sendOrder s c o).out = _
      rw [sendOrder_frames hi, hout, ho.kind]; rfl
    · rw [hprio, ← hos]; exact recoveryList_rises s c
    · rw [hprio]; exact fun q hq => ⟨(hrec q hq).kind, (hrec q hq).some, (hrec q hq).few, (hrec q hq).rising, (hrec q hq).unknown⟩
    · rw [hprio, ← hos]; exact mem_recoveryList hc hp

/-- A lane that has answered RESYNC with its partner, before its card is told (R178). -/
def laneBack (s : State) (l : LaneId) : State := (s.setLane l (s.lane l).activated).raise .lane

theorem laneBack_lane (s : State) (l : LaneId) : (laneBack s l).lane l = (s.lane l).activated :=
  State.lane_setLane_self s l _

theorem laneBack_lane_ne (s : State) {l k : LaneId} (h : k ≠ l) : (laneBack s l).lane k = s.lane k := by
  have hk : (s.setLane l (s.lane l).activated).lane k = s.lane k := by rw [State.lane_setLane, if_neg (Ne.symm h)]
  exact hk

theorem resyncTaken_back {s : State} {l : LaneId} {kind ch : Byte} (hk : kind.toNat = (s.lane l).partner.code)
    (hc : ch.toNat = (s.lane l).channels.val) : resyncTaken s l kind ch = laneBack s l ∧
        ((s.lane l).partner = .card → s.cardOnLane l = none) ∨
      ∃ c, (s.lane l).partner = .card ∧ s.cardOnLane l = some c ∧ resyncTaken s l kind ch = recoveryOpens (laneBack s l) c := by
  have hon : (laneBack s l).cardOnLane l = s.cardOnLane l := rfl
  have hback : ∀ P : Prop, ((s.setLane l (s.lane l).activated).raise .lane = laneBack s l → P) → P := fun P h => h rfl
  unfold resyncTaken
  dsimp only
  rw [if_pos (by rw [hk, hc]; simp)]
  split
  · next c hp hcc => exact .inr ⟨c, hp, hcc, rfl⟩
  · next hno =>
    refine .inl ⟨rfl, fun hp => ?_⟩
    cases hcc : s.cardOnLane l with
    | none => rfl
    | some c => exact absurd (hon.trans hcc) (hno c hp)

theorem exec_resync {s : State} {l : LaneId} (hs : (s.lane l).state = .recover) (kind ch : Byte) :
    exec (.resync l kind ch) s = .next (finish (resyncTaken s.begin l kind ch)) := by
  have hg := goodFrame_training (s := s) (l := l) (by rw [hs]; decide)
  show execResync l kind ch s = _
  unfold execResync
  rw [hg]
  exact if_pos hs

/-- What RESYNC with the recorded partner leaves, whatever else is under way. -/
theorem resync_back {s : State} {l : LaneId} {kind ch : Byte} (hk : kind.toNat = (s.lane l).partner.code)
    (hc : ch.toNat = (s.lane l).channels.val) :
    (resyncTaken s l kind ch).lanes = (laneBack s l).lanes ∧ (resyncTaken s l kind ch).tables = s.tables ∧
      (resyncTaken s l kind ch).guard = s.guard ∧ (resyncTaken s l kind ch).trunk.attn.lane = true ∧
      SameWork s (resyncTaken s l kind ch) := by
  rcases resyncTaken_back hk hc with ⟨h, -⟩ | ⟨c, -, -, h⟩ <;> rw [h]
  · exact ⟨rfl, rfl, rfl, rfl, rfl, rfl, rfl⟩
  · have hun := recoveryOpens_unmoved (laneBack s l) c
    have hkeep := (Keeps.refl (Q := fun _ => True) (laneBack s l)).recoveryOpens c
    exact ⟨hun.lanes, hun.tables, hkeep.guard, hkeep.laneRaised rfl, hun.same.ctxs, hun.same.work, hun.same.mail⟩

/-- RESYNC and the lane timers: settles O47, by the partner that answers and the timer that runs. -/
theorem lanesRecoverAndTimeOut : Obligations.LanesRecoverAndTimeOut := by
  unfold Obligations.LanesRecoverAndTimeOut
  intro s l
  refine ⟨fun kind ch hs => ⟨fun ⟨hk, hc⟩ => ?_, fun hne => ?_⟩, fun h => ?_, fun h => if_pos h, fun h => ?_, fun h => if_pos h,
    fun h => if_pos h, fun h => if_neg h, fun h => if_neg h, fun h => if_neg h, fun h => ⟨if_neg h, if_neg h⟩, fun h => if_neg h⟩
  · obtain ⟨hlanes, htab, hg, hatt, hwork⟩ := resync_back (s := s.begin) (l := l) hk hc
    have hleave := finish_leaves (resyncTaken s.begin l kind ch)
    have hlane : ∀ k, (finish (resyncTaken s.begin l kind ch)).lane k = (laneBack s.begin l).lane k := fun k => by
      rw [State.lane, hleave.2.1, hlanes]; rfl
    have hquiet : Quiesced s → Quiesced (resyncTaken s.begin l kind ch) := fun hq =>
      ⟨hwork.work.trans hq.1, hwork.mail.trans hq.2⟩
    refine ⟨_, exec_resync hs kind ch, ?_, fun k hk' => ?_, finish_laneRaised hatt, ?_, ?_, fun x hq => ?_, fun c hp hcard hi hq => ?_⟩
    · rw [hlane, laneBack_lane]; rfl
    · rw [hlane, laneBack_lane_ne _ hk']; rfl
    · rw [hleave.1, htab]; rfl
    · rw [finish_guard, hg]; rfl
    · rw [(ends_quiesced (hquiet hq)).ctx, State.ctx, hwork.ctxs]; rfl
    · rcases resyncTaken_back (s := s.begin) (l := l) hk hc with ⟨-, hnone⟩ | ⟨c', -, hc', htaken⟩
      · exact absurd ((hnone hp).symm.trans hcard) (by simp)
      · obtain rfl : c = c' := Option.some.inj (hcard.symm.trans hc')
        have hends := ends_quiesced (hquiet hq)
        rw [htaken] at hends ⊢
        have hidle : CardIdleOn (laneBack s.begin l) c l := by
          obtain ⟨h1, h2, h3⟩ := (CardCtl.idle_iff _).1 hi
          refine ⟨cardEntry_of_cardOnLane hcard, ?_, h1, h2, h3⟩
          rw [State.laneHasCard, laneBack_lane, show (s.begin.lane l).activated.partner = (s.lane l).partner from rfl, hp]
          rfl
        have hplaced := recoveryOpens_placed (t := finish (recoveryOpens (laneBack s.begin l) c)) hidle rfl hends.matrix
          hends.ctxs hends.out
        exact hplaced
  · have htaken : resyncTaken s.begin l kind ch =
        s.begin.setLane l { (s.lane l).alone .down with loss := .resyncMismatch } := by
      refine if_neg (fun h => hne ?_)
      rw [Bool.and_eq_true, decide_eq_true_iff, decide_eq_true_iff] at h
      exact ⟨h.1.symm, h.2.symm⟩
    have hleave := finish_leaves (resyncTaken s.begin l kind ch)
    rw [htaken] at hleave
    have hlane : ∀ k, (finish (s.begin.setLane l { (s.lane l).alone .down with loss := .resyncMismatch })).lane k =
        (s.begin.setLane l { (s.lane l).alone .down with loss := .resyncMismatch }).lane k := fun k => by
      rw [State.lane, hleave.2.1]; rfl
    refine ⟨_, exec_resync hs kind ch, ?_, fun k hk => ?_, ?_⟩ <;> rw [htaken]
    · rw [hlane, State.lane_setLane_self]; rfl
    · rw [hlane, State.lane_setLane, if_neg (Ne.symm hk)]; rfl
    · rw [hleave.1]; rfl
  · exact if_pos h
  · have htake : exec (.trainingTimeout l) s =
        .next (enterDetect (s.begin.modLane l (fun k => { k with fault := .timeout })) l) := if_pos h
    rw [htake]
    exact congrArg Host.Outcome.next (detect_again s.begin l (fun k => { k with fault := .timeout }) _ rfl)

end Sys2Proof.Machine
end

