-- ==== Sys2Proof/Proofs/QueueEnds.lean ====
section
/-!
PROOFS. The head record that has been sent (O32), and the panel that opens and closes (O29).
-/

namespace Sys2Proof.Machine

/-! ### A FOLD record and the close of a panel (R138, R145, R150) -/

/-- The FOLD record of the count, where it is above 0 (R145). -/
def foldOf (q : ResultQueue) : List Rec := if q.foldCount = 0 then [] else [.fold q.foldCount q.saturated]

theorem foldOf_zero {q : ResultQueue} (h : q.foldCount = 0) : foldOf q = [] := if_pos h

/-- A FOLD that is appended delivers the count (R145). -/
theorem appendRecord_fold (s : State) :
    (appendRecord s (.fold 0 false)).queue.records = s.queue.records ++ [.fold s.queue.foldCount s.queue.saturated] ∧
      (appendRecord s (.fold 0 false)).queue.foldCount = 0 ∧
      (s.queue.records.length ≠ 47 → (appendRecord s (.fold 0 false)).queue.compact = s.queue.compact) := by
  refine ⟨appendRecord_records _ _, ?_, fun h => ?_⟩ <;> unfold appendRecord <;> dsimp only <;> split
  · rfl
  · rfl
  · next hc => simp [Rec.stamped] at hc; exact absurd hc.1 h
  · rfl

theorem appendRecord_apart (s : State) (r : Rec) : (appendRecord s r).panel = s.panel ∧ (appendRecord s r).ctxs = s.ctxs ∧
    (appendRecord s r).matrixWork = s.matrixWork ∧ (appendRecord s r).mail = s.mail := by
  unfold appendRecord
  dsimp only
  split <;> exact ⟨rfl, rfl, rfl, rfl⟩

/-- The closing FOLD that finds room closes the panel (R150). -/
theorem offerClosingFold_room {s : State} (h : s.queue.records.length < 64) :
    ∃ u, offerClosingFold s = closePanel u ∧ u.queue.records = s.queue.records ++ foldOf s.queue ∧ u.queue.foldCount = 0 ∧
      u.matrixWork = s.matrixWork ∧ u.mail = s.mail := by
  by_cases h0 : s.queue.foldCount = 0
  · unfold offerClosingFold
    rw [if_pos h0]
    exact ⟨s, rfl, by rw [foldOf_zero h0, List.append_nil], h0, rfl, rfl⟩
  · obtain ⟨hrec, hcount, -⟩ := appendRecord_fold s
    obtain ⟨-, -, hw, hm⟩ := appendRecord_apart s (.fold 0 false)
    unfold offerClosingFold
    rw [if_neg h0, if_pos h]
    exact ⟨_, rfl, by rw [hrec, foldOf, if_neg h0], hcount, hw, hm⟩

/-- A panel that has closed stays so to the end of the command. -/
theorem finish_closed {s : State} (hq : Quiesced s) :
    (finish (closePanel s)).panel.state = .closed ∧ (finish (closePanel s)).panel.foldPending = false ∧
      (finish (closePanel s)).trunk.attn.progress = true ∧ (finish (closePanel s)).queue = s.queue := by
  rw [finish_open (show Quiesced (closePanel s) from hq) (by rw [show (closePanel s).panel.state = .closed from rfl]; decide)]
  exact ⟨by rw [pump_panel]; rfl, by rw [pump_panel]; rfl, by rw [pump_attn]; rfl, by rw [pump_queue]; rfl⟩

/-! ### The end of a command for a panel that is CLOSING (R138) -/

/-- The completion conditions hold (R138). -/
structure Completes (s : State) : Prop where
  closing : s.panel.state = .closing
  notYet : s.panel.foldPending = false
  finished : ∀ x, (s.ctx x).finished = true

theorem Completes.panelCheck {s : State} (h : Completes s) : Machine.panelCheck s =
    if s.queue.foldCount = 0 then closePanel s
    else offerClosingFold { s with panel := { s.panel with foldPending := true } } := by
  refine if_pos ?_
  rw [h.closing, h.notYet, List.all_eq_true.2 (fun x _ => h.finished x)]
  rfl

/-- A panel whose contexts have finished closes, with the FOLD of a count above 0, while the queue has room. -/
theorem finish_completes {s : State} (hq : Quiesced s) (h : Completes s) (hr : s.queue.foldCount = 0 ∨ s.queue.records.length < 64) :
    (finish s).panel.state = .closed ∧ (finish s).trunk.attn.progress = true ∧ (finish s).queue.foldCount = 0 ∧
      (finish s).queue.records = s.queue.records ++ foldOf s.queue ∧ (s.queue.foldCount = 0 → (finish s).queue = s.queue) := by
  rw [finish_quiesced hq, pump_panel, pump_attn, pump_queue, h.panelCheck]
  split
  · next h0 => exact ⟨rfl, rfl, h0, by rw [foldOf_zero h0, List.append_nil]; rfl, fun _ => rfl⟩
  · next h0 =>
    obtain ⟨u, hu, hrec, hcount, -⟩ := offerClosingFold_room
      (s := { s with panel := { s.panel with foldPending := true } }) (hr.resolve_left h0)
    rw [hu]
    exact ⟨rfl, rfl, hcount, hrec, fun h => absurd h h0⟩

theorem finish_waits {s : State} (hq : Quiesced s) (h : Completes s) (h0 : s.queue.foldCount ≠ 0) (hf : 64 ≤ s.queue.records.length) :
    (finish s).panel.state = .closing ∧ (finish s).panel.foldPending = true := by
  have hwait : offerClosingFold { s with panel := { s.panel with foldPending := true } } =
      { s with panel := { s.panel with foldPending := true } } := by
    unfold offerClosingFold
    rw [if_neg h0, if_neg (not_lt.2 hf)]
  rw [finish_quiesced hq, pump_panel, h.panelCheck, if_neg h0, hwait]
  exact ⟨h.closing, rfl⟩

/-! ### The head record that has been sent (O32) -/

/-- The transmitter is free and the sent record has left the head (R151). -/
def headGone (s : State) (rest : List Rec) : State :=
  { s with trunk := { s.trunk with tx := none }, queue := { s.queue with records := rest } }

theorem frameDone_result {s : State} {seq : Half} {r q : Rec} {rest : List Rec} (htx : s.trunk.tx = some (.result seq r true))
    (hq : s.queue.records = q :: rest) : frameDone s =
      if rest.length = 63 then grantPlace (headGone s rest)
      else if rest.length = 16 ∧ s.queue.compact = true then leaveCompact (headGone s rest) else headGone s rest := by
  obtain rfl : rest = s.queue.records.tail := by rw [hq]; rfl
  have hdone : frameDone s = removeHead (s.modTrunk (fun t => { t with tx := none })) := by
    unfold frameDone
    rw [htx]
    rfl
  rw [hdone]
  by_cases h63 : s.queue.records.tail.length = 63
  · rw [if_pos h63]; exact if_pos h63
  · rw [if_neg h63]
    refine (if_neg h63).trans ?_
    by_cases h16 : s.queue.records.tail.length = 16 ∧ s.queue.compact = true
    · rw [if_pos h16]; exact if_pos (by rw [Bool.and_eq_true, decide_eq_true_iff]; exact h16)
    · rw [if_neg h16]; exact if_neg (by rw [Bool.and_eq_true, decide_eq_true_iff]; exact h16)

/-- A place that nothing waits for stays free. -/
theorem grantPlace_free {s : State} (h : ∀ y, (s.ctx y).slot = none) (hf : s.panel.foldPending = false) : grantPlace s = s := by
  have hnone : allBuses.find? (fun x => (s.ctx x).slot.isSome) = none :=
    List.find?_eq_none.2 (fun y _ => by rw [h]; decide)
  unfold grantPlace
  rw [hnone]
  dsimp only
  rw [hf]
  rfl

/-- With no bus waiting, the place goes to the closing FOLD (R150). -/
theorem grantPlace_fold {s : State} (h : ∀ y, (s.ctx y).slot = none) (hf : s.panel.foldPending = true) :
    grantPlace s = offerClosingFold s := by
  have hnone : allBuses.find? (fun x => (s.ctx x).slot.isSome) = none :=
    List.find?_eq_none.2 (fun y _ => by rw [h]; decide)
  unfold grantPlace
  rw [hnone]
  exact if_pos hf

/-- The place goes to the lowest waiting bus (R146). -/
theorem grantPlace_slot {s : State} {x : Bus} {sl : Slot} (hx : (s.ctx x).slot = some sl) (hlow : ∀ y, y < x → (s.ctx y).slot = none) :
    grantPlace s = slotTaken (appendRecord s sl.record) x := by
  have hfind : allBuses.find? (fun x => (s.ctx x).slot.isSome) = some x := by
    have hsome : (allBuses.find? (fun x => (s.ctx x).slot.isSome)).isSome = true :=
      List.find?_isSome.2 ⟨x, List.mem_finRange x, by rw [hx]; rfl⟩
    obtain ⟨y, hy⟩ := Option.isSome_iff_exists.1 hsome
    obtain ⟨hys, as, bs, hsplit, has⟩ := List.find?_eq_some_iff_append.1 hy
    have hrise : (as ++ y :: bs).Pairwise (· < ·) := by rw [← hsplit]; exact List.pairwise_lt_finRange 8
    have hmem : x ∈ as ++ y :: bs := by rw [← hsplit]; exact List.mem_finRange x
    rcases List.mem_append.1 hmem with hm | hm
    · have hno := has x hm
      rw [hx] at hno
      exact absurd hno (by simp)
    · rcases List.mem_cons.1 hm with rfl | hm
      · exact hy
      · have hlt := (List.pairwise_cons.1 (List.pairwise_append.1 hrise).2.1).1 x hm
        rw [hlow y hlt] at hys
        exact absurd hys (by decide)
  unfold grantPlace
  rw [hfind]
  dsimp only
  rw [hx]

/-- A removal to 16 records in compact mode (R148). -/
theorem leaveCompact_shows {s : State} (h : s.queue.records.length = 16) :
    (leaveCompact s).queue.compact = false ∧ (leaveCompact s).queue.foldCount = 0 ∧
      (leaveCompact s).queue.records = s.queue.records ++ foldOf s.queue ∧ (leaveCompact s).matrixWork = s.matrixWork ∧
      (leaveCompact s).mail = s.mail := by
  have hshown : ∀ u : State, u.queue.compact = false → u.queue.foldCount = 0 → u.queue.records = s.queue.records ++ foldOf s.queue →
      u.matrixWork = s.matrixWork → u.mail = s.mail → leaveCompact s = (if u.panel.foldPending then closePanel u else u) →
      (leaveCompact s).queue.compact = false ∧ (leaveCompact s).queue.foldCount = 0 ∧
      (leaveCompact s).queue.records = s.queue.records ++ foldOf s.queue ∧ (leaveCompact s).matrixWork = s.matrixWork ∧
      (leaveCompact s).mail = s.mail := by
    intro u h1 h2 h3 h4 h5 heq
    rw [heq]
    split <;> exact ⟨h1, h2, h3, h4, h5⟩
  have hq : ({ s with queue := { s.queue with compact := false } } : State).queue.records.length = 16 := h
  by_cases h0 : 0 < s.queue.foldCount
  · obtain ⟨hrec, hcount, hcomp⟩ := appendRecord_fold { s with queue := { s.queue with compact := false } }
    obtain ⟨-, -, hw, hm⟩ := appendRecord_apart { s with queue := { s.queue with compact := false } } (.fold 0 false)
    refine hshown (appendRecord { s with queue := { s.queue with compact := false } } (.fold 0 false)) (hcomp (by rw [hq]; decide))
      hcount ?_ hw hm ?_
    · rw [hrec, foldOf, if_neg (by omega)]
    · unfold leaveCompact
      dsimp only
      rw [if_pos h0]
  · have hz : s.queue.foldCount = 0 := by omega
    refine hshown { s with queue := { s.queue with compact := false } } rfl hz (by rw [foldOf_zero hz, List.append_nil]) rfl rfl ?_
    unfold leaveCompact
    dsimp only
    rw [if_neg h0]

/-- FRAME_SENT for a RESULT frame: settles O32, by who takes the place that the record leaves. -/
theorem sentRecordsLeaveTheQueue : Obligations.SentRecordsLeaveTheQueue := by
  unfold Obligations.SentRecordsLeaveTheQueue
  intro s seq r hq
  refine ⟨fun q rest hrec htx => ?_, fun htx hp => ?_⟩
  · have hexec := exec_frameSent htx
    rw [frameDone_result (s := s.begin) htx hrec] at hexec
    have hquiet : Quiesced (headGone s.begin rest) := hq
    have hopen : s.panel.state ≠ .closing →
        (finish (headGone s.begin rest)).queue = { s.queue with records := rest } ∧
          (finish (headGone s.begin rest)).ctxs = s.ctxs := fun hp => by
      rw [finish_open hquiet hp, pump_queue, pump_ctxs]
      exact ⟨rfl, rfl⟩
    refine ⟨fun h63 h16 hp => ?_, fun h63 hs hf hp => ?_, fun x sl h63 hx hlow => ?_, fun h63 hs hf => ?_, fun h16 hc => ?_⟩
    · rw [if_neg h63, if_neg (show ¬ (rest.length = 16 ∧ s.begin.queue.compact = true) from h16)] at hexec
      exact ⟨_, hexec, hopen hp⟩
    · rw [if_pos h63, grantPlace_free (s := headGone s.begin rest) hs hf] at hexec
      exact ⟨_, hexec, hopen hp⟩
    · rw [if_pos h63, grantPlace_slot (s := headGone s.begin rest) hx hlow] at hexec
      obtain ⟨l, hl, -⟩ := finish_appends (slotTaken (appendRecord (headGone s.begin rest) sl.record) x)
      refine ⟨_, l, hexec, hl.trans ?_⟩
      rw [show (slotTaken (appendRecord (headGone s.begin rest) sl.record) x).queue =
        (appendRecord (headGone s.begin rest) sl.record).queue from rfl, appendRecord_records, List.append_assoc]
      cases sl.record <;> rfl
    · rw [if_pos h63, grantPlace_fold (s := headGone s.begin rest) hs hf] at hexec
      obtain ⟨u, hu, hrecs, hcount, hw, hm⟩ := offerClosingFold_room (s := headGone s.begin rest)
        (by rw [show (headGone s.begin rest).queue.records = rest from rfl, h63]; decide)
      rw [hu] at hexec
      obtain ⟨h1, h2, h3, h4⟩ := finish_closed (s := u) ⟨hw.trans hq.1, hm.trans hq.2⟩
      exact ⟨_, hexec, h1, h2, h3, by rw [h4, hcount], by rw [h4, hrecs]; rfl⟩
    · rw [if_neg (by omega), if_pos (show rest.length = 16 ∧ s.begin.queue.compact = true from ⟨h16, hc⟩)] at hexec
      obtain ⟨h1, h2, h3, hw, hm⟩ := leaveCompact_shows (s := headGone s.begin rest) h16
      refine ⟨_, hexec, ?_⟩
      generalize leaveCompact (headGone s.begin rest) = u at h1 h2 h3 hw hm ⊢
      have hqu : Quiesced u := ⟨hw.trans hq.1, hm.trans hq.2⟩
      have hqueue : (finish u).queue = u.queue := by
        by_cases hcomp : Completes u
        · exact (finish_completes hqu hcomp (.inl h2)).2.2.2.2 h2
        · rw [finish_quiesced hqu, pump_queue]
          have hno : panelCheck u = u := if_neg (fun h => hcomp (by
            rw [Bool.and_eq_true, Bool.and_eq_true, decide_eq_true_iff, Bool.not_eq_true', List.all_eq_true] at h
            exact ⟨h.1.1, h.1.2, fun x => h.2 x (List.mem_finRange x)⟩))
          rw [hno]
      rw [hqueue]
      exact ⟨h1, h2, h3⟩
  · have hdone : frameDone s.begin = s.begin.modTrunk (fun t => { t with tx := none }) := by
      have htx' : s.begin.trunk.tx = some (.result seq r false) := htx
      unfold frameDone
      rw [htx']
      rfl
    have hexec := exec_frameSent htx
    rw [hdone, finish_open (show Quiesced (s.begin.modTrunk (fun t => { t with tx := none })) from hq) hp] at hexec
    exact ⟨_, hexec, pump_sameBlocks (s.begin.modTrunk (fun t => { t with tx := none }))⟩

/-! ### The panel opens and closes (O29) -/

theorem foldl_beginPanelCtx (bs : List Bus) (s : State) (hn : bs.Nodup) :
    (∀ x, (bs.foldl beginPanelCtx s).ctx x = if x ∈ bs then { s.ctx x with sweep := Sweep.initial } else s.ctx x) ∧
      bs.foldl beginPanelCtx s = { s with ctxs := (bs.foldl beginPanelCtx s).ctxs } := by
  induction bs generalizing s with
  | nil => exact ⟨fun x => (if_neg List.not_mem_nil).symm, rfl⟩
  | cons b bs ih =>
    obtain ⟨hb, hn⟩ := List.nodup_cons.1 hn
    obtain ⟨hctx, hrest⟩ := ih (beginPanelCtx s b) hn
    rw [List.foldl_cons]
    refine ⟨fun x => ?_, hrest.trans rfl⟩
    rw [hctx, beginPanelCtx, State.ctx_modCtx]
    by_cases hx : b = x
    · subst hx
      rw [if_neg hb, if_pos rfl, if_pos List.mem_cons_self]
    · rw [if_neg hx]
      simp [Ne.symm hx]

/-- A new panel is OPEN, and its verdict records are empty (R136). -/
def newPanel (s : State) : State :=
  { s with panel := { s.panel with
    state := .opn, number := s.panel.number + 1, verdicts := Vector.replicate 32 SiteVerdict.initial } }

/-- The panel is CLOSING (R137). -/
def closingPanel (s : State) : State := { s with panel := { s.panel with state := .closing } }

/-- A CLOSING panel is CLOSING or CLOSED at the end of the command (R138). -/
theorem finish_stillClosing {s : State} (h : s.panel.state = .closing) :
    (finish s).panel.state = .closing ∨ (finish s).panel.state = .closed := by
  have hd : (drain drainBound s).panel.state = .closing := (drain_keeps s).panelState.trans h
  have hoffer : ∀ u : State, u.panel.state = .closing →
      (offerClosingFold u).panel.state = .closing ∨ (offerClosingFold u).panel.state = .closed := fun u hu => by
    unfold offerClosingFold
    split
    · exact .inr rfl
    · split
      · exact .inr rfl
      · exact .inl hu
  rw [finish, pump_panel]
  unfold panelCheck
  split
  · split
    · exact .inr rfl
    · exact hoffer _ hd
  · exact .inl hd

/-- PANEL BEGIN and PANEL END: settles O29, by the panel state and the completion conditions. -/
theorem panelsOpenAndClose : Obligations.PanelsOpenAndClose := by
  unfold Obligations.PanelsOpenAndClose
  intro s tag hroom
  refine ⟨fun hp => ?_, fun hp => ?_, fun hp => ?_, fun hp => ?_⟩
  · obtain ⟨hctx, hrest⟩ := foldl_beginPanelCtx allBuses (newPanel s.begin) (List.nodup_finRange 8)
    have hexec := exec_ok (c := .panelBegin tag []) (kind := 0x0C#8) rfl hroom rfl (if_pos hp)
    have hu : ∀ u, u = allBuses.foldl beginPanelCtx (newPanel s.begin) → ∀ d,
        (pump (u.respond tag 0x0C#8 .ok d)).panel = (newPanel s).panel ∧
        (∀ x, (pump (u.respond tag 0x0C#8 .ok d)).ctx x = { s.ctx x with sweep := Sweep.initial }) ∧
        SameBlocks { s with panel := (newPanel s).panel, ctxs := u.ctxs } (pump (u.respond tag 0x0C#8 .ok d)) ∧
        (pump (u.respond tag 0x0C#8 .ok d)).out = [] ∧ u.trunk = s.trunk := by
      rintro u rfl d
      refine ⟨?_, fun x => ?_, ?_, ?_, ?_⟩
      · rw [pump_panel, hrest]; rfl
      · rw [State.ctx, pump_ctxs]
        refine (hctx x).trans ?_
        rw [if_pos (show x ∈ allBuses from List.mem_finRange x)]; rfl
      · refine ⟨?_, ?_, ?_, ?_, ?_, ?_, ?_, ?_⟩
        · rw [pump_tables, hrest]; rfl
        · rw [pump_matrix, hrest]; rfl
        · rw [pump_ctxs]; rfl
        · rw [pump_queue, hrest]; rfl
        · rw [pump_guard, hrest]; rfl
        · rw [pump_panel, hrest]; rfl
        · rw [pump_lanes, hrest]; rfl
        · rw [pump_markHigh, hrest]; rfl
      · rw [pump_out, hrest]; rfl
      · rw [hrest]; rfl
    obtain ⟨h1, h2, h3, h4, h5⟩ := hu _ rfl [s.panel.number + 1]
    refine ⟨_, hexec, ?_, h1, h2, ?_, h4⟩
    · show Answered s (pump ((allBuses.foldl beginPanelCtx (newPanel s.begin)).respond tag 0x0C#8 .ok [s.panel.number + 1])) _ _ _ _
      rw [Answered, pump_responses]
      show (allBuses.foldl beginPanelCtx (newPanel s.begin)).trunk.responses ++ _ = _
      rw [h5]
    · obtain ⟨k1, k2, k3, k4, k5, k6, k7, k8⟩ := h3
      refine ⟨k1, k2, rfl, k4, k5, rfl, k7, k8⟩
  · exact onlyReplies_refused (c := .panelBegin tag []) rfl hroom rfl (if_neg (by rcases hp with h | h <;> simp [State.begin, h]))
  · have hexec : exec (.panelEnd tag []) s = .next (finish ((closingPanel s.begin).respond tag 0x0D#8 .ok [])) :=
      exec_ran (c := .panelEnd tag []) (kind := 0x0D#8) rfl hroom rfl (if_pos hp)
    have hu : ∀ u, u = (closingPanel s.begin).respond tag 0x0D#8 .ok [] → Answered s (finish u) tag 0x0D#8 .ok [] ∧
        LeavesStores s (finish u) ∧ (finish u).guard = s.guard ∧
        ((finish u).panel.state = .closing ∨ (finish u).panel.state = .closed) ∧
        (Quiesced s → s.panel.foldPending = false → (∀ x : Bus, (s.ctx x).finished = true) → Quiesced u ∧ Completes u) ∧
        (Quiesced s → (∃ x : Bus, (s.ctx x).finished = false) → (finish u).panel.state = .closing) ∧ u.queue = s.queue := by
      rintro u rfl
      refine ⟨finish_responses _, finish_leaves ((closingPanel s.begin).respond tag 0x0D#8 .ok []), finish_guard _, ?_,
        fun hq hf hfin => ⟨hq, rfl, hf, hfin⟩, fun hq hno => ?_, rfl⟩
      · exact finish_stillClosing rfl
      · rw [((ends_quiesced (s := (closingPanel s.begin).respond tag 0x0D#8 .ok []) hq).idle (.inl hno)).2]
        rfl
    obtain ⟨h1, h2, h3, h4, h5, h6, h7⟩ := hu _ rfl
    refine ⟨_, hexec, h1, h2, h3, h4, fun hq hfin h0 hf => ?_, fun hq hfin h0 hf hr => ?_, fun hq hfin h0 hf hr => ?_, h6⟩
    · obtain ⟨hqu, hc⟩ := h5 hq hf hfin
      obtain ⟨k1, k2, -, -, k5⟩ := finish_completes hqu hc (.inl (by rw [h7]; exact h0))
      exact ⟨k1, k2, (k5 (by rw [h7]; exact h0)).trans h7⟩
    · obtain ⟨hqu, hc⟩ := h5 hq hf hfin
      obtain ⟨k1, -, k3, k4, -⟩ := finish_completes hqu hc (.inr (by rw [h7]; exact hr))
      refine ⟨k1, k3, k4.trans ?_⟩
      rw [h7, foldOf, if_neg h0]
    · obtain ⟨hqu, hc⟩ := h5 hq hf hfin
      exact finish_waits hqu hc (by rw [h7]; exact h0) (by rw [h7]; exact hr)
  · exact onlyReplies_refused (c := .panelEnd tag []) rfl hroom rfl (if_neg hp)

end Sys2Proof.Machine
end

