-- ==== Sys2Proof/Proofs/BusEntries.lean ====
section
/-!
PROOFS. One BUS entry that is written (O18): its fields, its checks, and the evaluation of its guard source.
-/

namespace Sys2Proof.Machine

/-! ### The entry as bytes (R43, R197) -/

theorem busKind?_none {n : Nat} (h : 3 ≤ n) : busKind? n = none := by
  match n, h with
  | n + 3, _ => rfl

theorem guardSource?_none {n : Nat} (h : 8 ≤ n) : guardSource? n = none := by
  match n, h with
  | n + 8, _ => rfl

theorem busKind?_code (k : BusKind) : busKind? k.code.toNat = some k := by cases k <;> rfl

theorem guardSource?_code (g : GuardSource) : guardSource? g.code.toNat = some g := by
  cases g with
  | fixture n => fin_cases n <;> rfl
  | _ => rfl

theorem busEntry?_bytes (e : BusEntry) : busEntry? e.bytes = some e := by
  have h1 : e.lane.val % 256 = e.lane.val := by omega
  have h2 : e.channel.val % 256 = e.channel.val := by omega
  have h3 : e.scaleBase.val % 256 = e.scaleBase.val := by omega
  simp [busEntry?, BusEntry.bytes, h1, h2, h3, busKind?_code, guardSource?_code]

/-- A BUS entry with a field out of range is none (R43, R197). -/
theorem busEntry?_none {g : List Byte} (h : 2 ≤ byteAt g 0 ∨ 3 ≤ byteAt g 1 ∨ 8 ≤ byteAt g 2 ∨ 4 ≤ byteAt g 3 ∨
    32 ≤ byteAt g 4 ∨ 8 ≤ byteAt g 5) : busEntry? g = none := by
  rw [Option.eq_none_iff_forall_ne_some]
  intro e he
  simp only [busEntry?, Option.bind_eq_bind, Option.bind_eq_some_iff] at he
  obtain ⟨_, h0, _, h1, _, h2, _, h3, _, h4, _, h5, -⟩ := he
  rcases h with h | h | h | h | h | h
  · rw [yesNo?_none h] at h0; exact absurd h0 (by simp)
  · rw [busKind?_none h] at h1; exact absurd h1 (by simp)
  · rw [fin?_none h] at h2; exact absurd h2 (by simp)
  · rw [fin?_none h] at h3; exact absurd h3 (by simp)
  · rw [fin?_none h] at h4; exact absurd h4 (by simp)
  · rw [guardSource?_none h] at h5; exact absurd h5 (by simp)

/-! ### The checks (R43, R44) -/

theorem busFree_iff (s : State) (x : Bus) : busFree s x = true ↔ BusFree s x := by
  simp only [busFree, BusFree, State.busInUse, Bool.and_eq_true, Bool.or_eq_true, Bool.not_eq_true', List.isEmpty_iff,
    beq_iff_eq, bne_iff_ne, List.any_eq_false, allPoints, List.mem_finRange, true_implies, and_assoc, Bool.not_eq_true]
  tauto

theorem busClash_iff (s : State) (x : Bus) (e : BusEntry) : busClash s x e = true ↔ BusClashes s x e := by
  simp only [busClash, BusClashes, Bool.and_eq_true, List.any_eq_true, bne_iff_ne, beq_iff_eq, allBuses, List.mem_finRange,
    true_and, and_assoc]

theorem takeBus_of_clear {s : State} {x : Bus} {e : BusEntry} (hf : e = s.busEntry x ∨ BusFree s x) (hc : ¬ BusClashes s x e) :
    takeBus s x.val e.bytes = .applied (applyBus s x e) := by
  have hfree : ¬ (e ≠ s.busEntry x ∧ (!busFree s x) = true) := fun ⟨hne, h⟩ => by
    rw [(busFree_iff s x).2 (hf.resolve_left hne)] at h
    exact absurd h (by decide)
  simp only [takeBus, fin?_val, busEntry?_bytes, if_neg hfree, if_neg ((busClash_iff s x e).not.2 hc)]

/-! ### The entry applied (R45) -/

/-- A BUS entry is written, and the source record follows it (R45). -/
def busWritten (s : State) (x : Bus) (e : BusEntry) : State :=
  (s.modTables (fun k => { k with buses := k.buses.set x e })).modCtx x
    (fun c => { c with source := sourceAfterWrite (s.busEntry x) e c.source })

theorem busWritten_entry (s : State) (x : Bus) (e : BusEntry) : (busWritten s x e).busEntry x = e := Vector.getElem_set_self _

/-- The source record after the write, as the statement has it. -/
theorem sourceAfterWrite_eq (old new : BusEntry) (v : SrcState) : sourceAfterWrite old new v =
    if new.kind = .source then
      if old.kind = .source ∧ old.lane = new.lane ∧ old.channel = new.channel then v else .unsure
    else .quiet := by
  unfold sourceAfterWrite
  by_cases hk : old.kind = .source <;> by_cases hl : old.lane = new.lane <;> by_cases hc : old.channel = new.channel <;>
    simp [hk, hl, hc]

theorem applyBus_responses (s : State) (x : Bus) (e : BusEntry) : (applyBus s x e).trunk.responses = s.trunk.responses := by
  have hev : ∀ u : State, (evaluate u x).trunk.responses = u.trunk.responses := fun u => by
    unfold evaluate
    split
    · have k : Keeps (fun _ => True) (u.setTripped x true) (tripBus u x) :=
        ((((Keeps.refl _).emergencyQuiet x).emergencyOpen x).tripCtx x).raise _
      rw [k.trunk]
      rfl
    · rfl
  exact hev (busWritten s x e)

/-- BUS entries: settles O18, by its checks and the evaluation of its guard source. -/
theorem busEntriesAreWritten : Obligations.BusEntriesAreWritten := by
  unfold Obligations.BusEntriesAreWritten
  intro s tag r x e h
  have hc : x.val < 65536 := by omega
  refine ⟨fun hf hcl => ?_, fun hne hf => ?_, fun hf hcl => ?_, fun g hg hbad => ?_, fun i hi hi' => ?_⟩
  · have hexec := exec_entry (c := .tableWriteBus tag (writePayload 2#8 r x.val e.bytes) 0) (take := takeBus) (size := 6)
      rfl h rfl (by decide) hc rfl (by decide) (by decide) (takeBus_of_clear (s := s.begin) hf hcl)
    obtain ⟨hev, hcalm⟩ : Evaluated (busWritten s.begin x e) (applyBus s.begin x e) [x] ∧
        (tripsNow (busWritten s.begin x e) x = false → applyBus s.begin x e = busWritten s.begin x e) :=
      ⟨evaluate_evaluated _ x, fun hn => if_neg (ne_true_of_eq_false hn)⟩
    generalize hv : (applyBus s.begin x e).respond tag 0x02#8 .ok (le16 1) = v at hexec
    have hvc : v.ctxs = (applyBus s.begin x e).ctxs := by rw [← hv]; rfl
    have hvleave : LeavesStores (busWritten s.begin x e) v := by rw [← hv]; exact hev.leaves
    have hleave := hvleave.trans (finish_leaves v)
    have hguard : (finish v).guard = (applyBus s.begin x e).guard := by rw [finish_guard, ← hv]; rfl
    have htables : (finish v).tables = { s.tables with buses := s.tables.buses.set x e } := hleave.1
    have htrip : ∀ y, (finish v).tripped y = (applyBus s.begin x e).tripped y := fun y => by
      rw [State.tripped, State.tripped, hguard]
    have hflag : ∀ y, (finish v).tripped y =
        (s.tripped y || (y == x && e.enabled && asserted { s with tables := (finish v).tables } x)) := fun y => by
      rw [htrip, hev.flags]
      by_cases hy : y = x
      · subst hy
        rw [busWritten_entry, asserted_congr (s := { s with tables := (finish v).tables }) (t := busWritten s.begin y e)
          htables.symm rfl]
        simp
        rfl
      · rw [show (y == x) = false from beq_false_of_ne hy]
        simp [hy]
        rfl
    refine ⟨_, hexec, ?_, htables, ⟨rfl, hleave.2⟩, ?_, hflag, fun hq hsame => ?_⟩
    · rw [Answered, finish_responses, ← hv]
      show (applyBus s.begin x e).trunk.responses ++ _ = _
      rw [applyBus_responses]; rfl
    · rw [hguard]; exact hev.guard
    · have hcalm' : applyBus s.begin x e = busWritten s.begin x e := hcalm (by
        refine Bool.eq_false_iff.2 (fun hn => ?_)
        simp only [tripsNow, Bool.and_eq_true, Bool.not_eq_true'] at hn
        obtain ⟨⟨hen, hnot⟩, has⟩ := hn
        have hwas : s.tripped x = false := hnot
        rw [htrip, hev.flags, hwas, hnot, hen, has] at hsame
        simp at hsame)
      have hends : Ends v (finish v) := ends_quiesced (by rw [← hv, hcalm']; exact hq)
      have hctx : ∀ y, (finish v).ctx y = (busWritten s.begin x e).ctx y := fun y => by
        rw [hends.ctx, State.ctx, hvc, hcalm']; rfl
      refine ⟨fun y hy => ?_, ?_⟩
      · rw [hctx, busWritten, State.ctx_modCtx, if_neg (Ne.symm hy)]; rfl
      · rw [hctx, busWritten, State.ctx_modCtx_self, sourceAfterWrite_eq]
        rfl
  · refine onlyReplies_entry (take := takeBus) (size := 6) rfl h rfl (by decide) hc rfl (by decide) (by decide) ?_
    have hused : e ≠ s.begin.busEntry x ∧ (!busFree s.begin x) = true := ⟨hne, by
      rw [Bool.not_eq_true', ← Bool.not_eq_true]; exact (busFree_iff s.begin x).not.2 hf⟩
    simp only [takeBus, fin?_val, busEntry?_bytes, if_pos hused]
  · refine onlyReplies_entry (take := takeBus) (size := 6) rfl h rfl (by decide) hc rfl (by decide) (by decide) ?_
    have hfree : ¬ (e ≠ s.begin.busEntry x ∧ (!busFree s.begin x) = true) := fun ⟨hne, hn⟩ => by
      rw [(busFree_iff s.begin x).2 (hf.resolve_left hne)] at hn
      exact absurd hn (by decide)
    simp only [takeBus, fin?_val, busEntry?_bytes, if_neg hfree, if_pos ((busClash_iff s.begin x e).2 hcl)]
  · exact onlyReplies_entry (take := takeBus) (size := 6) rfl h rfl (by decide) hc hg (by decide) (by decide)
      (by simp only [takeBus, fin?_val, busEntry?_none hbad])
  · exact onlyReplies_entry (take := takeBus) (size := 6) rfl h rfl (by decide) hi' rfl (by decide) (by decide)
      (by simp only [takeBus, fin?_none hi])

end Sys2Proof.Machine
end

