-- ==== Sys2Proof/Proofs/RackReset.lean ====
section
/-!
PROOFS. RACK RESET (O28): what its emergency opens leave at the cards, what its evaluation of the trip flags leaves, and
that nothing more happens at contexts that are all at rest.
-/

-- One proof after another: in the joined text each worker would hold a stack of its own.
set_option Elab.async false

namespace Sys2Proof.Machine

/-! ### Opens move the matrix and nothing else -/

/-- Only the matrix, the frames that go out and the work of the matrix controller differ. -/
def OnlyOrders (s t : State) : Prop := t = { s with matrix := t.matrix, out := t.out, matrixWork := t.matrixWork }

theorem OnlyOrders.refl (s : State) : OnlyOrders s s := rfl

theorem OnlyOrders.trans {s t u : State} (h : OnlyOrders s t) (k : OnlyOrders t u) : OnlyOrders s u := by
  unfold OnlyOrders at *
  rw [k]
  rw [h]

theorem OnlyOrders.ctxs {s t : State} (h : OnlyOrders s t) : t.ctxs = s.ctxs := by unfold OnlyOrders at h; rw [h]
theorem OnlyOrders.trunk {s t : State} (h : OnlyOrders s t) : t.trunk = s.trunk := by unfold OnlyOrders at h; rw [h]
theorem OnlyOrders.queue {s t : State} (h : OnlyOrders s t) : t.queue = s.queue := by unfold OnlyOrders at h; rw [h]
theorem OnlyOrders.panel {s t : State} (h : OnlyOrders s t) : t.panel = s.panel := by unfold OnlyOrders at h; rw [h]
theorem OnlyOrders.guard {s t : State} (h : OnlyOrders s t) : t.guard = s.guard := by unfold OnlyOrders at h; rw [h]
theorem OnlyOrders.tables {s t : State} (h : OnlyOrders s t) : t.tables = s.tables := by unfold OnlyOrders at h; rw [h]
theorem OnlyOrders.lanes {s t : State} (h : OnlyOrders s t) : t.lanes = s.lanes := by unfold OnlyOrders at h; rw [h]
theorem OnlyOrders.ctx {s t : State} (h : OnlyOrders s t) (x : Bus) : t.ctx x = s.ctx x := by rw [State.ctx, State.ctx, h.ctxs]
theorem OnlyOrders.tripped {s t : State} (h : OnlyOrders s t) (x : Bus) : t.tripped x = s.tripped x := by
  rw [State.tripped, State.tripped, h.guard]

theorem sendOrder_only (s : State) (c : CardId) (o : Order) : OnlyOrders s (sendOrder s c o) := by
  rw [sendOrder_eq, State.modXps_eq]; rfl

theorem setCard_only (s : State) (c : CardId) (k : CardCtl) : OnlyOrders s (s.setCard c k) := rfl

theorem pushWork_only (s : State) (w : List MatrixWork) : OnlyOrders s (s.pushWork w) := rfl

/-- An open that answers nobody, or whose bus has no request, is sent with no word to a context (R22). -/
theorem sendOpen_only (s : State) (c : CardId) (o : Order) (h : o.answers = false ∨ (s.ctx o.bus).request = none) :
    OnlyOrders s (sendOpen s c o) := by
  have hquiet : (if o.answers then answerOpens s o.bus else s) = s := by
    rcases h with h | h
    · rw [h]; rfl
    · unfold answerOpens
      rw [h]
      exact ite_self s
  unfold sendOpen
  split
  · rw [hquiet]; exact pushWork_only _ _
  · exact sendOrder_only _ _ _

/-- What the sending of listed opens leaves of a card: the ordinary part, and an order that is pending. -/
structure CardCtl.Stands (k k' : CardCtl) : Prop where
  ordinary : k'.ordinary = k.ordinary
  pending : ∀ q, k.pending = some q → k'.pending = some q ∧ k'.nextTag = k.nextTag

theorem CardCtl.Stands.refl (k : CardCtl) : k.Stands k := ⟨rfl, fun _ h => ⟨h, rfl⟩⟩

theorem CardCtl.Stands.trans {a b c : CardCtl} (h : a.Stands b) (k : b.Stands c) : a.Stands c :=
  ⟨k.ordinary.trans h.ordinary, fun q hq => by
    obtain ⟨h1, h2⟩ := h.pending q hq
    obtain ⟨k1, k2⟩ := k.pending q h1
    exact ⟨k1, k2.trans h2⟩⟩

/-- An open leaves the list of a card with nothing pending. -/
theorem sendOpen_stands {s : State} {c : CardId} (o : Order) (hp : (s.card c).pending = none)
    (h : o.answers = false ∨ (s.ctx o.bus).request = none) (d : CardId) : (s.card d).Stands ((sendOpen s c o).card d) := by
  have hquiet : (if o.answers then answerOpens s o.bus else s) = s := by
    rcases h with h | h
    · rw [h]; rfl
    · unfold answerOpens
      rw [h]
      exact ite_self s
  unfold sendOpen
  split
  · rw [hquiet]; exact .refl _
  · rw [sendOrder_card]
    split
    · next e =>
      subst e
      exact ⟨rfl, fun q hq => absurd (hp.symm.trans hq) (by simp)⟩
    · exact .refl _

theorem setPriority_stands (s : State) (c : CardId) (os : List Order) (d : CardId) :
    (s.card d).Stands ((s.setCard c { s.card c with priority := os }).card d) := by
  rw [State.card_setCard]
  split
  · next e => subst e; exact ⟨rfl, fun _ h => ⟨h, rfl⟩⟩
  · exact .refl _

/-- A card with no ordinary order sends the next open of its list, at contexts without requests (R22). -/
theorem sendNext_opens {s : State} {c : CardId} (ho : (s.card c).ordinary = [])
    (hr : ∀ o ∈ (s.card c).priority, o.answers = false ∨ (s.ctx o.bus).request = none) :
    OnlyOrders s (sendNext s c) ∧ ∀ d, (s.card d).Stands ((sendNext s c).card d) := by
  by_cases hp : (s.card c).pending = none
  · cases hl : (s.card c).priority with
    | nil =>
      rw [sendNext_idle (.inr ((CardCtl.idle_iff _).2 ⟨hp, hl, ho⟩))]
      exact ⟨.refl s, fun _ => .refl _⟩
    | cons o rest =>
      have heq : sendNext s c = sendOpen (s.setCard c { s.card c with priority := rest }) c o := by
        unfold sendNext
        dsimp only
        rw [hp, hl, if_neg (by simp)]
      have hro := hr o (by rw [hl]; exact List.mem_cons_self)
      have hpend : ((s.setCard c { s.card c with priority := rest }).card c).pending = none := by
        rw [State.card_setCard_self]; exact hp
      rw [heq]
      exact ⟨(setCard_only s c _).trans (sendOpen_only _ c o hro), fun d =>
        (setPriority_stands s c rest d).trans (sendOpen_stands o hpend hro d)⟩
  · rw [sendNext_idle (.inl hp)]
    exact ⟨.refl s, fun _ => .refl _⟩

/-- An emergency open that is placed answers nobody. -/
theorem placePriority_opens (s : State) (c : CardId) {o : Order} (h : o.answers = false) :
    OnlyOrders s (placePriority s c o) ∧ ∀ d, (s.card d).Stands ((placePriority s c o).card d) := by
  cases hi : (s.card c).idle with
  | false =>
    rw [placePriority_busy hi]
    exact ⟨setCard_only _ _ _, setPriority_stands s c _⟩
  | true =>
    obtain ⟨hp, hl, ho⟩ := (CardCtl.idle_iff _).1 hi
    have heq : placePriority s c o = sendNext (s.setCard c { s.card c with priority := (s.card c).priority ++ [o] }) c := if_pos hi
    have hnext := sendNext_opens (s := s.setCard c { s.card c with priority := (s.card c).priority ++ [o] }) (c := c)
      (by rw [State.card_setCard_self]; exact ho) (by
        rw [State.card_setCard_self, hl]
        intro q hq
        rw [List.mem_singleton.1 hq]
        exact .inl h)
    rw [heq]
    exact ⟨(setCard_only _ _ _).trans hnext.1, fun d => (setPriority_stands s c _ d).trans (hnext.2 d)⟩

theorem foldl_placePriority_opens (x : Bus) (gs : List (CardId × List Pt)) (s : State) :
    OnlyOrders s (gs.foldl (fun s g => placePriority s g.1 ⟨.emergency, x, g.2, false⟩) s) ∧
      ∀ d, (s.card d).Stands ((gs.foldl (fun s g => placePriority s g.1 ⟨.emergency, x, g.2, false⟩) s).card d) := by
  induction gs generalizing s with
  | nil => exact ⟨.refl s, fun _ => .refl _⟩
  | cons g gs ih =>
    obtain ⟨h1, h2⟩ := placePriority_opens s g.1 (o := ⟨.emergency, x, g.2, false⟩) rfl
    obtain ⟨k1, k2⟩ := ih (placePriority s g.1 ⟨.emergency, x, g.2, false⟩)
    exact ⟨h1.trans k1, fun d => (h2 d).trans (k2 d)⟩

/-! ### The emergency opens of every bus (R35) -/

theorem State.modCards_only (s : State) (f : CardCtl → CardCtl) : OnlyOrders s (s.modCards f) := by
  have hfold : ∀ (l : List CardId) (u : State), OnlyOrders u (l.foldl (fun s c => s.setCard c (f (s.card c))) u) := by
    intro l
    induction l with
    | nil => exact fun u => .refl u
    | cons c l ih => exact fun u => (setCard_only u c _).trans (ih _)
  exact hfold allCards s

theorem State.modCards_card (s : State) (f : CardCtl → CardCtl) (d : CardId) : (s.modCards f).card d = f (s.card d) := by
  have hfold : ∀ (l : List CardId) (u : State), l.Nodup → (l.foldl (fun s c => s.setCard c (f (s.card c))) u).card d =
      if d ∈ l then f (u.card d) else u.card d := by
    intro l
    induction l with
    | nil => exact fun u _ => (if_neg List.not_mem_nil).symm
    | cons c l ih =>
      intro u hn
      obtain ⟨hc, hn⟩ := List.nodup_cons.1 hn
      rw [List.foldl_cons, ih _ hn, State.card_setCard]
      by_cases hcd : c = d
      · subst hcd
        rw [if_neg hc, if_pos rfl, if_pos List.mem_cons_self]
      · rw [if_neg hcd]
        simp [Ne.symm hcd]
  exact (hfold allCards s (List.nodup_finRange 4)).trans (if_pos (List.mem_finRange d))

theorem returnReservations_only (s : State) (x : Bus) : OnlyOrders s (returnReservations s x) := by
  unfold OnlyOrders; rw [returnReservations_eq]

theorem modXps_only (s : State) (x : Bus) (ps : List Pt) (f : XRec → XRec) : OnlyOrders s (s.modXps x ps f) := by
  unfold OnlyOrders; rw [State.modXps_eq]

/-- The records and the requests cleared, before the emergency orders are placed (R35). -/
theorem emergencyCleared_only (s : State) (x : Bus) : OnlyOrders (s.modCtx x Ctx.withoutOrders) (emergencyCleared s x) ∧
    ∀ d, (emergencyCleared s x).card d = ((s.card d).without x (fun _ => true)).orphan x := by
  have hcards := State.modCards_card (s.modCtx x Ctx.withoutOrders) (fun k => (k.without x (fun _ => true)).orphan x)
  have honly := State.modCards_only (s.modCtx x Ctx.withoutOrders) (fun k => (k.without x (fun _ => true)).orphan x)
  unfold emergencyCleared
  dsimp only
  generalize (s.modCtx x Ctx.withoutOrders).modCards (fun k => (k.without x (fun _ => true)).orphan x) = u at *
  refine ⟨honly.trans ((returnReservations_only u x).trans (modXps_only _ _ _ _)), fun d => ?_⟩
  rw [State.modXps_card, returnReservations_eq]
  exact hcards d

/-- An emergency open moves the matrix, and takes make and open requests from the context of its bus. -/
theorem emergencyOpen_only (s : State) (x : Bus) : OnlyOrders (s.modCtx x Ctx.withoutOrders) (emergencyOpen s x) ∧
    ∀ d, (((s.card d).without x (fun _ => true)).orphan x).Stands ((emergencyOpen s x).card d) := by
  obtain ⟨hclear, hcards⟩ := emergencyCleared_only s x
  obtain ⟨h1, h2⟩ := foldl_placePriority_opens x (cardGroups (emergencyPoints (emergencyCleared s x) x)) (emergencyCleared s x)
  rw [emergencyOpen_eq]
  exact ⟨hclear.trans h1, fun d => by rw [← hcards d]; exact h2 d⟩

/-- The pending order of a card answers nobody once the bus of it is among those opened (R31). -/
def PendingOrder.after (q : PendingOrder) (l : List Bus) : PendingOrder :=
  if q.order.bus ∈ l then { q with order := { q.order with answers := false } } else q

/-- What the emergency opens of some buses leave. -/
structure OpenedAll (s t : State) (l : List Bus) : Prop where
  only : OnlyOrders { s with ctxs := t.ctxs } t
  state : ∀ x, (t.ctx x).state = (s.ctx x).state ∧ (t.ctx x).takeTag = (s.ctx x).takeTag
  ordinary : ∀ d, ∀ o ∈ (t.card d).ordinary, o ∈ (s.card d).ordinary ∧ o.bus ∉ l
  pending : ∀ d q, (s.card d).pending = some q → (t.card d).pending = some (q.after l) ∧ (t.card d).nextTag = (s.card d).nextTag

theorem OnlyOrders.modCtx {s t : State} {x : Bus} {f : Ctx → Ctx} (h : OnlyOrders (s.modCtx x f) t) :
    OnlyOrders { s with ctxs := t.ctxs } t := by
  have hc := h.ctxs
  unfold OnlyOrders at *
  rw [hc]
  exact h

theorem orphan_pending {k : CardCtl} {q : PendingOrder} (x : Bus) (h : k.pending = some q) :
    ((k.without x (fun _ => true)).orphan x).pending = some (q.after [x]) ∧
      ((k.without x (fun _ => true)).orphan x).nextTag = k.nextTag := by
  have hq : (k.without x (fun _ => true)).pending = some q := h
  unfold CardCtl.orphan PendingOrder.after
  rw [hq]
  dsimp only
  by_cases hx : q.order.bus = x
  · rw [if_pos hx, if_pos (List.mem_singleton.2 hx)]; exact ⟨rfl, rfl⟩
  · rw [if_neg hx, if_neg (fun hm => hx (List.mem_singleton.1 hm))]; exact ⟨h, rfl⟩

theorem orphan_ordinary (k : CardCtl) (x : Bus) : (k.orphan x).ordinary = k.ordinary := by
  unfold CardCtl.orphan
  split
  · split <;> rfl
  · rfl

theorem PendingOrder.after_cons (q : PendingOrder) (y : Bus) (l : List Bus) : (q.after [y]).after l = q.after (y :: l) := by
  have hbus : (q.after [y]).order.bus = q.order.bus := by unfold PendingOrder.after; split <;> rfl
  by_cases hy : q.order.bus = y
  · have h1 : q.after [y] = { q with order := { q.order with answers := false } } := if_pos (List.mem_singleton.2 hy)
    have h2 : q.after (y :: l) = { q with order := { q.order with answers := false } } := if_pos (by rw [hy]; exact List.mem_cons_self)
    rw [h1, h2]
    unfold PendingOrder.after
    split <;> rfl
  · have h1 : q.after [y] = q := if_neg (fun hm => hy (List.mem_singleton.1 hm))
    rw [h1]
    unfold PendingOrder.after
    simp [hy]

theorem OpenedAll.refl (s : State) : OpenedAll s s [] :=
  ⟨.refl s, fun _ => ⟨rfl, rfl⟩, fun _ _ h => ⟨h, List.not_mem_nil⟩, fun _ _ h => ⟨h.trans (congrArg some (if_neg List.not_mem_nil).symm), rfl⟩⟩

theorem foldl_emergencyOpen_all (l : List Bus) (s : State) : OpenedAll s (l.foldl emergencyOpen s) l := by
  induction l generalizing s with
  | nil => exact .refl s
  | cons y l ih =>
    obtain ⟨honly, hcards⟩ := emergencyOpen_only s y
    obtain ⟨k1, k2, k3, k4⟩ := ih (emergencyOpen s y)
    rw [List.foldl_cons]
    refine ⟨?_, fun x => ?_, fun d o ho => ?_, fun d q hq => ?_⟩
    · have h1 := honly.modCtx
      unfold OnlyOrders at h1 k1 ⊢
      rw [k1]
      rw [h1]
    · obtain ⟨h1, h2⟩ := k2 x
      have hx : (emergencyOpen s y).ctx x = (s.modCtx y Ctx.withoutOrders).ctx x := honly.ctx x
      rw [h1, h2, hx, State.ctx_modCtx]
      split
      · next e =>
        subst e
        rcases Ctx.withoutOrders_cases (s.ctx y) with h | h <;> rw [h] <;> exact ⟨rfl, rfl⟩
      · exact ⟨rfl, rfl⟩
    · obtain ⟨ho, hl⟩ := k3 d o ho
      rw [(hcards d).ordinary, orphan_ordinary] at ho
      obtain ⟨hmem, hno⟩ := List.mem_filter.1 ho
      refine ⟨hmem, fun hb => ?_⟩
      rcases List.mem_cons.1 hb with hb | hb
      · rw [hb] at hno; simp at hno
      · exact hl hb
    · obtain ⟨h1, h2⟩ := orphan_pending y hq
      obtain ⟨h3, h4⟩ := (hcards d).pending _ h1
      obtain ⟨h5, h6⟩ := k4 d _ h3
      exact ⟨h5.trans (congrArg some (q.after_cons y l)), h6.trans (h4.trans h2)⟩

/-! ### The contexts after RACK RESET (R66, R157) -/

/-- The values of a context after RACK RESET: those of power reset, but for TRIPPED and the source record. -/
def Ctx.rested (trip : Bool) (src : SrcState) : Ctx :=
  { Ctx.initial with state := if trip then .tripped else .idle, source := src }

/-- What the reset of the contexts of some buses leaves. -/
structure ResetAt (s t : State) (l : List Bus) : Prop where
  only : t = { s with ctxs := t.ctxs, out := t.out }
  ctx : ∀ x, t.ctx x = if x ∈ l then .rested false (resetRecord s x) else s.ctx x
  out : ∃ fs, t.out = s.out ++ fs
  cancels : ∀ x ∈ l, (s.ctx x).state = .measuring → s.channelUsable x = true →
    ((s.busEntry x).lane, .cancel (s.busEntry x).channel (s.ctx x).takeTag) ∈ t.out
  quiets : ∀ x ∈ l, (s.busEntry x).kind = .source → s.channelUsable x = true →
    ((s.busEntry x).lane, .quiet (s.busEntry x).channel) ∈ t.out

theorem stopTake_only (s : State) (x : Bus) : stopTake s x = { s with ctxs := (stopTake s x).ctxs, out := (stopTake s x).out } ∧
    ∃ fs, (stopTake s x).out = s.out ++ fs := by
  unfold stopTake
  split
  · unfold cancelTake
    dsimp only
    split
    · exact ⟨rfl, _, rfl⟩
    · exact ⟨rfl, [], (List.append_nil _).symm⟩
  · exact ⟨rfl, [], (List.append_nil _).symm⟩

theorem resetCtx_at (s : State) (x : Bus) : ResetAt s (resetCtx s x) [x] := by
  obtain ⟨honly, fs, hfs⟩ := stopTake_only s x
  have hcancel := stopTake_out (s := s) (x := x)
  have heq : resetCtx s x = (resetSource (stopTake s x) x).modCtx x (fun c => { Ctx.initial with source := c.source }) := rfl
  have hother : ∀ y, y ≠ x → (stopTake s x).ctx y = s.ctx y := fun y hy => by
    unfold stopTake
    split
    · unfold cancelTake
      dsimp only
      rw [State.ctx_modCtx, if_neg (Ne.symm hy)]
      split <;> rfl
    · rfl
  rw [heq]
  generalize stopTake s x = u at *
  have ht : u.tables = s.tables := by rw [honly]
  have hl : u.lanes = s.lanes := by rw [honly]
  have hbus : u.busEntry x = s.busEntry x := by rw [State.busEntry, ht]; rfl
  have husable : u.channelUsable x = s.channelUsable x := by
    unfold State.channelUsable State.laneHasInstrument State.lane
    rw [hbus, hl]
  have hrecord : resetRecord u x = resetRecord s x := by unfold resetRecord; rw [hbus, husable]
  have hgoal : ∀ v : State, v.ctxs = u.ctxs → v = { s with ctxs := v.ctxs, out := v.out } → (∃ gs, v.out = u.out ++ gs) →
      ((s.busEntry x).kind = .source → s.channelUsable x = true → ((s.busEntry x).lane, .quiet (s.busEntry x).channel) ∈ v.out) →
      ResetAt s ((v.setSource x (resetRecord u x)).modCtx x (fun c => { Ctx.initial with source := c.source })) [x] := by
    intro v hvc hv ⟨gs, hgs⟩ hq
    refine ⟨?_, fun y => ?_, ⟨fs ++ gs, ?_⟩, fun y hy hm hu => ?_, fun y hy hk hu => ?_⟩
    · rw [hv]; rfl
    · rw [State.ctx_modCtx, State.setSource, State.ctx_modCtx, State.ctx_modCtx]
      by_cases hy : x = y
      · subst hy
        rw [if_pos rfl, if_pos rfl, if_pos (List.mem_singleton_self x), hrecord]
        rfl
      · rw [if_neg hy, if_neg hy, if_neg (fun hm => hy (List.mem_singleton.1 hm).symm), State.ctx, hvc]
        exact hother y (Ne.symm hy)
    · show v.out = _
      rw [hgs, hfs, List.append_assoc]
    · obtain rfl := List.mem_singleton.1 hy
      show _ ∈ v.out
      rw [hgs]
      exact List.mem_append_left _ (hcancel hm hu)
    · obtain rfl := List.mem_singleton.1 hy
      exact hq hk hu
  unfold resetSource
  split
  · refine hgoal (sendQuiet u x) rfl ?_ ⟨_, rfl⟩ (fun _ _ => ?_)
    · rw [honly]; rfl
    · unfold sendQuiet
      rw [hbus]
      exact List.mem_append_right _ (List.mem_singleton_self _)
  · next hno =>
    refine hgoal u rfl honly ⟨[], (List.append_nil _).symm⟩ (fun hk hu => ?_)
    rw [hbus, husable] at hno
    exact absurd ⟨hk, hu⟩ hno

theorem foldl_resetCtx_at (l : List Bus) (s : State) (hn : l.Nodup) : ResetAt s (l.foldl resetCtx s) l := by
  induction l generalizing s with
  | nil =>
    exact ⟨rfl, fun x => (if_neg List.not_mem_nil).symm, ⟨[], (List.append_nil _).symm⟩, fun _ hx => absurd hx List.not_mem_nil,
      fun _ hx => absurd hx List.not_mem_nil⟩
  | cons y l ih =>
    obtain ⟨hy, hn⟩ := List.nodup_cons.1 hn
    obtain ⟨h1, h2, ⟨fs, h3⟩, h4, h5⟩ := resetCtx_at s y
    obtain ⟨k1, k2, ⟨gs, k3⟩, k4, k5⟩ := ih (resetCtx s y) hn
    have ht : (resetCtx s y).tables = s.tables := by rw [h1]
    have hl : (resetCtx s y).lanes = s.lanes := by rw [h1]
    have hbus : ∀ x, (resetCtx s y).busEntry x = s.busEntry x := fun x => by rw [State.busEntry, ht]; rfl
    have husable : ∀ x, (resetCtx s y).channelUsable x = s.channelUsable x := fun x => by
      unfold State.channelUsable State.laneHasInstrument State.lane
      rw [hbus, hl]
    have hkept : ∀ {e}, e ∈ (resetCtx s y).out → e ∈ (l.foldl resetCtx (resetCtx s y)).out := fun he => by
      rw [k3]; exact List.mem_append_left _ he
    have hctx : ∀ x ∈ l, (resetCtx s y).ctx x = s.ctx x := fun x hx => by
      rw [h2, if_neg (fun hm => hy (by rw [← List.mem_singleton.1 hm]; exact hx))]
    rw [List.foldl_cons]
    refine ⟨?_, fun x => ?_, ⟨fs ++ gs, ?_⟩, fun x hx hm hu => ?_, fun x hx hk hu => ?_⟩
    · rw [k1]
      rw [h1]
    · rw [k2, h2]
      by_cases hxl : x ∈ l
      · rw [if_pos hxl, if_pos (List.mem_cons_of_mem _ hxl)]
        unfold resetRecord
        rw [hbus, husable]
      · simp [hxl]
    · rw [k3, h3, List.append_assoc]
    · rcases List.mem_cons.1 hx with rfl | hx
      · exact hkept (h4 x (List.mem_singleton_self x) hm hu)
      · have := k4 x hx (by rw [hctx x hx]; exact hm) (by rw [husable]; exact hu)
        rw [hbus, hctx x hx] at this
        exact this
    · rcases List.mem_cons.1 hx with rfl | hx
      · exact hkept (h5 x (List.mem_singleton_self x) hk hu)
      · have := k5 x hx (by rw [hbus]; exact hk) (by rw [husable]; exact hu)
        rw [hbus] at this
        exact this

/-! ### The relays after RACK RESET (R35) -/

/-- The emergency open of every bus has been made, and no reservation is left (R35). -/
def AllOpened (o u : State) : Prop :=
  ∀ x : Bus, (∀ p : Pt, (u.xp x p).state ≠ .reserved) ∧ (OpensFirst o → OpensFirst u ∧ EmergencyOpened o u x)

theorem AllOpened.apart {o u v : State} (h : AllOpened o u) (ha : ∀ x, Apart x u v) : AllOpened o v := fun x =>
  ⟨fun p => (ha x).unreserved p ((h x).1 p), fun ho => by
    obtain ⟨hu, he⟩ := (h x).2 ho
    exact ⟨(ha x).opens hu, he.stands ((ha x).sinks hu) ((ha x).listed hu)⟩⟩

theorem AllOpened.atMatrix {o u v : State} (h : AllOpened o u) (hm : v.matrix = u.matrix) : AllOpened o v := fun x =>
  ⟨fun p => by rw [State.xp, hm]; exact (h x).1 p, fun ho => by
    obtain ⟨hu, he⟩ := (h x).2 ho
    exact ⟨opensFirst_congr (by rw [hm]) hu, he.atMatrix hm⟩⟩

theorem AllOpened.emergencyOpen {o u : State} (h : AllOpened o u) (y : Bus) : AllOpened o (Machine.emergencyOpen u y) :=
  h.apart (fun x => emergencyOpen_apart u x y)

/-! ### A rack at rest (R157) -/

/-- Every context is at rest with nothing to do, and no card lists an ordinary order. -/
structure Dormant (u : State) : Prop where
  rested : ∀ x, ∃ src, u.ctx x = .rested (u.tripped x) src
  ordinary : ∀ d, (u.card d).ordinary = []

theorem Dormant.request {u : State} (h : Dormant u) (x : Bus) : (u.ctx x).request = none := by
  obtain ⟨src, hs⟩ := h.rested x; rw [hs]; rfl

/-- A context at rest has nothing to do with what it is told. -/
theorem Dormant.doMail {u : State} (h : Dormant u) (m : Mail) : doMail u m = u := by
  obtain ⟨src, hs⟩ := h.rested m.bus
  have hstate : (u.ctx m.bus).state = .idle ∨ (u.ctx m.bus).state = .tripped ∧ u.tripped m.bus = true := by
    rw [hs]; cases u.tripped m.bus <;> simp [Ctx.rested]
  by_cases hp : m = .poke m.bus
  · rw [hp]
    have hplace : placeEnd u m.bus = u := placeEnd_none (.inr (by rw [hs]; rfl))
    show poke u m.bus = u
    unfold poke
    rw [hplace]
    dsimp only
    rcases hstate with hi | ⟨hi, ht⟩ <;> rw [hi] <;> dsimp only
    · rw [show (u.ctx m.bus).queue = [] by rw [hs]; rfl]; rfl
    · rw [ht]; rfl
  · refine doMail_rest ?_ ?_ hp
    · rcases hstate with hi | ⟨hi, -⟩ <;> rw [hi] <;> rfl
    · rcases hstate with hi | ⟨hi, -⟩ <;> rw [hi] <;> decide

/-- With no request, a point that goes to the arbiter is granted to nobody. -/
theorem Dormant.doMatrix {u : State} (h : Dormant u) (w : MatrixWork) :
    OnlyOrders u (doMatrix u w) ∧ ∀ d, (u.card d).Stands ((doMatrix u w).card d) := by
  cases w with
  | send c => exact sendNext_opens (h.ordinary c) (fun o _ => .inr (h.request o.bus))
  | point p =>
    have hnone : u.waiters p = [] := List.filter_eq_nil_iff.2 (fun y _ => by
      rw [Ctx.waitsFor, h.request]; simp)
    have hsame : arbitrate u p = u := by
      unfold arbitrate
      rw [hnone]
      exact ite_self u
    show OnlyOrders u (arbitrate u p) ∧ _
    rw [show Machine.doMatrix u (.point p) = u from hsame, hsame]
    exact ⟨.refl u, fun _ => .refl _⟩

/-- What the consequences of a command leave, when all contexts are at rest. -/
structure OnlyOpens (u v : State) : Prop where
  ctxs : v.ctxs = u.ctxs
  trunk : v.trunk = u.trunk
  queue : v.queue = u.queue
  panel : v.panel = u.panel
  guard : v.guard = u.guard
  cards : ∀ d, (u.card d).Stands (v.card d)

theorem OnlyOpens.dormant {u v : State} (h : OnlyOpens u v) (hd : Dormant u) : Dormant v :=
  ⟨fun x => by
    obtain ⟨src, hs⟩ := hd.rested x
    exact ⟨src, by rw [State.ctx, h.ctxs, State.tripped, h.guard]; exact hs⟩,
    fun d => (h.cards d).ordinary.trans (hd.ordinary d)⟩

theorem drain_dormant (n : Nat) {u : State} (h : Dormant u) : OnlyOpens u (drain n u) := by
  induction n generalizing u with
  | zero => exact ⟨rfl, rfl, rfl, rfl, rfl, fun _ => .refl _⟩
  | succ n ih =>
    cases hw : u.matrixWork with
    | cons w rest =>
      rw [drain_work hw]
      have hd : Dormant { u with matrixWork := rest } := ⟨h.rested, h.ordinary⟩
      obtain ⟨h1, h2⟩ := hd.doMatrix w
      have hone : OnlyOpens u (doMatrix { u with matrixWork := rest } w) := ⟨h1.ctxs, h1.trunk, h1.queue, h1.panel, h1.guard, h2⟩
      obtain ⟨k1, k2, k3, k4, k5, k6⟩ := ih (hone.dormant h)
      exact ⟨k1.trans hone.ctxs, k2.trans hone.trunk, k3.trans hone.queue, k4.trans hone.panel, k5.trans hone.guard,
        fun d => (hone.cards d).trans (k6 d)⟩
    | nil =>
      cases hm : u.mail with
      | nil => rw [drain, hw, hm]; exact ⟨rfl, rfl, rfl, rfl, rfl, fun _ => .refl _⟩
      | cons m rest =>
        rw [drain_mail hw hm, Dormant.doMail (u := { u with mail := rest }) ⟨h.rested, h.ordinary⟩]
        obtain ⟨k1, k2, k3, k4, k5, k6⟩ := ih (u := { u with mail := rest }) ⟨h.rested, h.ordinary⟩
        exact ⟨k1, k2, k3, k4, k5, k6⟩

/-! ### The evaluation of the trip flags (R61) -/

/-- What RACK RESET has left of a state `o`, with some trip flags set again. -/
structure AfterReset (o u : State) : Prop where
  tables : u.tables = o.tables
  lanes : u.lanes = o.lanes
  guard : u.guard = { o.guard with rack := .safe .reset, trips := u.guard.trips }
  ctx : ∀ x, u.ctx x = .rested (u.tripped x) (resetRecord o x)
  queue : u.queue = (resetBefore o).queue
  panel : u.panel = (resetBefore o).panel
  trunk : u.trunk = { (resetBefore o).trunk with
    attn := { (resetBefore o).trunk.attn with guard := allBuses.any u.tripped } }
  out : ∃ fs, u.out = (resetBefore o).out ++ fs
  ordinary : ∀ d, (u.card d).ordinary = []
  pending : ∀ d q, (o.card d).pending = some q →
    (u.card d).pending = some (q.after allBuses) ∧ (u.card d).nextTag = (o.card d).nextTag
  reasons : ∀ d, (u.card d).rejectReason = (o.card d).rejectReason
  wear : ∀ x p, (u.xp x p).wear = (o.xp x p).wear
  opened : AllOpened o u

theorem AfterReset.dormant {o u : State} (h : AfterReset o u) : Dormant u := ⟨fun x => ⟨_, h.ctx x⟩, h.ordinary⟩

/-- A source that is QUIET, or UNSURE on a channel that is not usable, has nothing more to do (R52). -/
theorem emergencyQuiet_rested {s : State} {x : Bus} (hr : (s.ctx x).request = none)
    (hs : (s.busEntry x).kind ≠ .source ∨ (s.ctx x).source = .quiet ∨ ((s.ctx x).source = .unsure ∧ s.channelUsable x = false)) :
    emergencyQuiet s x = s := by
  have hsame : s.modCtx x (fun c => if c.request = some .quiet || c.request = some .live then { c with request := none } else c) = s :=
    State.modCtx_same (by rw [hr]; rfl)
  unfold emergencyQuiet
  split
  · rfl
  · next hk =>
    have hk' : (s.busEntry x).kind = .source := by simpa using hk
    dsimp only
    rw [hsame]
    rcases hs with hs | hs | ⟨hs, hu⟩
    · exact absurd hk' hs
    · rw [hs]
    · rw [hs]
      dsimp only
      rw [hu]
      exact State.modCtx_same (f := fun c => { c with source := .unsure }) (by rw [← hs])

/-- A trip of a bus at rest: its flag, its emergency open, and its context TRIPPED (R58, R59). -/
theorem tripBus_rested {o u : State} (h : AfterReset o u) {x : Bus} (hx : u.tripped x = false) :
    AfterReset o (tripBus u x) := by
  have hquiet : emergencyQuiet (u.setTripped x true) x = u.setTripped x true := by
    refine emergencyQuiet_rested (h.dormant.request x) ?_
    have hbus : (u.setTripped x true).busEntry x = o.busEntry x := by
      rw [State.busEntry, State.setTripped_tables, h.tables]; rfl
    have husable : (u.setTripped x true).channelUsable x = o.channelUsable x := by
      unfold State.channelUsable State.laneHasInstrument State.lane
      rw [hbus, State.setTripped_lanes, h.lanes]
    have hsrc : ((u.setTripped x true).ctx x).source = resetRecord o x := by
      show (u.ctx x).source = _
      rw [h.ctx]; rfl
    rw [hbus, husable, hsrc]
    unfold resetRecord
    split
    · next hc => exact .inr (.inr ⟨rfl, hc.2⟩)
    · exact .inr (.inl rfl)
  have hopen := emergencyOpen_only (u.setTripped x true) x
  have hnoreq : (u.setTripped x true).modCtx x Ctx.withoutOrders = u.setTripped x true := by
    refine State.modCtx_same ?_
    show (u.ctx x).withoutOrders = u.ctx x
    unfold Ctx.withoutOrders
    rw [h.dormant.request x]
  rw [hnoreq] at hopen
  have hkeep := (Keeps.refl (Q := fun _ => True) (u.setTripped x true)).emergencyOpen x
  obtain ⟨gs, hgs⟩ := (emergencyOpen_apart (u.setTripped x true) x x).out
  have hopened := (h.opened.atMatrix (v := u.setTripped x true) rfl).emergencyOpen x
  have htrip : tripBus u x = (tripCtx (Machine.emergencyOpen (u.setTripped x true) x) x).raise .guard := by
    show (tripCtx (Machine.emergencyOpen (emergencyQuiet (u.setTripped x true) x) x) x).raise .guard = _
    rw [hquiet]
  rw [htrip]
  obtain ⟨honly, hcards⟩ := hopen
  have hwear : ∀ y p, ((Machine.emergencyOpen (u.setTripped x true) x).xp y p).wear = (o.xp y p).wear := fun y p =>
    (hkeep.wear _).trans (h.wear y p)
  have hreasons : ∀ d, ((Machine.emergencyOpen (u.setTripped x true) x).card d).rejectReason = (o.card d).rejectReason := fun d =>
    (hkeep.reasons d).trans (h.reasons d)
  have hctx : ∀ y, (Machine.emergencyOpen (u.setTripped x true) x).ctx y = .rested (u.tripped y) (resetRecord o y) := fun y => by
    rw [honly.ctx]; exact h.ctx y
  have hflags : ∀ y, (Machine.emergencyOpen (u.setTripped x true) x).tripped y = if x = y then true else u.tripped y := fun y => by
    rw [honly.tripped, State.tripped_setTripped]
  have hguard := honly.guard
  have hent : tripCtx (Machine.emergencyOpen (u.setTripped x true) x) x =
      ((Machine.emergencyOpen (u.setTripped x true) x).setCtx x (.rested true (resetRecord o x))).post (.poke x) := by
    have hidle : ((Machine.emergencyOpen (u.setTripped x true) x).ctx x).state = .idle := by rw [hctx, hx]; rfl
    rw [tripCtx_noSite (by rw [hidle]; decide) (by rw [hctx, hx]; rfl), enterTripped_eq, hctx, hx]
    rfl
  rw [hent]
  have hlists := honly.trunk
  have htab := honly.tables
  have hlan := honly.lanes
  have hqueue := honly.queue
  have hpanel := honly.panel
  generalize Machine.emergencyOpen (u.setTripped x true) x = v at *
  have hset : ∀ y, (v.setCtx x (.rested true (resetRecord o x))).tripped y = if x = y then true else u.tripped y := hflags
  refine ⟨htab.trans h.tables, hlan.trans h.lanes, ?_, fun y => ?_, hqueue.trans h.queue, hpanel.trans h.panel, ?_, ?_, fun d => ?_,
    fun d q hq => ?_, hreasons, hwear, ?_⟩
  · show v.guard = { o.guard with rack := .safe .reset, trips := v.guard.trips }
    rw [hguard]
    show ({ u.guard with trips := (u.setTripped x true).guard.trips } : Guard) = _
    rw [h.guard]
  · show (v.setCtx x (.rested true (resetRecord o x))).ctx y = .rested (v.tripped y) (resetRecord o y)
    rw [State.ctx_setCtx, hflags]
    split
    · next e => subst e; rfl
    · exact hctx y
  · show { v.trunk with attn := v.trunk.attn.raised .guard } = _
    rw [hlists]
    show { u.trunk with attn := u.trunk.attn.raised .guard } = _
    have hany : allBuses.any (State.tripped (((v.setCtx x (.rested true (resetRecord o x))).post (.poke x)).raise .guard)) = true :=
      List.any_eq_true.2 ⟨x, List.mem_finRange x, (hflags x).trans (if_pos rfl)⟩
    have htrunk := h.trunk
    rw [hany]
    generalize resetBefore o = w at htrunk ⊢
    rw [htrunk]
    rfl
  · obtain ⟨fs, hfs⟩ := h.out
    refine ⟨fs ++ gs, ?_⟩
    show v.out = _
    rw [hgs, State.setTripped_out, hfs, List.append_assoc]
  · show (v.card d).ordinary = []
    rw [(hcards d).ordinary, orphan_ordinary]
    show (u.card d).ordinary.filter _ = []
    rw [h.ordinary d]; rfl
  · show (v.card d).pending = _ ∧ (v.card d).nextTag = _
    obtain ⟨h1, h2⟩ := h.pending d q hq
    obtain ⟨k1, k2⟩ := orphan_pending x h1
    obtain ⟨j1, j2⟩ := (hcards d).pending _ k1
    refine ⟨j1.trans (congrArg some ?_), j2.trans (k2.trans h2)⟩
    have hdone : q.after allBuses = { q with order := { q.order with answers := false } } := if_pos (List.mem_finRange _)
    rw [hdone]
    unfold PendingOrder.after
    split <;> rfl
  · exact hopened.atMatrix rfl

theorem foldl_evaluate_rested {o u : State} (l : List Bus) (h : AfterReset o u) : AfterReset o (l.foldl evaluate u) := by
  induction l generalizing u with
  | nil => exact h
  | cons x l ih =>
    refine ih ?_
    unfold evaluate
    split
    · next hn =>
      simp only [tripsNow, Bool.and_eq_true, Bool.not_eq_true'] at hn
      exact tripBus_rested h hn.1.2
    · exact h

/-! ### RACK RESET (O28) -/

theorem resetPanel_eq (s : State) : resetPanel s =
    { s with
      panel := if s.panel.state = .closing then { s.panel with state := .closed, foldPending := false } else s.panel
      trunk := { s.trunk with attn :=
        if s.panel.state = .closing then { s.trunk.attn with progress := true } else s.trunk.attn } } := by
  unfold resetPanel
  split <;> rfl

/-- The relays and the contexts before the queue, the panel and the flags (R196). -/
def resetWork (s : State) : State := allBuses.foldl resetCtx (allBuses.foldl emergencyOpen (resetSafe s))

/-- What RACK RESET has left before the trip flags are cleared. -/
structure ResetSoFar (s w : State) : Prop where
  rest : w = { resetSafe s with ctxs := w.ctxs, out := w.out, matrix := w.matrix, matrixWork := w.matrixWork }
  ctx : ∀ x, w.ctx x = .rested false (resetRecord s x)
  cancels : ∀ x, (s.ctx x).state = .measuring → s.channelUsable x = true →
    ((s.busEntry x).lane, .cancel (s.busEntry x).channel (s.ctx x).takeTag) ∈ w.out
  quiets : ∀ x, (s.busEntry x).kind = .source → s.channelUsable x = true →
    ((s.busEntry x).lane, .quiet (s.busEntry x).channel) ∈ w.out
  ordinary : ∀ d, (w.card d).ordinary = []
  pending : ∀ d q, (s.card d).pending = some q →
    (w.card d).pending = some (q.after allBuses) ∧ (w.card d).nextTag = (s.card d).nextTag
  reasons : ∀ d, (w.card d).rejectReason = (s.card d).rejectReason
  wear : ∀ x p, (w.xp x p).wear = (s.xp x p).wear
  opened : AllOpened s w

theorem resetWork_soFar (s : State) : ResetSoFar s (resetWork s) := by
  obtain ⟨h1, h2, h3, h4⟩ := foldl_emergencyOpen_all allBuses (resetSafe s)
  have hkeep : Keeps (fun _ => True) (resetSafe s) (allBuses.foldl emergencyOpen (resetSafe s)) := by
    have hfold : ∀ (l : List Bus) (u : State), Keeps (fun _ => True) (resetSafe s) u →
        Keeps (fun _ => True) (resetSafe s) (l.foldl emergencyOpen u) := by
      intro l
      induction l with
      | nil => exact fun _ h => h
      | cons y l ih => exact fun u h => ih _ (h.emergencyOpen y)
    exact hfold allBuses _ (.refl _)
  have hopen : AllOpened s (allBuses.foldl emergencyOpen (resetSafe s)) := fun x => by
    obtain ⟨k1, k2⟩ := foldl_emergencyOpen_opened (s := resetSafe s) allBuses (List.mem_finRange x) (.refl x _)
    exact ⟨k1, fun ho => ⟨(foldl_emergencyOpen_apart allBuses (resetSafe s) x).opens ho, k2 ho⟩⟩
  unfold resetWork
  generalize allBuses.foldl emergencyOpen (resetSafe s) = u at *
  obtain ⟨j1, j2, -, j4, j5⟩ := foldl_resetCtx_at allBuses u (List.nodup_finRange 8)
  have ht : u.tables = s.tables := h1.tables
  have hl : u.lanes = s.lanes := h1.lanes
  have hbus : ∀ x, u.busEntry x = s.busEntry x := fun x => by rw [State.busEntry, ht]; rfl
  have husable : ∀ x, u.channelUsable x = s.channelUsable x := fun x => by
    unfold State.channelUsable State.laneHasInstrument State.lane
    rw [hbus, hl]
  generalize allBuses.foldl resetCtx u = w at *
  have hmw : w.matrix = u.matrix := by rw [j1]
  have hcard : ∀ d, w.card d = u.card d := fun d => by rw [State.card, hmw]; rfl
  refine ⟨?_, fun x => ?_, fun x hm hu => ?_, fun x hk hu => ?_, fun d => ?_, fun d q hq => ?_, fun d => ?_, fun x p => ?_,
    hopen.atMatrix hmw⟩
  · unfold OnlyOrders at h1
    rw [j1]
    rw [h1]
  · rw [j2, if_pos (show x ∈ allBuses from List.mem_finRange x)]
    unfold resetRecord
    rw [hbus, husable]
  · have := j4 x (List.mem_finRange x) (by rw [(h2 x).1]; exact hm) (by rw [husable]; exact hu)
    rw [hbus, (h2 x).2] at this
    exact this
  · have := j5 x (List.mem_finRange x) (by rw [hbus]; exact hk) (by rw [husable]; exact hu)
    rw [hbus] at this
    exact this
  · rw [hcard]
    refine List.eq_nil_iff_forall_not_mem.2 (fun o ho => ?_)
    exact (h3 d o ho).2 (List.mem_finRange _)
  · rw [hcard]; exact h4 d q hq
  · rw [hcard]; exact hkeep.reasons d
  · rw [State.xp, hmw]; exact hkeep.wear _

theorem resetBefore_soFar (s : State) : resetBefore s = resetPanel (resetQueue (resetWork s)) := rfl

/-- The transmitter after the queue has been emptied: a RESULT frame is finished without its record (R153). -/
def resetTx : Option TxFrame → Option TxFrame
  | some (.result seq r _) => some (.result seq r false)
  | other => other

theorem resetBefore_shows (s : State) :
    resetBefore s = { resetWork s with
      queue := ResultQueue.initial
      panel := { s.panel with foldPending := false, state := if s.panel.state = .closing then .closed else s.panel.state }
      trunk := { s.trunk with
        attn := ⟨false, false, false, false, s.panel.state == .closing⟩, flowHold := false, tx := resetTx s.trunk.tx } } := by
  obtain ⟨hrest, -⟩ := resetWork_soFar s
  rw [resetBefore_soFar, resetPanel_eq]
  generalize resetWork s = w at *
  have hp : w.panel = s.panel := by rw [hrest]; rfl
  have ht : w.trunk = { s.trunk with attn := AttnSet.empty } := by rw [hrest]; rfl
  have hqp : (resetQueue w).panel = { s.panel with foldPending := false } := by
    show ({ w.panel with foldPending := false } : Panel) = _
    rw [hp]
  have hqt : (resetQueue w).trunk = { s.trunk with attn := AttnSet.empty, flowHold := false, tx := resetTx s.trunk.tx } := by
    show ({ w.trunk with flowHold := false, tx := resetTx w.trunk.tx } : Trunk) = _
    rw [ht]
  rw [hqp, hqt]
  dsimp only
  by_cases hc : s.panel.state = .closing
  · rw [hc]
    rfl
  · rw [if_neg hc, if_neg hc, if_neg hc, show (s.panel.state == .closing) = false from beq_false_of_ne hc]
    rfl

/-- Every trip flag is clear. -/
def Guard.cleared (g : Guard) : Guard := { g with trips := Vector.replicate 8 false }

/-- The flags are cleared (R61). -/
def flagsCleared (s : State) : State := (resetBefore s).modGuard Guard.cleared

theorem cleared_own (b : State) : (b.modGuard Guard.cleared).queue = b.queue ∧ (b.modGuard Guard.cleared).panel = b.panel ∧
    (b.modGuard Guard.cleared).trunk = b.trunk ∧ (b.modGuard Guard.cleared).out = b.out ∧
    (b.modGuard Guard.cleared).matrix = b.matrix ∧ (b.modGuard Guard.cleared).tables = b.tables ∧
    (b.modGuard Guard.cleared).lanes = b.lanes ∧ (b.modGuard Guard.cleared).ctxs = b.ctxs ∧
    (b.modGuard Guard.cleared).guard = { b.guard with trips := (b.modGuard Guard.cleared).guard.trips } :=
  ⟨rfl, rfl, rfl, rfl, rfl, rfl, rfl, rfl, rfl⟩

theorem flagsCleared_after (s : State) : AfterReset s (flagsCleared s) := by
  obtain ⟨h1, h2, h3, h4, h5, h6, h7, h8, h9⟩ := resetWork_soFar s
  have hshow := resetBefore_shows s
  have hno : ∀ x, (flagsCleared s).tripped x = false := fun x => Vector.getElem_replicate _
  have hany : allBuses.any (flagsCleared s).tripped = false := List.any_eq_false.2 (fun x _ => by rw [hno]; decide)
  have hown : (flagsCleared s).queue = (resetBefore s).queue ∧ (flagsCleared s).panel = (resetBefore s).panel ∧
      (flagsCleared s).trunk = (resetBefore s).trunk ∧ (flagsCleared s).out = (resetBefore s).out ∧
      (flagsCleared s).matrix = (resetBefore s).matrix ∧ (flagsCleared s).tables = (resetBefore s).tables ∧
      (flagsCleared s).lanes = (resetBefore s).lanes ∧ (flagsCleared s).ctxs = (resetBefore s).ctxs ∧
      (flagsCleared s).guard = { (resetBefore s).guard with trips := (flagsCleared s).guard.trips } :=
    cleared_own (resetBefore s)
  obtain ⟨k1, k2, k3, k4, k5, k6, k7, k8, k9⟩ := hown
  have hclear : (resetBefore s).trunk.attn.guard = false := by rw [hshow]
  generalize flagsCleared s = v at *
  have hm : v.matrix = (resetWork s).matrix := k5.trans (by rw [hshow])
  have htab : v.tables = (resetWork s).tables := k6.trans (by rw [hshow])
  have hlan : v.lanes = (resetWork s).lanes := k7.trans (by rw [hshow])
  have hctx : v.ctxs = (resetWork s).ctxs := k8.trans (by rw [hshow])
  have hgrd : (resetBefore s).guard = (resetWork s).guard := by rw [hshow]
  generalize resetWork s = w at *
  have hcard : ∀ d, v.card d = w.card d := fun d => by rw [State.card, hm]; rfl
  refine ⟨?_, ?_, ?_, fun x => ?_, k1, k2, ?_, ⟨[], by rw [k4, List.append_nil]⟩, fun d => ?_, fun d q hq => ?_, fun d => ?_,
    fun x p => ?_, h9.atMatrix hm⟩
  · rw [htab, h1]; rfl
  · rw [hlan, h1]; rfl
  · rw [k9, hgrd, h1]; rfl
  · rw [hno, State.ctx, hctx]; exact h2 x
  · rw [k3, hany, ← hclear]
  · rw [hcard]; exact h5 d
  · rw [hcard]; exact h6 d q hq
  · rw [hcard]; exact h7 d
  · rw [State.xp, hm]; exact h8 x p

theorem reset_ctx (x : Bus) : State.reset.ctx x = Ctx.initial := Vector.getElem_replicate _

/-- The end of RACK RESET: the contexts are at rest, and only opens that were listed are sent. -/
theorem finish_rested {o v : State} (hd : Dormant v) (hp : v.panel.state ≠ .closing) (ho : AllOpened o v) (hsafe : v.isSafe = true) :
    (finish v).ctxs = v.ctxs ∧ (finish v).queue = v.queue ∧ (finish v).panel = v.panel ∧ (finish v).trunk.attn = v.trunk.attn ∧
      (finish v).trunk.flowHold = v.trunk.flowHold ∧ (∀ f, v.trunk.tx = some f → (finish v).trunk.tx = some f) ∧
      (∀ d, (v.card d).Stands ((finish v).card d)) ∧ AllOpened o (finish v) ∧ ∃ fs, (finish v).out = v.out ++ fs := by
  obtain ⟨h1, h2, h3, h4, h5, h6⟩ := drain_dormant drainBound hd
  have kd := drain_keeps v
  have rd : Run False True (fun _ => True) v (drain drainBound v) := Run.drain drainBound trivial (fun _ => trivial) .refl
  have hbar : ∀ x, v.barred x ≠ none := fun x => by unfold State.barred; rw [if_pos hsafe]; simp
  have hapart : ∀ x, Apart x v (drain drainBound v) := fun x =>
    .of_run kd rd (.inr ⟨hbar x, fun r => by rw [hd.request x]; simp⟩)
  obtain ⟨fs, hfs⟩ := (hapart 0).out
  have hfin : finish v = pump (drain drainBound v) := by
    rw [finish, panelCheck_id (by rw [h4]; exact hp)]
  rw [hfin]
  generalize drain drainBound v = u at *
  refine ⟨by rw [pump_ctxs, h1], by rw [pump_queue, h3], by rw [pump_panel, h4], by rw [pump_attn, h2], by rw [pump_flowHold, h2],
    fun f hf => ?_, fun d => ?_, ?_, ⟨fs, by rw [pump_out, hfs]⟩⟩
  · rw [← h2] at hf
    rw [pump_busy (by rw [hf]; rfl)]
    exact hf
  · have hc : (pump u).card d = u.card d := by rw [State.card, pump_matrix]; rfl
    rw [hc]; exact h6 d
  · exact (ho.apart hapart).atMatrix (pump_matrix u)

theorem asserted_of {s t : State} (ht : t.tables = s.tables) (hi : t.guard.instTrips = s.guard.instTrips)
    (hp : t.guard.tripIn = s.guard.tripIn) (hf : t.guard.fx = s.guard.fx) (x : Bus) : asserted t x = asserted s x := by
  have hbus : t.busEntry x = s.busEntry x := by rw [State.busEntry, ht]; rfl
  simp only [asserted, hbus, hi, hp, hf]

/-- The flags after RACK RESET are those of the sources still asserted (R61). -/
theorem resetTrips_after (s : State) : AfterReset s (resetTrips (resetBefore s)) ∧
    ∀ x, (resetTrips (resetBefore s)).tripped x = ((s.busEntry x).enabled && asserted s x) := by
  have heq : resetTrips (resetBefore s) = allBuses.foldl evaluate (flagsCleared s) := rfl
  have hbase := flagsCleared_after s
  have hno : ∀ x, (flagsCleared s).tripped x = false := fun x => Vector.getElem_replicate _
  rw [heq]
  generalize flagsCleared s = w at *
  refine ⟨foldl_evaluate_rested allBuses hbase, fun x => ?_⟩
  have hbus : w.busEntry x = s.busEntry x := by rw [State.busEntry, hbase.tables]; rfl
  have hsame : asserted w x = asserted s x :=
    asserted_of hbase.tables (by rw [hbase.guard]) (by rw [hbase.guard]) (by rw [hbase.guard]) x
  rw [(foldl_evaluated allBuses w).flags, hno, hbus, hsame,
    show decide (x ∈ allBuses) = true from decide_eq_true (List.mem_finRange x)]
  simp

/-- The state that RACK RESET is answered in: SITE with a delta set, and the response (R188, R196). -/
def resetAnswered (u : State) (tag : Half) : State :=
  { u with trunk := { u.trunk with
    attn := { u.trunk.attn with site := u.trunk.attn.site || anyDelta u }
    responses := u.trunk.responses ++ [⟨tag, 0x0B#8, .ok, [], none⟩] } }

theorem rackReset_answered (s : State) (tag : Half) :
    (rackReset s).respond tag 0x0B#8 .ok [] = resetAnswered (resetTrips (resetBefore s)) tag := by
  rw [rackReset_eq]
  generalize resetTrips (resetBefore s) = u
  unfold resetAnswered
  cases hdelta : anyDelta u with
  | true => rw [if_pos rfl, Bool.or_true]; rfl
  | false => rw [if_neg (by decide), Bool.or_false]; rfl

/-- RACK RESET: settles O28, by what stands before its flags are evaluated, the evaluation, and the rest that follows. -/
theorem rackResetLeavesARestingRack : Obligations.RackResetLeavesARestingRack := by
  unfold Obligations.RackResetLeavesARestingRack
  intro s tag hroom
  have hexec : exec (.rackReset tag []) s = .next (finish ((rackReset s.begin).respond tag 0x0B#8 .ok [])) :=
    exec_ran (c := .rackReset tag []) (kind := 0x0B#8) rfl hroom rfl rfl
  obtain ⟨hafter, hflags⟩ := resetTrips_after s.begin
  obtain ⟨hrest, hctx0, hcancel, hquiet, -⟩ := resetWork_soFar s.begin
  have hshow := resetBefore_shows s.begin
  have hout0 : (resetBefore s.begin).out = (resetWork s.begin).out := by rw [hshow]
  rw [rackReset_answered] at hexec
  generalize resetTrips (resetBefore s.begin) = u at *
  have hdorm : Dormant (resetAnswered u tag) := ⟨hafter.dormant.rested, hafter.dormant.ordinary⟩
  have hpanel : (resetAnswered u tag).panel = { s.panel with
      foldPending := false, state := if s.panel.state = .closing then .closed else s.panel.state } := by
    rw [show (resetAnswered u tag).panel = u.panel from rfl, hafter.panel, hshow]; rfl
  have hnotClosing : (resetAnswered u tag).panel.state ≠ .closing := by
    rw [hpanel]
    dsimp only
    split
    · decide
    · next hc => exact hc
  have hleave := finish_leaves (resetAnswered u tag)
  have hguard := finish_guard (resetAnswered u tag)
  have hresp := finish_responses (resetAnswered u tag)
  obtain ⟨e1, e2, e3, e4, e5, e6, e7, e8, gs, e9⟩ := finish_rested hdorm hnotClosing
    (hafter.opened.atMatrix (v := resetAnswered u tag) rfl) (by
      show u.isSafe = true
      unfold State.isSafe
      rw [hafter.guard])
  obtain ⟨fs, hfs⟩ := hafter.out
  have htrunk : (resetAnswered u tag).trunk = { s.trunk with
      attn := ⟨allBuses.any u.tripped, false, false, anyDelta u, s.panel.state == .closing⟩
      flowHold := false
      tx := resetTx s.trunk.tx
      responses := s.trunk.responses ++ [⟨tag, 0x0B#8, .ok, [], none⟩] } := by
    show ({ u.trunk with attn := _, responses := _ } : Trunk) = _
    rw [hafter.trunk, hshow]
    rfl
  have hsent : ∀ {e}, e ∈ (resetWork s.begin).out → e ∈ (finish (resetAnswered u tag)).out := fun he => by
    rw [e9]
    refine List.mem_append_left _ ?_
    show _ ∈ u.out
    rw [hfs, hout0]
    exact List.mem_append_left _ he
  have hdelta : anyDelta u = anyDelta s := by
    unfold anyDelta
    rw [hafter.guard]
    rfl
  have hua : (resetAnswered u tag).tables = u.tables ∧ (resetAnswered u tag).lanes = u.lanes ∧
      (resetAnswered u tag).guard = u.guard ∧ (resetAnswered u tag).ctxs = u.ctxs ∧ (resetAnswered u tag).queue = u.queue ∧
      (resetAnswered u tag).matrix = u.matrix := ⟨rfl, rfl, rfl, rfl, rfl, rfl⟩
  generalize resetAnswered u tag = v at *
  obtain ⟨v1, v2, v3, v4, v5, v6⟩ := hua
  have htripped : ∀ x, (finish v).tripped x = u.tripped x := fun x => by rw [State.tripped, hguard, v3]; rfl
  have hctx : ∀ x, (finish v).ctx x = .rested (u.tripped x) (resetRecord s.begin x) := fun x => by
    rw [State.ctx, e1, v4]; exact hafter.ctx x
  have hcard : ∀ d, v.card d = u.card d := fun d => by rw [State.card, v6]; rfl
  have hq : (finish v).queue = ResultQueue.initial := by rw [e2, v5, hafter.queue, hshow]
  have hsrc : ∀ x, ((finish v).ctx x).source = resetRecord s.begin x := fun x => by rw [hctx]; rfl
  refine ⟨finish v, hexec, ?_, ?_, fun x => ?_, fun x => ?_, fun x => ?_, fun x => ⟨fun hk => ?_, fun hk hu => ⟨?_, ?_⟩, fun hk hu => ?_⟩,
    fun x hm hu => hsent (hcancel x hm hu), fun ho x => ((e8 x).2 ho).2, fun x p => ⟨(e8 x).1 p, ?_⟩, fun c => ⟨?_, ?_, fun q hq => ?_⟩,
    hq, hq, ?_, ?_, fun seq r here htx => ?_, ?_, ?_, ?_, ?_, ?_, ?_⟩
  · rw [Answered, hresp, htrunk]
  · rw [hguard, v3]; exact hafter.guard
  · rw [htripped]; exact hflags x
  · rw [reset_ctx, htripped, hctx]; rfl
  · rw [reset_ctx]; exact ⟨rfl, rfl, rfl, rfl, rfl, rfl, rfl, rfl, rfl, rfl, rfl, rfl, rfl, rfl, rfl⟩
  · rw [hsrc]; exact if_neg (fun h => hk h.1)
  · rw [hsrc]; exact if_neg (fun h => absurd (hu.symm.trans h.2) (by decide))
  · exact hsent (hquiet x hk hu)
  · rw [hsrc]; exact if_pos ⟨hk, hu⟩
  · rw [hleave.2.2.2.2.1 x p, State.xp, v6]; exact hafter.wear x p
  · rw [(e7 c).ordinary, hcard]; exact hafter.ordinary c
  · rw [hleave.2.2.2.2.2.1 c, hcard]; exact hafter.reasons c
  · obtain ⟨k1, k2⟩ := hafter.pending c q hq
    obtain ⟨j1, j2⟩ := (e7 c).pending _ (by rw [hcard]; exact k1)
    refine ⟨j1.trans (congrArg some (if_pos (List.mem_finRange _))), j2.trans ?_⟩
    rw [hcard]; exact k2
  · rw [e5, htrunk]
  · rw [e3, hpanel]
  · refine e6 _ ?_
    rw [htrunk, htx]
    rfl
  · rw [hleave.1, v1]; exact hafter.tables
  · rw [hleave.2.1, v2]; exact hafter.lanes
  · rw [e3, hpanel]
  · rw [e3, hpanel]
  · rw [e3, hpanel]
  · rw [e4, htrunk, hdelta]
    have hany : allBuses.any u.tripped = allBuses.any (finish v).tripped :=
      List.any_congr rfl (fun x => (htripped x).symm)
    rw [hany]

end Sys2Proof.Machine
end

