-- ==== Sys2Proof/Proofs/Sweeps.lean ====
section
/-!
PROOFS. Sweep advance (spec/05): the cells a walk has left, the first of them that hands a site on, and what a context does
with it: it begins the site, or gives the END of the sweep.
-/

namespace Sys2Proof.Machine

/-! ### The cells a walk has left (R93) -/

/-- The columns or rows from `a` to `b`, rising. -/
def span (a b : Fin 8) : List (Fin 8) := (List.finRange 8).filter (fun i => a ≤ i ∧ i ≤ b)

/-- Those of a span up to `b` that come after `a`. -/
def spanAfter (a b : Fin 8) : List (Fin 8) := if a < b then span (a + 1) b else []

theorem span_cons {a b : Fin 8} (h : a ≤ b) : span a b = a :: spanAfter a b := by
  revert a b; decide

theorem span_split {a b c : Fin 8} (h : a ≤ c) (h' : c ≤ b) : ∃ l, span a b = l ++ c :: spanAfter c b ∧ c ∉ l := by
  have hall : ∀ a b c : Fin 8, a ≤ c → c ≤ b →
      span a b = (span a b).takeWhile (· != c) ++ c :: spanAfter c b ∧ c ∉ (span a b).takeWhile (· != c) := by decide
  exact ⟨_, hall a b c h h'⟩

theorem drop_dropWhile {α : Type} [BEq α] [LawfulBEq α] {l r : List α} {c : α} (h : c ∉ l) :
    ((l ++ c :: r).dropWhile (· != c)).drop 1 = r := by
  rw [List.dropWhile_append_of_pos (fun e he => by simpa using fun (hc : e = c) => h (hc ▸ he))]
  simp

/-- The cells of a walk over outer and inner coordinates that come after one cell. -/
theorem left_of_walk {f : Fin 8 → Fin 8 → Fin 8 × Fin 8} (hf : ∀ a b a' b', f a b = f a' b' → a = a' ∧ b = b') {o0 o1 i0 i1 o i : Fin 8}
    (ho : o0 ≤ o) (ho' : o ≤ o1) (hi : i0 ≤ i) (hi' : i ≤ i1) :
    (((span o0 o1).flatMap (fun a => (span i0 i1).map (f a))).dropWhile (· != f o i)).drop 1 =
      (spanAfter i i1).map (f o) ++ (spanAfter o o1).flatMap (fun a => (span i0 i1).map (f a)) := by
  obtain ⟨lo, hlo, hno⟩ := span_split ho ho'
  obtain ⟨li, hli, hni⟩ := span_split hi hi'
  have hwalk : (span o0 o1).flatMap (fun a => (span i0 i1).map (f a)) =
      (lo.flatMap (fun a => (span i0 i1).map (f a)) ++ li.map (f o)) ++ f o i ::
        ((spanAfter i i1).map (f o) ++ (spanAfter o o1).flatMap (fun a => (span i0 i1).map (f a))) := by
    rw [hlo, List.flatMap_append, List.flatMap_cons]
    conv => lhs; arg 2; arg 1; rw [hli]
    simp only [List.map_append, List.map_cons, List.append_assoc, List.cons_append]
  rw [hwalk]
  refine drop_dropWhile (fun hmem => ?_)
  rcases List.mem_append.1 hmem with h | h
  · obtain ⟨a, ha, hm⟩ := List.mem_flatMap.1 h
    obtain ⟨b, _, he⟩ := List.mem_map.1 hm
    exact hno ((hf _ _ _ _ he).1 ▸ ha)
  · obtain ⟨b, hb, he⟩ := List.mem_map.1 h
    exact hni ((hf _ _ _ _ he).2 ▸ hb)

theorem Window.walk_rows (w : Window) : w.walk .rows = (span w.r0 w.r1).flatMap (fun r => (span w.c0 w.c1).map (fun c => (c, r))) := rfl

theorem Window.walk_columns (w : Window) :
    w.walk .columns = (span w.c0 w.c1).flatMap (fun c => (span w.r0 w.r1).map (fun r => (c, r))) := rfl

theorem Sweep.left_rows {w : Sweep} {c r : Fin 8} (h : w.OnWalk) (ha : w.axis = .rows) (hc : w.cursor = some (c, r)) :
    w.left = (spanAfter c w.window.c1).map (fun c => (c, r)) ++
      (spanAfter r w.window.r1).flatMap (fun r => (span w.window.c0 w.window.c1).map (fun c => (c, r))) := by
  obtain ⟨⟨h1, h2⟩, h3, h4⟩ := (Window.mem_walk ..).1 (h.2 _ hc)
  rw [Sweep.left, hc, ha]
  exact left_of_walk (f := fun r c => (c, r)) (fun _ _ _ _ h => by cases h; exact ⟨rfl, rfl⟩) h3 h4 h1 h2

theorem Sweep.left_columns {w : Sweep} {c r : Fin 8} (h : w.OnWalk) (ha : w.axis = .columns) (hc : w.cursor = some (c, r)) :
    w.left = (spanAfter r w.window.r1).map (fun r => (c, r)) ++
      (spanAfter c w.window.c1).flatMap (fun c => (span w.window.r0 w.window.r1).map (fun r => (c, r))) := by
  obtain ⟨⟨h1, h2⟩, h3, h4⟩ := (Window.mem_walk ..).1 (h.2 _ hc)
  rw [Sweep.left, hc, ha]
  exact left_of_walk (f := fun c r => (c, r)) (fun _ _ _ _ h => by cases h; exact ⟨rfl, rfl⟩) h1 h2 h3 h4

/-- The walk with its cursor at a cell. -/
def Sweep.at (w : Sweep) (cell : Fin 8 × Fin 8) : Sweep := { w with cursor := some cell }

theorem Sweep.at_onWalk {w : Sweep} (h : w.OnWalk) {cell : Fin 8 × Fin 8} (hn : w.nextCell = some cell) : (w.at cell).OnWalk :=
  ⟨h.1, fun _ hc => by cases hc; exact Sweep.nextCell_mem h hn⟩

theorem spanAfter_nil {a b : Fin 8} (h : ¬ a < b) : spanAfter a b = [] := if_neg h

theorem spanAfter_cons {a b : Fin 8} (h : a < b) : spanAfter a b = (a + 1) :: spanAfter (a + 1) b := by
  revert a b; decide

/-- The next cell is the first one left, and leaves the others (R93). -/
theorem Sweep.left_eq {w : Sweep} (h : w.OnWalk) :
    (w.nextCell = none ∧ w.left = []) ∨ ∃ cell, w.nextCell = some cell ∧ w.left = cell :: (w.at cell).left := by
  obtain ⟨hc, hr⟩ := h.1
  have hstep : ∀ cell, w.nextCell = some cell → w.left = cell :: (w.at cell).left →
      (w.nextCell = none ∧ w.left = []) ∨ ∃ cell, w.nextCell = some cell ∧ w.left = cell :: (w.at cell).left := fun cell h1 h2 =>
    .inr ⟨cell, h1, h2⟩
  cases hcur : w.cursor with
  | none =>
    have hn : w.nextCell = some (w.window.c0, w.window.r0) := by rw [Sweep.nextCell, hcur]
    refine hstep _ hn ?_
    cases ha : w.axis with
    | rows =>
      rw [Sweep.left_rows (w := w.at _) (Sweep.at_onWalk h hn) ha rfl, Sweep.left, hcur, ha]
      dsimp only [Sweep.at]
      rw [Window.walk_rows, span_cons hr, List.flatMap_cons, span_cons hc]
      rfl
    | columns =>
      rw [Sweep.left_columns (w := w.at _) (Sweep.at_onWalk h hn) ha rfl, Sweep.left, hcur, ha]
      dsimp only [Sweep.at]
      rw [Window.walk_columns, span_cons hc, List.flatMap_cons, span_cons hr]
      rfl
  | some cell =>
    obtain ⟨c, r⟩ := cell
    cases ha : w.axis with
    | rows =>
      rw [Sweep.left_rows h ha hcur]
      by_cases h1 : c < w.window.c1
      · have hn : w.nextCell = some (c + 1, r) := by rw [Sweep.nextCell, hcur, ha]; exact if_pos h1
        exact .inr ⟨_, hn, by
          rw [Sweep.left_rows (w := w.at _) (Sweep.at_onWalk h hn) ha rfl, spanAfter_cons h1]; rfl⟩
      · by_cases h2 : r < w.window.r1
        · have hn : w.nextCell = some (w.window.c0, r + 1) := by
            rw [Sweep.nextCell, hcur, ha]; exact (if_neg h1).trans (if_pos h2)
          exact .inr ⟨_, hn, by
            rw [Sweep.left_rows (w := w.at _) (Sweep.at_onWalk h hn) ha rfl, spanAfter_nil h1, spanAfter_cons h2, List.flatMap_cons]
            dsimp only [Sweep.at]
            rw [span_cons hc]; rfl⟩
        · exact .inl ⟨by rw [Sweep.nextCell, hcur, ha]; exact (if_neg h1).trans (if_neg h2), by
            rw [spanAfter_nil h1, spanAfter_nil h2]; rfl⟩
    | columns =>
      rw [Sweep.left_columns h ha hcur]
      by_cases h1 : r < w.window.r1
      · have hn : w.nextCell = some (c, r + 1) := by rw [Sweep.nextCell, hcur, ha]; exact if_pos h1
        exact .inr ⟨_, hn, by
          rw [Sweep.left_columns (w := w.at _) (Sweep.at_onWalk h hn) ha rfl, spanAfter_cons h1]; rfl⟩
      · by_cases h2 : c < w.window.c1
        · have hn : w.nextCell = some (c + 1, w.window.r0) := by
            rw [Sweep.nextCell, hcur, ha]; exact (if_neg h1).trans (if_pos h2)
          exact .inr ⟨_, hn, by
            rw [Sweep.left_columns (w := w.at _) (Sweep.at_onWalk h hn) ha rfl, spanAfter_nil h1, spanAfter_cons h2, List.flatMap_cons]
            dsimp only [Sweep.at]
            rw [span_cons hr]; rfl⟩
        · exact .inl ⟨by rw [Sweep.nextCell, hcur, ha]; exact (if_neg h1).trans (if_neg h2), by
            rw [spanAfter_nil h1, spanAfter_nil h2]; rfl⟩

/-- A window has at most 64 cells (R96). -/
theorem Sweep.left_length {w : Sweep} : w.left.length ≤ 64 := by
  have hspan : ∀ a b : Fin 8, (span a b).length ≤ 8 := fun a b => (List.length_filter_le _ _).trans (by rw [List.length_finRange])
  have hwalk : ∀ (o0 o1 i0 i1 : Fin 8) (f : Fin 8 → Fin 8 → Fin 8 × Fin 8),
      ((span o0 o1).flatMap (fun a => (span i0 i1).map (f a))).length ≤ 64 := fun o0 o1 i0 i1 f => by
    rw [List.length_flatMap]
    simp only [List.length_map, List.map_const', List.sum_replicate, smul_eq_mul]
    exact Nat.mul_le_mul (hspan o0 o1) (hspan i0 i1)
  have hall : (w.window.walk w.axis).length ≤ 64 := by
    cases w.axis
    · exact hwalk _ _ _ _ _
    · exact hwalk _ _ _ _ _
  unfold Sweep.left
  split
  · exact hall
  · exact ((List.drop_sublist _ _).trans (List.dropWhile_sublist _)).length_le.trans hall

/-! ### The first cell that hands a site on (R97) -/

theorem eligible_iff {s : State} {w : Sweep} {cell : Fin 8 × Fin 8} {u : Site} :
    eligible s w cell = some u ↔ HandedOn s w cell u := by
  unfold eligible HandedOn
  cases s.siteAtCell cell.1 cell.2 with
  | none => simp
  | some t =>
    constructor
    · intro h
      dsimp only at h
      split at h
      · next hc => cases h; simpa [and_assoc] using hc
      · cases h
    · rintro ⟨⟨⟩, h1, h2, h3⟩
      simp [h1, h2, h3]

theorem eligible_none {s : State} {w : Sweep} {cell : Fin 8 × Fin 8} (h : ∀ u, ¬ HandedOn s w cell u) :
    eligible s w cell = none := by
  cases he : eligible s w cell with
  | none => rfl
  | some u => exact absurd (eligible_iff.1 he) (h u)

/-- Advance comes to the first cell left that hands a site on (R97). -/
theorem advance_finds {s : State} {u : Site} {cell : Fin 8 × Fin 8} {after before : List (Fin 8 × Fin 8)} {n : Nat} {w : Sweep}
    (h : w.OnWalk) (hl : w.left = before ++ cell :: after) (hb : ∀ e ∈ before, ∀ v, ¬ HandedOn s w e v) (hu : HandedOn s w cell u)
    (hn : before.length < n) : advance s n w = (w.at cell, some u) := by
  induction n generalizing w before with
  | zero => exact absurd hn (Nat.not_lt_zero _)
  | succ n ih =>
    rcases Sweep.left_eq h with ⟨_, hnil⟩ | ⟨next, hnext, hleft⟩
    · rw [hl] at hnil; simp at hnil
    · rw [hl] at hleft
      rw [advance, hnext]
      dsimp only
      cases before with
      | nil =>
        obtain ⟨rfl, -⟩ := List.cons.inj hleft
        rw [show eligible s { w with cursor := some cell } cell = some u from eligible_iff.2 hu]
        rfl
      | cons e before =>
        obtain ⟨rfl, htail⟩ := List.cons.inj hleft
        rw [show eligible s { w with cursor := some e } e = none from eligible_none (hb e (List.mem_cons_self ..))]
        exact ih (w := w.at e) (Sweep.at_onWalk h hnext) htail.symm (fun a ha => hb a (List.mem_cons_of_mem _ ha)) hu
          (Nat.lt_of_succ_lt_succ hn)

/-- Where no cell left hands a site on, advance passes the last one (R96). -/
theorem advance_ends {s : State} {n : Nat} {w : Sweep} (h : w.OnWalk) (hb : ∀ e ∈ w.left, ∀ v, ¬ HandedOn s w e v) :
    ∃ c, advance s n w = ({ w with cursor := c }, none) := by
  induction n generalizing w with
  | zero => exact ⟨w.cursor, rfl⟩
  | succ n ih =>
    rcases Sweep.left_eq h with ⟨hnext, _⟩ | ⟨next, hnext, hleft⟩
    · rw [advance, hnext]; exact ⟨w.cursor, rfl⟩
    · rw [advance, hnext]
      dsimp only
      rw [show eligible s { w with cursor := some next } next = none from
        eligible_none (hb next (by rw [hleft]; exact List.mem_cons_self ..))]
      obtain ⟨c, hc⟩ := ih (w := w.at next) (Sweep.at_onWalk h hnext) (fun e he => hb e (by rw [hleft]; exact List.mem_cons_of_mem _ he))
      exact ⟨c, hc⟩

end Sys2Proof.Machine
end

