-- ==== Sys2Proof/Proofs/Steps.lean ====
section
/-!
PROOFS. What a context begins when it takes a step, starts a site or goes on with its sweep (spec/04, 4.3; spec/05): the first
frames and orders, or the record, of its work, also while other buses are still to look at what they may do.
-/

namespace Sys2Proof.Machine

/-! ### Other buses that look and find nothing -/

/-- All mail of `l` is for buses other than `x` that look at what they may do and find nothing (R67). -/
def NoCalls (s : State) (x : Bus) (l : List Mail) : Prop :=
  ∀ m ∈ l, ∃ y, y ≠ x ∧ m = .poke y ∧ (s.ctx y).queue = [] ∧ (s.ctx y).endPending = none ∧
    ((s.ctx y).state = .idle ∨ (s.ctx y).state = .holding)

theorem NoCalls.congr {s u : State} {x : Bus} {l : List Mail} (h : NoCalls s x l) (hu : ∀ y, y ≠ x → u.ctx y = s.ctx y) : NoCalls u x l := by
  intro m hm
  obtain ⟨y, hy, hmy, hrest⟩ := h m hm
  exact ⟨y, hy, hmy, by rw [hu y hy]; exact hrest⟩

theorem NoCalls.append {s : State} {x : Bus} {l l' : List Mail} (h : NoCalls s x l) (h' : NoCalls s x l') : NoCalls s x (l ++ l') :=
  fun m hm => (List.mem_append.1 hm).elim (h m) (h' m)

theorem noCalls_nil (s : State) (x : Bus) : NoCalls s x [] := nofun

/-- A bus with an empty queue and no END pending has nothing to do in READY (R67). -/
theorem poke_nothing {s : State} {x : Bus} (hsafe : s.isSafe = false) (hq : (s.ctx x).queue = []) (he : (s.ctx x).endPending = none)
    (hs : (s.ctx x).state = .idle ∨ (s.ctx x).state = .holding) : poke s x = s := by
  rcases hs with hs | hs
  · unfold poke
    rw [placeEnd_none (.inr he)]
    dsimp only
    rw [hs, hq]
    rfl
  · exact poke_holding hs he hq hsafe

theorem NoCalls.delivers {s : State} {x : Bus} {l rest : List Mail} (h : NoCalls s x l) (hsafe : s.isSafe = false)
    (hw : s.matrixWork = []) (hm : s.mail = l ++ rest) : Delivers l.length s { s with mail := rest } := by
  induction l generalizing s with
  | nil =>
    rw [show ({ s with mail := rest } : State) = s by rw [show rest = s.mail from hm.symm]]
    exact .refl s
  | cons m l ih =>
    obtain ⟨y, hy, hmy, hq, he, hs⟩ := h m (List.mem_cons_self ..)
    have hpoke : doMail { s with mail := l ++ rest } m = { s with mail := l ++ rest } := by
      rw [hmy]
      exact poke_nothing (s := { s with mail := l ++ rest }) hsafe hq he hs
    refine .mail m (l ++ rest) hw hm ?_
    rw [hpoke]
    exact ih (s := { s with mail := l ++ rest }) (fun m hm => h m (List.mem_cons_of_mem _ hm)) hsafe hw rfl

/-- Outside SAFE nothing is left to do but looks of other buses that find nothing. -/
structure OthersCalm (s : State) (x : Bus) : Prop where
  work : s.matrixWork = []
  mail : NoCalls s x s.mail
  few : s.mail.length ≤ 8
  notSafe : s.isSafe = false

theorem othersCalm_of_quiesced {s : State} (h : Quiesced s) (hs : s.isSafe = false) (x : Bus) : OthersCalm s x :=
  ⟨h.1, by rw [h.2]; exact noCalls_nil s x, by rw [h.2]; exact Nat.zero_le _, hs⟩

theorem OthersCalm.setCtx {s : State} {x : Bus} (h : OthersCalm s x) (c : Ctx) : OthersCalm (s.setCtx x c) x :=
  ⟨h.work, h.mail.congr (fun _ hy => (State.ctx_setCtx _ _ _ _).trans (if_neg (Ne.symm hy))), h.few, h.notSafe⟩

/-- From `v` the command comes to `w`, but for the trunk controller, and more buses than `w` says may still look and find
nothing. -/
structure Comes (s : State) (x : Bus) (v w : State) : Prop where
  delivers : ∃ k l τ, k ≤ 16 ∧ l.length ≤ 8 ∧ NoCalls s x l ∧ Delivers k v { w with mail := w.mail ++ l, trunk := τ }

theorem comes_of_delivers {s v w : State} {k : Nat} (h : Delivers k v w) (hk : k ≤ 16) (x : Bus) : Comes s x v w :=
  ⟨k, [], w.trunk, hk, Nat.zero_le _, noCalls_nil s x, by rw [List.append_nil]; exact h⟩

/-- A command that is answered comes to the state that its owner leaves. -/
theorem comes_responded (s w : State) (x : Bus) (tag : Half) (kind : Byte) (st : Status) (d : List Byte) :
    Comes s x (w.respond tag kind st d) w :=
  ⟨0, [], (w.respond tag kind st d).trunk, Nat.zero_le _, Nat.zero_le _, noCalls_nil s x, by rw [List.append_nil]; exact .refl _⟩

theorem Comes.congr {s u v w : State} {x : Bus} (h : Comes s x v w) (hu : ∀ y, y ≠ x → u.ctx y = s.ctx y) : Comes u x v w := by
  obtain ⟨k, l, τ, hk, hl, hn, hd⟩ := h
  exact ⟨k, l, τ, hk, hl, hn.congr hu, hd⟩

/-- `w` is `s` but for what the work of bus `x` has done; no other bus has been touched. -/
structure Beside (s : State) (x : Bus) (w : State) : Prop where
  work : w.matrixWork = []
  guard : w.guard = s.guard
  others : ∀ y, y ≠ x → w.ctx y = s.ctx y

theorem Beside.notSafe {s w : State} {x : Bus} (h : Beside s x w) (hs : s.isSafe = false) : w.isSafe = false :=
  by rw [State.isSafe, h.guard]; exact hs

theorem Comes.comesTo {s v w : State} {x : Bus} (hc : OthersCalm s x) (h : Comes s x v w) : ComesTo s x v w := by
  intro hw hm hg ho
  obtain ⟨k, l, τ, hk, hl, hn, hd⟩ := h
  have hb : Beside s x w := ⟨hw, hg, ho⟩
  have hall : Delivers (s.mail ++ l).length { w with mail := w.mail ++ l, trunk := τ } { w with mail := [], trunk := τ } :=
    ((hc.mail.append hn).congr ho).delivers (s := { w with mail := w.mail ++ l, trunk := τ }) (rest := []) (hb.notSafe hc.notSafe) hw
      (by rw [hm, List.append_nil])
  have hends := (hd.trans hall).ends (t := { w with mail := [], trunk := τ }) ⟨hw, rfl⟩ (by
    have := hc.few
    rw [List.length_append]
    unfold drainBound
    omega)
  exact ⟨hends.tables, hends.matrix, hends.ctxs, hends.guard, hends.lanes, hends.markHigh, hends.out, hends.records, hends.idle⟩

/-- Bus `x` looks after the others that find nothing. -/
theorem NoCalls.looks {s : State} {x : Bus} {l l' : List Mail} (h : NoCalls s x l) (hsafe : s.isSafe = false) (hw : s.matrixWork = [])
    (hm : s.mail = l ++ .poke x :: l') : Delivers (l.length + 1) s (poke { s with mail := l' } x) :=
  (h.delivers hsafe hw hm).trans (.mail (.poke x) l' hw rfl (.refl _))

theorem Comes.looks {s v w : State} {x : Bus} (hc : OthersCalm s x) (h : Comes s x v (w.post (.poke x))) (hb : Beside s x w)
    (hm : w.mail = s.mail) : ∃ k l τ, k ≤ drainBound ∧ Delivers k v (poke { w with mail := l, trunk := τ } x) := by
  obtain ⟨k, l, τ, hk, hl, hn, hd⟩ := h
  have hmail : (w.post (.poke x)).mail ++ l = s.mail ++ (.poke x :: l) := by
    show (w.mail ++ [.poke x]) ++ l = _
    rw [hm, List.append_assoc]
    rfl
  have hlook := (hc.mail.congr hb.others).looks (s := { w.post (.poke x) with mail := (w.post (.poke x)).mail ++ l, trunk := τ })
    (hb.notSafe hc.notSafe) hb.work hmail
  have := hc.few
  exact ⟨k + (s.mail.length + 1), l, τ, by unfold drainBound; omega, hd.trans hlook⟩

/-- The records of a state that a command comes to are appended, and more may follow. -/
theorem Delivers.records {k : Nat} {v w : State} (h : Delivers k v w) (hk : k ≤ drainBound) :
    ∃ rs, (finish v).queue.records = w.queue.records ++ rs := by
  obtain ⟨rs, hrs, -⟩ := (Keeps.drain (drainBound - k) (Keeps.refl (Q := fun _ => False) w)).records
  obtain ⟨more, hmore, -⟩ := panelCheck_appends (Machine.drain drainBound v)
  refine ⟨rs ++ more, ?_⟩
  rw [finish, pump_queue, hmore, h.drainAll hk, hrs, List.append_assoc]

theorem Comes.records {s v w : State} {x : Bus} (h : Comes s x v w) : ∃ rs, (finish v).queue.records = w.queue.records ++ rs := by
  obtain ⟨k, l, τ, hk, -, -, hd⟩ := h
  exact hd.records (hk.trans (by unfold drainBound; omega))

/-! ### The END of a sweep (R99) -/

/-- An END that waits for the slot is placed once only. -/
theorem poke_placed (s : State) (x : Bus) : poke s x = poke (placeEnd s x) x := by
  have htwice : placeEnd (placeEnd s x) x = placeEnd s x := by
    by_cases hs : (s.ctx x).slot = none
    · cases he : (s.ctx x).endPending with
      | none => rw [placeEnd_none (.inr he), placeEnd_none (.inr he)]
      | some e =>
        refine placeEnd_none (.inr ?_)
        rw [placeEnd_some hs he, offered_ctx_self]
    · rw [placeEnd_none (.inl hs), placeEnd_none (.inl hs)]
  conv_rhs => rw [poke, htwice]
  rfl

theorem endRec_stamped (s : State) (x : Bus) (e : EndInfo) :
    (endRec s x e).stamped s.queue = endRecord s x e.tag e.judged e.kind := rfl

/-- A bus that looks with an END pending and its slot empty has it appended, where the queue has room (R99, R144). -/
theorem poke_end {s : State} {x : Bus} {e : EndInfo} (hs : (s.ctx x).slot = none) (he : (s.ctx x).endPending = some e)
    (hl : s.queue.records.length < 64) :
    ∃ rs, (poke s x).queue.records = s.queue.records ++ endRecord s x e.tag e.judged e.kind :: rs := by
  obtain ⟨rs, hrs, -⟩ := ((Keeps.refl (Q := fun _ => False) (placeEnd s x)).poke x).records
  have htaken : Slot.taken ⟨endRec s x e, false⟩ s = true := by rw [Slot.taken_record]; simpa using hl
  have hplaced : (placeEnd s x).queue.records = s.queue.records ++ [endRecord s x e.tag e.judged e.kind] := by
    rw [placeEnd_some hs he, offered_records s x _ _ rfl, if_pos htaken, ← endRec_stamped]
  exact ⟨rs, by rw [poke_placed, hrs, hplaced, List.append_assoc]; rfl⟩

/-- The context that has given the END of its sweep (R99). -/
def Ctx.sweepOver (c : Ctx) (kind : EndKind) : Ctx :=
  { c with endPending := some ⟨c.stepTag, c.sweep.judged.length, kind⟩, state := .posting, after := .act .proceed }

theorem sweepEnds_eq (s : State) (x : Bus) (kind : EndKind) :
    sweepEnds s x kind = (s.setCtx x ((s.ctx x).sweepOver kind)).post (.poke x) := rfl

theorem beside_setCtx {s : State} {x : Bus} (h : s.matrixWork = []) (c : Ctx) : Beside s x (s.setCtx x c) :=
  ⟨h, rfl, fun _ hy => (State.ctx_setCtx _ _ _ _).trans (if_neg (Ne.symm hy))⟩

/-- A sweep that ends has its END record appended (R96, R99). -/
theorem sweepEnds_record {s v : State} {x : Bus} {c : Ctx} {kind : EndKind} (hc : OthersCalm s x)
    (h : Comes s x v (sweepEnds (s.setCtx x c) x kind)) (hs : c.slot = none) (hl : s.queue.records.length < 64) :
    ∃ rs, (finish v).queue.records = s.queue.records ++ endRecord s x c.stepTag c.sweep.judged.length kind :: rs := by
  rw [sweepEnds_eq, State.ctx_setCtx_self, State.setCtx_setCtx] at h
  obtain ⟨k, l, τ, hk, hd⟩ := h.looks hc (beside_setCtx hc.work _) rfl
  obtain ⟨rs, hrs⟩ := hd.records hk
  have hctx : ∀ c', ({ s.setCtx x c' with mail := l, trunk := τ } : State).ctx x = c' := fun c' => State.ctx_setCtx_self s x c'
  obtain ⟨more, hmore⟩ := poke_end (s := { s.setCtx x (c.sweepOver kind) with mail := l, trunk := τ }) (x := x)
    (e := ⟨c.stepTag, c.sweep.judged.length, kind⟩) (by rw [hctx]; exact hs) (by rw [hctx]; rfl) hl
  exact ⟨more ++ rs, by rw [hrs, hmore, List.append_assoc]; rfl⟩

/-! ### The next site of a sweep (R96, R97) -/

theorem siteAtCell_enabled {s : State} {c r : Fin 8} {u : Site} (h : s.siteAtCell c r = some u) : (s.siteEntry u).enabled = true := by
  have := List.find?_some h
  simp only [Bool.and_eq_true] at this
  exact this.1.1

/-- The context whose sweep has passed the last cell of its window (R96). -/
def Ctx.pastWindow (c : Ctx) (cur : Option (Fin 8 × Fin 8)) : Ctx :=
  { c with sweep := { c.sweep with cursor := cur, status := .windowEnd }, resume := .none }

/-- Sweep advance begins the next site, or ends the sweep (R96, R97). -/
theorem nextSite_nextSite {s v : State} {x : Bus} {n : Net} {st : Step} (hc : OthersCalm s x) (hout : s.out = [])
    (hstep : (s.ctx x).step = some st) (hn : st.net? = some n) (hf : NetFits s x n) (hb : s.barred x = none)
    (hslot : (s.ctx x).slot = none) (h : Comes s x v (nextSite s x)) : NextSite s (finish v) x (s.ctx x) n := by
  intro hwalk
  refine ⟨fun before cell after u hleft hbefore hu => ?_, fun hnone hl => ?_⟩
  · have hlen : before.length < 65 := by
      have := Sweep.left_length (w := (s.ctx x).sweep)
      rw [hleft, List.length_append] at this
      omega
    obtain ⟨c, hcdef⟩ : ∃ c, c = { s.ctx x with sweep := (s.ctx x).sweep.at cell } := ⟨_, rfl⟩
    have hnext : nextSite s x = startSite (s.setCtx x c) x u := by
      unfold nextSite
      dsimp only
      rw [advance_finds hwalk hleft hbefore hu hlen, hcdef]
      rfl
    have hctx : (s.setCtx x c).ctx x = c := State.ctx_setCtx_self _ _ _
    rw [hnext] at h
    have hother : ∀ y, y ≠ x → (s.setCtx x c).ctx y = s.ctx y := fun _ hy => (State.ctx_setCtx _ _ _ _).trans (if_neg (Ne.symm hy))
    have hbegins := startSite_begins (s := s.setCtx x c) (x := x) (u := u) (n := n) (st := st) hc.work hout
      (by rw [hctx, hcdef]; exact hstep) hn (siteAtCell_enabled hu.1) hf hb ((h.congr hother).comesTo (hc.setCtx c))
    rw [hctx] at hbegins
    have halike : Alike s (s.setCtx x c) x := ⟨rfl, rfl, fun _ => rfl, rfl, rfl, rfl, rfl, hother⟩
    have hsrc : ((s.setCtx x c).ctx x).source = (s.ctx x).source := by rw [hctx, hcdef]
    have hsite := hbegins.alike halike hsrc
    rw [hcdef] at hsite
    exact hsite
  · obtain ⟨cur, hadv⟩ := advance_ends (n := 65) hwalk hnone
    have hnext : nextSite s x = sweepEnds (s.setCtx x ((s.ctx x).pastWindow cur)) x .windowEnd := by
      unfold nextSite
      dsimp only
      rw [hadv]
      rfl
    rw [hnext] at h
    exact sweepEnds_record (c := (s.ctx x).pastWindow cur) hc h hslot hl

end Sys2Proof.Machine
end

