-- ==== Sys2Proof/Proofs/StepsTaken.lean ====
section
/-!
PROOFS. What a step starts that a context takes from the head of its queue (spec/04, 4.3): its site, or INVALID where the site is
not available or its card has no lane; the first site of its sweep; or the end of a sweep that has nothing to continue.
-/

namespace Sys2Proof.Machine

/-! ### A site that cannot be begun (R15, R27) -/

/-- The context that has a site in flight, not yet resolved (R68). -/
def Ctx.headed (c : Ctx) (u : Site) : Ctx := { c with inFlight := some u, resume := .none, after := .none }

theorem resolve_disabled {s : State} {x : Bus} {u : Site} {n : Net} (h : (s.siteEntry u).enabled = false) : resolve s x u n = none := by
  simp [resolve, h]

theorem startSite_unresolved {s : State} {x : Bus} {u : Site} {n : Net} {st : Step} (hstep : (s.ctx x).step = some st)
    (hn : st.net? = some n) (hr : resolve s x u n = none) : startSite s x u =
      ((judgeInvalid (s.setCtx x ((s.ctx x).headed u)) x .notAvailable).modCtx x (fun c => { c with state := .posting })).post (.poke x) := by
  have hr' : resolve (s.modCtx x (fun c => c.headed u)) x u n = none := hr
  unfold startSite
  rw [hstep]
  dsimp only
  rw [hn]
  dsimp only
  rw [show resolve (s.modCtx x (fun c => { c with inFlight := some u, resume := .none, after := .none })) x u n = none from hr']
  rfl

/-- The record of an INVALID site as another state has it, where both agree in what the record takes from it. -/
structure SameRecord (o s : State) (x : Bus) : Prop where
  queue : s.queue = o.queue
  panel : s.panel.number = o.panel.number
  tables : s.tables = o.tables
  inFlight : (s.ctx x).inFlight = (o.ctx x).inFlight
  sweep : (s.ctx x).sweep = (o.ctx x).sweep

theorem SameRecord.stamped {o s : State} {x : Bus} {stag : Half} {sel : Selection} {n : Net} {lim : Fin 256} {k d timeout : Nat}
    {hold : Bool} (h : SameRecord o s x) (hstep : (s.ctx x).step = some ⟨stag, .measure sel n lim k d timeout hold⟩)
    (hcap : (s.ctx x).captured = none) (cause : Cause) :
    (invalidRec s x cause).stamped s.queue = invalidRecord o x stag o.tables.limits[lim].row false cause := by
  obtain ⟨hsite, htag, hrow, -⟩ := invalidRow_measure hstep
  obtain ⟨hr, hw⟩ := hrow hcap
  exact invalidRec_stamped h.queue h.panel h.tables h.inFlight h.sweep hsite htag (by rw [hr, h.tables]) hw

/-- A site that is not enabled is judged INVALID with cause NOT_AVAILABLE (R15). -/
theorem startSite_disabled {o s v : State} {x : Bus} {u : Site} {stag : Half} {sel : Selection} {n : Net} {lim : Fin 256}
    {k d timeout : Nat} {hold : Bool} (ho : SameRecord o (s.setCtx x ((s.ctx x).headed u)) x)
    (hstep : (s.ctx x).step = some ⟨stag, .measure sel n lim k d timeout hold⟩) (hcap : (s.ctx x).captured = none)
    (he : (s.siteEntry u).enabled = false) (hl : o.queue.records.length < 64) (h : Comes s x v (startSite s x u)) :
    ∃ rs, (finish v).queue.records =
      o.queue.records ++ invalidRecord o x stag o.tables.limits[lim].row false .notAvailable :: rs := by
  rw [startSite_unresolved hstep rfl (resolve_disabled he)] at h
  obtain ⟨rs, hrs⟩ := h.records
  have hctx : (s.setCtx x ((s.ctx x).headed u)).ctx x = (s.ctx x).headed u := State.ctx_setCtx_self _ _ _
  have hrec := ho.stamped (by rw [hctx]; exact hstep) (by rw [hctx]; exact hcap) .notAvailable
  generalize s.setCtx x ((s.ctx x).headed u) = w at ho hrec hrs
  refine ⟨rs, ?_⟩
  rw [hrs]
  show (judgeInvalid w x .notAvailable).queue.records ++ rs = _
  rw [judgeInvalid_records, ho.queue, if_pos hl, ← ho.queue, hrec, List.append_assoc]
  rfl

theorem points_of_target {s : State} {x : Bus} {u : Site} {n : Net} {tg : Target} (hf : NetFits s x n) (ht : TargetOf s u n tg) :
    ∃ p, p ∈ tg.points := by
  have hpos : 0 < (s.netEntry n).pinCount.val := Nat.pos_of_ne_zero (fun h => hf.1 (Fin.ext h))
  exact ⟨_, (ht.2.2.2.2 _).2 ⟨0, hpos, rfl⟩⟩

/-- The context that asks for the make of its target (R71). -/
def Ctx.asking (c : Ctx) (u : Site) (n : Net) (tg : Target) : Ctx := { c.atSite u n tg with state := .making }

/-- A site whose card has no usable lane ends INVALID with cause LANE (R27). -/
theorem startSite_laneless {s : State} {x : Bus} {u : Site} {n : Net} {tg : Target} {st : Step} (hstep : (s.ctx x).step = some st)
    (hn : st.net? = some n) (he : (s.siteEntry u).enabled = true) (hf : NetFits s x n) (ht : TargetOf s u n tg) (hclaims : s.claims x = [])
    (hq : s.sourceQuiet x = true) (hu : s.cardUsable (cardOfBlock tg.block) = false) (hb : s.barred x = none) :
    startSite s x u = endSite (s.setCtx x ((s.ctx x).asking u n tg)) x .lane := by
  obtain ⟨w, hw⟩ : ∃ w, w = s.setCtx x ((s.ctx x).atSite u n tg) := ⟨_, rfl⟩
  have hwctx : w.ctx x = (s.ctx x).atSite u n tg := by rw [hw, State.ctx_setCtx_self]
  have htarget : (w.ctx x).target = some tg := by rw [hwctx]; rfl
  have hset : breakSet w x = [] := by
    have : w.claims x = [] := by rw [hw]; exact hclaims
    unfold breakSet
    rw [htarget, this]
    rfl
  have hneed : tg.points.any (fun p => (s.xp x p).state != .closed) = true := by
    obtain ⟨p, hp⟩ := points_of_target hf ht
    refine List.any_eq_true.2 ⟨p, hp, bne_iff_ne.2 (fun hc => ?_)⟩
    have : p ∈ s.claims x := List.mem_filter.2 ⟨List.mem_finRange p, by rw [State.claimed, hc]; rfl⟩
    rw [hclaims] at this
    cases this
  rw [startSite_target hstep hn (resolve_target he hf ht) hw, hset, hneed, if_neg (by decide), hq, if_neg (by decide)]
  have hafter : afterQuiet w x = askMake w x := by unfold afterQuiet; rw [hset]; rfl
  rw [hafter]
  unfold askMake
  rw [htarget]
  dsimp only
  have hcheck : makeRequest (w.modCtx x (fun c => { c with state := .making })) x tg =
      (w.modCtx x (fun c => { c with state := .making }), .failed .lane) := by
    have hc : makeCheck (w.modCtx x (fun c => { c with state := .making })) x tg = some (.failed .lane) := by
      unfold makeCheck
      rw [show (w.modCtx x (fun c => { c with state := .making })).barred x = none by rw [hw]; exact hb]
      dsimp only
      rw [show (w.modCtx x (fun c => { c with state := .making })).cardUsable (cardOfBlock tg.block) = false by rw [hw]; exact hu]
      rfl
    rw [makeRequest, hc]
  rw [hcheck]
  dsimp only
  rw [State.modCtx, hwctx, hw, State.setCtx_setCtx]
  rfl

/-- The same, with its record (R80). -/
theorem startSite_laneless_record {o s v : State} {x : Bus} {u : Site} {stag : Half} {sel : Selection} {n : Net} {lim : Fin 256}
    {k d timeout : Nat} {hold : Bool} {tg : Target} (ho : SameRecord o (s.setCtx x ((s.ctx x).asking u n tg)) x)
    (hstep : (s.ctx x).step = some ⟨stag, .measure sel n lim k d timeout hold⟩) (hcap : (s.ctx x).captured = none)
    (he : (s.siteEntry u).enabled = true) (hf : NetFits s x n) (ht : TargetOf s u n tg) (hclaims : s.claims x = [])
    (hq : s.sourceQuiet x = true) (hu : s.cardUsable (cardOfBlock tg.block) = false) (hb : s.barred x = none)
    (hl : o.queue.records.length < 64) (h : Comes s x v (startSite s x u)) :
    ∃ rs, (finish v).queue.records = o.queue.records ++ invalidRecord o x stag o.tables.limits[lim].row false .lane :: rs := by
  rw [startSite_laneless hstep rfl he hf ht hclaims hq hu hb] at h
  obtain ⟨rs, hrs⟩ := h.records
  have hctx : (s.setCtx x ((s.ctx x).asking u n tg)).ctx x = (s.ctx x).asking u n tg := State.ctx_setCtx_self _ _ _
  have hrec := ho.stamped (by rw [hctx]; exact hstep) (by rw [hctx]; exact hcap) .lane
  generalize s.setCtx x ((s.ctx x).asking u n tg) = w at ho hrec hrs
  exact ⟨rs, by rw [hrs, endSite_records, ho.queue, if_pos hl, ← ho.queue, hrec, List.append_assoc]; rfl⟩

/-! ### What is begun, seen from before -/

theorem NextSite.alike {s u t : State} {x : Bus} {c : Ctx} {n : Net} (k : NextSite u t x c n) (h : Alike s u x)
    (hs : (u.ctx x).source = (s.ctx x).source) : NextSite s t x c n := by
  have hcell : ∀ a b, u.siteAtCell a b = s.siteAtCell a b := fun a b => by
    unfold State.siteAtCell State.siteEntry; rw [h.tables]
  have hhanded : ∀ w e y, HandedOn u w e y ↔ HandedOn s w e y := fun w e y => by
    unfold HandedOn State.sitePresence State.siteEntry State.blockPresence State.verdict
    rw [hcell, h.tables, h.presence, h.panel]
  have hend : ∀ tag j kind, endRecord u x tag j kind = endRecord s x tag j kind := fun tag j kind => by
    unfold endRecord; rw [h.queue, h.panel]
  intro hwalk
  obtain ⟨k1, k2⟩ := k hwalk
  refine ⟨fun before cell after y h1 h2 h3 => ?_, fun h1 h2 => ?_⟩
  · exact (k1 before cell after y h1 (fun e he v hv => h2 e he v ((hhanded _ _ _).1 hv)) ((hhanded _ _ _).2 h3)).alike h hs
  · have := k2 (fun e he v hv => h1 e he v ((hhanded _ _ _).1 hv)) (by rw [h.queue]; exact h2)
    rw [h.queue, hend] at this
    exact this

theorem alike_setCtx (s : State) (x : Bus) (c : Ctx) : Alike s (s.setCtx x c) x :=
  ⟨rfl, rfl, fun _ => rfl, rfl, rfl, rfl, rfl, fun _ hy => (State.ctx_setCtx _ _ _ _).trans (if_neg (Ne.symm hy))⟩

theorem Alike.refl (s : State) (x : Bus) : Alike s s x := ⟨rfl, rfl, fun _ => rfl, rfl, rfl, rfl, rfl, fun _ _ => rfl⟩

theorem Alike.trans {s u v : State} {x : Bus} (h : Alike s u x) (k : Alike u v x) : Alike s v x :=
  ⟨k.tables.trans h.tables, k.matrix.trans h.matrix, fun l => (k.lanes l).trans (h.lanes l), k.channels.trans h.channels,
    k.queue.trans h.queue, k.panel.trans h.panel, k.presence.trans h.presence, fun y hy => (k.others y hy).trans (h.others y hy)⟩

/-- What is as `SameRecord` asks, where `u` is like `s` and the context has its site in flight. -/
theorem Alike.sameRecord {s u : State} {x : Bus} {site : Site} {c : Ctx} (h : Alike s u x) (hi : c.inFlight = some site)
    (hw : c.sweep = (s.ctx x).sweep) : SameRecord (s.modCtx x (fun c => { c with inFlight := some site })) (u.setCtx x c) x := by
  refine ⟨h.queue, congrArg Panel.number h.panel, h.tables, ?_, ?_⟩ <;> rw [State.ctx_setCtx_self, State.ctx_modCtx_self]
  · exact hi
  · exact hw

/-! ### The end of a sweep that has nothing to continue (R95) -/

theorem releaseFails_sweep {s : State} {x : Bus} (hst : ∀ tag, (s.ctx x).step ≠ some ⟨tag, .release⟩) (cause : Cause) :
    ((releaseFails s x cause).ctx x).sweep = (s.ctx x).sweep := by
  rw [releaseFails_noted hst, State.ctx_modCtx_self]

theorem askRelease_sweep (s : State) (x : Bus) : ((askRelease s x).ctx x).sweep = (s.ctx x).sweep := by
  rw [askRelease, opensRequest_rest]

theorem releaseAnswered_sweep {s : State} {x : Bus} (hst : ∀ tag, (s.ctx x).step ≠ some ⟨tag, .release⟩) (f : Option Cause) :
    ((releaseAnswered s x f).ctx x).sweep = (s.ctx x).sweep := by
  have hdone : ∀ u : State, (((u.modCtx x (fun c => { c with relDone := true })).post (.poke x)).ctx x).sweep = (u.ctx x).sweep :=
    fun u => by rw [show ∀ (v : State) m, (v.post m).ctx x = v.ctx x from fun _ _ => rfl, State.ctx_modCtx_self]
  cases f with
  | none => exact hdone s
  | some cause =>
    unfold releaseAnswered
    dsimp only
    split
    · next tag hs => exact absurd hs (hst tag)
    · exact (hdone _).trans (releaseFails_sweep (s := s.raise .step) hst cause)
    · exact (hdone _).trans (releaseFails_sweep hst cause)

theorem poke_releases_sweep {s : State} {x : Bus} {st : Option Step} {halts there : Bool} (h : Releases s x st halts there) :
    ((poke s x).ctx x).sweep = (s.ctx x).sweep := by
  obtain ⟨hc, -⟩ := h
  have harrive : ((arrive s x).ctx x).sweep = (s.ctx x).sweep := by
    unfold arrive
    split
    · rw [toIdle_ctx]; rfl
    · rw [enterHalted_ctx]
  unfold poke
  rw [placeEnd_none (.inr hc.endPending)]
  dsimp only
  rcases hc.place with ⟨_, hs, -⟩ | hs
  · rw [hs]
    dsimp only
    split
    · exact harrive
    · rfl
  · rw [hs]
    cases halts
    · show ((if (!(s.ctx x).queue.isEmpty && mayTake s x) = true then takeHead s x else s).ctx x).sweep = _
      rw [hc.queue]; rfl
    · rfl

/-- What a context that releases is told leaves its sweep record (R83). -/
theorem doMail_releases_sweep {s : State} {m : Mail} {st : Option Step} {halts there : Bool} (hst : ∀ tag, st ≠ some ⟨tag, .release⟩)
    (h : Releases s m.bus st halts there) : ((doMail s m).ctx m.bus).sweep = (s.ctx m.bus).sweep := by
  by_cases hp : m = .poke m.bus
  · rw [hp]; exact poke_releases_sweep h
  · by_cases hs : (s.ctx m.bus).state = .releasing
    · have hstep : ∀ tag, (s.ctx m.bus).step ≠ some ⟨tag, .release⟩ := fun tag => by rw [h.1.step_of hs]; exact hst tag
      cases m with
      | poke x => exact absurd rfl hp
      | opened x f =>
        have hmail : doMail s (.opened x f) = releaseAnswered s x f := by
          have hs' : (s.ctx x).state = .releasing := hs
          simp [doMail, hs']
        rw [hmail]
        exact releaseAnswered_sweep hstep f
      | quieted x ok =>
        have hmail : doMail s (.quieted x ok) = askRelease (if ok then s else releaseFails s x .lane) x := by
          have hs' : (s.ctx x).state = .releasing := hs
          simp [doMail, hs']
        rw [hmail]
        refine (askRelease_sweep _ _).trans ?_
        split
        · rfl
        · exact releaseFails_sweep hstep _
      | _ =>
        simp only [Mail.bus] at hs ⊢
        simp [doMail, hs]
    · rw [doMail_rest (by
        rcases h.1.place with ⟨_, hr, -⟩ | hr
        · exact absurd hr hs
        · rw [hr]; cases halts <;> rfl) hs hp]

theorem drain_releases_sweep (n : Nat) {s : State} {x : Bus} {st : Option Step} {halts there : Bool} (hst : ∀ tag, st ≠ some ⟨tag, .release⟩)
    (h : Releases s x st halts there) : ((drain n s).ctx x).sweep = (s.ctx x).sweep := by
  induction n generalizing s with
  | zero => rfl
  | succ n ih =>
    cases hw : s.matrixWork with
    | cons w rest =>
      rw [drain_work hw]
      have hrun : Run False True (fun y => y ≠ x) s (doMatrix { s with matrixWork := rest } w) :=
        .doMatrix (L := False) (C := True) w trivial (.single (.plain _ rfl (fun _ => .inl)))
      have hkeep := ((Keeps.refl (Q := fun _ => True) s).matrixWork rest).doMatrix w
      rw [ih (h.run hkeep hrun), (hrun.spared (x := x) (fun e => e rfl)).rest]
    | nil =>
      cases hm : s.mail with
      | nil => rw [drain, hw, hm]
      | cons m rest =>
        rw [drain_mail hw hm]
        by_cases hx : m.bus = x
        · subst hx
          rw [ih (doMail_releases (s := { s with mail := rest }) hst h)]
          exact doMail_releases_sweep (s := { s with mail := rest }) hst h
        · have hrun : Run False True (fun y => y ≠ x) s (doMail { s with mail := rest } m) :=
            .doMail m trivial hx (.single (.plain _ rfl (fun y hy => .inl (by rw [hm]; exact List.mem_cons_of_mem _ hy))))
          have hkeep := ((Keeps.refl (Q := fun _ => True) s).mail rest).doMail m
          rw [ih (h.run hkeep hrun), (hrun.spared (x := x) (fun e => e rfl)).rest]

end Sys2Proof.Machine
end

