-- ==== Sys2Proof/Proofs/StepsBegun.lean ====
section
/-!
PROOFS. STEP (R64, R67): the step joins its queue, and a bus with nothing in its way takes it and begins its work, or ends at once
(R85, R95).
-/

-- One proof after another: in the joined text each worker would hold a stack of its own.
set_option Elab.async false

namespace Sys2Proof.Machine

/-! ### A sweep with nothing to continue (R95) -/

theorem enterReleasing_sweep {s : State} {x : Bus} (hst : ∀ tag, (s.ctx x).step ≠ some ⟨tag, .release⟩) (d : Dest) :
    ((enterReleasing s x d).ctx x).sweep = (s.ctx x).sweep := by
  obtain ⟨v, hv, -⟩ := quietRequest_ctx (s.modCtx x (fun c => c.toRelease d)) x
  rw [State.ctx_modCtx_self] at hv
  have hdef : enterReleasing s x d =
      match quietRequest (s.modCtx x (fun c => c.toRelease d)) x with
      | (s, .waits) => s.modCtx x (fun c => { c with request := some .quiet })
      | (s, .failed) => askRelease (releaseFails s x .lane) x
      | (s, _) => askRelease s x := rfl
  rw [hdef]
  generalize quietRequest (s.modCtx x (fun c => c.toRelease d)) x = r at hv
  obtain ⟨u, ans⟩ := r
  dsimp only at hv
  have hsweep : (u.ctx x).sweep = (s.ctx x).sweep := by rw [hv]; rfl
  cases ans with
  | waits => dsimp only; rw [State.ctx_modCtx_self]; exact hsweep
  | failed =>
    exact (askRelease_sweep _ _).trans ((releaseFails_sweep (by rw [hv]; exact hst) _).trans hsweep)
  | _ => exact (askRelease_sweep _ _).trans hsweep

/-- A context in POSTING whose site is still in flight does nothing when it looks. -/
def Ctx.Stuck (c : Ctx) : Prop := c.state = .posting ∧ c.inFlight.isSome = true ∧ c.endPending = none

theorem Ctx.Stuck.spared {c d : Ctx} (h : c.Stuck) (k : c.Spared d) : d.Stuck ∧ d.sweep = c.sweep := by
  obtain ⟨hs, hi, he⟩ := h
  have hstate : d.state = .posting := by
    rcases k.state with h1 | ⟨h1, -⟩
    · rw [h1, hs]
    · rw [hs] at h1; cases h1
  have hrest := k.rest
  rw [hrest]
  exact ⟨⟨hstate, hi, he⟩, rfl⟩

theorem doMail_stuck {s : State} {m : Mail} (h : (s.ctx m.bus).Stuck) : doMail s m = s := by
  obtain ⟨hs, hi, he⟩ := h
  cases m <;> simp only [Mail.bus] at hs hi he
  case poke x =>
    show poke s x = s
    unfold poke
    rw [placeEnd_none (.inr he)]
    dsimp only
    rw [hs, hi]
    rfl
  all_goals simp [doMail, hs]

theorem drain_stuck (n : Nat) {s : State} {x : Bus} (h : (s.ctx x).Stuck) : ((drain n s).ctx x).sweep = (s.ctx x).sweep := by
  induction n generalizing s with
  | zero => rfl
  | succ n ih =>
    have hgo : ∀ u : State, Run False True (fun y => y ≠ x) s u → ((drain n u).ctx x).sweep = (s.ctx x).sweep := fun u hu => by
      obtain ⟨hst, hsw⟩ := h.spared (hu.spared (x := x) (fun e => e rfl))
      rw [ih hst, hsw]
    cases hw : s.matrixWork with
    | cons w rest =>
      rw [drain_work hw]
      exact hgo _ (.doMatrix (L := False) (C := True) w trivial (.single (.plain _ rfl (fun _ => .inl))))
    | nil =>
      cases hm : s.mail with
      | nil => rw [drain, hw, hm]
      | cons m rest =>
        rw [drain_mail hw hm]
        by_cases hx : m.bus = x
        · subst hx
          rw [doMail_stuck (s := { s with mail := rest }) h]
          exact ih (s := { s with mail := rest }) h
        · exact hgo _ (.doMail m trivial hx (.single (.plain _ rfl (fun y hy => .inl (by rw [hm]; exact List.mem_cons_of_mem _ hy)))))

/-- A bus whose step has given the last END of its sweep and has nothing queued keeps its sweep record (R79, R95). -/
theorem sweepOver_keeps (n : Nat) {s : State} {x : Bus} {c : Ctx} {kind : EndKind} {stag : Half} {sel : Selection} {net : Net} {lim : Fin 256}
    {k d timeout : Nat} {hold : Bool} (hctx : s.ctx x = c.sweepOver kind) (hstep : c.step = some ⟨stag, .measure sel net lim k d timeout hold⟩)
    (hslot : c.slot = none) (hreq : c.request = none) (hq : c.queue = []) (hok : c.lastOk = false) (hsw : c.sweep.status ≠ .running)
    (hl : s.queue.records.length < 64) : ((drain n (poke s x)).ctx x).sweep = c.sweep := by
  have htaken : ∀ e, Slot.taken ⟨endRec s x e, false⟩ s = true := fun e => by rw [Slot.taken_record]; simpa using hl
  obtain ⟨v, hv⟩ : ∃ v, v = placeEnd s x := ⟨_, rfl⟩
  have hvctx : v.ctx x = { c.sweepOver kind with slot := none, endPending := none } := by
    rw [hv, placeEnd_some (e := ⟨c.stepTag, c.sweep.judged.length, kind⟩) (by rw [hctx]; exact hslot) (by rw [hctx]; rfl),
      offered_ctx_self, if_pos (htaken _), hctx]
  have hpoke : poke s x = if (v.ctx x).inFlight.isSome then v else goOn v x .proceed := by
    rw [poke_placed, ← hv]
    unfold poke
    rw [placeEnd_none (.inr (by rw [hvctx]))]
    dsimp only
    rw [hvctx]
    show (if (c.inFlight.isSome || c.request.isSome) = true then v else goOn v x .proceed) = _
    rw [hreq]
    show (if (c.inFlight.isSome || false) = true then v else goOn v x .proceed) = if c.inFlight.isSome = true then v else goOn v x .proceed
    rw [Bool.or_false]
  rw [hpoke]
  split
  · next hi => rw [drain_stuck n ⟨by rw [hvctx]; rfl, hi, by rw [hvctx]⟩, hvctx]; rfl
  · have hgo : goOn v x .proceed = enterReleasing v x .idle := by
      unfold goOn
      dsimp only
      rw [if_neg (by rw [hvctx]; exact hsw)]
      unfold endStep
      rw [hvctx, show ({ c.sweepOver kind with slot := none, endPending := none } : Ctx).step = c.step from rfl, hstep,
        show ({ c.sweepOver kind with slot := none, endPending := none } : Ctx).lastOk = c.lastOk from rfl, hok]
      cases hold <;> rfl
    have hst : ∀ tag, (v.ctx x).step ≠ some ⟨tag, .release⟩ := fun tag hs => by
      rw [hvctx] at hs
      rw [show ({ c.sweepOver kind with slot := none, endPending := none } : Ctx).step = c.step from rfl, hstep] at hs
      cases hs
    have hrel : Releases (enterReleasing v x .idle) x (v.ctx x).step false false :=
      enterReleasing_releases (s := v) (x := x) (halts := false) hst rfl (by rw [hvctx]) (by rw [hvctx]) (by rw [hvctx]; exact hq) nofun
    rw [hgo, drain_releases_sweep n hst hrel]
    refine (enterReleasing_sweep hst .idle).trans ?_
    rw [hvctx]; rfl

/-! ### The head of the step queue (R67) -/

/-- The context that SWEEP_CONTINUE finds with nothing to continue (R95). -/
def Ctx.recounted (c : Ctx) (count : Nat) : Ctx :=
  if c.sweep.status = .none then c else { c with sweep := { c.sweep with count := count, judged := [], status := .windowEnd } }

theorem continueSweep_over {s : State} {x : Bus} {count : Nat}
    (h : (s.ctx x).sweep.status = .windowEnd ∨ (s.ctx x).sweep.status = .none) :
    continueSweep s x count = sweepEnds (s.setCtx x ((s.ctx x).recounted count)) x .windowEnd := by
  unfold continueSweep
  dsimp only
  rcases h with h | h <;> rw [h] <;> dsimp only
  · rw [State.modCtx, Ctx.recounted, h, if_neg (by decide)]
  · rw [Ctx.recounted, h, if_pos rfl, State.setCtx_ctx]

/-- The context that takes a step may begin it. -/
structure Taking (s : State) (x : Bus) (st : Step) (rest : List Step) : Prop where
  calm : OthersCalm s x
  out : s.out = []
  barred : s.barred x = none
  queue : (s.ctx x).queue = st :: rest
  clear : (s.ctx x).Clear
  inRange : st.work.InRange s x

theorem Taking.begins {s v : State} {x : Bus} {rest : List Step} {st : Step} (h : Taking s x st rest) {c : Ctx} {u : Site} {n : Net}
    (hc : c.step = some st) (hsrc : c.source = (s.ctx x).source) (hn : st.net? = some n) (hf : NetFits s x n)
    (hv : Comes s x v (startSite (s.setCtx x c) x u)) (he : (s.siteEntry u).enabled = true) : SiteBegins s (finish v) x c u n := by
  have halike := alike_setCtx s x c
  have hctx : (s.setCtx x c).ctx x = c := State.ctx_setCtx_self _ _ _
  have hb := startSite_begins (s := s.setCtx x c) (x := x) (u := u) (n := n) h.calm.work h.out (by rw [hctx]; exact hc) hn he hf h.barred
    ((hv.congr halike.others).comesTo (h.calm.setCtx c))
  rw [hctx] at hb
  exact hb.alike halike (by rw [hctx]; exact hsrc)

theorem Taking.nextSite {s v : State} {x : Bus} {rest : List Step} {st : Step} (h : Taking s x st rest) {c : Ctx} {n : Net}
    (hc : c.step = some st) (hsrc : c.source = (s.ctx x).source) (hslot : c.slot = none) (hn : st.net? = some n) (hf : NetFits s x n)
    (hv : Comes s x v (nextSite (s.setCtx x c) x)) : NextSite s (finish v) x c n := by
  have halike := alike_setCtx s x c
  have hctx : (s.setCtx x c).ctx x = c := State.ctx_setCtx_self _ _ _
  have hb := nextSite_nextSite (s := s.setCtx x c) (h.calm.setCtx c) h.out (by rw [hctx]; exact hc) hn hf h.barred
    (by rw [hctx]; exact hslot) (hv.congr halike.others)
  rw [hctx] at hb
  exact hb.alike halike (by rw [hctx]; exact hsrc)

/-- What the end of a SWEEP_CONTINUE with nothing to continue leaves (R95, R99). -/
theorem Taking.sweepOver {s v : State} {x : Bus} {rest : List Step} {stag : Half} {sel : Selection} {net : Net} {lim : Fin 256}
    {k d timeout count : Nat} {hold : Bool} (h : Taking s x ⟨stag, .measure sel net lim k d timeout hold⟩ rest) {c : Ctx}
    (hc : c = (s.ctx x).took ⟨stag, .measure sel net lim k d timeout hold⟩ rest)
    (hv : Comes s x v (continueSweep (s.setCtx x c) x count))
    (hsw : c.sweep.status = .windowEnd ∨ (c.sweep.status = .none ∧ c.sweep.judged = [])) (hl : s.queue.records.length < 64) :
    (∃ rs, (finish v).queue.records = s.queue.records ++ endRecord s x stag 0 .windowEnd :: rs) ∧
      (c.queue = [] → ((finish v).ctx x).sweep =
        if c.sweep.status = .none then c.sweep else { c.sweep with count := count, judged := [] }) := by
  have hctx : (s.setCtx x c).ctx x = c := State.ctx_setCtx_self _ _ _
  rw [continueSweep_over (by rw [hctx]; exact hsw.imp_right And.left), hctx, State.setCtx_setCtx] at hv
  obtain ⟨e, he⟩ : ∃ e, e = c.recounted count := ⟨_, rfl⟩
  have hrest : e = { c with sweep := e.sweep } ∧ e.sweep.judged = [] ∧ e.sweep.status ≠ .running ∧
      e.sweep = if c.sweep.status = .none then c.sweep else { c.sweep with count := count, judged := [] } := by
    rw [he, Ctx.recounted]
    rcases hsw with hs | ⟨hs, hj⟩
    · rw [hs, if_neg (by decide), if_neg (by decide)]
      exact ⟨rfl, rfl, nofun, by rw [← hs]⟩
    · rw [hs, if_pos rfl, if_pos rfl]
      exact ⟨rfl, hj, by rw [hs]; nofun, rfl⟩
  rw [← he] at hv
  obtain ⟨hrest, hj, hrun, hsweep⟩ := hrest
  have hstep : e.step = some ⟨stag, .measure sel net lim k d timeout hold⟩ := by rw [hrest, hc]; rfl
  have hslot : e.slot = none := by rw [hrest, hc]; exact h.clear.1
  refine ⟨?_, fun hq => ?_⟩
  · have hrec := sweepEnds_record h.calm hv hslot hl
    rw [hj, show e.stepTag = stag by rw [Ctx.stepTag, hstep]] at hrec
    exact hrec
  · rw [sweepEnds_eq, State.ctx_setCtx_self, State.setCtx_setCtx] at hv
    obtain ⟨j, l, τ, hj, hd⟩ := hv.looks h.calm (beside_setCtx h.calm.work _) rfl
    rw [finish_ctx, hd.drainAll hj, sweepOver_keeps (s := { s.setCtx x (e.sweepOver .windowEnd) with mail := l, trunk := τ }) (c := e) _
      (State.ctx_setCtx_self s x _) hstep hslot (by rw [hrest, hc]; exact h.clear.2.2) (by rw [hrest]; exact hq) (by rw [hrest, hc]; rfl) hrun hl]
    exact hsweep

/-- A bus that takes a step begins its work (R67). -/
theorem takeHead_begins {s v : State} {x : Bus} {st : Step} {rest : List Step} (h : Taking s x st rest) (hv : Comes s x v (takeHead s x)) :
    StepBegins s (finish v) x ((s.ctx x).took st rest) st := by
  obtain ⟨c, hc⟩ : ∃ c, c = (s.ctx x).took st rest := ⟨_, rfl⟩
  have hcstep : c.step = some st := by rw [hc]; rfl
  have hsrc : c.source = (s.ctx x).source := by rw [hc]; rfl
  have hslot : c.slot = none := by rw [hc]; exact h.clear.1
  have hcsweep : c.sweep = (s.ctx x).sweep := by rw [hc]; rfl
  have hcap : c.captured = none := by rw [hc]; rfl
  have halike := alike_setCtx s x c
  have hctx : (s.setCtx x c).ctx x = c := State.ctx_setCtx_self _ _ _
  have hrange := h.inRange
  rw [← hc]
  unfold takeHead at hv
  rw [h.queue] at hv
  dsimp only at hv
  rw [State.modCtx, show ({ s.ctx x with
    queue := rest, step := some st, lastOk := false, after := .none, captured := none, acc := [], relFail := none } : Ctx) = c from hc.symm] at hv
  obtain ⟨stag, work⟩ := st
  refine ⟨fun u n hwork he => ?_, fun sel n lim k d timeout hold hwork => ⟨fun u hsel => ?_, fun w axis count hsel => ?_, fun count hsel => ?_⟩⟩
  all_goals
    dsimp only at hwork
    subst hwork
  · exact h.begins hcstep hsrc rfl hrange hv he
  · subst hsel
    have hn : NetFits s x n := hrange.1
    refine ⟨h.begins hcstep hsrc rfl hn hv, fun he hl => ?_, fun tg he ht hclaims hquiet hu hl => ?_⟩
    · have hrec : SameRecord (s.modCtx x (fun c => { c with inFlight := some u })) ((s.setCtx x c).setCtx x (((s.setCtx x c).ctx x).headed u)) x := by
        rw [hctx, State.setCtx_setCtx]
        exact (Alike.refl s x).sameRecord (c := c.headed u) rfl hcsweep
      exact startSite_disabled hrec (by rw [hctx]; exact hcstep) (by rw [hctx]; exact hcap) he hl (hv.congr halike.others)
    · have hrec : SameRecord (s.modCtx x (fun c => { c with inFlight := some u })) ((s.setCtx x c).setCtx x (((s.setCtx x c).ctx x).asking u n tg)) x := by
        rw [hctx, State.setCtx_setCtx]
        exact (Alike.refl s x).sameRecord (c := c.asking u n tg) rfl hcsweep
      exact startSite_laneless_record hrec (by rw [hctx]; exact hcstep) (by rw [hctx]; exact hcap) he hn ht hclaims
        (by rw [← hquiet]; unfold State.sourceQuiet; rw [hctx, hsrc]; rfl) hu h.barred hl (hv.congr halike.others)
  · subst hsel
    have hn : NetFits s x n := hrange.1
    refine h.nextSite (c := { c with sweep := ⟨.running, w, axis, none, count, []⟩ }) hcstep hsrc hslot rfl hn ?_
    rw [show s.setCtx x { c with sweep := ⟨.running, w, axis, none, count, []⟩ } =
      (s.setCtx x c).modCtx x (fun c => { c with sweep := ⟨.running, w, axis, none, count, []⟩ }) by
        rw [State.modCtx, hctx, State.setCtx_setCtx]]
    exact hv
  · subst hsel
    have hn : NetFits s x n := hrange.1
    refine ⟨fun hst => ?_, fun hst hl => h.sweepOver hc hv hst hl⟩
    refine h.nextSite (c := { c with sweep := { c.sweep with status := .running, count := count, judged := [] } }) hcstep hsrc hslot rfl hn ?_
    have hcont : continueSweep (s.setCtx x c) x count =
        nextSite (s.setCtx x { c with sweep := { c.sweep with status := .running, count := count, judged := [] } }) x := by
      unfold continueSweep beginSweep
      dsimp only
      rw [State.modCtx, hctx]
      rcases hst with hst | hst <;> rw [hst] <;> dsimp only <;> rw [State.setCtx_setCtx]
    rw [← hcont]
    exact hv

/-! ### The work of a step, seen from before -/

theorem Alike.invalidRecord {s u : State} {x : Bus} {site : Site} (h : Alike s u x) (hw : (u.ctx x).sweep = (s.ctx x).sweep)
    (tag : Half) (row : Fin 16) (worn : Bool) (cause : Cause) :
    invalidRecord (u.modCtx x (fun c => { c with inFlight := some site })) x tag row worn cause =
      invalidRecord (s.modCtx x (fun c => { c with inFlight := some site })) x tag row worn cause := by
  unfold Machine.invalidRecord
  rw [State.ctx_modCtx_self, State.ctx_modCtx_self]
  dsimp only
  rw [show ∀ v : State, (v.modCtx x (fun c => { c with inFlight := some site })).queue = v.queue from fun _ => rfl,
    show ∀ v : State, (v.modCtx x (fun c => { c with inFlight := some site })).panel = v.panel from fun _ => rfl,
    show ∀ v : State, (v.modCtx x (fun c => { c with inFlight := some site })).tables = v.tables from fun _ => rfl,
    show ∀ v : State, (v.modCtx x (fun c => { c with inFlight := some site })).queue = v.queue from fun _ => rfl,
    show ∀ v : State, (v.modCtx x (fun c => { c with inFlight := some site })).panel = v.panel from fun _ => rfl,
    show ∀ v : State, (v.modCtx x (fun c => { c with inFlight := some site })).tables = v.tables from fun _ => rfl,
    h.queue, h.panel, h.tables, hw]

theorem StepBegins.alike {s u t : State} {x : Bus} {c : Ctx} {st : Step} (k : StepBegins u t x c st) (h : Alike s u x)
    (hs : (u.ctx x).source = (s.ctx x).source) (hw : (u.ctx x).sweep = (s.ctx x).sweep) : StepBegins s t x c st := by
  have hentry : ∀ y, u.siteEntry y = s.siteEntry y := fun y => by unfold State.siteEntry; rw [h.tables]
  have hend : ∀ tag j kind, endRecord u x tag j kind = endRecord s x tag j kind := fun tag j kind => by
    unfold endRecord; rw [h.queue, h.panel]
  obtain ⟨k1, k2⟩ := k
  refine ⟨fun y n h1 h2 => (k1 y n h1 (by rw [hentry]; exact h2)).alike h hs, fun sel n lim a d timeout hold h1 => ?_⟩
  obtain ⟨k3, k4, k5⟩ := k2 sel n lim a d timeout hold h1
  refine ⟨fun y hy => ?_, fun w axis count hsel => (k4 w axis count hsel).alike h hs, fun count hsel => ?_⟩
  · obtain ⟨k6, k7, k8⟩ := k3 y hy
    have hrec := fun row worn cause => h.invalidRecord (site := y) hw st.tag row worn cause
    refine ⟨fun he => (k6 (by rw [hentry]; exact he)).alike h hs, fun he hl => ?_, fun tg he ht hc hq hu hl => ?_⟩
    · have := k7 (by rw [hentry]; exact he) (by rw [h.queue]; exact hl)
      rw [hrec, h.queue, h.tables] at this
      exact this
    · have hsite : TargetOf u y n tg := by
        unfold TargetOf at ht ⊢
        rw [State.siteEntry, State.netEntry, h.tables]
        exact ht
      have hquiet : u.sourceQuiet x = s.sourceQuiet x := by
        unfold State.sourceQuiet State.busEntry
        rw [h.tables, hs]
      have := k8 tg (by rw [hentry]; exact he) hsite ((State.claims_congr h.matrix x).trans hc) (by rw [hquiet]; exact hq)
        (by rw [h.cardUsable]; exact hu) (by rw [h.queue]; exact hl)
      rw [hrec, h.queue, h.tables] at this
      exact this
  · obtain ⟨k6, k7⟩ := k5 count hsel
    refine ⟨fun hst => (k6 hst).alike h hs, fun hst hl => ?_⟩
    have := k7 hst (by rw [h.queue]; exact hl)
    rw [hend, h.queue] at this
    exact this

/-! ### A bus that looks and takes its step -/

theorem poke_takes {s : State} {x : Bus} {st : Step} {rest : List Step} (hq : (s.ctx x).queue = st :: rest) (hc : (s.ctx x).Clear)
    (hs : (s.ctx x).state = .idle ∨ (s.ctx x).state = .holding) (hr : s.guard.rack = .ready)
    (hp : s.panel.state = .opn ∨ s.panel.state = .closing) : poke s x = takeHead s x := by
  obtain ⟨h1, h2, h3⟩ := hc
  have hready : s.isReady = true := by rw [State.isReady, hr]; rfl
  have hsafe : s.isSafe = false := by rw [State.isSafe, hr]
  have hmay : mayTake s x = true := by
    unfold mayTake
    dsimp only
    rw [h1, h2, h3, hready]
    rcases hs with hs | hs <;> rcases hp with hp | hp <;> rw [hs, hp] <;> rfl
  have htake : (!(s.ctx x).queue.isEmpty && mayTake s x) = true := by rw [hq, hmay]; rfl
  unfold poke
  rw [placeEnd_none (.inr h2)]
  dsimp only
  rcases hs with hs | hs <;> rw [hs] <;> dsimp only
  · rw [if_pos htake]
  · rw [hsafe, if_neg Bool.false_ne_true, if_pos htake]

theorem notSafe_of_ready {s : State} (h : s.guard.rack = .ready) : s.isSafe = false := by rw [State.isSafe, h]

/-! ### STEP (R64) -/

/-- The state in which the step has joined its queue, and its bus is to look. -/
def stepJoined (s : State) (x : Bus) (st : Step) (tag : Half) : State :=
  ((s.begin.setCtx x { s.ctx x with queue := (s.ctx x).queue ++ [st] }).post (.poke x)).respond tag 0x01#8 .ok
    [byte ((s.ctx x).queue.length + 1)]

theorem exec_step {s : State} {x : Bus} {st : Step} {tag : Half} (h : HasRoom s) (hp : s.panel.state = .opn) (hs : s.guard.rack ≠ .service)
    (he : (s.busEntry x).enabled = true) (hr : st.work.InRange s x) (hq : (s.ctx x).queue.length < 8) :
    exec (.step tag (st.bytes x)) s = .next (finish (stepJoined s x st tag)) := by
  have hlen : (st.bytes x).length = 20 := by
    obtain ⟨stag, work⟩ := st
    cases work with
    | measure sel => cases sel <;> rfl
    | _ => rfl
  refine exec_ran (owner := fun s => match stepChecked s (st.bytes x) with
    | .error st => .refused st
    | .ok (x, step) => .ran ((s.modCtx x (fun c => { c with queue := c.queue ++ [step] })).post (.poke x))
        [byte ((s.ctx x).queue.length + 1)]) rfl h hlen ?_
  have hcheck : stepChecked s.begin (st.bytes x) = .ok (x, st) := by
    rw [stepChecked_bytes (s := s.begin) hp hs he hr]
    exact if_neg (Nat.not_le.2 hq)
  rw [hcheck]
  rfl

theorem stepJoined_ctx (s : State) (x y : Bus) (st : Step) (tag : Half) : (stepJoined s x st tag).ctx y =
    if x = y then { s.ctx x with queue := (s.ctx x).queue ++ [st] } else s.ctx y := State.ctx_setCtx _ _ _ _

theorem finish_panelOpen {s : State} (h : s.panel.state = .opn) : (finish s).panel.state = .opn := by
  have hd : (drain drainBound s).panel.state = .opn := (drain_keeps s).panelState.trans h
  rw [finish, pump_panel, panelCheck_id (by rw [hd]; nofun), hd]

/-- The same with no mail. -/
def stepReady (s : State) (x : Bus) (st : Step) (tag : Half) : State := { stepJoined s x st tag with mail := [] }

theorem stepReady_ctx {s : State} {x : Bus} (h : (s.ctx x).queue = []) (st : Step) (tag : Half) :
    (stepReady s x st tag).ctx x = { s.ctx x with queue := [st] } := by
  refine (stepJoined_ctx s x x st tag).trans ((if_pos rfl).trans ?_)
  rw [h]; rfl

theorem stepReady_other {s : State} {x y : Bus} (h : y ≠ x) (st : Step) (tag : Half) : (stepReady s x st tag).ctx y = s.ctx y :=
  (stepJoined_ctx s x y st tag).trans (if_neg (Ne.symm h))

/-- A bus with nothing in its way takes the step that has joined (R67). -/
theorem stepJoined_takes {s : State} {x : Bus} (hq : Quiesced s) (hready : s.guard.rack = .ready) (hp : s.panel.state = .opn)
    (hs : (s.ctx x).state = .idle ∨ (s.ctx x).state = .holding) (hqueue : (s.ctx x).queue = []) (hc : (s.ctx x).Clear) (st : Step)
    (tag : Half) : Delivers 1 (stepJoined s x st tag) (takeHead (stepReady s x st tag) x) := by
  have hctx := stepReady_ctx hqueue st tag
  have htake : poke (stepReady s x st tag) x = takeHead (stepReady s x st tag) x :=
    poke_takes (rest := []) (by rw [hctx]) (by rw [hctx]; exact hc) (by rw [hctx]; exact hs) hready (.inl hp)
  rw [← htake]
  refine .mail (.poke x) [] hq.1 ?_ (.refl _)
  show s.mail ++ [.poke x] = _
  rw [hq.2]; rfl

/-- A bus with nothing in its way begins the step that has joined (R67). -/
theorem stepJoined_begins {s : State} {x : Bus} {st : Step} {tag : Half} (hp : s.panel.state = .opn) (hr : st.work.InRange s x)
    (hm : MayStart s x) : StepBegins s (finish (stepJoined s x st tag)) x ((s.ctx x).took st []) st := by
  obtain ⟨hq, hready, htrip, hstate, hqueue, hclear⟩ := hm
  have hdeliver := stepJoined_takes hq hready hp hstate hqueue hclear st tag
  have hctx := stepReady_ctx hqueue st tag
  have hsafe : (stepReady s x st tag).isSafe = false := notSafe_of_ready hready
  have htaking : Taking (stepReady s x st tag) x st [] :=
    ⟨othersCalm_of_quiesced (s := stepReady s x st tag) ⟨hq.1, rfl⟩ hsafe x, rfl, barred_none_of hsafe htrip, by rw [hctx], by rw [hctx]; exact hclear, hr⟩
  have hbegins := takeHead_begins htaking (comes_of_delivers hdeliver (by decide) x)
  have halike : Alike s (stepReady s x st tag) x :=
    ⟨rfl, rfl, fun _ => rfl, rfl, rfl, rfl, rfl, fun _ hy => stepReady_other hy st tag⟩
  have hdone := hbegins.alike halike (by rw [hctx]) (by rw [hctx])
  rw [hctx] at hdone
  exact hdone

/-- A bus that claims nothing and needs no quiet is IDLE again with its RELEASE step, and nothing else has moved (R85). -/
theorem release_delivers {w : State} {x : Bus} {stag : Half} (hq : Quiesced w) (hsafe : w.isSafe = false)
    (h : (w.ctx x).queue = [⟨stag, .release⟩]) (hc : (w.ctx x).Clear) (hclaims : w.claims x = []) (hb : w.breaksOutstanding x = false) (hs : w.sourceQuiet x = true) :
    ∃ c, Delivers 3 (takeHead w x) (w.setCtx x c) ∧ c.state = .idle ∧ c.step = none ∧ c.queue = [] ∧ c.slot = none := by
  obtain ⟨c0, hc0⟩ : ∃ c, c = (w.ctx x).took ⟨stag, .release⟩ [] := ⟨_, rfl⟩
  have hsetctx : ∀ (u : State) c, (u.setCtx x c).ctx x = c := fun u c => State.ctx_setCtx_self u x c
  have htake : takeHead w x = enterReleasing (w.setCtx x c0) x .idle := by
    unfold takeHead
    rw [h, hc0]
    rfl
  have hquiet : (w.setCtx x c0).sourceQuiet x = true := by
    rw [← hs]
    unfold State.sourceQuiet
    rw [hsetctx, hc0]
    rfl
  obtain ⟨c1, hc1⟩ : ∃ c, c = { c0.toRelease .idle with request := none } := ⟨_, rfl⟩
  have hrel : takeHead w x = (w.setCtx x c1).post (.opened x none) := by
    rw [htake, enterReleasing_nothing hquiet hb hclaims, hsetctx, State.setCtx_setCtx, hc1]
  obtain ⟨c2, hc2⟩ : ∃ c, c = { c1 with relDone := true } := ⟨_, rfl⟩
  have hone : doMail (w.setCtx x c1) (.opened x none) = (w.setCtx x c2).post (.poke x) := by
    have hstate : ((w.setCtx x c1).ctx x).state = .releasing := by rw [hsetctx, hc1]; rfl
    simp only [doMail, hstate, releaseAnswered]
    rw [State.modCtx, hsetctx, State.setCtx_setCtx, hc2]
  have hslot : c2.slot = none := by rw [hc2, hc1, hc0]; exact hc.1
  have hend : c2.endPending = none := by rw [hc2, hc1, hc0]; exact hc.2.1
  have htwo : poke (w.setCtx x c2) x = (w.setCtx x c2.idled).post (.poke x) := by
    have harrive : arrive (w.setCtx x c2) x = toIdle (w.setCtx x c2) x := by
      unfold arrive; rw [hsetctx, hc2, hc1]; rfl
    unfold poke
    rw [placeEnd_none (.inr (by rw [hsetctx]; exact hend))]
    dsimp only
    rw [hsetctx, hslot, hend, show c2.state = .releasing by rw [hc2, hc1]; rfl, show c2.relDone = true by rw [hc2]]
    dsimp only
    show arrive (w.setCtx x c2) x = _
    rw [harrive, toIdle_eq, hsetctx, State.setCtx_setCtx]
  have hqueue : c2.queue = [] := by rw [hc2, hc1, hc0]; rfl
  have hthree : poke (w.setCtx x c2.idled) x = w.setCtx x c2.idled :=
    poke_nothing hsafe (by rw [hsetctx]; exact hqueue) (by rw [hsetctx]; exact hend) (.inl (by rw [hsetctx]; rfl))
  have hq1 : ∀ c, Quiesced (w.setCtx x c) := fun _ => hq
  refine ⟨c2.idled, ?_, rfl, rfl, hqueue, hslot⟩
  have h1 := delivers_told (m := .opened x none) (hq1 c1)
  have h2 := delivers_told (m := .poke x) (hq1 c2)
  have h3 := delivers_told (m := .poke x) (hq1 c2.idled)
  rw [hone, ← hrel] at h1
  rw [show doMail (w.setCtx x c2) (.poke x) = poke (w.setCtx x c2) x from rfl, htwo] at h2
  rw [show doMail (w.setCtx x c2.idled) (.poke x) = poke (w.setCtx x c2.idled) x from rfl, hthree] at h3
  exact (h1.trans h2).trans h3

end Sys2Proof.Machine

namespace Sys2Proof

open Machine

/-- Settles O13: the step joins its queue, and the bus that may takes it and begins its work. -/
theorem acceptedStepsJoinTheirQueue : Obligations.AcceptedStepsJoinTheirQueue := by
  intro s tag x st hroom hp hs he hr hq
  refine ⟨_, exec_step hroom hp hs he hr hq, finish_responses (stepJoined s x st tag), finish_leaves (stepJoined s x st tag),
    finish_guard (stepJoined s x st tag), finish_panelOpen (s := stepJoined s x st tag) hp, ?_, fun y hy => ?_, fun hn => ⟨?_, fun y hy => ?_⟩,
    stepJoined_begins hp hr⟩
  · have := finish_queues (stepJoined s x st tag) x
    rw [stepJoined_ctx, if_pos rfl] at this
    exact this
  · have := finish_queues (stepJoined s x st tag) y
    rw [stepJoined_ctx, if_neg (Ne.symm hy)] at this
    exact this
  · rw [finish_queuesStay (stepJoined s x st tag) hn, stepJoined_ctx, if_pos rfl]
  · rw [finish_queuesStay (stepJoined s x st tag) hn, stepJoined_ctx, if_neg (Ne.symm hy)]

/-- Settles O15: the RELEASE step is taken at once, and its release has nothing to do. -/
theorem releaseAtRestEndsIdle : Obligations.ReleaseAtRestEndsIdle := by
  intro s tag x stag hroom hq hready hp he hstate hqueue hslot hend hreq hclaims hb hs
  have hctx := stepReady_ctx hqueue ⟨stag, .release⟩ tag
  obtain ⟨c, hd, hidle, hstep, hnil, hempty⟩ := release_delivers (w := stepReady s x ⟨stag, .release⟩ tag) ⟨hq.1, rfl⟩ (notSafe_of_ready hready)
    (by rw [hctx]) (by rw [hctx]; exact ⟨hslot, hend, hreq⟩) hclaims hb (by rw [← hs]; unfold State.sourceQuiet; rw [hctx]; rfl)
  have hjoin := stepJoined_takes hq hready hp (.inl hstate) hqueue ⟨hslot, hend, hreq⟩ ⟨stag, .release⟩ tag
  have hends := (hjoin.trans hd).ends ⟨hq.1, rfl⟩ (by decide)
  have hx := (hends.ctx x).trans (State.ctx_setCtx_self _ x c)
  have hanswer := finish_responses (stepJoined s x ⟨stag, .release⟩ tag)
  refine ⟨_, exec_step hroom hp (by rw [hready]; nofun) he trivial (by rw [hqueue]; decide), ?_, by rw [hx]; exact hidle, by rw [hx]; exact hstep,
    by rw [hx]; exact hnil, by rw [hx]; exact hempty, fun y hy => ?_, hends.matrix, (hends.idle (.inr ?_)).1, hends.guard, hends.out⟩
  · rw [stepJoined, hqueue] at hanswer
    rw [stepJoined, hqueue]
    exact hanswer
  · rw [hends.ctx, State.ctx_setCtx, if_neg (Ne.symm hy), stepReady_other hy]
  · show s.panel.state ≠ .closing
    rw [hp]; nofun

end Sys2Proof
end

