-- ==== Sys2Proof/Proofs/Resumptions.lean ====
section
/-!
PROOFS. The commands that let a bus go on: BUS RESUME (R87), CLEAR TRIP (R60), RESUME and SERVICE (R159 to R161).
-/

namespace Sys2Proof.Machine

/-! ### A bus that looks while it may go on -/

/-- A bus that looks with a step queued begins it (R67). -/
theorem looks_begins {s u v : State} {x : Bus} {st : Step} {rest : List Step} {k : Nat} (hu : Alike s u x) (hcalm : OthersCalm u x)
    (hout : u.out = []) (hready : u.guard.rack = .ready) (htrip : u.tripped x = false) (hq : (u.ctx x).queue = st :: rest)
    (hc : (u.ctx x).Clear) (hs : (u.ctx x).state = .idle) (hr : st.work.InRange s x) (hp : s.panel.state = .opn ∨ s.panel.state = .closing)
    (hsrc : (u.ctx x).source = (s.ctx x).source) (hsw : (u.ctx x).sweep = (s.ctx x).sweep) (hv : Delivers k v (poke u x)) (hk : k ≤ 16) :
    StepBegins s (finish v) x ((u.ctx x).took st rest) st := by
  have hsafe := hcalm.notSafe
  have hrange : st.work.InRange u x := by
    have hfits : ∀ n, NetFits u x n ↔ NetFits s x n := fun n => by
      unfold NetFits State.netEntry State.busEntry; rw [hu.tables]
    cases hw : st.work <;> rw [hw] at hr <;> simp only [Work.InRange] at hr ⊢ <;> simpa only [hfits] using hr
  rw [poke_takes hq hc (.inl hs) hready (by rw [hu.panel]; exact hp)] at hv
  exact (takeHead_begins ⟨hcalm, hout, barred_none_of hsafe htrip, hq, hc, hrange⟩ (comes_of_delivers hv hk x)).alike hu hsrc hsw

/-- A bus that goes on with its sweep (R96). -/
theorem sweeps_on {s u v : State} {x : Bus} {tag : Half} {sel : Selection} {n : Net} {lim : Fin 256} {k d timeout : Nat} {hold : Bool}
    (hu : Alike s u x) (hcalm : OthersCalm u x) (hout : u.out = []) (htrip : u.tripped x = false) (hctx : u.ctx x = s.ctx x)
    (hstep : (s.ctx x).step = some ⟨tag, .measure sel n lim k d timeout hold⟩) (hf : NetFits s x n) (hslot : (s.ctx x).slot = none)
    (hv : Comes u x v (nextSite u x)) : NextSite s (finish v) x (s.ctx x) n := by
  have hfit : NetFits u x n := by unfold NetFits State.netEntry State.busEntry; rw [hu.tables]; exact hf
  have hnext := nextSite_nextSite hcalm hout (by rw [hctx]; exact hstep) rfl hfit (barred_none_of hcalm.notSafe htrip)
    (by rw [hctx]; exact hslot) hv
  rw [hctx] at hnext
  exact hnext.alike hu (by rw [hctx])

/-- A context that has become IDLE stays so where it has no step to take (R67, R83). -/
theorem drain_idled (n : Nat) {u : State} {x : Bus} {c : Ctx} (hc : u.ctx x = c.idled) (hq : u.isReady = false ∨ c.queue = []) :
    c.idled.Rests ((drain n u).ctx x) := by
  have hinert : Inert u x := by
    rcases hq with hr | hq
    · exact .inr (.inr (.inl ⟨hr, .inl (by rw [hc]; rfl)⟩))
    · exact .inr (.inr (.inr ⟨by rw [hc]; rfl, by rw [hc]; exact hq⟩))
  have := (drain_inert n hinert).1
  rw [hc] at this
  exact this

/-! ### BUS RESUME (R87) -/

/-- What the owner of BUS RESUME answers. -/
def resumeOwner (p : List Byte) (s : State) : Reply :=
  match busAt p 0 with
  | none => .refused .badIndex
  | some x => if (s.ctx x).state = .halted then .ran (resumeHalted s x) [] else .refused .state

theorem exec_busResume {s : State} {x : Bus} {tag : Half} (h : HasRoom s) (hs : (s.ctx x).state = .halted) :
    exec (.busResume tag [byte x.val]) s = .next (finish ((resumeHalted s.begin x).respond tag 0x05#8 .ok [])) := by
  refine exec_ran (owner := resumeOwner [byte x.val]) rfl h rfl ?_
  rw [resumeOwner, busAt_byte]
  exact if_pos hs

theorem busResume_refused {s : State} {p : List Byte} {tag : Half} {st : Status} (h : HasRoom s) (hp : p.length = 1)
    (ho : resumeOwner p s.begin = .refused st) : OnlyReplies (.busResume tag p) s tag 0x05#8 st [] :=
  onlyReplies_refused (owner := resumeOwner p) rfl h hp ho

theorem resumeHalted_idles {s : State} {x : Bus} (h : (s.ctx x).resume ≠ .next) : resumeHalted s x = toIdle s x := by
  unfold resumeHalted
  split
  · next hn => exact absurd hn h
  · rfl

/-- The state in which a bus of a command that is answered has become IDLE and is to look. -/
theorem idled_delivers {s : State} {x : Bus} {tag : Half} {kind : Byte} {st : Status} {d : List Byte} (hq : Quiesced s) :
    ∃ u, u = { (s.setCtx x (s.ctx x).idled).respond tag kind st d with mail := [] } ∧
      Delivers 1 ((toIdle s x).respond tag kind st d) (poke u x) := by
  refine ⟨_, rfl, ?_⟩
  rw [toIdle_eq]
  refine .mail (.poke x) [] hq.1 ?_ (.refl _)
  show s.mail ++ [.poke x] = _
  rw [hq.2]; rfl

theorem alike_respond (s u : State) (x : Bus) (h : Alike s u x) (tag : Half) (kind : Byte) (st : Status) (d : List Byte) (m : List Mail) :
    Alike s { u.respond tag kind st d with mail := m } x :=
  ⟨h.tables, h.matrix, h.lanes, h.channels, h.queue, h.panel, h.presence, h.others⟩

end Sys2Proof.Machine

namespace Sys2Proof

open Machine

/-- Settles O24: a HALTED context leaves by its resume point; nothing else of it is looked at. -/
theorem busResumeLeavesHalted : Obligations.BusResumeLeavesHalted := by
  intro s tag hroom
  refine ⟨fun x hs => ?_, fun x hs => ?_, fun b hb => ?_⟩
  · have hkeeps : Keeps (fun _ => False) s.begin (resumeHalted s.begin x) := (Keeps.refl s.begin).resumeHalted x hs
    obtain ⟨v, hv⟩ : ∃ v, v = (resumeHalted s.begin x).respond tag 0x05#8 .ok [] := ⟨_, rfl⟩
    have hexec := exec_busResume (tag := tag) hroom hs
    rw [← hv] at hexec
    have halike : Alike s s.begin x := ⟨rfl, rfl, fun _ => rfl, rfl, rfl, rfl, rfl, fun _ _ => rfl⟩
    refine ⟨_, hexec, ?_, ?_, ?_, fun hq hr hn => ?_, fun hq hr hn => ?_, fun hq hr ht hc => ⟨fun stag sel n lim k d timeout hold hn hstep hf => ?_,
      fun st rest hn hqueue hrange hp => ?_⟩⟩
    · have hresp := finish_responses v
      rw [hv] at hresp ⊢
      refine hresp.trans ?_
      show (resumeHalted s.begin x).trunk.responses ++ _ = s.trunk.responses ++ _
      rw [hkeeps.trunk]; rfl
    · have hstart : LeavesStores s v := by rw [hv]; exact hkeeps.leaves
      exact hstart.trans (finish_leaves v)
    · rw [finish_guard, hv]; exact hkeeps.guard
    · have hstay : resumeHalted s.begin x = s.begin.setCtx x { s.ctx x with state := .suspended } := by
        unfold resumeHalted
        rw [show (s.begin.ctx x).resume = .next from hn, show s.begin.isReady = false from hr]
        rfl
      rw [hstay] at hv
      have hends := ends_quiesced (s := v) (by rw [hv]; exact hq)
      rw [hends.ctx, hv]
      exact State.ctx_setCtx_self _ _ _
    · have hidle := resumeHalted_idles (s := s.begin) hn
      have hctx : v.ctx x = (s.ctx x).idled := by rw [hv, hidle]; exact toIdle_ctx s.begin x
      have hrest := drain_idled drainBound hctx (hr.imp_left (fun h => by rw [hv, hidle]; exact h))
      rw [finish_ctx, hrest.rest]
      exact ⟨rfl, rfl, rfl, rfl, rfl, rfl, rfl⟩
    · have hnext : resumeHalted s.begin x = nextSite s.begin x := by
        unfold resumeHalted
        rw [show (s.begin.ctx x).resume = .next from hn, show s.begin.isReady = true from hr]
        rfl
      rw [hnext] at hv
      have hsafe : s.begin.isSafe = false := notSafe_of_ready (by simpa [State.isReady] using hr)
      rw [hv]
      exact sweeps_on halike (othersCalm_of_quiesced (s := s.begin) hq hsafe x) rfl ht rfl hstep hf hc.1 (comes_responded _ _ _ _ _ _ _)
    · have hidle := resumeHalted_idles (s := s.begin) hn
      rw [hidle] at hv
      have hready : s.guard.rack = .ready := by simpa [State.isReady] using hr
      obtain ⟨u, hu, hd⟩ := idled_delivers (s := s.begin) (x := x) (tag := tag) (kind := 0x05#8) (st := .ok) (d := []) hq
      have hctx : u.ctx x = (s.ctx x).idled := by rw [hu]; exact State.ctx_setCtx_self _ _ _
      have hua : Alike s u x := by
        rw [hu]
        exact alike_respond _ _ _ (halike.trans (alike_setCtx s.begin x _)) _ _ _ _ _
      rw [← hv] at hd
      have hcalm : OthersCalm u x := othersCalm_of_quiesced (by rw [hu]; exact ⟨hq.1, rfl⟩) (by rw [hu]; exact notSafe_of_ready hready) x
      have hb := looks_begins (st := st) (rest := rest) hua hcalm (by rw [hu]; rfl) (by rw [hu]; exact hready) (by rw [hu]; exact ht)
        (by rw [hctx]; exact hqueue) (by rw [hctx]; exact hc) (by rw [hctx]; rfl) hrange hp (by rw [hctx]; rfl) (by rw [hctx]; rfl) hd (by decide)
      rw [hctx] at hb
      exact hb
  · exact busResume_refused hroom rfl (by rw [resumeOwner, busAt_byte]; exact if_neg hs)
  · exact busResume_refused hroom rfl (by rw [resumeOwner, busAt_none hb])

end Sys2Proof

namespace Sys2Proof.Machine

/-! ### CLEAR TRIP (R60) -/

/-- What the owner of CLEAR TRIP answers. -/
def clearOwner (p : List Byte) (s : State) : Reply :=
  match busAt p 0 with
  | none => .refused .badIndex
  | some x =>
    if !s.tripped x then .refused .state
    else if asserted s x then .refused .asserted
    else .ran ((s.setTripped x false).post (.poke x)) []

theorem clearTrip_refused {s : State} {p : List Byte} {tag : Half} {st : Status} (h : HasRoom s) (hp : p.length = 1)
    (ho : clearOwner p s.begin = .refused st) : OnlyReplies (.clearTrip tag p) s tag 0x06#8 st [] :=
  onlyReplies_refused (owner := clearOwner p) rfl h hp ho

/-- The state after CLEAR TRIP in which the bus is to look. -/
def tripCleared (s : State) (x : Bus) (tag : Half) : State :=
  ((s.begin.setTripped x false).post (.poke x)).respond tag 0x06#8 .ok []

theorem exec_clearTrip {s : State} {x : Bus} {tag : Half} (h : HasRoom s) (ht : s.tripped x = true) (ha : asserted s x = false) :
    exec (.clearTrip tag [byte x.val]) s = .next (finish (tripCleared s x tag)) := by
  refine exec_ran (owner := clearOwner [byte x.val]) rfl h rfl ?_
  have ha' : asserted s.begin x = false := ha
  rw [clearOwner, busAt_byte]
  dsimp only
  rw [show s.begin.tripped x = true from ht, ha']
  rfl

/-- The same with no mail. -/
def tripGone (s : State) (x : Bus) (tag : Half) : State := { tripCleared s x tag with mail := [] }

theorem tripGone_tripped (s : State) (x : Bus) (tag : Half) : (tripGone s x tag).tripped x = false :=
  (State.tripped_setTripped s.begin x x false).trans (if_pos rfl)

/-- A bus whose trip is cleared looks, and leaves TRIPPED by its resume point (R89). -/
theorem tripCleared_leaves {s : State} {x : Bus} (hq : Quiesced s) (hs : (s.ctx x).state = .tripped) (hslot : (s.ctx x).slot = none)
    (hend : (s.ctx x).endPending = none) (tag : Half) : Delivers 1 (tripCleared s x tag) (leaveTripped (tripGone s x tag) x) := by
  have hpoke : poke (tripGone s x tag) x = leaveTripped (tripGone s x tag) x := by
    have hctx : (tripGone s x tag).ctx x = s.ctx x := rfl
    unfold poke
    rw [placeEnd_none (.inr (by rw [hctx]; exact hend))]
    dsimp only
    rw [hctx, hs, hslot, hend, tripGone_tripped]
    rfl
  rw [← hpoke]
  refine .mail (.poke x) [] hq.1 ?_ (.refl _)
  show s.mail ++ [.poke x] = _
  rw [hq.2]; rfl

theorem alike_tripGone (s : State) (x : Bus) (tag : Half) : Alike s (tripGone s x tag) x :=
  ⟨rfl, rfl, fun _ => rfl, rfl, rfl, rfl, rfl, fun _ _ => rfl⟩

theorem tripGone_quiesced {s : State} (hq : Quiesced s) (x : Bus) (tag : Half) : Quiesced (tripGone s x tag) := ⟨hq.1, rfl⟩

/-- A context that leaves TRIPPED with nothing to resume is IDLE and looks (R89). -/
theorem leaveTripped_idles {s : State} {x : Bus} (h : (s.ctx x).resume = .none) : leaveTripped s x = toIdle s x := by
  unfold leaveTripped; rw [h]

theorem toIdle_looks {s : State} (hq : Quiesced s) (x : Bus) : Delivers 1 (toIdle s x) (poke (s.setCtx x (s.ctx x).idled) x) := by
  have h := delivers_told (u := s.setCtx x (s.ctx x).idled) (m := .poke x) hq
  rw [toIdle_eq]
  exact h

end Sys2Proof.Machine

namespace Sys2Proof

open Machine

/-- Settles O25: the flag is cleared, and the bus looks and leaves TRIPPED by its resume point. -/
theorem clearTripClearsTheFlag : Obligations.ClearTripClearsTheFlag := by
  intro s tag hroom
  refine ⟨fun x ht ha => ⟨_, exec_clearTrip hroom ht ha, finish_responses (tripCleared s x tag), finish_leaves (tripCleared s x tag),
    finish_guard (tripCleared s x tag), fun hq hs hslot hend => ?_⟩, fun x ht => ?_, fun x ht ha => ?_, fun b hb => ?_⟩
  · have hd := tripCleared_leaves hq hs hslot hend tag
    have hgone := tripGone_quiesced hq x tag
    have halike := alike_tripGone s x tag
    obtain ⟨w, hw⟩ : ∃ w, w = tripGone s x tag := ⟨_, rfl⟩
    have hctx : w.ctx x = s.ctx x := by rw [hw]; rfl
    have hready : w.isReady = s.isReady := by rw [hw]; rfl
    have hcalm : ∀ c, s.isReady = true → OthersCalm (w.setCtx x c) x := fun c hr =>
      (othersCalm_of_quiesced (hw ▸ hgone) (by rw [hw]; exact notSafe_of_ready (s := s) (by simpa [State.isReady] using hr)) x).setCtx c
    rw [← hw] at hd hgone halike
    refine ⟨fun hr hn => ?_, fun hn => ?_, fun hn hidle => ?_, fun hr hreq => ⟨fun stag sel n lim k d timeout hold hn hstep hf => ?_,
      fun st rest hn hqueue hrange hp => ?_⟩⟩
    · have hleave : leaveTripped w x = w.setCtx x { s.ctx x with state := .suspended } := by
        unfold leaveTripped
        rw [hctx, hn]
        dsimp only
        rw [hready, hr, State.modCtx, hctx]
        rfl
      rw [hleave] at hd
      rw [(hd.ends hgone (by decide)).ctx, State.ctx_setCtx_self]
    · have hleave : leaveTripped w x = enterHalted (w.modCtx x (fun c => { c with resume := c.nextOrNone })) x := by
        unfold leaveTripped; rw [hctx, hn]
      rw [hleave] at hd
      have hends := hd.ends hgone (by decide)
      refine ⟨?_, ?_⟩
      · rw [hends.ctx, enterHalted_ctx]
      · rw [finish, pump_attn, (panelCheck_only _).attn, hd.drainAll (by decide)]
        exact (Keeps.drain _ (Keeps.refl (Q := fun _ => False) _)).stepRaised rfl
    · rw [leaveTripped_idles (by rw [hctx]; exact hn)] at hd
      have hrest := drain_idled (drainBound - 1) (u := toIdle w x) (x := x) (c := s.ctx x) (by rw [toIdle_ctx, hctx])
        (hidle.imp_left (fun h => hready.trans h))
      rw [finish_ctx, hd.drainAll (by decide), hrest.rest]
      rfl
    · have hleave : leaveTripped w x = nextSite w x := by
        unfold leaveTripped
        rw [hctx, hn]
        dsimp only
        rw [hready, hr]
        rfl
      rw [hleave] at hd
      have hcalm := hcalm (w.ctx x) hr
      rw [State.setCtx_ctx] at hcalm
      exact sweeps_on halike hcalm (by rw [hw]; rfl) (by rw [hw]; exact tripGone_tripped s x tag) hctx hstep hf hslot
        (comes_of_delivers hd (by decide) x)
    · rw [leaveTripped_idles (by rw [hctx]; exact hn)] at hd
      have hlook := hd.trans (toIdle_looks hgone x)
      rw [hctx] at hlook
      have huctx : (w.setCtx x (s.ctx x).idled).ctx x = (s.ctx x).idled := State.ctx_setCtx_self _ _ _
      have hb := looks_begins (st := st) (rest := rest) (halike.trans (alike_setCtx w x (s.ctx x).idled)) (hcalm _ hr)
        (by rw [hw]; rfl) (by rw [hw]; exact (show s.guard.rack = .ready by simpa [State.isReady] using hr))
        (by rw [hw]; exact tripGone_tripped s x tag) (by rw [huctx]; exact hqueue) (by rw [huctx]; exact ⟨hslot, hend, hreq⟩)
        (by rw [huctx]; rfl) hrange hp (by rw [huctx]; rfl) (by rw [huctx]; rfl) hlook (by decide)
      rw [huctx] at hb
      exact hb
  · exact clearTrip_refused hroom rfl (by
      rw [clearOwner, busAt_byte]
      dsimp only
      rw [show s.begin.tripped x = false from ht]; rfl)
  · exact clearTrip_refused hroom rfl (by
      rw [clearOwner, busAt_byte]
      dsimp only
      rw [show s.begin.tripped x = true from ht, show asserted s.begin x = true from ha]; rfl)
  · exact clearTrip_refused hroom rfl (by rw [clearOwner, busAt_none hb])

end Sys2Proof
end

