-- ==== Sys2Proof/Proofs/Readiness.lean ====
section
/-!
PROOFS. The rack becomes READY (R159, R161): with nothing to do at the other buses, a bus begins its site again, goes on with its
sweep or takes a step (R67, R88, R96); and the checks of RESUME, SERVICE ENTER and SERVICE EXIT.
-/

namespace Sys2Proof.Machine

/-! ### The other buses are told (R159) -/

theorem OthersRest.congr {s u : State} {x : Bus} (h : OthersRest s x) (hu : ∀ y, y ≠ x → (s.ctx y).Spared (u.ctx y)) : OthersRest u x := by
  intro y hy
  obtain ⟨h1, h2⟩ := h y hy
  have hk := hu y hy
  have hrest := hk.rest
  rcases hk.state with hs | ⟨-, hs⟩
  · rw [hrest, hs]; exact ⟨h1, h2⟩
  · rw [hrest, hs]; exact ⟨nofun, fun hm => hm.elim nofun nofun⟩

theorem readyCtx_looks {s : State} {y : Bus} (h : (s.ctx y).state = .idle ∨ (s.ctx y).state = .holding) :
    readyCtx s y = s.post (.poke y) := by
  unfold readyCtx
  dsimp only
  rcases h with h | h <;> rw [h]

theorem readyCtx_stays {s : State} {y : Bus} (h : (s.ctx y).state ≠ .suspended)
    (h' : ¬ ((s.ctx y).state = .idle ∨ (s.ctx y).state = .holding)) : readyCtx s y = s := by
  unfold readyCtx
  dsimp only
  generalize (s.ctx y).state = st at h h'
  cases st
  case suspended => exact absurd rfl h
  case idle => exact absurd (.inl rfl) h'
  case holding => exact absurd (.inr rfl) h'
  all_goals rfl

/-- A bus with nothing to do is told that the rack is READY: it is to look, or nothing happens (R88). -/
theorem readyCtx_rests {s : State} {x y : Bus} (h : OthersRest s x) (hy : y ≠ x) :
    ∃ l, readyCtx s y = { s with mail := s.mail ++ l } ∧ NoCalls s x l ∧ l.length ≤ 1 := by
  obtain ⟨h1, h2⟩ := h y hy
  have hnone : ∃ l, s = { s with mail := s.mail ++ l } ∧ NoCalls s x l ∧ l.length ≤ 1 :=
    ⟨[], by rw [List.append_nil], noCalls_nil s x, Nat.zero_le _⟩
  have hpoke : (s.ctx y).state = .idle ∨ (s.ctx y).state = .holding →
      ∃ l, s.post (.poke y) = { s with mail := s.mail ++ l } ∧ NoCalls s x l ∧ l.length ≤ 1 := fun hs =>
    ⟨[.poke y], rfl, fun m hm => ⟨y, hy, List.mem_singleton.1 hm, (h2 hs).1, (h2 hs).2, hs⟩, le_rfl⟩
  by_cases hs : (s.ctx y).state = .idle ∨ (s.ctx y).state = .holding
  · rw [readyCtx_looks hs]; exact hpoke hs
  · rw [readyCtx_stays h1 hs]; exact hnone

theorem foldl_readyCtx_rests {x : Bus} (L : List Bus) {s : State} (h : OthersRest s x) (hx : x ∉ L) :
    ∃ l, L.foldl readyCtx s = { s with mail := s.mail ++ l } ∧ NoCalls s x l ∧ l.length ≤ L.length := by
  induction L generalizing s with
  | nil => exact ⟨[], by rw [List.append_nil]; rfl, noCalls_nil s x, le_rfl⟩
  | cons y L ih =>
    obtain ⟨l, hl, hn, hlen⟩ := readyCtx_rests h (y := y) (fun e => hx (e ▸ List.mem_cons_self))
    obtain ⟨l', hl', hn', hlen'⟩ := ih (s := { s with mail := s.mail ++ l }) h (fun hm => hx (List.mem_cons_of_mem _ hm))
    refine ⟨l ++ l', ?_, hn.append hn', ?_⟩
    · rw [List.foldl_cons, hl, hl']
      show { s with mail := (s.mail ++ l) ++ l' } = _
      rw [List.append_assoc]
    · rw [List.length_append, List.length_cons]; omega

/-- Bus `x` among all. -/
theorem allBuses_split (x : Bus) : ∃ l l', allBuses = l ++ x :: l' ∧ x ∉ l ∧ x ∉ l' ∧ l.length ≤ 8 ∧ l'.length ≤ 8 := by
  have hall : ∀ x : Bus, allBuses = allBuses.takeWhile (· != x) ++ x :: (allBuses.dropWhile (· != x)).tail ∧
      x ∉ allBuses.takeWhile (· != x) ∧ x ∉ (allBuses.dropWhile (· != x)).tail ∧ (allBuses.takeWhile (· != x)).length ≤ 8 ∧
      (allBuses.dropWhile (· != x)).tail.length ≤ 8 := by decide
  exact ⟨_, _, hall x⟩

/-- The state in which the buses before `x` have been told that the rack is READY, `l` being their mail. -/
def readyBefore (s : State) (l : List Mail) : State := { s.begin.modGuard (fun g => { g with rack := .ready }) with mail := l }

theorem alike_readyBefore (s : State) (l : List Mail) (x : Bus) : Alike s (readyBefore s l) x :=
  ⟨rfl, rfl, fun _ => rfl, rfl, rfl, rfl, rfl, fun _ _ => rfl⟩

/-- The state that the rack's becoming READY leaves, with work to begin at bus `x` alone. -/
theorem becomeReady_eq {s : State} {x : Bus} (hq : Quiesced s) (h : OthersRest s x) :
    ∃ l l', OthersCalm (readyBefore s l) x ∧ l'.length ≤ 8 ∧ NoCalls (readyBefore s l) x l' ∧ becomeReady s.begin =
      { readyCtx (readyBefore s l) x with mail := (readyCtx (readyBefore s l) x).mail ++ l' } := by
  obtain ⟨L, L', hsplit, hx, hx', hlen, hlen'⟩ := allBuses_split x
  have hstart : OthersRest (readyBefore s []) x := h
  obtain ⟨l, hl, hn, hll⟩ := foldl_readyCtx_rests L hstart hx
  have hrun : Run False True (fun y => y = x) (readyBefore s l) (readyCtx (readyBefore s l) x) := Run.readyCtx x trivial rfl .refl
  have hspared : ∀ y, y ≠ x → ((readyBefore s l).ctx y).Spared ((readyCtx (readyBefore s l) x).ctx y) := fun y hy =>
    hrun.spared (x := y) hy
  have hafter : OthersRest (readyCtx (readyBefore s l) x) x := OthersRest.congr (s := readyBefore s l) h hspared
  obtain ⟨l', hl', hn', hll'⟩ := foldl_readyCtx_rests L' hafter hx'
  refine ⟨l, l', ⟨hq.1, hn, hll.trans hlen, rfl⟩, hll'.trans hlen', fun m hm => ?_, ?_⟩
  · obtain ⟨y, hy, hmy, hqueue, hend, hs⟩ := hn' m hm
    obtain ⟨h1, h2⟩ := h y hy
    have hstate : ((readyCtx (readyBefore s l) x).ctx y).state = ((readyBefore s l).ctx y).state :=
      (hspared y hy).state.resolve_right (fun ⟨_, hm⟩ => by rw [hm] at hs; exact hs.elim nofun nofun)
    rw [hstate] at hs
    exact ⟨y, hy, hmy, (h2 hs).1, (h2 hs).2, hs⟩
  · have hb : s.begin.modGuard (fun g => { g with rack := .ready }) = readyBefore s [] := by
      rw [readyBefore, ← show s.mail = [] from hq.2]; rfl
    unfold becomeReady
    rw [hb, hsplit, List.foldl_append, hl, List.foldl_cons]
    exact hl'

/-- What the bus does at once. -/
theorem becomeReady_comes {s : State} {x : Bus} (hq : Quiesced s) (h : OthersRest s x) (tag : Half) (kind : Byte) :
    ∃ l, OthersCalm (readyBefore s l) x ∧
      Comes (readyBefore s l) x ((becomeReady s.begin).respond tag kind .ok []) (readyCtx (readyBefore s l) x) := by
  obtain ⟨l, l', hcalm, hlen, hn, hready⟩ := becomeReady_eq hq h
  exact ⟨l, hcalm, ⟨0, l', ((becomeReady s.begin).respond tag kind .ok []).trunk, Nat.zero_le _, hlen, hn, by rw [hready]; exact .refl _⟩⟩

/-- What it does in its turn, where it is told to look. -/
theorem becomeReady_looks {s : State} {x : Bus} (hq : Quiesced s) (h : OthersRest s x) (tag : Half) (kind : Byte)
    (hpost : ∀ l, readyCtx (readyBefore s l) x = (readyBefore s l).post (.poke x)) :
    ∃ k u, k ≤ 16 ∧ Delivers k ((becomeReady s.begin).respond tag kind .ok []) (poke u x) ∧ OthersCalm u x ∧ Alike s u x ∧
      u.out = [] ∧ u.guard = { s.guard with rack := .ready } ∧ u.ctx x = s.ctx x := by
  obtain ⟨l, l', hcalm, hlen', hn, hready⟩ := becomeReady_eq hq h
  rw [hpost] at hready
  generalize becomeReady s.begin = w at hready ⊢
  subst hready
  have hlook := hcalm.mail.looks (l' := l')
    (s := State.respond { (readyBefore s l).post (.poke x) with mail := ((readyBefore s l).post (.poke x)).mail ++ l' } tag kind .ok [])
    hcalm.notSafe hcalm.work (List.append_assoc l [.poke x] l')
  have hlen : l.length ≤ 8 := hcalm.few
  exact ⟨l.length + 1, _, by omega, hlook, ⟨hcalm.work, hn, hlen', hcalm.notSafe⟩,
    ⟨rfl, rfl, fun _ => rfl, rfl, rfl, rfl, rfl, fun _ _ => rfl⟩, rfl, rfl, rfl⟩

/-! ### RESUME, SERVICE ENTER and SERVICE EXIT -/

theorem becomeReady_keeps (s : State) :
    Keeps (fun _ => False) (s.begin.modGuard (fun g => { g with rack := .ready })) (becomeReady s.begin) := by
  have hall : ∀ (L : List Bus) (u : State), Keeps (fun _ => False) (s.begin.modGuard (fun g => { g with rack := .ready })) u →
      Keeps (fun _ => False) (s.begin.modGuard (fun g => { g with rack := .ready })) (L.foldl readyCtx u) := fun L => by
    induction L with
    | nil => exact fun u h => h
    | cons y L ih => exact fun u h => ih _ (h.readyCtx y)
  exact hall _ _ (.refl _)

/-- The end of a command at which the rack becomes READY (R159, R161). -/
theorem becomeReady_ends (s : State) (tag : Half) (kind : Byte) :
    Answered s (finish ((becomeReady s.begin).respond tag kind .ok [])) tag kind .ok [] ∧
      (finish ((becomeReady s.begin).respond tag kind .ok [])).guard = { s.guard with rack := .ready } ∧
      LeavesStores s (finish ((becomeReady s.begin).respond tag kind .ok [])) := by
  have k := becomeReady_keeps s
  generalize becomeReady s.begin = w at k
  have hresp : w.trunk.responses = s.trunk.responses := by rw [k.trunk]; rfl
  have hanswer := finish_responses (w.respond tag kind .ok [])
  have hstart : LeavesStores s (w.respond tag kind .ok []) := k.leaves
  refine ⟨hanswer.trans ?_, (finish_guard (w.respond tag kind .ok [])).trans k.guard, hstart.trans (finish_leaves _)⟩
  show w.trunk.responses ++ _ = s.trunk.responses ++ _
  rw [hresp]

/-- What the owner of RESUME answers. -/
def readyOwner (s : State) : Reply :=
  if !s.isSafe then .refused .state
  else
    match s.guard.interlock with
    | .opn => .refused .state
    | .waiting => .refused .busy
    | .clear => .ran (becomeReady s) []

theorem exec_resume {s : State} {tag : Half} (h : HasRoom s) (hs : s.isSafe = true) (hi : s.guard.interlock = .clear) :
    exec (.resume tag []) s = .next (finish ((becomeReady s.begin).respond tag 0x08#8 .ok [])) := by
  refine exec_ran (owner := readyOwner) rfl h rfl ?_
  rw [readyOwner, show s.begin.isSafe = true from hs, show s.begin.guard.interlock = .clear from hi]
  rfl

theorem resume_refused {s : State} {tag : Half} {st : Status} (h : HasRoom s) (ho : readyOwner s.begin = .refused st) :
    OnlyReplies (.resume tag []) s tag 0x08#8 st [] := onlyReplies_refused (owner := readyOwner) rfl h rfl ho

/-- What the owner of SERVICE ENTER answers. -/
def enterOwner (s : State) : Reply :=
  if s.guard.rack ≠ .ready then .refused .state
  else if allBuses.all (busAtRest s) then .ok (s.modGuard (fun g => { g with rack := .service })) []
  else .refused .busy

theorem serviceEnter_refused {s : State} {tag : Half} {st : Status} (h : HasRoom s) (ho : enterOwner s.begin = .refused st) :
    OnlyReplies (.serviceEnter tag []) s tag 0x09#8 st [] := onlyReplies_refused (owner := enterOwner) rfl h rfl ho

/-- What SERVICE ENTER asks of a bus (R160). -/
theorem busAtRest_iff {s : State} {x : Bus} : busAtRest s x = true ↔
    (s.ctx x).state = .idle ∧ (s.ctx x).queue = [] ∧ (s.ctx x).slot = none ∧ (s.ctx x).endPending = none ∧ ∀ p : Pt, s.claimed x p = false := by
  have hclaims : s.busInUse x = false ↔ ∀ p : Pt, s.claimed x p = false := by
    unfold State.busInUse
    rw [List.any_eq_false]
    simp [allPoints]
  unfold busAtRest
  simp only [Bool.and_eq_true, beq_iff_eq, List.isEmpty_iff, Option.isNone_iff_eq_none, Bool.not_eq_true', hclaims, and_assoc]

/-- What the owner of SERVICE EXIT answers. -/
def exitOwner (s : State) : Reply :=
  if s.guard.rack ≠ .service then .refused .state
  else if allLanes.any (fun l => (s.lane l).state == .test) then .refused .busy
  else .ran (becomeReady s) []

theorem serviceExit_refused {s : State} {tag : Half} {st : Status} (h : HasRoom s) (ho : exitOwner s.begin = .refused st) :
    OnlyReplies (.serviceExit tag []) s tag 0x0A#8 st [] := onlyReplies_refused (owner := exitOwner) rfl h rfl ho

/-! ### What a bus begins when the rack becomes READY -/

theorem readyCtx_redo {s : State} {x : Bus} {u : Site} (hs : (s.ctx x).state = .suspended) (hr : (s.ctx x).resume = .redo)
    (hi : (s.ctx x).inFlight = some u) : readyCtx s x = startSite s x u := by
  unfold readyCtx
  dsimp only
  rw [hs, hr, hi]

theorem readyCtx_next {s : State} {x : Bus} (hs : (s.ctx x).state = .suspended) (hr : (s.ctx x).resume = .next) :
    readyCtx s x = s.post (.poke x) := by
  unfold readyCtx
  dsimp only
  rw [hs, hr]

/-- A site to redo begins again (R68, R88). -/
theorem ready_redo {s : State} {x : Bus} {u : Site} {n : Net} {st : Step} (hq : Quiesced s) (h : OthersRest s x) (ht : s.tripped x = false)
    (hs : (s.ctx x).state = .suspended) (hr : (s.ctx x).resume = .redo) (hi : (s.ctx x).inFlight = some u)
    (hstep : (s.ctx x).step = some st) (hn : st.net? = some n) (hf : NetFits s x n) (he : (s.siteEntry u).enabled = true) (tag : Half) :
    SiteBegins s (finish ((becomeReady s.begin).respond tag 0x08#8 .ok [])) x (s.ctx x) u n := by
  obtain ⟨l, hcalm, hcomes⟩ := becomeReady_comes hq h tag 0x08#8
  rw [readyCtx_redo (s := readyBefore s l) hs hr hi] at hcomes
  have hb := startSite_begins (s := readyBefore s l) (x := x) (u := u) (n := n) hcalm.work rfl hstep hn he hf
    (barred_none_of hcalm.notSafe ht) (hcomes.comesTo hcalm)
  exact hb.alike (alike_readyBefore s l x) rfl

/-- A site to redo that is not enabled any more is judged (R15, R88). -/
theorem ready_disabled {s : State} {x : Bus} {u : Site} {stag : Half} {sel : Selection} {n : Net} {lim : Fin 256} {k d timeout : Nat} {hold : Bool}
    (hq : Quiesced s) (h : OthersRest s x) (hs : (s.ctx x).state = .suspended) (hr : (s.ctx x).resume = .redo)
    (hi : (s.ctx x).inFlight = some u) (hstep : (s.ctx x).step = some ⟨stag, .measure sel n lim k d timeout hold⟩)
    (he : (s.siteEntry u).enabled = false) (hcap : (s.ctx x).captured = none) (hl : s.queue.records.length < 64) (tag : Half) :
    ∃ rs, (finish ((becomeReady s.begin).respond tag 0x08#8 .ok [])).queue.records = s.queue.records ++
      invalidRecord s x stag s.tables.limits[lim].row false .notAvailable :: rs := by
  obtain ⟨l, hcalm, hcomes⟩ := becomeReady_comes hq h tag 0x08#8
  rw [readyCtx_redo (s := readyBefore s l) hs hr hi] at hcomes
  have hctx : ((readyBefore s l).setCtx x ((s.ctx x).headed u)).ctx x = (s.ctx x).headed u := State.ctx_setCtx_self _ _ _
  have hrec : SameRecord s ((readyBefore s l).setCtx x (((readyBefore s l).ctx x).headed u)) x :=
    ⟨rfl, rfl, rfl, by rw [show (readyBefore s l).ctx x = s.ctx x from rfl, hctx, hi]; rfl,
      by rw [show (readyBefore s l).ctx x = s.ctx x from rfl, hctx]; rfl⟩
  exact startSite_disabled (s := readyBefore s l) hrec hstep hcap he hl hcomes

/-- A sweep goes on to its next site (R88, R96). -/
theorem ready_next {s : State} {x : Bus} {stag : Half} {sel : Selection} {n : Net} {lim : Fin 256} {k d timeout : Nat} {hold : Bool}
    (hq : Quiesced s) (h : OthersRest s x) (ht : s.tripped x = false) (hc : (s.ctx x).Clear) (hs : (s.ctx x).state = .suspended)
    (hr : (s.ctx x).resume = .next) (hstep : (s.ctx x).step = some ⟨stag, .measure sel n lim k d timeout hold⟩) (hf : NetFits s x n)
    (tag : Half) : NextSite s (finish ((becomeReady s.begin).respond tag 0x08#8 .ok [])) x (s.ctx x) n := by
  obtain ⟨j, u, hj, hd, hcalm, halike, hout, hguard, hctx⟩ :=
    becomeReady_looks hq h tag 0x08#8 (fun l => readyCtx_next (s := readyBefore s l) hs hr)
  have hready : u.isReady = true := by rw [State.isReady, hguard]; rfl
  have hpoke : poke u x = nextSite u x := by
    unfold poke
    rw [placeEnd_none (.inr (by rw [hctx]; exact hc.2.1))]
    dsimp only
    rw [hctx, hs, hr, hc.1, hc.2.1, hready]
    rfl
  rw [hpoke] at hd
  exact sweeps_on halike hcalm hout (by rw [State.tripped, hguard]; exact ht) hctx hstep hf hc.1 (comes_of_delivers hd hj x)

/-- An IDLE bus takes the step at the head of its queue (R67, R159). -/
theorem ready_takes {s : State} {x : Bus} {st : Step} {rest : List Step} (hq : Quiesced s) (h : OthersRest s x) (ht : s.tripped x = false)
    (hc : (s.ctx x).Clear) (hs : (s.ctx x).state = .idle) (hqueue : (s.ctx x).queue = st :: rest) (hr : st.work.InRange s x)
    (hp : s.panel.state = .opn ∨ s.panel.state = .closing) (tag : Half) :
    StepBegins s (finish ((becomeReady s.begin).respond tag 0x08#8 .ok [])) x ((s.ctx x).took st rest) st := by
  obtain ⟨j, u, hj, hd, hcalm, halike, hout, hguard, hctx⟩ :=
    becomeReady_looks hq h tag 0x08#8 (fun l => readyCtx_looks (s := readyBefore s l) (.inl hs))
  have hb := looks_begins (st := st) (rest := rest) halike hcalm hout (by rw [hguard]) (by rw [State.tripped, hguard]; exact ht)
    (by rw [hctx]; exact hqueue) (by rw [hctx]; exact hc) (by rw [hctx]; exact hs) hr hp (by rw [hctx]) (by rw [hctx]) hd hj
  rw [hctx] at hb
  exact hb

end Sys2Proof.Machine

namespace Sys2Proof

open Machine

/-- Settles O27: the checks in order, and what the bus does at once or in its turn when the rack becomes READY. -/
theorem rackCommandsMoveTheRack : Obligations.RackCommandsMoveTheRack := by
  intro s tag hroom
  refine ⟨fun hs hi => ?_, fun h => resume_refused hroom ?_, fun hs hi => resume_refused hroom ?_, fun hr hrest => ?_,
    fun hr hbusy => serviceEnter_refused hroom ?_, fun hr => serviceEnter_refused hroom (if_pos hr), fun hr hl => ?_,
    fun hr hl => serviceExit_refused hroom ?_, fun hr => serviceExit_refused hroom (if_pos hr)⟩
  · obtain ⟨hanswer, hguard, hleave⟩ := becomeReady_ends s tag 0x08#8
    refine ⟨_, exec_resume hroom hs hi, hanswer, hguard, hleave, fun x hq hrest ht hc =>
      ⟨fun stag sel n lim k d timeout hold hst hstep hf => ⟨fun u hr hin => ⟨fun he => ?_, fun he hcap hl => ?_⟩, fun hr => ?_⟩,
        fun stag u n hst hstep hf hr hin he => ?_, fun st rest hst hqueue hrange hp => ?_⟩⟩
    · exact ready_redo hq hrest ht hst hr hin hstep rfl hf he tag
    · exact ready_disabled hq hrest hst hr hin hstep he hcap hl tag
    · exact ready_next hq hrest ht hc hst hr hstep hf tag
    · exact ready_redo hq hrest ht hst hr hin hstep rfl hf he tag
    · exact ready_takes hq hrest ht hc hst hqueue hrange hp tag
  · rcases h with h | h
    · exact if_pos (by rw [show s.begin.isSafe = false from h]; rfl)
    · rw [readyOwner, show s.begin.guard.interlock = .opn from h]
      exact ite_self _
  · rw [readyOwner, show s.begin.isSafe = true from hs, show s.begin.guard.interlock = .waiting from hi]
    rfl
  · have hall : allBuses.all (busAtRest s.begin) = true :=
      List.all_eq_true.2 (fun x _ => busAtRest_iff.2 (hrest x))
    have hok : enterOwner s.begin = .ok (s.begin.modGuard (fun g => { g with rack := .service })) [] :=
      (if_neg (not_not.2 hr)).trans (if_pos hall)
    exact ⟨_, exec_ok (owner := enterOwner) rfl hroom rfl hok, by simp [Answered], by simp [SameBlocks, State.modGuard], by simp⟩
  · obtain ⟨x, hx⟩ := hbusy
    have hall : ¬ allBuses.all (busAtRest s.begin) = true := fun hall => by
      obtain ⟨h1, h2, h3, h4, h5⟩ := busAtRest_iff.1 (List.all_eq_true.1 hall x (List.mem_finRange x))
      rcases hx with hx | hx | hx | hx | ⟨p, hp⟩
      · exact hx h1
      · exact hx h2
      · exact hx h3
      · exact hx h4
      · rw [show s.claimed x p = false from h5 p] at hp; cases hp
    exact (if_neg (not_not.2 hr)).trans (if_neg hall)
  · have hnone : ¬ allLanes.any (fun l => (s.begin.lane l).state == .test) = true := fun h => by
      obtain ⟨l, _, ht⟩ := List.any_eq_true.1 h
      exact hl l (beq_iff_eq.1 ht)
    obtain ⟨hanswer, hguard, hleave⟩ := becomeReady_ends s tag 0x0A#8
    exact ⟨_, exec_ran (owner := exitOwner) rfl hroom rfl ((if_neg (not_not.2 hr)).trans (if_neg hnone)), hanswer, hguard, hleave⟩
  · obtain ⟨l, hl⟩ := hl
    have hany : allLanes.any (fun l => (s.begin.lane l).state == .test) = true :=
      List.any_eq_true.2 ⟨l, List.mem_finRange l, beq_iff_eq.2 hl⟩
    exact (if_neg (not_not.2 hr)).trans (if_pos hany)

end Sys2Proof
end

