-- ==== Sys2Proof/Proofs/Aborts.lean ====
section
/-!
PROOFS. BUS ABORT (R86, R104): the bus has no step queued, a working context has no site in flight, a redo gives its two records,
and a halted sweep ends.
-/

namespace Sys2Proof.Machine

/-! ### A bus that has been aborted (R86) -/

/-- A context after BUS ABORT: no step queued, no site in flight, and on its way to a release, in it or past it. -/
structure Ctx.Aborted (c : Ctx) : Prop where
  queue : c.queue = []
  inFlight : c.inFlight = none
  state : (c.state.working = true ∧ c.after = .abort) ∨ c.state = .releasing ∨ c.state = .idle ∨ c.state = .halted

theorem Ctx.Aborted.spared {c d : Ctx} (h : c.Aborted) (k : c.Spared d) : d.Aborted := by
  have hrest := k.rest
  have hstate : d.state = c.state ∨ (c.state.working = true ∧ d.state.working = true) := k.state.imp_right (fun ⟨hb, hm⟩ => by
    rw [hb, hm]; exact ⟨rfl, rfl⟩)
  rw [hrest]
  refine ⟨h.queue, h.inFlight, ?_⟩
  rcases hstate with hs | ⟨hc, hd⟩
  · rw [hs]; exact h.state
  · refine .inl ⟨hd, ?_⟩
    rcases h.state with ⟨_, ha⟩ | hs | hs | hs
    · exact ha
    all_goals rw [hs] at hc; cases hc

theorem placeEnd_aborted {s : State} {x : Bus} (h : (s.ctx x).Aborted) : ((placeEnd s x).ctx x).Aborted := by
  rw [(placeEnd_rests s x).rest]
  exact ⟨h.queue, h.inFlight, h.state⟩

theorem releaseFails_aborted {s : State} {x : Bus} (h : (s.ctx x).Aborted) (hr : (s.ctx x).state = .releasing) (cause : Cause) :
    ((releaseFails s x cause).ctx x).Aborted ∧ ((releaseFails s x cause).ctx x).state = .releasing := by
  refine ⟨?_, (releaseFails_state s x cause).trans hr⟩
  have hnote : ∀ u : State, (u.ctx x).queue = [] → (u.ctx x).inFlight = none → (u.ctx x).state = .releasing →
      ((u.modCtx x (fun c => { c with relFail := if c.relFail.isNone then some cause else c.relFail })).ctx x).Aborted :=
    fun u h1 h2 h3 => by rw [State.ctx_modCtx_self]; exact ⟨h1, h2, .inr (.inl h3)⟩
  unfold releaseFails
  dsimp only
  split
  · refine hnote _ ?_ ?_ ?_ <;> rw [State.ctx_modCtx_self, judgeInvalid_ctx]
    · exact h.queue
    · rfl
    · exact hr
  · exact hnote s h.queue h.inFlight hr

theorem askRelease_aborted {s : State} {x : Bus} (h : (s.ctx x).Aborted) (hr : (s.ctx x).state = .releasing) :
    ((askRelease s x).ctx x).Aborted := by
  have hrest := opensRequest_rest s x (s.claims x)
  have hstate := opensRequest_state s x (s.claims x) (by rw [hr]; nofun)
  rw [hstate] at hrest
  rw [askRelease, hrest]
  exact ⟨h.queue, h.inFlight, .inr (.inl hr)⟩

theorem enterReleasing_aborted {s : State} {x : Bus} (hq : (s.ctx x).queue = []) (d : Dest) :
    ((enterReleasing s x d).ctx x).Aborted := by
  obtain ⟨v, hv, -⟩ := quietRequest_ctx (s.modCtx x (fun c => c.toRelease d)) x
  have hdef : enterReleasing s x d =
      match quietRequest (s.modCtx x (fun c => c.toRelease d)) x with
      | (s, .waits) => s.modCtx x (fun c => { c with request := some .quiet })
      | (s, .failed) => askRelease (releaseFails s x .lane) x
      | (s, _) => askRelease s x := rfl
  rw [State.ctx_modCtx_self] at hv
  rw [hdef]
  generalize quietRequest (s.modCtx x (fun c => c.toRelease d)) x = r at hv
  obtain ⟨u, ans⟩ := r
  dsimp only at hv
  have hr : (u.ctx x).state = .releasing := by rw [hv]; rfl
  have hu : (u.ctx x).Aborted := by rw [hv]; exact ⟨hq, rfl, .inr (.inl rfl)⟩
  cases ans with
  | waits => dsimp only; rw [State.ctx_modCtx_self]; exact ⟨hu.queue, hu.inFlight, hu.state⟩
  | failed =>
    obtain ⟨h1, h2⟩ := releaseFails_aborted hu hr .lane
    exact askRelease_aborted h1 h2
  | _ => exact askRelease_aborted hu hr

theorem releaseAnswered_aborted {s : State} {x : Bus} (h : (s.ctx x).Aborted) (hr : (s.ctx x).state = .releasing) (f : Option Cause) :
    ((releaseAnswered s x f).ctx x).Aborted := by
  have hdone : ∀ u : State, (u.ctx x).Aborted → (((u.modCtx x (fun c => { c with relDone := true })).post (.poke x)).ctx x).Aborted := fun u hu => by
    rw [show ∀ (v : State) m, (v.post m).ctx x = v.ctx x from fun _ _ => rfl, State.ctx_modCtx_self]
    exact ⟨hu.queue, hu.inFlight, hu.state⟩
  cases f with
  | none => exact hdone s h
  | some cause =>
    unfold releaseAnswered
    dsimp only
    split
    · exact hdone _ (releaseFails_aborted h hr cause).1
    · exact hdone _ (releaseFails_aborted (s := s.raise .step) h hr cause).1
    · exact hdone _ (releaseFails_aborted h hr cause).1

/-- A bus that has been aborted looks (R86). -/
theorem poke_aborted {s : State} {x : Bus} (h : (s.ctx x).Aborted) : ((poke s x).ctx x).Aborted := by
  have hp := placeEnd_aborted h
  unfold poke
  dsimp only
  generalize placeEnd s x = u at hp
  have harrive : ((arrive u x).ctx x).Aborted := by
    unfold arrive
    split
    · rw [toIdle_ctx]; exact ⟨hp.queue, rfl, .inr (.inr (.inl rfl))⟩
    · rw [enterHalted_ctx]; exact ⟨hp.queue, hp.inFlight, .inr (.inr (.inr rfl))⟩
  rcases hp.state with ⟨hw, ha⟩ | hs | hs | hs
  · have hgo : ((if (u.ctx x).inFlight.isSome || (u.ctx x).request.isSome then u else enterReleasing u x .idle).ctx x).Aborted := by
      split
      · exact hp
      · exact enterReleasing_aborted hp.queue _
    rw [ha]
    generalize (u.ctx x).state = st at hw
    cases st
    case idle | holding | releasing | suspended | tripped | halted => cases hw
    all_goals exact hgo
  · rw [hs]
    dsimp only
    split
    · exact harrive
    · exact hp
  · rw [hs, hp.queue]; exact hp
  · rw [hs]; exact hp

/-- What a context without a site in flight is told leaves it, or makes it look, unless it releases. -/
theorem doMail_noSite {s : State} {m : Mail} (hi : (s.ctx m.bus).inFlight = none) (hr : (s.ctx m.bus).state ≠ .releasing) :
    doMail s m = s ∨ doMail s m = poke s m.bus := by
  cases m <;> simp only [Mail.bus] at hi hr ⊢
  case poke x => exact .inr rfl
  case makeRefused x why => exact .inl rfl
  case makeDone x | makeFailed x cause => simp [doMail, hi]
  case lived x ok =>
    by_cases hs : (s.ctx x).state = .restoring <;> simp [doMail, hs, hi]
  case opened x f =>
    simp only [doMail, hi]
    generalize (s.ctx x).state = st at hr
    cases st
    case releasing => exact absurd rfl hr
    case breaking => exact .inr rfl
    all_goals exact .inl rfl
  case quieted x ok =>
    simp only [doMail, hi]
    generalize (s.ctx x).state = st at hr
    cases st
    case releasing => exact absurd rfl hr
    case quieting => exact .inr rfl
    all_goals exact .inl rfl

theorem doMail_aborted {s : State} {m : Mail} (h : (s.ctx m.bus).Aborted) : ((doMail s m).ctx m.bus).Aborted := by
  by_cases hr : (s.ctx m.bus).state = .releasing
  · cases m <;> simp only [Mail.bus] at h hr ⊢
    case poke x => exact poke_aborted h
    case opened x f =>
      rw [show doMail s (.opened x f) = releaseAnswered s x f by simp [doMail, hr]]
      exact releaseAnswered_aborted h hr f
    case quieted x ok =>
      rw [show doMail s (.quieted x ok) = askRelease (if ok then s else releaseFails s x .lane) x by simp [doMail, hr]]
      split
      · exact askRelease_aborted h hr
      · obtain ⟨h1, h2⟩ := releaseFails_aborted h hr .lane
        exact askRelease_aborted h1 h2
    all_goals simpa [doMail, hr] using h
  · rcases doMail_noSite h.inFlight hr with he | he <;> rw [he]
    · exact h
    · exact poke_aborted h

/-- A property of one context that its own mail and the work of others keep holds to the end. -/
theorem drain_context (P : Ctx → Prop) (hown : ∀ s m, P (s.ctx m.bus) → P ((doMail s m).ctx m.bus))
    (hother : ∀ c d : Ctx, P c → c.Spared d → P d) (n : Nat) {s : State} {x : Bus} (h : P (s.ctx x)) : P ((drain n s).ctx x) := by
  induction n generalizing s with
  | zero => exact h
  | succ n ih =>
    cases hw : s.matrixWork with
    | cons w rest =>
      rw [drain_work hw]
      have hrun : Run False True (fun y => y ≠ x) s (doMatrix { s with matrixWork := rest } w) :=
        .doMatrix (L := False) (C := True) w trivial (.single (.plain _ rfl (fun _ => .inl)))
      exact ih (hother _ _ h (hrun.spared (x := x) (fun e => e rfl)))
    | nil =>
      cases hm : s.mail with
      | nil => rw [drain, hw, hm]; exact h
      | cons m rest =>
        rw [drain_mail hw hm]
        by_cases hx : m.bus = x
        · subst hx
          exact ih (hown { s with mail := rest } m h)
        · have hrun : Run False True (fun y => y ≠ x) s (doMail { s with mail := rest } m) :=
            .doMail m trivial hx (.single (.plain _ rfl (fun y hy => .inl (by rw [hm]; exact List.mem_cons_of_mem _ hy))))
          exact ih (hother _ _ h (hrun.spared (x := x) (fun e => e rfl)))

theorem drain_aborted (n : Nat) {s : State} {x : Bus} (h : (s.ctx x).Aborted) : ((drain n s).ctx x).Aborted :=
  drain_context Ctx.Aborted (fun _ _ => doMail_aborted) (fun _ _ => Ctx.Aborted.spared) n h

/-- The context whose sweep in progress ends as ABORTED (R104). -/
def Ctx.sweepAborted (c : Ctx) : Ctx :=
  if c.sweep.status = .running then
    { c with
      sweep := { c.sweep with status := .aborted }
      endPending := some ⟨c.stepTag, c.sweep.judged.length, .aborted⟩ }
  else c

theorem abortSweep_eq (s : State) (x : Bus) : abortSweep s x = s.setCtx x (s.ctx x).sweepAborted := rfl

theorem Ctx.sweepAborted_rest (c : Ctx) : c.sweepAborted = { c with sweep := c.sweepAborted.sweep, endPending := c.sweepAborted.endPending } ∧
    c.sweepAborted.sweep.status ≠ .running := by
  unfold Ctx.sweepAborted
  split
  · exact ⟨rfl, nofun⟩
  · next h => exact ⟨rfl, h⟩

/-- A working context is aborted (R86). -/
theorem abortCtx_working {s : State} {x : Bus} (hw : (s.ctx x).state.working = true) (hq : (s.ctx x).queue = []) :
    ((abortCtx s x).ctx x).Aborted := by
  obtain ⟨u, hu⟩ : ∃ u, u = if (s.ctx x).inFlight.isSome then endSite s x .aborted else s := ⟨_, rfl⟩
  have hctx : (u.ctx x).queue = [] ∧ (u.ctx x).inFlight = none ∧ (u.ctx x).state.working = true := by
    rw [hu]
    split
    · obtain ⟨c, hc, hend⟩ := endSite_ctx s x .aborted
      have hj := beforeEnd_unjudged s x
      have hcq : c.queue = [] := by rw [hc]; exact (congrArg Ctx.queue hj.ctx).trans hq
      have hcw : c.state.working = true := by rw [hc]; exact hj.working hw
      rw [hend]
      refine ⟨hcq, by rw [hc]; rfl, ?_⟩
      dsimp only
      split
      · rfl
      · exact hcw
    · next hi => exact ⟨hq, by simpa using hi, hw⟩
  obtain ⟨h1, h2, h3⟩ := hctx
  have habort : abortCtx s x = ((abortSweep u x).modCtx x (fun c => { c with after := .abort })).post (.poke x) := by
    rw [hu]
    unfold abortCtx
    dsimp only
    generalize (s.ctx x).state = st at hw
    cases st
    case idle | holding | releasing | suspended | tripped | halted => cases hw
    all_goals rfl
  obtain ⟨hrest, -⟩ := (u.ctx x).sweepAborted_rest
  rw [habort, show ∀ (v : State) m, (v.post m).ctx x = v.ctx x from fun _ _ => rfl, State.ctx_modCtx_self, abortSweep_eq, State.ctx_setCtx_self,
    hrest]
  exact ⟨h1, h2, .inl ⟨h3, rfl⟩⟩

end Sys2Proof.Machine
end

