-- ==== Sys2Proof/Proofs/AbortRecords.lean ====
section
/-!
PROOFS. The records of BUS ABORT (R86, R99, R104): of a redo its INVALID and the END of its sweep, and in HALTED the END.
-/

namespace Sys2Proof.Machine

/-! ### What an append leaves in the queue (R145) -/

theorem appendRecord_counts (s : State) (r : Rec) : (appendRecord s r).queue.foldCount = (if r.delivers then 0 else s.queue.foldCount) ∧
    (appendRecord s r).queue.saturated = (if r.delivers then false else s.queue.saturated) := by
  unfold appendRecord
  dsimp only
  split <;> cases r.delivers <;> exact ⟨rfl, rfl⟩

theorem offered_counts {s : State} {x : Bus} {c : Option Slot → Ctx} {sl : Slot} (hf : (s.queue.compact && sl.foldable) = false)
    (hl : s.queue.records.length < 64) : (offered s x c sl).queue = (appendRecord s sl.record).queue := by
  unfold offered
  rw [if_neg (by rw [hf]; exact Bool.false_ne_true), if_pos hl]
  rfl

/-- The INVALID record that finds room delivers the fold count (R145). -/
theorem judgeInvalid_counts {s : State} (x : Bus) (cause : Cause) (h : s.queue.records.length < 64) :
    (judgeInvalid s x cause).queue.foldCount = 0 ∧ (judgeInvalid s x cause).queue.saturated = false := by
  rw [judgeInvalid_eq, offered_counts (by rw [Bool.and_false]) (by rw [judgementShown_queue]; exact h)]
  obtain ⟨h1, h2⟩ := appendRecord_counts (judgementShown s .invalid (s.disp (invalidRow s x) .invalid) (invalidSite (s.ctx x)))
    (.measure (measOf s x .invalid (.invalid cause)
      ⟨false, false, false, match (s.ctx x).captured with | some k => k.worn | none => false, false⟩ 0 0 (invalidRow s x) (invalidSite (s.ctx x))))
  exact ⟨h1, h2⟩

/-! ### A bus that is told to look, and nothing else happens -/

/-- Looks that find nothing are done one by one. -/
theorem delivers_looks {u : State} {x : Bus} (hw : u.matrixWork = []) (hm : ∀ m ∈ u.mail, m = .poke x)
    (hp : ∀ l, poke { u with mail := l } x = { u with mail := l }) : Delivers u.mail.length u { u with mail := [] } := by
  obtain ⟨l, hl⟩ : ∃ l, l = u.mail := ⟨_, rfl⟩
  have hall : ∀ l, (∀ m ∈ l, m = .poke x) → Delivers l.length { u with mail := l } { u with mail := [] } := fun l => by
    induction l with
    | nil => exact fun _ => .refl _
    | cons m l ih =>
      intro h
      refine .mail m l hw rfl ?_
      rw [h m (List.mem_cons_self ..)]
      show Delivers l.length (poke { u with mail := l } x) _
      rw [hp]
      exact ih (fun a ha => h a (List.mem_cons_of_mem _ ha))
  exact hall u.mail hm

theorem panelCheck_noFold {s : State} (h : s.queue.foldCount = 0) : (panelCheck s).queue = s.queue := by
  unfold panelCheck
  rw [if_pos h]
  split <;> rfl

/-- The records at the end of a command that comes to a quiet state with no fold counted. -/
theorem Delivers.records_eq {k : Nat} {v w : State} (h : Delivers k v w) (hq : Quiesced w) (hk : k ≤ drainBound) (hf : w.queue.foldCount = 0) :
    (finish v).queue = w.queue := by
  rw [finish, pump_queue, h.drainAll hk, drain_quiesced _ hq, panelCheck_noFold hf]

/-- The END that waits, if one does, as a record (R99). -/
def Ctx.endRecords (c : Ctx) (s : State) (x : Bus) : List Rec :=
  match c.endPending with
  | some e => [endRecord s x e.tag e.judged e.kind]
  | none => []

/-- A bus SUSPENDED with nothing to resume becomes IDLE, its END appended first (R88, R99). -/
theorem suspended_idles {u v : State} {x : Bus} {c : Ctx} {k : Nat} (hd : Delivers k v (poke u x)) (hk : k ≤ 8) (hw : u.matrixWork = [])
    (hm : ∀ m ∈ u.mail, m = .poke x) (hlen : u.mail.length ≤ 8) (hctx : u.ctx x = c) (hs : c.state = .suspended) (hr : c.resume = .none)
    (hstep : c.step = none) (hslot : c.slot = none) (hq : c.queue = []) (hl : u.queue.records.length < 64) (hf : u.queue.foldCount = 0) :
    ∃ d : Ctx, (finish v).ctx x = d.idled ∧ d.slot = none ∧ (finish v).queue.records = u.queue.records ++ c.endRecords u x := by
  obtain ⟨w, hwdef⟩ : ∃ w, w = placeEnd u x := ⟨_, rfl⟩
  have hplaced : w.ctx x = { c with endPending := none } ∧ w.queue.foldCount = 0 ∧
      w.queue.records = u.queue.records ++ c.endRecords u x ∧ w.matrixWork = [] ∧ (∀ m ∈ w.mail, m = .poke x) ∧ w.mail.length ≤ 9 := by
    cases he : c.endPending with
    | none =>
      have hsame : w = u := by rw [hwdef, placeEnd_none (.inr (by rw [hctx]; exact he))]
      rw [hsame, Ctx.endRecords, he, List.append_nil]
      exact ⟨by rw [hctx, ← he], hf, rfl, hw, hm, by omega⟩
    | some e =>
      have htaken : Slot.taken ⟨endRec u x e, false⟩ u = true := by rw [Slot.taken_record]; simpa using hl
      have hoff : w = offered u x (fun k => { u.ctx x with slot := k, endPending := none }) ⟨endRec u x e, false⟩ := by
        rw [hwdef, placeEnd_some (by rw [hctx]; exact hslot) (by rw [hctx]; exact he)]
      have honly := offered_only x (fun k => { u.ctx x with slot := k, endPending := none }) htaken
      rw [← hoff] at honly
      refine ⟨?_, ?_, ?_, honly.work.trans hw, fun m h => ?_, ?_⟩
      · rw [hoff, offered_ctx_self, if_pos htaken, hctx, hslot]
      · rw [hoff, offered_counts (by rw [Bool.and_false]) hl]
        exact (appendRecord_counts u (endRec u x e)).1.trans hf
      · rw [hoff, offered_records u x _ _ rfl, if_pos htaken, Ctx.endRecords, he]
        rfl
      · rw [honly.mail] at h
        rcases List.mem_append.1 h with h | h
        · exact hm m h
        · exact List.mem_singleton.1 h
      · rw [honly.mail, List.length_append]; simp; omega
  obtain ⟨hwctx, hwf, hwrec, hww, hwm, hwlen⟩ := hplaced
  have hpoke : poke u x = toIdle w x := by
    unfold poke
    dsimp only
    rw [← hwdef, hwctx]
    dsimp only
    rw [hs, hr, hstep, hslot]
    rfl
  obtain ⟨d, hddef⟩ : ∃ d : Ctx, d = { c with endPending := none } := ⟨_, rfl⟩
  have hidle : (toIdle w x).ctx x = d.idled := by rw [toIdle_ctx, hwctx, hddef]
  have hstill : ∀ l, poke { toIdle w x with mail := l } x = { toIdle w x with mail := l } := fun l => by
    have hi : Inert { toIdle w x with mail := l } x := .inr (.inr (.inr ⟨(congrArg Ctx.state hidle), (congrArg Ctx.queue hidle).trans (by rw [hddef]; exact hq)⟩))
    rw [poke_inert hi]
    exact placeEnd_none (.inr ((congrArg Ctx.endPending hidle).trans (by rw [hddef]; rfl)))
  have hlooks := delivers_looks (u := toIdle w x) hww (fun m h => by
    rcases List.mem_append.1 (show m ∈ w.mail ++ [Mail.poke x] from h) with h | h
    · exact hwm m h
    · exact List.mem_singleton.1 h) hstill
  have hmlen : (toIdle w x).mail.length ≤ 10 := by
    show (w.mail ++ [Mail.poke x]).length ≤ 10
    rw [List.length_append]; simp; omega
  rw [hpoke] at hd
  have hall := hd.trans hlooks
  have hbound : k + (toIdle w x).mail.length ≤ drainBound := by unfold drainBound; omega
  have hends := hall.ends ⟨hww, rfl⟩ hbound
  have hqueue := hall.records_eq ⟨hww, rfl⟩ hbound hwf
  refine ⟨d, (hends.ctx x).trans hidle, by rw [hddef]; exact hslot, ?_⟩
  rw [hqueue]
  exact hwrec

/-! ### The redo that an abort ends (R86, R104) -/

/-- The context whose step an abort has cleared (R86). -/
def Ctx.cleared (c : Ctx) : Ctx := { c with resume := .none, step := none, inFlight := none, after := .none, lastOk := false }

theorem abortCtx_redo {s : State} {x : Bus} (hs : (s.ctx x).state = .suspended) (hr : (s.ctx x).resume = .redo) :
    abortCtx s x = ((judgeInvalid s x .aborted).setCtx x ((judgeInvalid s x .aborted).ctx x).sweepAborted.cleared).post (.poke x) := by
  unfold abortCtx
  dsimp only
  rw [hs, hr]
  dsimp only
  rw [if_pos rfl, abortSweep_eq, State.modCtx, State.ctx_setCtx_self, State.setCtx_setCtx]
  rfl

/-- The END that an abort leaves to be placed, the site of a redo being the last one of the sweep or not (R98, R104). -/
theorem sweepAborted_end {c : Ctx} {d : DispEntry} {u : Site} {stag : Half} (hend : c.endPending = none) (htag : c.stepTag = stag) :
    (c.judged .invalid d (some u) none).sweepAborted.cleared.endPending =
      if c.sweep.status = .running then some ⟨stag, c.sweep.judged.length + 1,
        if c.sweep.judged.length + 1 = c.sweep.count then .complete else .aborted⟩ else none := by
  by_cases hrun : c.sweep.status = .running
  · have hjoin : c.sweep.join (some u) = { c.sweep with
        judged := c.sweep.judged ++ [u]
        status := if c.sweep.judged.length + 1 = c.sweep.count then .complete else .running } := by
      unfold Sweep.join
      rw [hrun]
      simp
    rw [if_pos hrun]
    by_cases hcount : c.sweep.judged.length + 1 = c.sweep.count
    · rw [if_pos hcount] at hjoin ⊢
      simp [Ctx.cleared, Ctx.sweepAborted, Ctx.judged, hjoin, hrun, htag]
    · rw [if_neg hcount] at hjoin ⊢
      simp [Ctx.cleared, Ctx.sweepAborted, Ctx.judged, hjoin, hrun, Ctx.stepTag] at htag ⊢
      exact htag
  · have hjoin : c.sweep.join (some u) = c.sweep := by
      unfold Sweep.join
      split
      · next h _ => exact absurd h hrun
      · rfl
    rw [if_neg hrun]
    simp [Ctx.cleared, Ctx.sweepAborted, Ctx.judged, hjoin, hrun, hend]

/-- The state in which the step queue of a bus that is aborted is empty (R86). -/
def aborting (s : State) (x : Bus) : State := s.begin.setCtx x { s.ctx x with queue := [] }

theorem aborting_ctx (s : State) (x : Bus) : (aborting s x).ctx x = { s.ctx x with queue := [] } := State.ctx_setCtx_self _ _ _

theorem abort_redo {s : State} {x : Bus} {u : Site} {stag : Half} {sel : Selection} {n : Net} {lim : Fin 256} {k d timeout : Nat} {hold : Bool}
    (hq : Quiesced s) (hend : (s.ctx x).endPending = none)
    (hstep : (s.ctx x).step = some ⟨stag, .measure sel n lim k d timeout hold⟩) (hs : (s.ctx x).state = .suspended)
    (hr : (s.ctx x).resume = .redo) (hi : (s.ctx x).inFlight = some u) (hl : s.queue.records.length < 63) (tag : Half) (data : List Byte) :
    ∃ t, t = finish ((abortCtx (aborting s x) x).respond tag 0x04#8 .ok data) ∧
      (t.ctx x).state = .idle ∧ (t.ctx x).step = none ∧ (t.ctx x).inFlight = none ∧ (t.ctx x).slot = none ∧
      ∃ row worn, (∀ cap, (s.ctx x).captured = some cap → row = cap.limit.row ∧ worn = cap.worn) ∧
        ((s.ctx x).captured = none → row = s.tables.limits[lim].row ∧ worn = false) ∧
        t.queue.records = s.queue.records ++ invalidRecord s x stag row worn .aborted ::
          (if (s.ctx x).sweep.status = .running then
            [.sweepEnd { s := false, panel := s.panel.number, bus := x, folded := 0
                         info := ⟨stag, (s.ctx x).sweep.judged.length + 1,
                           if (s.ctx x).sweep.judged.length + 1 = (s.ctx x).sweep.count then .complete else .aborted⟩ }]
           else []) := by
  have hctx := aborting_ctx s x
  have hstep' : ((aborting s x).ctx x).step = some ⟨stag, .measure sel n lim k d timeout hold⟩ := by rw [hctx]; exact hstep
  obtain ⟨hsite, htag, hnone, hsome⟩ := invalidRow_measure hstep'
  have hqueue : (aborting s x).queue = s.queue := rfl
  have h64 : (aborting s x).queue.records.length < 64 := by rw [hqueue]; omega
  have hjonly := judgeInvalid_only (s := aborting s x) x .aborted h64
  have hjctx := judgeInvalid_ctx (aborting s x) x .aborted
  have hjrec := judgeInvalid_records (aborting s x) x .aborted
  obtain ⟨hjfold, hjsat⟩ := judgeInvalid_counts (s := aborting s x) x .aborted h64
  have hjpanel : (judgeInvalid (aborting s x) x .aborted).panel.number = s.panel.number :=
    ((Keeps.refl (Q := fun _ => False) (aborting s x)).judgeInvalid x .aborted).panelNumber
  have hinflight : invalidSite ((aborting s x).ctx x) = some u := by rw [hsite, hctx]; exact hi
  rw [if_pos h64, hinflight] at hjctx
  rw [if_pos h64] at hjrec
  have hrecord : (invalidRec (aborting s x) x .aborted).stamped (aborting s x).queue =
      invalidRecord s x stag (invalidRow (aborting s x) x) ((aborting s x).ctx x).capturedWorn .aborted :=
    invalidRec_stamped (s := s) rfl rfl rfl (by rw [hctx]) (by rw [hctx]) hsite htag rfl rfl
  have hendsweep := sweepAborted_end (c := (aborting s x).ctx x) (d := (aborting s x).disp (invalidRow (aborting s x) x) .invalid) (u := u)
    (by rw [hctx]; exact hend) htag
  have habort := abortCtx_redo (s := aborting s x) (x := x) (by rw [hctx]; exact hs) (by rw [hctx]; exact hr)
  rw [hrecord] at hjrec
  rw [hjctx] at habort
  generalize judgeInvalid (aborting s x) x .aborted = j at hjonly hjctx hjrec hjfold hjsat hjpanel habort
  obtain ⟨c, hc⟩ : ∃ c, c = (((aborting s x).ctx x).judged .invalid ((aborting s x).disp (invalidRow (aborting s x) x) .invalid) (some u)
    none).sweepAborted.cleared := ⟨_, rfl⟩
  rw [← hc] at habort hendsweep
  obtain ⟨hcrest, -⟩ := (((aborting s x).ctx x).judged .invalid ((aborting s x).disp (invalidRow (aborting s x) x) .invalid) (some u)
    none).sweepAborted_rest
  have hcstate : c.state = .suspended ∧ c.resume = .none ∧ c.step = none ∧ c.slot = none ∧ c.queue = [] := by
    rw [hc, hcrest, hctx]
    exact ⟨hs, rfl, rfl, rfl, rfl⟩
  obtain ⟨h1, h2, h3, h4, h5⟩ := hcstate
  obtain ⟨w, hw⟩ : ∃ w, w = { (j.setCtx x c).respond tag 0x04#8 .ok data with mail := [.poke x] } := ⟨_, rfl⟩
  have hmail : j.mail = [.poke x] := by rw [hjonly.mail]; show s.mail ++ _ = _; rw [hq.2]; rfl
  have hjwork : j.matrixWork = [] := hjonly.work.trans hq.1
  have hdeliver : Delivers 1 ((abortCtx (aborting s x) x).respond tag 0x04#8 .ok data) (poke w x) := by
    rw [habort, hw]
    refine .mail (.poke x) [.poke x] hjwork ?_ (.refl _)
    show j.mail ++ [.poke x] = _
    rw [hmail]; rfl
  have hwq : w.queue = j.queue := by rw [hw]; rfl
  have hwctx : w.ctx x = c := by rw [hw]; exact State.ctx_setCtx_self j x c
  obtain ⟨e, he, heslot, herec⟩ := suspended_idles hdeliver (by decide) (by rw [hw]; exact hjwork) (by rw [hw]; simp) (by rw [hw]; simp) hwctx
    h1 h2 h3 h4 h5 (by rw [hwq, hjrec, List.length_append, hqueue]; simp; omega) (by rw [hwq]; exact hjfold)
  refine ⟨_, rfl, by rw [he]; rfl, by rw [he]; rfl, by rw [he]; rfl, by rw [he]; exact heslot, _, _, fun cap hcap => hsome cap (by rw [hctx]; exact hcap),
    fun hcap => hnone (by rw [hctx]; exact hcap), ?_⟩
  rw [herec, hwq, hjrec, List.append_assoc, Ctx.endRecords, hendsweep, hctx]
  dsimp only
  by_cases hrun : (s.ctx x).sweep.status = .running
  · rw [if_pos hrun, if_pos hrun]
    have hwpanel : w.panel.number = s.panel.number := by rw [hw]; exact hjpanel
    simp only [endRecord, hwq, hjsat, hjfold, hwpanel]
    rfl
  · rw [if_neg hrun, if_neg hrun]
    rfl

end Sys2Proof.Machine
end

