-- ==== Sys2Proof/Proofs/ReleaseRequests.lean ====
section
/-!
PROOFS. What a break or release request leaves to be done (R30, R83): bounded work of the matrix controller, and at most one
answer, to the bus that asked.
-/

namespace Sys2Proof.Machine

/-! ### The answer of a request (R31) -/

/-- No break or release request of bus `x` is outstanding. -/
def NoOpens (s : State) (x : Bus) : Prop := ∀ r, (s.ctx x).request ≠ some (.opens r)

/-- From `s` to `t` the break or release request of bus `x` was answered once at most, and nobody else was told anything. -/
structure AnswersOne (x : Bus) (s t : State) : Prop where
  mail : t.mail = s.mail ∨ (∃ f, t.mail = s.mail ++ [.opened x f]) ∧ NoOpens t x
  none : NoOpens s x → t.mail = s.mail ∧ NoOpens t x

theorem AnswersOne.refl (x : Bus) (s : State) : AnswersOne x s s := ⟨.inl rfl, fun h => ⟨rfl, h⟩⟩

theorem AnswersOne.trans {x : Bus} {s t u : State} (h : AnswersOne x s t) (k : AnswersOne x t u) : AnswersOne x s u := by
  refine ⟨?_, fun hn => ?_⟩
  · rcases h.mail with hm | ⟨⟨f, hf⟩, hn⟩
    · rcases k.mail with km | ⟨⟨f, hf⟩, hn⟩
      · exact .inl (km.trans hm)
      · exact .inr ⟨⟨f, by rw [hf, hm]⟩, hn⟩
    · obtain ⟨km, kn⟩ := k.none hn
      exact .inr ⟨⟨f, km.trans hf⟩, kn⟩
  · obtain ⟨hm, hn'⟩ := h.none hn
    obtain ⟨km, kn⟩ := k.none hn'
    exact ⟨km.trans hm, kn⟩

/-- Nobody is told anything, and an answered request is not asked again. -/
theorem AnswersOne.of_same {x : Bus} {s t : State} (hm : t.mail = s.mail) (hn : NoOpens s x → NoOpens t x) : AnswersOne x s t :=
  ⟨.inl hm, fun h => ⟨hm, hn h⟩⟩

theorem AnswersOne.answerOpens (s : State) (x : Bus) : AnswersOne x s (answerOpens s x) := by
  unfold Machine.answerOpens
  split
  · next r hr =>
    split
    · refine ⟨.inr ⟨⟨_, rfl⟩, fun q hq => ?_⟩, fun h => absurd hr (h r)⟩
      rw [show ∀ (v : State) m, (v.post m).ctx x = v.ctx x from fun _ _ => rfl, State.ctx_modCtx_self] at hq
      cases hq
    · exact .refl x s
  · exact .refl x s

theorem AnswersOne.modOpens (s : State) (x : Bus) (f : OpenReq → OpenReq) : AnswersOne x s (s.modOpens x f) := by
  refine .of_same rfl (fun h r hr => ?_)
  rw [State.modOpens, State.ctx_modCtx_self] at hr
  split at hr
  · next q hq => exact h q hq
  · exact h r hr

theorem sendOpen_none {s : State} {c : CardId} {o : Order} (h : o.leftToOpen s = []) :
    sendOpen s c o = (if o.answers then answerOpens s o.bus else s).pushWork [.send c] := by rw [sendOpen, h]

theorem sendOpen_some {s : State} {c : CardId} {o : Order} (h : o.leftToOpen s ≠ []) :
    sendOpen s c o = sendOrder s c { o with points := o.leftToOpen s } := by
  unfold sendOpen
  split
  · next he => exact absurd he h
  · rfl

theorem AnswersOne.sendOpen (s : State) (c : CardId) {o : Order} {x : Bus} (hx : o.bus = x) : AnswersOne x s (sendOpen s c o) := by
  by_cases h : o.leftToOpen s = []
  · rw [sendOpen_none h]
    cases o.answers with
    | true =>
      have hone := AnswersOne.answerOpens s o.bus
      rw [hx] at hone
      rw [if_pos rfl, hx]
      exact ⟨hone.mail, hone.none⟩
    | false => exact .of_same rfl id
  · rw [sendOpen_some h]
    have hw := sendOrder_sameWork s c { o with points := o.leftToOpen s }
    exact .of_same hw.mail (fun hn r => by rw [State.ctx, hw.ctxs]; exact hn r)

/-- How a break order is placed (R22, R30). -/
theorem placeBreak_cases (s : State) (x : Bus) (g : CardId × List Pt) :
    ((s.card g.1).idle = true ∧ placeBreak s x g = sendOpen s g.1 ⟨.brk, x, g.2, true⟩) ∨
      ((s.card g.1).idle = false ∧ ∃ k, (k.pending = (s.card g.1).pending ∧ k.idle = false) ∧ placeBreak s x g = s.setCard g.1 k) ∨
      ∃ f, placeBreak s x g = s.modOpens x f := by
  unfold placeBreak
  split
  · by_cases hfull : 8 ≤ (s.card g.1).ordinary.length
    · rw [placeOrdinary_full hfull]
      exact .inr (.inr ⟨_, rfl⟩)
    · cases hi : (s.card g.1).idle with
      | true =>
        rw [placeOrdinary_idle hi]
        exact .inl ⟨rfl, rfl⟩
      | false =>
        rw [placeOrdinary_busy hi (Nat.lt_of_not_le hfull)]
        refine .inr (.inl ⟨rfl, { s.card g.1 with ordinary := (s.card g.1).ordinary ++ [⟨.brk, x, g.2, true⟩] }, ⟨rfl, ?_⟩, rfl⟩)
        unfold CardCtl.idle
        simp
  · exact .inr (.inr ⟨_, rfl⟩)

theorem AnswersOne.placeBreak (s : State) (x : Bus) (g : CardId × List Pt) : AnswersOne x s (placeBreak s x g) := by
  rcases placeBreak_cases s x g with ⟨_, he⟩ | ⟨_, k, _, he⟩ | ⟨f, he⟩ <;> rw [he]
  · exact .sendOpen s g.1 rfl
  · exact .of_same rfl id
  · exact .modOpens s x f

theorem AnswersOne.placeBreaks (x : Bus) (gs : List (CardId × List Pt)) (s : State) :
    AnswersOne x s (gs.foldl (fun s g => Machine.placeBreak s x g) s) := by
  induction gs generalizing s with
  | nil => exact .refl x s
  | cons g gs ih => exact (AnswersOne.placeBreak s x g).trans (ih _)

/-- A break or release request is answered at once or not yet (R30). -/
theorem opensRequest_answers (s : State) (x : Bus) (ps : List Pt) :
    (opensRequest s x ps).mail = s.mail ∨ ∃ f, (opensRequest s x ps).mail = s.mail ++ [.opened x f] := by
  obtain ⟨u, hu⟩ : ∃ u, u = ((s.modCtx x (fun c => { c with request := some (.opens ⟨ps.filter (s.mustAwait x), false, false⟩) })).modXps x
      (ps.filter (fun p => (s.xp x p).state == .reserved)) XRec.unreserved).pushWork
      ((ps.filter (fun p => (s.xp x p).state == .reserved)).map .point) := ⟨_, rfl⟩
  have hmail : u.mail = s.mail := by rw [hu, State.modXps_eq]; rfl
  have hall := (AnswersOne.placeBreaks x (cardGroups (ps.filter (fun p => (s.xp x p).state == .closed))) u).trans (AnswersOne.answerOpens _ x)
  have hdef : opensRequest s x ps =
      answerOpens ((cardGroups (ps.filter (fun p => (s.xp x p).state == .closed))).foldl (fun s g => placeBreak s x g) u) x := by
    rw [hu]; rfl
  rw [hdef, ← hmail]
  exact hall.mail.imp id (fun h => h.1)

/-! ### The work of a request -/

theorem Places.askOpens (s : State) (x : Bus) (r : OpenReq) : Places 0 s (s.modCtx x (fun c => { c with request := some (.opens r) })) where
  work := Nat.le_refl _
  sends := id
  waits := fun y => by
    rw [State.ctx_modCtx]
    split
    · exact .inl rfl
    · exact .inr rfl
  mail := ⟨[], (List.append_nil _).symm⟩

theorem Places.placeBreak (s : State) (x : Bus) (g : CardId × List Pt) : Places 1 s (placeBreak s x g) := by
  rcases placeBreak_cases s x g with ⟨hi, he⟩ | ⟨hi, k, ⟨hp, _⟩, he⟩ | ⟨f, he⟩ <;> rw [he]
  · exact .sendOpen hi _
  · exact (Places.setCard (fun h => .inl (by rw [hp]; exact h.resolve_right (by rw [hi]; nofun)))).mono (Nat.zero_le _)
  · exact (Places.modOpens s x f).mono (Nat.zero_le _)

theorem Places.placeBreaks (x : Bus) (gs : List (CardId × List Pt)) (s : State) :
    Places gs.length s (gs.foldl (fun s g => Machine.placeBreak s x g) s) := by
  induction gs generalizing s with
  | nil => exact .refl s
  | cons g gs ih => exact ((Places.placeBreak s x g).trans (ih _)).mono (by rw [List.length_cons]; omega)

theorem length_chunks (n : Nat) (ps : List Pt) : (chunks n ps).length ≤ n := by
  induction n generalizing ps with
  | zero => exact Nat.le_refl _
  | succ n ih =>
    cases ps with
    | nil => exact Nat.zero_le _
    | cons p ps => exact Nat.succ_le_succ (ih _)

theorem length_cardGroups (ps : List Pt) : (cardGroups ps).length ≤ 2048 := by
  have hpart : ∀ c : CardId, (chunks (allPoints.filter (fun p => p ∈ ps && cardOf p == c)).length
      (allPoints.filter (fun p => p ∈ ps && cardOf p == c))).length ≤ 256 := fun c =>
    (length_chunks _ _).trans ((List.length_filter_le _ _).trans (le_of_eq (List.length_finRange ..)))
  unfold cardGroups
  rw [List.length_flatMap]
  refine (List.sum_le_card_nsmul _ 256 (fun n hn => ?_)).trans ?_
  · obtain ⟨c, _, rfl⟩ := List.mem_map.1 hn
    rw [List.length_map]
    exact hpart c
  · rw [List.length_map, smul_eq_mul]
    exact Nat.mul_le_mul_right 256 (by decide : allCards.length ≤ 8)

theorem Places.opensRequest (s : State) (x : Bus) {ps : List Pt} (h : ps.length ≤ 256) : Places 2304 s (opensRequest s x ps) := by
  have hreserved : (ps.filter (fun p => (s.xp x p).state == .reserved)).length ≤ 256 := (List.length_filter_le _ _).trans h
  have hgroups := length_cardGroups (ps.filter (fun p => (s.xp x p).state == .closed))
  exact (((((Places.askOpens s x ⟨ps.filter (s.mustAwait x), false, false⟩).trans (.modXps _ x _ _)).trans
    (.points _ (ps.filter (fun p => (s.xp x p).state == .reserved)))).trans
    (.placeBreaks x (cardGroups (ps.filter (fun p => (s.xp x p).state == .closed))) _)).trans (.answerOpens _ x)).mono (by omega)

theorem length_claims (s : State) (x : Bus) : (s.claims x).length ≤ 256 :=
  (List.length_filter_le _ _).trans (le_of_eq (List.length_finRange ..))

/-! ### A bus that enters RELEASING (R83) -/

/-- A request for a quiet waits for no point. -/
theorem Places.waitsQuiet (s : State) (x : Bus) : Places 0 s (s.modCtx x (fun c => { c with request := some .quiet })) where
  work := Nat.le_refl _
  sends := id
  waits := fun y => by
    rw [State.ctx_modCtx]
    split
    · exact .inl rfl
    · exact .inr rfl
  mail := ⟨[], (List.append_nil _).symm⟩

/-- What a bus that enters RELEASING without a RELEASE step leaves (R83): its context, the queue, bounded work, and at most one
answer. -/
structure EntersReleasing (s r : State) (x : Bus) (d : Dest) : Prop where
  places : Places 2304 s r
  mail : r.mail = s.mail ∨ ∃ f, r.mail = s.mail ++ [.opened x f]
  ctx : ∃ src req fail, r.ctx x = { (s.ctx x).toRelease d with source := src, request := req, relFail := fail }
  queue : r.queue = s.queue

theorem opensRequest_queue (s : State) (x : Bus) (ps : List Pt) : (opensRequest s x ps).queue = s.queue := by
  have hafter : Run False False (fun _ => False)
      (s.modCtx x (fun c => { c with request := some (.opens ⟨ps.filter (s.mustAwait x), false, false⟩) })) (opensRequest s x ps) :=
    Run.answerOpens x (Run.placeBreaks x _ ((Run.modXps_unreserved x _ .refl).pushWork _))
  exact hafter.queueStays (fun _ => id)

theorem EntersReleasing.asks {s u : State} {x : Bus} {d : Dest} (hp : Places 0 s u) (hm : u.mail = s.mail) (hq : u.queue = s.queue)
    (hctx : ∃ src req fail, u.ctx x = { (s.ctx x).toRelease d with source := src, request := req, relFail := fail }) :
    EntersReleasing s (askRelease u x) x d := by
  obtain ⟨src, req, fail, hc⟩ := hctx
  have hstate := opensRequest_state u x (u.claims x) (by rw [hc]; nofun)
  have hrest := opensRequest_rest u x (u.claims x)
  have hans := opensRequest_answers u x (u.claims x)
  rw [hstate] at hrest
  rw [hm] at hans
  refine ⟨(hp.trans (Places.opensRequest u x (length_claims u x))).mono (by omega), hans, ⟨src, ((opensRequest u x (u.claims x)).ctx x).request, fail, ?_⟩,
    (opensRequest_queue u x _).trans hq⟩
  exact hrest.trans (by rw [hc])

theorem enterReleasing_enters {s : State} {x : Bus} (hst : ∀ tag, (s.ctx x).step ≠ some ⟨tag, .release⟩) (d : Dest) :
    EntersReleasing s (enterReleasing s x d) x d := by
  obtain ⟨w, hw⟩ : ∃ w, w = s.modCtx x (fun c => c.toRelease d) := ⟨_, rfl⟩
  have hwctx : w.ctx x = (s.ctx x).toRelease d := by rw [hw, State.ctx_modCtx_self]
  have hwp : Places 0 s w := by rw [hw]; exact .modCtx s x (fun _ => rfl)
  have hwm : w.mail = s.mail := by rw [hw]; rfl
  have hwq : w.queue = s.queue := by rw [hw]; rfl
  have hsource : ∀ u : State, u.ctxs = w.ctxs → u.matrix = w.matrix → u.matrixWork = w.matrixWork → u.mail = w.mail → u.queue = w.queue → ∀ v,
      Places 0 s (u.setSource x v) ∧ (u.setSource x v).mail = s.mail ∧ (u.setSource x v).queue = s.queue ∧
        (u.setSource x v).ctx x = { (s.ctx x).toRelease d with source := v } := fun u h1 h2 h3 h4 h5 v => by
    refine ⟨(hwp.trans (.of_eq h3 (congrArg _ h2) h1 h4)).trans
      (.modCtx u x (f := fun c => { c with source := v }) (fun _ => rfl)), h4.trans hwm, h5.trans hwq, ?_⟩
    rw [State.setSource, State.ctx_modCtx_self, State.ctx, h1, ← hwctx]
    rfl
  have hwaits : ∀ u : State, Places 0 s u → u.mail = s.mail → u.queue = s.queue →
      (∃ v, u.ctx x = { (s.ctx x).toRelease d with source := v }) →
      EntersReleasing s (u.modCtx x (fun c => { c with request := some .quiet })) x d := fun u h1 h2 h3 ⟨v, h4⟩ => by
    refine ⟨(h1.trans (.waitsQuiet u x)).mono (Nat.zero_le _), .inl h2, ⟨v, some .quiet, (s.ctx x).relFail, ?_⟩, h3⟩
    rw [State.ctx_modCtx_self, h4]; rfl
  have hdef : enterReleasing s x d =
      match quietRequest w x with
      | (s, .waits) => s.modCtx x (fun c => { c with request := some .quiet })
      | (s, .failed) => askRelease (releaseFails s x .lane) x
      | (s, _) => askRelease s x := by rw [hw]; rfl
  have hask : EntersReleasing s (askRelease w x) x d := .asks hwp hwm hwq ⟨(s.ctx x).source, (s.ctx x).request, (s.ctx x).relFail, hwctx⟩
  rw [hdef]
  unfold quietRequest
  by_cases hk : ((w.busEntry x).kind != .source) = true
  · rw [if_pos hk]; exact hask
  · rw [if_neg hk]
    cases hsrc : (w.ctx x).source <;> dsimp only
    case quiet => exact hask
    case goingQuiet | goingLive => exact hwaits w hwp hwm hwq ⟨(s.ctx x).source, hwctx⟩
    case live | unsure =>
      by_cases hu : w.channelUsable x = true
      · rw [if_pos hu]
        obtain ⟨h1, h2, h3, h4⟩ := hsource (sendQuiet w x) rfl rfl rfl rfl rfl .goingQuiet
        exact hwaits _ h1 h2 h3 ⟨_, h4⟩
      · rw [if_neg hu]
        obtain ⟨h1, h2, h3, h4⟩ := hsource w rfl rfl rfl rfl rfl .unsure
        dsimp only
        rw [releaseFails_noted (by rw [h4]; exact hst)]
        exact .asks (h1.trans (.modCtx _ x (f := fun c => { c with relFail := if c.relFail.isNone then some .lane else c.relFail })
          (fun _ => rfl))) h2 h3 ⟨.unsure, (s.ctx x).request, if (s.ctx x).relFail.isNone then some .lane else (s.ctx x).relFail, by
            rw [State.ctx_modCtx_self, h4]; rfl⟩

/-! ### Its answer -/

/-- A release of a step that is no RELEASE step is answered (R83). -/
theorem releaseAnswered_noted {s : State} {x : Bus} (hst : ∀ tag, (s.ctx x).step ≠ some ⟨tag, .release⟩) (f : Option Cause) :
    ∃ a fail, releaseAnswered s x f =
      (State.setCtx { s with trunk := a } x { s.ctx x with relDone := true, relFail := fail }).post (.poke x) := by
  cases f with
  | none => exact ⟨s.trunk, (s.ctx x).relFail, rfl⟩
  | some cause =>
    have hgo : ∀ u : State, (∃ a, u = { s with trunk := a }) → ∃ a fail,
        ((releaseFails u x cause).modCtx x (fun c => { c with relDone := true })).post (.poke x) =
          (State.setCtx { s with trunk := a } x { s.ctx x with relDone := true, relFail := fail }).post (.poke x) := fun u ⟨a, hu⟩ => by
      refine ⟨a, if (s.ctx x).relFail.isNone then some cause else (s.ctx x).relFail, ?_⟩
      rw [releaseFails_noted (by rw [hu]; exact hst), hu, State.modCtx, State.modCtx, State.ctx_setCtx_self, State.setCtx_setCtx]
      rfl
    unfold releaseAnswered
    dsimp only
    split
    · next tag hs => exact absurd hs (hst tag)
    · exact hgo _ ⟨_, rfl⟩
    · exact hgo s ⟨_, rfl⟩

end Sys2Proof.Machine
end

