-- ==== Sys2Proof/Proofs/BusAborts.lean ====
section
/-!
PROOFS. BUS ABORT (R86, R104): what it answers, and the END of a sweep that it ends in HALTED (R99).
-/

namespace Sys2Proof.Machine

/-! ### A bus that releases with an END pending (R99) -/

/-- A context that releases toward IDLE with the END of a sweep pending. -/
structure Ctx.Ending (c : Ctx) (e : EndInfo) : Prop where
  state : c.state = .releasing
  dest : c.dest = .idle
  queue : c.queue = []
  inFlight : c.inFlight = none
  slot : c.slot = none
  pending : c.endPending = some e

theorem Ctx.Ending.spared {c d : Ctx} {e : EndInfo} (h : c.Ending e) (k : c.Spared d) : d.Ending e := by
  have hstate : d.state = c.state := k.state.resolve_right (fun ⟨hb, _⟩ => by rw [h.state] at hb; cases hb)
  have hrest := k.rest
  rw [hstate] at hrest
  rw [hrest]
  exact ⟨h.state, h.dest, h.queue, h.inFlight, h.slot, h.pending⟩

/-- With its END placed it releases as any other. -/
theorem placeEnd_ending {s : State} {x : Bus} {e : EndInfo} (h : (s.ctx x).Ending e) (hl : s.queue.records.length < 64) :
    Releases (placeEnd s x) x (s.ctx x).step false false ∧ ((placeEnd s x).ctx x).sweep = (s.ctx x).sweep := by
  have htaken : Slot.taken ⟨endRec s x e, false⟩ s = true := by rw [Slot.taken_record]; simpa using hl
  have hctx : (placeEnd s x).ctx x = { s.ctx x with slot := none, endPending := none } := by
    rw [placeEnd_some h.slot h.pending, offered_ctx_self, if_pos htaken]
  rw [Machine.Releases, hctx]
  exact ⟨⟨⟨rfl, h.inFlight, rfl, h.queue, .inl ⟨rfl, h.state, h.dest, rfl⟩, nofun, fun hi => by cases h.state.symm.trans hi⟩,
    fun hh => by cases h.state.symm.trans hh⟩, rfl⟩

/-- The bus looks, places the END, and releases on. -/
theorem ending_looks {v w : State} {x : Bus} {e : EndInfo} {k : Nat} {rest : List Mail} (hd : Delivers k v w) (hk : k + 1 ≤ drainBound)
    (hw : w.matrixWork = []) (hm : w.mail = .poke x :: rest) (h : (w.ctx x).Ending e) (hst : ∀ tag, (w.ctx x).step ≠ some ⟨tag, .release⟩)
    (hl : w.queue.records.length < 64) :
    ((finish v).ctx x).endPending = none ∧ ((finish v).ctx x).sweep = (w.ctx x).sweep ∧
      ∃ rs, (finish v).queue.records = w.queue.records ++ endRecord w x e.tag e.judged e.kind :: rs := by
  obtain ⟨u, hu⟩ : ∃ u, u = { w with mail := rest } := ⟨_, rfl⟩
  have huctx : u.ctx x = w.ctx x := by rw [hu]; rfl
  have hd' : Delivers (k + 1) v (poke u x) := hu ▸ hd.trans (.mail (.poke x) rest hw hm (.refl _))
  have hul : u.queue.records.length < 64 := by rw [hu]; exact hl
  have hue : (u.ctx x).Ending e := huctx ▸ h
  obtain ⟨hrel, hsweep⟩ := placeEnd_ending hue hul
  have hst' : ∀ tag, (u.ctx x).step ≠ some ⟨tag, .release⟩ := fun tag => by rw [huctx]; exact hst tag
  have hpoke := poke_releases hrel
  have hpsweep := poke_releases_sweep hrel
  rw [← poke_placed] at hpoke hpsweep
  obtain ⟨rs, hrs⟩ := poke_end hue.slot hue.pending hul
  obtain ⟨more, hmore⟩ := hd'.records hk
  refine ⟨(hpoke.finish hst' hd' hk).1.endPending, ?_, rs ++ more, ?_⟩
  · rw [finish_ctx, hd'.drainAll hk, drain_releases_sweep _ hst' hpoke, hpsweep, hsweep, huctx]
  · rw [hmore, hrs, hu, List.append_assoc]
    rfl

/-- The END is placed at once also where the release is answered first. -/
theorem ending_answered {v : State} {x : Bus} {e : EndInfo} (hwork : v.matrixWork.length ≤ 2304) (hsends : SendsIdle v)
    (hm : v.mail = [.poke x] ∨ ∃ f, v.mail = [.opened x f, .poke x]) (h : (v.ctx x).Ending e)
    (hst : ∀ tag, (v.ctx x).step ≠ some ⟨tag, .release⟩) (hl : v.queue.records.length < 64) :
    ((finish v).ctx x).endPending = none ∧ ((finish v).ctx x).sweep = (v.ctx x).sweep ∧
      ∃ rs, (finish v).queue.records = v.queue.records ++ endRecord v x e.tag e.judged e.kind :: rs := by
  obtain ⟨k, u, hd, hk, hu, ⟨l, hl'⟩, hkeep, hrun⟩ := workDone hsends
  have hbound : k ≤ 7112 := hk.trans ((workLeft_le v).trans (by omega))
  have hspared := Run.spared (x := x) hrun id
  have hqueue := hrun.queueStays (fun _ => id)
  have hpanel := hkeep.panelNumber
  have hue := h.spared hspared
  have husweep : (u.ctx x).sweep = (v.ctx x).sweep := by rw [hspared.rest]
  have hustep : (u.ctx x).step = (v.ctx x).step := by rw [hspared.rest]
  have hurec : ∀ w : State, w.queue = u.queue → w.panel = u.panel → endRecord w x e.tag e.judged e.kind = endRecord v x e.tag e.judged e.kind :=
    fun w h1 h2 => by rw [endRecord, h1, h2, hqueue, hpanel]; rfl
  rcases hm with hm | ⟨f, hm⟩
  · have hmail : u.mail = .poke x :: l := by rw [hl', hm]; rfl
    have hdone := ending_looks hd (by unfold drainBound; omega) hu hmail hue (by rw [hustep]; exact hst) (by rw [hqueue]; exact hl)
    rw [husweep, hurec u rfl rfl, hqueue] at hdone
    exact hdone
  · have hmail : u.mail = .opened x f :: (.poke x :: l) := by rw [hl', hm]; rfl
    obtain ⟨a, fail, hans⟩ := releaseAnswered_noted (s := { u with mail := .poke x :: l }) (x := x)
      (by rw [show State.ctx { u with mail := .poke x :: l } x = u.ctx x from rfl, hustep]; exact hst) f
    obtain ⟨c, hc⟩ : ∃ c : Ctx, c = { u.ctx x with relDone := true, relFail := fail } := ⟨_, rfl⟩
    obtain ⟨w, hw⟩ : ∃ w : State, w = (State.setCtx { u with mail := .poke x :: l, trunk := a } x c).post (.poke x) := ⟨_, rfl⟩
    have hopened : doMail { u with mail := .poke x :: l } (.opened x f) = w := by
      have hstate : (State.ctx { u with mail := .poke x :: l } x).state = .releasing := hue.state
      have hdo : doMail { u with mail := .poke x :: l } (.opened x f) = releaseAnswered { u with mail := .poke x :: l } x f := by
        unfold doMail
        dsimp only
        rw [hstate]
      rw [hdo, hans, hw, hc]
      rfl
    have hwctx : w.ctx x = c := by rw [hw]; exact State.ctx_setCtx_self _ _ _
    have hd' : Delivers (k + 1) v w := hopened ▸ hd.trans (.mail (.opened x f) _ hu hmail (.refl _))
    have hwq : w.queue = u.queue := by rw [hw]; rfl
    have hdone := ending_looks (e := e) (rest := l ++ [.poke x]) hd' (by unfold drainBound; omega) (by rw [hw]; exact hu) (by rw [hw]; rfl)
      (by rw [hwctx, hc]; exact ⟨hue.state, hue.dest, hue.queue, hue.inFlight, hue.slot, hue.pending⟩)
      (by rw [hwctx, hc]; exact fun tag => by rw [show (u.ctx x).step = _ from hustep]; exact hst tag) (by rw [hwq, hqueue]; exact hl)
    rw [hwctx, hc, hurec w hwq (by rw [hw]; rfl), hwq, hqueue] at hdone
    exact ⟨hdone.1, hdone.2.1.trans husweep, hdone.2.2⟩

/-! ### BUS ABORT in HALTED -/

/-- The halted context whose sweep is ended. -/
def Ctx.sweepEnded (c : Ctx) : Ctx := { c.sweepAborted with resume := .none }

theorem abortCtx_halted {s : State} {x : Bus} (h : (s.ctx x).state = .halted) :
    abortCtx s x = (enterReleasing (s.setCtx x (s.ctx x).sweepEnded) x .idle).post (.poke x) := by
  unfold abortCtx
  dsimp only
  rw [h]
  dsimp only
  rw [abortSweep_eq, State.modCtx, State.ctx_setCtx_self, State.setCtx_setCtx]
  rfl

theorem abort_halted {s : State} {x : Bus} {stag : Half} {sel : Selection} {n : Net} {lim : Fin 256} {k d timeout : Nat} {hold : Bool}
    (hq : Quiesced s) (hslot : (s.ctx x).slot = none) (hstep : (s.ctx x).step = some ⟨stag, .measure sel n lim k d timeout hold⟩)
    (hs : (s.ctx x).state = .halted) (hrun : (s.ctx x).sweep.status = .running) (hl : s.queue.records.length < 64) (tag : Half)
    (data : List Byte) :
    ∃ t, t = finish ((abortCtx (aborting s x) x).respond tag 0x04#8 .ok data) ∧ (t.ctx x).sweep.status = .aborted ∧
      (t.ctx x).endPending = none ∧
      ∃ rs, t.queue.records = s.queue.records ++ endRecord s x stag (s.ctx x).sweep.judged.length .aborted :: rs := by
  obtain ⟨c, hc⟩ : ∃ c, c = ({ s.ctx x with queue := [] } : Ctx).sweepEnded := ⟨_, rfl⟩
  have hcrun : c = { s.ctx x with
      queue := [], resume := .none, sweep := { (s.ctx x).sweep with status := .aborted }
      endPending := some ⟨(s.ctx x).stepTag, (s.ctx x).sweep.judged.length, .aborted⟩ } := by
    rw [hc, Ctx.sweepEnded, Ctx.sweepAborted]
    dsimp only
    rw [if_pos hrun]
    rfl
  have htag : (s.ctx x).stepTag = stag := by rw [Ctx.stepTag, hstep]
  obtain ⟨b, hb⟩ : ∃ b, b = (aborting s x).setCtx x c := ⟨_, rfl⟩
  have hbctx : b.ctx x = c := by rw [hb]; exact State.ctx_setCtx_self _ _ _
  have hbwork : b.matrixWork = [] := by rw [hb]; exact hq.1
  have hbmail : b.mail = [] := by rw [hb]; exact hq.2
  have hbqueue : b.queue = s.queue := by rw [hb]; rfl
  have habort : abortCtx (aborting s x) x = (enterReleasing b x .idle).post (.poke x) := by
    rw [abortCtx_halted (by rw [aborting_ctx]; exact hs), aborting_ctx, hb, hc]
  have hcstep : ∀ t, c.step ≠ some ⟨t, .release⟩ := fun t => by rw [hcrun]; dsimp only; rw [hstep]; nofun
  obtain ⟨hplaces, hmail, ⟨src, req, fail, hectx⟩, hequeue⟩ := enterReleasing_enters (s := b) (x := x) (by rw [hbctx]; exact hcstep) .idle
  have hepanel : (enterReleasing b x .idle).panel.number = s.panel.number := by
    have h := ((Keeps.refl (Q := fun _ => False) (aborting s x)).abortCtx x).panelNumber
    rw [habort] at h
    exact h
  rw [habort]
  generalize enterReleasing b x .idle = e at *
  have hsends : SendsIdle b := fun _ hmem => by rw [hbwork] at hmem; cases hmem
  rw [hbctx, hcrun] at hectx
  obtain ⟨v, hv⟩ : ∃ v, v = (e.post (.poke x)).respond tag 0x04#8 .ok data := ⟨_, rfl⟩
  have hvctx : v.ctx x = e.ctx x := by rw [hv]; rfl
  have hvqueue : v.queue = s.queue := by rw [hv]; exact hequeue.trans hbqueue
  have hvpanel : v.panel.number = s.panel.number := by rw [hv]; exact hepanel
  have hvwork := hplaces.work
  obtain ⟨h1, h2, rs, h3⟩ := ending_answered (v := v) (x := x) (e := ⟨stag, (s.ctx x).sweep.judged.length, .aborted⟩)
    (by rw [hv]; rw [hbwork] at hvwork; simpa using hvwork) (by rw [hv]; exact hplaces.sends hsends)
    (by
      rw [hv]
      show e.mail ++ [.poke x] = _ ∨ ∃ f, e.mail ++ [.poke x] = _
      rw [hbmail] at hmail
      rcases hmail with hmail | ⟨f, hmail⟩
      · exact .inl (by rw [hmail]; rfl)
      · exact .inr ⟨f, by rw [hmail]; rfl⟩)
    (by rw [hvctx, hectx, ← htag]; exact ⟨rfl, rfl, rfl, rfl, hslot, rfl⟩)
    (by rw [hvctx, hectx]; intro t; show (s.ctx x).step ≠ _; rw [hstep]; nofun)
    (by rw [hvqueue]; exact hl)
  refine ⟨_, hv ▸ rfl, ?_, h1, rs, ?_⟩
  · rw [h2, hvctx, hectx]; rfl
  · rw [h3, hvqueue, endRecord, endRecord, hvqueue, hvpanel]

/-! ### The command -/

/-- What the owner of BUS ABORT answers. -/
def abortOwner (p : List Byte) (s : State) : Reply :=
  match busAt p 0 with
  | none => .refused .badIndex
  | some x => .ran (abortCtx (s.modCtx x (fun c => { c with queue := [] })) x) [byte (s.ctx x).queue.length]

theorem exec_busAbort {s : State} (x : Bus) (tag : Half) (h : HasRoom s) :
    exec (.busAbort tag [byte x.val]) s =
      .next (finish ((abortCtx (aborting s x) x).respond tag 0x04#8 .ok [byte (s.ctx x).queue.length])) := by
  refine exec_ran (owner := abortOwner [byte x.val]) rfl h rfl ?_
  rw [abortOwner, busAt_byte]
  rfl

end Sys2Proof.Machine

namespace Sys2Proof

open Machine

/-- Settles O23: the queue is emptied before the context is aborted, and an aborted context takes no site again. -/
theorem busAbortEmptiesTheBus : Obligations.BusAbortEmptiesTheBus := by
  intro s tag hroom
  refine ⟨fun x => ⟨_, exec_busAbort x tag hroom, ?_⟩, fun b hb => onlyReplies_refused (owner := abortOwner [b]) rfl hroom rfl
    (by rw [abortOwner, busAt_none hb])⟩
  have hkeep := (Keeps.refl (Q := fun _ => False) (aborting s x)).abortCtx x
  obtain ⟨v, hv⟩ : ∃ v, v = (abortCtx (aborting s x) x).respond tag 0x04#8 .ok [byte (s.ctx x).queue.length] := ⟨_, rfl⟩
  have hqueues : ∀ y, ((finish v).ctx y).queue <:+ ((aborting s x).ctx y).queue := fun y => by
    rw [hv]; exact (finish_queues _ y).trans (hkeep.queues y)
  have hbegin : LeavesStores s (aborting s x) := LeavesStores.refl s
  have hall : LeavesStores s (abortCtx (aborting s x) x) := hbegin.trans hkeep.leaves
  refine ⟨?_, ?_, fun hw => ?_, ?_, ?_, fun y hy => ?_, fun u stag sel n lim k d timeout hold hq hslot hend hstep => ⟨fun hs hr hi hl => ?_,
    fun hs hrun hl => ?_⟩⟩
  · rw [Answered, finish_responses]
    show (abortCtx (aborting s x) x).trunk.responses ++ _ = _
    rw [hkeep.trunk]; rfl
  · have h := hqueues x
    rw [aborting_ctx, hv] at h
    exact List.suffix_nil.1 h
  · have h := abortCtx_working (s := aborting s x) (x := x) (by rw [aborting_ctx]; exact hw) (by rw [aborting_ctx])
    rw [finish_ctx]
    exact (drain_aborted drainBound (s := (abortCtx (aborting s x) x).respond tag 0x04#8 .ok [byte (s.ctx x).queue.length]) h).inFlight
  · exact hall.trans (finish_leaves (State.respond _ _ _ _ _))
  · rw [finish_guard]; exact hkeep.guard
  · have h := hqueues y
    rw [aborting, State.ctx_setCtx, if_neg (Ne.symm hy), hv] at h
    exact h
  · obtain ⟨t, ht, h⟩ := abort_redo hq hend hstep hs hr hi hl tag [byte (s.ctx x).queue.length]
    rw [← ht]
    exact h
  · obtain ⟨t, ht, h⟩ := abort_halted hq hslot hstep hs hrun hl tag [byte (s.ctx x).queue.length]
    rw [← ht]
    exact h

end Sys2Proof
end

