-- ==== Sys2Proof/Proofs/PresenceReports.lean ====
section
/-!
PROOFS. A PRESENCE frame (R163, R164): the eight blocks of its card, the deltas, the supplies, and the sites whose powered boards
depart.
-/

-- One proof after another: in the joined text each worker would hold a stack of its own.
set_option Elab.async false

namespace Sys2Proof.Machine

/-! ### One block -/

/-- The board of site `u` arrives by what is reported of block `b`. -/
def ArrivesBy (s : State) (b : Block) (v : Bool) (u : Site) : Prop :=
  s.siteOnBlock b = some u ∧ v = true ∧ s.blockPresence b ≠ .present

/-- The board of site `u` departs by what is reported of block `b`. -/
def DepartsBy (s : State) (b : Block) (v : Bool) (u : Site) : Prop :=
  s.siteOnBlock b = some u ∧ v = false ∧ s.blockPresence b = .present

/-- Reports of blocks move the presence, the deltas, the supplies and the attention set, and nothing else. -/
structure PresenceOnly (s t : State) : Prop where
  shape : t = { s with
    guard := { s.guard with
      presence := t.guard.presence, arrival := t.guard.arrival, departure := t.guard.departure, supply := t.guard.supply }
    trunk := { s.trunk with attn := t.trunk.attn } }
  raised : s.trunk.attn.site = true → t.trunk.attn.site = true
  deltas : t.guard.arrival ≠ s.guard.arrival ∨ t.guard.departure ≠ s.guard.departure → t.trunk.attn.site = true

theorem PresenceOnly.refl (s : State) : PresenceOnly s s := ⟨rfl, id, fun h => h.elim (absurd rfl) (absurd rfl)⟩

theorem PresenceOnly.trans {s u t : State} (h : PresenceOnly s u) (k : PresenceOnly u t) : PresenceOnly s t where
  shape := by rw [k.shape, h.shape]
  raised := k.raised ∘ h.raised
  deltas := fun hd => by
    by_cases hu : u.guard.arrival ≠ s.guard.arrival ∨ u.guard.departure ≠ s.guard.departure
    · exact k.raised (h.deltas hu)
    · rw [not_or, not_not, not_not] at hu
      rw [← hu.1, ← hu.2] at hd
      exact k.deltas hd

theorem PresenceOnly.siteOnBlock {s t : State} (h : PresenceOnly s t) (b : Block) : t.siteOnBlock b = s.siteOnBlock b := by
  rw [h.shape]; rfl

/-- What one report of a block does (R163, R164, R168). -/
structure BlockReported (s : State) (b : Block) (v : Bool) (r : State × Option Site) : Prop where
  only : PresenceOnly s r.1
  presence : ∀ d, r.1.blockPresence d = if b = d then (if v then .present else .absent) else s.blockPresence d
  arrival : ∀ u : Site, r.1.guard.arrival[u] = true ↔ s.guard.arrival[u] = true ∨ ArrivesBy s b v u
  departure : ∀ u : Site, r.1.guard.departure[u] = true ↔ s.guard.departure[u] = true ∨ DepartsBy s b v u
  supply : ∀ u : Site, r.1.supplyOn u = true ↔ s.supplyOn u = true ∧ ¬ DepartsBy s b v u
  gone : ∀ u : Site, r.2 = some u ↔ s.supplyOn u = true ∧ DepartsBy s b v u

theorem getElem_setFlag (a : Vector Bool 32) (t u : Site) : (a.set t true)[u] = true ↔ a[u] = true ∨ t = u := by
  simp only [Fin.getElem_fin, Vector.getElem_set, ← Fin.ext_iff]
  by_cases h : t = u <;> simp [h]

theorem presenceOnly_setPresence (s : State) (b : Block) (v : Presence) : PresenceOnly s (s.setPresence b v) :=
  ⟨rfl, id, fun h => h.elim (absurd rfl) (absurd rfl)⟩

theorem presenceOnly_setSupply (s : State) (u : Site) (v : Bool) : PresenceOnly s (s.setSupply u v) :=
  ⟨rfl, id, fun h => h.elim (absurd rfl) (absurd rfl)⟩

theorem presenceOnly_arrives (s : State) (u : Site) : PresenceOnly s (arrives s u) := ⟨rfl, fun _ => rfl, fun _ => rfl⟩

theorem presenceOnly_departs (s : State) (u : Site) : PresenceOnly s (departs s u) := ⟨rfl, fun _ => rfl, fun _ => rfl⟩

/-- A report that moves no board. -/
theorem blockReported_still {s t : State} {b : Block} {v : Bool} (ho : PresenceOnly s t)
    (hp : ∀ d, t.blockPresence d = if b = d then (if v then .present else .absent) else s.blockPresence d)
    (ha : t.guard.arrival = s.guard.arrival) (hd : t.guard.departure = s.guard.departure) (hs : t.guard.supply = s.guard.supply)
    (hna : ∀ u, ¬ ArrivesBy s b v u) (hnd : ∀ u, ¬ DepartsBy s b v u) : BlockReported s b v (t, none) where
  only := ho
  presence := hp
  arrival := fun u => by rw [ha]; simp [hna u]
  departure := fun u => by rw [hd]; simp [hnd u]
  supply := fun u => by rw [State.supplyOn, State.supplyOn, hs]; simp [hnd u]
  gone := fun u => by simp [hnd u]

theorem setPresence_held {s : State} {b : Block} {v : Presence} (h : s.blockPresence b = v) (d : Block) :
    s.blockPresence d = if b = d then v else s.blockPresence d := by
  split
  · next e => rw [← e, h]
  · rfl

theorem blockReport_present (s : State) (b : Block) : BlockReported s b true (blockReport s b true) := by
  have hnd : ∀ u, ¬ DepartsBy s b true u := fun u h => Bool.noConfusion h.2.1
  unfold blockReport
  rw [if_pos rfl]
  by_cases hheld : s.blockPresence b = .present
  · rw [if_pos hheld]
    exact blockReported_still (.refl s) (setPresence_held hheld) rfl rfl rfl (fun u h => h.2.2 hheld) hnd
  · rw [if_neg hheld]
    have hsite : (s.setPresence b .present).siteOnBlock b = s.siteOnBlock b := rfl
    dsimp only
    rw [hsite]
    have hpres := State.blockPresence_setPresence s b (v := .present)
    cases hb : s.siteOnBlock b with
    | none =>
      exact blockReported_still (presenceOnly_setPresence s b _) hpres rfl rfl rfl
        (fun u h => by cases hb.symm.trans h.1) hnd
    | some t =>
      have harr : ∀ u, ArrivesBy s b true u ↔ t = u := fun u => by
        rw [ArrivesBy, hb, Option.some_inj]
        exact ⟨fun h => h.1, fun h => ⟨h, rfl, hheld⟩⟩
      exact {
        only := (presenceOnly_setPresence s b _).trans (presenceOnly_arrives _ t)
        presence := hpres
        arrival := fun u => by rw [harr]; exact getElem_setFlag _ _ _
        departure := fun u => by simp only [hnd u, or_false]; exact Iff.rfl
        supply := fun u => by simp only [hnd u, not_false_eq_true, and_true]; exact Iff.rfl
        gone := fun u => by simp [hnd u] }

theorem blockReport_absent (s : State) (b : Block) : BlockReported s b false (blockReport s b false) := by
  have hna : ∀ u, ¬ ArrivesBy s b false u := fun u h => Bool.noConfusion h.2.1
  have hpres := State.blockPresence_setPresence s b (v := .absent)
  have hstill : s.blockPresence b ≠ .present → ∀ u, ¬ DepartsBy s b false u := fun h u k => h k.2.2
  have hsite : (s.setPresence b .absent).siteOnBlock b = s.siteOnBlock b := rfl
  have hon : ∀ u, (s.setPresence b .absent).supplyOn u = s.supplyOn u := fun _ => rfl
  unfold blockReport
  rw [if_neg Bool.false_ne_true]
  cases hheld : s.blockPresence b with
  | absent =>
    rw [if_pos rfl]
    exact blockReported_still (.refl s) (setPresence_held hheld) rfl rfl rfl hna (hstill (by rw [hheld]; nofun))
  | unknown =>
    rw [if_neg (by nofun)]
    dsimp only
    rw [if_pos rfl]
    exact blockReported_still (presenceOnly_setPresence s b _) hpres rfl rfl rfl hna (hstill (by rw [hheld]; nofun))
  | present =>
    rw [if_neg (by nofun)]
    dsimp only
    rw [if_neg (by nofun), hsite]
    cases hb : s.siteOnBlock b with
    | none =>
      exact blockReported_still (presenceOnly_setPresence s b _) hpres rfl rfl rfl hna
        (fun u h => by cases hb.symm.trans h.1)
    | some t =>
      have hdep : ∀ u, DepartsBy s b false u ↔ t = u := fun u => by
        rw [DepartsBy, hb, Option.some_inj]
        exact ⟨fun h => h.1, fun h => ⟨h, rfl, hheld⟩⟩
      dsimp only
      rw [hon]
      by_cases hs : s.supplyOn t = true
      · rw [if_pos hs]
        exact {
          only := ((presenceOnly_setPresence s b _).trans (presenceOnly_setSupply _ t _)).trans (presenceOnly_departs _ t)
          presence := hpres
          arrival := fun u => by simp only [hna u, or_false]; exact Iff.rfl
          departure := fun u => by rw [hdep]; exact getElem_setFlag _ _ _
          supply := fun u => by
            rw [hdep]
            show ((s.setPresence b .absent).setSupply t false).supplyOn u = true ↔ _
            rw [State.supplyOn_setSupply, hon]
            split <;> simp_all
          gone := fun u => by
            rw [hdep, Option.some_inj]
            exact ⟨fun h => ⟨h ▸ hs, h⟩, fun h => h.2⟩ }
      · rw [if_neg hs]
        exact {
          only := (presenceOnly_setPresence s b _).trans (presenceOnly_departs _ t)
          presence := hpres
          arrival := fun u => by simp only [hna u, or_false]; exact Iff.rfl
          departure := fun u => by rw [hdep]; exact getElem_setFlag _ _ _
          supply := fun u => by
            rw [hdep]
            show s.supplyOn u = true ↔ _
            exact ⟨fun h => ⟨h, fun e => hs (e ▸ h)⟩, And.left⟩
          gone := fun u => by
            rw [hdep]
            exact ⟨nofun, fun h => absurd (h.2 ▸ h.1) hs⟩ }

theorem blockReport_reported (s : State) (b : Block) (v : Bool) : BlockReported s b v (blockReport s b v) := by
  cases v with
  | true => exact blockReport_present s b
  | false => exact blockReport_absent s b

/-! ### The eight blocks of a card -/

/-- One more block of the report. -/
def reported (c : CardId) (mask : Byte) (r : State × List Site) (k : Fin 8) : State × List Site :=
  ((blockReport r.1 (blockOnCard c k) (mask.getLsbD k.val)).1,
    r.2 ++ (blockReport r.1 (blockOnCard c k) (mask.getLsbD k.val)).2.toList)

theorem blockReports_eq (s : State) (c : CardId) (mask : Byte) : blockReports s c mask = (List.finRange 8).foldl (reported c mask) (s, []) := by
  unfold blockReports
  congr 1
  funext r k
  unfold reported
  generalize blockReport r.1 (blockOnCard c k) (mask.getLsbD k.val) = a
  obtain ⟨u, v⟩ := a
  cases v with
  | none => exact congrArg (Prod.mk u) (List.append_nil _).symm
  | some t => rfl

theorem blockOnCard_inj {c : CardId} {j k : Fin 8} (h : blockOnCard c j = blockOnCard c k) : j = k := by
  have := congrArg Fin.val h
  unfold blockOnCard at this
  dsimp only at this
  exact Fin.ext (by omega)

/-- A site stands on one block. -/
theorem siteOnBlock_block {s : State} {b : Block} {u : Site} (h : s.siteOnBlock b = some u) : (s.siteEntry u).block = b := by
  have := List.find?_some h
  simp only [Bool.and_eq_true, beq_iff_eq] at this
  exact this.2

/-- What the reports of the blocks `ks` of a card have done. -/
structure Reported (s : State) (c : CardId) (mask : Byte) (ks : List (Fin 8)) (r : State × List Site) : Prop where
  only : PresenceOnly s r.1
  presence : ∀ d, r.1.blockPresence d = s.blockPresence d ∨ ∃ k ∈ ks, blockOnCard c k = d
  blocks : ∀ k ∈ ks, r.1.blockPresence (blockOnCard c k) = if mask.getLsbD k.val then .present else .absent
  arrival : ∀ u : Site, r.1.guard.arrival[u] = true ↔
    s.guard.arrival[u] = true ∨ ∃ k ∈ ks, ArrivesBy s (blockOnCard c k) (mask.getLsbD k.val) u
  departure : ∀ u : Site, r.1.guard.departure[u] = true ↔
    s.guard.departure[u] = true ∨ ∃ k ∈ ks, DepartsBy s (blockOnCard c k) (mask.getLsbD k.val) u
  supply : ∀ u : Site, r.1.supplyOn u = true ↔
    s.supplyOn u = true ∧ ¬ ∃ k ∈ ks, DepartsBy s (blockOnCard c k) (mask.getLsbD k.val) u
  gone : ∀ u : Site, u ∈ r.2 ↔ s.supplyOn u = true ∧ ∃ k ∈ ks, DepartsBy s (blockOnCard c k) (mask.getLsbD k.val) u

theorem or_and_not {a b d : Prop} (h : d → ¬ b) : (a ∧ b) ∨ (a ∧ ¬ b) ∧ d ↔ a ∧ (b ∨ d) := by tauto

theorem Reported.more {s : State} {c : CardId} {mask : Byte} {ks : List (Fin 8)} {r : State × List Site} (h : Reported s c mask ks r)
    {k : Fin 8} (hk : k ∉ ks) : Reported s c mask (ks ++ [k]) (reported c mask r k) := by
  have hone := blockReport_reported r.1 (blockOnCard c k) (mask.getLsbD k.val)
  obtain ⟨v, hv⟩ : ∃ v, v = mask.getLsbD k.val := ⟨_, rfl⟩
  have hsite : ∀ d, r.1.siteOnBlock d = s.siteOnBlock d := fun d => h.only.siteOnBlock d
  have hpk : r.1.blockPresence (blockOnCard c k) = s.blockPresence (blockOnCard c k) :=
    (h.presence _).resolve_right (fun ⟨j, hj, hjk⟩ => hk (blockOnCard_inj hjk ▸ hj))
  have hmem : ∀ P : Fin 8 → Prop, (∃ j ∈ ks ++ [k], P j) ↔ (∃ j ∈ ks, P j) ∨ P k := fun P => by
    constructor
    · rintro ⟨j, hj, hp⟩
      rcases List.mem_append.1 hj with hj | hj
      · exact .inl ⟨j, hj, hp⟩
      · exact .inr (List.mem_singleton.1 hj ▸ hp)
    · rintro (⟨j, hj, hp⟩ | hp)
      · exact ⟨j, List.mem_append_left _ hj, hp⟩
      · exact ⟨k, List.mem_append_right _ (List.mem_singleton.2 rfl), hp⟩
  have harr : ∀ u, ArrivesBy r.1 (blockOnCard c k) v u ↔ ArrivesBy s (blockOnCard c k) v u := fun u => by
    rw [ArrivesBy, ArrivesBy, hsite, hpk]
  have hdep : ∀ u, DepartsBy r.1 (blockOnCard c k) v u ↔ DepartsBy s (blockOnCard c k) v u := fun u => by
    rw [DepartsBy, DepartsBy, hsite, hpk]
  unfold reported
  rw [← hv] at hone ⊢
  refine ⟨h.only.trans hone.only, fun d => ?_, fun j hj => ?_, fun u => ?_, fun u => ?_, fun u => ?_, fun u => ?_⟩
  · rw [hone.presence, hmem]
    split
    · next e => exact .inr (.inr e)
    · exact (h.presence d).imp_right .inl
  · dsimp only
    rw [hone.presence]
    split
    · next e => rw [← blockOnCard_inj e, hv]
    · next e =>
      rcases List.mem_append.1 hj with hj | hj
      · exact h.blocks j hj
      · exact absurd (List.mem_singleton.1 hj ▸ rfl) e
  · rw [hone.arrival, h.arrival, hmem, harr, hv, or_assoc]
  · rw [hone.departure, h.departure, hmem, hdep, hv, or_assoc]
  · rw [hone.supply, h.supply, hmem, hdep, hv, not_or, and_assoc]
  · have hnot : DepartsBy s (blockOnCard c k) v u → ¬ ∃ j ∈ ks, DepartsBy s (blockOnCard c j) (mask.getLsbD j.val) u := fun hd ⟨j, hj, hd'⟩ =>
      hk (blockOnCard_inj ((siteOnBlock_block hd.1).symm.trans (siteOnBlock_block hd'.1)) ▸ hj)
    rw [List.mem_append, h.gone, Option.mem_toList, hone.gone, h.supply,
      hmem (fun j => DepartsBy s (blockOnCard c j) (mask.getLsbD j.val) u), hdep, ← hv]
    exact or_and_not hnot

theorem foldl_reported {s : State} {c : CardId} {mask : Byte} (l : List (Fin 8)) {ks : List (Fin 8)} {r : State × List Site}
    (h : Reported s c mask ks r) (hn : (ks ++ l).Nodup) : Reported s c mask (ks ++ l) (l.foldl (reported c mask) r) := by
  induction l generalizing ks r with
  | nil => rwa [List.append_nil]
  | cons k l ih =>
    have hk : k ∉ ks := fun hk => by
      have := List.nodup_append.1 hn
      exact this.2.2 k hk k List.mem_cons_self rfl
    rw [show ks ++ k :: l = (ks ++ [k]) ++ l by simp] at hn ⊢
    exact ih (h.more hk) hn

/-- The eight blocks of a report (R163). -/
theorem blockReports_reported (s : State) (c : CardId) (mask : Byte) : Reported s c mask (List.finRange 8) (blockReports s c mask) := by
  rw [blockReports_eq]
  have hstart : Reported s c mask [] (s, []) := by
    refine ⟨.refl s, fun _ => .inl rfl, nofun, fun u => ?_, fun u => ?_, fun u => ?_, fun u => ?_⟩ <;> simp
  exact foldl_reported (List.finRange 8) hstart (List.nodup_finRange 8)

/-- The powered boards that depart (R168). -/
theorem mem_gone {s : State} {c : CardId} {mask : Byte} {u : Site} : u ∈ (blockReports s c mask).2 ↔ Leaves s c mask u := by
  rw [(blockReports_reported s c mask).gone]
  simp [Leaves, DepartsBy]

/-! ### The departures reach the contexts (R168) -/

/-- Every context is told of every board that departs. -/
def departEach (gone : List Site) (s : State) : State := gone.foldl (fun s t => allBuses.foldl (fun s x => departCtx s t x) s) s

theorem presenceTaken_none {s : State} {l : LaneId} {c : CardId} {mask : Byte} (h : (blockReports s c mask).2 = []) :
    presenceTaken s l c mask = (blockReports s c mask).1 := by
  unfold presenceTaken
  generalize blockReports s c mask = r at h
  obtain ⟨u, gone⟩ := r
  cases h
  rfl

theorem presenceTaken_some {s : State} {l : LaneId} {c : CardId} {mask : Byte} (h : (blockReports s c mask).2 ≠ []) :
    presenceTaken s l c mask =
      departEach (blockReports s c mask).2 (sendSupply (blockReports s c mask).1 l (supplyMask (blockReports s c mask).1 c)) := by
  unfold presenceTaken
  generalize blockReports s c mask = r at h
  obtain ⟨u, gone⟩ := r
  cases gone with
  | nil => exact absurd rfl h
  | cons t gone => rfl

theorem foldl_reaches {α : Type} {f : State → α → State} {P R : State → Prop} {a : α} (hP : ∀ s b, b ≠ a → P s → P (f s b))
    (ha : ∀ s, P s → R (f s a)) (hR : ∀ s b, R s → R (f s b)) {l : List α} (hl : a ∈ l) {s : State} (h : P s) : R (l.foldl f s) := by
  have hkeep : ∀ (l : List α) (s : State), R s → R (l.foldl f s) := fun l => by
    induction l with
    | nil => exact fun _ h => h
    | cons b l ih => exact fun s h => ih _ (hR s b h)
  induction l generalizing s with
  | nil => cases hl
  | cons b l ih =>
    by_cases hb : b = a
    · subst hb
      exact hkeep l _ (ha s h)
    · exact ih ((List.mem_cons.1 hl).resolve_left (Ne.symm hb)) (hP s b hb h)

theorem foldl_holds {α : Type} {f : State → α → State} {P : State → Prop} (hP : ∀ s b, P s → P (f s b)) (l : List α) {s : State} (h : P s) :
    P (l.foldl f s) := by
  induction l generalizing s with
  | nil => exact h
  | cons b l ih => exact ih (hP s b h)

theorem departEach_stays {P : State → Prop} (hP : ∀ s t y, P s → P (departCtx s t y)) (gone : List Site) {s : State} (h : P s) :
    P (departEach gone s) :=
  foldl_holds (fun _ t hs => foldl_holds (fun _ y hv => hP _ t y hv) _ hs) gone h

/-- What is so when a departure reaches its bus, and what it leaves there. -/
theorem departEach_reaches {P R : State → Prop} {u : Site} {x : Bus} (hP : ∀ s t y, t ≠ u ∨ y ≠ x → P s → P (departCtx s t y))
    (hx : ∀ s, P s → R (departCtx s u x)) (hR : ∀ s t y, R s → R (departCtx s t y)) {gone : List Site} (hu : u ∈ gone) {s : State} (h : P s) :
    R (departEach gone s) :=
  foldl_reaches (fun _ t ht hs => foldl_holds (fun _ y hv => hP _ t y (.inl ht) hv) _ hs)
    (fun _ hs => foldl_reaches (fun _ y hy hv => hP _ u y (.inr hy) hv) hx (fun _ y hv => hR _ u y hv) (List.mem_finRange x) hs)
    (fun _ t hs => foldl_holds (fun _ y hv => hR _ t y hv) _ hs) hu h

theorem departEach_keeps (gone : List Site) (s : State) : Keeps (fun _ => False) s (departEach gone s) :=
  departEach_stays (P := Keeps (fun _ => False) s) (fun _ t y h => h.departCtx t y) gone (.refl s)

theorem departEach_sent (gone : List Site) (s : State) : ∃ fs, (departEach gone s).out = s.out ++ fs := by
  have hrun : Run False True (fun _ => True) s (departEach gone s) :=
    departEach_stays (P := Run False True (fun _ => True) s) (fun _ t y h => h.departCtx t y trivial) gone .refl
  exact hrun.sent

theorem departCtx_spared {s : State} {x y : Bus} (hy : y ≠ x) (t : Site) : (s.ctx x).Spared ((departCtx s t y).ctx x) := by
  have hrun : Run False True (fun z => z ≠ x) s (departCtx s t y) := .departCtx t y hy .refl
  exact hrun.spared (fun e => e rfl)

theorem departCtx_other {s : State} {x : Bus} {t : Site} (hi : (s.ctx x).inFlight ≠ some t)
    (hs : (s.ctx x).state = .holding → (s.ctx x).site ≠ some t) : departCtx s t x = s := by
  unfold departCtx
  dsimp only
  generalize hst : (s.ctx x).state = st at hs
  cases st
  case idle | releasing | tripped | halted => rfl
  case holding => exact if_neg (hs rfl)
  all_goals exact if_neg hi

theorem departCtx_works {s : State} {x : Bus} {t : Site} (hw : (s.ctx x).state.working = true) (hi : (s.ctx x).inFlight = some t) :
    departCtx s t x = endSite s x .departed := by
  unfold departCtx
  dsimp only
  generalize hst : (s.ctx x).state = st at hw
  cases st
  case idle | holding | releasing | suspended | tripped | halted => cases hw
  all_goals exact if_pos hi

/-- The context whose redo has ended by a departure. -/
def Ctx.redoEnded (c : Ctx) : Ctx := { c with resume := c.resumeAfter, after := .none, lastOk := false }

theorem departCtx_suspended {s : State} {x : Bus} {t : Site} (hs : (s.ctx x).state = .suspended) (hi : (s.ctx x).inFlight = some t) :
    departCtx s t x = ((judgeInvalid s x .departed).modCtx x Ctx.redoEnded).post (.poke x) := by
  unfold departCtx
  dsimp only
  rw [hs]
  exact if_pos hi

theorem departCtx_holding {s : State} {x : Bus} {t : Site} (hs : (s.ctx x).state = .holding) (hi : (s.ctx x).site = some t) :
    departCtx s t x = loseHold s x := by
  unfold departCtx
  dsimp only
  rw [hs]
  exact if_pos hi

/-! ### A record that waits -/

/-- A context whose record waits in the slot and that takes no site before it is gone. -/
def Ctx.Stores (c : Ctx) (sl : Slot) : Prop := c.Posts sl ∨ (c.slot = some sl ∧ c.inFlight = none ∧ c.state = .suspended)

theorem Ctx.Stores.slot {c : Ctx} {sl : Slot} (h : c.Stores sl) : c.slot = some sl := h.elim And.left And.left

theorem Ctx.Stores.spared {c d : Ctx} {sl : Slot} (h : c.Stores sl) (k : c.Spared d) : d.Stores sl := by
  rcases h with h | ⟨h1, h2, h3⟩
  · exact .inl (h.waits k.waits.1 (k.waits.2 h.2.2.2))
  · have hstate : d.state = c.state := k.state.resolve_right (fun ⟨hb, _⟩ => by rw [h3] at hb; cases hb)
    right
    rw [k.rest]
    exact ⟨h1, h2, hstate.trans h3⟩

theorem doMail_stores {s : State} {m : Mail} {sl : Slot} (h : (s.ctx m.bus).Stores sl) : ((doMail s m).ctx m.bus).Stores sl := by
  rcases h with h | ⟨h1, h2, h3⟩
  · rcases doMail_posts h with he | he <;> rw [he]
    · exact .inl h
    · left
      rw [State.ctx_modCtx_self]
      exact ⟨h.1, h.2.1, h.2.2.1, rfl⟩
  · have hpoke : poke s m.bus = s := by
      unfold poke
      rw [placeEnd_none (.inl (by rw [h1]; nofun))]
      dsimp only
      rw [h3, h1]
      simp
    rcases doMail_noSite h2 (by rw [h3]; nofun) with he | he <;> rw [he]
    · exact .inr ⟨h1, h2, h3⟩
    · rw [hpoke]; exact .inr ⟨h1, h2, h3⟩

/-- The site `u` of bus `x` has ended INVALID: its record is appended, or waits. -/
def SiteEnded (s v : State) (x : Bus) (u : Site) (cause : Cause) : Prop :=
  ∃ m : MeasRec, ((∃ l, v.queue.records = s.queue.records ++ l ∧ Rec.measure m ∈ l) ∨ ∃ sl, (v.ctx x).Stores sl ∧ sl.record = .measure m) ∧
    m.bus = x ∧ m.site = some u ∧ m.tag = (s.ctx x).stepTag ∧ m.body = .invalid cause

theorem SiteEnded.later {s v w : State} {x : Bus} {u : Site} {cause : Cause} (h : SiteEnded s v x u cause)
    (hr : ∃ l, w.queue.records = v.queue.records ++ l) (hs : ∀ sl, (v.ctx x).Stores sl → (w.ctx x).Stores sl) : SiteEnded s w x u cause := by
  obtain ⟨m, hm, hrest⟩ := h
  obtain ⟨l', hl'⟩ := hr
  refine ⟨m, ?_, hrest⟩
  rcases hm with ⟨l, hl, hin⟩ | ⟨sl, hsl, hrec⟩
  · exact .inl ⟨l ++ l', by rw [hl', hl, List.append_assoc], List.mem_append_left _ hin⟩
  · exact .inr ⟨sl, hs sl hsl, hrec⟩

theorem SiteEnded.endedBy {s v : State} {x : Bus} {u : Site} {cause : Cause} (h : SiteEnded s v x u cause) : EndedBy s (finish v) x u cause := by
  have hstores : ∀ sl, (v.ctx x).Stores sl → ((finish v).ctx x).Stores sl := fun sl hsl => by
    rw [finish_ctx]
    exact drain_context (fun c => c.Stores sl) (fun _ _ => doMail_stores) (fun _ _ => Ctx.Stores.spared) drainBound hsl
  obtain ⟨m, hm, hrest⟩ := h.later ((finish_leaves v).2.2.2.2.2.2.1) hstores
  refine ⟨m, ?_, hrest⟩
  rcases hm with ⟨l, hl, hin⟩ | ⟨sl, hsl, hrec⟩
  · exact .inl (by rw [hl, List.drop_left]; exact hin)
  · exact .inr ⟨sl, hsl.slot, hrec⟩

/-- A site is judged INVALID (R78, R80). -/
theorem siteEnded_of {s v w : State} {x : Bus} {u : Site} {cause : Cause} (hin : (v.ctx x).inFlight = some u)
    (hstep : ∃ tag sel n lim k d timeout hold, (v.ctx x).step = some ⟨tag, .measure sel n lim k d timeout hold⟩)
    (htag : (v.ctx x).stepTag = (s.ctx x).stepTag) (hrec : ∃ l, v.queue.records = s.queue.records ++ l)
    (hw : w.queue.records = v.queue.records ++ (if v.queue.records.length < 64 then [(invalidRec v x cause).stamped v.queue] else []))
    (hs : 64 ≤ v.queue.records.length → (w.ctx x).Stores ⟨invalidRec v x cause, false⟩) : SiteEnded s w x u cause := by
  obtain ⟨⟨m, hm, hmbus, hmsite, hmtag, hmbody⟩, m', hm', hmbus', hmsite', hmtag', hmbody'⟩ := invalidRec_names cause v.queue hin hstep
  obtain ⟨l, hl⟩ := hrec
  by_cases h64 : 64 ≤ v.queue.records.length
  · exact ⟨m, .inr ⟨_, hs h64, hm⟩, hmbus, hmsite, hmtag.trans htag, hmbody⟩
  · refine ⟨m', .inl ⟨l ++ [.measure m'], ?_, List.mem_append_right _ (List.mem_singleton.2 rfl)⟩, hmbus', hmsite', hmtag'.trans htag, hmbody'⟩
    rw [hw, if_pos (Nat.lt_of_not_le h64), hm', hl, List.append_assoc]

theorem departCtx_ends {s v : State} {x : Bus} {u : Site} (hw : (v.ctx x).state.working = true ∨ (v.ctx x).state = .suspended)
    (hin : (v.ctx x).inFlight = some u)
    (hstep : ∃ tag sel n lim k d timeout hold, (v.ctx x).step = some ⟨tag, .measure sel n lim k d timeout hold⟩)
    (htag : (v.ctx x).stepTag = (s.ctx x).stepTag) (hrec : ∃ l, v.queue.records = s.queue.records ++ l) :
    SiteEnded s (departCtx v u x) x u .departed := by
  rcases hw with hw | hs
  · rw [departCtx_works hw hin]
    exact siteEnded_of hin hstep htag hrec (endSite_records v x .departed) (fun h64 => .inl (endSite_posts hw .departed h64))
  · rw [departCtx_suspended hs hin]
    refine siteEnded_of hin hstep htag hrec (judgeInvalid_records v x .departed) (fun h64 => .inr ?_)
    rw [show ∀ (w : State) m, (w.post m).ctx x = w.ctx x from fun _ _ => rfl, State.ctx_modCtx_self, judgeInvalid_ctx,
      if_neg (Nat.not_lt.2 h64)]
    exact ⟨rfl, rfl, hs⟩

end Sys2Proof.Machine
end

