-- ==== Sys2Proof/Proofs/Departures.lean ====
section
/-!
PROOFS. PRESENCE (R163, R164, R168): the SUPPLY frame of a card whose powered boards depart, the sites and holds that end, and O41.
-/

namespace Sys2Proof.Machine

/-! ### What a lost hold leaves (R84) -/

/-- A bus that was aborted or lost its hold is not HOLDING. -/
theorem Ctx.Aborted.notHolding {c : Ctx} (h : c.Aborted) : c.state ≠ .holding := fun hs => by
  rcases h.state with ⟨hw, _⟩ | hr | hr | hr
  · rw [hs] at hw; cases hw
  all_goals rw [hs] at hr; cases hr

theorem State.raise_raise (s : State) : (s.raise .step).raise .step = s.raise .step := rfl

theorem departCtx_lost {s : State} {x : Bus} {u : Site} (hs : (s.ctx x).state = .holding) (hi : (s.ctx x).site = some u) :
    (departCtx s u x).trunk.attn.step = true ∧ ((s.ctx x).queue = [] → ((departCtx s u x).ctx x).Aborted) := by
  have hlost := departCtx_holding hs hi
  refine ⟨?_, fun hq => ?_⟩
  · have hraised : departCtx s u x = departCtx (s.raise .step) u x := by
      rw [hlost, departCtx_holding (s := s.raise .step) hs hi, loseHold, loseHold, State.raise_raise]
    rw [hraised]
    exact ((Keeps.refl (Q := fun _ => False) (s.raise .step)).departCtx u x).stepRaised rfl
  · rw [hlost]
    exact enterReleasing_aborted (s := s.raise .step) hq .idle

theorem departCtx_aborted {s : State} {x : Bus} (h : (s.ctx x).Aborted) (t : Site) : departCtx s t x = s :=
  departCtx_other (by rw [h.inFlight]; nofun) (fun hs => absurd hs h.notHolding)

/-! ### What each departure leaves at its bus -/

/-- No other departure reaches a bus that works at `u`. -/
theorem departCtx_spares {s v : State} {x y : Bus} {t u : Site} (h : t ≠ u ∨ y ≠ x) (hv : (s.ctx x).Spared (v.ctx x))
    (hi : (s.ctx x).inFlight = some u) (hs : (s.ctx x).state ≠ .holding) : (s.ctx x).Spared ((departCtx v t y).ctx x) := by
  by_cases hy : y = x
  · subst hy
    have hin : (v.ctx y).inFlight = some u := by rw [hv.rest]; exact hi
    have hstate : (v.ctx y).state ≠ .holding := fun hk => by
      rcases hv.state with he | ⟨_, he⟩
      · exact hs (he.symm.trans hk)
      · rw [he] at hk; cases hk
    rw [departCtx_other (by rw [hin, ne_eq, Option.some_inj]; exact Ne.symm (h.resolve_right (absurd rfl))) (fun hk => absurd hk hstate)]
    exact hv
  · exact hv.trans (departCtx_spared hy t)

/-- A working or suspended bus at `u`, as its departure finds it. -/
theorem departEach_ends {s b : State} {x : Bus} {u : Site} {st : CtxState} {gone : List Site} (hu : u ∈ gone) (hw : WorksAt s x st u)
    (hst : st.working = true ∨ st = .suspended) (hb : b.ctx x = s.ctx x) (hq : b.queue = s.queue) :
    SiteEnded s (departEach gone b) x u .departed := by
  obtain ⟨hstate, hin, -, hstep⟩ := hw
  have hnh : (s.ctx x).state ≠ .holding := fun h => by
    rw [← hstate, h] at hst
    rcases hst with h | h <;> cases h
  refine departEach_reaches (x := x) (P := fun v => (s.ctx x).Spared (v.ctx x) ∧ ∃ l, v.queue.records = s.queue.records ++ l)
    (R := fun v => SiteEnded s v x u .departed ∧ ((v.ctx x).inFlight = none ∧ (v.ctx x).state ≠ .holding))
    (fun v t y h hv => ⟨?_, ?_⟩) (fun v hv => ?_) (fun v t y hv => ?_) hu ⟨by rw [hb]; exact .refl _, [], by rw [hq, List.append_nil]⟩ |>.1
  · exact departCtx_spares h hv.1 hin hnh
  · obtain ⟨l, hl⟩ := hv.2
    obtain ⟨l', hl', -⟩ := ((Keeps.refl (Q := fun _ => False) v).departCtx t y).records
    exact ⟨l ++ l', by rw [hl', hl, List.append_assoc]⟩
  · obtain ⟨hsp, hrec⟩ := hv
    have hvin : (v.ctx x).inFlight = some u := by rw [hsp.rest]; exact hin
    have hvstep : (v.ctx x).step = (s.ctx x).step := by rw [hsp.rest]
    have hvstate : (v.ctx x).state.working = true ∨ (v.ctx x).state = .suspended := by
      rw [← hstate] at hst
      rcases hsp.state with hk | ⟨_, hk⟩
      · rw [hk]; exact hst
      · rw [hk]; exact .inl rfl
    refine ⟨departCtx_ends hvstate hvin (by rw [hvstep]; exact hstep) (by rw [Ctx.stepTag, Ctx.stepTag, hvstep]) hrec, ?_⟩
    rcases hvstate with hvw | hvs
    · obtain ⟨c, hc, he⟩ := endSite_ctx v x .departed
      have hcw : c.state.working = true := by rw [hc]; exact (beforeEnd_unjudged v x).working hvw
      rw [departCtx_works hvw hvin, he]
      refine ⟨by rw [hc]; rfl, ?_⟩
      dsimp only
      split
      · nofun
      · exact fun h => by rw [h] at hcw; cases hcw
    · rw [departCtx_suspended hvs hvin, show ∀ (w : State) m, (w.post m).ctx x = w.ctx x from fun _ _ => rfl, State.ctx_modCtx_self,
        judgeInvalid_ctx]
      exact ⟨rfl, fun h => by cases hvs.symm.trans h⟩
  · obtain ⟨hend, hi, hs⟩ := hv
    by_cases hy : y = x
    · subst hy
      rw [departCtx_other (by rw [hi]; nofun) (fun h => absurd h hs)]
      exact ⟨hend, hi, hs⟩
    · have hsp := departCtx_spared (s := v) hy t
      refine ⟨hend.later ?_ (fun sl hsl => hsl.spared hsp), by rw [hsp.rest]; exact hi, fun h => ?_⟩
      · obtain ⟨l', hl', -⟩ := ((Keeps.refl (Q := fun _ => False) v).departCtx t y).records
        exact ⟨l', hl'⟩
      · rcases hsp.state with hk | ⟨_, hk⟩
        · exact hs (hk.symm.trans h)
        · rw [hk] at h; cases h

/-- A bus HOLDING at `u` loses its hold. -/
theorem departEach_holds {s b : State} {x : Bus} {u : Site} {gone : List Site} (hu : u ∈ gone) (hs : (s.ctx x).state = .holding)
    (hsite : (s.ctx x).site = some u) (hb : b.ctx x = s.ctx x) :
    (departEach gone b).trunk.attn.step = true ∧ ((s.ctx x).queue = [] → ((departEach gone b).ctx x).Aborted) := by
  have hhold : ∀ v : State, (s.ctx x).Spared (v.ctx x) → (v.ctx x).state = .holding ∧ (v.ctx x).site = some u ∧
      (v.ctx x).queue = (s.ctx x).queue := fun v hv => by
    rw [hv.rest]
    exact ⟨hv.state.elim (fun h => h.trans hs) (fun h => by rw [hs] at h; cases h.1), hsite, rfl⟩
  refine departEach_reaches (x := x) (P := fun v => (s.ctx x).Spared (v.ctx x))
    (R := fun v => v.trunk.attn.step = true ∧ ((s.ctx x).queue = [] → (v.ctx x).Aborted))
    (fun v t y h hv => ?_) (fun v hv => ?_) (fun v t y hv => ?_) hu (by rw [hb]; exact .refl _)
  · by_cases hy : y = x
    · subst hy
      obtain ⟨h1, h2, -⟩ := hhold v hv
      have ht : t ≠ u := h.resolve_right (absurd rfl)
      have hsame : departCtx v t y = v := by
        unfold departCtx
        dsimp only
        rw [h1]
        exact if_neg (by rw [h2, Option.some_inj]; exact Ne.symm ht)
      rw [hsame]; exact hv
    · exact hv.trans (departCtx_spared hy t)
  · obtain ⟨h1, h2, h3⟩ := hhold v hv
    obtain ⟨h4, h5⟩ := departCtx_lost h1 h2
    exact ⟨h4, fun hq => h5 (h3.trans hq)⟩
  · refine ⟨((Keeps.refl (Q := fun _ => False) v).departCtx t y).stepRaised hv.1, fun hq => ?_⟩
    by_cases hy : y = x
    · subst hy; rw [departCtx_aborted (hv.2 hq)]; exact hv.2 hq
    · exact (hv.2 hq).spared (departCtx_spared hy t)

/-! ### The command -/

theorem exec_presence {s : State} {l : LaneId} {c : CardId} (mask : Byte) (hl : s.laneHasCard l = true) (hc : s.cardOnLane l = some c) :
    exec (.presence l mask) s = .next (finish (presenceTaken (goodFrame s.begin l) l c mask)) := by
  show execPresence l mask s = _
  unfold execPresence
  dsimp only
  rw [goodFrame_laneHasCard, if_pos hl, show (goodFrame s.begin l).cardOnLane l = s.cardOnLane l by rw [goodFrame_eq]; rfl, hc]

theorem exec_presence_discarded {s : State} {l : LaneId} (mask : Byte) (h : s.laneHasCard l = false ∨ s.cardOnLane l = none) :
    exec (.presence l mask) s = .next (goodFrame s.begin l) := by
  show execPresence l mask s = _
  unfold execPresence
  dsimp only
  rw [goodFrame_laneHasCard, show (goodFrame s.begin l).cardOnLane l = s.cardOnLane l by rw [goodFrame_eq]; rfl]
  by_cases hl : s.laneHasCard l = true
  · rw [if_pos hl, h.resolve_left (by rw [hl]; nofun)]
  · rw [if_neg hl]

/-- The state in which the contexts are told of the departures: the card has its whole setting (R166). -/
def beforeDepartures (b : State) (l : LaneId) (c : CardId) (mask : Byte) : State :=
  (blockReports b c mask).1.emit l (.supply (supplyMask (blockReports b c mask).1 c))

theorem presenceTaken_departs {b : State} {l : LaneId} {c : CardId} {mask : Byte} {u : Site} (hl : b.laneHasCard l = true)
    (hu : Leaves b c mask u) :
    presenceTaken b l c mask = departEach (blockReports b c mask).2 (beforeDepartures b l c mask) := by
  have hlane : (blockReports b c mask).1.laneHasCard l = true := by
    rw [(blockReports_reported b c mask).only.shape]; exact hl
  rw [presenceTaken_some (fun h => by have := mem_gone.2 hu; rw [h] at this; cases this), beforeDepartures, sendSupply, if_pos hlane]

theorem Keeps.siteRaised {Q : Rec → Prop} {s t : State} (h : Keeps Q s t) (hs : s.trunk.attn.site = true) : t.trunk.attn.site = true := by
  have hraised : s.trunk.attn.raised .site = s.trunk.attn := by
    show AttnSet.raised _ _ = _
    unfold AttnSet.raised
    rw [← hs]
  rw [← h.attn .site hraised]
  rfl

/-- Whatever departs, the departures keep what the consequences of a command keep. -/
theorem presenceTaken_keeps (b : State) (l : LaneId) (c : CardId) (mask : Byte) :
    LeavesStores (blockReports b c mask).1 (presenceTaken b l c mask) ∧ (presenceTaken b l c mask).guard = (blockReports b c mask).1.guard ∧
      ((blockReports b c mask).1.trunk.attn.site = true → (presenceTaken b l c mask).trunk.attn.site = true) := by
  by_cases h : (blockReports b c mask).2 = []
  · rw [presenceTaken_none h]
    exact ⟨.refl _, rfl, id⟩
  · rw [presenceTaken_some h]
    have hsent : ∃ fs, sendSupply (blockReports b c mask).1 l (supplyMask (blockReports b c mask).1 c) =
        { (blockReports b c mask).1 with out := fs } := by
      unfold sendSupply
      split
      · exact ⟨_, rfl⟩
      · exact ⟨(blockReports b c mask).1.out, rfl⟩
    obtain ⟨fs, hfs⟩ := hsent
    rw [hfs]
    have hkeep := departEach_keeps (blockReports b c mask).2 { (blockReports b c mask).1 with out := fs }
    exact ⟨hkeep.leaves, hkeep.guard, hkeep.siteRaised⟩

theorem finish_siteRaised {s : State} (h : s.trunk.attn.site = true) : (finish s).trunk.attn.site = true := by
  rw [finish, pump_attn, (panelCheck_only _).attn]
  exact (drain_keeps s).siteRaised h

end Sys2Proof.Machine

namespace Sys2Proof

open Machine

/-- Settles O41: the blocks are reported, the card gets its setting, and each departure reaches its bus. -/
theorem presenceReportsAreApplied : Obligations.PresenceReportsAreApplied := by
  intro s l mask
  refine ⟨fun c hl hc => ⟨_, exec_presence mask hl hc, ?_⟩, fun h => onlyCountsGood_of (exec_presence_discarded mask h)⟩
  obtain ⟨b, hb⟩ : ∃ b, b = goodFrame s.begin l := ⟨_, rfl⟩
  rw [← hb]
  have hshape := hb.trans (goodFrame_eq s l)
  have hguard : b.guard = s.guard := by rw [hshape]; rfl
  have hsite : ∀ d, b.siteOnBlock d = s.siteOnBlock d := fun d => by rw [hshape]; rfl
  have hpres : ∀ d, b.blockPresence d = s.blockPresence d := fun d => by rw [hshape]; rfl
  have hsupply : ∀ u, b.supplyOn u = s.supplyOn u := fun u => by rw [hshape]; rfl
  have hleaves : ∀ u, Leaves b c mask u ↔ Leaves s c mask u := fun u => by simp only [Leaves, hsite, hpres, hsupply]
  have hlane : b.laneHasCard l = true := by rw [hb, goodFrame_laneHasCard]; exact hl
  have hstores : LeavesStores { s with lanes := b.lanes } b := by rw [hshape]; exact .refl _
  have hr := blockReports_reported b c mask
  obtain ⟨hk1, hk2, hk3⟩ := presenceTaken_keeps b l c mask
  have htguard : (finish (presenceTaken b l c mask)).guard = (blockReports b c mask).1.guard := (finish_guard _).trans hk2
  have hpresence : ∀ d, (finish (presenceTaken b l c mask)).blockPresence d = (blockReports b c mask).1.blockPresence d := fun d => by
    rw [State.blockPresence, State.blockPresence, htguard]
  have htables : (finish (presenceTaken b l c mask)).tables = b.tables := by
    rw [(finish_leaves _).1, hk1.1, hr.only.shape]
  have hgone : ∀ u, Leaves s c mask u → ∀ (R : State → Prop), R (departEach (blockReports b c mask).2 (beforeDepartures b l c mask)) →
      R (presenceTaken b l c mask) := fun u hu R hR => by
    rw [presenceTaken_departs hlane ((hleaves u).2 hu)]; exact hR
  have hbefore : ∀ x, (beforeDepartures b l c mask).ctx x = s.ctx x := fun x => by
    show (blockReports b c mask).1.ctx x = _
    rw [hr.only.shape, hshape]; rfl
  have hqueue : (beforeDepartures b l c mask).queue = s.queue := by
    show (blockReports b c mask).1.queue = _
    rw [hr.only.shape, hshape]; rfl
  refine ⟨fun k => ?_, fun d hd => ?_, fun u => ?_, fun u => ?_, fun u => ?_, fun hd => ?_, ?_, ?_, ?_, fun x p => ?_, fun ⟨u, hu⟩ => ?_,
    fun hq u x hu => ⟨fun st hst hw => ?_, fun hs hx => ?_⟩, fun hq hp hnone => ?_⟩
  · rw [hpresence]; exact hr.blocks k (List.mem_finRange k)
  · rw [hpresence, (hr.presence d).resolve_right (fun ⟨k, _, hk⟩ => hd ?_), hpres]
    rw [← hk, cardOfBlock, blockOnCard]
    exact Fin.ext (by dsimp only; omega)
  · rw [htguard, hr.arrival, hguard]
    simp only [List.mem_finRange, true_and, ArrivesBy, hsite, hpres]
  · rw [htguard, hr.departure, hguard]
    simp only [List.mem_finRange, true_and, DepartsBy, hsite, hpres]
  · rw [State.supplyOn, htguard]
    show (blockReports b c mask).1.supplyOn u = true ↔ _
    rw [hr.supply]
    simp only [List.mem_finRange, true_and, DepartsBy, hsite, hpres, hsupply]
  · rw [htguard, ← hguard] at hd
    exact finish_siteRaised (hk3 (hr.only.deltas hd))
  · rw [htguard, hr.only.shape, hguard]
  · rw [htguard, hr.only.shape, hguard]
  · rw [htables, hshape]; rfl
  · rw [(finish_leaves _).2.2.2.2.1, hk1.2.2.2.2.1, hr.only.shape, hshape]; rfl
  · have hmask : supplyMask (finish (presenceTaken b l c mask)) c = supplyMask (blockReports b c mask).1 c :=
      supplyMask_congr c (by rw [htables, hr.only.shape]) htguard
    obtain ⟨fs, hfs⟩ := hgone u hu (fun v => ∃ fs, v.out = (l, .supply (supplyMask (blockReports b c mask).1 c)) :: fs) (by
      obtain ⟨fs, hfs⟩ := departEach_sent (blockReports b c mask).2 (beforeDepartures b l c mask)
      refine ⟨fs, hfs.trans ?_⟩
      show ((blockReports b c mask).1.out ++ _) ++ fs = _
      rw [show (blockReports b c mask).1.out = [] by rw [hr.only.shape, hshape]; rfl]
      rfl)
    obtain ⟨fs', hfs'⟩ := finish_sent (presenceTaken b l c mask)
    exact ⟨fs ++ fs', by rw [hfs', hfs, hmask]; rfl⟩
  · refine (hgone u hu (fun v => SiteEnded s v x u .departed) (departEach_ends (mem_gone.2 ((hleaves u).2 hu)) hw ?_ (hbefore x) hqueue)).endedBy
    simp only [List.mem_cons, List.not_mem_nil, or_false] at hst
    rcases hst with rfl | rfl | rfl | rfl | rfl | rfl | rfl | rfl
    case inr.inr.inr.inr.inr.inr.inr => exact .inr rfl
    all_goals exact .inl rfl
  · obtain ⟨hstep, hnot⟩ := hgone u hu (fun v => v.trunk.attn.step = true ∧ ((s.ctx x).queue = [] → (v.ctx x).Aborted))
      (departEach_holds (mem_gone.2 ((hleaves u).2 hu)) hs hx (hbefore x))
    refine ⟨finish_stepRaised hstep, fun hempty => ?_⟩
    rw [finish_ctx]
    exact (drain_aborted drainBound (hnot hempty)).notHolding
  · have hempty : (blockReports b c mask).2 = [] :=
      List.eq_nil_iff_forall_not_mem.2 (fun u hu => hnone u ((hleaves u).1 (mem_gone.1 hu)))
    rw [presenceTaken_none hempty]
    have hshape' := hr.only.shape
    obtain ⟨r, hr'⟩ : ∃ r, r = (blockReports b c mask).1 := ⟨_, rfl⟩
    rw [← hr'] at hshape' ⊢
    rw [hshape] at hshape'
    have hrq : Quiesced r := by rw [hshape']; exact hq
    have hends := (Delivers.refl r).ends hrq (Nat.zero_le _)
    obtain ⟨hq', hp'⟩ := hends.idle (.inr (by rw [hshape']; exact hp))
    refine ⟨⟨?_, ?_, ?_, ?_, rfl, ?_, rfl, ?_⟩, ?_⟩
    · rw [hends.tables, hshape']; rfl
    · rw [hends.matrix, hshape']; rfl
    · rw [hends.ctxs, hshape']; rfl
    · rw [hq', hshape']; rfl
    · rw [hp', hshape']; rfl
    · rw [hends.markHigh, hshape']; rfl
    · rw [hends.out, hshape']; rfl

end Sys2Proof
end

