-- ==== Sys2Proof/Proofs/OrderEnds.lean ====
section
/-!
PROOFS. The end of an order that starts nothing more (R23, R24, R25, R30): the bus it belonged to may release on, and the matrix stays
as the order left it.
-/

namespace Sys2Proof.Machine

/-! ### A bus that is told its release is answered -/

/-- Nothing moves in the matrix, and bus `x` alone is told to look. -/
structure OnlyLooks (s t : State) (x : Bus) : Prop where
  matrix : t.matrix = s.matrix
  work : t.matrixWork = s.matrixWork
  mail : ∃ l, t.mail = s.mail ++ l ∧ ∀ m ∈ l, m = .poke x

theorem OnlyLooks.refl (s : State) (x : Bus) : OnlyLooks s s x := ⟨rfl, rfl, [], (List.append_nil _).symm, nofun⟩

theorem OnlyLooks.trans {s u t : State} {x : Bus} (h : OnlyLooks s u x) (k : OnlyLooks u t x) : OnlyLooks s t x := by
  obtain ⟨l, hl, hp⟩ := h.mail
  obtain ⟨l', hl', hp'⟩ := k.mail
  exact ⟨k.matrix.trans h.matrix, k.work.trans h.work, l ++ l', by rw [hl', hl, List.append_assoc],
    fun m hm => (List.mem_append.1 hm).elim (hp m) (hp' m)⟩

theorem OnlyLooks.modCtx (s : State) (x : Bus) (f : Ctx → Ctx) : OnlyLooks s (s.modCtx x f) x := ⟨rfl, rfl, [], (List.append_nil _).symm, nofun⟩

theorem OnlyLooks.raise (s : State) (x : Bus) (c : AttnClass) : OnlyLooks s (s.raise c) x := ⟨rfl, rfl, [], (List.append_nil _).symm, nofun⟩

theorem OnlyLooks.look (s : State) (x : Bus) : OnlyLooks s (s.post (.poke x)) x :=
  ⟨rfl, rfl, [.poke x], rfl, fun _ hm => List.mem_singleton.1 hm⟩

theorem OnlyLooks.offered (s : State) (x : Bus) (c : Option Slot → Ctx) (sl : Slot) : OnlyLooks s (offered s x c sl) x := by
  by_cases h : sl.taken s = true
  · have ho := offered_only x c h
    exact ⟨ho.matrix, ho.work, [.poke x], ho.mail, fun _ hm => List.mem_singleton.1 hm⟩
  · simp only [Slot.taken, Bool.or_eq_true, not_or, Bool.not_eq_true, decide_eq_false_iff_not, Nat.not_lt] at h
    rw [offered_full h.1 h.2]
    exact ⟨rfl, rfl, [], (List.append_nil _).symm, nofun⟩

theorem OnlyLooks.placeEnd (s : State) (x : Bus) : OnlyLooks s (placeEnd s x) x := by
  by_cases h : (s.ctx x).slot ≠ none ∨ (s.ctx x).endPending = none
  · rw [placeEnd_none h]; exact .refl s x
  · obtain ⟨hs, he⟩ := not_or.1 h
    obtain ⟨e, he⟩ := Option.ne_none_iff_exists'.1 he
    rw [placeEnd_some (not_not.1 hs) he]
    exact .offered s x _ _

theorem OnlyLooks.judgeInvalid (s : State) (x : Bus) (cause : Cause) : OnlyLooks s (judgeInvalid s x cause) x := by
  have hshown : ∀ v d site, OnlyLooks s (judgementShown s v d site) x := fun v d site => by
    rw [judgementShown_shape]; exact ⟨rfl, rfl, [], (List.append_nil _).symm, nofun⟩
  rw [judgeInvalid_eq]
  exact (hshown _ _ _).trans (.offered _ _ _ _)

theorem OnlyLooks.releaseFails (s : State) (x : Bus) (cause : Cause) : OnlyLooks s (releaseFails s x cause) x := by
  unfold Machine.releaseFails
  dsimp only
  split
  · exact ((OnlyLooks.judgeInvalid s x cause).trans (.modCtx _ x _)).trans (.modCtx _ x _)
  · exact .modCtx s x _

theorem OnlyLooks.releaseAnswered (s : State) (x : Bus) (f : Option Cause) : OnlyLooks s (releaseAnswered s x f) x := by
  have hdone : ∀ u, OnlyLooks s u x → OnlyLooks s ((u.modCtx x (fun c => { c with relDone := true })).post (.poke x)) x :=
    fun u hu => (hu.trans (.modCtx u x _)).trans (.look _ x)
  cases f with
  | none => exact hdone s (.refl s x)
  | some cause =>
    unfold Machine.releaseAnswered
    dsimp only
    split
    · exact hdone _ (.releaseFails s x cause)
    · exact hdone _ ((OnlyLooks.raise s x .step).trans (.releaseFails _ x cause))
    · exact hdone _ (.releaseFails s x cause)

theorem OnlyLooks.arrive (s : State) (x : Bus) : OnlyLooks s (arrive s x) x := by
  unfold Machine.arrive
  split
  · rw [toIdle_eq]; exact (OnlyLooks.modCtx s x _).trans (.look _ x)
  · rw [enterHalted_eq]; exact (OnlyLooks.modCtx s x (fun c => { c with state := .halted, relDone := false })).trans (.raise _ x .step)

/-- A context at the end of its release, with no step queued. -/
def Ctx.ReleasesOut (c : Ctx) : Prop := c.queue = [] ∧ (c.state = .releasing ∨ c.state = .idle ∨ c.state = .halted)

theorem poke_out {s : State} {x : Bus} (h : (s.ctx x).ReleasesOut) : OnlyLooks s (poke s x) x ∧
    (((poke s x).ctx x).state = .releasing ∨ ((poke s x).ctx x).state = .idle ∨ ((poke s x).ctx x).state = .halted) := by
  have hp := OnlyLooks.placeEnd s x
  have hctx : ((placeEnd s x).ctx x).ReleasesOut := by rw [(placeEnd_rests s x).rest]; exact h
  unfold poke
  dsimp only
  generalize placeEnd s x = u at hp hctx
  rcases hctx.2 with hs | hs | hs <;> rw [hs]
  · dsimp only
    split
    · refine ⟨hp.trans (.arrive u x), ?_⟩
      unfold arrive
      split
      · rw [toIdle_ctx]; exact .inr (.inl rfl)
      · rw [enterHalted_ctx]; exact .inr (.inr rfl)
    · exact ⟨hp, .inl hs⟩
  · rw [hctx.1]; exact ⟨hp, .inr (.inl hs)⟩
  · exact ⟨hp, .inr (.inr hs)⟩

/-- The mail of a bus at the end of its release. -/
def Mail.endsRelease (m : Mail) (x : Bus) : Prop := m = .poke x ∨ ∃ f, m = .opened x f

theorem doMail_out {s : State} {x : Bus} {m : Mail} (hm : m.endsRelease x) (h : (s.ctx x).ReleasesOut) :
    OnlyLooks s (doMail s m) x ∧ ((doMail s m).ctx x).ReleasesOut := by
  have hqueue : ∀ n : Mail, ((doMail s n).ctx x).queue = [] := fun n => by
    have hq := ((Keeps.refl (Q := fun _ => False) s).doMail n).queues x
    rw [h.1] at hq
    exact List.suffix_nil.1 hq
  rcases hm with rfl | ⟨f, rfl⟩
  · exact ⟨(poke_out h).1, hqueue (.poke x), (poke_out h).2⟩
  · rcases h.2 with hs | hs | hs
    · have hdo : doMail s (.opened x f) = releaseAnswered s x f := by simp [doMail, hs]
      refine ⟨hdo ▸ .releaseAnswered s x f, hqueue _, .inl ?_⟩
      rw [hdo, releaseAnswered_state, hs]
    · have hdo : doMail s (.opened x f) = s := by simp [doMail, hs]
      rw [hdo]; exact ⟨.refl s x, h⟩
    · have hdo : doMail s (.opened x f) = s := by simp [doMail, hs]
      rw [hdo]; exact ⟨.refl s x, h⟩

/-! ### Nothing more to do in the matrix -/

/-- The work that waits does nothing, and bus `x` alone has mail, at the end of its release. -/
structure Resting (s : State) (x : Bus) : Prop where
  work : ∀ w ∈ s.matrixWork, ∀ l, doMatrix { s with matrixWork := l } w = { s with matrixWork := l }
  mail : ∀ m ∈ s.mail, m.endsRelease x
  out : s.mail ≠ [] → (s.ctx x).ReleasesOut

theorem drain_resting (n : Nat) {s : State} {x : Bus} (h : Resting s x) : (drain n s).matrix = s.matrix := by
  induction n generalizing s with
  | zero => rfl
  | succ n ih =>
    cases hw : s.matrixWork with
    | cons w rest =>
      rw [drain_work hw, h.work w (by rw [hw]; exact List.mem_cons_self)]
      exact ih (s := { s with matrixWork := rest }) ⟨fun v hv => h.work v (by rw [hw]; exact List.mem_cons_of_mem _ hv), h.mail, h.out⟩
    | nil =>
      cases hm : s.mail with
      | nil => rw [drain, hw, hm]
      | cons m rest =>
        rw [drain_mail hw hm]
        have hout : (State.ctx { s with mail := rest } x).ReleasesOut := h.out (by rw [hm]; nofun)
        obtain ⟨hlook, hctx⟩ := doMail_out (s := { s with mail := rest }) (h.mail m (by rw [hm]; exact List.mem_cons_self)) hout
        obtain ⟨l, hl, hl'⟩ := hlook.mail
        refine (ih ⟨fun v hv => ?_, fun v hv => ?_, fun _ => hctx⟩).trans hlook.matrix
        · rw [hlook.work] at hv
          exact absurd (show v ∈ s.matrixWork from hv) (by rw [hw]; exact List.not_mem_nil)
        · rw [hl] at hv
          rcases List.mem_append.1 hv with hv | hv
          · exact h.mail v (by rw [hm]; exact List.mem_cons_of_mem _ hv)
          · exact .inl (hl' v hv)

theorem finish_resting {s : State} {x : Bus} (h : Resting s x) : (finish s).matrix = s.matrix := by
  rw [finish, pump_matrix, ← drain_resting drainBound h]
  exact (panelCheck_only _).matrix

/-! ### What the break request of the bus makes of it (R30) -/

theorem handleAwaited_unasked {s : State} {x : Bus} (h : (s.ctx x).request = none) (ps : List Pt) : handleAwaited s x ps = s := by
  unfold handleAwaited
  rw [h]

/-- A request that waits for no crosspoint gains nothing by one. -/
theorem handleAwaited_clear {s : State} {x : Bus} (h : ∀ r, (s.ctx x).request = some (.opens r) → r.awaiting = []) (ps : List Pt) :
    handleAwaited s x ps = s ∨ handleAwaited s x ps = answerOpens s x := by
  unfold handleAwaited
  split
  · next r hr =>
    right
    have hsame : s.modOpens x (fun r => { r with awaiting := [] }) = s := by
      unfold State.modOpens
      refine State.modCtx_same ?_
      rw [hr]
      dsimp only
      rw [show { r with awaiting := [] } = r by rw [← h r hr], ← hr]
    rw [h r hr]
    dsimp only
    rw [List.filter_nil, hsame]
    rfl
  · exact .inl rfl

theorem answerOpens_cases (s : State) (x : Bus) : answerOpens s x = s ∨
    ∃ f, answerOpens s x = (s.setCtx x { s.ctx x with request := none }).post (.opened x f) := by
  unfold answerOpens
  split
  · split
    · exact .inr ⟨_, rfl⟩
    · exact .inl rfl
  · exact .inl rfl

/-- The end of an order of bus `x` starts nothing more there. -/
structure LetsOut (s t : State) (x : Bus) : Prop where
  matrix : t.matrix = s.matrix
  work : t.matrixWork = s.matrixWork
  mail : t.mail = s.mail ∨ ∃ f, t.mail = s.mail ++ [.opened x f]
  out : t.mail ≠ s.mail → (t.ctx x).ReleasesOut
  waits : ∀ y, (t.ctx y).waitsFor = [] ∨ (t.ctx y).waitsFor = (s.ctx y).waitsFor

theorem handleAwaited_letsOut {s : State} {x : Bus} (h : StartsNothing s x) (ps : List Pt) : LetsOut s (handleAwaited s x ps) x := by
  have hrefl : LetsOut s s x := ⟨rfl, rfl, .inl rfl, fun hn => absurd rfl hn, fun _ => .inr rfl⟩
  rcases h with h | ⟨hs, hq, hr⟩
  · rw [handleAwaited_unasked h]; exact hrefl
  · rcases handleAwaited_clear hr ps with he | he <;> rw [he]
    · exact hrefl
    · rcases answerOpens_cases s x with ha | ⟨f, ha⟩ <;> rw [ha]
      · exact hrefl
      · refine ⟨rfl, rfl, .inr ⟨f, rfl⟩, fun _ => ?_, fun y => ?_⟩
        · rw [show ∀ (u : State) m, (u.post m).ctx x = u.ctx x from fun _ _ => rfl, State.ctx_setCtx_self]
          exact ⟨hq, .inl hs⟩
        · rw [show ∀ (u : State) m, (u.post m).ctx y = u.ctx y from fun _ _ => rfl, State.ctx_setCtx]
          split
          · exact .inl rfl
          · exact .inr rfl

/-- Work that does nothing: a card that has nothing to send, or a point that no bus waits for. -/
def IdleWork (s : State) : MatrixWork → Prop
  | .send c => (s.card c).pending ≠ none ∨ (s.card c).idle = true
  | .point p => ∀ y, p ∉ (s.ctx y).waitsFor

theorem doMatrix_idle {s : State} {w : MatrixWork} (h : IdleWork s w) : doMatrix s w = s := by
  cases w with
  | send c => exact sendNext_idle h
  | point p =>
    have hnone : s.waiters p = [] := by
      unfold State.waiters
      exact List.filter_eq_nil_iff.2 (fun y _ => by simpa using h y)
    show arbitrate s p = s
    unfold arbitrate
    rw [hnone]
    split <;> rfl

/-- With nothing to do for the points it frees and for its card, the end of an order leaves the matrix as it is. -/
theorem resting_of_letsOut {s t : State} {x : Bus} (h : LetsOut s t x) (hq : Quiesced s) {ws : List MatrixWork} (hws : ∀ w ∈ ws, IdleWork s w) :
    Resting (t.pushWork ws) x ∧ (t.pushWork ws).matrix = s.matrix := by
  have hidle : ∀ w l, IdleWork s w → IdleWork { t.pushWork ws with matrixWork := l } w := fun w l hw => by
    cases w with
    | send c =>
      have hcard : State.card { t.pushWork ws with matrixWork := l } c = s.card c := by
        show t.card c = s.card c
        rw [State.card, State.card, h.matrix]
      show (State.card _ c).pending ≠ none ∨ _
      rw [hcard]
      exact hw
    | point p =>
      intro y
      show p ∉ (t.ctx y).waitsFor
      rcases h.waits y with hy | hy <;> rw [hy]
      · exact List.not_mem_nil
      · exact hw y
  refine ⟨⟨fun w hw l => doMatrix_idle (hidle w l (hws w ?_)), fun m hm => ?_, fun hm => h.out ?_⟩, h.matrix⟩
  · rw [State.pushWork_matrixWork, h.work, hq.1] at hw
    exact (mem_foldl_insertWork hw).resolve_right List.not_mem_nil
  · have hm' : m ∈ t.mail := hm
    rcases h.mail with he | ⟨f, he⟩
    · rw [he, hq.2] at hm'; cases hm'
    · rw [he, hq.2] at hm'
      exact .inr ⟨f, List.mem_singleton.1 hm'⟩
  · rw [hq.2]; exact hm

end Sys2Proof.Machine
end

