-- ==== Sys2Proof/Proofs/OrdersDone.lean ====
section
/-!
PROOFS. DONE of the pending order (R23, R36): its crosspoints, the emergency open of those that became CLOSED with the mark set, and
the site that settles.
-/

namespace Sys2Proof.Machine

/-! ### What the end of an order does to its crosspoints -/

/-- What DONE makes of a crosspoint of the order. -/
def Order.doneTo (o : Order) : XRec → XRec := if o.kind = .make then XRec.closeDone else XRec.openDone

theorem xp_modXps_once (s : State) (x y : Bus) {ps : List Pt} (hn : ps.Nodup) (f : XRec → XRec) (p : Pt) :
    (s.modXps x ps f).xp y p = if x = y ∧ p ∈ ps then f (s.xp y p) else s.xp y p := by
  rw [State.xp_modXps]
  by_cases hx : x = y
  · rw [if_pos hx]
    by_cases hp : p ∈ ps
    · rw [if_pos ⟨hx, hp⟩, List.count_eq_one_of_mem hn hp]; rfl
    · rw [if_neg (fun h => hp h.2), List.count_eq_zero_of_not_mem hp]; rfl
  · rw [if_neg hx, if_neg (fun h => hx h.1)]

theorem orderDone_xp (s : State) (c : CardId) {o : Order} (hn : o.points.Nodup) (y : Bus) (p : Pt) :
    (orderDone s c o).xp y p = if o.bus = y ∧ p ∈ o.points then o.doneTo (s.xp y p) else s.xp y p := by
  have hmatrix : (orderDone s c o).xp y p = ((endPending s c).modXps o.bus o.points o.doneTo).xp y p := by
    rw [State.xp, orderDone, tellRequest_matrix]; rfl
  rw [hmatrix, xp_modXps_once _ _ _ hn]
  rfl

theorem orderDone_card (s : State) (c : CardId) (o : Order) : (orderDone s c o).card c = { s.card c with pending := none } := by
  rw [State.card, orderDone, tellRequest_matrix]
  show State.card (State.modXps _ _ _ _) c = _
  rw [State.modXps_card, endPending, State.card_setCard_self]

theorem Keeps.afterDone {Q : Rec → Prop} (s : State) (c : CardId) (o : Order) (ps : List Pt) : Keeps Q s (afterDone s c o ps) := by
  unfold Machine.afterDone
  dsimp only
  split
  · exact (((Keeps.refl s).placeMarked c o.bus ps).handleAwaited o.bus o.points).pushWork _
  · exact ((Keeps.refl s).handleAwaited o.bus o.points).pushWork _

/-- An answer of a card on an ACTIVE lane to its pending order. -/
theorem answeredOrder_pending {s : State} {l : LaneId} {c : CardId} {tag : Byte} {o : Order} (hl : (s.lane l).state = .active)
    (hc : s.cardOnLane l = some c) (hp : (s.card c).pending = some ⟨tag, o⟩) : answeredOrder s l tag = some (c, o) := by
  unfold answeredOrder
  rw [if_pos hl, hc]
  dsimp only
  rw [hp]
  exact if_pos rfl

theorem exec_done {s : State} {l : LaneId} {c : CardId} {tag : Byte} {o : Order} (hl : (s.lane l).state = .active)
    (hc : s.cardOnLane l = some c) (hp : (s.card c).pending = some ⟨tag, o⟩) :
    exec (.done l tag) s = .next (finish (afterDone (orderDone (goodFrame s.begin l) c o) c o (orderMarked s o))) := by
  have hmarked : orderMarked (goodFrame s.begin l) o = orderMarked s o := by rw [goodFrame_eq]; rfl
  show execDone l tag s = _
  unfold execDone
  dsimp only
  rw [answeredOrder_goodFrame, answeredOrder_pending hl hc hp]
  dsimp only
  rw [hmarked]

/-! ### An end that starts nothing more -/

/-- An order that answers no make request changes no context when it is done. -/
theorem orderDone_silent {s : State} {c : CardId} {o : Order} (h : o.kind = .make → o.answers = false) :
    orderDone s c o = (endPending s c).modXps o.bus o.points o.doneTo := by
  show tellRequest ((endPending s c).modXps o.bus o.points o.doneTo) o none = _
  generalize (endPending s c).modXps o.bus o.points o.doneTo = u
  unfold tellRequest
  by_cases ha : o.answers = true
  · rw [ha]
    cases hk : o.kind with
    | make => rw [h hk] at ha; cases ha
    | brk | emergency | recovery => rfl
  · rw [Bool.not_eq_true] at ha
    rw [ha]; rfl

/-- What an order's end leaves to do ends with the matrix as it is. -/
theorem awaited_calm {s : State} {x : Bus} (hq : Quiesced s) (h : StartsNothing s x) (ps : List Pt) {ws : List MatrixWork}
    (hws : ∀ w ∈ ws, IdleWork s w) : (finish ((handleAwaited s x ps).pushWork ws)).matrix = s.matrix := by
  obtain ⟨hrest, hmatrix⟩ := resting_of_letsOut (handleAwaited_letsOut h ps) hq hws
  exact (finish_resting hrest).trans hmatrix

theorem StartsNothing.congr {s t : State} {x : Bus} (h : StartsNothing s x) (hc : t.ctxs = s.ctxs) : StartsNothing t x := by
  have hctx : t.ctx x = s.ctx x := by rw [State.ctx, State.ctx, hc]
  rw [StartsNothing, hctx]
  exact h

/-- The emergency open of the crosspoints that became CLOSED with the mark set. -/
def Order.markedOpen (o : Order) (ps : List Pt) : Order := ⟨.emergency, o.bus, ps, false⟩

theorem leftToOpen_closed {s : State} {o : Order} (h : ∀ p ∈ o.points, (s.xp o.bus p).state = .closed) : o.leftToOpen s = o.points :=
  List.filter_eq_self.2 (fun p hp => by rw [h p hp]; rfl)

theorem placeMarked_idle {s : State} {c : CardId} {o : Order} {ps : List Pt} (hi : (s.card c).idle = true) (hne : ps ≠ [])
    (hclosed : ∀ p ∈ ps, (s.xp o.bus p).state = .closed) :
    placeMarked s c o.bus ps = sendOrder (s.setCard c { s.card c with priority := [] }) c (o.markedOpen ps) := by
  have hleft : (o.markedOpen ps).leftToOpen s = ps := leftToOpen_closed hclosed
  have hempty : ps.isEmpty = false := by cases ps with
    | nil => exact absurd rfl hne
    | cons p ps => rfl
  have hplace := placePriority_idle (o := o.markedOpen ps) hi (by rw [hleft]; exact hne)
  rw [hleft] at hplace
  unfold placeMarked
  rw [hempty]
  exact hplace

/-- A crosspoint record that DONE of a close has left, opened again where it was marked (R23). -/
theorem closeDone_state (r : XRec) : r.closeDone.state = .closed ∧ r.closeDone.mark = false := ⟨rfl, rfl⟩

theorem sentTo_closeDone {o : Order} (h : o.kind ≠ .make) (r : XRec) :
    (o.sentTo r.closeDone).state = .opening ∧ (o.sentTo r.closeDone).mark = false := by
  unfold Order.sentTo
  cases hk : o.kind with
  | make => exact absurd hk h
  | brk | emergency | recovery => exact ⟨rfl, rfl⟩

/-- A close that answers nobody is done: marked crosspoints are opened again (R23). -/
theorem close_reopens {b : State} {c : CardId} {o : Order} (hq : Quiesced b) (hlist : NothingListed b c) (hk : o.kind = .make)
    (hn : o.points.Nodup) (ha : o.answers = false) (hs : StartsNothing b o.bus) :
    (∀ p ∈ o.points,
      ((finish (afterDone (orderDone b c o) c o (orderMarked b o))).xp o.bus p).state = (if (b.xp o.bus p).mark then .opening else .closed) ∧
      ((finish (afterDone (orderDone b c o) c o (orderMarked b o))).xp o.bus p).mark = false) ∧
    (orderMarked b o ≠ [] → ((finish (afterDone (orderDone b c o) c o (orderMarked b o))).card c).pending =
      some ⟨(b.card c).nextTag, o.markedOpen (orderMarked b o)⟩) := by
  have hsilent := orderDone_silent (s := b) (c := c) (o := o) (fun _ => ha)
  have hxp := orderDone_xp b c hn
  have hcard := orderDone_card b c o
  have hsame : (orderDone b c o).ctxs = b.ctxs ∧ (orderDone b c o).matrixWork = b.matrixWork ∧ (orderDone b c o).mail = b.mail := by
    rw [hsilent, State.modXps_eq]; exact ⟨rfl, rfl, rfl⟩
  generalize orderDone b c o = v at hxp hcard hsame ⊢
  obtain ⟨hctxs, hwork, hmail⟩ := hsame
  have hvq : Quiesced v := ⟨hwork.trans hq.1, hmail.trans hq.2⟩
  have hvs : StartsNothing v o.bus := hs.congr hctxs
  have hidle : (v.card c).idle = true := by
    rw [hcard]; exact (CardCtl.idle_iff _).2 ⟨rfl, hlist.1, hlist.2⟩
  have hafter : ∀ ps, afterDone v c o ps = (handleAwaited (placeMarked v c o.bus ps) o.bus o.points).pushWork [.send c] := fun ps => by
    unfold afterDone; rw [if_pos hk, if_pos hk]; rfl
  have hpoint : ∀ p ∈ o.points, v.xp o.bus p = (b.xp o.bus p).closeDone := fun p hp => by
    rw [hxp, if_pos ⟨rfl, hp⟩, Order.doneTo, if_pos hk]
  have hmem : ∀ p ∈ o.points, p ∈ orderMarked b o ↔ (b.xp o.bus p).mark = true := fun p hp => by
    rw [orderMarked, List.mem_filter]; exact ⟨And.right, fun h => ⟨hp, h⟩⟩
  have hsub : ∀ p ∈ orderMarked b o, p ∈ o.points := fun p hp => (List.mem_filter.1 hp).1
  rw [hafter]
  by_cases hne : orderMarked b o = []
  · have hplace : placeMarked v c o.bus (orderMarked b o) = v := by rw [hne]; rfl
    have hmatrix := awaited_calm hvq hvs o.points (ws := [.send c]) (fun w hw => by rw [List.mem_singleton.1 hw]; exact .inr hidle)
    rw [hplace]
    refine ⟨fun p hp => ?_, fun h => absurd hne h⟩
    have hmark : (b.xp o.bus p).mark = false := by
      rw [← Bool.not_eq_true, ← hmem p hp, hne]; exact List.not_mem_nil
    rw [State.xp, hmatrix, ← State.xp, hpoint p hp, hmark]
    exact closeDone_state _
  · have hplace := placeMarked_idle (o := o) hidle hne (fun p hp => by rw [hpoint p (hsub p hp)]; rfl)
    obtain ⟨u, hu⟩ : ∃ u, u = v.setCard c { v.card c with priority := [] } := ⟨_, rfl⟩
    have huxp : ∀ y p, u.xp y p = v.xp y p := fun _ _ => by rw [hu]; rfl
    have hucard : u.card c = { b.card c with pending := none, priority := [] } := by rw [hu, State.card_setCard_self, hcard]
    have hsent := sendOrder_sameWork u c (o.markedOpen (orderMarked b o))
    rw [hplace, ← hu]
    have hpending : ((sendOrder u c (o.markedOpen (orderMarked b o))).card c).pending =
        some ⟨(b.card c).nextTag, o.markedOpen (orderMarked b o)⟩ := by
      rw [sendOrder_card, if_pos rfl, hucard]
    have hmatrix := awaited_calm (s := sendOrder u c (o.markedOpen (orderMarked b o))) (x := o.bus)
      ⟨by rw [hsent.work, hu]; exact hvq.1, by rw [hsent.mail, hu]; exact hvq.2⟩ (hvs.congr (by rw [hsent.ctxs, hu]; rfl)) o.points
      (ws := [.send c]) (fun w hw => by rw [List.mem_singleton.1 hw]; exact .inl (by rw [hpending]; nofun))
    refine ⟨fun p hp => ?_, fun _ => ?_⟩
    · rw [State.xp, hmatrix, ← State.xp]
      by_cases hm : p ∈ orderMarked b o
      · have hsx : (sendOrder u c (o.markedOpen (orderMarked b o))).xp o.bus p =
            (o.markedOpen (orderMarked b o)).sentTo (b.xp o.bus p).closeDone := by
          rw [← hpoint p hp, ← huxp]
          exact sendOrder_xp_mem u c (o.markedOpen (orderMarked b o)) hm
        rw [(hmem p hp).1 hm, hsx]
        exact sentTo_closeDone (o := o.markedOpen (orderMarked b o)) (fun h => by cases h) _
      · have hmark : (b.xp o.bus p).mark = false := by rw [← Bool.not_eq_true, ← hmem p hp]; exact hm
        rw [hmark, sendOrder_xp_ne u c _ (.inr hm), huxp, hpoint p hp]
        exact closeDone_state _
    · rw [State.card, hmatrix, ← State.card]
      exact hpending

/-- An open is done, and no bus waits for its points (R23). -/
theorem open_done {b : State} {c : CardId} {o : Order} (hq : Quiesced b) (hlist : NothingListed b c) (hk : o.kind ≠ .make)
    (hn : o.points.Nodup) (hw : NoWaiter b o.points) (hs : StartsNothing b o.bus) (ps : List Pt) :
    ∀ p ∈ o.points, ((finish (afterDone (orderDone b c o) c o ps)).xp o.bus p).state = .opn ∧
      ((finish (afterDone (orderDone b c o) c o ps)).xp o.bus p).mark = false := by
  have hsilent := orderDone_silent (s := b) (c := c) (o := o) (fun h => absurd h hk)
  have hxp := orderDone_xp b c hn
  have hcard := orderDone_card b c o
  have hsame : (orderDone b c o).ctxs = b.ctxs ∧ (orderDone b c o).matrixWork = b.matrixWork ∧ (orderDone b c o).mail = b.mail := by
    rw [hsilent, State.modXps_eq]; exact ⟨rfl, rfl, rfl⟩
  generalize orderDone b c o = v at hxp hcard hsame ⊢
  obtain ⟨hctxs, hwork, hmail⟩ := hsame
  have hafter : afterDone v c o ps = (handleAwaited v o.bus o.points).pushWork (o.points.map .point ++ [.send c]) := by
    unfold afterDone; rw [if_neg hk, if_neg hk]
  have hmatrix := awaited_calm (s := v) ⟨hwork.trans hq.1, hmail.trans hq.2⟩ (hs.congr hctxs) o.points
    (ws := o.points.map .point ++ [.send c]) (fun w hmem => by
      rcases List.mem_append.1 hmem with hmem | hmem
      · obtain ⟨p, hp, rfl⟩ := List.mem_map.1 hmem
        intro y
        rw [show v.ctx y = b.ctx y by rw [State.ctx, State.ctx, hctxs]]
        exact hw y p hp
      · rw [List.mem_singleton.1 hmem]
        exact .inr (by rw [hcard]; exact (CardCtl.idle_iff _).2 ⟨rfl, hlist.1, hlist.2⟩))
  intro p hp
  rw [hafter, State.xp, hmatrix, ← State.xp, hxp, if_pos ⟨rfl, hp⟩, Order.doneTo, if_neg hk]
  exact ⟨rfl, rfl⟩

/-! ### The make of a site is done (R71, R72) -/

theorem settleDecision_settles {s : State} {x : Bus} {tg : Target} (ht : (s.ctx x).target = some tg) (hne : tg.settle ≠ 0) :
    settleDecision s x false = s.setCtx x { s.ctx x with state := .settling, settleTimer := some tg.settle } := by
  unfold settleDecision
  dsimp only
  rw [Bool.false_and, if_neg Bool.false_ne_true, ht]
  dsimp only
  rw [if_neg hne, ← ht]
  rfl

/-- The context whose make order is done. -/
def Ctx.madeDone (c : Ctx) (tg : Target) : Ctx := { c with state := .settling, request := none, settleTimer := some tg.settle }

theorem close_settles {b : State} {c : CardId} {o : Order} {tg : Target} (hq : Quiesced b) (hlist : NothingListed b c)
    (hk : o.kind = .make) (hn : o.points.Nodup) (ha : o.answers = true) (hmark : ∀ p ∈ o.points, (b.xp o.bus p).mark = false)
    (hs : (b.ctx o.bus).state = .making) (hi : (b.ctx o.bus).inFlight.isSome = true)
    (ht : (b.ctx o.bus).target = some tg) (hne : tg.settle ≠ 0) {t : State}
    (htt : t = finish (afterDone (orderDone b c o) c o (orderMarked b o))) :
    t.ctx o.bus = (b.ctx o.bus).madeDone tg ∧ (∀ y : Bus, y ≠ o.bus → t.ctx y = b.ctx y) ∧ t.out = b.out ∧ t.queue = b.queue ∧
      (t.card c).pending = none ∧ ∀ p ∈ o.points, (t.xp o.bus p).state = .closed ∧ (t.xp o.bus p).mark = false := by
  have hmarked : orderMarked b o = [] := List.filter_eq_nil_iff.2 (fun p hp => by rw [hmark p hp]; exact Bool.false_ne_true)
  obtain ⟨m, hm⟩ : ∃ m, m = (endPending b c).modXps o.bus o.points o.doneTo := ⟨_, rfl⟩
  have hmeq : m = { b with matrix := m.matrix } := by rw [hm, State.modXps_eq]; rfl
  obtain ⟨v, hv⟩ : ∃ v, v = m.setCtx o.bus { b.ctx o.bus with request := none } := ⟨_, rfl⟩
  have hmctx : m.ctx o.bus = b.ctx o.bus := by rw [hmeq]; rfl
  have hdone : orderDone b c o = v.post (.makeDone o.bus) := by
    show tellRequest ((endPending b c).modXps o.bus o.points o.doneTo) o none = _
    rw [← hm, hv, ← hmctx]
    unfold tellRequest
    rw [ha, hk]
    rfl
  have hvctx : v.ctx o.bus = { b.ctx o.bus with request := none } := by rw [hv]; exact State.ctx_setCtx_self _ _ _
  have hafter : afterDone (orderDone b c o) c o (orderMarked b o) = (v.post (.makeDone o.bus)).pushWork [.send c] := by
    rw [hmarked, hdone]
    unfold afterDone
    rw [if_pos hk, if_pos hk]
    dsimp only
    rw [handleAwaited_unasked (s := placeMarked (v.post (.makeDone o.bus)) c o.bus []) (by
      show (v.ctx o.bus).request = none
      rw [hvctx])]
    rfl
  have hidle : (v.card c).idle = true := by
    have := orderDone_card b c o
    rw [hdone] at this
    rw [show v.card c = _ from this]
    exact (CardCtl.idle_iff _).2 ⟨rfl, hlist.1, hlist.2⟩
  obtain ⟨w, hw⟩ : ∃ w, w = v.setCtx o.bus ((b.ctx o.bus).madeDone tg) := ⟨_, rfl⟩
  have hvwork : v.matrixWork = [] := by rw [hv, hmeq]; exact hq.1
  have hvmail : v.mail = [] := by rw [hv, hmeq]; exact hq.2
  have hdelivers : Delivers 2 ((v.post (.makeDone o.bus)).pushWork [.send c]) w := by
    refine .work (.send c) [] ?_ ?_
    · rw [State.pushWork_matrixWork]
      show List.foldl insertWork v.matrixWork _ = _
      rw [hvwork]; rfl
    · rw [doMatrix_idle (s := { (v.post (.makeDone o.bus)).pushWork [.send c] with matrixWork := [] }) (w := .send c) (Or.inr hidle)]
      refine .mail (.makeDone o.bus) [] rfl ?_ ?_
      · show v.mail ++ [_] = _
        rw [hvmail]; rfl
      · obtain ⟨e, he⟩ : ∃ e : State, e = { { (v.post (.makeDone o.bus)).pushWork [.send c] with matrixWork := [] } with mail := [] } := ⟨_, rfl⟩
        have hev : e = v := by
          rw [he]
          show ({ v with matrixWork := [], mail := [] } : State) = v
          rw [← hvwork, ← hvmail]
        have hstate : (v.ctx o.bus).state = .making ∧ (v.ctx o.bus).inFlight.isSome = true ∧ (v.ctx o.bus).target = some tg := by
          rw [hvctx]; exact ⟨hs, hi, ht⟩
        have hmaking : doMail v (.makeDone o.bus) = settleDecision v o.bus false := by
          unfold doMail
          dsimp only
          rw [hstate.1, hstate.2.1]
          rfl
        rw [← he, hev, hmaking, settleDecision_settles hstate.2.2 hne, hw, hvctx]
        exact .refl _
  have hwq : Quiesced w := by rw [hw]; exact ⟨hvwork, hvmail⟩
  have hends := hdelivers.ends hwq (by decide)
  have hwctx : w.ctx o.bus = (b.ctx o.bus).madeDone tg := by rw [hw]; exact State.ctx_setCtx_self _ _ _
  have hwv : w.matrix = v.matrix ∧ w.out = v.out ∧ w.queue = v.queue := by rw [hw]; exact ⟨rfl, rfl, rfl⟩
  have hvm : v.matrix = m.matrix ∧ v.out = b.out ∧ v.queue = b.queue := by
    rw [hv, hmeq]; exact ⟨rfl, rfl, rfl⟩
  have hmatrix : t.matrix = m.matrix := by rw [htt, hafter, hends.matrix, hwv.1, hvm.1]
  refine ⟨?_, fun y hy => ?_, ?_, ?_, ?_, fun p hp => ?_⟩
  · rw [htt, hafter, hends.ctx, hwctx]
  · rw [htt, hafter, hends.ctx, hw, State.ctx_setCtx, if_neg (Ne.symm hy), hv, State.ctx_setCtx, if_neg (Ne.symm hy), hmeq]
    rfl
  · rw [htt, hafter, hends.out, hwv.2.1, hvm.2.1]
  · rw [htt, hafter, (hends.idle (.inl ⟨o.bus, by rw [hwctx]; exact unfinished_of rfl⟩)).1, hwv.2.2, hvm.2.2]
  · rw [State.card, hmatrix, hm, ← State.card, State.modXps_card, endPending, State.card_setCard_self]
  · have hxp : t.xp o.bus p = (b.xp o.bus p).closeDone := by
      rw [State.xp, hmatrix, hm, ← State.xp, xp_modXps_once _ _ _ hn, if_pos ⟨rfl, hp⟩, Order.doneTo, if_pos hk]
      rfl
    rw [hxp]
    exact closeDone_state _

end Sys2Proof.Machine

namespace Sys2Proof

open Machine

/-- Settles O38: the order's crosspoints move when it ends, and what its end leaves to do reaches them no more. -/
theorem doneEndsTheOrder : Obligations.DoneEndsTheOrder := by
  intro s l c tag o hl hc hp hn
  obtain ⟨b, hb⟩ : ∃ b, b = goodFrame s.begin l := ⟨_, rfl⟩
  have hexec := exec_done hl hc hp
  have hmarked : orderMarked s o = orderMarked b o := by rw [hb, goodFrame_eq]; rfl
  have hshape := hb.trans (goodFrame_eq s l)
  have hxp : ∀ y p, b.xp y p = s.xp y p := fun _ _ => by rw [hshape]; rfl
  have hctx : ∀ y, b.ctx y = s.ctx y := fun _ => by rw [hshape]; rfl
  have hcard : b.card c = s.card c := by rw [hshape]; rfl
  rw [← hb] at hexec
  refine ⟨⟨_, hexec, ?_, ?_, fun k hk => ?_, fun x p => ?_⟩, fun p hpt => ?_, fun x p hxp' => ?_, ?_, fun hq hlist hcards =>
    ⟨_, hexec, fun hk ha hs => ?_, fun r tg hk ha hm hr hst hi ht hne => ?_, fun hk hw hs p hpt => ?_⟩⟩
  · rw [(finish_leaves _).1, (Keeps.afterDone (Q := fun _ => False) _ c o _).tables, orderDone, (Keeps.refl (Q := fun _ => False) _ |>.tellRequest o none).tables,
      State.modXps_eq, hshape]
    rfl
  · rw [finish_guard, (Keeps.afterDone (Q := fun _ => False) _ c o _).guard, orderDone, (Keeps.refl (Q := fun _ => False) _ |>.tellRequest o none).guard,
      State.modXps_eq, hshape]
    rfl
  · have hlanes : (finish (afterDone (orderDone b c o) c o (orderMarked s o))).lanes = b.lanes := by
      rw [(finish_leaves _).2.1, (Keeps.afterDone (Q := fun _ => False) _ c o _).lanes, orderDone,
        (Keeps.refl (Q := fun _ => False) _ |>.tellRequest o none).lanes, State.modXps_eq]
      rfl
    rw [State.lane, hlanes, ← State.lane, hb, goodFrame_lane_ne s hk]
  · rw [(finish_leaves _).2.2.2.2.1, (Keeps.afterDone (Q := fun _ => False) _ c o _).leaves.2.2.2.2.1, orderDone_xp b c hn, hxp]
    by_cases hin : o.bus = x ∧ p ∈ o.points
    · rw [if_pos hin, Order.doneTo]
      by_cases hk : o.kind = .make
      · rw [if_pos hk, if_pos ⟨hk, hin.1.symm, hin.2⟩]; rfl
      · rw [if_neg hk, if_neg (fun h => hk h.1)]; rfl
    · rw [if_neg hin, if_neg (fun h => hin ⟨h.2.1.symm, h.2.2⟩)]
  · rw [orderDone_xp s c hn, if_pos ⟨rfl, hpt⟩, Order.doneTo]
    split <;> exact ⟨rfl, rfl⟩
  · rw [orderDone_xp s c hn, if_neg (fun h => hxp' ⟨h.1.symm, h.2⟩)]
  · rw [orderDone_card]
  · have hbq : Quiesced b := by rw [hshape]; exact hq
    have h := close_reopens (b := b) (c := c) hbq (by rw [NothingListed, hcard]; exact hlist) hk hn ha (hs.congr (by rw [hshape]; rfl))
    rw [hmarked]
    simp only [hxp, hcard] at h
    exact h
  · have hbq : Quiesced b := by rw [hshape]; exact hq
    have h := close_settles (b := b) (c := c) hbq (by rw [NothingListed, hcard]; exact hlist) hk hn ha
      (fun p hpt => by rw [hxp]; exact hm p hpt) (by rw [hctx]; exact hst) (by rw [hctx]; exact hi) (by rw [hctx]; exact ht) hne rfl
    rw [hmarked]
    simp only [hctx] at h
    obtain ⟨h1, h2, h3, h4, h5, h6⟩ := h
    exact ⟨h1, h2, h3.trans (by rw [hshape]; rfl), h4.trans (by rw [hshape]; rfl), h5, h6⟩
  · have hbq : Quiesced b := by rw [hshape]; exact hq
    exact open_done (b := b) (c := c) hbq (by rw [NothingListed, hcard]; exact hlist) hk hn (fun y q hq' => by rw [hctx]; exact hw y q hq')
      (hs.congr (by rw [hshape]; rfl)) _ p hpt

end Sys2Proof
end

