-- ==== Sys2Proof/Proofs/SafeLooks.lean ====
section
/-!
PROOFS. What is left to do once the rack is SAFE (R88): contexts at rest look, one after another, and each look of a bus reaches its
own context alone.
-/

namespace Sys2Proof.Machine

theorem placeEnd_other (s : State) {x y : Bus} (hy : y ≠ x) : (placeEnd s x).ctx y = s.ctx y := by
  by_cases h : (s.ctx x).slot ≠ none ∨ (s.ctx x).endPending = none
  · rw [placeEnd_none h]
  · obtain ⟨hs, he⟩ := not_or.1 h
    obtain ⟨e, he⟩ := Option.ne_none_iff_exists'.1 he
    rw [placeEnd_some (not_not.1 hs) he]
    by_cases ht : Slot.taken ⟨endRec s x e, false⟩ s = true
    · exact (offered_only x _ ht).others y hy
    · rw [Slot.taken_record, decide_eq_true_eq, Nat.not_lt] at ht
      rw [offered_full (by rw [Bool.and_false]) ht, State.ctx_setCtx, if_neg (Ne.symm hy)]

theorem RestLook.onlyLooks {t u : State} {x : Bus} (h : RestLook t x u) : OnlyLooks t u x ∧ ∀ y, y ≠ x → u.ctx y = t.ctx y := by
  have hset : ∀ c y, y ≠ x → (t.setCtx x c).ctx y = t.ctx y := fun c y hy => (State.ctx_setCtx _ _ _ _).trans (if_neg (Ne.symm hy))
  cases h with
  | stays => exact ⟨.refl t x, fun _ _ => rfl⟩
  | idles =>
    rw [toIdle_eq]
    exact ⟨(OnlyLooks.modCtx t x (fun _ => (t.ctx x).idled)).trans (.look _ x), fun y hy => hset _ y hy⟩
  | halts c =>
    exact ⟨(OnlyLooks.modCtx t x (fun _ => { c with state := .halted, relDone := false })).trans (.raise _ x .step), fun y hy => hset _ y hy⟩
  | suspends => exact ⟨.modCtx t x _, fun y hy => hset _ y hy⟩

/-- A look in SAFE leaves the rest as calm as it was, and reaches one context. -/
theorem SafeCalm.poke {s : State} (h : SafeCalm s) (x : Bus) :
    SafeCalm (poke s x) ∧ OnlyLooks s (poke s x) x ∧ ∀ y, y ≠ x → (poke s x).ctx y = s.ctx y := by
  have hlook := poke_rest (SafeCalm.notReady h.safe) (h.rest x)
  obtain ⟨hl, ho⟩ := hlook.onlyLooks
  have hall := (OnlyLooks.placeEnd s x).trans hl
  have hothers : ∀ y, y ≠ x → (Machine.poke s x).ctx y = s.ctx y := fun y hy => (ho y hy).trans (placeEnd_other s hy)
  have hkeep := (Keeps.refl (Q := fun _ => False) s).poke x
  have hrun : Run False True (fun y => y = x) s (Machine.poke s x) := .poke x trivial rfl .refl
  refine ⟨⟨?_, fun y => hrun.noMake ?_ (h.noMake y), fun y => ?_, fun w hw => ?_, fun m hm => ?_⟩, hall, hothers⟩
  · rw [State.isSafe, hkeep.guard]; exact h.safe
  · rw [State.barred, h.safe]; nofun
  · by_cases hy : y = x
    · subst hy; exact hlook.notWorking (by rw [placeEnd_state]; exact h.rest y)
    · rw [hothers y hy]; exact h.rest y
  · rw [hall.work] at hw; exact h.work w hw
  · obtain ⟨l, hl', hp⟩ := hall.mail
    rw [hl'] at hm
    rcases List.mem_append.1 hm with hm | hm
    · exact h.mail m hm
    · exact ⟨x, hp m hm⟩

theorem SafeCalm.withMail {s : State} (h : SafeCalm s) {l : List Mail} (hl : ∀ m ∈ l, m ∈ s.mail) : SafeCalm { s with mail := l } :=
  ⟨h.safe, h.noMake, h.rest, h.work, fun m hm => h.mail m (hl m hm)⟩

theorem SafeCalm.withWork {s : State} (h : SafeCalm s) {l : List MatrixWork} (hl : ∀ w ∈ l, w ∈ s.matrixWork) :
    SafeCalm { s with matrixWork := l } := ⟨h.safe, h.noMake, h.rest, fun w hw => h.work w (hl w hw), h.mail⟩

/-- What the looks of a calm state keep holds to the end. -/
theorem drain_calm {P : State → Prop} (hP : ∀ s y rest, SafeCalm s → s.mail = .poke y :: rest → P s → P (poke { s with mail := rest } y))
    (hwork : ∀ s l, P s → P { s with matrixWork := l }) (n : Nat) {s : State} (hs : SafeCalm s) (h : P s) : P (drain n s) := by
  induction n generalizing s with
  | zero => exact h
  | succ n ih =>
    cases hw : s.matrixWork with
    | cons w rest =>
      have hsub : ∀ v ∈ rest, v ∈ s.matrixWork := fun v hv => by rw [hw]; exact List.mem_cons_of_mem _ hv
      rw [drain_work hw, (hs.withWork hsub).doMatrix (hs.work w (by rw [hw]; exact List.mem_cons_self))]
      exact ih (hs.withWork hsub) (hwork s rest h)
    | nil =>
      cases hm : s.mail with
      | nil => rw [drain, hw, hm]; exact h
      | cons m rest =>
        obtain ⟨y, rfl⟩ := hs.mail m (by rw [hm]; exact List.mem_cons_self)
        rw [drain_mail hw hm]
        exact ih ((hs.withMail (fun v hv => by rw [hm]; exact List.mem_cons_of_mem _ hv)).poke y).1 (hP s y rest hs hm h)

theorem SafeCalm.tail {s : State} (h : SafeCalm s) {m : Mail} {rest : List Mail} (hm : s.mail = m :: rest) : SafeCalm { s with mail := rest } :=
  h.withMail (fun v hv => by rw [hm]; exact List.mem_cons_of_mem _ hv)

/-- What the looks of a bus keep of its context holds to the end. -/
theorem drain_looks {P : Ctx → Prop} {x : Bus} (hP : ∀ s, SafeCalm s → P (s.ctx x) → P ((poke s x).ctx x)) (n : Nat) {s : State}
    (hs : SafeCalm s) (h : P (s.ctx x)) : P ((drain n s).ctx x) := by
  refine drain_calm (P := fun u => P (u.ctx x)) (fun u y rest hu hm h => ?_) (fun _ _ h => h) n hs h
  by_cases hy : y = x
  · subst hy; exact hP _ (hu.tail hm) h
  · rw [((hu.tail hm).poke y).2.2 x (Ne.symm hy)]; exact h

/-- A bus that is not told to look stays as it is. -/
theorem drain_unpoked (n : Nat) {s : State} {x : Bus} (hs : SafeCalm s) (h : .poke x ∉ s.mail) : (drain n s).ctx x = s.ctx x := by
  refine (drain_calm (P := fun u => u.ctx x = s.ctx x ∧ Mail.poke x ∉ u.mail) (fun u y rest hu hm h => ?_) (fun _ _ h => h) n hs
    ⟨rfl, h⟩).1
  obtain ⟨h1, h2⟩ := h
  rw [hm, List.mem_cons, not_or] at h2
  have hy : x ≠ y := fun e => h2.1 (by rw [e])
  obtain ⟨-, hlook, hothers⟩ := (hu.tail hm).poke y
  refine ⟨(hothers x hy).trans h1, fun hin => ?_⟩
  obtain ⟨l, hl, hl'⟩ := hlook.mail
  rw [hl] at hin
  rcases List.mem_append.1 hin with hin | hin
  · exact h2.2 hin
  · exact hy (Mail.poke.inj (hl' _ hin))

/-- A bus that is told to look does, as it is. -/
theorem SafeCalm.reaches {s : State} (h : SafeCalm s) {x : Bus} (hx : .poke x ∈ s.mail) :
    ∃ k w, k ≤ s.matrixWork.length + s.mail.length ∧ Delivers k s (Machine.poke w x) ∧ SafeCalm w ∧ w.ctx x = s.ctx x := by
  have hmail : ∀ (l rest : List Mail) (u : State), SafeCalm u → u.matrixWork = [] → u.mail = l ++ .poke x :: rest → .poke x ∉ l →
      ∃ w, Delivers (l.length + 1) u (Machine.poke w x) ∧ SafeCalm w ∧ w.ctx x = u.ctx x := by
    intro l
    induction l with
    | nil => exact fun rest u hu hw hm _ => ⟨{ u with mail := rest }, .mail (.poke x) rest hw hm (.refl _), hu.tail hm, rfl⟩
    | cons m l ih =>
      intro rest u hu hw hm hn
      rw [List.mem_cons, not_or] at hn
      obtain ⟨y, rfl⟩ := hu.mail m (by rw [hm]; exact List.mem_cons_self)
      have hy : x ≠ y := fun e => hn.1 (by rw [e])
      obtain ⟨hcalm, hlook, hothers⟩ := (hu.tail hm).poke y
      obtain ⟨l', hl', -⟩ := hlook.mail
      obtain ⟨w, hd, hw', hctx⟩ := ih (rest ++ l') _ hcalm (hlook.work.trans hw) (by rw [hl']; simp) hn.2
      exact ⟨w, .mail (.poke y) _ hw hm hd, hw', hctx.trans (hothers x hy)⟩
  have hwork : ∀ (l : List MatrixWork) (u : State), SafeCalm u → u.matrixWork = l → Delivers l.length u { u with matrixWork := [] } := by
    intro l
    induction l with
    | nil => intro u _ hw; rw [show u = { u with matrixWork := [] } by rw [← hw]]; exact .refl _
    | cons w l ih =>
      intro u hu hw
      have hsub := hu.withWork (l := l) (fun v hv => by rw [hw]; exact List.mem_cons_of_mem _ hv)
      refine .work w l hw ?_
      rw [hsub.doMatrix (hu.work w (by rw [hw]; exact List.mem_cons_self))]
      exact ih { u with matrixWork := l } hsub rfl
  obtain ⟨l, rest, hm, hn⟩ := List.eq_append_cons_of_mem hx
  obtain ⟨w, hd, hcalm, hctx⟩ := hmail l rest { s with matrixWork := [] } (h.withWork nofun) rfl hm hn
  refine ⟨_, w, ?_, (hwork s.matrixWork s h rfl).trans hd, hcalm, hctx⟩
  rw [hm, List.length_append, List.length_cons]
  omega

end Sys2Proof.Machine
end

