-- ==== Sys2Proof/Proofs/LidOpenings.lean ====
section
/-!
PROOFS. LID_OPENS (R156): every source is quieted, every emergency open made, every context left as R88 has it, and O5.
-/

namespace Sys2Proof.Machine

/-! ### A context as SAFE finds it -/

/-- The context as the table of R88 leaves it when the rack enters SAFE. -/
def Ctx.safed (c : Ctx) : Ctx :=
  if c.state.working then
    if c.inFlight.isSome then
      { c.stopped with
        state := .suspended, resume := .redo, settleTimer := none, request := none, after := .none, lastOk := false }
    else
      { c with
        state := .suspended, resume := c.nextOrNone, request := none, lastOk := false
        after := if c.after = .abort then .none else c.after
        step := if c.after = .abort then none else c.step }
  else if c.state = .releasing then { c with relDone := true, request := none }
  else c

/-- The context is then told to look. -/
def Ctx.safeLooks (c : Ctx) : Bool := (c.state.working && c.inFlight.isNone) || c.state == .holding || c.state == .releasing

/-- A take is CANCELled. -/
def Ctx.safeCancels (c : Ctx) : Bool := c.state == .measuring && c.inFlight.isSome

theorem stopTake_other (s : State) {x y : Bus} (hy : y ≠ x) : (stopTake s x).ctx y = s.ctx y := by
  unfold stopTake
  split
  · unfold cancelTake
    dsimp only
    rw [State.ctx_modCtx, if_neg (Ne.symm hy)]
    split <;> rfl
  · rfl

/-- What the entry into SAFE makes of some contexts. -/
structure SafedAt (s t : State) (l : List Bus) : Prop where
  only : t = { s with ctxs := t.ctxs, out := t.out, mail := t.mail }
  ctx : ∀ x, t.ctx x = if x ∈ l then (s.ctx x).safed else s.ctx x
  mail : ∀ m, m ∈ t.mail ↔ m ∈ s.mail ∨ ∃ x ∈ l, (s.ctx x).safeLooks = true ∧ m = .poke x
  length : t.mail.length ≤ s.mail.length + l.length
  out : ∃ fs, t.out = s.out ++ fs
  cancels : ∀ x ∈ l, (s.ctx x).safeCancels = true → s.channelUsable x = true →
    ((s.busEntry x).lane, .cancel (s.busEntry x).channel (s.ctx x).takeTag) ∈ t.out

theorem safeCtx_site {s : State} {x : Bus} (hw : (s.ctx x).state.working = true) (hi : (s.ctx x).inFlight.isSome = true) :
    safeCtx s x = (stopTake s x).setCtx x (s.ctx x).safed := by
  have hsafed : (s.ctx x).safed = { (s.ctx x).stopped with
      state := .suspended, resume := .redo, settleTimer := none, request := none, after := .none, lastOk := false } := by
    rw [Ctx.safed, if_pos hw, if_pos hi]
  rw [hsafed, ← stopTake_ctx]
  unfold safeCtx
  dsimp only
  generalize hst : (s.ctx x).state = st at hw
  cases st
  case idle | holding | releasing | suspended | tripped | halted => cases hw
  all_goals
    dsimp only
    rw [if_pos hi, stopTake, hst]
    rfl

theorem safeCtx_noSite {s : State} {x : Bus} (hw : (s.ctx x).state.working = true) (hi : (s.ctx x).inFlight = none) :
    safeCtx s x = (s.setCtx x (s.ctx x).safed).post (.poke x) := by
  have hno : ¬ ((s.ctx x).inFlight.isSome = true) := by rw [hi]; nofun
  rw [Ctx.safed, if_pos hw, if_neg hno]
  unfold safeCtx
  dsimp only
  generalize hst : (s.ctx x).state = st at hw
  cases st
  case idle | holding | releasing | suspended | tripped | halted => cases hw
  all_goals
    dsimp only
    rw [if_neg hno]
    rfl

theorem safeCtx_rest {s : State} {x : Bus} (hw : (s.ctx x).state.working = false) :
    safeCtx s x = if (s.ctx x).safeLooks = true then (s.setCtx x (s.ctx x).safed).post (.poke x) else s := by
  have hsafed : (s.ctx x).safed = if (s.ctx x).state = .releasing then { s.ctx x with relDone := true, request := none } else s.ctx x := by
    rw [Ctx.safed, hw]; rfl
  have hlooks : (s.ctx x).safeLooks = ((s.ctx x).state == .holding || (s.ctx x).state == .releasing) := by
    rw [Ctx.safeLooks, hw]; rfl
  rw [hsafed, hlooks]
  unfold safeCtx
  dsimp only
  generalize hst : (s.ctx x).state = st at hw
  cases st
  case idle | halted | suspended | tripped => rfl
  case holding =>
    show s.post (.poke x) = (s.setCtx x (s.ctx x)).post (.poke x)
    rw [State.setCtx_ctx]
  case releasing =>
    show (s.setCtx x { s.ctx x with relDone := true, request := none }).post (.poke x) =
      (s.setCtx x { s.ctx x with state := .releasing, relDone := true, request := none }).post (.poke x)
    rw [← hst]
  all_goals cases hw

theorem safedAt_set {s : State} {x : Bus} (hlooks : (s.ctx x).safeLooks = true) (hc : (s.ctx x).safeCancels = false) :
    SafedAt s ((s.setCtx x (s.ctx x).safed).post (.poke x)) [x] where
  only := rfl
  ctx := fun y => by
    show (s.setCtx x (s.ctx x).safed).ctx y = _
    rw [State.ctx_setCtx]
    by_cases hy : x = y
    · subst hy; rw [if_pos rfl, if_pos (List.mem_singleton_self x)]
    · rw [if_neg hy, if_neg (fun hm => hy (List.mem_singleton.1 hm).symm)]
  mail := fun m => by
    show m ∈ s.mail ++ [.poke x] ↔ _
    rw [List.mem_append, List.mem_singleton]
    exact or_congr Iff.rfl ⟨fun h => ⟨x, List.mem_singleton_self x, hlooks, h⟩, fun ⟨y, hy, _, h⟩ => List.mem_singleton.1 hy ▸ h⟩
  length := by show (s.mail ++ [_]).length ≤ _; rw [List.length_append]; rfl
  out := ⟨[], (List.append_nil _).symm⟩
  cancels := fun y hy h => by rw [List.mem_singleton.1 hy, hc] at h; cases h

theorem safeCtx_at (s : State) (x : Bus) : SafedAt s (safeCtx s x) [x] := by
  by_cases hw : (s.ctx x).state.working = true
  · by_cases hi : (s.ctx x).inFlight.isSome = true
    · obtain ⟨honly, fs, hfs⟩ := stopTake_only s x
      have hnolook : (s.ctx x).safeLooks = false := by
        rw [Ctx.safeLooks, hw]
        obtain ⟨u, hu⟩ := Option.isSome_iff_exists.1 hi
        rw [hu]
        generalize (s.ctx x).state = st at hw
        cases st
        case idle | holding | releasing | suspended | tripped | halted => cases hw
        all_goals rfl
      rw [safeCtx_site hw hi]
      refine ⟨?_, fun y => ?_, fun m => ?_, ?_, ⟨fs, hfs⟩, fun y hy hc hu => ?_⟩
      · rw [honly]; rfl
      · rw [State.ctx_setCtx]
        by_cases hy : x = y
        · subst hy; rw [if_pos rfl, if_pos (List.mem_singleton_self x)]
        · rw [if_neg hy, if_neg (fun hm => hy (List.mem_singleton.1 hm).symm), stopTake_other s (Ne.symm hy)]
      · show m ∈ (stopTake s x).mail ↔ _
        rw [show (stopTake s x).mail = s.mail by rw [honly]]
        exact ⟨.inl, fun h => h.resolve_right (fun ⟨y, hy, hl, _⟩ => by rw [List.mem_singleton.1 hy, hnolook] at hl; cases hl)⟩
      · show (stopTake s x).mail.length ≤ _
        rw [show (stopTake s x).mail = s.mail by rw [honly]]
        exact Nat.le_add_right _ _
      · obtain rfl := List.mem_singleton.1 hy
        rw [Ctx.safeCancels, Bool.and_eq_true, beq_iff_eq] at hc
        exact stopTake_out hc.1 hu
    · have hn : (s.ctx x).inFlight = none := by simpa using hi
      rw [safeCtx_noSite hw hn]
      exact safedAt_set (by rw [Ctx.safeLooks, hw, hn]; rfl) (by rw [Ctx.safeCancels, hn]; exact Bool.and_false _)
  · rw [Bool.not_eq_true] at hw
    have hc : (s.ctx x).safeCancels = false := by
      rw [Ctx.safeCancels]
      generalize (s.ctx x).state = st at hw
      cases st
      case measuring => cases hw
      all_goals rfl
    rw [safeCtx_rest hw]
    by_cases hl : (s.ctx x).safeLooks = true
    · rw [if_pos hl]
      exact safedAt_set hl hc
    · rw [if_neg hl]
      have hsame : (s.ctx x).safed = s.ctx x := by
        rw [Ctx.safed, hw, if_neg Bool.false_ne_true, if_neg]
        intro hr
        exact hl (by rw [Ctx.safeLooks, hr]; rfl)
      refine ⟨rfl, fun y => ?_, fun m => ⟨.inl, fun h => h.resolve_right ?_⟩, Nat.le_add_right _ _, ⟨[], (List.append_nil _).symm⟩,
        fun y hy h => ?_⟩
      · split
        · next hm => rw [List.mem_singleton.1 hm, hsame]
        · rfl
      · rintro ⟨y, hy, h, -⟩
        exact hl (List.mem_singleton.1 hy ▸ h)
      · rw [List.mem_singleton.1 hy, hc] at h; cases h

theorem foldl_safeCtx_at (l : List Bus) (s : State) (hn : l.Nodup) : SafedAt s (l.foldl safeCtx s) l := by
  induction l generalizing s with
  | nil =>
    exact ⟨rfl, fun x => (if_neg List.not_mem_nil).symm, fun m => ⟨.inl, fun h => h.resolve_right (fun ⟨_, hx, _⟩ => List.not_mem_nil hx)⟩,
      Nat.le_refl _, ⟨[], (List.append_nil _).symm⟩, fun _ hx => absurd hx List.not_mem_nil⟩
  | cons y l ih =>
    obtain ⟨hy, hn⟩ := List.nodup_cons.1 hn
    obtain ⟨h1, h2, h3, h4, ⟨fs, h5⟩, h6⟩ := safeCtx_at s y
    obtain ⟨k1, k2, k3, k4, ⟨gs, k5⟩, k6⟩ := ih (safeCtx s y) hn
    have ht : (safeCtx s y).tables = s.tables := by rw [h1]
    have hl : (safeCtx s y).lanes = s.lanes := by rw [h1]
    have hbus : ∀ x, (safeCtx s y).busEntry x = s.busEntry x := fun x => by rw [State.busEntry, ht]; rfl
    have husable : ∀ x, (safeCtx s y).channelUsable x = s.channelUsable x := fun x => by
      unfold State.channelUsable State.laneHasInstrument State.lane
      rw [hbus, hl]
    have hctx : ∀ x ∈ l, (safeCtx s y).ctx x = s.ctx x := fun x hx => by
      rw [h2, if_neg (fun hm => hy (by rw [← List.mem_singleton.1 hm]; exact hx))]
    rw [List.foldl_cons]
    refine ⟨?_, fun x => ?_, fun m => ?_, ?_, ⟨fs ++ gs, by rw [k5, h5, List.append_assoc]⟩, fun x hx hc hu => ?_⟩
    · rw [k1]
      rw [h1]
    · rw [k2, h2]
      by_cases hxl : x ∈ l
      · have hxy : x ≠ y := fun e => hy (e ▸ hxl)
        simp [hxl, hxy]
      · simp [hxl]
    · rw [k3, h3, or_assoc]
      refine or_congr Iff.rfl ⟨fun h => ?_, fun ⟨x, hx, hlook, hm⟩ => ?_⟩
      · rcases h with ⟨x, hx, hlook, hm⟩ | ⟨x, hx, hlook, hm⟩
        · exact ⟨x, List.mem_cons.2 (.inl (List.mem_singleton.1 hx)), hlook, hm⟩
        · exact ⟨x, List.mem_cons_of_mem _ hx, hctx x hx ▸ hlook, hm⟩
      · rcases List.mem_cons.1 hx with rfl | hx
        · exact .inl ⟨x, List.mem_singleton_self x, hlook, hm⟩
        · exact .inr ⟨x, hx, (hctx x hx).symm ▸ hlook, hm⟩
    · rw [List.length_cons]
      have : [y].length = 1 := rfl
      omega
    · rcases List.mem_cons.1 hx with rfl | hx
      · rw [k5]
        exact List.mem_append_left _ (h6 x (List.mem_singleton_self x) hc hu)
      · have := k6 x hx (by rw [hctx x hx]; exact hc) (by rw [husable]; exact hu)
        rw [hbus, hctx x hx] at this
        exact this

end Sys2Proof.Machine
end

