-- ==== Sys2Proof/Proofs/SafeEntered.lean ====
section
/-!
PROOFS. The state in which LID_OPENS leaves its contexts to look (R156, R158), and O5.
-/

namespace Sys2Proof.Machine

/-! ### Quiets and opens leave the contexts but for their requests and records -/

/-- A context whose request may have been cut off and whose source record may have moved. -/
def Ctx.Cut (c d : Ctx) : Prop := ∃ q src, d = { c with request := q, source := src }

theorem Ctx.Cut.refl (c : Ctx) : c.Cut c := ⟨c.request, c.source, rfl⟩

theorem Ctx.Cut.trans {c d e : Ctx} (h : c.Cut d) (k : d.Cut e) : c.Cut e := by
  obtain ⟨q, src, rfl⟩ := h
  obtain ⟨q', src', rfl⟩ := k
  exact ⟨q', src', rfl⟩

theorem Ctx.withoutOrders_cut (c : Ctx) : c.Cut c.withoutOrders := by
  unfold Ctx.withoutOrders
  split
  · exact ⟨none, c.source, rfl⟩
  · exact ⟨none, c.source, rfl⟩
  · exact .refl c

theorem emergencyQuiet_only (s : State) (x : Bus) :
    emergencyQuiet s x = { s with ctxs := (emergencyQuiet s x).ctxs, out := (emergencyQuiet s x).out } ∧
      ∀ y, (s.ctx y).Cut ((emergencyQuiet s x).ctx y) := by
  have hset : ∀ (u : State) c, (u.ctx x).Cut c → ∀ y, (u.ctx y).Cut ((u.setCtx x c).ctx y) := fun u c hc y => by
    rw [State.ctx_setCtx]
    split
    · next e => subst e; exact hc
    · exact .refl _
  have hrecord : ∀ (u : State) v, (∀ y, (s.ctx y).Cut (u.ctx y)) → ∀ y, (s.ctx y).Cut ((u.setSource x v).ctx y) := fun u v hu y =>
    (hu y).trans (hset u _ ⟨(u.ctx x).request, v, rfl⟩ y)
  unfold emergencyQuiet
  split
  · exact ⟨rfl, fun y => .refl _⟩
  · have hcut : ∀ y, (s.ctx y).Cut ((s.modCtx x (fun c =>
        if c.request = some .quiet || c.request = some .live then { c with request := none } else c)).ctx y) := hset s _ (by
      dsimp only
      split
      · exact ⟨none, (s.ctx x).source, rfl⟩
      · exact .refl _)
    dsimp only
    split
    · exact ⟨rfl, hcut⟩
    · exact ⟨rfl, hcut⟩
    all_goals
      split
      · exact ⟨rfl, hrecord (sendQuiet _ x) _ hcut⟩
      · exact ⟨rfl, hrecord _ _ hcut⟩

/-- What the quiets and the emergency opens of an entry into SAFE leave. -/
structure CutOff (s u : State) : Prop where
  ctx : ∀ x, (s.ctx x).Cut (u.ctx x)
  mail : u.mail = s.mail
  work : ∀ w ∈ u.matrixWork, w ∈ s.matrixWork ∨ ∃ p, w = .point p

theorem CutOff.refl (s : State) : CutOff s s := ⟨fun _ => .refl _, rfl, fun _ => .inl⟩

theorem CutOff.emergencyQuiet {s u : State} (h : CutOff s u) (x : Bus) : CutOff s (emergencyQuiet u x) := by
  obtain ⟨honly, hcut⟩ := emergencyQuiet_only u x
  refine ⟨fun y => (h.ctx y).trans (hcut y), ?_, ?_⟩
  · rw [honly]; exact h.mail
  · rw [honly]; exact h.work

theorem CutOff.emergencyOpen {s u : State} (h : CutOff s u) (x : Bus) : CutOff s (emergencyOpen u x) := by
  obtain ⟨hctxs, hwork, hmail⟩ := emergencyOpen_work u x
  refine ⟨fun y => (h.ctx y).trans ?_, hmail.trans h.mail, fun w hw => ?_⟩
  · rw [show (Machine.emergencyOpen u x).ctx y = (u.modCtx x Ctx.withoutOrders).ctx y by rw [State.ctx, State.ctx, hctxs], State.ctx_modCtx]
    split
    · next e => subst e; exact Ctx.withoutOrders_cut _
    · exact .refl _
  · rw [hwork] at hw
    rcases mem_foldl_insertWork hw with hw | hw
    · obtain ⟨p, -, rfl⟩ := List.mem_map.1 hw
      exact .inr ⟨p, rfl⟩
    · exact h.work w hw

theorem length_foldl_emergencyOpen (l : List Bus) (s : State) :
    (l.foldl emergencyOpen s).matrixWork.length ≤ s.matrixWork.length + 256 * l.length := by
  induction l generalizing s with
  | nil => exact Nat.le_refl _
  | cons y l ih =>
    have hone : (emergencyOpen s y).matrixWork.length ≤ s.matrixWork.length + 256 := by
      rw [(emergencyOpen_work s y).2.1, length_foldl_insertWork, List.length_map]
      have : (allPoints.filter (fun p => (s.xp y p).state == .reserved)).length ≤ 256 :=
        (List.length_filter_le _ _).trans (le_of_eq (List.length_finRange ..))
      omega
    refine (ih (emergencyOpen s y)).trans ?_
    rw [List.length_cons]
    omega

/-! ### The lid has opened -/

/-- The rack is SAFE, and nothing has been done about it. -/
def lidSafe (s : State) : State := s.modGuard (fun g => { g with rack := .safe .interlock, interlock := .opn, lidOpen := true })

/-- Every source is quieted, and every emergency open made. -/
def lidQuieted (s : State) : State := allBuses.foldl emergencyOpen (allBuses.foldl emergencyQuiet (lidSafe s))

theorem lidOpened_eq (s : State) : lidOpened s = (allBuses.foldl safeCtx (lidQuieted s)).raise .guard := rfl

theorem lidSafe_apart (s : State) (x : Bus) : Apart x s (lidSafe s) where
  tables := rfl
  lanes := rfl
  tripped := rfl
  opens := id
  sinks := fun _ _ => .refl _
  listed := fun _ _ => id
  unreserved := fun _ => id
  out := ⟨[], (List.append_nil _).symm⟩
  records := ⟨[], (List.append_nil _).symm⟩
  guardClass := id

theorem lidQuieted_keeps (s : State) : Keeps (fun _ => False) (lidSafe s) (lidQuieted s) :=
  foldl_holds (P := Keeps (fun _ => False) (lidSafe s)) (fun _ x h => h.emergencyOpen x) _
    (foldl_holds (P := Keeps (fun _ => False) (lidSafe s)) (fun _ x h => h.emergencyQuiet x) _ (.refl _))

theorem lidOpened_keeps (s : State) : Keeps (fun _ => False) (lidSafe s) (allBuses.foldl safeCtx (lidQuieted s)) :=
  foldl_holds (P := Keeps (fun _ => False) (lidSafe s)) (fun _ x h => h.safeCtx x) _ (lidQuieted_keeps s)

theorem barred_of_safe {s : State} (h : s.isSafe = true) (x : Bus) : s.barred x ≠ none := by
  rw [State.barred, h]; nofun

theorem Keeps.safe {Q : Rec → Prop} {s t : State} (h : Keeps Q s t) (hs : s.isSafe = true) : t.isSafe = true := by
  rw [State.isSafe, h.guard]; exact hs

theorem lidQuieted_noMake (s : State) (x : Bus) : ∀ r, ((lidQuieted s).ctx x).request ≠ some (.make r) := by
  refine foldl_reaches (a := x) (P := fun _ => True) (R := fun u => ∀ r, (u.ctx x).request ≠ some (.make r)) (fun _ _ _ _ => trivial)
    (fun u _ => emergencyOpen_noMake u x) (fun u y hu => ?_) (List.mem_finRange x) trivial
  have hrun : Run False False (fun z => z = y) u (emergencyOpen u y) := .emergencyOpen y nofun .refl
  by_cases hy : x = y
  · subst hy; exact emergencyOpen_noMake u x
  · exact (hrun.spared (x := x) hy).make hu

/-- What a source is after a quiet it stays while the rack is SAFE. -/
theorem notLive_kept {L C : Prop} {Y : Bus → Prop} {Q : Rec → Prop} {s u v : State} {x : Bus} (hs : s.isSafe = true) (hk : Keeps Q s u)
    (hr : Run L C Y u v) (h : (u.ctx x).source ≠ .live ∧ (u.ctx x).source ≠ .goingLive) :
    (v.ctx x).source ≠ .live ∧ (v.ctx x).source ≠ .goingLive := hr.notLive (barred_of_safe (hk.safe hs) x) h

theorem lidOpened_notLive (s : State) {x : Bus} (hk : (s.busEntry x).kind = .source) :
    ((allBuses.foldl safeCtx (lidQuieted s)).ctx x).source ≠ .live ∧ ((allBuses.foldl safeCtx (lidQuieted s)).ctx x).source ≠ .goingLive := by
  obtain ⟨P, hP⟩ : ∃ P : State → Prop, P = fun u => Keeps (fun _ => False) (lidSafe s) u := ⟨_, rfl⟩
  have hsafe : (lidSafe s).isSafe = true := rfl
  have hquiet : Keeps (fun _ => False) (lidSafe s) (allBuses.foldl emergencyQuiet (lidSafe s)) ∧
      (((allBuses.foldl emergencyQuiet (lidSafe s)).ctx x).source ≠ .live ∧ ((allBuses.foldl emergencyQuiet (lidSafe s)).ctx x).source ≠ .goingLive) := by
    refine foldl_reaches (a := x) (P := fun u => Keeps (fun _ => False) (lidSafe s) u)
      (R := fun u => Keeps (fun _ => False) (lidSafe s) u ∧ ((u.ctx x).source ≠ .live ∧ (u.ctx x).source ≠ .goingLive))
      (fun _ y _ h => h.emergencyQuiet y) (fun u h => ⟨h.emergencyQuiet x, emergencyQuiet_notLive ?_⟩)
      (fun u y h => ⟨h.1.emergencyQuiet y, notLive_kept (L := False) (C := True) (Y := fun _ => True) hsafe h.1 (.emergencyQuiet y trivial .refl) h.2⟩)
      (List.mem_finRange x) (.refl _)
    rw [State.busEntry, h.tables]; exact hk
  have hopen := foldl_holds (f := emergencyOpen)
    (P := fun u => Keeps (fun _ => False) (lidSafe s) u ∧ ((u.ctx x).source ≠ .live ∧ (u.ctx x).source ≠ .goingLive))
    (fun u y h => ⟨h.1.emergencyOpen y, notLive_kept (L := False) (C := True) (Y := fun _ => True) hsafe h.1 (.emergencyOpen y nofun .refl) h.2⟩)
    allBuses hquiet
  exact (foldl_holds (f := safeCtx)
    (P := fun u => Keeps (fun _ => False) (lidSafe s) u ∧ ((u.ctx x).source ≠ .live ∧ (u.ctx x).source ≠ .goingLive))
    (fun u y h => ⟨h.1.safeCtx y, notLive_kept (L := False) (C := True) (Y := fun _ => True) hsafe h.1 (.safeCtx y trivial .refl) h.2⟩)
    allBuses hopen).2

theorem Ctx.safed_notWorking (c : Ctx) : c.safed.state.working = false := by
  unfold Ctx.safed
  split
  · split <;> rfl
  · next hw =>
    rw [Bool.not_eq_true] at hw
    split <;> exact hw

theorem lidOpened_at (s : State) : SafedAt (lidQuieted s) (allBuses.foldl safeCtx (lidQuieted s)) allBuses :=
  foldl_safeCtx_at allBuses _ (List.nodup_finRange 8)

theorem lidOpened_ctx (s : State) (x : Bus) : (lidOpened s).ctx x = ((lidQuieted s).ctx x).safed := by
  have h := (lidOpened_at s).ctx x
  rw [if_pos (show x ∈ allBuses from List.mem_finRange x)] at h
  rw [lidOpened_eq, ← h]
  generalize allBuses.foldl safeCtx (lidQuieted s) = w
  rfl

theorem lidQuieted_cutOff (s : State) : CutOff (lidSafe s) (lidQuieted s) :=
  foldl_holds (P := CutOff (lidSafe s)) (fun _ x h => h.emergencyOpen x) _
    (foldl_holds (P := CutOff (lidSafe s)) (fun _ x h => h.emergencyQuiet x) _ (.refl _))

/-- Between commands, what LID_OPENS leaves to do are looks. -/
theorem lidOpened_calm {s : State} (hq : Quiesced s) : SafeCalm (lidOpened s) ∧
    (lidOpened s).matrixWork.length + (lidOpened s).mail.length ≤ 2056 := by
  have hat := lidOpened_at s
  have hcut := lidQuieted_cutOff s
  have hmail0 : (lidQuieted s).mail = [] := hcut.mail.trans hq.2
  have hlen : (lidQuieted s).matrixWork.length ≤ 2048 := by
    have h1 := length_foldl_emergencyOpen allBuses (allBuses.foldl emergencyQuiet (lidSafe s))
    have h2 : (allBuses.foldl emergencyQuiet (lidSafe s)).matrixWork = [] := by
      refine (foldl_holds (P := fun u => u.matrixWork = []) (fun u y hu => ?_) allBuses (s := lidSafe s) hq.1)
      rw [(emergencyQuiet_only u y).1]; exact hu
    rw [h2, List.length_nil, show allBuses.length = 8 from List.length_finRange ..] at h1
    unfold lidQuieted
    omega
  have hwork : (lidOpened s).matrixWork = (lidQuieted s).matrixWork := by
    rw [lidOpened_eq, State.raise_matrixWork]
    have honly := hat.only
    generalize allBuses.foldl safeCtx (lidQuieted s) = w at honly
    rw [honly]
  have hmail : (lidOpened s).mail = (allBuses.foldl safeCtx (lidQuieted s)).mail := by rw [lidOpened_eq, State.raise_mail]
  refine ⟨⟨?_, fun x r => ?_, fun x => ?_, fun w hw => ?_, fun m hm => ?_⟩, ?_⟩
  · have hsafe := (lidOpened_keeps s).safe (s := lidSafe s) rfl
    rw [lidOpened_eq]
    generalize allBuses.foldl safeCtx (lidQuieted s) = w at hsafe ⊢
    exact hsafe
  · rw [lidOpened_ctx]
    have hno := lidQuieted_noMake s x r
    unfold Ctx.safed
    split
    · split <;> nofun
    · split
      · nofun
      · exact hno
  · rw [lidOpened_ctx]; exact Ctx.safed_notWorking _
  · rw [hwork] at hw
    refine (hcut.work w hw).resolve_left (fun h => ?_)
    rw [show (lidSafe s).matrixWork = s.matrixWork from rfl, hq.1] at h
    cases h
  · rw [hmail, hat.mail, hmail0] at hm
    obtain ⟨x, -, -, rfl⟩ := hm.resolve_left List.not_mem_nil
    exact ⟨x, rfl⟩
  · have h := hat.length
    rw [hmail0, List.length_nil, show allBuses.length = 8 from List.length_finRange ..] at h
    rw [hwork, hmail]
    omega

end Sys2Proof.Machine
end

