-- ==== Sys2Proof/Proofs/LidOpened.lean ====
section
/-!
PROOFS. What LID_OPENS leaves in each context (R88), bus by bus, and O5.
-/

-- One proof after another: in the joined text each worker would hold a stack of its own.
set_option Elab.async false

namespace Sys2Proof.Machine

/-! ### A look in SAFE, by the state of its context -/

/-- A record still in the slot holds a context where it is. -/
theorem poke_slotKept {s : State} {x : Bus} (h : s.isSafe = true) (hslot : (s.ctx x).slot ≠ none)
    (hstate : (s.ctx x).state = .holding ∨ (s.ctx x).state = .releasing ∨ (s.ctx x).state = .suspended) : poke s x = s := by
  have hclear : (s.ctx x).slot.isNone = false := by rw [← Bool.not_eq_true, Option.isNone_iff_eq_none]; exact hslot
  unfold poke
  rw [placeEnd_none (.inl hslot)]
  dsimp only
  rw [hclear]
  rcases hstate with hs | hs | hs
  · rw [hs]
    dsimp only
    rw [if_pos h]
    rfl
  · rw [hs]
    dsimp only
    rw [Bool.false_and, Bool.and_false]
    rfl
  · rw [hs, SafeCalm.notReady h]
    dsimp only
    simp only [Bool.false_and, Bool.and_false, Bool.false_eq_true, if_false, ite_self]

/-- A held context with nothing left to place is IDLE after its look. -/
theorem poke_holdingIdles {s : State} {x : Bus} (h : s.isSafe = true) (hstate : (s.ctx x).state = .holding)
    (hslot : (s.ctx x).slot = none) (he : (s.ctx x).endPending = none) : poke s x = toIdle s x := by
  unfold poke
  rw [placeEnd_none (.inr he)]
  dsimp only
  rw [hstate, hslot, he]
  dsimp only
  rw [if_pos h]
  rfl

/-- A context whose relays are open, with nothing left to place, arrives. -/
theorem poke_arrives {s : State} {x : Bus} (hstate : (s.ctx x).state = .releasing) (hdone : (s.ctx x).relDone = true)
    (hslot : (s.ctx x).slot = none) (he : (s.ctx x).endPending = none) : poke s x = arrive s x := by
  unfold poke
  rw [placeEnd_none (.inr he)]
  dsimp only
  rw [hstate, hslot, he, hdone]
  rfl

/-- A context with nothing to take up in SAFE: IDLE or HALTED. -/
def Ctx.Parked (c : Ctx) : Prop := c.state = .idle ∨ c.state = .halted

theorem Ctx.Parked.inert {s : State} {x : Bus} (hs : s.isSafe = true) (h : (s.ctx x).Parked) : Inert s x := by
  rcases h with h | h
  · exact .inr (.inr (.inl ⟨SafeCalm.notReady hs, .inl h⟩))
  · exact .inr (.inl h)

/-- A parked context rests to the end, and so does what it shows. -/
theorem drain_parked {x : Bus} (n : Nat) {s : State} (hs : SafeCalm s) (h : (s.ctx x).Parked) :
    (s.ctx x).Rests ((drain n s).ctx x) := by
  refine drain_looks (P := fun d => (s.ctx x).Rests d) (fun u hu hr => ?_) n hs (.refl _)
  have hp : (u.ctx x).Parked := by rw [Ctx.Parked, hr.rest]; exact h
  rw [poke_inert (hp.inert hu.safe)]
  exact hr.trans (placeEnd_rests u x)

/-! ### The table of R88 -/

/-- What the entry into SAFE has left for bus `x` of what a command began with. -/
structure SafedFrom (s v : State) (x : Bus) : Prop where
  calm : SafeCalm v
  fuel : v.matrixWork.length + v.mail.length ≤ drainBound
  ctx : ∃ q src, v.ctx x = ({ s.ctx x with request := q, source := src } : Ctx).safed
  look : .poke x ∈ v.mail ↔ (s.ctx x).safeLooks = true
  cancel : (s.ctx x).safeCancels = true → s.channelUsable x = true →
    ((s.busEntry x).lane, .cancel (s.busEntry x).channel (s.ctx x).takeTag) ∈ v.out

variable {s v : State} {x : Bus}

theorem SafedFrom.unseen (h : SafedFrom s v x) (hl : (s.ctx x).safeLooks = false) : (finish v).ctx x = v.ctx x := by
  rw [finish_ctx]
  refine drain_unpoked drainBound h.calm (fun hm => ?_)
  rw [h.look, hl] at hm
  cases hm

/-- A context with a record in its slot stays as SAFE has left it. -/
theorem SafedFrom.slotKept (h : SafedFrom s v x) (hslot : (v.ctx x).slot ≠ none)
    (hstate : (v.ctx x).state = .holding ∨ (v.ctx x).state = .releasing ∨ (v.ctx x).state = .suspended) :
    (finish v).ctx x = v.ctx x := by
  rw [finish_ctx]
  refine drain_looks (P := fun d => d = v.ctx x) (fun u hu hd => ?_) drainBound h.calm rfl
  rw [poke_slotKept hu.safe (by rw [hd]; exact hslot) (by rw [hd]; exact hstate)]
  exact hd

/-- A context that looks and is parked then rests to the end of the command. -/
theorem SafedFrom.looked (h : SafedFrom s v x) (hl : (s.ctx x).safeLooks = true) :
    ∃ w, SafeCalm w ∧ w.ctx x = v.ctx x ∧
      (((poke w x).ctx x).Parked → ((poke w x).ctx x).Rests ((finish v).ctx x)) ∧
      ((poke w x).trunk.attn.step = true → (finish v).trunk.attn.step = true) := by
  obtain ⟨k, w, hk, hd, hw, hctx⟩ := h.calm.reaches (h.look.2 hl)
  have hall := hd.drainAll (hk.trans h.fuel)
  refine ⟨w, hw, hctx, fun hp => ?_, fun hstep => ?_⟩
  · rw [finish_ctx, hall]
    exact drain_parked _ (hw.poke x).1 hp
  · rw [finish, pump_attn, (panelCheck_only _).attn, hall]
    exact (Keeps.drain _ (Keeps.refl (Q := fun _ => False) _)).stepRaised hstep

theorem SafedFrom.atSite (h : SafedFrom s v x) (hw : (s.ctx x).state.working = true) (hi : (s.ctx x).inFlight.isSome = true) :
    (finish v).ctx x = { s.ctx x with
      state := .suspended, resume := .redo, settleTimer := none, request := none, after := .none, lastOk := false
      source := ((finish v).ctx x).source
      takeTag := if (s.ctx x).state = .measuring then (s.ctx x).takeTag + 1 else (s.ctx x).takeTag
      acc := if (s.ctx x).state = .measuring then [] else (s.ctx x).acc
      measureTimer := if (s.ctx x).state = .measuring then none else (s.ctx x).measureTimer } := by
  have hlook : (s.ctx x).safeLooks = false := by
    rw [Ctx.safeLooks, hw, Option.isNone_eq_false_iff.2 hi]
    generalize (s.ctx x).state = st at hw
    cases st
    case holding | releasing => cases hw
    all_goals rfl
  obtain ⟨q, src, hv⟩ := h.ctx
  rw [h.unseen hlook, hv]
  unfold Ctx.safed Ctx.stopped
  dsimp only
  rw [if_pos hw, if_pos hi]
  split <;> rfl

theorem SafedFrom.posted (h : SafedFrom s v x) (hstate : (s.ctx x).state = .posting) (hi : (s.ctx x).inFlight = none)
    (hslot : (s.ctx x).slot ≠ none) (ha : (s.ctx x).after ≠ .abort) :
    (finish v).ctx x = { s.ctx x with
      state := .suspended, resume := if (s.ctx x).sweep.status = .running then .next else .none, request := none
      lastOk := false, source := ((finish v).ctx x).source } := by
  obtain ⟨q, src, hv⟩ := h.ctx
  have hsafed : v.ctx x = { s.ctx x with
      state := .suspended, resume := (s.ctx x).nextOrNone, request := none, lastOk := false, source := src } := by
    rw [hv]
    unfold Ctx.safed
    dsimp only
    rw [hstate, hi, if_pos (show CtxState.posting.working = true from rfl), if_neg (by decide), if_neg ha, if_neg ha]
    rfl
  rw [h.slotKept (by rw [hsafed]; exact hslot) (by rw [hsafed]; exact .inr (.inr rfl)), hsafed]
  rfl

/-- A held or leaving context is as it was, but that its opens are taken for answered. -/
theorem SafedFrom.stopped (h : SafedFrom s v x) (hstate : (s.ctx x).state = .holding ∨ (s.ctx x).state = .releasing) :
    (v.ctx x).state = (s.ctx x).state ∧ (v.ctx x).slot = (s.ctx x).slot ∧ (v.ctx x).endPending = (s.ctx x).endPending ∧
      (v.ctx x).dest = (s.ctx x).dest ∧ (v.ctx x).step = (s.ctx x).step ∧ (v.ctx x).resume = (s.ctx x).resume ∧
      ((s.ctx x).state = .releasing → (v.ctx x).relDone = true) := by
  obtain ⟨q, src, hv⟩ := h.ctx
  rw [hv]
  unfold Ctx.safed
  dsimp only
  rcases hstate with hs | hs
  · rw [hs, if_neg (show ¬ CtxState.holding.working = true by decide), if_neg (by decide)]
    exact ⟨rfl, rfl, rfl, rfl, rfl, rfl, nofun⟩
  · rw [hs, if_neg (show ¬ CtxState.releasing.working = true by decide), if_pos rfl]
    exact ⟨rfl, rfl, rfl, rfl, rfl, rfl, fun _ => rfl⟩

theorem SafedFrom.slotStays (h : SafedFrom s v x) (hstate : (s.ctx x).state = .holding ∨ (s.ctx x).state = .releasing)
    (hslot : (s.ctx x).slot ≠ none) : ((finish v).ctx x).state = (s.ctx x).state ∧ ((finish v).ctx x).dest = (s.ctx x).dest := by
  obtain ⟨h1, h2, -, h4, -⟩ := h.stopped hstate
  rw [h.slotKept (by rw [h2]; exact hslot) (by rw [h1]; exact hstate.elim .inl (fun e => .inr (.inl e)))]
  exact ⟨h1, h4⟩

theorem Ctx.safeLooks_of {c : Ctx} (h : c.state = .holding ∨ c.state = .releasing) : c.safeLooks = true := by
  rcases h with h | h <;> rw [Ctx.safeLooks, h] <;> rfl

theorem SafedFrom.released (h : SafedFrom s v x) (hstate : (s.ctx x).state = .holding) (hslot : (s.ctx x).slot = none)
    (he : (s.ctx x).endPending = none) : ((finish v).ctx x).state = .idle ∧ ((finish v).ctx x).step = none ∧
      ((finish v).ctx x).site = none ∧ ((finish v).ctx x).net = none ∧ ((finish v).ctx x).target = none ∧
      ((finish v).ctx x).resume = .none := by
  obtain ⟨h1, h2, h3, -⟩ := h.stopped (.inl hstate)
  obtain ⟨w, hw, hctx, hrest, -⟩ := h.looked (Ctx.safeLooks_of (.inl hstate))
  have hidle : (poke w x).ctx x = (v.ctx x).idled := by
    rw [poke_holdingIdles hw.safe (by rw [hctx, h1]; exact hstate) (by rw [hctx, h2]; exact hslot) (by rw [hctx, h3]; exact he),
      toIdle_ctx, hctx]
  rw [hidle] at hrest
  rw [(hrest (.inl rfl)).rest]
  exact ⟨rfl, rfl, rfl, rfl, rfl, rfl⟩

theorem SafedFrom.arrived (h : SafedFrom s v x) (hstate : (s.ctx x).state = .releasing) (hslot : (s.ctx x).slot = none)
    (he : (s.ctx x).endPending = none) :
    ((s.ctx x).dest = .idle → ((finish v).ctx x).state = .idle ∧ ((finish v).ctx x).step = none ∧ ((finish v).ctx x).resume = .none) ∧
    ((s.ctx x).dest = .halted → ((finish v).ctx x).state = .halted ∧ ((finish v).ctx x).step = (s.ctx x).step ∧
      ((finish v).ctx x).resume = (s.ctx x).resume ∧ (finish v).trunk.attn.step = true) := by
  obtain ⟨h1, h2, h3, h4, h5, h6, h7⟩ := h.stopped (.inr hstate)
  obtain ⟨w, hw, hctx, hrest, hstep⟩ := h.looked (Ctx.safeLooks_of (.inr hstate))
  rw [poke_arrives (by rw [hctx, h1]; exact hstate) (by rw [hctx]; exact h7 hstate) (by rw [hctx, h2]; exact hslot)
    (by rw [hctx, h3]; exact he), arrive, hctx, h4] at hrest hstep
  refine ⟨fun hd => ?_, fun hd => ?_⟩ <;> rw [hd] at hrest hstep <;> dsimp only at hrest hstep
  · rw [toIdle_ctx, hctx] at hrest
    rw [(hrest (.inl rfl)).rest]
    exact ⟨rfl, rfl, rfl⟩
  · rw [enterHalted_ctx, hctx] at hrest
    have hr := (hrest (.inr rfl)).rest
    exact ⟨by rw [hr], by rw [hr]; exact h5, by rw [hr]; exact h6, hstep rfl⟩

theorem SafedFrom.resting (h : SafedFrom s v x) (hstate : (s.ctx x).state = .idle ∨ (s.ctx x).state = .halted ∨
    (s.ctx x).state = .suspended ∨ (s.ctx x).state = .tripped) :
    (finish v).ctx x = { s.ctx x with request := ((finish v).ctx x).request, source := ((finish v).ctx x).source } := by
  obtain ⟨q, src, hv⟩ := h.ctx
  have hnot : (s.ctx x).safeLooks = false ∧ (s.ctx x).state.working = false ∧ (s.ctx x).state ≠ .releasing := by
    rw [Ctx.safeLooks]
    rcases hstate with hs | hs | hs | hs <;> rw [hs] <;> exact ⟨rfl, rfl, nofun⟩
  obtain ⟨hlook, hwork, hrel⟩ := hnot
  rw [h.unseen hlook, hv]
  unfold Ctx.safed
  dsimp only
  rw [if_neg (by rw [hwork]; decide), if_neg hrel]

theorem SafedFrom.leaves (h : SafedFrom s v x) : SafeLeaves s (finish v) x := by
  refine ⟨fun hw hi => ⟨h.atSite hw hi, fun hm hu => ?_⟩, h.posted,
    fun hs => ⟨h.released hs, fun hslot => (h.slotStays (.inl hs) hslot).1.trans hs⟩,
    fun hs => ⟨h.arrived hs, fun hslot => ?_⟩, h.resting⟩
  · obtain ⟨l, hl⟩ := finish_sent v
    rw [hl]
    exact List.mem_append_left _ (h.cancel (by rw [Ctx.safeCancels, hm, hi]; rfl) hu)
  · obtain ⟨h1, h2⟩ := h.slotStays (.inr hs) hslot
    exact ⟨h1.trans hs, h2⟩

/-! ### The lid has opened -/

theorem lidOpened_from {s : State} (hq : Quiesced s) (x : Bus) : SafedFrom s (lidOpened s) x := by
  have hat := lidOpened_at s
  have hk := lidQuieted_keeps s
  have hlen := (lidOpened_calm hq).2
  obtain ⟨q, src, hcut⟩ := (lidQuieted_cutOff s).ctx x
  replace hcut : (lidQuieted s).ctx x = { s.ctx x with request := q, source := src } := hcut
  have hlook : ((lidQuieted s).ctx x).safeLooks = (s.ctx x).safeLooks := by rw [hcut]; rfl
  have hcancels : ((lidQuieted s).ctx x).safeCancels = (s.ctx x).safeCancels := by rw [hcut]; rfl
  have htag : ((lidQuieted s).ctx x).takeTag = (s.ctx x).takeTag := by rw [hcut]
  have hbus : (lidQuieted s).busEntry x = s.busEntry x := by rw [State.busEntry, hk.tables]; rfl
  have husable : (lidQuieted s).channelUsable x = s.channelUsable x := by
    unfold State.channelUsable State.laneHasInstrument State.lane
    rw [hbus, hk.lanes]
    rfl
  have hmem : x ∈ allBuses := List.mem_finRange x
  refine ⟨(lidOpened_calm hq).1, hlen.trans (by decide), ⟨q, src, ?_⟩, ?_, fun hc hu => ?_⟩
  · rw [lidOpened_ctx, hcut]
  · rw [lidOpened_eq, State.raise_mail, hat.mail, (lidQuieted_cutOff s).mail, show (lidSafe s).mail = [] from hq.2, ← hlook]
    refine ⟨fun hm => ?_, fun hl => .inr ⟨x, hmem, hl, rfl⟩⟩
    obtain ⟨y, -, hy, he⟩ := hm.resolve_left List.not_mem_nil
    rw [Mail.poke.inj he]
    exact hy
  · have hout := hat.cancels x hmem (hcancels.trans hc) (husable.trans hu)
    rw [hbus, htag] at hout
    rw [lidOpened_eq, State.raise_out]
    exact hout

theorem lidOpened_kept (s : State) : ∃ w, lidOpened s = w.raise .guard ∧ Keeps (fun _ => False) (lidSafe s) w :=
  ⟨_, lidOpened_eq s, lidOpened_keeps s⟩

theorem lidOpened_noMake (s : State) (x : Bus) : ∀ r, ((lidOpened s).ctx x).request ≠ some (.make r) := by
  have hno := lidQuieted_noMake s x
  rw [lidOpened_ctx]
  unfold Ctx.safed
  split
  · split <;> exact fun r => nofun
  · split
    · exact fun r => nofun
    · exact hno

/-- An emergency open stands through the consequences of a command that lets the bus make nothing (R35). -/
theorem EmergencyOpened.finish {o u : State} {x : Bus} (h : EmergencyOpened o u x) (ho : OpensFirst u) (hs : Shut True x u) :
    EmergencyOpened o (finish u) x := by
  have hrun : Run False True (fun _ => True) u (drain drainBound u) := .drain drainBound trivial (fun _ => trivial) .refl
  have hd : EmergencyOpened o (drain drainBound u) x := h.stands (fun p => hrun.sinks ho hs p) (fun _ => hrun.openingListed ho hs)
  have hmatrix : (Machine.finish u).matrix = (drain drainBound u).matrix := by
    rw [Machine.finish, pump_matrix, (panelCheck_only _).matrix]
  exact hd.atMatrix hmatrix

theorem lidOpened_emergency {s : State} (ho : OpensFirst s) (x : Bus) : EmergencyOpened s (finish (lidOpened s)) x := by
  have hquiet : Keeps (fun _ => False) (lidSafe s) (allBuses.foldl emergencyQuiet (lidSafe s)) ∧
      Run False False (fun _ => True) (lidSafe s) (allBuses.foldl emergencyQuiet (lidSafe s)) :=
    foldl_holds (P := fun u => Keeps (fun _ => False) (lidSafe s) u ∧ Run False False (fun _ => True) (lidSafe s) u)
      (fun _ y h => ⟨h.1.emergencyQuiet y, h.2.emergencyQuiet y trivial⟩) _ ⟨.refl _, .refl⟩
  have hapart : Apart x s (allBuses.foldl emergencyQuiet (lidSafe s)) := (lidSafe_apart s x).trans (.of_run hquiet.1 hquiet.2 (.inl id))
  have hopened := (foldl_emergencyOpen_opened allBuses (List.mem_finRange x) hapart).2 ho
  have hfirst : OpensFirst (lidQuieted s) := (lidQuieted_keeps s).opensFirst (s := lidSafe s) ho
  have hsafed : Keeps (fun _ => False) (lidQuieted s) (allBuses.foldl safeCtx (lidQuieted s)) ∧
      Run False False (fun _ => True) (lidQuieted s) (allBuses.foldl safeCtx (lidQuieted s)) :=
    foldl_holds (P := fun u => Keeps (fun _ => False) (lidQuieted s) u ∧ Run False False (fun _ => True) (lidQuieted s) u)
      (fun _ y h => ⟨h.1.safeCtx y, h.2.safeCtx y trivial⟩) _ ⟨.refl _, .refl⟩
  have hbar : (lidOpened s).barred x ≠ none := by
    obtain ⟨w, hw, hk⟩ := lidOpened_kept s
    rw [hw]
    exact barred_of_safe (s := w) (hk.safe rfl) x
  have hnoMake := lidOpened_noMake s x
  rw [lidOpened_eq] at hbar hnoMake ⊢
  change EmergencyOpened s (lidQuieted s) x at hopened
  generalize allBuses.foldl safeCtx (lidQuieted s) = w at hsafed hbar hnoMake ⊢
  obtain ⟨hk, hr⟩ := hsafed
  have hw : EmergencyOpened s (w.raise .guard) x :=
    hopened.stands (fun p => hr.sinks hfirst (.inl id) p) (fun _ => hr.openingListed hfirst (.inl id))
  exact hw.finish (hk.opensFirst hfirst) (.inr ⟨hbar, hnoMake⟩)

theorem lidOpened_sources (s : State) {x : Bus} (hk : (s.busEntry x).kind = .source) :
    ((finish (lidOpened s)).ctx x).source ≠ .live ∧ ((finish (lidOpened s)).ctx x).source ≠ .goingLive := by
  have h := lidOpened_notLive s hk
  have hsafe := (lidOpened_keeps s).safe (s := lidSafe s) rfl
  rw [lidOpened_eq, finish_ctx]
  generalize allBuses.foldl safeCtx (lidQuieted s) = w at h hsafe ⊢
  have hrun : Run False True (fun _ => True) (w.raise .guard) (drain drainBound (w.raise .guard)) := .drain drainBound trivial (fun _ => trivial) .refl
  exact hrun.notLive (barred_of_safe hsafe x) h

end Sys2Proof.Machine

namespace Sys2Proof

open Machine

/-- Settles O5: the entry into SAFE leaves looks alone to be done, and each bus's look reaches its own context (R88); the quiets and
the emergency opens come before, and nothing after them closes or makes (R35). -/
theorem lidOpeningMakesTheRackSafe : Obligations.LidOpeningMakesTheRackSafe := by
  unfold Obligations.LidOpeningMakesTheRackSafe
  intro s
  refine ⟨fun hlid => ?_, fun hlid => ?_⟩
  · have hexec : exec .lidOpens s = .next (finish (lidOpened s.begin)) := by
      show execLidOpens s = _
      unfold execLidOpens
      dsimp only
      rw [if_neg (by rw [show s.begin.guard.lidOpen = false from hlid]; decide)]
    have hnotWorking : ∀ x, ((lidOpened s.begin).ctx x).state.working = false := fun x => by
      rw [lidOpened_ctx]; exact Ctx.safed_notWorking _
    have hemergency := fun (ho : OpensFirst s.begin) x => lidOpened_emergency ho x
    have hsources := fun x (hx : (s.begin.busEntry x).kind = .source) => lidOpened_sources s.begin hx
    have hleaves := fun (hq : Quiesced s.begin) x => (lidOpened_from hq x).leaves
    have hraised : (lidOpened s.begin).trunk.attn.guard = true := by rw [lidOpened_eq]; rfl
    obtain ⟨w, hw, hkeep⟩ := lidOpened_kept s.begin
    have hguard : (lidOpened s.begin).guard = { s.guard with rack := .safe .interlock, interlock := .opn, lidOpen := true } := by
      rw [hw]; exact hkeep.guard
    have hstores : LeavesStores s (lidOpened s.begin) := by rw [hw]; exact hkeep.leaves
    have hready : (lidOpened s.begin).isReady = false := by rw [State.isReady, hguard]; rfl
    have hqueues : ∀ x, ((lidOpened s.begin).ctx x).queue = (s.ctx x).queue := fun x => by
      rw [hw]; exact hkeep.queuesStay (s := lidSafe s.begin) rfl x
    refine ⟨_, hexec, (finish_guard _).trans hguard, hstores.trans (finish_leaves _), finish_guardClass hraised, fun x => ?_,
      fun x => (finish_queuesStay _ hready x).trans (hqueues x), hemergency, hsources, hleaves⟩
    rw [finish_ctx]
    exact drain_notWorking drainBound hready hnotWorking x
  · show execLidOpens s = _
    unfold execLidOpens
    dsimp only
    rw [if_pos (show s.begin.guard.lidOpen = true from hlid)]
    rfl

end Sys2Proof
end

