-- ==== Sys2Proof/Proofs/DeadCards.lean ====
section
/-!
PROOFS. A card whose lane has left ACTIVE stays as the loss left it to the end of the command (R39): no order, its crosspoints
UNKNOWN; and the source records of a lost instrument lane stay UNSURE (R53).
-/

namespace Sys2Proof.Machine

variable {L C : Prop} {Y : Bus → Prop} {s t : State} {c : CardId}

/-! ### Orders keep to their cards (R14, R21) -/

/-- Listed orders, targets and make requests keep to one card. -/
structure KeepsToCards (s : State) : Prop where
  listed : ∀ d, ∀ o ∈ (s.card d).priority ++ (s.card d).ordinary, ∀ p ∈ o.points, cardOf p = d
  oneCard : ∀ x, (s.ctx x).OneCard

theorem KeepsToCards.sameCards (h : KeepsToCards s) (hc : t.matrix.cards = s.matrix.cards) (hx : ∀ x, (t.ctx x).OneCard) : KeepsToCards t where
  listed := fun d => by rw [State.card, hc]; exact h.listed d
  oneCard := hx

theorem KeepsToCards.setCtx (h : KeepsToCards s) (x : Bus) (c' : Ctx) (hc : (s.ctx x).OneCard → c'.OneCard) : KeepsToCards (s.setCtx x c') :=
  h.sameCards rfl (fun y => by
    rw [State.ctx_setCtx]
    split
    · next e => subst e; exact hc (h.oneCard _)
    · exact h.oneCard y)

theorem KeepsToCards.modXps (h : KeepsToCards s) (x : Bus) (ps : List Pt) (f : XRec → XRec) : KeepsToCards (s.modXps x ps f) :=
  h.sameCards (by rw [State.modXps_eq]) (fun y => by rw [State.modXps_eq]; exact h.oneCard y)

theorem KeepsToCards.setCard (h : KeepsToCards s) (d : CardId) (k : CardCtl)
    (hk : ∀ o ∈ k.priority ++ k.ordinary, o ∈ (s.card d).priority ++ (s.card d).ordinary ∨ ∀ p ∈ o.points, cardOf p = d) :
    KeepsToCards (s.setCard d k) where
  listed := fun e o ho => by
    rw [State.card_setCard] at ho
    split at ho
    · next he =>
      subst he
      exact (hk o ho).elim (h.listed _ o) id
    · exact h.listed e o ho
  oneCard := h.oneCard

theorem KeepsToCards.sendOrder (h : KeepsToCards s) (d : CardId) (o : Order) : KeepsToCards (Machine.sendOrder s d o) where
  listed := fun e => by
    rw [sendOrder_card]
    split
    · next he => subst he; exact h.listed d
    · exact h.listed e
  oneCard := fun x => by rw [State.ctx, sendOrder_ctxs]; exact h.oneCard x

/-- Orders that leave a list leave the others. -/
theorem CardCtl.Pops.fewer {k k' : CardCtl} {o : Order} (h : k.Pops o k') :
    o ∈ k.priority ++ k.ordinary ∧ ∀ q ∈ k'.priority ++ k'.ordinary, q ∈ k.priority ++ k.ordinary := by
  rcases h with ⟨rest, hp, rfl⟩ | ⟨-, -, rest, hp, rfl⟩
  · rw [hp]
    exact ⟨by simp, fun q hq => List.mem_cons_of_mem _ hq⟩
  · rw [hp]
    refine ⟨by simp, fun q hq => ?_⟩
    simp only [List.mem_append, List.mem_cons] at hq ⊢
    tauto

theorem Move.keepsToCards (h : Move True C Y s t) (hs : KeepsToCards s) : KeepsToCards t := by
  cases h with
  | plain _ h => exact hs.sameCards (by rw [h]) (fun x => by rw [h]; exact hs.oneCard x)
  | emit l f _ => exact hs.sameCards rfl hs.oneCard
  | source x v _ _ _ => exact hs.setCtx x _ id
  | goLive x _ _ _ _ =>
    have hsent : KeepsToCards (s.emit (s.busEntry x).lane (.live (s.busEntry x).channel)) := hs.sameCards rfl hs.oneCard
    exact hsent.setCtx x { s.ctx x with source := .goingLive } id
  | ctx x c' _ h => exact hs.setCtx x c' h.oneCard
  | request x r hr =>
    refine hs.setCtx x _ (fun hone => ⟨hone.1, fun q hq => ?_⟩)
    rcases hr with rfl | ⟨q', w, hq', rfl⟩ | ⟨_, _, _, rfl⟩
    · cases hq
    · cases hq; exact hone.2 q' hq'
    · cases hq
  | unblock x _ => exact hs.setCtx x _ id
  | unreserve x ps => exact hs.modXps x ps _
  | reserve x ps _ _ _ => exact hs.modXps x _ _
  | mark x ps _ => exact hs.modXps x ps _
  | shrink d k h =>
    refine hs.setCard d k (fun o ho => .inl ?_)
    rw [List.mem_append] at ho ⊢
    exact ho.imp (fun h' => h.priority ▸ h') (fun h' => h.ordinary.subset h')
  | list d o _ hp _ =>
    refine hs.setCard d _ (fun q hq => ?_)
    rw [← List.append_assoc, List.mem_append, List.mem_singleton] at hq
    rcases hq with hq | rfl
    · exact .inl hq
    · exact .inr (hp hs.oneCard)
  | listFirst d l o _ hl hp _ =>
    refine hs.setCard d _ (fun q hq => ?_)
    rw [List.mem_append, hl] at hq
    rcases hq with (hq | rfl) | hq
    · exact .inl (List.mem_append_left _ hq)
    · exact .inr (hp trivial)
    · exact .inl (List.mem_append_right _ hq)
  | drop d k o _ h _ => exact hs.setCard d k (fun q hq => .inl (h.fewer.2 q hq))
  | sendOpen d k o _ h => exact (hs.setCard d k (fun q hq => .inl (h.fewer.2 q hq))).sendOrder d _
  | sendMake d o rest _ _ h _ _ =>
    refine (hs.setCard d _ (fun q hq => .inl ?_)).sendOrder d o
    simp only [List.mem_append, h, List.mem_cons] at hq ⊢
    tauto
  | verdict u row v => exact hs.sameCards rfl hs.oneCard

/-! ### A card that is not usable -/

/-- Card `c` is not usable and has no orders, and the orders of the others keep to their cards. -/
structure Dead (s : State) (c : CardId) : Prop where
  usable : s.cardUsable c = false
  idle : (s.card c).idle = true
  keeps : KeepsToCards s

theorem CardCtl.Pops.notIdle {k k' : CardCtl} {o : Order} (h : k.Pops o k') : k.idle = false := by
  rcases h with ⟨rest, hp, -⟩ | ⟨-, -, rest, hp, -⟩ <;> simp [CardCtl.idle, hp]

theorem Dead.notServed (h : Dead s c) {d : CardId} (hd : CardServes s d) : d ≠ c := by
  rintro rfl
  rcases hd with hd | hd
  · rw [h.usable] at hd; cases hd
  · rw [h.idle] at hd; cases hd

theorem Dead.notPopped (h : Dead s c) {d : CardId} {o : Order} {k : CardCtl} (hp : (s.card d).Pops o k) : d ≠ c :=
  h.notServed (.inr hp.notIdle)

theorem Move.idle (h : Move True C Y s t) (hs : Dead s c) : (t.card c).idle = true := by
  have hset : ∀ (d : CardId) k, d ≠ c → ((s.setCard d k).card c).idle = true := fun d k hd => by
    rw [State.card_setCard, if_neg hd]; exact hs.idle
  have hsend : ∀ (d : CardId) k o, d ≠ c → ((sendOrder (s.setCard d k) d o).card c).idle = true := fun d k o hd => by
    rw [sendOrder_card, if_neg hd]; exact hset d k hd
  cases h with
  | plain _ h => rw [h]; exact hs.idle
  | unreserve x ps => rw [State.modXps_eq]; exact hs.idle
  | reserve x ps _ _ _ => rw [State.reserve, State.modXps_eq]; exact hs.idle
  | mark x ps _ => rw [State.modXps_eq]; exact hs.idle
  | shrink d k h =>
    rw [State.card_setCard]
    split
    · next e =>
      subst e
      obtain ⟨h1, h2, h3⟩ := (CardCtl.idle_iff _).1 hs.idle
      refine (CardCtl.idle_iff _).2 ⟨?_, h.priority.trans h2, List.sublist_nil.1 (h3 ▸ h.ordinary)⟩
      rcases h.pending with he | ⟨q', hq', _⟩
      · exact he.trans h1
      · rw [h1] at hq'; cases hq'
    · exact hs.idle
  | list d o _ _ hu => exact hset d _ (hs.notServed hu)
  | listFirst d l o _ _ _ hu => exact hset d _ (hs.notServed (hu trivial))
  | drop d k o _ h _ => exact hset d k (hs.notPopped h)
  | sendOpen d k o _ h => exact hsend d k _ (hs.notPopped h)
  | sendMake d o rest _ _ h _ _ => exact hsend d _ o (hs.notServed (.inr (by simp [CardCtl.idle, h])))
  | _ => exact hs.idle

theorem Move.dead (h : Move True C Y s t) (hs : Dead s c) : Dead t c where
  usable := (Run.cardUsable (.single h) c).trans hs.usable
  idle := h.idle hs
  keeps := h.keepsToCards hs.keeps

/-- Card `c` sends nothing while the command lasts: it is dead, or its pending order stands. -/
def Still (s : State) (c : CardId) : Prop := Dead s c ∨ ((s.card c).pending.isSome = true ∧ KeepsToCards s)

theorem Still.keeps (h : Still s c) : KeepsToCards s := h.elim Dead.keeps And.right

theorem Still.notSent (h : Still s c) {d : CardId} (hp : (s.card d).pending = none) (hi : (s.card d).idle = false) : d ≠ c := by
  rintro rfl
  rcases h with h | ⟨h, -⟩
  · rw [h.idle] at hi; cases hi
  · rw [hp] at h; cases h

theorem Move.pendingStays (h : Move L C Y s t) (hs : (s.card c).pending.isSome = true) : (t.card c).pending.isSome = true := by
  have hset : ∀ (d : CardId) k, (d = c → k.pending.isSome = true) → ((s.setCard d k).card c).pending.isSome = true := fun d k hd => by
    rw [State.card_setCard]
    split
    · next e => exact hd e
    · exact hs
  cases h with
  | plain _ h => rw [h]; exact hs
  | unreserve x ps => rw [State.modXps_eq]; exact hs
  | reserve x ps _ _ _ => rw [State.reserve, State.modXps_eq]; exact hs
  | mark x ps _ => rw [State.modXps_eq]; exact hs
  | shrink d k h =>
    refine hset d k (fun e => ?_)
    subst e
    rcases h.pending with he | ⟨q, -, he⟩
    · rw [he]; exact hs
    · rw [he]; rfl
  | list d o _ _ _ => exact hset d _ (fun e => by subst e; exact hs)
  | listFirst d l o _ _ _ _ => exact hset d _ (fun e => by subst e; exact hs)
  | drop d k o hp h _ => exact hset d k (fun e => by subst e; rw [hp] at hs; cases hs)
  | sendOpen d k o _ _ =>
    rw [sendOrder_card]
    split
    · rfl
    · next hd => exact hset d k (fun e => absurd e hd)
  | sendMake d o rest _ _ _ _ _ =>
    rw [sendOrder_card]
    split
    · rfl
    · next hd => exact hset d _ (fun e => absurd e hd)
  | _ => exact hs

theorem Move.still (h : Move True C Y s t) (hs : Still s c) : Still t c :=
  hs.imp h.dead (fun ⟨hp, hk⟩ => ⟨h.pendingStays hp, h.keepsToCards hk⟩)

/-- A crosspoint that its card has lost (R39), or that an order has lost (R25). -/
def XRec.Lost (r : XRec) : Prop := r.state = .unknown ∧ r.mark = false

theorem Move.staysLost (h : Move True C Y s t) (hs : Still s c) {x : Bus} {p : Pt} (hp : cardOf p = c) (hl : (s.xp x p).Lost) :
    (t.xp x p).Lost := by
  have hsent : ∀ (d : CardId) k o, d ≠ c → (∀ q ∈ o.points, cardOf q = d) → ((sendOrder (s.setCard d k) d o).xp x p).Lost :=
    fun d k o hd ho => by
      rw [sendOrder_xp_ne _ _ _ (.inr (fun hm => hd ((ho p hm).symm.trans hp)))]
      exact hl
  cases h with
  | plain _ h => rw [h]; exact hl
  | unreserve y ps =>
    refine State.xp_modXps_keeps (P := XRec.Lost) _ _ _ _ (fun r hr => ?_) _ hl
    rw [XRec.unreserved, hr.1]
    exact hr
  | reserve y ps _ _ _ =>
    refine (State.xp_modXps_ne _ _ ?_).symm ▸ hl
    refine or_iff_not_imp_left.2 (fun e hm => ?_)
    have hfree := pointFree_iff.1 (List.mem_filter.1 hm).2 x
    rw [claimed_iff.2 (by rw [hl.1]; decide)] at hfree
    cases hfree
  | mark y ps hm =>
    refine (State.xp_modXps_ne _ _ ?_).symm ▸ hl
    refine or_iff_not_imp_left.2 (fun e hin => ?_)
    have hmoving := hm p hin
    rw [not_not.1 e, hl.1] at hmoving
    rcases hmoving with h | h <;> cases h
  | sendOpen d k o hp h =>
    exact hsent d k _ (hs.notSent hp h.notIdle) (fun q hq => hs.keeps.listed d o h.fewer.1 q (by
      unfold Order.leftToOpen at hq
      exact (List.mem_filter.1 hq).1))
  | sendMake d o rest _ hp h _ _ =>
    exact hsent d _ o (hs.notSent hp (by simp [CardCtl.idle, h])) (hs.keeps.listed d o (by simp [h]))
  | _ => exact hl

theorem Run.dead (h : Run True C Y s t) (hs : Dead s c) : Dead t c := h.keeps (P := fun u => Dead u c) (fun _ _ m hu => m.dead hu) hs

theorem Run.keepsToCards (h : Run True C Y s t) (hs : KeepsToCards s) : KeepsToCards t :=
  h.keeps (P := KeepsToCards) (fun _ _ m hu => m.keepsToCards hu) hs

theorem Run.staysLost (h : Run True C Y s t) (hs : Still s c) {x : Bus} {p : Pt} (hp : cardOf p = c) (hl : (s.xp x p).Lost) :
    (t.xp x p).Lost :=
  (h.keeps (P := fun u => Still u c ∧ (u.xp x p).Lost) (fun _ _ m hu => ⟨m.still hu.1, m.staysLost hu.1 hp hu.2⟩) ⟨hs, hl⟩).2

/-! ### The records of a lost instrument lane (R48, R53) -/

theorem Move.unsure (h : Move L C Y s t) {x : Bus} (hu : s.channelUsable x = false) (hs : (s.ctx x).source = .unsure) :
    (t.ctx x).source = .unsure := by
  have hset : ∀ (u : State) y (f : Ctx), u.ctx x = s.ctx x → (y = x → f.source = .unsure) → ((u.setCtx y f).ctx x).source = .unsure :=
    fun u y f e hf => by
      rw [State.ctx_setCtx]
      split
      · next e' => exact hf e'
      · rw [e]; exact hs
  cases h with
  | plain _ h => rw [h]; exact hs
  | source y v _ _ hv =>
    refine hset s y _ rfl (fun e => ?_)
    subst e
    rcases hv with ⟨-, hy⟩ | rfl
    · rw [hu] at hy; cases hy
    · rfl
  | goLive y _ _ hq _ => exact hset _ y _ rfl (fun e => by subst e; rw [hs] at hq; cases hq)
  | ctx y c' _ h => exact hset s y c' rfl (fun e => by subst e; rw [h.source]; exact hs)
  | request y r _ => exact hset s y _ rfl (fun e => by subst e; exact hs)
  | unblock y _ => exact hset s y _ rfl (fun e => by subst e; exact hs)
  | unreserve y ps => rw [State.modXps_eq]; exact hs
  | reserve y ps _ _ _ => rw [State.reserve, State.modXps_eq]; exact hs
  | mark y ps _ => rw [State.modXps_eq]; exact hs
  | sendOpen d k o _ _ => rw [State.ctx, sendOrder_ctxs]; exact hs
  | sendMake d o rest _ _ _ _ _ => rw [State.ctx, sendOrder_ctxs]; exact hs
  | _ => exact hs

theorem channelUsable_congr (ht : t.tables = s.tables) (hl : t.lanes = s.lanes) (x : Bus) : t.channelUsable x = s.channelUsable x := by
  unfold State.channelUsable State.laneHasInstrument State.lane State.busEntry
  rw [ht, hl]

theorem Run.unsure (h : Run L C Y s t) {x : Bus} (hu : s.channelUsable x = false) (hs : (s.ctx x).source = .unsure) :
    (t.ctx x).source = .unsure :=
  (h.keeps (P := fun u => u.channelUsable x = false ∧ (u.ctx x).source = .unsure) (fun _ _ m hv =>
    ⟨(channelUsable_congr (Run.frame (.single m)).1 (Run.frame (.single m)).2.1 x).trans hv.1, m.unsure hv.1 hv.2⟩) ⟨hu, hs⟩).2

end Sys2Proof.Machine
end

