-- ==== Sys2Proof/Proofs/WorkBounds.lean ====
section
/-!
PROOFS. No operation of a context leaves more than a bounded amount of work behind, so that what is told first is done while the
bound of a command's consequences lasts (log 6).
-/

-- One proof after another: in the joined text each worker would hold a stack of its own.
set_option Elab.async false

namespace Sys2Proof.Machine

/-- At most `n` pieces of work are left behind, mail is told at the end, and no card with an order to send is left waiting to be
looked at. -/
structure Grows (n : Nat) (s t : State) : Prop where
  work : t.matrixWork.length ≤ s.matrixWork.length + n
  sends : SendsIdle s → SendsIdle t
  mail : ∃ l, t.mail = s.mail ++ l

variable {s t u : State}

theorem Grows.refl (s : State) : Grows 0 s s := ⟨Nat.le_refl _, id, [], (List.append_nil _).symm⟩

theorem Grows.trans {n m : Nat} (h : Grows n s t) (h' : Grows m t u) : Grows (n + m) s u where
  work := by have h1 := h.work; have h2 := h'.work; omega
  sends := h'.sends ∘ h.sends
  mail := by
    obtain ⟨l, hl⟩ := h.mail
    obtain ⟨l', hl'⟩ := h'.mail
    exact ⟨l ++ l', by rw [hl', hl, List.append_assoc]⟩

theorem Grows.mono {n m : Nat} (h : Grows n s t) (hn : n ≤ m) : Grows m s t :=
  ⟨Nat.le_trans h.work (Nat.add_le_add_left hn _), h.sends, h.mail⟩

/-- The work, the cards and the mail stand. -/
theorem Grows.quiet (hw : t.matrixWork = s.matrixWork) (hc : t.matrix.cards = s.matrix.cards) (hm : t.mail = s.mail) : Grows 0 s t where
  work := by rw [hw]; exact Nat.le_refl _
  sends := fun h d hd => by
    rw [hw] at hd
    rw [State.card, hc]
    exact h d hd
  mail := ⟨[], by rw [hm, List.append_nil]⟩

theorem Grows.post (s : State) (m : Mail) : Grows 0 s (s.post m) := ⟨Nat.le_refl _, id, [m], rfl⟩

theorem Grows.emit (s : State) (l : LaneId) (f : LaneFrame) : Grows 0 s (s.emit l f) := .quiet rfl rfl rfl

theorem Grows.markHigh (s : State) (v : Bool) : Grows 0 s { s with markHigh := v } := .quiet rfl rfl rfl

theorem Grows.setSource (s : State) (x : Bus) (v : SrcState) : Grows 0 s (s.setSource x v) := .quiet rfl rfl rfl

theorem Grows.modCtx (s : State) (x : Bus) (f : Ctx → Ctx) : Grows 0 s (s.modCtx x f) := .quiet rfl rfl rfl

/-- What grows by nothing comes first. -/
theorem Grows.after {n : Nat} (h' : Grows n t u) (h : Grows 0 s t) : Grows n s u := (h.trans h').mono (by omega)

theorem Grows.still {n : Nat} (h : Grows 0 s t) : Grows n s t := h.mono (Nat.zero_le n)

theorem Places.grows {n : Nat} (h : Places n s t) : Grows n s t := ⟨h.work, h.sends, h.mail⟩

theorem OnlyLooks.grows {x : Bus} (h : OnlyLooks s t x) : Grows 0 s t where
  work := by rw [h.work]; exact Nat.le_refl _
  sends := fun hs d hd => by
    rw [h.work] at hd
    rw [State.card, h.matrix]
    exact hs d hd
  mail := by
    obtain ⟨l, hl, -⟩ := h.mail
    exact ⟨l, hl⟩

/-! ### Withdrawals and requests -/

theorem CardCtl.Shrunk.staysIdle {k k' : CardCtl} (h : k.Shrunk k') (hk : k.pending ≠ none ∨ k.idle = true) :
    k'.pending ≠ none ∨ k'.idle = true := by
  rcases h.pending with hp | ⟨q, -, hp⟩
  · refine hk.imp (fun hn => by rw [hp]; exact hn) (fun hi => ?_)
    obtain ⟨h1, h2, h3⟩ := (CardCtl.idle_iff _).1 hi
    exact (CardCtl.idle_iff _).2 ⟨hp.trans h1, h.priority.trans h2, List.sublist_nil.1 (h3 ▸ h.ordinary)⟩
  · exact .inl (by rw [hp]; nofun)

theorem Grows.modCards (s : State) {f : CardCtl → CardCtl} (hf : ∀ k : CardCtl, k.Shrunk (f k)) : Grows 0 s (s.modCards f) :=
  foldl_holds (f := fun s c => s.setCard c (f (s.card c))) (P := fun u => Grows 0 s u)
    (fun u c hu => hu.trans (Places.setCard (hf (u.card c)).staysIdle).grows) allCards (.refl s)

theorem Grows.withdrawMake (s : State) (x : Bus) : Grows 256 s (withdrawMake s x) := by
  unfold Machine.withdrawMake
  split
  · exact ((Places.returnReservations _ x).grows.after (Grows.modCards _ (fun k => k.shrunk_without x _))).after (.modCtx s x _)
  · exact (Grows.refl s).still

theorem Grows.endSite (s : State) (x : Bus) (cause : Cause) : Grows 256 s (endSite s x cause) := by
  have hend : ∀ u, Grows 256 s u → Grows 256 s (((Machine.judgeInvalid u x cause).modCtx x
      (fun c => if c.request.isNone then { c with state := .posting } else c)).post (.poke x)) := fun u hu =>
    ((hu.trans (OnlyLooks.judgeInvalid u x cause).grows).trans (.modCtx _ x _)).trans (.post _ _)
  unfold Machine.endSite
  dsimp only
  refine hend _ ?_
  split
  · exact .withdrawMake s x
  · exact .withdrawMake s x
  · exact (Grows.modCtx s x _).still
  · unfold cancelTake
    dsimp only
    split
    · exact ((Grows.emit s _ _).trans (.modCtx _ x _)).still
    · exact (Grows.modCtx s x _).still
  · exact (Grows.refl s).still

theorem Grows.quietRequest (s : State) (x : Bus) : Grows 0 s (quietRequest s x).1 := by
  unfold Machine.quietRequest
  split
  · exact .refl s
  · split
    · exact .refl s
    · exact .refl s
    · exact .refl s
    all_goals
      split
      · exact (Grows.emit s _ _).trans (.setSource _ x _)
      · exact .setSource s x _

theorem Grows.liveRequest (s : State) (x : Bus) : Grows 0 s (liveRequest s x).1 := by
  unfold Machine.liveRequest
  split
  · exact .refl s
  · split
    · split
      · exact (Grows.emit s _ _).trans (.setSource _ x _)
      · exact .refl s
    all_goals exact .refl s

theorem Grows.makeRequest (s : State) (x : Bus) (tg : Target) : Grows 600 s (makeRequest s x tg).1 := by
  unfold Machine.makeRequest
  split
  · exact (Grows.refl s).still
  · dsimp only
    have hreserve : Grows 0 s (s.reserve x tg.points) := (Places.reserve s x tg.points).grows
    split
    · exact hreserve.still
    · split
      · have hplace := (Places.placeMake ((s.reserve x tg.points).modCtx x (fun k => { k with
            request := some (.make ⟨cardOfBlock tg.block, tg.points, tg.points.filter (fun p => (s.xp x p).state == .opn && !s.pointFree p)⟩) }))
          x (cardOfBlock tg.block) tg.points).grows.after (hreserve.trans (.modCtx _ x _))
        split
        all_goals (rename_i hq; rw [hq] at hplace; exact hplace)
      · dsimp only
        exact (hreserve.trans (.modCtx _ x _)).still

theorem Grows.opensRequest (s : State) (x : Bus) {ps : List Pt} (h : ps.length ≤ 256) : Grows 2304 s (opensRequest s x ps) :=
  (Places.opensRequest s x h).grows

/-! ### The site sequence -/

/-- A judged site's context is POSTING and looks. -/
theorem Grows.posts (s : State) (x : Bus) (cause : Cause) :
    Grows 0 s (((judgeInvalid s x cause).modCtx x (fun c => { c with state := .posting })).post (.poke x)) :=
  ((OnlyLooks.judgeInvalid s x cause).grows.trans (.modCtx _ x _)).trans (.post _ _)

theorem Grows.enterMeasuring (s : State) (x : Bus) : Grows 0 s (enterMeasuring s x) := by
  unfold Machine.enterMeasuring
  split
  · split
    · dsimp only
      have h1 := fun f l fr => (Grows.modCtx s x f).trans (.emit _ l fr)
      split
      · exact (Grows.markHigh _ _).after (h1 _ _ _)
      · exact h1 _ _ _
    · exact .posts s x _
  · exact .refl s

theorem Grows.enterHolding (s : State) (x : Bus) : Grows 0 s (enterHolding s x) := (Grows.modCtx s x _).trans (.post _ _)

theorem Grows.afterLive (s : State) (x : Bus) : Grows 0 s (afterLive s x) := by
  unfold Machine.afterLive
  split
  · exact .enterHolding s x
  · exact .enterMeasuring s x

theorem Grows.enterRestoring (s : State) (x : Bus) : Grows 256 s (enterRestoring s x) := by
  unfold Machine.enterRestoring
  dsimp only
  have h1 := (Grows.modCtx s x (fun c => { c with state := .restoring })).trans (Grows.liveRequest _ x)
  split
  all_goals (rename_i hq; rw [hq] at h1)
  · exact (h1.trans (.afterLive _ x)).still
  · exact (Grows.endSite _ x _).after h1
  · exact h1.still
  · exact (h1.trans (.modCtx _ x _)).still

theorem Grows.afterSettle (s : State) (x : Bus) : Grows 256 s (afterSettle s x) := by
  unfold Machine.afterSettle
  dsimp only
  split
  · exact (Grows.enterRestoring _ x).after (.modCtx s x _)
  · exact ((Grows.modCtx s x _).trans (.afterLive _ x)).still

theorem Grows.settleDecision (s : State) (x : Bus) (stood : Bool) : Grows 256 s (settleDecision s x stood) := by
  unfold Machine.settleDecision
  dsimp only
  split
  · exact .afterSettle s x
  · have h1 := fun settle : Nat => Grows.modCtx s x (fun c => { c with state := .settling, settleTimer := some settle })
    split
    all_goals
      split
      · exact (Grows.afterSettle _ x).after (h1 _)
      · exact (h1 _).still

theorem Grows.askMake (s : State) (x : Bus) : Grows 856 s (askMake s x) := by
  unfold Machine.askMake
  split
  · exact (Grows.refl s).still
  · next tg _ =>
    dsimp only
    have h1 := (Grows.makeRequest _ x tg).after (.modCtx s x (fun c => { c with state := .making }))
    split
    all_goals (rename_i hq; rw [hq] at h1)
    · exact h1.mono (by omega)
    · exact h1.trans (.endSite _ x _)
    · exact h1.trans (.settleDecision _ x _)
    · exact (h1.trans (.modCtx _ x _)).mono (by omega)
    · exact h1.mono (by omega)

theorem length_breakSet (s : State) (x : Bus) : (breakSet s x).length ≤ 256 := by
  unfold breakSet
  split
  · exact (List.length_filter_le _ _).trans (length_claims s x)
  · exact Nat.zero_le _

theorem Grows.enterBreaking (s : State) (x : Bus) : Grows 2304 s (enterBreaking s x) :=
  (Grows.opensRequest (s.modCtx x (fun c => { c with state := .breaking })) x (length_breakSet _ x)).after (.modCtx s x _)

theorem Grows.afterQuiet (s : State) (x : Bus) : Grows 2304 s (afterQuiet s x) := by
  unfold Machine.afterQuiet
  split
  · exact (Grows.askMake s x).mono (by omega)
  · exact .enterBreaking s x

theorem Grows.enterQuieting (s : State) (x : Bus) : Grows 2304 s (enterQuieting s x) := by
  unfold Machine.enterQuieting
  dsimp only
  have h1 := (Grows.modCtx s x (fun c => { c with state := .quieting })).trans (Grows.quietRequest _ x)
  split
  all_goals (rename_i hq; rw [hq] at h1)
  · exact (h1.trans (.modCtx _ x _)).still
  · exact ((Grows.endSite _ x _).after h1).mono (by omega)
  · exact (Grows.afterQuiet _ x).after h1

theorem Grows.startSite (s : State) (x : Bus) (u : Site) : Grows 2304 s (startSite s x u) := by
  unfold Machine.startSite
  split
  · exact (Grows.refl s).still
  · split
    · exact (Grows.refl s).still
    · dsimp only
      split
      · exact ((Grows.modCtx s x _).trans (.posts _ x _)).still
      · have h2 := fun f g => (Grows.modCtx s x f).trans (.modCtx _ x g)
        split
        · exact ((Grows.settleDecision _ x _).after (h2 _ _)).mono (by omega)
        · split
          · exact (Grows.enterQuieting _ x).after (h2 _ _)
          · exact (Grows.afterQuiet _ x).after (h2 _ _)

/-! ### Sweeps, releases and the end of a step -/

theorem Grows.sweepEnds (s : State) (x : Bus) (k : EndKind) : Grows 0 s (sweepEnds s x k) := (Grows.modCtx s x _).trans (.post _ _)

theorem Grows.nextSite (s : State) (x : Bus) : Grows 2304 s (nextSite s x) := by
  unfold Machine.nextSite
  dsimp only
  split
  · exact (Grows.startSite _ x _).after (.modCtx s x _)
  · exact ((Grows.modCtx s x _).trans (.sweepEnds _ x _)).still

theorem Grows.askRelease (s : State) (x : Bus) : Grows 2304 s (askRelease s x) := .opensRequest s x (length_claims s x)

theorem Grows.enterReleasing (s : State) (x : Bus) (d : Dest) : Grows 2304 s (enterReleasing s x d) := by
  unfold Machine.enterReleasing
  dsimp only
  have h1 := (Grows.modCtx s x (fun c =>
    { c with state := .releasing, dest := d, relDone := false, after := .none, lastOk := false, inFlight := none })).trans
    (Grows.quietRequest _ x)
  split
  all_goals (rename_i hq; rw [hq] at h1)
  · exact (h1.trans (.modCtx _ x _)).still
  · exact (Grows.askRelease _ x).after (h1.trans (OnlyLooks.releaseFails _ x _).grows)
  · exact (Grows.askRelease _ x).after h1

theorem Grows.loseHold (s : State) (x : Bus) : Grows 2304 s (loseHold s x) := (Grows.enterReleasing _ x _).after (.quiet rfl rfl rfl)

theorem Grows.endStep (s : State) (x : Bus) : Grows 2304 s (endStep s x) := by
  unfold Machine.endStep
  split
  · split
    · exact (Grows.enterHolding s x).still
    · exact .enterReleasing s x _
  · exact .enterReleasing s x _

theorem Grows.goOn (s : State) (x : Bus) (a : Action) : Grows 2304 s (goOn s x a) := by
  unfold Machine.goOn
  split
  · exact (Grows.enterReleasing _ x _).after (.modCtx s x _)
  · split
    · exact .nextSite s x
    · exact .endStep s x

theorem Grows.beginSweep (s : State) (x : Bus) (w : Sweep) : Grows 2304 s (beginSweep s x w) := (Grows.nextSite _ x).after (.modCtx s x _)

theorem Grows.continueSweep (s : State) (x : Bus) (n : Nat) : Grows 2304 s (continueSweep s x n) := by
  unfold Machine.continueSweep
  dsimp only
  split
  · exact .beginSweep s x _
  · exact .beginSweep s x _
  · exact (Grows.sweepEnds s x _).still
  all_goals exact ((Grows.modCtx s x _).trans (.sweepEnds _ x _)).still

theorem Grows.takeHead (s : State) (x : Bus) : Grows 2304 s (takeHead s x) := by
  unfold Machine.takeHead
  split
  · exact (Grows.refl s).still
  · dsimp only
    split
    · exact (Grows.enterReleasing _ x _).after (.modCtx s x _)
    · exact (Grows.startSite _ x _).after (.modCtx s x _)
    · exact (Grows.startSite _ x _).after (.modCtx s x _)
    · exact (Grows.beginSweep _ x _).after (.modCtx s x _)
    · exact (Grows.continueSweep _ x _).after (.modCtx s x _)

theorem Grows.toIdle (s : State) (x : Bus) : Grows 0 s (toIdle s x) := (Grows.modCtx s x _).trans (.post _ _)

theorem Grows.enterHalted (s : State) (x : Bus) : Grows 0 s (enterHalted s x) := (Grows.modCtx s x _).trans (OnlyLooks.raise _ x .step).grows

theorem Grows.leaveTripped (s : State) (x : Bus) : Grows 2304 s (leaveTripped s x) := by
  unfold Machine.leaveTripped
  split
  · split
    · exact .nextSite s x
    · exact (Grows.modCtx s x _).still
  · exact ((Grows.modCtx s x _).trans (.enterHalted _ x)).still
  · exact (Grows.toIdle s x).still

theorem Grows.poke (s : State) (x : Bus) : Grows 2304 s (poke s x) := by
  have h1 : Grows 0 s (placeEnd s x) := (OnlyLooks.placeEnd s x).grows
  unfold Machine.poke
  dsimp only
  generalize placeEnd s x = u at h1
  have hstill : Grows 2304 s u := h1.still
  split
  · split
    · exact (Grows.takeHead u x).after h1
    · exact hstill
  · split
    · split
      · exact (h1.trans (.toIdle u x)).still
      · exact hstill
    · split
      · exact (Grows.takeHead u x).after h1
      · exact hstill
  · split
    · exact (h1.trans (OnlyLooks.arrive u x).grows).still
    · exact hstill
  · split
    · split
      · exact (h1.trans (.toIdle u x)).still
      · exact hstill
    · split
      · exact (Grows.nextSite u x).after h1
      · exact hstill
  · split
    · exact (Grows.leaveTripped u x).after h1
    · exact hstill
  · exact hstill
  · split
    · exact hstill
    · split
      · exact hstill
      · exact (Grows.enterReleasing u x _).after h1
      · split
        · exact (Grows.goOn u x _).after h1
        · exact (h1.trans (.modCtx u x _)).still

/-- What a context does with a thing it is told grows by a bounded amount (R31, R50, R51). -/
theorem Grows.doMail (s : State) (m : Mail) : Grows 2304 s (doMail s m) := by
  have hstill : Grows 2304 s s := (Grows.refl s).still
  have hend : ∀ x cause, Grows 2304 s (Machine.endSite s x cause) := fun x cause => (Grows.endSite s x cause).mono (by omega)
  cases m with
  | makeDone x =>
    unfold Machine.doMail
    dsimp only
    split
    · exact (Grows.settleDecision s x _).mono (by omega)
    · exact hstill
  | makeFailed x cause =>
    unfold Machine.doMail
    dsimp only
    split
    · exact hend x cause
    · exact hstill
  | makeRefused x why => exact hstill
  | opened x failure =>
    unfold Machine.doMail
    dsimp only
    split
    · split
      · split
        · exact (Grows.askMake s x).mono (by omega)
        · exact hend x _
      · exact .poke s x
    · exact (OnlyLooks.releaseAnswered s x failure).grows.still
    · exact hstill
  | quieted x ok =>
    unfold Machine.doMail
    dsimp only
    split
    · split
      · split
        · exact .afterQuiet s x
        · exact hend x _
      · exact .poke s x
    · split
      · exact .askRelease s x
      · exact (Grows.askRelease _ x).after (OnlyLooks.releaseFails s x _).grows
    · exact hstill
  | lived x ok =>
    unfold Machine.doMail
    dsimp only
    split
    · split
      · split
        · exact (Grows.afterLive s x).still
        · exact hend x _
      · exact .poke s x
    · exact hstill
  | poke x => exact .poke s x

/-! ### What is told before a piece of mail -/

/-- A piece of mail is delivered after those before it, at the price of a bounded amount of work for each; the buses those are for
alone have acted. -/
theorem tellsIn {m : Mail} (pre rest : List Mail) {s : State} (hs : SendsIdle s) (hm : s.mail = pre ++ m :: rest) :
    ∃ k u, Delivers k s (doMail u m) ∧ k ≤ s.matrixWork.length + 7200 * (pre.length + 1) ∧
      Keeps (fun _ => True) s u ∧ Run True True (fun x => ∃ n ∈ pre, n.bus = x) s u := by
  induction pre generalizing s rest with
  | nil =>
    obtain ⟨k, u, hk, hle, -, -, hkeep, hrun⟩ := tellsFirst hs hm
    have := workLeft_le s
    refine ⟨k, u, hk, ?_, hkeep, hrun.widen (fun _ => False.elim)⟩
    rw [List.length_nil]
    omega
  | cons n pre ih =>
    obtain ⟨k, u, hk, hle, hwork, ⟨l, hl⟩, hkeep, hrun⟩ := tellsFirst hs hm
    have hidle : SendsIdle u := fun d hd => by rw [hwork] at hd; cases hd
    have hgrow := Grows.doMail u n
    obtain ⟨l', hl'⟩ := hgrow.mail
    have hlen := hgrow.work
    obtain ⟨k', u', hk', hle', hkeep', hrun'⟩ := ih (rest ++ l ++ l') (hgrow.sends hidle)
      (by rw [hl', hl]; simp)
    have hleft := workLeft_le s
    refine ⟨k + k', u', hk.trans hk', ?_, (hkeep.trans ((Keeps.refl u).doMail n)).trans hkeep', ?_⟩
    · rw [hwork, List.length_nil] at hlen
      rw [List.length_cons]
      omega
    · refine ((hrun.widen (fun _ => False.elim)).trans (Run.doMail n trivial ⟨n, List.mem_cons_self, rfl⟩ .refl)).trans
        (hrun'.widen (fun x ⟨m', hm', hb⟩ => ⟨m', List.mem_cons_of_mem _ hm', hb⟩))

end Sys2Proof.Machine
end

