-- ==== Sys2Proof/Proofs/Losses.lean ====
section
/-!
PROOFS. What the loss of a lane tells the buses, one after another: which requests fail, which sites end, which holds are lost
(R39, R53, R81, R84).
-/

namespace Sys2Proof.Machine

variable {s b u v w : State} {x y : Bus}

/-! ### Buses are told one after another -/

/-- Bus `y` alone is told something, at most one thing. -/
structure TellsOne (u v : State) (y : Bus) : Prop where
  rest : v = { u with ctxs := v.ctxs, mail := v.mail }
  others : ∀ x, x ≠ y → v.ctx x = u.ctx x
  mail : v.mail = u.mail ∨ ∃ n : Mail, n.bus = y ∧ v.mail = u.mail ++ [n]

theorem TellsOne.refl (u : State) (y : Bus) : TellsOne u u y := ⟨rfl, fun _ _ => rfl, .inl rfl⟩

theorem TellsOne.added (h : TellsOne u v y) : ∃ l, v.mail = u.mail ++ l ∧ l.length ≤ 1 ∧ ∀ n ∈ l, n.bus = y := by
  rcases h.mail with hm | ⟨n, hn, hm⟩
  · exact ⟨[], by rw [hm, List.append_nil], Nat.zero_le _, nofun⟩
  · exact ⟨[n], hm, Nat.le_refl _, fun k hk => by rw [List.mem_singleton.1 hk]; exact hn⟩

theorem TellsOne.answered (u : State) (y : Bus) (f : Ctx → Ctx) (n : Mail) (hn : n.bus = y) : TellsOne u ((u.modCtx y f).post n) y where
  rest := rfl
  others := fun x hx => by
    show (u.modCtx y f).ctx x = u.ctx x
    rw [State.ctx_modCtx, if_neg (Ne.symm hx)]
  mail := .inr ⟨n, hn, rfl⟩

theorem TellsOne.modCtx (u : State) (y : Bus) (f : Ctx → Ctx) : TellsOne u (u.modCtx y f) y where
  rest := rfl
  others := fun x hx => by rw [State.ctx_modCtx, if_neg (Ne.symm hx)]
  mail := .inl rfl

/-- What telling bus after bus leaves. -/
structure TellsAll (b v : State) (l : List Bus) : Prop where
  rest : v = { b with ctxs := v.ctxs, mail := v.mail }
  others : ∀ x, x ∉ l → v.ctx x = b.ctx x
  mail : ∃ m, v.mail = b.mail ++ m ∧ m.length ≤ l.length

theorem foldl_tellsAll {f : State → Bus → State} (hf : ∀ u y, TellsOne u (f u y) y) (l : List Bus) (b : State) :
    TellsAll b (l.foldl f b) l := by
  induction l generalizing b with
  | nil => exact ⟨rfl, fun _ _ => rfl, [], (List.append_nil _).symm, Nat.le_refl _⟩
  | cons y l ih =>
    have h := ih (f b y)
    obtain ⟨m, hm, hlen⟩ := h.mail
    obtain ⟨m', hm', hlen', -⟩ := (hf b y).added
    rw [List.foldl_cons]
    refine ⟨?_, fun x hx => ?_, m' ++ m, by rw [hm, hm', List.append_assoc], by rw [List.length_append, List.length_cons]; omega⟩
    · have hrest := h.rest
      generalize l.foldl f (f b y) = w at hrest ⊢
      rw [(hf b y).rest] at hrest
      exact hrest
    · rw [List.mem_cons, not_or] at hx
      rw [h.others x hx.2, (hf b y).others x hx.1]

/-- Bus `x` is told in its turn: the buses before it have been told, and it finds its own context as it was. -/
theorem foldl_told {f : State → Bus → State} (hf : ∀ u y, TellsOne u (f u y) y) {l : List Bus} (hn : l.Nodup) (hx : x ∈ l) (b : State) :
    ∃ u, u = { b with ctxs := u.ctxs, mail := u.mail } ∧ u.ctx x = b.ctx x ∧ (l.foldl f b).ctx x = (f u x).ctx x ∧
      (∀ n ∈ u.mail, n ∈ b.mail ∨ n.bus ≠ x) ∧ u.mail.length ≤ b.mail.length + l.length ∧
      ∃ rest, (l.foldl f b).mail = (f u x).mail ++ rest := by
  induction l generalizing b with
  | nil => cases hx
  | cons y l ih =>
    obtain ⟨hy, hn⟩ := List.nodup_cons.1 hn
    rw [List.foldl_cons]
    by_cases h : y = x
    · subst h
      have hall := foldl_tellsAll hf l (f b y)
      obtain ⟨m, hm, -⟩ := hall.mail
      exact ⟨b, rfl, rfl, hall.others y hy, fun n => .inl, Nat.le_add_right _ _, m, hm⟩
    · have hone := hf b y
      obtain ⟨m, hm, hlen, hbus⟩ := hone.added
      obtain ⟨u, h1, h2, h3, h4, h5, h6⟩ := ih hn ((List.mem_cons.1 hx).resolve_left (Ne.symm h)) (f b y)
      refine ⟨u, ?_, h2.trans (hone.others x (Ne.symm h)), h3, fun n hn => ?_, ?_, h6⟩
      · rw [hone.rest] at h1
        exact h1
      · rcases h4 n hn with h4 | h4
        · rw [hm] at h4
          rcases List.mem_append.1 h4 with h4 | h4
          · exact .inl h4
          · exact .inr (by rw [hbus n h4]; exact h)
        · exact .inr h4
      · rw [hm, List.length_append] at h5
        rw [List.length_cons]
        omega

/-- The first thing that bus `x` will be told is `m`, with little before it. -/
def ToldFirst (v : State) (x : Bus) (m : Mail) : Prop :=
  ∃ pre rest, v.mail = pre ++ m :: rest ∧ pre.length ≤ 16 ∧ ∀ n ∈ pre, n.bus ≠ x

theorem ToldFirst.more {m : Mail} (h : ToldFirst v x m) (hw : ∃ l, w.mail = v.mail ++ l) : ToldFirst w x m := by
  obtain ⟨pre, rest, hm, h1, h2⟩ := h
  obtain ⟨l, hl⟩ := hw
  exact ⟨pre, rest ++ l, by rw [hl, hm, List.append_assoc, List.cons_append], h1, h2⟩

/-- A site whose bus is told first that it fails ends INVALID. -/
theorem ToldFirst.endedBy {m : Mail} {t : Site} {cause : Cause} (h : ToldFirst v x m) (hs : SendsIdle v) (hlen : v.matrixWork.length ≤ 30000)
    (hw : (v.ctx x).state.working = true) (hin : (v.ctx x).inFlight = some t)
    (hstep : ∃ tag sel n lim k d timeout hold, (v.ctx x).step = some ⟨tag, .measure sel n lim k d timeout hold⟩)
    (htag : (v.ctx x).stepTag = (s.ctx x).stepTag) (hrec : ∃ l, v.queue.records = s.queue.records ++ l)
    (hends : ∀ u, (v.ctx x).Spared (u.ctx x) → doMail u m = endSite u x cause) : EndedBy s (finish v) x t cause := by
  obtain ⟨pre, rest, hm, hpre, hbus⟩ := h
  obtain ⟨k, u, hd, hk, hkeep, hrun⟩ := tellsIn pre rest hs hm
  have hsp : (v.ctx x).Spared (u.ctx x) := hrun.spared (fun ⟨n, hn, hb⟩ => hbus n hn hb)
  rw [hends u hsp] at hd
  have hstepEq : (u.ctx x).step = (v.ctx x).step := by rw [hsp.rest]
  have hbound : drainBound = 1000000 := rfl
  refine endedBy_of_delivers hd (by omega) ?_ ?_ (by rw [hstepEq]; exact hstep) (by rw [Ctx.stepTag, hstepEq]; exact htag) ?_
  · rcases hsp.state with he | ⟨-, he⟩
    · rw [he]; exact hw
    · rw [he]; rfl
  · rw [hsp.rest]; exact hin
  · obtain ⟨l, hl⟩ := hrec
    obtain ⟨l', hl', -⟩ := hkeep.records
    exact ⟨l ++ l', by rw [hl', hl, List.append_assoc]⟩

/-! ### Contexts that a loss reaches -/

/-- What the loss of a lane does at one bus after another: a site in flight ends in the states of `hits`, and a hold is lost. -/
structure BusLoss (f : State → Bus → State) (hits : Ctx → Prop) (reaches : Ctx → Prop) : Prop where
  keeps : ∀ (s : State) y, Keeps (fun _ => False) s (f s y)
  runs : ∀ (s : State) y, Run True True (fun z => z = y) s (f s y)
  grows : ∀ (s : State) y, Grows 2304 s (f s y)
  still : ∀ (s : State) x, ¬ hits (s.ctx x) ∨ (s.ctx x).inFlight = none → (s.ctx x).state ≠ .holding → f s x = s
  ends : ∀ (s : State) x, hits (s.ctx x) → (s.ctx x).inFlight ≠ none → f s x = endSite s x .lane
  holds : ∀ (s : State) x, reaches (s.ctx x) → (s.ctx x).state = .holding → f s x = loseHold s x
  works : ∀ c, hits c → c.state = .settling ∨ c.state = .restoring ∨ c.state = .measuring
  spared : ∀ c d : Ctx, c.Spared d → d.state = c.state → (hits c → hits d) ∧ (reaches c → reaches d)

variable {f : State → Bus → State} {hits reaches : Ctx → Prop}

theorem BusLoss.spares (hf : BusLoss f hits reaches) (s : State) (h : y ≠ x) : (s.ctx x).Spared ((f s y).ctx x) :=
  (hf.runs s y).spared (Ne.symm h)

/-- A site in flight that the loss reaches ends INVALID. -/
theorem BusLoss.siteEnded (hf : BusLoss f hits reaches) {l : List Bus} (hx : x ∈ l) {t : Site} (hhit : hits (b.ctx x))
    (hin : (b.ctx x).inFlight = some t)
    (hstep : ∃ tag sel n lim k d timeout hold, (b.ctx x).step = some ⟨tag, .measure sel n lim k d timeout hold⟩)
    (htag : (b.ctx x).stepTag = (s.ctx x).stepTag) (hrec : ∃ l, b.queue.records = s.queue.records ++ l) :
    SiteEnded s (l.foldl f b) x t .lane := by
  have hrecords : ∀ u y, ∃ l, (f u y).queue.records = u.queue.records ++ l := fun u y => by
    obtain ⟨l, hl, -⟩ := (hf.keeps u y).records
    exact ⟨l, hl⟩
  obtain ⟨hworks, hnb⟩ : (b.ctx x).state.working = true ∧ (b.ctx x).state ≠ .blocked := by
    rcases hf.works _ hhit with h | h | h <;> rw [h] <;> exact ⟨rfl, nofun⟩
  refine foldl_reaches (a := x) (P := fun v => (b.ctx x).Spared (v.ctx x) ∧ ∃ l, v.queue.records = s.queue.records ++ l)
    (R := fun v => SiteEnded s v x t .lane ∧ ((v.ctx x).inFlight = none ∧ (v.ctx x).state ≠ .holding))
    (fun v y hy hv => ⟨hv.1.trans (hf.spares v hy), ?_⟩) (fun v hv => ?_) (fun v y hv => ?_) hx ⟨.refl _, hrec⟩ |>.1
  · obtain ⟨l, hl⟩ := hv.2
    obtain ⟨l', hl'⟩ := hrecords v y
    exact ⟨l ++ l', by rw [hl', hl, List.append_assoc]⟩
  · obtain ⟨hsp, hrec'⟩ := hv
    have hstate : (v.ctx x).state = (b.ctx x).state := hsp.state.resolve_right (fun h => hnb h.1)
    have hvw : (v.ctx x).state.working = true := by rw [hstate]; exact hworks
    have hvin : (v.ctx x).inFlight = some t := by rw [hsp.rest]; exact hin
    have hvstep : (v.ctx x).step = (b.ctx x).step := by rw [hsp.rest]
    rw [hf.ends v x ((hf.spared _ _ hsp hstate).1 hhit) (by rw [hvin]; nofun)]
    refine ⟨siteEnded_of hvin (by rw [hvstep]; exact hstep) (by rw [Ctx.stepTag, hvstep]; exact htag) hrec' (endSite_records v x .lane)
      (fun h64 => .inl (endSite_posts hvw .lane h64)), ?_⟩
    obtain ⟨c, hc, he⟩ := endSite_ctx v x .lane
    have hcw : c.state.working = true := by rw [hc]; exact (beforeEnd_unjudged v x).working hvw
    rw [he]
    refine ⟨by rw [hc]; rfl, ?_⟩
    dsimp only
    split
    · nofun
    · exact fun h => by rw [h] at hcw; cases hcw
  · obtain ⟨hend, hi, hs⟩ := hv
    by_cases hy : y = x
    · subst hy; rw [hf.still v y (.inr hi) hs]; exact ⟨hend, hi, hs⟩
    · have hsp := hf.spares v hy
      refine ⟨hend.later (hrecords v y) (fun sl hsl => hsl.spared hsp), by rw [hsp.rest]; exact hi, fun h => ?_⟩
      rcases hsp.state with hk | ⟨_, hk⟩
      · exact hs (hk.symm.trans h)
      · rw [hk] at h; cases h

/-- A context in a stage that the loss does not end is not reached. -/
theorem BusLoss.passes (hf : BusLoss f hits reaches) (l : List Bus) (hs : (b.ctx x).state = .making ∨ (b.ctx x).state = .blocked ∨
    (b.ctx x).state = .quieting ∨ ((b.ctx x).state = .restoring ∧ ∀ c, hits c → c.state = .measuring)) : (b.ctx x).Spared ((l.foldl f b).ctx x) := by
  refine foldl_holds (P := fun v => (b.ctx x).Spared (v.ctx x)) (fun v y hsp => ?_) l (.refl _)
  by_cases hy : y = x
  · subst hy
    have hstate : (v.ctx y).state = .making ∨ (v.ctx y).state = .blocked ∨ (v.ctx y).state = .quieting ∨
        ((v.ctx y).state = .restoring ∧ ∀ c, hits c → c.state = .measuring) := by
      rcases hsp.state with h | ⟨-, h⟩
      · rw [h]; exact hs
      · exact .inl h
    have hnot : ¬ hits (v.ctx y) := fun hh => by
      rcases hstate with h | h | h | ⟨h, hm⟩
      · rcases hf.works _ hh with h' | h' | h' <;> rw [h] at h' <;> cases h'
      · rcases hf.works _ hh with h' | h' | h' <;> rw [h] at h' <;> cases h'
      · rcases hf.works _ hh with h' | h' | h' <;> rw [h] at h' <;> cases h'
      · rw [hm _ hh] at h; cases h
    have hhold : (v.ctx y).state ≠ .holding := by rcases hstate with h | h | h | ⟨h, -⟩ <;> rw [h] <;> nofun
    rw [hf.still v y (.inl hnot) hhold]
    exact hsp
  · exact hsp.trans (hf.spares v hy)

/-- A hold is lost where it stands (R84). -/
theorem loseHold_lost {s : State} {x : Bus} (hs : (s.ctx x).state = .holding) :
    (loseHold s x).trunk.attn.step = true ∧ ((s.ctx x).queue = [] → ((loseHold s x).ctx x).Aborted) := by
  refine ⟨?_, fun hq => enterReleasing_aborted (s := s.raise .step) hq .idle⟩
  rw [show loseHold s x = loseHold (s.raise .step) x by rw [loseHold, loseHold, State.raise_raise]]
  exact ((Keeps.refl (Q := fun _ => False) (s.raise .step)).loseHold x ((Keeps.refl (Q := fun _ => False) (s.raise .step)).inState hs)).stepRaised rfl

/-- A hold that the loss reaches is lost. -/
theorem BusLoss.holdLost (hf : BusLoss f hits reaches) {l : List Bus} (hx : x ∈ l) (hreach : reaches (b.ctx x))
    (hs : (b.ctx x).state = .holding) :
    (l.foldl f b).trunk.attn.step = true ∧ ((b.ctx x).queue = [] → ((l.foldl f b).ctx x).Aborted) := by
  refine foldl_reaches (a := x) (P := fun v => (b.ctx x).Spared (v.ctx x))
    (R := fun v => v.trunk.attn.step = true ∧ ((b.ctx x).queue = [] → (v.ctx x).Aborted))
    (fun v y hy hv => hv.trans (hf.spares v hy)) (fun v hsp => ?_) (fun v y hv => ?_) hx (.refl _)
  · have hstate : (v.ctx x).state = (b.ctx x).state := hsp.state.resolve_right (fun h => by rw [hs] at h; cases h.1)
    rw [hf.holds v x ((hf.spared _ _ hsp hstate).2 hreach) (hstate.trans hs)]
    refine ⟨(loseHold_lost (hstate.trans hs)).1, fun hq => (loseHold_lost (hstate.trans hs)).2 ?_⟩
    rw [hsp.rest]; exact hq
  · refine ⟨(hf.keeps v y).stepRaised hv.1, fun hq => ?_⟩
    by_cases hy : y = x
    · subst hy; rw [hf.still v y (.inr (hv.2 hq).inFlight) (hv.2 hq).notHolding]; exact hv.2 hq
    · exact (hv.2 hq).spared (hf.spares v hy)

theorem HoldLost.of (hstep : v.trunk.attn.step = true) (hab : (s.ctx x).queue = [] → (v.ctx x).Aborted) : HoldLost s (finish v) x := by
  refine ⟨finish_stepRaised hstep, fun hq => ?_⟩
  rw [finish_ctx]
  exact (drain_aborted drainBound (hab hq)).notHolding

end Sys2Proof.Machine
end

