-- ==== Sys2Proof/Proofs/LaneLosses.lean ====
section
/-!
PROOFS. What a lane that leaves ACTIVE does at the other blocks, by the partner recorded (R39, R53, R81, R84, R165, R177).
-/

namespace Sys2Proof.Machine

variable {s b u v w : State} {x : Bus} {l : LaneId} {c : CardId}

/-! ### The parts of the reports -/

theorem laneLeft_shape (b : State) (l : LaneId) (cause : LossCause) : laneLeft b l cause = { b with
    lanes := b.lanes.set l ((b.lane l).left cause), trunk := (laneLeft b l cause).trunk, out := (laneLeft b l cause).out } := by
  unfold laneLeft laneShown
  split <;> rfl

theorem Lane.left_notActive (k : Lane) (cause : LossCause) : (k.left cause).state ≠ .active := by
  unfold Lane.left
  split <;> nofun

theorem TellsOne.then {y : Bus} (h : TellsOne u v y) (hm : v.mail = u.mail) (k : TellsOne v w y) : TellsOne u w y where
  rest := by rw [k.rest, h.rest]
  others := fun x hx => (k.others x hx).trans (h.others x hx)
  mail := by rw [← hm]; exact k.mail

theorem TellsOne.answerOpens (u : State) (y : Bus) : TellsOne u (answerOpens u y) y := by
  unfold Machine.answerOpens
  split
  · split
    · exact .answered u y _ _ rfl
    · exact .refl u y
  · exact .refl u y

theorem TellsOne.requestLosesCard (u : State) (c : CardId) (lost : Bool) (y : Bus) : TellsOne u (requestLosesCard u c lost y) y := by
  unfold Machine.requestLosesCard
  split
  · split
    · exact .answered u y _ _ rfl
    · exact .refl u y
  · exact (TellsOne.modCtx u y _).then rfl (.answerOpens _ y)
  · exact .refl u y

/-- What the loss of the instrument's lane does to the record and the waiting exchange of one bus (R53). -/
def sourceLost (u : State) (y : Bus) : State := answerLive (answerQuiet (u.setSource y .unsure) y false) y false

theorem sourcesLost_eq (u : State) (l : LaneId) : sourcesLost u l = (sourceBusesOn u l).foldl sourceLost u := rfl

theorem sourceLost_quiet {u : State} {y : Bus} (h : (u.ctx y).request = some .quiet) :
    sourceLost u y = (u.setCtx y ((u.ctx y).acked .unsure)).post (.quieted y false) := by
  rw [sourceLost, answerQuiet_told _ h, answerLive_none]
  show ((u.setCtx y ((u.ctx y).acked .unsure)).ctx y).request ≠ _
  rw [State.ctx_setCtx_self]
  nofun

theorem sourceLost_live {u : State} {y : Bus} (h : (u.ctx y).request = some .live) :
    sourceLost u y = (u.setCtx y ((u.ctx y).acked .unsure)).post (.lived y false) := by
  rw [sourceLost, answerQuiet_none (by rw [setSource_request, h]; nofun), answerLive_told _ h]

theorem sourceLost_silent {u : State} {y : Bus} (hq : (u.ctx y).request ≠ some .quiet) (hl : (u.ctx y).request ≠ some .live) :
    sourceLost u y = u.setSource y .unsure := by
  rw [sourceLost, answerQuiet_none (by rw [setSource_request]; exact hq), answerLive_none (by rw [setSource_request]; exact hl)]

theorem TellsOne.sourceLost (u : State) (y : Bus) : TellsOne u (sourceLost u y) y := by
  by_cases hq : (u.ctx y).request = some .quiet
  · rw [sourceLost_quiet hq]; exact .answered u y (fun _ => (u.ctx y).acked .unsure) _ rfl
  · by_cases hl : (u.ctx y).request = some .live
    · rw [sourceLost_live hl]; exact .answered u y (fun _ => (u.ctx y).acked .unsure) _ rfl
    · rw [sourceLost_silent hq hl]; exact .modCtx u y _

theorem sourceLost_ctx (u : State) (y : Bus) : (u.ctx y).Cut ((sourceLost u y).ctx y) ∧ ((sourceLost u y).ctx y).source = .unsure := by
  have hack : (u.ctx y).Cut ((u.ctx y).acked .unsure) := ⟨none, .unsure, rfl⟩
  by_cases hq : (u.ctx y).request = some .quiet
  · rw [sourceLost_quiet hq, show ∀ (w : State) m, (w.post m).ctx y = w.ctx y from fun _ _ => rfl, State.ctx_setCtx_self]
    exact ⟨hack, rfl⟩
  · by_cases hl : (u.ctx y).request = some .live
    · rw [sourceLost_live hl, show ∀ (w : State) m, (w.post m).ctx y = w.ctx y from fun _ _ => rfl, State.ctx_setCtx_self]
      exact ⟨hack, rfl⟩
    · rw [sourceLost_silent hq hl, State.setSource, State.ctx_modCtx_self]
      exact ⟨⟨(u.ctx y).request, .unsure, rfl⟩, rfl⟩

/-! ### Which contexts a loss reaches -/

/-- The stages in which the loss of card `c` ends a site (R81). -/
def Ctx.CardHits (c : CardId) (k : Ctx) : Prop := k.onCard c = true ∧ (k.state = .settling ∨ k.state = .restoring ∨ k.state = .measuring)

theorem cardLoss_busLoss (c : CardId) : BusLoss (fun s x => cardLossCtx s c x) (Ctx.CardHits c) (fun k => k.onCard c = true) where
  keeps := fun s y => (Keeps.refl s).cardLossCtx c y
  runs := fun s y => .cardLossCtx c y rfl .refl
  grows := fun s y => by
    unfold cardLossCtx
    dsimp only
    have hend : Grows 2304 s (endSite s y .lane) := (Grows.endSite s y .lane).mono (by omega)
    have hstill : Grows 2304 s s := (Grows.refl s).still
    split
    · exact hstill
    · split
      · split
        · exact hend
        · exact hstill
      · split
        · exact hend
        · exact hstill
      · split
        · exact hend
        · exact hstill
      · exact .loseHold s y
      · exact hstill
  still := fun s x h hs => by
    unfold cardLossCtx
    dsimp only
    split
    · rfl
    · next hon =>
      simp only [Bool.not_eq_true', Bool.not_eq_false] at hon
      split
      case h_4 he => exact absurd he hs
      case h_5 => rfl
      all_goals
        next he =>
        have hi := h.resolve_left (fun hn => hn ⟨hon, by simp [he]⟩)
        rw [hi]
        rfl
  ends := fun s x ⟨hon, hst⟩ hi => by
    unfold cardLossCtx
    dsimp only
    rw [if_neg (by rw [hon]; decide)]
    rcases hst with h | h | h <;> rw [h] <;> exact if_pos (Option.isSome_iff_ne_none.2 hi)
  holds := fun s x hon hs => by
    unfold cardLossCtx
    dsimp only
    rw [if_neg (by rw [hon]; decide), hs]
  works := fun k h => h.2
  spared := fun k d hsp hst => by
    have hcard : d.onCard c = k.onCard c := by rw [hsp.rest]; rfl
    refine ⟨fun h => ⟨hcard.trans h.1, by rw [hst]; exact h.2⟩, fun h => hcard.trans h⟩

/-- The stage in which the loss of an instrument ends a site (R81). -/
def Ctx.Measures (k : Ctx) : Prop := k.state = .measuring

theorem instrumentLoss_busLoss : BusLoss instrumentLossCtx Ctx.Measures (fun _ => True) where
  keeps := fun s y => (Keeps.refl s).instrumentLossCtx y
  runs := fun s y => .instrumentLossCtx y rfl .refl
  grows := fun s y => by
    unfold instrumentLossCtx
    dsimp only
    split
    · split
      · exact (Grows.endSite s y .lane).mono (by omega)
      · exact (Grows.refl s).still
    · exact .loseHold s y
    · exact (Grows.refl s).still
  still := fun s x h hs => by
    unfold instrumentLossCtx
    dsimp only
    split
    · next he =>
      rw [h.resolve_left (fun hn => hn he)]
      rfl
    · next he => exact absurd he hs
    · rfl
  ends := fun s x hst hi => by
    unfold instrumentLossCtx
    dsimp only
    rw [show (s.ctx x).state = .measuring from hst]
    exact if_pos (Option.isSome_iff_ne_none.2 hi)
  holds := fun s x _ hs => by
    unfold instrumentLossCtx
    dsimp only
    rw [hs]
  works := fun k h => .inr (.inr h)
  spared := fun k d _ hst => ⟨fun h => hst.trans h, id⟩

theorem BusLoss.run {f : State → Bus → State} {hits reaches : Ctx → Prop} (hf : BusLoss f hits reaches) (l : List Bus) (b : State) :
    Run True True (fun _ => True) b (l.foldl f b) ∧ Keeps (fun _ => False) b (l.foldl f b) :=
  foldl_holds (P := fun v => Run True True (fun _ => True) b v ∧ Keeps (fun _ => False) b v)
    (fun u y h => ⟨h.1.trans ((hf.runs u y).widen (fun _ _ => trivial)), h.2.trans (hf.keeps u y)⟩) l ⟨.refl, .refl b⟩

theorem BusLoss.growsBy {f : State → Bus → State} {hits reaches : Ctx → Prop} (hf : BusLoss f hits reaches) (l : List Bus) (b : State) :
    Grows (2304 * l.length) b (l.foldl f b) := by
  induction l generalizing b with
  | nil => exact .refl b
  | cons y l ih => exact ((hf.grows b y).trans (ih (f b y))).mono (by rw [List.length_cons]; omega)

end Sys2Proof.Machine
end

