-- ==== Sys2Proof/Proofs/LanesGone.lean ====
section
/-!
PROOFS. The state in which a lane leaves ACTIVE, and that its leaving does at the other blocks what the manual says (R177).
-/

-- One proof after another: in the joined text each worker would hold a stack of its own.
set_option Elab.async false

namespace Sys2Proof.Machine

variable {s b u v w : State} {x : Bus} {l : LaneId} {c : CardId}

/-- What a command that began in `s` has left as it was when it makes lane `l` leave ACTIVE in `b`. -/
structure BeforeLoss (s b : State) (l : LaneId) : Prop where
  tables : b.tables = s.tables
  guard : b.guard = s.guard
  partner : (b.lane l).partner = (s.lane l).partner
  claimed : ∀ x p, s.claimed x p = true → b.claimed x p = true
  keeps : KeepsToCards b
  spared : ∀ x, (s.ctx x).Spared (b.ctx x)
  asks : ∀ x r, (s.ctx x).request = some r → (∀ q, r ≠ .opens q) → (b.ctx x).request = some r
  mail : b.mail.length ≤ 8 ∧ ∀ n ∈ b.mail, ∃ q, (s.ctx n.bus).request = some (.opens q)
  work : b.matrixWork.length ≤ 4096
  sends : ∀ d, .send d ∈ b.matrixWork → ((b.card d).pending ≠ none ∨ (b.card d).idle = true) ∨
    ((b.lane l).partner = .card ∧ b.cardOnLane l = some d)
  records : ∃ rs, b.queue.records = s.queue.records ++ rs

/-- A site in flight, with what the command knows of its bus. -/
theorem Ctx.Spared.works {k d : Ctx} (h : k.Spared d) (hs : k.state ≠ .blocked) : d.state = k.state ∧ d.inFlight = k.inFlight ∧
    d.step = k.step ∧ d.stepTag = k.stepTag ∧ d.target = k.target ∧ d.queue = k.queue :=
  ⟨h.state.resolve_right (fun hb => hs hb.1), by rw [h.rest], by rw [h.rest], by rw [h.rest]; rfl, by rw [h.rest], by rw [h.rest]⟩

/-! ### A card that is lost -/

/-- What the loss of card `c` has left when the command's consequences begin. -/
structure LosesCard (s v : State) (c : CardId) : Prop where
  dead : Dead v c
  lost : ∀ x p, cardOf p = c → s.claimed x p = true → (v.xp x p).Lost
  presence : ∀ d, cardOfBlock d = c → v.blockPresence d = .unknown
  supply : ∀ d u, cardOfBlock d = c → s.siteOnBlock d = some u → v.supplyOn u = false
  sends : SendsIdle v
  work : v.matrixWork.length ≤ 30000
  records : ∃ rs, v.queue.records = s.queue.records ++ rs
  makes : ∀ x r, (s.ctx x).request = some (.make r) → r.card = c → (s.ctx x).state = .making ∨ (s.ctx x).state = .blocked →
    ToldFirst v x (.makeFailed x .lane) ∧ (s.ctx x).Spared (v.ctx x)
  ends : ∀ x, (s.ctx x).onCard c = true → (∃ p, cardOf p = c ∧ s.claimed x p = true) →
    (∀ u, WorksAt s x .settling u ∨ WorksAt s x .restoring u ∨ WorksAt s x .measuring u → SiteEnded s v x u .lane) ∧
    ((s.ctx x).state = .holding → v.trunk.attn.step = true ∧ ((s.ctx x).queue = [] → (v.ctx x).Aborted))

theorem finish_matrix (s : State) : (finish s).matrix = (drain drainBound s).matrix := by
  rw [finish, pump_matrix, (panelCheck_only _).matrix]

theorem LosesCard.gone (h : LosesCard s v c) : CardGone s (finish v) c := by
  have hrun : Run True True (fun _ => True) v (drain drainBound v) := .drain drainBound trivial (fun _ => trivial) .refl
  have hdead := hrun.dead h.dead
  have hxp : ∀ x p, (finish v).xp x p = (drain drainBound v).xp x p := fun x p => by rw [State.xp, finish_matrix]; rfl
  have hcard : (finish v).card c = (drain drainBound v).card c := by rw [State.card, finish_matrix]; rfl
  obtain ⟨hpend, hprio, hord⟩ := (CardCtl.idle_iff _).1 hdead.idle
  refine ⟨fun x p hp hc => ?_, by rw [hcard]; exact hpend, by rw [hcard]; exact hprio, by rw [hcard]; exact hord,
    fun d hd => ?_, fun d u hd hu => ?_, fun x r hr hc u hu => ?_, fun x hon hcl => ?_⟩
  · rw [hxp]
    exact hrun.staysLost (.inl h.dead) hp (h.lost x p hp hc)
  · rw [State.blockPresence, finish_guard]; exact h.presence d hd
  · rw [State.supplyOn, finish_guard]; exact h.supply d u hd hu
  · have hstate : (s.ctx x).state = .making ∨ (s.ctx x).state = .blocked := hu.imp (·.1) (·.1)
    obtain ⟨hin, hstep⟩ : (s.ctx x).inFlight = some u ∧
        ∃ tag sel n lim k d timeout hold, (s.ctx x).step = some ⟨tag, .measure sel n lim k d timeout hold⟩ := by
      rcases hu with ⟨-, hin, -, hstep⟩ | ⟨-, hin, -, hstep⟩ <;> exact ⟨hin, hstep⟩
    obtain ⟨htold, hsp⟩ := h.makes x r hr hc hstate
    have hvstate : (v.ctx x).state = .making ∨ (v.ctx x).state = .blocked := by
      rcases hsp.state with he | ⟨-, he⟩
      · rw [he]; exact hstate
      · exact .inl he
    have hvin : (v.ctx x).inFlight = some u := by rw [hsp.rest]; exact hin
    have hvstep : (v.ctx x).step = (s.ctx x).step := by rw [hsp.rest]
    refine htold.endedBy h.sends h.work ?_ hvin (by rw [hvstep]; exact hstep) (by rw [Ctx.stepTag, hvstep]; rfl) h.records (fun w hw => ?_)
    · rcases hvstate with he | he <;> rw [he] <;> rfl
    · have hwstate : (w.ctx x).state = .making ∨ (w.ctx x).state = .blocked := by
        rcases hw.state with he | ⟨-, he⟩
        · rw [he]; exact hvstate
        · exact .inl he
      have hwin : (w.ctx x).inFlight = some u := by rw [hw.rest]; exact hvin
      exact if_pos (by rw [hwin]; rcases hwstate with he | he <;> rw [he] <;> rfl)
  · obtain ⟨hends, hholds⟩ := h.ends x hon hcl
    exact ⟨fun u hu => (hends u hu).endedBy, fun hs => .of (hholds hs).1 (hholds hs).2⟩

/-- The reports to the trunk host are not what the other blocks lose. -/
theorem LosesCard.trunk (h : LosesCard s v c) {k : Trunk} (hk : k.attn = v.trunk.attn) : LosesCard s { v with trunk := k } c where
  dead := ⟨h.dead.usable, h.dead.idle, h.dead.keeps.listed, h.dead.keeps.oneCard⟩
  lost := h.lost
  presence := h.presence
  supply := h.supply
  sends := h.sends
  work := h.work
  records := h.records
  makes := h.makes
  ends := fun x hon hcl => ⟨(h.ends x hon hcl).1, fun hs => ⟨(congrArg AttnSet.step hk).trans ((h.ends x hon hcl).2 hs).1, ((h.ends x hon hcl).2 hs).2⟩⟩

/-- A card's requests are told, one bus after another. -/
def cardTold (u : State) (c : CardId) : State :=
  allBuses.foldl (fun w x => requestLosesCard w c (x ∈ allBuses.filter (fun x => (u.card c).losesBreakOf x)) x) (cardEmptied u c)

theorem reportCardLoss_eq {u : State} (h : u.cardOnLane l = some c) : reportCardLoss u l =
    (allBuses.filter (fun x => (cardPoints c).any (fun p => u.claimed x p))).foldl (fun s x => cardLossCtx s c x)
      (cardBlocksLost (cardTold u c) c) := by
  unfold reportCardLoss
  rw [h]
  rfl

/-- The requests of a lost card's buses: those that stand have been told, and the card is dead. -/
theorem cardTold_tells (u : State) (c : CardId) : TellsAll (cardEmptied u c) (cardTold u c) allBuses :=
  foldl_tellsAll (fun _ y => .requestLosesCard _ c _ y) allBuses _

theorem cardTold_run (u : State) (c : CardId) : Run True True (fun _ => False) (cardEmptied u c) (cardTold u c) :=
  foldl_holds (P := fun w => Run True True (fun _ => False) (cardEmptied u c) w) (fun _ y h => h.requestLosesCard c _ y) allBuses .refl

theorem cardEmptied_dead (h : BeforeLoss s b l) (hc : b.cardOnLane l = some c) (cause : LossCause) :
    Dead (cardEmptied (laneLeft b l cause) c) c := by
  have hshape := laneLeft_shape b l cause
  generalize laneLeft b l cause = e at hshape
  have heq := cardEmptied_eq e c
  have hcard := cardEmptied_card e c
  generalize cardEmptied e c = k at heq hcard
  refine ⟨?_, ?_, fun d o ho => ?_, fun x => ?_⟩
  · have hentry : (k.cardEntry c).lane = some l := by
      rw [heq, hshape]
      exact cardEntry_of_cardOnLane hc
    have hlane : (k.lane l).state ≠ .active := by
      rw [heq, hshape]
      show (State.lane (b.setLane l _) l).state ≠ _
      rw [State.lane_setLane_self]
      exact Lane.left_notActive _ _
    simp [State.cardUsable, hentry, State.laneHasCard, hlane]
  · rw [hcard, if_pos rfl]; rfl
  · rw [hcard] at ho
    split at ho
    · cases ho
    · have hd : e.card d = b.card d := by rw [hshape]; rfl
      rw [hd] at ho
      exact h.keeps.listed d o ho
  · have hx : k.ctx x = b.ctx x := by rw [heq, hshape]; rfl
    rw [hx]; exact h.keeps.oneCard x

/-- The context of a bus whose card is lost, once it has been told. -/
theorem cardTold_ctx (u : State) (c : CardId) (x : Bus) : ((cardEmptied u c).ctx x).Spared ((cardTold u c).ctx x) :=
  (cardTold_run u c).spared nofun

/-- A bus whose make request is lost with the card is told first that it fails (R39). -/
theorem cardTold_first {r : MakeReq} (hr : ((cardEmptied u c).ctx x).request = some (.make r)) (hc : r.card = c)
    (hlen : (cardEmptied u c).mail.length ≤ 8) (hm : ∀ n ∈ (cardEmptied u c).mail, n.bus ≠ x) :
    ToldFirst (cardTold u c) x (.makeFailed x .lane) := by
  obtain ⟨w, -, h2, -, h4, h5, rest, h6⟩ := foldl_told (f := fun w x => requestLosesCard w c
    (x ∈ allBuses.filter (fun x => (u.card c).losesBreakOf x)) x) (l := allBuses) (fun _ y => .requestLosesCard _ c _ y) (List.nodup_finRange 8)
    (List.mem_finRange x) (cardEmptied u c)
  have hfail : ∀ lost, (requestLosesCard w c lost x).mail = w.mail ++ [.makeFailed x .lane] := fun lost => by
    unfold requestLosesCard
    rw [h2, hr]
    dsimp only
    rw [if_pos hc]
    rfl
  have h6' : (cardTold u c).mail = (requestLosesCard w c _ x).mail ++ rest := h6
  rw [hfail, List.append_assoc, List.singleton_append] at h6'
  have hbuses : allBuses.length = 8 := List.length_finRange ..
  exact ⟨w.mail, rest, h6', by omega, fun n hn => (h4 n hn).elim (hm n) id⟩

/-- The blocks of a card that is lost are UNKNOWN, and the supplies on them OFF (R165). -/
theorem cardBlocksLost_gone {e : State} (ht : e.tables = s.tables) (d : Block) (hd : cardOfBlock d = c) :
    (cardBlocksLost e c).blockPresence d = .unknown ∧ ∀ u, s.siteOnBlock d = some u → (cardBlocksLost e c).supplyOn u = false := by
  refine ⟨by rw [cardBlocksLost_presence, if_pos hd], fun u hu => ?_⟩
  refine (cardBlocksLost_supplyOn (fun u => cardBlocksLost_supply e c u)).1 d u hd ?_
  rw [← hu]
  unfold State.siteOnBlock State.siteEntry
  rw [ht]

theorem mem_cardPoints {p : Pt} : p ∈ cardPoints c ↔ cardOf p = c := by
  simp [cardPoints, allPoints, List.mem_finRange]

/-- What is left of card `c` when the contexts that claim a crosspoint of it are told. -/
structure CardOut (s q : State) (c : CardId) : Prop where
  dead : Dead q c
  lost : ∀ x p, cardOf p = c → s.claimed x p = true → (q.xp x p).Lost
  presence : ∀ d, cardOfBlock d = c → q.blockPresence d = .unknown
  supply : ∀ d u, cardOfBlock d = c → s.siteOnBlock d = some u → q.supplyOn u = false
  sends : SendsIdle q
  work : q.matrixWork.length ≤ 4096
  records : ∃ rs, q.queue.records = s.queue.records ++ rs
  first : ∀ x r, (s.ctx x).request = some (.make r) → r.card = c → ToldFirst q x (.makeFailed x .lane)
  spared : ∀ x, (s.ctx x).Spared (q.ctx x)

/-- The state `e` differs from `b` in the lane and in what the trunk and the lanes are shown. -/
structure OnlyLane (b e : State) : Prop where
  shape : e = { b with lanes := e.lanes, trunk := e.trunk, out := e.out }

theorem cardTold_out {e : State} (h : BeforeLoss s b l) (hc : b.cardOnLane l = some c)
    (he : OnlyLane b e) (hdead : Dead (cardEmptied e c) c) : CardOut s (cardBlocksLost (cardTold e c) c) c := by
  have hk := cardEmptied_eq e c
  have hkctx : ∀ x, (cardEmptied e c).ctx x = b.ctx x := fun x => by rw [hk, he.shape]; rfl
  have hkmail : (cardEmptied e c).mail = b.mail := by rw [hk, he.shape]
  have hcard : ∀ d, c ≠ d → (cardEmptied e c).card d = b.card d := fun d hd => by
    rw [cardEmptied_card, if_neg hd, he.shape]; rfl
  have hidle : ((cardEmptied e c).card c).idle = true := hdead.idle
  have hkx : ∀ x p, cardOf p = c → s.claimed x p = true → ((cardEmptied e c).xp x p).Lost := fun x p hpc hcl => by
    have hex : e.xp x p = b.xp x p := by rw [he.shape]; rfl
    rw [cardEmptied_xp, if_pos hpc, hex, XRec.lost, if_neg (claimed_iff.1 (h.claimed x p hcl))]
    exact ⟨rfl, rfl⟩
  have hkwork : (cardEmptied e c).matrixWork = b.matrixWork := by rw [hk, he.shape]
  have hkqueue : (cardEmptied e c).queue = b.queue := by rw [hk, he.shape]
  have hktables : (cardEmptied e c).tables = b.tables := by rw [hk, he.shape]
  have hfirst : ∀ x r, (s.ctx x).request = some (.make r) → r.card = c → ToldFirst (cardTold e c) x (.makeFailed x .lane) := fun x r hr hrc => by
    refine cardTold_first (by rw [hkctx]; exact h.asks x _ hr nofun) hrc (by rw [hkmail]; exact h.mail.1) (fun n hn hx => ?_)
    rw [hkmail] at hn
    obtain ⟨q, hq⟩ := h.mail.2 n hn
    rw [hx, hr] at hq
    cases hq
  have htells := cardTold_tells e c
  have hrun := cardTold_run e c
  have hspared := cardTold_ctx e c
  have hblocks := cardBlocksLost_eq (cardTold e c) c
  generalize cardTold e c = m at *
  generalize cardEmptied e c = k at *
  have hmcard : ∀ d, m.card d = k.card d := fun d => by rw [htells.rest]; rfl
  have hmwork : m.matrixWork = b.matrixWork := by rw [htells.rest]; exact hkwork
  have hmqueue : m.queue = b.queue := by rw [htells.rest]; exact hkqueue
  have hmtables : m.tables = s.tables := by rw [htells.rest]; exact hktables.trans h.tables
  have hgone := fun d hd => cardBlocksLost_gone (c := c) hmtables d hd
  have hmdead := hrun.dead hdead
  generalize cardBlocksLost m c = q at *
  refine ⟨?_, fun x p hpc hcl => ?_, fun d hd => (hgone d hd).1, fun d u hd hu => (hgone d hd).2 u hu, fun d hd => ?_, ?_, ?_,
    fun x r hr hrc => (hfirst x r hr hrc).more ⟨[], by rw [hblocks, List.append_nil]⟩, fun x => ?_⟩
  · rw [hblocks]
    exact ⟨hmdead.usable, hmdead.idle, hmdead.keeps.listed, hmdead.keeps.oneCard⟩
  · rw [hblocks]
    exact hrun.staysLost (.inl hdead) hpc (hkx x p hpc hcl)
  · have hqcard : q.card d = k.card d := by rw [hblocks]; exact hmcard d
    have hqwork : q.matrixWork = b.matrixWork := by rw [hblocks]; exact hmwork
    rw [hqwork] at hd
    rw [hqcard]
    by_cases hne : c = d
    · subst hne; exact .inr hidle
    · rw [hcard d hne]
      exact (h.sends d hd).resolve_right (fun hn => hne (Option.some_inj.1 (hc.symm.trans hn.2)))
  · rw [show q.matrixWork = b.matrixWork by rw [hblocks]; exact hmwork]; exact h.work
  · rw [show q.queue = b.queue by rw [hblocks]; exact hmqueue]; exact h.records
  · have hqctx : q.ctx x = m.ctx x := by rw [hblocks]; rfl
    have hsp := hspared x
    rw [hkctx] at hsp
    rw [hqctx]
    exact (h.spared x).trans hsp

/-- The contexts that claim a crosspoint of the card are told, bus by bus. -/
theorem CardOut.loses {q : State} (h : CardOut s q c) {told : List Bus} (hlen : told.length ≤ 8)
    (hmem : ∀ x, (∃ p, cardOf p = c ∧ s.claimed x p = true) → x ∈ told) :
    LosesCard s (told.foldl (fun s x => cardLossCtx s c x) q) c := by
  have hloss := cardLoss_busLoss c
  obtain ⟨hrun, hkeep⟩ := hloss.run told q
  have hgrow := hloss.growsBy told q
  have hpass := fun x hs => hloss.passes (b := q) (x := x) told hs
  have hended := fun x (hx : x ∈ told) t => hloss.siteEnded (s := s) (b := q) hx (t := t)
  have hlostHold := fun x (hx : x ∈ told) => hloss.holdLost (b := q) hx
  generalize told.foldl (fun s x => cardLossCtx s c x) q = v at *
  have hwork := hgrow.work
  have hqwork := h.work
  refine ⟨hrun.dead h.dead, fun x p hpc hcl => hrun.staysLost (.inl h.dead) hpc (h.lost x p hpc hcl), fun d hd => ?_, fun d u hd hu => ?_,
    hgrow.sends h.sends, by omega, ?_, fun x r hr hrc hst => ⟨(h.first x r hr hrc).more hgrow.mail, ?_⟩,
    fun x hon hcl => ⟨fun u hu => ?_, fun hs => ?_⟩⟩
  · rw [State.blockPresence, hkeep.guard]; exact h.presence d hd
  · rw [State.supplyOn, hkeep.guard]; exact h.supply d u hd hu
  · obtain ⟨rs, hrs⟩ := h.records
    obtain ⟨rs', hrs', -⟩ := hkeep.records
    exact ⟨rs ++ rs', by rw [hrs', hrs, List.append_assoc]⟩
  · refine (h.spared x).trans (hpass x ?_)
    rcases (h.spared x).state with he | ⟨-, he⟩
    · rw [he]; exact hst.elim .inl (fun hb => .inr (.inl hb))
    · exact .inl he
  · have hat : (s.ctx x).inFlight = some u ∧ ((s.ctx x).state = .settling ∨ (s.ctx x).state = .restoring ∨ (s.ctx x).state = .measuring) ∧
        ∃ tag sel n lim k d timeout hold, (s.ctx x).step = some ⟨tag, .measure sel n lim k d timeout hold⟩ := by
      rcases hu with ⟨hs, hi, -, hstep⟩ | ⟨hs, hi, -, hstep⟩ | ⟨hs, hi, -, hstep⟩
      · exact ⟨hi, .inl hs, hstep⟩
      · exact ⟨hi, .inr (.inl hs), hstep⟩
      · exact ⟨hi, .inr (.inr hs), hstep⟩
    obtain ⟨hi, hst, hstep⟩ := hat
    obtain ⟨h1, h2, h3, h4, h5, -⟩ := (h.spared x).works (by rcases hst with hs | hs | hs <;> rw [hs] <;> nofun)
    refine hended x (hmem x hcl) u ⟨?_, by rw [h1]; exact hst⟩ (by rw [h2]; exact hi) (by rw [h3]; exact hstep) h4 h.records
    rw [← hon, Ctx.onCard, h5]
    rfl
  · obtain ⟨h1, -, -, -, h5, h6⟩ := (h.spared x).works (by rw [hs]; nofun)
    obtain ⟨hstep, hab⟩ := hlostHold x (hmem x hcl) (by rw [← hon, Ctx.onCard, h5]; rfl) (by rw [h1]; exact hs)
    exact ⟨hstep, fun hq => hab (by rw [h6]; exact hq)⟩

theorem laneLeft_onlyLane (b : State) (l : LaneId) (cause : LossCause) : OnlyLane b (laneLeft b l cause) := by
  have h := laneLeft_shape b l cause
  refine ⟨?_⟩
  rw [h]

theorem laneLeave_losesCard (h : BeforeLoss s b l) (hp : (b.lane l).partner = .card) (hc : b.cardOnLane l = some c)
    (cause : LossCause) : LosesCard s (laneLeave b l cause) c := by
  have hdead := cardEmptied_dead h hc cause
  have he := laneLeft_onlyLane b l cause
  rw [laneLeave_card hp]
  generalize laneLeft b l cause = e at *
  have hon : e.cardOnLane l = some c := by rw [he.shape]; exact hc
  rw [reportCardLoss_eq hon]
  refine (cardTold_out h hc he hdead).loses ?_ (fun x ⟨p, hpc, hcl⟩ => ?_)
  · exact (List.length_filter_le _ _).trans (le_of_eq (List.length_finRange ..))
  · refine List.mem_filter.2 ⟨List.mem_finRange x, List.any_eq_true.2 ⟨p, mem_cardPoints.2 hpc, ?_⟩⟩
    have hsame : e.claimed x p = b.claimed x p := by rw [he.shape]; rfl
    rw [hsame]
    exact h.claimed x p hcl

/-! ### An instrument that is lost -/

/-- What the loss of instrument lane `l` has left when the command's consequences begin. -/
structure LosesInstrument (s v : State) (l : LaneId) : Prop where
  sends : SendsIdle v
  work : v.matrixWork.length ≤ 30000
  records : ∃ rs, v.queue.records = s.queue.records ++ rs
  unsure : ∀ x, (s.busEntry x).lane = l → (s.busEntry x).kind = .source → (v.ctx x).source = .unsure ∧ v.channelUsable x = false
  exchanges : ∀ x, (s.busEntry x).lane = l → (s.busEntry x).kind = .source →
    ((s.ctx x).request = some .quiet → (s.ctx x).state = .quieting → ToldFirst v x (.quieted x false) ∧ ∃ q src, (v.ctx x) = { s.ctx x with request := q, source := src }) ∧
    ((s.ctx x).request = some .live → (s.ctx x).state = .restoring → ToldFirst v x (.lived x false) ∧ ∃ q src, (v.ctx x) = { s.ctx x with request := q, source := src })
  ends : ∀ x, (s.busEntry x).lane = l → (∀ u, WorksAt s x .measuring u → SiteEnded s v x u .lane) ∧
    ((s.ctx x).state = .holding → v.trunk.attn.step = true ∧ ((s.ctx x).queue = [] → (v.ctx x).Aborted))

theorem LosesInstrument.trunk (h : LosesInstrument s v l) {k : Trunk} (hk : k.attn = v.trunk.attn) : LosesInstrument s { v with trunk := k } l where
  sends := h.sends
  work := h.work
  records := h.records
  unsure := h.unsure
  exchanges := h.exchanges
  ends := fun x hx => ⟨(h.ends x hx).1, fun hs => ⟨(congrArg AttnSet.step hk).trans ((h.ends x hx).2 hs).1, ((h.ends x hx).2 hs).2⟩⟩

/-- A site whose exchange is answered as failed ends INVALID with cause LANE (R50, R81). -/
theorem exchange_ended {m : Mail} {u : Site} {st : CtxState} (h : LosesInstrument s v l) (htold : ToldFirst v x m) (hw : WorksAt s x st u)
    (hst : st.working = true ∧ st ≠ .blocked) (hctx : ∃ q src, (v.ctx x) = { s.ctx x with request := q, source := src })
    (hends : ∀ w : State, (w.ctx x).state = st → (w.ctx x).inFlight = some u → doMail w m = endSite w x .lane) :
    EndedBy s (finish v) x u .lane := by
  obtain ⟨hs, hin, -, hstep⟩ := hw
  obtain ⟨q, src, hv⟩ := hctx
  have hvs : (v.ctx x).state = st := by rw [hv]; exact hs
  have hvin : (v.ctx x).inFlight = some u := by rw [hv]; exact hin
  have hvstep : (v.ctx x).step = (s.ctx x).step := by rw [hv]
  refine htold.endedBy h.sends h.work (by rw [hvs]; exact hst.1) hvin (by rw [hvstep]; exact hstep) (by rw [Ctx.stepTag, hvstep]; rfl) h.records
    (fun w hsp => hends w ?_ ?_)
  · rw [hsp.state.resolve_right (fun hb => hst.2 (hvs.symm.trans hb.1))]; exact hvs
  · rw [hsp.rest]; exact hvin

theorem LosesInstrument.gone (h : LosesInstrument s v l) : InstrumentGone s (finish v) l := by
  have hrun : Run True True (fun _ => True) v (drain drainBound v) := .drain drainBound trivial (fun _ => trivial) .refl
  refine fun x hx => ⟨fun hk => ⟨?_, fun u hu => ?_⟩, fun u hu => ((h.ends x hx).1 u hu).endedBy,
    fun hs => .of ((h.ends x hx).2 hs).1 ((h.ends x hx).2 hs).2⟩
  · obtain ⟨hu, hc⟩ := h.unsure x hx hk
    rw [finish_ctx]
    exact hrun.unsure hc hu
  · obtain ⟨hq, hl⟩ := h.exchanges x hx hk
    rcases hu with ⟨hw, hr⟩ | ⟨hw, hr⟩
    · obtain ⟨htold, hctx⟩ := hq hr hw.1
      refine exchange_ended h htold hw ⟨rfl, nofun⟩ hctx (fun w hs hi => ?_)
      unfold doMail
      dsimp only
      rw [hs, hi]
      rfl
    · obtain ⟨htold, hctx⟩ := hl hr hw.1
      refine exchange_ended h htold hw ⟨rfl, nofun⟩ hctx (fun w hs hi => ?_)
      unfold doMail
      dsimp only
      rw [hs, hi]
      rfl

/-- What is left of instrument lane `l` when the contexts on it are told. -/
structure InstrumentOut (s q : State) (l : LaneId) : Prop where
  sends : SendsIdle q
  work : q.matrixWork.length ≤ 4096
  records : ∃ rs, q.queue.records = s.queue.records ++ rs
  unusable : ∀ x, (s.busEntry x).lane = l → q.channelUsable x = false
  unsure : ∀ x, (s.busEntry x).lane = l → (s.busEntry x).kind = .source → (q.ctx x).source = .unsure
  quieted : ∀ x, (s.busEntry x).lane = l → (s.busEntry x).kind = .source → (s.ctx x).request = some .quiet → ToldFirst q x (.quieted x false)
  lived : ∀ x, (s.busEntry x).lane = l → (s.busEntry x).kind = .source → (s.ctx x).request = some .live → ToldFirst q x (.lived x false)
  ctx : ∀ x, ∃ d, (s.ctx x).Spared d ∧ d.Cut (q.ctx x)

theorem mem_sourceBusesOn {u : State} : x ∈ sourceBusesOn u l ↔ (u.busEntry x).kind = .source ∧ (u.busEntry x).lane = l := by
  simp [sourceBusesOn, allBuses, List.mem_finRange]

theorem length_sourceBusesOn (u : State) (l : LaneId) : (sourceBusesOn u l).length ≤ 8 :=
  (List.length_filter_le _ _).trans (le_of_eq (List.length_finRange ..))

theorem sourcesLost_out {e : State} (h : BeforeLoss s b l) (hp : (b.lane l).partner ≠ .card) (he : OnlyLane b e)
    (hl : (e.lane l).state ≠ .active) : InstrumentOut s (sourcesLost e l) l := by
  have htells := foldl_tellsAll (fun u y => TellsOne.sourceLost u y) (sourceBusesOn e l) e
  have htold := fun x (hx : x ∈ sourceBusesOn e l) => foldl_told (l := sourceBusesOn e l) (fun u y => TellsOne.sourceLost u y)
    ((List.nodup_finRange 8).filter _) hx e
  have hbuses := length_sourceBusesOn e l
  have hectx : ∀ x, e.ctx x = b.ctx x := fun x => by rw [he.shape]; rfl
  have hemail : e.mail = b.mail := by rw [he.shape]
  have hbus : ∀ x, e.busEntry x = s.busEntry x := fun x => by rw [State.busEntry, he.shape, h.tables]; rfl
  have hmem : ∀ x, (s.busEntry x).lane = l → (s.busEntry x).kind = .source → x ∈ sourceBusesOn e l := fun x hx hk =>
    mem_sourceBusesOn.2 ⟨by rw [hbus]; exact hk, by rw [hbus]; exact hx⟩
  have hask : ∀ x (r : Request) (m : Mail), (∀ q, r ≠ .opens q) → (s.ctx x).request = some r → x ∈ sourceBusesOn e l →
      (∀ u : State, (u.ctx x).request = some r → (sourceLost u x).mail = u.mail ++ [m]) → ToldFirst (sourcesLost e l) x m :=
    fun x r m hno hr hx hm => by
      obtain ⟨u, -, h2, -, h4, h5, rest, h6⟩ := htold x hx
      rw [hm u (by rw [h2, hectx]; exact h.asks x r hr hno), List.append_assoc, List.singleton_append] at h6
      have hmail := h.mail.1
      rw [hemail] at h5 h4
      refine ⟨u.mail, rest, h6, by omega, fun n hn => (h4 n hn).elim (fun hb hx' => ?_) id⟩
      obtain ⟨q, hq⟩ := h.mail.2 n hb
      rw [hx', hr] at hq
      exact hno q (Option.some_inj.1 hq)
  rw [← sourcesLost_eq] at htells
  refine ⟨fun d hd => ?_, ?_, ?_, fun x hx => ?_, fun x hx hk => ?_,
    fun x hx hk hr => hask x .quiet _ nofun hr (hmem x hx hk) (fun u hu => by rw [sourceLost_quiet hu]; rfl),
    fun x hx hk hr => hask x .live _ nofun hr (hmem x hx hk) (fun u hu => by rw [sourceLost_live hu]; rfl), fun x => ?_⟩
  · have hwork : (sourcesLost e l).matrixWork = b.matrixWork := by rw [htells.rest, he.shape]
    have hcard : (sourcesLost e l).card d = b.card d := by rw [htells.rest, he.shape]; rfl
    rw [hwork] at hd
    rw [hcard]
    exact (h.sends d hd).resolve_right (fun hn => hp hn.1)
  · rw [show (sourcesLost e l).matrixWork = b.matrixWork by rw [htells.rest, he.shape]]; exact h.work
  · rw [show (sourcesLost e l).queue = b.queue by rw [htells.rest, he.shape]]; exact h.records
  · have hus : (sourcesLost e l).channelUsable x = e.channelUsable x := channelUsable_congr (by rw [htells.rest]) (by rw [htells.rest]) x
    rw [hus]
    unfold State.channelUsable State.laneHasInstrument
    dsimp only
    rw [hbus, hx]
    simp [hl]
  · obtain ⟨u, -, -, h3, -⟩ := htold x (hmem x hx hk)
    rw [← sourcesLost_eq] at h3
    rw [h3]
    exact (sourceLost_ctx u x).2
  · refine ⟨b.ctx x, h.spared x, ?_⟩
    by_cases hx : x ∈ sourceBusesOn e l
    · obtain ⟨u, -, h2, h3, -⟩ := htold x hx
      rw [← sourcesLost_eq] at h3
      rw [h3, ← hectx, ← h2]
      exact (sourceLost_ctx u x).1
    · rw [htells.others x hx, hectx]
      exact .refl _

/-- What a context keeps of its stage when an exchange is lost. -/
theorem InstrumentOut.kept {q : State} (h : InstrumentOut s q l) (hs : (s.ctx x).state ≠ .blocked) :
    ∃ r src, q.ctx x = { s.ctx x with request := r, source := src } := by
  obtain ⟨d, hd, r, src, hq⟩ := h.ctx x
  refine ⟨r, src, ?_⟩
  have hst := hd.state.resolve_right (fun hb => hs hb.1)
  rw [hq, hd.rest, hst]

theorem InstrumentOut.loses {q : State} (h : InstrumentOut s q l) {told : List Bus} (hlen : told.length ≤ 8)
    (hmem : ∀ x, (s.busEntry x).lane = l → x ∈ told) : LosesInstrument s (told.foldl instrumentLossCtx q) l := by
  have hloss := instrumentLoss_busLoss
  obtain ⟨hrun, hkeep⟩ := hloss.run told q
  have hgrow := hloss.growsBy told q
  have hpass := fun x hs => hloss.passes (b := q) (x := x) told hs
  have hended := fun x (hx : x ∈ told) t => hloss.siteEnded (s := s) (b := q) hx (t := t)
  have hlostHold := fun x (hx : x ∈ told) => hloss.holdLost (b := q) hx
  generalize told.foldl instrumentLossCtx q = v at *
  have hwork := hgrow.work
  have hqwork := h.work
  have hstays : ∀ x, (s.ctx x).state = .quieting ∨ (s.ctx x).state = .restoring →
      ∃ r src, v.ctx x = { s.ctx x with request := r, source := src } := fun x hst => by
    obtain ⟨r, src, hq⟩ := h.kept (x := x) (by rcases hst with hs | hs <;> rw [hs] <;> nofun)
    have hqs : (q.ctx x).state = (s.ctx x).state := by rw [hq]
    have hsp := hpass x (by rw [hqs]; exact hst.elim (fun hs => .inr (.inr (.inl hs))) (fun hs => .inr (.inr (.inr ⟨hs, fun _ hm => hm⟩))))
    refine ⟨(v.ctx x).request, src, ?_⟩
    have hvs := hsp.state.resolve_right (fun hb => by rw [hqs] at hb; rcases hst with hs | hs <;> rw [hs] at hb <;> cases hb.1)
    rw [hsp.rest, hvs, hq]
  refine ⟨hgrow.sends h.sends, by omega, ?_, fun x hx hk => ⟨hrun.unsure (h.unusable x hx) (h.unsure x hx hk), ?_⟩,
    fun x hx hk => ⟨fun hr hs => ⟨(h.quieted x hx hk hr).more hgrow.mail, hstays x (.inl hs)⟩,
      fun hr hs => ⟨(h.lived x hx hk hr).more hgrow.mail, hstays x (.inr hs)⟩⟩,
    fun x hx => ⟨fun u ⟨hs, hi, _, hstep⟩ => ?_, fun hs => ?_⟩⟩
  · obtain ⟨rs, hrs⟩ := h.records
    obtain ⟨rs', hrs', -⟩ := hkeep.records
    exact ⟨rs ++ rs', by rw [hrs', hrs, List.append_assoc]⟩
  · rw [channelUsable_congr hkeep.tables hkeep.lanes]; exact h.unusable x hx
  · obtain ⟨r, src, hq⟩ := h.kept (x := x) (by rw [hs]; nofun)
    refine hended x (hmem x hx) u (by rw [Ctx.Measures, hq]; exact hs) (by rw [hq]; exact hi) (by rw [hq]; exact hstep) (by rw [hq]; rfl) h.records
  · obtain ⟨r, src, hq⟩ := h.kept (x := x) (by rw [hs]; nofun)
    obtain ⟨h1, h2⟩ := hlostHold x (hmem x hx) trivial (by rw [hq]; exact hs)
    exact ⟨h1, fun hqueue => h2 (by rw [hq]; exact hqueue)⟩

theorem laneLeave_losesInstrument (h : BeforeLoss s b l) (hp : (b.lane l).partner = .instrument) (cause : LossCause) :
    LosesInstrument s (laneLeave b l cause) l := by
  have he := laneLeft_onlyLane b l cause
  have hl : ((laneLeft b l cause).lane l).state ≠ .active := by
    rw [laneLeft, State.lane_setLane_self]
    exact Lane.left_notActive _ _
  rw [laneLeave_instrument hp]
  generalize laneLeft b l cause = e at *
  refine (sourcesLost_out h (by rw [hp]; nofun) he hl).loses ?_ (fun x hx => ?_)
  · exact (List.length_filter_le _ _).trans (le_of_eq (List.length_finRange ..))
  · refine List.mem_filter.2 ⟨List.mem_finRange x, ?_⟩
    have hbus : e.busEntry x = s.busEntry x := by rw [State.busEntry, he.shape, h.tables]; rfl
    rw [hbus, hx]
    exact beq_self_eq_true l

/-! ### The lane -/

/-- What a lane's leaving ACTIVE does at the other blocks, at the end of the command (R177). -/
theorem laneLeave_gone (h : BeforeLoss s b l) (cause : LossCause) {k : Trunk} (hk : k.attn = (laneLeave b l cause).trunk.attn) :
    LaneGone s (finish { laneLeave b l cause with trunk := k }) l := by
  refine ⟨fun hp c hc => ?_, fun hp => ?_⟩
  · have hcb : b.cardOnLane l = some c := by
      rw [← hc]
      unfold State.cardOnLane State.cardEntry
      rw [h.tables]
    exact ((laneLeave_losesCard h (h.partner.trans hp) hcb cause).trunk hk).gone
  · exact ((laneLeave_losesInstrument h (h.partner.trans hp) cause).trunk hk).gone

end Sys2Proof.Machine
end

