-- ==== Sys2Proof/Proofs/LanesLeft.lean ====
section
/-!
PROOFS. What a lane's leaving ACTIVE leaves alone, and the commands and frames that make a lane leave it: LANE_RESET, LANE_OFF,
LANE_ON (R181, R182) and BAD_FRAME (R176).
-/

-- One proof after another: in the joined text each worker would hold a stack of its own.
set_option Elab.async false

namespace Sys2Proof.Machine

variable {s b u v w : State} {x : Bus} {l : LaneId} {c : CardId}

/-! ### What a loss keeps -/

/-- What neither a lane's loss nor a command's end changes, and what they only add to. -/
structure LossKeeps (s t : State) : Prop where
  tables : t.tables = s.tables
  lanes : t.lanes = s.lanes
  rack : t.guard.rack = s.guard.rack
  trips : t.guard.trips = s.guard.trips
  responses : t.trunk.responses = s.trunk.responses
  laneRaised : s.trunk.attn.lane = true → t.trunk.attn.lane = true
  wear : ∀ x p, (t.xp x p).wear = (s.xp x p).wear
  reasons : ∀ c, (t.card c).rejectReason = (s.card c).rejectReason
  sent : ∃ r, t.out = s.out ++ r

theorem LossKeeps.refl (s : State) : LossKeeps s s := ⟨rfl, rfl, rfl, rfl, rfl, id, fun _ _ => rfl, fun _ => rfl, [], (List.append_nil _).symm⟩

theorem LossKeeps.trans (h : LossKeeps s u) (k : LossKeeps u v) : LossKeeps s v := by
  refine ⟨k.tables.trans h.tables, k.lanes.trans h.lanes, k.rack.trans h.rack, k.trips.trans h.trips, k.responses.trans h.responses,
    fun hs => k.laneRaised (h.laneRaised hs), fun x p => (k.wear x p).trans (h.wear x p), fun c => (k.reasons c).trans (h.reasons c), ?_⟩
  obtain ⟨r, hr⟩ := h.sent
  obtain ⟨r', hr'⟩ := k.sent
  exact ⟨r ++ r', by rw [hr', hr, List.append_assoc]⟩

theorem Keeps.lossKeeps {Q : Rec → Prop} (h : Keeps Q s u) (hsent : ∃ r, u.out = s.out ++ r) : LossKeeps s u where
  tables := h.tables
  lanes := h.lanes
  rack := by rw [h.guard]
  trips := by rw [h.guard]
  responses := by rw [h.trunk]
  laneRaised := h.laneRaised
  wear := fun x p => h.wear _
  reasons := h.reasons
  sent := hsent

theorem finish_lossKeeps (s : State) : LossKeeps s (finish s) := by
  obtain ⟨h1, h2, -, -, h5, h6, -⟩ := finish_leaves s
  exact ⟨h1, h2, by rw [finish_guard], by rw [finish_guard], finish_responses s, finish_laneRaised, h5, h6, finish_sent s⟩

theorem setPresence_lossKeeps (s : State) (d : Block) (p : Presence) : LossKeeps s (s.setPresence d p) :=
  ⟨rfl, rfl, rfl, rfl, rfl, id, fun _ _ => rfl, fun _ => rfl, [], (List.append_nil _).symm⟩

theorem setSupply_lossKeeps (s : State) (u : Site) (on : Bool) : LossKeeps s (s.setSupply u on) :=
  ⟨rfl, rfl, rfl, rfl, rfl, id, fun _ _ => rfl, fun _ => rfl, [], (List.append_nil _).symm⟩

theorem cardBlocksLost_lossKeeps (s : State) (c : CardId) : LossKeeps s (cardBlocksLost s c) := by
  unfold cardBlocksLost
  have hpresence : ∀ (ks : List (Fin 8)) (u : State),
      LossKeeps u (ks.foldl (fun s k => s.setPresence (blockOnCard c k) .unknown) u) := fun ks => by
    induction ks with
    | nil => exact .refl
    | cons k ks ih => exact fun u => (setPresence_lossKeeps u _ _).trans (ih _)
  have hsupply : ∀ (ts : List Site) (u : State), LossKeeps u (ts.foldl (fun s t => s.setSupply t false) u) := fun ts => by
    induction ts with
    | nil => exact .refl
    | cons k ks ih => exact fun u => (setSupply_lossKeeps u _ _).trans (ih _)
  exact (hpresence _ _).trans (hsupply _ _)

theorem BusLoss.lossKeeps {f : State → Bus → State} {hits reaches : Ctx → Prop} (hf : BusLoss f hits reaches) (told : List Bus)
    (b : State) : LossKeeps b (told.foldl f b) := (hf.run told b).2.lossKeeps (hf.run told b).1.sent

theorem cardTold_lossKeeps (s : State) (c : CardId) : LossKeeps s (cardTold s c) := by
  have hkeeps : Keeps (fun _ => False) s (cardTold s c) :=
    Keeps.foldl _ (fun _ x hu => hu.requestLosesCard c _ x) _ ((Keeps.refl s).cardEmptied c)
  have hout : (cardTold s c).out = s.out := by rw [(cardTold_tells s c).rest, cardEmptied_eq]
  exact hkeeps.lossKeeps ⟨[], by rw [List.append_nil]; exact hout⟩

theorem reportCardLoss_lossKeeps (s : State) (l : LaneId) : LossKeeps s (reportCardLoss s l) := by
  cases hc : s.cardOnLane l with
  | none =>
    unfold reportCardLoss
    rw [hc]
    exact .refl s
  | some c =>
    rw [reportCardLoss_eq hc]
    exact ((cardTold_lossKeeps s c).trans (cardBlocksLost_lossKeeps _ c)).trans ((cardLoss_busLoss c).lossKeeps _ _)

theorem reportInstrumentLoss_lossKeeps (s : State) (l : LaneId) : LossKeeps s (reportInstrumentLoss s l) := by
  have hsources : LossKeeps s (sourcesLost s l) := by
    refine ((Keeps.refl (Q := fun _ => False) s).sourcesLost l).lossKeeps ⟨[], ?_⟩
    rw [List.append_nil, sourcesLost_eq, (foldl_tellsAll (fun u y => TellsOne.sourceLost u y) (sourceBusesOn s l) s).rest]
  exact hsources.trans (instrumentLoss_busLoss.lossKeeps _ _)

/-- After the lane itself, what its leaving does keeps what a loss keeps. -/
theorem laneLeave_lossKeeps (b : State) (l : LaneId) (cause : LossCause) : LossKeeps (laneLeft b l cause) (laneLeave b l cause) := by
  cases hp : (b.lane l).partner with
  | none => rw [laneLeave_none hp]; exact .refl _
  | card => rw [laneLeave_card hp]; exact reportCardLoss_lossKeeps _ l
  | instrument => rw [laneLeave_instrument hp]; exact reportInstrumentLoss_lossKeeps _ l

/-- What the leaving of lane `l` in `b` shows at the lanes and at the stores of `t` (R177). -/
structure LeftLane (b t : State) (l : LaneId) (cause : LossCause) : Prop where
  lane : t.lane l = (b.lane l).left cause
  others : ∀ k, k ≠ l → t.lane k = b.lane k
  tables : t.tables = b.tables
  rack : t.guard.rack = b.guard.rack
  trips : t.guard.trips = b.guard.trips
  raised : t.trunk.attn.lane = true
  wear : ∀ x p, (t.xp x p).wear = (b.xp x p).wear
  reasons : ∀ c, (t.card c).rejectReason = (b.card c).rejectReason
  resync : ((b.lane l).left cause).state = .recover → (l, .resync) ∈ t.out

theorem LeftLane.keeps {cause : LossCause} (h : LeftLane b u l cause) (k : LossKeeps u v) : LeftLane b v l cause := by
  have hlane : ∀ k', v.lane k' = u.lane k' := fun k' => by rw [State.lane, k.lanes]; rfl
  refine ⟨(hlane l).trans h.lane, fun k' hk => (hlane k').trans (h.others k' hk), k.tables.trans h.tables, k.rack.trans h.rack,
    k.trips.trans h.trips, k.laneRaised h.raised, fun x p => (k.wear x p).trans (h.wear x p),
    fun c => (k.reasons c).trans (h.reasons c), fun hr => ?_⟩
  obtain ⟨r, hr'⟩ := k.sent
  rw [hr']
  exact List.mem_append_left _ (h.resync hr)

theorem laneLeft_left (b : State) (l : LaneId) (cause : LossCause) :
    LeftLane b (laneLeft b l cause) l cause ∧ (laneLeft b l cause).trunk.responses = b.trunk.responses := by
  have hshown : (laneShown b l cause) = { b with trunk := (laneShown b l cause).trunk, out := (laneShown b l cause).out } ∧
      (laneShown b l cause).trunk = { b.trunk with attn := b.trunk.attn.raised .lane } ∧
      (((b.lane l).left cause).state = .recover → (l, .resync) ∈ (laneShown b l cause).out) := by
    unfold laneShown
    split
    · exact ⟨rfl, rfl, fun _ => List.mem_append_right _ (List.mem_singleton.2 rfl)⟩
    · next h => exact ⟨rfl, rfl, fun hr => absurd hr h⟩
  obtain ⟨hrest, htrunk, hsync⟩ := hshown
  unfold laneLeft
  generalize laneShown b l cause = e at *
  have hlanes : e.lanes = b.lanes := by rw [hrest]
  refine ⟨⟨State.lane_setLane_self _ _ _, fun k hk => ?_, ?_, ?_, ?_, ?_, fun x p => ?_, fun c => ?_, hsync⟩, ?_⟩
  · exact (State.lane_setLane _ _ _ _).trans ((if_neg (Ne.symm hk)).trans (by rw [State.lane, hlanes]; rfl))
  · exact (show e.tables = b.tables by rw [hrest])
  · exact (show e.guard.rack = b.guard.rack by rw [hrest])
  · exact (show e.guard.trips = b.guard.trips by rw [hrest])
  · exact (show e.trunk.attn.lane = true by rw [htrunk]; rfl)
  · exact (show (e.xp x p).wear = (b.xp x p).wear by rw [hrest]; rfl)
  · exact (show (e.card c).rejectReason = (b.card c).rejectReason by rw [hrest]; rfl)
  · exact (show e.trunk.responses = b.trunk.responses by rw [htrunk])

theorem laneLeave_left (b : State) (l : LaneId) (cause : LossCause) :
    LeftLane b (laneLeave b l cause) l cause ∧ (laneLeave b l cause).trunk.responses = b.trunk.responses :=
  ⟨(laneLeft_left b l cause).1.keeps (laneLeave_lossKeeps b l cause),
    (laneLeave_lossKeeps b l cause).responses.trans (laneLeft_left b l cause).2⟩

/-- Nothing of the command has been done yet but what its frame does to a lane's error count. -/
theorem BeforeLoss.begin (hq : Quiesced s) (hc : ClaimsLawful s) (k : Vector Lane 8) (hp : k[l].partner = (s.lane l).partner) :
    BeforeLoss s { s.begin with lanes := k } l where
  tables := rfl
  guard := rfl
  partner := hp
  claimed := fun _ _ h => h
  keeps := ⟨(claimsLawful_iff.1 hc).listed, (claimsLawful_iff.1 hc).oneCard⟩
  spared := fun x => .refl _
  asks := fun _ _ h _ => h
  mail := ⟨(congrArg List.length hq.2).trans_le (Nat.zero_le _), fun n (hn : n ∈ s.mail) => by rw [hq.2] at hn; cases hn⟩
  work := (congrArg List.length hq.1).trans_le (Nat.zero_le _)
  sends := fun d (hd : .send d ∈ s.matrixWork) => by rw [hq.1] at hd; cases hd
  records := ⟨[], (List.append_nil _).symm⟩

/-! ### The lane commands (R181, R182) -/

/-- A command outside ACTIVE has set the record of lane `l` to `k` and ended its test. -/
structure LaneMoved (s u : State) (l : LaneId) (k : Lane) : Prop where
  lane : u.lane l = k
  others : ∀ j, j ≠ l → u.lane j = s.lane j
  rest : u = { s.begin with lanes := u.lanes, trunk := { s.trunk with responses := testsEnded s l } }

theorem testsEnded_idle (h : (s.lane l).state ≠ .test) : testsEnded s l = s.trunk.responses := by
  unfold testsEnded
  simp [h]

/-- The record of a lane with its test's progress given up, if it was in TEST. -/
def Lane.untested (k : Lane) : Lane := if k.state = .test then k.noTest else k

theorem endTest_moved (s : State) (l : LaneId) : LaneMoved s (endTest s.begin l) l (s.lane l).untested := by
  unfold endTest Lane.untested
  by_cases ht : (s.lane l).state = .test
  · have ht' : (s.begin.lane l).state = .test := ht
    rw [if_pos ht', if_pos ht]
    refine ⟨State.lane_modLane_self _ _ _, fun j hj => (State.lane_modLane _ l j _).trans (if_neg (Ne.symm hj)), ?_⟩
    unfold testsEnded
    simp only [ht, true_and]
    rfl
  · have ht' : ¬ (s.begin.lane l).state = .test := ht
    rw [if_neg ht', if_neg ht]
    exact ⟨rfl, fun _ _ => rfl, by rw [testsEnded_idle ht]; rfl⟩

theorem LaneMoved.modLane {k : Lane} (h : LaneMoved s u l k) (f : Lane → Lane) : LaneMoved s (u.modLane l f) l (f k) where
  lane := (State.lane_modLane_self _ _ _).trans (congrArg f h.lane)
  others := fun j hj => (State.lane_modLane _ l j _).trans ((if_neg (Ne.symm hj)).trans (h.others j hj))
  rest := by
    conv_lhs => rw [State.modLane, State.setLane, h.rest]
    rfl

/-- What such a command has done when it is done. -/
theorem LaneMoved.done {k : Lane} (h : LaneMoved s u l k) (tag : Half) (kind : Byte) (d : List Byte) :
    (finish (u.respond tag kind .ok d)).trunk.responses = testsEnded s l ++ [⟨tag, kind, .ok, d, none⟩] ∧
      (finish (u.respond tag kind .ok d)).lane l = k ∧ (∀ j, j ≠ l → (finish (u.respond tag kind .ok d)).lane j = s.lane j) ∧
      (finish (u.respond tag kind .ok d)).tables = s.tables ∧
      (Quiesced s → s.panel.state ≠ .closing →
        SameBlocks { s with lanes := (finish (u.respond tag kind .ok d)).lanes } (finish (u.respond tag kind .ok d)) ∧
          (finish (u.respond tag kind .ok d)).out = [] ∧ (finish (u.respond tag kind .ok d)).trunk.attn = s.trunk.attn) := by
  have hk := finish_lossKeeps (u.respond tag kind .ok d)
  have hlane : ∀ j, (finish (u.respond tag kind .ok d)).lane j = u.lane j := fun j => by rw [State.lane, hk.lanes]; rfl
  refine ⟨?_, (hlane l).trans h.lane, fun j hj => (hlane j).trans (h.others j hj), hk.tables.trans ?_, fun hq hp => ?_⟩
  · rw [hk.responses]
    exact congrArg (· ++ _) (show u.trunk.responses = testsEnded s l by rw [h.rest])
  · exact (show u.tables = s.tables by rw [h.rest]; rfl)
  · have hq' : Quiesced (u.respond tag kind .ok d) := by rw [h.rest]; exact hq
    have hp' : (u.respond tag kind .ok d).panel.state ≠ .closing := by rw [h.rest]; exact hp
    rw [finish_open hq' hp', pump_out, pump_attn]
    rw [h.rest]
    refine ⟨?_, rfl, rfl⟩
    exact ⟨pump_tables _, pump_matrix _, pump_ctxs _, pump_queue _, pump_guard _, pump_panel _, rfl, pump_markHigh _⟩

/-- What a command that made ACTIVE lane `l` leave it has done when it is done. -/
theorem laneLeave_done (ha : (s.lane l).state = .active) (cause : LossCause) (tag : Half) (kind : Byte) (d : List Byte) :
    LeftLane s (finish ((laneLeave s.begin l cause).respond tag kind .ok d)) l cause ∧
      (finish ((laneLeave s.begin l cause).respond tag kind .ok d)).trunk.responses =
        testsEnded s l ++ [⟨tag, kind, .ok, d, none⟩] ∧
      (Quiesced s → ClaimsLawful s → LaneGone s (finish ((laneLeave s.begin l cause).respond tag kind .ok d)) l) := by
  obtain ⟨hleft, hresp⟩ := laneLeave_left s.begin l cause
  have hk := finish_lossKeeps ((laneLeave s.begin l cause).respond tag kind .ok d)
  have hsaid : LeftLane s.begin ((laneLeave s.begin l cause).respond tag kind .ok d) l cause :=
    ⟨hleft.lane, hleft.others, hleft.tables, hleft.rack, hleft.trips, hleft.raised, hleft.wear, hleft.reasons, hleft.resync⟩
  have hend := hsaid.keeps hk
  refine ⟨⟨hend.lane, hend.others, hend.tables, hend.rack, hend.trips, hend.raised, hend.wear, hend.reasons, hend.resync⟩, ?_,
    fun hq hc => laneLeave_gone (.begin hq hc s.lanes rfl) cause rfl⟩
  rw [hk.responses, testsEnded_idle (by rw [ha]; decide)]
  exact congrArg (· ++ _) hresp

end Sys2Proof.Machine

namespace Sys2Proof

open Machine

theorem laneOff_moved {s : State} {l : LaneId} (ha : (s.lane l).state ≠ .active) : ∃ k : Lane, LaneMoved s (laneOff s.begin l) l k ∧
    k.state = .off ∧ k.partner = .none ∧ k.channels = 0 ∧
    k.loss = (if (s.lane l).state = .active ∨ (s.lane l).state = .recover then .off else (s.lane l).loss) := by
  have hloss : (s.lane l).untested.loss = (s.lane l).loss := by unfold Lane.untested; split <;> rfl
  by_cases hr : (s.lane l).state = .recover
  · have hend : endTest s.begin l = s.begin := by
      have hr' : (s.begin.lane l).state ≠ .test := by rw [show s.begin.lane l = s.lane l from rfl, hr]; decide
      rw [endTest, if_neg hr']
    have hm := (endTest_moved s l).modLane (fun k => { (k.alone .off) with loss := .off })
    rw [hend] at hm
    refine ⟨{ ((s.lane l).untested.alone .off) with loss := .off }, ?_, rfl, rfl, rfl, by rw [if_pos (.inr hr)]⟩
    unfold laneOff
    rw [show (s.begin.lane l).state = .recover from hr]
    exact hm
  · refine ⟨(s.lane l).untested.alone .off, ?_, rfl, rfl, rfl, (show (s.lane l).untested.loss = _ by rw [if_neg (by simp [ha, hr]), hloss])⟩
    unfold laneOff
    split
    · next h => exact absurd h ha
    · next h => exact absurd h hr
    · exact (endTest_moved s l).modLane (fun k => k.alone .off)

/-- Settles O33: a lane that was ACTIVE leaves it by `laneLeave_done`, another only changes its own record. -/
theorem laneCommandsMoveTheirLane : Obligations.LaneCommandsMoveTheirLane := by
  unfold Obligations.LaneCommandsMoveTheirLane
  intro s tag l h
  have hpayload : laneAt [byte l.val] 0 = some l := laneAt_byte l []
  refine ⟨?_, ?_, ?_, fun b hb => ?_⟩
  · have hexec := fun d (hd : d = [((laneReset s.begin l).lane l).state.code]) => exec_ran (c := .laneReset tag [byte l.val])
      (u := laneReset s.begin l) (d := d) rfl h rfl (by simp only [hpayload, laneReply, hd])
    by_cases ha : (s.lane l).state = .active
    · have hu : laneReset s.begin l = laneLeave s.begin l .reset := if_pos ha
      rw [hu] at hexec
      obtain ⟨hleft, hresp, hgone⟩ := laneLeave_done ha .reset tag 0x10#8 [1#8]
      refine ⟨_, hexec [1#8] (by rw [(laneLeave_left s.begin l .reset).1.lane]; rfl), hresp, ?_⟩
      rw [hleft.lane]
      exact ⟨rfl, rfl, rfl, rfl, rfl, hleft.others, hleft.tables, fun _ => ⟨hleft.raised, hgone⟩, fun hn => absurd ha hn⟩
    · have hu : laneReset s.begin l = (endTest s.begin l).modLane l (fun k => { (k.alone .down) with loss := .reset }) := if_neg ha
      have hm := (endTest_moved s l).modLane (fun k => { (k.alone .down) with loss := .reset })
      rw [hu] at hexec
      obtain ⟨hresp, hlane, hothers, htables, hsame⟩ := hm.done tag 0x10#8 [1#8]
      refine ⟨_, hexec [1#8] (by rw [hm.lane]; rfl), hresp, ?_⟩
      rw [hlane]
      refine ⟨rfl, rfl, rfl, rfl, ?_, hothers, htables, fun hn => absurd hn ha, fun _ => hsame⟩
      exact (show (s.lane l).untested.fault = _ by unfold Lane.untested; split <;> rfl)
  · have hexec := fun d (hd : d = [((laneOff s.begin l).lane l).state.code]) => exec_ran (c := .laneOff tag [byte l.val])
      (u := laneOff s.begin l) (d := d) rfl h rfl (by simp only [hpayload, laneReply, hd])
    by_cases ha : (s.lane l).state = .active
    · have hu : laneOff s.begin l = laneLeave s.begin l .off := by
        unfold laneOff
        rw [show (s.begin.lane l).state = .active from ha]
      rw [hu] at hexec
      obtain ⟨hleft, hresp, hgone⟩ := laneLeave_done ha .off tag 0x11#8 [0#8]
      refine ⟨_, hexec [0#8] (by rw [(laneLeave_left s.begin l .off).1.lane]; rfl), hresp, ?_⟩
      rw [hleft.lane]
      exact ⟨rfl, rfl, rfl, by rw [if_pos (.inl ha)]; rfl, hleft.others, hleft.tables, fun _ => ⟨hleft.raised, hgone⟩, fun hn => absurd ha hn⟩
    · obtain ⟨k, hm, hstate, hpartner, hchannels, hloss⟩ := laneOff_moved ha
      obtain ⟨hresp, hlane, hothers, htables, hsame⟩ := hm.done tag 0x11#8 [0#8]
      refine ⟨_, hexec [0#8] (by rw [hm.lane, hstate]; rfl), hresp, ?_⟩
      rw [hlane]
      exact ⟨hstate, hpartner, hchannels, hloss, hothers, htables, fun hn => absurd hn ha, fun _ => hsame⟩
  · have hexec := exec_ok (c := .laneOn tag [byte l.val]) (u := laneOn s.begin l) (d := [((laneOn s.begin l).lane l).state.code])
      rfl h rfl (by simp only [hpayload])
    by_cases ho : (s.lane l).state = .off
    · have hu : laneOn s.begin l = enterDetect s.begin l := if_pos ho
      rw [hu] at hexec
      have hlane : (enterDetect s.begin l).lane l = (s.lane l).alone .detect := State.lane_modLane_self s.begin l (fun k => k.alone .detect)
      rw [hlane] at hexec
      refine ⟨_, hexec, fun k hk => ?_, by simp [SameBlocks, enterDetect], fun _ => ?_, fun hn => absurd ho hn⟩
      · simp only [State.lane, pump_lanes, State.respond_lanes]
        exact (State.lane_modLane s.begin l k (fun k => k.alone .detect)).trans (if_neg (Ne.symm hk))
      · simp only [State.lane, pump_lanes, State.respond_lanes]
        have hlane' : (enterDetect s.begin l).lanes[l] = (s.lane l).alone .detect := hlane
        rw [hlane']
        exact ⟨rfl, rfl, by simp [enterDetect], by simp [Answered, enterDetect]; rfl⟩
    · have hu : laneOn s.begin l = s.begin := if_neg ho
      rw [hu] at hexec
      exact ⟨_, hexec, fun k _ => by simp [State.lane], by simp [SameBlocks], fun hn => absurd hn ho,
        fun _ => ⟨by simp [State.lane], by simp, by simp [Answered]; rfl⟩⟩
  · have hn : laneAt [b] 0 = none := laneAt_none hb []
    exact ⟨onlyReplies_refused (c := .laneReset tag [b]) rfl h rfl (by simp only [hn]),
      onlyReplies_refused (c := .laneOff tag [b]) rfl h rfl (by simp only [hn]),
      onlyReplies_refused (c := .laneOn tag [b]) rfl h rfl (by simp only [hn])⟩

/-- Settles O36: the third bad frame makes the lane leave ACTIVE, an earlier one only counts. -/
theorem badFramesCountToRecover : Obligations.BadFramesCountToRecover := by
  unfold Obligations.BadFramesCountToRecover
  intro s l b
  have hstate : (s.begin.lane l) = s.lane l := rfl
  refine ⟨fun hb ha he => ?_, fun hb ha he => ?_, fun hb ha => ?_, fun hg ht => onlyCountsGood_of ?_⟩
  · simp only [exec, execBadFrame]
    rw [if_neg (by simp [hb, hstate, ha]), hstate, if_neg (by omega)]
    rfl
  · have hexec : exec (.badFrame l b) s =
        .next (finish (laneLeave (s.begin.modLane l (fun k => { k with errors := 3 })) l .errors)) := by
      simp only [exec, execBadFrame, hb, hstate, ha]
      rw [if_neg (by simp), if_pos (by omega)]
    have hlane : (s.begin.modLane l (fun k => { k with errors := 3 })).lane l = { s.lane l with errors := 3 } :=
      State.lane_modLane_self s.begin l _
    have hleft := (laneLeave_left (s.begin.modLane l (fun k => { k with errors := 3 })) l .errors).1.keeps (finish_lossKeeps _)
    refine ⟨_, hexec, hleft.lane.trans (by rw [hlane]; rfl), fun k hk => (hleft.others k hk).trans ?_, ?_, hleft.raised, hleft.tables,
      hleft.rack, hleft.trips, hleft.wear, fun hq hc => ?_⟩
    · exact (State.lane_modLane s.begin l k _).trans (if_neg (Ne.symm hk))
    · exact hleft.resync (by rw [hlane]; rfl)
    · exact laneLeave_gone (.begin hq hc _ ((congrArg Lane.partner hlane).trans rfl)) .errors rfl
  · simp only [DoesNothing, exec, execBadFrame]
    rw [if_pos (by simp [hstate, ha])]
    rfl
  · simp only [exec, execLaneFrameDiscard, hg, ht]
    simp

end Sys2Proof
end

