-- ==== Sys2Proof/Proofs/ActingBuses.lean ====
section
/-!
PROOFS. What a context does in a command touches its own bus alone, and never a crosspoint of it that is UNKNOWN and that no make
request of it holds: a make needs its points free of UNKNOWN crosspoints (R27), and an open changes only those that are CLOSED (R22).
-/

-- One proof after another: in the joined text each worker would hold a stack of its own.
set_option Elab.async false

namespace Sys2Proof.Machine

variable {s t u : State} {x : Bus} {p : Pt}

/-- A make request of the context holds point `p`. -/
def Ctx.Makes (c : Ctx) (p : Pt) : Prop := ∃ r, c.request = some (.make r) ∧ p ∈ r.points

/-- Crosspoint (x, p) is UNKNOWN, and no make request of the bus holds it. -/
def Firm (s : State) (x : Bus) (p : Pt) : Prop := (s.xp x p).state = .unknown ∧ ¬ (s.ctx x).Makes p

/-- From `s` to `t` bus `x` has acted: nothing of another bus has changed, and crosspoint (x, p) has not where it was firm. -/
structure Acts (x : Bus) (p : Pt) (s t : State) : Prop where
  others : ∀ y, y ≠ x → t.ctx y = s.ctx y ∧ ∀ q, t.xp y q = s.xp y q
  own : Firm s x p → t.xp x p = s.xp x p ∧ ¬ (t.ctx x).Makes p

/-- A make that passes its checks is for no UNKNOWN crosspoint (R27). -/
theorem makeCheck_known {tg : Target} (h : makeCheck s x tg = none) {q : Pt} (hq : q ∈ tg.points) : (s.xp x q).state ≠ .unknown := by
  intro hu
  unfold makeCheck at h
  split at h
  · cases h
  · split at h
    · cases h
    · split at h
      · cases h
      · split at h
        · cases h
        · next hn => exact hn (List.any_eq_true.2 ⟨q, hq, by simp [hu]⟩)

namespace Acts

theorem refl (s : State) (x : Bus) (p : Pt) : Acts x p s s := ⟨fun _ _ => ⟨rfl, fun _ => rfl⟩, fun h => ⟨rfl, h.2⟩⟩

theorem firm (h : Acts x p s t) (hf : Firm s x p) : Firm t x p := ⟨by rw [(h.own hf).1]; exact hf.1, (h.own hf).2⟩

theorem trans (h : Acts x p s t) (k : Acts x p t u) : Acts x p s u where
  others := fun y hy => ⟨(k.others y hy).1.trans (h.others y hy).1, fun q => ((k.others y hy).2 q).trans ((h.others y hy).2 q)⟩
  own := fun hf => ⟨(k.own (h.firm hf)).1.trans (h.own hf).1, (k.own (h.firm hf)).2⟩

/-- Neither a context nor a crosspoint changes. -/
theorem still (h : Acts x p s t) (hc : u.ctxs = t.ctxs) (hx : u.matrix.xps = t.matrix.xps) : Acts x p s u := by
  have hctx : ∀ y, u.ctx y = t.ctx y := fun y => by rw [State.ctx, hc]; rfl
  have hxp : ∀ y q, u.xp y q = t.xp y q := fun y q => by rw [State.xp, hx]; rfl
  exact ⟨fun y hy => ⟨(hctx y).trans (h.others y hy).1, fun q => (hxp y q).trans ((h.others y hy).2 q)⟩,
    fun hf => ⟨(hxp x p).trans (h.own hf).1, by rw [hctx]; exact (h.own hf).2⟩⟩

theorem post (h : Acts x p s t) (m : Mail) : Acts x p s (t.post m) := h.still rfl rfl

theorem emit (h : Acts x p s t) (l : LaneId) (f : LaneFrame) : Acts x p s (t.emit l f) := h.still rfl rfl

theorem raise (h : Acts x p s t) (c : AttnClass) : Acts x p s (t.raise c) := h.still rfl rfl

theorem markHigh (h : Acts x p s t) (v : Bool) : Acts x p s { t with markHigh := v } := h.still rfl rfl

theorem setCard (h : Acts x p s t) (d : CardId) (k : CardCtl) : Acts x p s (t.setCard d k) := h.still rfl rfl

theorem pushWork (h : Acts x p s t) (ws : List MatrixWork) : Acts x p s (t.pushWork ws) :=
  h.still (State.pushWork_ctxs t ws) (congrArg Matrix.xps (State.pushWork_matrix t ws))

theorem modCtxMakes (h : Acts x p s t) {f : Ctx → Ctx} (hf : Firm s x p → ¬ (t.ctx x).Makes p → ¬ (f (t.ctx x)).Makes p) :
    Acts x p s (t.modCtx x f) where
  others := fun y hy => ⟨((State.ctx_setCtx t x y _).trans (if_neg (Ne.symm hy))).trans (h.others y hy).1, (h.others y hy).2⟩
  own := fun hfirm => ⟨(h.own hfirm).1, by rw [State.ctx_modCtx_self]; exact hf hfirm (h.own hfirm).2⟩

theorem modCtx (h : Acts x p s t) {f : Ctx → Ctx} (hf : ∀ c, (f c).request = c.request := by exact fun _ => rfl) :
    Acts x p s (t.modCtx x f) := h.modCtxMakes (fun _ hn ⟨r, hr, hp⟩ => hn ⟨r, (hf _).symm.trans hr, hp⟩)

/-- The request of the context becomes one that is no make, or none. -/
theorem asks (h : Acts x p s t) (q : Option Request) (hq : ∀ r, q ≠ some (.make r) := by nofun) :
    Acts x p s (t.modCtx x (fun c => { c with request := q })) := h.modCtxMakes (fun _ _ ⟨r, hr, _⟩ => hq r hr)

theorem setSource (h : Acts x p s t) (v : SrcState) : Acts x p s (t.setSource x v) := h.modCtx

/-- Crosspoints of the bus change, in a way that leaves an UNKNOWN one, or not at `p`. -/
theorem modXps (h : Acts x p s t) {ps : List Pt} {f : XRec → XRec} (hf : Firm s x p → p ∉ ps ∨ ∀ r, r.state = .unknown → f r = r) :
    Acts x p s (t.modXps x ps f) := by
  have hctx : ∀ y, (t.modXps x ps f).ctx y = t.ctx y := fun y => by rw [State.modXps_eq]; rfl
  refine ⟨fun y hy => ⟨(hctx y).trans (h.others y hy).1, fun q => ?_⟩, fun hfirm => ⟨?_, by rw [hctx]; exact (h.own hfirm).2⟩⟩
  · exact (State.xp_modXps_ne t f (.inl hy.symm)).trans ((h.others y hy).2 q)
  · rcases hf hfirm with hp | hf
    · exact (State.xp_modXps_ne t f (.inr hp)).trans (h.own hfirm).1
    · have hx : t.xp x p = s.xp x p := (h.own hfirm).1
      rw [← hx]
      exact State.xp_modXps_keeps t x x ps (P := fun r => r = t.xp x p)
        (fun r hr => by rw [hr, hf _ (by rw [hx]; exact hfirm.1)]) p rfl

/-! ### Orders and requests -/

theorem unreserve (h : Acts x p s t) (ps : List Pt) : Acts x p s (t.modXps x ps XRec.unreserved) :=
  h.modXps (fun _ => .inr (fun r hr => by rw [XRec.unreserved, hr]; rfl))

theorem sendOrder (h : Acts x p s t) (d : CardId) {o : Order} (hb : o.bus = x)
    (hm : Firm s x p → o.kind = .make → p ∉ o.points) : Acts x p s (sendOrder t d o) := by
  have hsent : Firm s x p → p ∉ o.points ∨ ∀ r : XRec, r.state = .unknown → o.sentTo r = r := fun hf => by
    by_cases hk : o.kind = .make
    · exact .inl (hm hf hk)
    · refine .inr (fun r hr => ?_)
      unfold Order.sentTo
      split
      · next h => exact absurd h hk
      · rw [hr]; rfl
  unfold Machine.sendOrder
  dsimp only
  split
  all_goals subst hb
  · split
    · exact ((h.emit _ _).setCard d _).modXps hsent
    · exact (h.setCard d _).modXps hsent
  · exact (h.setCard d _).modXps hsent

theorem answerOpens (h : Acts x p s t) : Acts x p s (answerOpens t x) := by
  unfold Machine.answerOpens
  split
  · split
    · exact (h.asks none).post _
    · exact h
  · exact h

theorem modOpens (h : Acts x p s t) (f : OpenReq → OpenReq) : Acts x p s (t.modOpens x f) :=
  h.modCtxMakes (fun _ hn => by
    split
    · exact fun ⟨_, hr, _⟩ => nomatch hr
    · exact hn)

theorem sendOpen (h : Acts x p s t) (d : CardId) {o : Order} (hb : o.bus = x) (hk : o.kind ≠ .make) : Acts x p s (sendOpen t d o) := by
  unfold Machine.sendOpen
  split
  · split
    · rw [hb]; exact h.answerOpens.pushWork _
    · exact h.pushWork _
  · exact h.sendOrder d hb (fun _ e => absurd e hk)

theorem withdrawOrder (h : Acts x p s t) (d : CardId) {o : Order} (hb : o.bus = x) (m : Mail) :
    Acts x p s (withdrawOrder t d o m) := by
  subst hb
  unfold Machine.withdrawOrder
  dsimp only
  split
  · exact (((h.unreserve _).pushWork _).asks none).post m
  · exact (h.unreserve _).pushWork _

theorem consider (h : Acts x p s t) (d : CardId) {o : Order} (hb : o.bus = x)
    (hm : Firm s x p → o.kind = .make → p ∉ o.points) : Acts x p s (consider t d o) := by
  unfold Machine.consider
  split
  · unfold sendOrWithdraw
    split
    · exact h.sendOrder d hb hm
    · exact h.withdrawOrder d hb _
    · exact h.withdrawOrder d hb _
  · next hk => exact h.sendOpen d hb hk

theorem reserve (h : Acts x p s t) (ps : List Pt) : Acts x p s (t.reserve x ps) := by
  refine h.modXps (fun hf => .inl (fun hp => ?_))
  have hfree := pointFree_iff.1 (List.mem_filter.1 hp).2 x
  have hclaimed : t.claimed x p = true := by
    rw [claimed_iff, (h.own hf).1, hf.1]
    nofun
  rw [hclaimed] at hfree
  cases hfree

theorem placeOrdinary (h : Acts x p s t) (d : CardId) {o : Order} (hb : o.bus = x)
    (hm : Firm s x p → o.kind = .make → p ∉ o.points) : Acts x p s (placeOrdinary t d o).1 := by
  have hreserve : Acts x p s (t.reserveFor o) := by
    unfold State.reserveFor
    split
    · rw [hb]; exact h.reserve _
    · exact h
  by_cases hl : 8 ≤ (t.card d).ordinary.length
  · rw [placeOrdinary_full hl]
    exact h
  · cases hi : (t.card d).idle with
    | true => rw [placeOrdinary_idle hi]; exact hreserve.consider d hb hm
    | false => rw [placeOrdinary_busy hi (Nat.not_le.1 hl)]; exact hreserve.setCard d _

theorem returnReservations (h : Acts x p s t) : Acts x p s (returnReservations t x) := (h.unreserve _).pushWork _

theorem placeMake (h : Acts x p s t) (d : CardId) {ps : List Pt} (hp : Firm s x p → p ∉ ps) : Acts x p s (placeMake t x d ps).1 := by
  have hplace := h.placeOrdinary d (o := ⟨.make, x, needClosing t x ps, true⟩) rfl
    (fun hf _ hmem => hp hf (by simp only [needClosing, List.mem_filter, Bool.and_eq_true, decide_eq_true_eq] at hmem; exact hmem.2.1))
  unfold Machine.placeMake
  split
  all_goals (rename_i hq; rw [hq] at hplace)
  · exact hplace
  · exact (hplace.asks none).returnReservations

theorem placeBreaks (h : Acts x p s t) (gs : List (CardId × List Pt)) : Acts x p s (gs.foldl (fun s g => placeBreak s x g) t) := by
  induction gs generalizing t with
  | nil => exact h
  | cons g gs ih =>
    refine ih ?_
    have hplace := h.placeOrdinary g.1 (o := ⟨.brk, x, g.2, true⟩) rfl nofun
    dsimp only [placeBreak]
    split
    · split
      all_goals (rename_i hq; rw [hq] at hplace)
      · exact hplace
      · exact hplace.modOpens _
    · exact h.modOpens _

theorem opensRequest (h : Acts x p s t) (ps : List Pt) : Acts x p s (opensRequest t x ps) :=
  (((h.asks (some (.opens ⟨_, false, false⟩))).unreserve _).pushWork _ |>.placeBreaks _).answerOpens

theorem handleAwaited (h : Acts x p s t) (ps : List Pt) : Acts x p s (handleAwaited t x ps) := by
  unfold Machine.handleAwaited
  split
  · exact ((h.modOpens _).placeBreaks _).answerOpens
  · exact h

/-- A make is refused where a point of the target is UNKNOWN, so that no request comes to hold one (R27). -/
theorem makeRequest (h : Acts x p s t) (tg : Target) : Acts x p s (makeRequest t x tg).1 := by
  unfold Machine.makeRequest
  split
  · exact h
  · next hcheck =>
    dsimp only
    have hp : Firm s x p → p ∉ tg.points := fun hf hmem => by
      have hknown := makeCheck_known hcheck hmem
      rw [(h.own hf).1] at hknown
      exact hknown hf.1
    have hreserve := h.reserve tg.points
    have hasks : ∀ w, Acts x p s ((t.reserve x tg.points).modCtx x (fun k => { k with request := some (.make ⟨cardOfBlock tg.block, tg.points, w⟩) })) :=
      fun w => hreserve.modCtxMakes (fun hf _ ⟨r, hr, hmem⟩ => hp hf (by cases hr; exact hmem))
    split
    · exact hreserve
    · split
      · have hplace := (hasks (tg.points.filter (fun p => (t.xp x p).state == .opn && !t.pointFree p))).placeMake (cardOfBlock tg.block) hp
        split
        all_goals (rename_i hq; rw [hq] at hplace; exact hplace)
      · exact hasks _

theorem withdrawMake (h : Acts x p s t) : Acts x p s (withdrawMake t x) := by
  unfold Machine.withdrawMake
  split
  · have hcards : ∀ u : State, Acts x p s u → Acts x p s (u.modCards (fun k => (k.without x (· == .make)).orphan x)) := fun u hu =>
      foldl_holds (f := fun s c => s.setCard c (((s.card c).without x (· == .make)).orphan x)) (P := fun u => Acts x p s u)
        (fun w c hw => hw.setCard c _) allCards hu
    exact (hcards _ (h.asks none)).returnReservations
  · exact h

/-! ### Records -/

theorem offered (h : Acts x p s t) {c : Option Slot → Ctx} (hc : ∀ k, (c k).request = (t.ctx x).request) (sl : Slot) :
    Acts x p s (offered t x c sl) := by
  have hset : ∀ (u : State) (k : Option Slot), u.ctxs = t.ctxs → u.matrix.xps = t.matrix.xps → Acts x p s (u.setCtx x (c k)) := fun u k hu hx =>
    (h.still hu hx).modCtxMakes (f := fun _ => c k) (fun _ hn ⟨r, hr, hp⟩ => hn ⟨r, by
      rw [← hr, hc, State.ctx, hu]; rfl, hp⟩)
  have happ : ∀ r, (appendRecord t r).ctxs = t.ctxs ∧ (appendRecord t r).matrix.xps = t.matrix.xps := fun r => by
    unfold appendRecord; dsimp only; split <;> exact ⟨rfl, rfl⟩
  unfold Machine.offered
  split
  · exact (hset { t with queue := t.queue.folded } none rfl rfl).post _
  · split
    · exact (hset _ none (happ _).1 (happ _).2).post _
    · exact hset t _ rfl rfl

theorem judgementShown (h : Acts x p s t) (v : Verdict) (d : DispEntry) (site : Option Site) :
    Acts x p s (judgementShown t v d site) := by
  rw [judgementShown_shape]
  exact h.still rfl rfl

theorem judgeInvalid (h : Acts x p s t) (cause : Cause) : Acts x p s (judgeInvalid t x cause) := by
  rw [judgeInvalid_eq]
  exact (h.judgementShown _ _ _).offered (fun k => by
    show (t.ctx x).request = _
    rw [State.ctx, State.ctx, judgementShown_ctxs]) _

theorem placeEnd (h : Acts x p s t) : Acts x p s (placeEnd t x) := by
  by_cases hs : (t.ctx x).slot ≠ none ∨ (t.ctx x).endPending = none
  · rw [placeEnd_none hs]; exact h
  · obtain ⟨hn, he⟩ := not_or.1 hs
    obtain ⟨e, he⟩ := Option.ne_none_iff_exists'.1 he
    rw [placeEnd_some (not_not.1 hn) he]
    exact h.offered (c := fun k => { t.ctx x with slot := k, endPending := none }) (fun _ => rfl) _

/-- A judged site's context is POSTING and looks. -/
theorem posts (h : Acts x p s t) (cause : Cause) :
    Acts x p s (((Machine.judgeInvalid t x cause).modCtx x (fun c => { c with state := .posting })).post (.poke x)) :=
  (h.judgeInvalid cause).modCtx.post _

theorem cancelTake (h : Acts x p s t) : Acts x p s (cancelTake t x) := by
  unfold Machine.cancelTake
  dsimp only
  split
  · exact (h.emit _ _).modCtx
  · exact h.modCtx

theorem endSite (h : Acts x p s t) (cause : Cause) : Acts x p s (endSite t x cause) := by
  have hend : ∀ u, Acts x p s u → Acts x p s (((Machine.judgeInvalid u x cause).modCtx x
      (fun c => if c.request.isNone then { c with state := .posting } else c)).post (.poke x)) := fun u hu =>
    ((hu.judgeInvalid cause).modCtx (fun c => by split <;> rfl)).post _
  unfold Machine.endSite
  dsimp only
  refine hend _ ?_
  split
  · exact h.withdrawMake
  · exact h.withdrawMake
  · exact h.modCtx
  · exact h.cancelTake
  · exact h

theorem quietRequest (h : Acts x p s t) : Acts x p s (quietRequest t x).1 := by
  unfold Machine.quietRequest
  split
  · exact h
  · split
    · exact h
    · exact h
    · exact h
    all_goals
      split
      · exact (h.emit _ _).setSource _
      · exact h.setSource _

theorem liveRequest (h : Acts x p s t) : Acts x p s (liveRequest t x).1 := by
  unfold Machine.liveRequest
  split
  · exact h
  · split
    · split
      · exact (h.emit _ _).setSource _
      · exact h
    all_goals exact h

/-! ### The site sequence -/

theorem enterMeasuring (h : Acts x p s t) : Acts x p s (enterMeasuring t x) := by
  unfold Machine.enterMeasuring
  split
  · split
    · dsimp only
      split
      · exact (h.modCtx.emit _ _).markHigh _
      · exact h.modCtx.emit _ _
    · exact h.posts _
  · exact h

theorem enterHolding (h : Acts x p s t) : Acts x p s (enterHolding t x) := h.modCtx.post _

theorem afterLive (h : Acts x p s t) : Acts x p s (afterLive t x) := by
  unfold Machine.afterLive
  split
  · exact h.enterHolding
  · exact h.enterMeasuring

theorem enterRestoring (h : Acts x p s t) : Acts x p s (enterRestoring t x) := by
  unfold Machine.enterRestoring
  dsimp only
  have h1 := (h.modCtx (f := fun c => { c with state := .restoring })).liveRequest
  split
  all_goals (rename_i hq; rw [hq] at h1)
  · exact h1.afterLive
  · exact h1.endSite _
  · exact h1
  · exact h1.asks (some .live)

theorem afterSettle (h : Acts x p s t) : Acts x p s (afterSettle t x) := by
  unfold Machine.afterSettle
  dsimp only
  split
  · exact h.modCtx.enterRestoring
  · exact h.modCtx.afterLive

theorem settleDecision (h : Acts x p s t) (stood : Bool) : Acts x p s (settleDecision t x stood) := by
  unfold Machine.settleDecision
  dsimp only
  split
  · exact h.afterSettle
  · split
    all_goals
      split
      · exact h.modCtx.afterSettle
      · exact h.modCtx

theorem askMake (h : Acts x p s t) : Acts x p s (askMake t x) := by
  unfold Machine.askMake
  split
  · exact h
  · next tg _ =>
    dsimp only
    have h1 := (h.modCtx (f := fun c => { c with state := .making })).makeRequest tg
    split
    all_goals (rename_i hq; rw [hq] at h1)
    · exact h1
    · exact h1.endSite _
    · exact h1.settleDecision _
    · exact h1.modCtx
    · exact h1

theorem enterBreaking (h : Acts x p s t) : Acts x p s (enterBreaking t x) := h.modCtx.opensRequest _

theorem afterQuiet (h : Acts x p s t) : Acts x p s (afterQuiet t x) := by
  unfold Machine.afterQuiet
  split
  · exact h.askMake
  · exact h.enterBreaking

theorem enterQuieting (h : Acts x p s t) : Acts x p s (enterQuieting t x) := by
  unfold Machine.enterQuieting
  dsimp only
  have h1 := (h.modCtx (f := fun c => { c with state := .quieting })).quietRequest
  split
  all_goals (rename_i hq; rw [hq] at h1)
  · exact h1.asks (some .quiet)
  · exact h1.endSite _
  · exact h1.afterQuiet

theorem startSite (h : Acts x p s t) (u : Site) : Acts x p s (startSite t x u) := by
  unfold Machine.startSite
  split
  · exact h
  · split
    · exact h
    · dsimp only
      split
      · exact h.modCtx.posts _
      · split
        · exact h.modCtx.modCtx.settleDecision _
        · split
          · exact h.modCtx.modCtx.enterQuieting
          · exact h.modCtx.modCtx.afterQuiet

/-! ### Sweeps, releases and the end of a step -/

theorem sweepEnds (h : Acts x p s t) (k : EndKind) : Acts x p s (sweepEnds t x k) := h.modCtx.post _

theorem nextSite (h : Acts x p s t) : Acts x p s (nextSite t x) := by
  unfold Machine.nextSite
  dsimp only
  split
  · exact h.modCtx.startSite _
  · exact h.modCtx.sweepEnds _

theorem releaseFails (h : Acts x p s t) (cause : Cause) : Acts x p s (releaseFails t x cause) := by
  unfold Machine.releaseFails
  dsimp only
  split
  · exact (h.judgeInvalid cause).modCtx.modCtx
  · exact h.modCtx

theorem askRelease (h : Acts x p s t) : Acts x p s (askRelease t x) := h.opensRequest _

theorem enterReleasing (h : Acts x p s t) (d : Dest) : Acts x p s (enterReleasing t x d) := by
  unfold Machine.enterReleasing
  dsimp only
  have h1 := (h.modCtx (f := fun c =>
    { c with state := .releasing, dest := d, relDone := false, after := .none, lastOk := false, inFlight := none })).quietRequest
  split
  all_goals (rename_i hq; rw [hq] at h1)
  · exact h1.asks (some .quiet)
  · exact (h1.releaseFails _).askRelease
  · exact h1.askRelease

theorem releaseAnswered (h : Acts x p s t) (f : Option Cause) : Acts x p s (releaseAnswered t x f) := by
  have hdone : ∀ u, Acts x p s u → Acts x p s ((u.modCtx x (fun c => { c with relDone := true })).post (.poke x)) :=
    fun u hu => hu.modCtx.post _
  cases f with
  | none => exact hdone t h
  | some cause =>
    unfold Machine.releaseAnswered
    dsimp only
    split
    · exact hdone _ (h.releaseFails cause)
    · exact hdone _ ((h.raise .step).releaseFails cause)
    · exact hdone _ (h.releaseFails cause)

theorem toIdle (h : Acts x p s t) : Acts x p s (toIdle t x) := h.modCtx.post _

theorem enterHalted (h : Acts x p s t) : Acts x p s (enterHalted t x) := h.modCtx.raise _

theorem arrive (h : Acts x p s t) : Acts x p s (arrive t x) := by
  unfold Machine.arrive
  split
  · exact h.toIdle
  · exact h.enterHalted

theorem endStep (h : Acts x p s t) : Acts x p s (endStep t x) := by
  unfold Machine.endStep
  split
  · split
    · exact h.enterHolding
    · exact h.enterReleasing _
  · exact h.enterReleasing _

theorem goOn (h : Acts x p s t) (a : Action) : Acts x p s (goOn t x a) := by
  unfold Machine.goOn
  split
  · exact h.modCtx.enterReleasing _
  · split
    · exact h.nextSite
    · exact h.endStep

theorem beginSweep (h : Acts x p s t) (w : Sweep) : Acts x p s (beginSweep t x w) := h.modCtx.nextSite

theorem continueSweep (h : Acts x p s t) (n : Nat) : Acts x p s (continueSweep t x n) := by
  unfold Machine.continueSweep
  dsimp only
  split
  · exact h.beginSweep _
  · exact h.beginSweep _
  · exact h.sweepEnds _
  all_goals exact h.modCtx.sweepEnds _

theorem takeHead (h : Acts x p s t) : Acts x p s (takeHead t x) := by
  unfold Machine.takeHead
  split
  · exact h
  · dsimp only
    split
    · exact h.modCtx.enterReleasing _
    · exact h.modCtx.startSite _
    · exact h.modCtx.startSite _
    · exact h.modCtx.beginSweep _
    · exact h.modCtx.continueSweep _

theorem leaveTripped (h : Acts x p s t) : Acts x p s (leaveTripped t x) := by
  unfold Machine.leaveTripped
  split
  · split
    · exact h.nextSite
    · exact h.modCtx
  · exact h.modCtx.enterHalted
  · exact h.toIdle

theorem poke (h : Acts x p s t) : Acts x p s (poke t x) := by
  have h1 := h.placeEnd
  unfold Machine.poke
  dsimp only
  generalize Machine.placeEnd t x = u at h1
  split
  · split
    · exact h1.takeHead
    · exact h1
  · split
    · split
      · exact h1.toIdle
      · exact h1
    · split
      · exact h1.takeHead
      · exact h1
  · split
    · exact h1.arrive
    · exact h1
  · split
    · split
      · exact h1.toIdle
      · exact h1
    · split
      · exact h1.nextSite
      · exact h1
  · split
    · exact h1.leaveTripped
    · exact h1
  · exact h1
  · split
    · exact h1
    · split
      · exact h1
      · exact h1.enterReleasing _
      · split
        · exact h1.goOn _
        · exact h1.modCtx

end Acts

/-- A context that is told something acts for its own bus (R31, R50, R51). -/
theorem doMail_acts (s : State) (m : Mail) (p : Pt) : Acts m.bus p s (doMail s m) := by
  have h := fun x => Acts.refl s x p
  cases m with
  | makeDone x =>
    unfold doMail
    dsimp only
    split
    · exact (h x).settleDecision _
    · exact h x
  | makeFailed x cause =>
    unfold doMail
    dsimp only
    split
    · exact (h x).endSite cause
    · exact h x
  | makeRefused x why => exact h x
  | opened x failure =>
    unfold doMail
    dsimp only
    split
    · split
      · split
        · exact (h x).askMake
        · exact (h x).endSite _
      · exact (h x).poke
    · exact (h x).releaseAnswered failure
    · exact h x
  | quieted x ok =>
    unfold doMail
    dsimp only
    split
    · split
      · split
        · exact (h x).afterQuiet
        · exact (h x).endSite _
      · exact (h x).poke
    · split
      · exact (h x).askRelease
      · exact ((h x).releaseFails _).askRelease
    · exact h x
  | lived x ok =>
    unfold doMail
    dsimp only
    split
    · split
      · split
        · exact (h x).afterLive
        · exact (h x).endSite _
      · exact (h x).poke
    · exact h x
  | poke x => exact (h x).poke

/-- A granted point is reserved for the bus that waited for it, whose make is placed when it waits for no more (R32). -/
theorem arbitrate_acts (s : State) (q p : Pt) : arbitrate s q = s ∨
    ∃ x r, (s.ctx x).request = some (.make r) ∧ Acts x p s (arbitrate s q) := by
  cases hf : s.pointFree q with
  | false => exact .inl (by unfold arbitrate; simp [hf])
  | true =>
    cases hw : s.waiters q with
    | nil => exact .inl (by unfold arbitrate; simp [hf, hw])
    | cons x l =>
      obtain ⟨r, hr, -⟩ := request_of_mem_waiters (s := s) (p := q) (x := x) (by rw [hw]; exact List.mem_cons_self)
      refine .inr ⟨x, r, hr, ?_⟩
      obtain ⟨u, hu, harb⟩ := arbitrate_granted hf hw hr
      have hgrant : Acts x p s u := by
        rw [hu]
        exact ((Acts.refl s x p).reserve [q]).modCtxMakes (f := fun _ => (s.ctx x).granted r q)
          (fun hfirm _ ⟨r', hr', hp⟩ => hfirm.2 ⟨r, hr, by cases hr'; exact hp⟩)
      have hplace := hgrant.placeMake r.card (ps := r.points) (fun hfirm hp => hfirm.2 ⟨r, hr, hp⟩)
      rw [harb]
      split
      · split
        · exact hplace.modCtx (fun c => by split <;> rfl)
        · exact hplace.post _
      · exact hgrant

end Sys2Proof.Machine
end

