-- ==== Sys2Proof/Proofs/EndedOrders.lean ====
section
/-!
PROOFS. What follows the end of an order: the break request that waited for it only opens (R30), the lane of a card that could not be
opened is left (R25, R179), and ORDER_TIMEOUT leaves UNKNOWN crosspoints behind (R25).
-/

-- One proof after another: in the joined text each worker would hold a stack of its own.
set_option Elab.async false

namespace Sys2Proof.Machine

variable {s b e t u v : State} {x : Bus} {p : Pt} {l : LaneId} {c : CardId} {L C : Prop} {Y : Bus → Prop}

/-! ### Only opening -/

/-- A crosspoint is as it was, or an open for it has been sent. -/
def XRec.Opens (r r' : XRec) : Prop := r' = r ∨ (r.state = .closed ∧ r' = { r with state := .opening })

theorem XRec.Opens.trans {r r' r'' : XRec} (h : r.Opens r') (k : r'.Opens r'') : r.Opens r'' := by
  rcases h with rfl | ⟨hc, rfl⟩
  · exact k
  · rcases k with rfl | ⟨hc', -⟩
    · exact .inr ⟨hc, rfl⟩
    · cases hc'

/-- Only a CLOSED crosspoint can have changed. -/
theorem XRec.Opens.same {r r' : XRec} (h : r.Opens r') (hn : r.state ≠ .closed) : r' = r := h.resolve_right (fun ⟨hc, _⟩ => hn hc)

theorem XRec.Opens.claimed {r r' : XRec} (h : r.Opens r') (hn : r.state ≠ .opn) : r'.state ≠ .opn := by
  rcases h with rfl | ⟨-, rfl⟩
  · exact hn
  · nofun

/-- No crosspoint has changed but by an open that was sent. -/
def OpensOnly (s t : State) : Prop := ∀ y q, (s.xp y q).Opens (t.xp y q)

theorem OpensOnly.of_xps (h : t.matrix.xps = s.matrix.xps) : OpensOnly s t := fun y q => .inl (by rw [State.xp, h]; rfl)

theorem OpensOnly.trans (h : OpensOnly s t) (k : OpensOnly t u) : OpensOnly s u := fun y q => (h y q).trans (k y q)

theorem OpensOnly.sendOrder (s : State) (d : CardId) {o : Order} (hk : o.kind ≠ .make) : OpensOnly s (sendOrder s d o) := fun y q => by
  rw [sendOrder_xp]
  refine State.xp_modXps_keeps (P := fun r => (s.xp y q).Opens r) _ _ _ _ (fun r hr => hr.trans ?_) _ (.inl rfl)
  unfold Order.sentTo
  split
  · next h => exact absurd h hk
  · split
    · next h => exact .inr ⟨h, rfl⟩
    · exact .inl rfl

theorem OpensOnly.placeBreak (s : State) (x : Bus) (g : CardId × List Pt) : OpensOnly s (placeBreak s x g) := by
  rcases placeBreak_cases s x g with ⟨-, he⟩ | ⟨-, k, -, he⟩ | ⟨f, he⟩ <;> rw [he]
  · by_cases hl : Order.leftToOpen s ⟨.brk, x, g.2, true⟩ = []
    · rw [sendOpen_none hl]
      refine .of_xps (congrArg Matrix.xps ?_)
      rw [State.pushWork_matrix, if_pos rfl, answerOpens_matrix]
    · rw [sendOpen_some hl]
      exact .sendOrder s g.1 nofun
  · exact .of_xps rfl
  · exact .of_xps rfl

/-- A break request that an order's end lets go on only opens (R30). -/
theorem handleAwaited_opensOnly (s : State) (x : Bus) (ps : List Pt) : OpensOnly s (handleAwaited s x ps) := by
  have hbreaks : ∀ (gs : List (CardId × List Pt)) (u : State), OpensOnly s u → OpensOnly s (gs.foldl (fun s g => placeBreak s x g) u) := fun gs => by
    induction gs with
    | nil => exact fun u hu => hu
    | cons g gs ih => exact fun u hu => ih _ (hu.trans (.placeBreak u x g))
  unfold handleAwaited
  split
  · refine (hbreaks _ _ ?_).trans (.of_xps (congrArg Matrix.xps (answerOpens_matrix _ _)))
    exact .of_xps rfl
  · exact .of_xps rfl

theorem handleAwaited_noOpens (h : NoOpens s x) (ps : List Pt) : handleAwaited s x ps = s := by
  unfold handleAwaited
  split
  · next r hr => exact absurd hr (h r)
  · rfl

theorem handleAwaited_places (s : State) (x : Bus) (ps : List Pt) : Places 2048 s (handleAwaited s x ps) := by
  unfold handleAwaited
  split
  · exact (((Places.modOpens s x _).trans (.placeBreaks x _ _)).trans (.answerOpens _ x)).mono (by
      have := length_cardGroups
      simpa using this _)
  · exact (Places.refl s).mono (Nat.zero_le _)

theorem handleAwaited_answers (s : State) (x : Bus) (ps : List Pt) : AnswersOne x s (handleAwaited s x ps) := by
  unfold handleAwaited
  split
  · exact ((AnswersOne.modOpens s x _).trans (.placeBreaks x _ _)).trans (.answerOpens _ x)
  · exact .refl x s

/-! ### The lane of a card is left at the end of an order (R25, R179) -/

/-- An order of card `c`, on lane `l`, has ended in `e`, and nothing more has been done. -/
structure OrderEnded (s e : State) (l : LaneId) (c : CardId) : Prop where
  tables : e.tables = s.tables
  guard : e.guard = s.guard
  partner : (e.lane l).partner = (s.lane l).partner
  claimed : ∀ x p, s.claimed x p = true → e.claimed x p = true
  keeps : KeepsToCards e
  ctxs : e.ctxs = s.ctxs
  mail : e.mail = []
  work : e.matrixWork = []
  queue : e.queue = s.queue
  card : (e.lane l).partner = .card ∧ e.cardOnLane l = some c

/-- What the break request goes on to comes before the lane is left. -/
theorem OrderEnded.beforeLoss (h : OrderEnded s e l c) (x : Bus) (ps : List Pt) :
    BeforeLoss s ((handleAwaited e x ps).pushWork [.send c]) l := by
  have hrun : Run True True (fun _ => False) e (handleAwaited e x ps) := Run.handleAwaited x ps .refl
  have hacts := fun p => (Acts.refl e x p).handleAwaited ps
  have hkeep : Keeps (fun _ => False) e (handleAwaited e x ps) := (Keeps.refl e).handleAwaited x ps
  have hopens := handleAwaited_opensOnly e x ps
  have hplaces := handleAwaited_places e x ps
  have hmail := handleAwaited_answers e x ps
  have hsame := fun hn : NoOpens e x => handleAwaited_noOpens hn ps
  have hctx : ∀ y, e.ctx y = s.ctx y := fun y => by rw [State.ctx, h.ctxs]; rfl
  generalize handleAwaited e x ps = r at *
  have hlane : ∀ k, r.lane k = e.lane k := fun k => by rw [State.lane, hkeep.lanes]; rfl
  have hon : r.cardOnLane l = e.cardOnLane l := by
    unfold State.cardOnLane State.cardEntry
    rw [hkeep.tables]
  have hwork := hplaces.work
  rw [h.work, List.length_nil] at hwork
  have hpush : (r.pushWork [.send c]).matrixWork = insertWork r.matrixWork (.send c) := rfl
  refine ⟨hkeep.tables.trans h.tables, hkeep.guard.trans h.guard, (congrArg Lane.partner (hlane l)).trans h.partner,
    fun y p hc => ?_, ⟨(hrun.keepsToCards h.keeps).listed, (hrun.keepsToCards h.keeps).oneCard⟩, fun y => ?_, fun y q hq hno => ?_, ⟨?_, fun n hn => ?_⟩,
    ?_, fun d hd => ?_, ?_⟩
  · exact claimed_iff.2 ((hopens y p).claimed (claimed_iff.1 (h.claimed y p hc)))
  · rw [← hctx]; exact hrun.spared id
  · show (r.ctx y).request = _
    by_cases hy : y = x
    · subst hy
      rw [hsame (fun r' hr' => by rw [hctx, hq] at hr'; exact hno r' (Option.some_inj.1 hr')), hctx]
      exact hq
    · rw [((hacts 0).others y hy).1, hctx]; exact hq
  · show r.mail.length ≤ 8
    rcases hmail.mail with hm | ⟨⟨f, hm⟩, -⟩ <;> rw [hm, h.mail]
    · exact Nat.zero_le _
    · exact Nat.succ_le_succ (Nat.zero_le _)
  · have hn' : n ∈ r.mail := hn
    rcases hmail.mail with hm | ⟨⟨f, hm⟩, -⟩
    · rw [hm, h.mail] at hn'; cases hn'
    · have hask : ∃ q, (e.ctx x).request = some (.opens q) := by
        by_contra hno
        have hstill := (hmail.none (fun q hq => hno ⟨q, hq⟩)).1
        rw [hstill] at hm
        exact absurd (congrArg List.length hm) (by simp)
      rw [hm, h.mail] at hn'
      cases List.mem_singleton.1 hn'
      rw [← hctx]
      exact hask
  · rw [State.pushWork_matrixWork, length_foldl_insertWork, List.length_singleton]
    omega
  · have hd' : MatrixWork.send d ∈ r.matrixWork ∨ d = c := by
      rw [State.pushWork_matrixWork] at hd
      exact (mem_foldl_insertWork hd).elim (fun hm => .inr (by cases List.mem_singleton.1 hm; rfl)) .inl
    rcases hd' with hd' | rfl
    · exact .inl (hplaces.sends (fun d hd => by rw [h.work] at hd; cases hd) d hd')
    · exact .inr ⟨(congrArg Lane.partner (hlane l)).trans h.card.1, hon.trans h.card.2⟩
  · obtain ⟨rs, hrs, -⟩ := hkeep.records
    exact ⟨rs, by rw [State.pushWork_queue, hrs, h.queue]⟩

/-! ### What stays pending and UNKNOWN -/

/-- While an order is pending, its card takes no other tag (R21, R22). -/
theorem Move.nextTag (h : Move L C Y s t) (hs : (s.card c).pending.isSome = true) : (t.card c).nextTag = (s.card c).nextTag := by
  have hset : ∀ (d : CardId) k, (d = c → k.nextTag = (s.card d).nextTag) → ((s.setCard d k).card c).nextTag = (s.card c).nextTag := fun d k hd => by
    rw [State.card_setCard]
    split
    · next e => rw [← e]; exact hd e
    · rfl
  have hne : ∀ d, (s.card d).pending = none → d ≠ c := fun d hd e => by rw [e] at hd; rw [hd] at hs; cases hs
  cases h with
  | plain _ h => rw [h]; rfl
  | unreserve x ps => rw [State.modXps_card]
  | reserve x ps _ _ _ => rw [State.reserve_card]
  | mark x ps _ => rw [State.modXps_card]
  | shrink d k h => exact hset d k (fun _ => h.nextTag)
  | list d o _ _ _ => exact hset d _ (fun _ => rfl)
  | listFirst d l o _ _ _ _ => exact hset d _ (fun _ => rfl)
  | drop d k o hp _ _ => exact hset d k (fun e => absurd e (hne d hp))
  | sendOpen d k o hp _ =>
    rw [sendOrder_card, if_neg (hne d hp)]
    exact hset d k (fun e => absurd e (hne d hp))
  | sendMake d o rest _ hp _ _ _ =>
    rw [sendOrder_card, if_neg (hne d hp)]
    exact hset d _ (fun e => absurd e (hne d hp))
  | _ => rfl

theorem Run.nextTag (h : Run L C Y s t) (hs : (s.card c).pending.isSome = true) : (t.card c).nextTag = (s.card c).nextTag :=
  (h.keeps (P := fun u => (u.card c).pending.isSome = true ∧ (u.card c).nextTag = (s.card c).nextTag)
    (fun _ _ m hu => ⟨m.pendingStays hu.1, (m.nextTag hu.1).trans hu.2⟩) ⟨hs, rfl⟩).2

/-- Card `c` is on no ACTIVE card lane, and the cards' orders are lawful: none closes a crosspoint of it. -/
structure Unserved (s : State) (c : CardId) : Prop where
  usable : s.cardUsable c = false
  keeps : KeepsToCards s
  opens : OpensFirst s

theorem Move.unserved (h : Move True C Y s t) (hs : Unserved s c) : Unserved t c :=
  ⟨(Run.cardUsable (.single h) c).trans hs.usable, h.keepsToCards hs.keeps, h.opensFirst hs.opens⟩

theorem Move.unservedLost (h : Move True C Y s t) (hs : Unserved s c) {x : Bus} {p : Pt} (hp : cardOf p = c) (hl : (s.xp x p).Lost) :
    (t.xp x p).Lost := by
  cases h with
  | plain _ h => rw [h]; exact hl
  | unreserve y ps =>
    refine State.xp_modXps_keeps (P := XRec.Lost) _ _ _ _ (fun r hr => ?_) _ hl
    rw [XRec.unreserved, hr.1]
    exact hr
  | reserve y ps _ _ _ =>
    refine (State.xp_modXps_ne _ _ ?_).symm ▸ hl
    refine or_iff_not_imp_left.2 (fun e hm => ?_)
    have hfree := pointFree_iff.1 (List.mem_filter.1 hm).2 x
    rw [claimed_iff.2 (by rw [hl.1]; decide)] at hfree
    cases hfree
  | mark y ps hm =>
    refine (State.xp_modXps_ne _ _ ?_).symm ▸ hl
    refine or_iff_not_imp_left.2 (fun e hin => ?_)
    have hmoving := hm p hin
    rw [not_not.1 e, hl.1] at hmoving
    rcases hmoving with h | h <;> cases h
  | sendOpen d k o _ h =>
    rw [((OpensOnly.sendOrder (s.setCard d k) d (o := { o with points := o.leftToOpen s }) (h.kind hs.opens)) x p).same (by
      rw [State.xp_setCard, hl.1]; nofun)]
    exact hl
  | sendMake d o rest _ _ h _ hc =>
    have hd : d ≠ c := fun e => by
      have hu := (sendCheck_pass hc).2.2.2.1
      rw [show (s.setCard d _).cardUsable d = s.cardUsable d from rfl, e, hs.usable] at hu
      cases hu
    rw [sendOrder_xp_ne _ _ _ (.inr (fun hm => hd ((hs.keeps.listed d o (by simp [h]) p hm).symm.trans hp)))]
    exact hl
  | _ => exact hl

theorem Run.unserved (h : Run True C Y s t) (hs : Unserved s c) : Unserved t c :=
  h.keeps (P := fun u => Unserved u c) (fun _ _ m hu => m.unserved hu) hs

theorem Run.unservedLost (h : Run True C Y s t) (hs : Unserved s c) (hp : cardOf p = c) (hl : (s.xp x p).Lost) : (t.xp x p).Lost :=
  (h.keeps (P := fun u => Unserved u c ∧ (u.xp x p).Lost) (fun _ _ m hu => ⟨m.unserved hu.1, m.unservedLost hu.1 hp hu.2⟩) ⟨hs, hl⟩).2

theorem Unserved.congr (h : Unserved s c) (ht : t.tables = s.tables) (hl : t.lanes = s.lanes) (hcards : t.matrix.cards = s.matrix.cards)
    (hctxs : t.ctxs = s.ctxs) : Unserved t c :=
  ⟨(cardUsable_congr ht hl c).trans h.usable, h.keeps.sameCards hcards (fun x => by rw [State.ctx, hctxs]; exact h.keeps.oneCard x),
    opensFirst_congr hcards h.opens⟩

theorem cardEmptied_unserved (h : Unserved s c) (d : CardId) : Unserved (cardEmptied s d) c := by
  have hkeep : Keeps (fun _ => False) s (cardEmptied s d) := (Keeps.refl s).cardEmptied d
  have heq := cardEmptied_eq s d
  have hcard := cardEmptied_card s d
  generalize cardEmptied s d = u at *
  refine ⟨(cardUsable_congr hkeep.tables hkeep.lanes c).trans h.usable, ⟨fun e o ho => ?_, fun x => ?_⟩, hkeep.opensFirst h.opens⟩
  · rw [hcard] at ho
    split at ho
    · cases ho
    · exact h.keeps.listed e o ho
  · rw [heq]; exact h.keeps.oneCard x

/-- A crosspoint of a card that is lost stays so when a card's lane is left (R39). -/
theorem reportCardLoss_staysLost (h : Unserved s c) (hp : cardOf p = c) (hl : (s.xp x p).Lost) (l : LaneId) :
    Unserved (reportCardLoss s l) c ∧ ((reportCardLoss s l).xp x p).Lost := by
  cases hon : s.cardOnLane l with
  | none =>
    unfold reportCardLoss
    rw [hon]
    exact ⟨h, hl⟩
  | some d =>
    rw [reportCardLoss_eq hon]
    have hemptied : ((cardEmptied s d).xp x p).Lost := by
      rw [cardEmptied_xp]
      split
      · rw [XRec.lost, if_neg (by rw [hl.1]; nofun)]; exact ⟨rfl, rfl⟩
      · exact hl
    have h1 := cardEmptied_unserved h d
    have htold := cardTold_run s d
    have h2 := htold.unserved h1
    have hlost := htold.unservedLost h1 hp hemptied
    have hblocks := cardBlocksLost_eq (cardTold s d) d
    have hkept := cardBlocksLost_lossKeeps (cardTold s d) d
    generalize cardBlocksLost (cardTold s d) d = w at *
    have hmatrix : w.matrix = (cardTold s d).matrix := by rw [hblocks]
    have h3 : Unserved w c := h2.congr hkept.tables hkept.lanes (by rw [hmatrix]) (by rw [hblocks])
    have hw : (w.xp x p).Lost := by rw [State.xp, hmatrix]; exact hlost
    have hrun := (cardLoss_busLoss d).run (allBuses.filter (fun x => (cardPoints d).any (fun p => s.claimed x p))) w
    exact ⟨hrun.1.unserved h3, hrun.1.unservedLost h3 hp hw⟩

/-- The crosspoints that a card's last order has lost stay so when its lane is left for it (R25, R39, R179). -/
theorem laneLeave_staysLost (hk : KeepsToCards b) (ho : OpensFirst b) (hpart : (b.lane l).partner = .card)
    (hlane : (b.cardEntry c).lane = some l) (hp : cardOf p = c) (hl : (b.xp x p).Lost) (cause : LossCause) :
    ((finish (laneLeave b l cause)).xp x p).Lost := by
  rw [laneLeave_card hpart]
  have hshape := laneLeft_shape b l cause
  have hleft : ((laneLeft b l cause).lane l).state ≠ .active := by
    rw [laneLeft, State.lane_setLane_self]
    exact Lane.left_notActive _ _
  generalize laneLeft b l cause = e at *
  have hmatrix : e.matrix = b.matrix := by rw [hshape]
  have htables : e.tables = b.tables := by rw [hshape]
  have hu : Unserved e c := by
    refine ⟨?_, hk.sameCards (by rw [hmatrix]) (fun x => by rw [hshape]; exact hk.oneCard x), opensFirst_congr (by rw [hmatrix]) ho⟩
    have hentry : (e.cardEntry c).lane = some l := by rw [State.cardEntry, htables]; exact hlane
    simp [State.cardUsable, hentry, State.laneHasCard, hleft]
  obtain ⟨hu', hl'⟩ := reportCardLoss_staysLost hu hp (by rw [State.xp, hmatrix]; exact hl) l
  have hrun : Run True True (fun _ => True) (reportCardLoss e l) (drain drainBound (reportCardLoss e l)) :=
    .drain drainBound trivial (fun _ => trivial) .refl
  rw [State.xp, finish_matrix]
  exact hrun.unservedLost hu' hp hl'

end Sys2Proof.Machine
end

