-- ==== Sys2Proof/Proofs/OrderTimeouts.lean ====
section
/-!
PROOFS. ORDER_TIMEOUT (R25).
-/

-- One proof after another: in the joined text each worker would hold a stack of its own.
set_option Elab.async false

namespace Sys2Proof.Machine

variable {s : State} {c : CardId} {o : Order} {tag : Byte} {l : LaneId} {p : Pt}

theorem timedOutState_lost (s : State) (c : CardId) (hp : p ∈ o.points) : ((timedOutState s c o).xp o.bus p).Lost :=
  State.xp_modXps_makes _ _ (P := XRec.Lost) (fun _ => ⟨rfl, rfl⟩) hp

/-- After the crosspoints are UNKNOWN, the end of a timed-out order only opens (R25). -/
theorem orderTimedOut_opensOnly (s : State) (c : CardId) (o : Order) : OpensOnly (timedOutState s c o) (orderTimedOut s c o).1 := by
  by_cases hk : o.kind = .recovery
  · rw [orderTimedOut_recovery hk]
    exact (handleAwaited_opensOnly _ _ _).trans (.of_xps rfl)
  · rw [orderTimedOut_other hk]
    exact ((OpensOnly.sendOrder _ c (o := ⟨.recovery, o.bus, o.points, false⟩) nofun).trans (.of_xps (congrArg Matrix.xps (tellRequest_matrix _ _ _)))).trans
      (handleAwaited_opensOnly _ _ _)

theorem orderTimedOut_lost (s : State) (c : CardId) (hp : p ∈ o.points) : ((orderTimedOut s c o).1.xp o.bus p).Lost := by
  have hl := timedOutState_lost s c hp
  rw [(orderTimedOut_opensOnly s c o o.bus p).same (by rw [hl.1]; nofun)]
  exact hl

theorem timedOutState_keeps (s : State) (c : CardId) (o : Order) : Keeps (fun _ => False) s (timedOutState s c o) :=
  .modXps _ _ _ (fun _ => rfl) (.endPending c (.refl s))

theorem orderTimedOut_keeps (s : State) (c : CardId) (o : Order) : Keeps (fun _ => False) s (orderTimedOut s c o).1 := by
  have hended := timedOutState_keeps s c o
  by_cases hk : o.kind = .recovery
  · rw [orderTimedOut_recovery hk]
    exact (hended.handleAwaited _ _).pushWork _
  · rw [orderTimedOut_other hk]
    exact ((hended.sendOrder c _ (fun _ _ _ hm => by cases hm)).tellRequest _ _).handleAwaited _ _

theorem exec_orderTimeout (hp : (s.card c).pending = some ⟨tag, o⟩) :
    exec (.orderTimeout c) s = .next (finish (thenRecover c (orderTimedOut s.begin c o))) := by
  have hp' : (s.begin.card c).pending = some ⟨tag, o⟩ := hp
  show execOrderTimeout c s = _
  simp only [execOrderTimeout, hp']

/-- A lane is asked for RECOVER where the card has one that is ACTIVE (R179). -/
theorem askRecover_active {b : State} (hl : (b.cardEntry c).lane = some l) (ha : (b.lane l).state = .active) :
    askRecover b c = laneLeave b l .cardRequest := by
  unfold askRecover
  rw [hl]
  exact if_pos ha

theorem askRecover_cases (b : State) (c : CardId) : askRecover b c = b ∨ ∃ l, (b.cardEntry c).lane = some l ∧ askRecover b c = laneLeave b l .cardRequest := by
  unfold askRecover
  split
  · exact .inl rfl
  · next l hl =>
    split
    · exact .inr ⟨l, hl, rfl⟩
    · exact .inl rfl

/-- What the end of an order keeps, with or without the lane's leaving. -/
theorem thenRecover_leaves (c : CardId) (r : State × Bool) : (finish (thenRecover c r)).tables = r.1.tables ∧
    (finish (thenRecover c r)).guard.rack = r.1.guard.rack ∧ (finish (thenRecover c r)).guard.trips = r.1.guard.trips ∧
    (∀ x p, ((finish (thenRecover c r)).xp x p).wear = (r.1.xp x p).wear) ∧
    ∀ d, ((finish (thenRecover c r)).card d).rejectReason = (r.1.card d).rejectReason := by
  have hk := finish_lossKeeps (thenRecover c r)
  have hstay : thenRecover c r = r.1 ∨ ∃ l, thenRecover c r = laneLeave r.1 l .cardRequest := by
    unfold thenRecover
    split
    · exact (askRecover_cases r.1 c).imp id (fun ⟨l, _, h⟩ => ⟨l, h⟩)
    · exact .inl rfl
  rcases hstay with h | ⟨l, h⟩ <;> rw [h] at hk ⊢
  · exact ⟨hk.tables, hk.rack, hk.trips, hk.wear, hk.reasons⟩
  · have hleft := (laneLeave_left r.1 l .cardRequest).1.keeps hk
    exact ⟨hleft.tables, hleft.rack, hleft.trips, hleft.wear, hleft.reasons⟩

/-- A card with a pending order is on an ACTIVE card lane (R39). -/
theorem ClaimsLawful.served (hc : ClaimsLawful s) (hp : (s.card c).pending ≠ none) :
    ∃ l, (s.cardEntry c).lane = some l ∧ (s.lane l).state = .active ∧ (s.lane l).partner = .card := by
  have hu : s.cardUsable c = true := by
    by_contra hn
    exact hp ((CardCtl.idle_iff _).1 ((claimsLawful_iff.1 hc).lost c (by simpa using hn)).1).1
  unfold State.cardUsable at hu
  split at hu
  · cases hu
  · next l hl => exact ⟨l, hl, by simpa [State.laneHasCard] using hu⟩

/-- A lane has one card at most (R37). -/
theorem cardOnLane_of_lawful (ht : TablesLawful s) (hl : (s.cardEntry c).lane = some l) : s.cardOnLane l = some c := by
  obtain ⟨d, hd⟩ := Option.ne_none_iff_exists'.1 (cardOnLane_ne_none hl)
  by_cases e : d = c
  · rw [← e]; exact hd
  · exact absurd ((cardEntry_of_cardOnLane hd).trans hl.symm) (ht.2.2 d c e (by rw [cardEntry_of_cardOnLane hd]; nofun))

theorem ClaimsLawful.keepsToCards (hc : ClaimsLawful s) : KeepsToCards s := ⟨(claimsLawful_iff.1 hc).listed, (claimsLawful_iff.1 hc).oneCard⟩

theorem timedOutState_keepsToCards (h : KeepsToCards s) (c : CardId) (o : Order) : KeepsToCards (timedOutState s c o) :=
  (h.setCard c { s.card c with pending := none } (fun _ ho => .inl ho)).modXps _ _ _

theorem timedOut_ended (hq : Quiesced s) (hc : ClaimsLawful s) (hp : (s.card c).pending ≠ none) (hl : s.cardOnLane l = some c) :
    OrderEnded s (timedOutState s.begin c o) l c := by
  obtain ⟨k, hk, -, hcard⟩ := hc.served hp
  have hkl : k = l := Option.some_inj.1 (hk.symm.trans (cardEntry_of_cardOnLane hl))
  subst hkl
  have hshape : timedOutState s.begin c o = { s with out := [], matrix := (timedOutState s.begin c o).matrix } := by
    rw [timedOutState, State.modXps_eq]; rfl
  have hclaimed : ∀ x p, s.claimed x p = true → (timedOutState s.begin c o).claimed x p = true := fun x p hx => by
    rw [claimed_iff] at hx ⊢
    exact State.xp_modXps_keeps (P := fun r => r.state ≠ .opn) _ _ _ _ (fun _ _ => by simp [XRec.unsure]) _ hx
  have hkeeps : KeepsToCards (timedOutState s.begin c o) := timedOutState_keepsToCards (s := s.begin) ⟨hc.keepsToCards.listed, hc.keepsToCards.oneCard⟩ c o
  generalize timedOutState s.begin c o = u at *
  refine ⟨by rw [hshape], by rw [hshape], by rw [hshape]; rfl, hclaimed, hkeeps, by rw [hshape], ?_, ?_, by rw [hshape], ?_⟩
  · rw [hshape]; exact hq.2
  · rw [hshape]; exact hq.1
  · rw [hshape]; exact ⟨hcard, hl⟩

/-- The crosspoints of a timed-out order are UNKNOWN after the command (R25). -/
theorem orderTimeout_lost (ho : OpensFirst s) (hc : ClaimsLawful s) (hp : (s.card c).pending = some ⟨tag, o⟩) (hm : p ∈ o.points) :
    ((finish (thenRecover c (orderTimedOut s.begin c o))).xp o.bus p).Lost := by
  have hcard : cardOf p = c := ((claimsLawful_iff.1 hc).sent c _ hp p hm).1
  have hkeeps : KeepsToCards (timedOutState s.begin c o) := timedOutState_keepsToCards (s := s.begin) ⟨hc.keepsToCards.listed, hc.keepsToCards.oneCard⟩ c o
  by_cases hk : o.kind = .recovery
  · obtain ⟨l, hl, ha, hpart⟩ := hc.served (c := c) (by rw [hp]; nofun)
    have hkeep := orderTimedOut_keeps s.begin c o
    have hlost := orderTimedOut_lost (o := o) s.begin c hm
    have hstays : KeepsToCards (orderTimedOut s.begin c o).1 := by
      rw [orderTimedOut_recovery hk]
      have hrun : Run True True (fun _ => True) (timedOutState s.begin c o) (handleAwaited (timedOutState s.begin c o) o.bus o.points) :=
        Run.handleAwaited _ _ .refl
      exact ⟨(hrun.keepsToCards hkeeps).listed, (hrun.keepsToCards hkeeps).oneCard⟩
    have hrecover : (orderTimedOut s.begin c o).2 = true := by rw [orderTimedOut_recovery hk]
    have hlane : ∀ k, (orderTimedOut s.begin c o).1.lane k = s.lane k := fun k => by rw [State.lane, hkeep.lanes]; rfl
    have hentry : ((orderTimedOut s.begin c o).1.cardEntry c).lane = some l := by rw [State.cardEntry, hkeep.tables]; exact hl
    rw [thenRecover, if_pos hrecover, askRecover_active hentry (by rw [hlane]; exact ha)]
    exact laneLeave_staysLost hstays (hkeep.opensFirst ho) (by rw [hlane]; exact hpart) hentry hcard hlost .cardRequest
  · have hsent : ((recoverySent s.begin c o).xp o.bus p).Lost := by
      have hl := timedOutState_lost (o := o) s.begin c hm
      rw [show recoverySent s.begin c o = sendOrder (timedOutState s.begin c o) c ⟨.recovery, o.bus, o.points, false⟩ from rfl,
        (OpensOnly.sendOrder (timedOutState s.begin c o) c (o := ⟨.recovery, o.bus, o.points, false⟩) nofun o.bus p).same (by rw [hl.1]; nofun)]
      exact hl
    have hstill : Still (recoverySent s.begin c o) c := .inr ⟨by rw [recoverySent_pending]; rfl, hkeeps.sendOrder c _⟩
    rw [orderTimedOut_eq s.begin c hk, thenRecover, if_neg Bool.false_ne_true, State.xp, finish_matrix]
    have hrun : Run True True (fun _ => True) (recoverySent s.begin c o) (drain drainBound
        (handleAwaited (tellRequest (recoverySent s.begin c o) o (some .orderFail)) o.bus o.points)) :=
      .drain drainBound trivial (fun _ => trivial) (Run.handleAwaited _ _ (Run.tellRequest o _ .refl))
    exact hrun.staysLost hstill hcard hsent

end Sys2Proof.Machine

namespace Sys2Proof

open Machine

/-- Settles O40: by the kind of the order that has timed out. -/
theorem orderTimeoutsRecover : Obligations.OrderTimeoutsRecover := by
  unfold Obligations.OrderTimeoutsRecover
  intro s c
  refine ⟨fun hn => ?_, fun tag o hp => ⟨⟨_, exec_orderTimeout hp, ?_⟩, fun p hm => orderTimedOut_lost (o := o) s c hm⟩⟩
  · have hn' : (s.begin.card c).pending = none := hn
    show execOrderTimeout c s = _
    simp only [execOrderTimeout, hn']
    rfl
  · have hkeep := orderTimedOut_keeps s.begin c o
    obtain ⟨htables, hrack, htrips, hwear, -⟩ := thenRecover_leaves c (orderTimedOut s.begin c o)
    refine ⟨htables.trans hkeep.tables, hrack.trans (by rw [hkeep.guard]; rfl), htrips.trans (by rw [hkeep.guard]; rfl),
      fun x p => (hwear x p).trans (hkeep.wear _), fun hk => ?_, fun l hk hl ha => ?_, fun _ ho hc p hm => orderTimeout_lost ho hc hp hm⟩
    · have hstays := (finish_stays (orderTimedOut s.begin c o).1).pending (orderTimedOut_pending s.begin c hk) rfl
      have htag : ((finish (orderTimedOut s.begin c o).1).card c).nextTag = (s.card c).nextTag + 1 := by
        have hrun : Run True True (fun _ => True) (recoverySent s.begin c o) (drain drainBound
            (handleAwaited (tellRequest (recoverySent s.begin c o) o (some .orderFail)) o.bus o.points)) :=
          .drain drainBound trivial (fun _ => trivial) (Run.handleAwaited _ _ (Run.tellRequest o _ .refl))
        rw [orderTimedOut_eq s.begin c hk, State.card, finish_matrix]
        refine (hrun.nextTag (by rw [recoverySent_pending]; rfl)).trans ?_
        rw [recoverySent, sendOrder_card, if_pos rfl, State.modXps_card, endPending, State.card_setCard_self]
        rfl
      have hthen : thenRecover c (orderTimedOut s.begin c o) = (orderTimedOut s.begin c o).1 := by
        rw [orderTimedOut_eq s.begin c hk]; rfl
      rw [hthen]
      exact ⟨(finish_leaves _).2.1.trans hkeep.lanes, (finish_guard _).trans hkeep.guard, hstays, htag⟩
    · have hrecover : (orderTimedOut s.begin c o).2 = true := by rw [orderTimedOut_recovery hk]
      have hlane : ∀ k, (orderTimedOut s.begin c o).1.lane k = s.lane k := fun k => by rw [State.lane, hkeep.lanes]; rfl
      have hentry : ((orderTimedOut s.begin c o).1.cardEntry c).lane = some l := by rw [State.cardEntry, hkeep.tables]; exact hl
      have hthen : thenRecover c (orderTimedOut s.begin c o) = laneLeave (orderTimedOut s.begin c o).1 l .cardRequest := by
        rw [thenRecover, if_pos hrecover, askRecover_active hentry (by rw [hlane]; exact ha)]
      have hleft := (laneLeave_left (orderTimedOut s.begin c o).1 l .cardRequest).1.keeps (finish_lossKeeps _)
      rw [hthen]
      refine ⟨by rw [hleft.lane]; rfl, by rw [hleft.lane]; rfl, hleft.raised, hleft.resync rfl, fun k hk => (hleft.others k hk).trans (hlane k),
        fun hq ht _ hc => ?_⟩
      have hbefore := (timedOut_ended (o := o) hq hc (c := c) (l := l) (by rw [hp]; nofun) (cardOnLane_of_lawful ht hl)).beforeLoss o.bus o.points
      have heq : (orderTimedOut s.begin c o).1 = (handleAwaited (timedOutState s.begin c o) o.bus o.points).pushWork [.send c] := by
        rw [orderTimedOut_recovery hk]
      rw [heq]
      exact laneLeave_gone hbefore .cardRequest rfl

end Sys2Proof
end

