-- ==== Sys2Proof/Proofs/SpentBuses.lean ====
section
/-!
PROOFS. Crosspoints that nothing in a command's consequences changes: the UNKNOWN ones that no make request holds, and the OPEN ones of
a bus whose step has ended with nothing queued and no sweep to walk on (R67, R79, R83).
-/

-- One proof after another: in the joined text each worker would hold a stack of its own.
set_option Elab.async false

namespace Sys2Proof.Machine

variable {s t u : State} {x : Bus} {p : Pt}

/-- A piece of work acts for one bus that has a make request, or changes nothing, where no card is woken (R22, R32). -/
theorem doMatrix_acts {w : MatrixWork} {rest : List MatrixWork} (hw : s.matrixWork = w :: rest) (hs : SendsIdle s) (p : Pt) :
    doMatrix { s with matrixWork := rest } w = { s with matrixWork := rest } ∨
      ∃ x r, (s.ctx x).request = some (.make r) ∧ Acts x p s (doMatrix { s with matrixWork := rest } w) := by
  cases w with
  | send c => exact .inl (sendNext_idle (hs c (by rw [hw]; exact List.mem_cons_self)))
  | point q =>
    refine (arbitrate_acts { s with matrixWork := rest } q p).imp id (fun ⟨x, r, hr, h⟩ => ⟨x, r, hr, ?_⟩)
    exact ((Acts.refl s x p).still (u := { s with matrixWork := rest }) rfl rfl).trans h

theorem sendsIdle_mail {m : Mail} {rest : List Mail} (hs : SendsIdle s) : SendsIdle (doMail { s with mail := rest } m) :=
  (Grows.doMail { s with mail := rest } m).sends hs

/-- A firm crosspoint stays as it is through the consequences of a command. -/
theorem drain_firm (n : Nat) (hs : SendsIdle s) (hf : Firm s x p) : (drain n s).xp x p = s.xp x p := by
  induction n generalizing s with
  | zero => rfl
  | succ n ih =>
    have hacts : ∀ y u, Acts y p s u → Firm u x p ∧ u.xp x p = s.xp x p := fun y u h => by
      by_cases e : y = x
      · subst e; exact ⟨h.firm hf, (h.own hf).1⟩
      · obtain ⟨hc, hx⟩ := h.others x (Ne.symm e)
        exact ⟨⟨by rw [hx]; exact hf.1, by rw [hc]; exact hf.2⟩, hx p⟩
    cases hw : s.matrixWork with
    | cons w rest =>
      rw [drain_work hw]
      have hidle := (doMatrix_less hw hs).1
      rcases doMatrix_acts hw hs p with he | ⟨y, r, -, h⟩
      · rw [he] at hidle ⊢; exact ih hidle hf
      · obtain ⟨hf', hx⟩ := hacts y _ h
        exact (ih hidle hf').trans hx
    | nil =>
      cases hm : s.mail with
      | nil => rw [drain, hw, hm]
      | cons m rest =>
        rw [drain_mail hw hm]
        have h := ((Acts.refl s m.bus p).still (u := { s with mail := rest }) rfl rfl).trans (doMail_acts { s with mail := rest } m p)
        obtain ⟨hf', hx⟩ := hacts m.bus _ h
        exact (ih (sendsIdle_mail hs) hf').trans hx

/-! ### A bus that makes no more -/

/-- The context has no make request, no step queued and no sweep to walk on, and it is past its step's last site. -/
structure Ctx.Spent (c : Ctx) : Prop where
  queue : c.queue = []
  sweep : c.sweep.status ≠ .running
  request : ∀ r, c.request ≠ some (.make r)
  state : c.state = .posting ∨ c.state = .releasing ∨ c.state = .idle ∨ c.state = .holding ∨ c.state = .halted

/-- From `s` to `t` bus `x` has wound up: its context is spent, and no OPEN crosspoint of it has changed. -/
structure Winds (x : Bus) (s t : State) : Prop where
  spent : (t.ctx x).Spent
  opn : ∀ q, (s.xp x q).state = .opn → t.xp x q = s.xp x q

/-- A judgement sets no sweep walking (R98). -/
theorem Sweep.join_notRunning {w : Sweep} (h : w.status ≠ .running) (site : Option Site) : (w.join site).status ≠ .running := by
  unfold Sweep.join
  split
  · next hr => exact absurd hr h
  · exact h

namespace Winds

theorem still (h : Winds x s t) (hc : u.ctx x = t.ctx x) (hx : u.matrix.xps = t.matrix.xps) : Winds x s u :=
  ⟨by rw [hc]; exact h.spent, fun q hq => by rw [State.xp, hx]; exact h.opn q hq⟩

theorem post (h : Winds x s t) (m : Mail) : Winds x s (t.post m) := h.still rfl rfl

theorem setCard (h : Winds x s t) (d : CardId) (k : CardCtl) : Winds x s (t.setCard d k) := h.still rfl rfl

theorem pushWork (h : Winds x s t) (ws : List MatrixWork) : Winds x s (t.pushWork ws) :=
  h.still (by rw [State.ctx, State.pushWork_ctxs]; rfl) (congrArg Matrix.xps (State.pushWork_matrix t ws))

theorem setCtx (h : Winds x s t) {c : Ctx} (hc : c.Spent) : Winds x s (t.setCtx x c) :=
  ⟨by rw [State.ctx_setCtx_self]; exact hc, h.opn⟩

/-- The fields that say whether a context is spent stand. -/
theorem modCtx (h : Winds x s t) {f : Ctx → Ctx} (hq : (f (t.ctx x)).queue = (t.ctx x).queue := by rfl)
    (hw : (f (t.ctx x)).sweep = (t.ctx x).sweep := by rfl) (hr : (f (t.ctx x)).request = (t.ctx x).request := by rfl)
    (hs : (f (t.ctx x)).state = (t.ctx x).state ∨ (f (t.ctx x)).state = .posting ∨ (f (t.ctx x)).state = .releasing ∨
      (f (t.ctx x)).state = .idle ∨ (f (t.ctx x)).state = .holding ∨ (f (t.ctx x)).state = .halted := by exact Or.inl rfl) :
    Winds x s (t.modCtx x f) :=
  h.setCtx ⟨hq.trans h.spent.queue, by rw [hw]; exact h.spent.sweep, by rw [hr]; exact h.spent.request,
    hs.elim (fun e => by rw [e]; exact h.spent.state) id⟩

theorem asks (h : Winds x s t) (q : Option Request) (hq : ∀ r, q ≠ some (.make r) := by nofun) :
    Winds x s (t.modCtx x (fun c => { c with request := q })) := h.setCtx ⟨h.spent.queue, h.spent.sweep, hq, h.spent.state⟩

/-! ### Opening -/

theorem opens (h : Winds x s t) (hc : u.ctx x = t.ctx x) (hx : OpensOnly t u) : Winds x s u :=
  ⟨by rw [hc]; exact h.spent, fun q hq => by
    have ht := h.opn q hq
    rw [(hx x q).same (by rw [ht, hq]; nofun), ht]⟩

theorem unreserve (h : Winds x s t) (ps : List Pt) : Winds x s (t.modXps x ps XRec.unreserved) := by
  refine ⟨by rw [State.modXps_eq]; exact h.spent, fun q hq => ?_⟩
  have ht := h.opn q hq
  rw [← ht]
  rw [← ht] at hq
  exact State.xp_modXps_keeps t x x ps (P := fun r => r = t.xp x q) (fun r hr => by rw [hr, XRec.unreserved, hq]; rfl) q rfl

theorem answerOpens (h : Winds x s t) : Winds x s (answerOpens t x) := by
  unfold Machine.answerOpens
  split
  · split
    · exact (h.asks none).post _
    · exact h
  · exact h

theorem modOpens (h : Winds x s t) (f : OpenReq → OpenReq) : Winds x s (t.modOpens x f) := by
  refine h.setCtx ?_
  dsimp only
  split
  · exact ⟨h.spent.queue, h.spent.sweep, nofun, h.spent.state⟩
  · exact h.spent

theorem placeBreak (h : Winds x s t) (g : CardId × List Pt) : Winds x s (placeBreak t x g) := by
  rcases placeBreak_cases t x g with ⟨-, he⟩ | ⟨-, k, -, he⟩ | ⟨f, he⟩ <;> rw [he]
  · by_cases hl : Order.leftToOpen t ⟨.brk, x, g.2, true⟩ = []
    · rw [sendOpen_none hl, if_pos rfl]
      exact h.answerOpens.pushWork _
    · rw [sendOpen_some hl]
      exact h.opens (by rw [State.ctx, sendOrder_ctxs]; rfl) (.sendOrder t g.1 nofun)
  · exact h.setCard _ _
  · exact h.modOpens f

theorem placeBreaks (h : Winds x s t) (gs : List (CardId × List Pt)) : Winds x s (gs.foldl (fun s g => Machine.placeBreak s x g) t) := by
  induction gs generalizing t with
  | nil => exact h
  | cons g gs ih => exact ih (h.placeBreak g)

theorem opensRequest (h : Winds x s t) (ps : List Pt) : Winds x s (opensRequest t x ps) :=
  (((h.asks (some (.opens ⟨_, false, false⟩))).unreserve _).pushWork _ |>.placeBreaks _).answerOpens

/-! ### Records, releases and the end of a step -/

theorem judgeInvalid (h : Winds x s t) (cause : Cause) : Winds x s (judgeInvalid t x cause) := by
  obtain ⟨slot, m, hctx, -⟩ := judgeInvalid_leaves t x cause
  refine ⟨?_, fun q hq => by rw [State.xp, (OnlyLooks.judgeInvalid t x cause).matrix]; exact h.opn q hq⟩
  rw [hctx]
  exact ⟨h.spent.queue, Sweep.join_notRunning h.spent.sweep _, h.spent.request, h.spent.state⟩

theorem placeEnd (h : Winds x s t) : Winds x s (placeEnd t x) := by
  refine ⟨?_, fun q hq => by rw [State.xp, (OnlyLooks.placeEnd t x).matrix]; exact h.opn q hq⟩
  by_cases hs : (t.ctx x).slot ≠ none ∨ (t.ctx x).endPending = none
  · rw [placeEnd_none hs]; exact h.spent
  · obtain ⟨hn, he⟩ := not_or.1 hs
    obtain ⟨e, he⟩ := Option.ne_none_iff_exists'.1 he
    rw [placeEnd_some (not_not.1 hn) he, offered_ctx_self]
    exact ⟨h.spent.queue, h.spent.sweep, h.spent.request, h.spent.state⟩

theorem releaseFails (h : Winds x s t) (cause : Cause) : Winds x s (releaseFails t x cause) := by
  unfold Machine.releaseFails
  dsimp only
  split
  · exact (h.judgeInvalid cause).modCtx.modCtx
  · exact h.modCtx

theorem quietRequest (h : Winds x s t) : Winds x s (quietRequest t x).1 := by
  have hsource : ∀ {w : State} v, Winds x s w → Winds x s (w.setSource x v) := fun v hw => hw.modCtx
  have hemit : ∀ l f, Winds x s (t.emit l f) := fun l f => h.still rfl rfl
  unfold Machine.quietRequest
  split
  · exact h
  · split
    · exact h
    · exact h
    · exact h
    all_goals
      split
      · exact hsource _ (hemit _ _)
      · exact hsource _ h

theorem enterReleasing (h : Winds x s t) (d : Dest) : Winds x s (enterReleasing t x d) := by
  unfold Machine.enterReleasing
  dsimp only
  have h1 := (h.modCtx (f := fun c =>
    { c with state := .releasing, dest := d, relDone := false, after := .none, lastOk := false, inFlight := none })
      (hs := .inr (.inr (.inl rfl)))).quietRequest
  split
  all_goals (rename_i hq; rw [hq] at h1)
  · exact h1.asks (some .quiet)
  · exact (h1.releaseFails _).opensRequest _
  · exact h1.opensRequest _

theorem releaseAnswered (h : Winds x s t) (f : Option Cause) : Winds x s (releaseAnswered t x f) := by
  have hdone : ∀ u, Winds x s u → Winds x s ((u.modCtx x (fun c => { c with relDone := true })).post (.poke x)) :=
    fun u hu => hu.modCtx.post _
  cases f with
  | none => exact hdone t h
  | some cause =>
    unfold Machine.releaseAnswered
    dsimp only
    split
    · exact hdone _ (h.releaseFails cause)
    · exact hdone _ (Winds.releaseFails (h.still (u := t.raise .step) rfl rfl) cause)
    · exact hdone _ (h.releaseFails cause)

theorem toIdle (h : Winds x s t) : Winds x s (toIdle t x) := (h.modCtx (hs := .inr (.inr (.inr (.inl rfl))))).post _

theorem arrive (h : Winds x s t) : Winds x s (arrive t x) := by
  unfold Machine.arrive
  split
  · exact h.toIdle
  · exact (h.modCtx (f := fun c => { c with state := .halted, relDone := false }) (hs := .inr (.inr (.inr (.inr (.inr rfl)))))).still rfl rfl

theorem endStep (h : Winds x s t) : Winds x s (endStep t x) := by
  unfold Machine.endStep
  split
  · split
    · exact (h.modCtx (hs := .inr (.inr (.inr (.inr (.inl rfl)))))).post _
    · exact h.enterReleasing _
  · exact h.enterReleasing _

theorem goOn (h : Winds x s t) (a : Action) : Winds x s (goOn t x a) := by
  unfold Machine.goOn
  split
  · exact h.modCtx.enterReleasing _
  · rw [if_neg h.spent.sweep]
    exact h.endStep

theorem poke (h : Winds x s t) : Winds x s (poke t x) := by
  have h1 := h.placeEnd
  unfold Machine.poke
  dsimp only
  generalize Machine.placeEnd t x = u at h1
  rcases h1.spent.state with hs | hs | hs | hs | hs <;> rw [hs] <;> dsimp only
  · split
    · exact h1
    · split
      · exact h1
      · exact h1.enterReleasing _
      · split
        · exact h1.goOn _
        · exact h1.modCtx (hs := .inr (.inl rfl))
  · split
    · exact h1.arrive
    · exact h1
  · rw [h1.spent.queue]
    exact h1
  · split
    · split
      · exact h1.toIdle
      · exact h1
    · rw [h1.spent.queue]
      exact h1
  · exact h1

end Winds

/-- A spent context that is told something winds up (R79, R83). -/
theorem doMail_winds {m : Mail} (h : Winds m.bus s t) : Winds m.bus s (doMail t m) := by
  have hstate := h.spent.state
  have hother : ∀ st : CtxState, st.working = true → st ≠ .posting → (t.ctx m.bus).state ≠ st := fun st hw hne e => by
    rw [e] at hstate
    rcases hstate with rfl | rfl | rfl | rfl | rfl
    · exact hne rfl
    all_goals cases hw
  cases m with
  | makeDone x =>
    unfold doMail
    dsimp only
    rw [if_neg (by simp [show (t.ctx x).state ≠ .making from hother .making rfl nofun])]
    exact h
  | makeFailed x cause =>
    unfold doMail
    dsimp only
    rw [if_neg (by simp [show (t.ctx x).state ≠ .making from hother .making rfl nofun,
      show (t.ctx x).state ≠ .blocked from hother .blocked rfl nofun])]
    exact h
  | makeRefused x why => exact h
  | opened x failure =>
    unfold doMail
    dsimp only
    split
    · next e => exact absurd e (hother .breaking rfl nofun)
    · exact h.releaseAnswered failure
    · exact h
  | quieted x ok =>
    unfold doMail
    dsimp only
    split
    · next e => exact absurd e (hother .quieting rfl nofun)
    · split
      · exact h.opensRequest _
      · exact (h.releaseFails _).opensRequest _
    · exact h
  | lived x ok =>
    unfold doMail
    dsimp only
    rw [if_neg (show (t.ctx x).state ≠ .restoring from hother .restoring rfl nofun)]
    exact h
  | poke x => exact h.poke

/-- The OPEN crosspoints of a spent bus stay OPEN through the consequences of a command. -/
theorem drain_spent (n : Nat) (hs : SendsIdle s) (hc : (s.ctx x).Spent) (ho : (s.xp x p).state = .opn) : (drain n s).xp x p = s.xp x p := by
  induction n generalizing s with
  | zero => rfl
  | succ n ih =>
    have hothers : ∀ y u, y ≠ x → Acts y p s u → (u.ctx x).Spent ∧ u.xp x p = s.xp x p := fun y u hy h =>
      ⟨by rw [(h.others x (Ne.symm hy)).1]; exact hc, (h.others x (Ne.symm hy)).2 p⟩
    have hgo : ∀ u, SendsIdle u → (u.ctx x).Spent ∧ u.xp x p = s.xp x p → (drain n u).xp x p = s.xp x p := fun u hu h =>
      (ih hu h.1 (by rw [h.2]; exact ho)).trans h.2
    cases hw : s.matrixWork with
    | cons w rest =>
      rw [drain_work hw]
      have hidle := (doMatrix_less hw hs).1
      refine hgo _ hidle ?_
      rcases doMatrix_acts hw hs p with he | ⟨y, r, hr, h⟩
      · rw [he]; exact ⟨hc, rfl⟩
      · exact hothers y _ (fun e => hc.request r (e ▸ hr)) h
    | nil =>
      cases hm : s.mail with
      | nil => rw [drain, hw, hm]
      | cons m rest =>
        rw [drain_mail hw hm]
        refine hgo _ (sendsIdle_mail hs) ?_
        by_cases e : m.bus = x
        · subst e
          have h := doMail_winds (s := s) (t := { s with mail := rest }) ⟨hc, fun _ _ => rfl⟩
          exact ⟨h.spent, h.opn p ho⟩
        · exact hothers m.bus _ e (((Acts.refl s m.bus p).still (u := { s with mail := rest }) rfl rfl).trans (doMail_acts { s with mail := rest } m p))

end Sys2Proof.Machine
end

