-- ==== Sys2Proof/Proofs/Rejections.lean ====
section
/-!
PROOFS. REJECT (R24): the rejected order's crosspoints, and the recovery open that is pending for those of which nothing is known.
-/

-- One proof after another: in the joined text each worker would hold a stack of its own.
set_option Elab.async false

namespace Sys2Proof.Machine

variable {s b t u v : State} {x : Bus} {p : Pt} {l : LaneId} {c : CardId} {o : Order} {tag reason : Byte}

/-! ### A break request that goes on while its card is busy (R30) -/

/-- From `s` to `t` orders were listed on card `c` and requests were answered, and nothing else was done in the matrix. -/
structure ListsOnly (c : CardId) (s t : State) : Prop where
  rest : t = { s with ctxs := t.ctxs, mail := t.mail, matrix := t.matrix }
  xps : t.matrix.xps = s.matrix.xps
  card : ∃ l, t.card c = { s.card c with ordinary := l } ∧ (s.card c).ordinary.length ≤ l.length

theorem ListsOnly.refl (c : CardId) (s : State) : ListsOnly c s s := ⟨rfl, rfl, _, rfl, Nat.le_refl _⟩

theorem ListsOnly.trans (h : ListsOnly c s t) (k : ListsOnly c t u) : ListsOnly c s u := by
  obtain ⟨l, hl, hlen⟩ := h.card
  obtain ⟨l', hl', hlen'⟩ := k.card
  rw [hl] at hl' hlen'
  refine ⟨?_, k.xps.trans h.xps, l', hl', hlen.trans hlen'⟩
  conv_lhs => rw [k.rest, h.rest]

theorem ListsOnly.modOpens (c : CardId) (s : State) (x : Bus) (f : OpenReq → OpenReq) : ListsOnly c s (s.modOpens x f) :=
  ⟨rfl, rfl, _, rfl, Nat.le_refl _⟩

theorem ListsOnly.answerOpens (c : CardId) (s : State) (x : Bus) : ListsOnly c s (answerOpens s x) := by
  rcases answerOpens_cases s x with h | ⟨f, h⟩ <;> rw [h]
  · exact .refl c s
  · exact ⟨rfl, rfl, _, rfl, Nat.le_refl _⟩

theorem ListsOnly.busy (h : ListsOnly c s t) (hs : (s.card c).priority ≠ []) : (t.card c).priority ≠ [] := by
  obtain ⟨l, hl, -⟩ := h.card
  rw [hl]; exact hs

theorem ListsOnly.placeBreak (hs : (s.card c).priority ≠ []) (x : Bus) {g : CardId × List Pt} (hg : g.1 = c) :
    ListsOnly c s (placeBreak s x g) := by
  have hi : (s.card g.1).idle = false := by
    rw [hg, ← Bool.not_eq_true]
    exact fun h => hs ((CardCtl.idle_iff _).1 h).2.1
  unfold Machine.placeBreak
  split
  · by_cases hl : 8 ≤ (s.card g.1).ordinary.length
    · rw [placeOrdinary_full hl]
      exact .modOpens c s x _
    · rw [placeOrdinary_busy hi (Nat.not_le.1 hl), hg]
      refine ⟨rfl, rfl, _, State.card_setCard_self _ _ _, ?_⟩
      rw [List.length_append]
      exact Nat.le_add_right _ _
  · exact .modOpens c s x _

/-- A break request that goes on with crosspoints of a busy card is only listed there (R22, R30). -/
theorem handleAwaited_listsOnly (hs : (s.card c).priority ≠ []) (x : Bus) {ps : List Pt} (hps : ∀ p ∈ ps, cardOf p = c) :
    ListsOnly c s (handleAwaited s x ps) := by
  have hbreaks : ∀ (gs : List (CardId × List Pt)) (u : State), (∀ g ∈ gs, g.1 = c) → (u.card c).priority ≠ [] →
      ListsOnly c u (gs.foldl (fun s g => placeBreak s x g) u) := fun gs => by
    induction gs with
    | nil => exact fun u _ _ => .refl c u
    | cons g gs ih =>
      intro u hg hu
      have h1 := ListsOnly.placeBreak hu x (hg g List.mem_cons_self)
      exact h1.trans (ih _ (fun g' hg' => hg g' (List.mem_cons_of_mem _ hg')) (h1.busy hu))
  unfold handleAwaited
  split
  · next r hr =>
    refine ((ListsOnly.modOpens c s x _).trans (hbreaks _ _ (fun g hg => ?_) hs)).trans (.answerOpens c _ x)
    obtain ⟨q, hq⟩ := exists_mem_of_mem_cardGroups hg
    obtain ⟨hcard, hmem⟩ := mem_of_mem_cardGroups hg hq
    rw [← hcard]
    exact hps q (of_decide_eq_true (List.mem_filter.1 (List.mem_filter.1 hmem).1).2)
  · exact .refl c s

/-! ### The recovery open of a rejected order (R24) -/

/-- The recovery open of crosspoints of bus `x`. -/
def recoveryOf (x : Bus) (qs : List Pt) : Order := ⟨.recovery, x, qs, false⟩

/-- A rejected order of bus `x` has ended in `v`: a recovery open of the UNKNOWN crosspoints `qs` stands first in the list of card
`c`, which has nothing pending. -/
structure RecoversNext (v : State) (c : CardId) (x : Bus) (qs : List Pt) : Prop where
  quiesced : Quiesced v
  card : ∃ rest, (v.card c).priority = recoveryOf x qs :: rest
  pending : (v.card c).pending = none
  unknown : ∀ q ∈ qs, (v.xp x q).state = .unknown
  nonempty : qs ≠ []

/-- The recovery open goes out next (R22, R24). -/
def recoveryOut (u : State) (c : CardId) (x : Bus) (qs : List Pt) : State :=
  sendOrder (u.setCard c { u.card c with priority := (u.card c).priority.tail }) c (recoveryOf x qs)

theorem sendNext_recoversNext (hp : (u.card c).pending = none) {rest : List Order} {qs : List Pt}
    (hprio : (u.card c).priority = recoveryOf x qs :: rest) (hq : ∀ q ∈ qs, (u.xp x q).state = .unknown) (hne : qs ≠ []) :
    sendNext u c = recoveryOut u c x qs := by
  have hleft : ∀ k, (recoveryOf x qs).leftToOpen (u.setCard c k) = qs := fun k =>
    List.filter_eq_self.2 (fun q hm => by
      rw [State.xp_setCard, show (recoveryOf x qs).bus = x from rfl, hq q hm]; rfl)
  unfold sendNext recoveryOut
  dsimp only
  rw [hp, hprio, if_neg (by simp)]
  dsimp only
  rw [sendOpen_some (by rw [hleft]; exact hne), hleft]
  rfl

/-- What stands when a rejected order's recovery open is out. -/
theorem RecoversNext.delivers {qs ps : List Pt} (h : RecoversNext v c x qs) (hps : ∀ p ∈ ps, cardOf p = c) :
    Delivers 1 ((handleAwaited v x ps).pushWork [.send c]) (recoveryOut (handleAwaited v x ps) c x qs) ∧
      (∀ p, (recoveryOut (handleAwaited v x ps) c x qs).xp x p = v.xp x p) ∧
      ((recoveryOut (handleAwaited v x ps) c x qs).card c).pending = some ⟨(v.card c).nextTag, recoveryOf x qs⟩ ∧
      (recoveryOut (handleAwaited v x ps) c x qs).matrixWork = [] ∧
      (recoveryOut (handleAwaited v x ps) c x qs).ctxs = (handleAwaited v x ps).ctxs ∧
      (recoveryOut (handleAwaited v x ps) c x qs).mail = (handleAwaited v x ps).mail := by
  obtain ⟨rest, hprio⟩ := h.card
  have hlists := handleAwaited_listsOnly (s := v) (c := c) (by rw [hprio]; nofun) x hps
  generalize handleAwaited v x ps = u at hlists
  obtain ⟨l, hcard, -⟩ := hlists.card
  have hwork : u.matrixWork = [] := by rw [hlists.rest]; exact h.quiesced.1
  have hxp : ∀ p, u.xp x p = v.xp x p := fun p => by rw [State.xp, hlists.xps]; rfl
  have hsent := sendNext_recoversNext (u := u) (c := c) (x := x) (qs := qs) (rest := rest) (by rw [hcard]; exact h.pending) (by rw [hcard]; exact hprio)
    (fun q hq => by rw [hxp]; exact h.unknown q hq) h.nonempty
  have hpush : (u.pushWork [.send c]).matrixWork = [.send c] := by
    rw [State.pushWork_matrixWork, hwork]; rfl
  have hback : { u.pushWork [.send c] with matrixWork := [] } = u := by rw [← hwork]; rfl
  refine ⟨.work (.send c) [] hpush ?_, fun p => ?_, ?_, ?_, sendOrder_ctxs _ _ _, ?_⟩
  · rw [hback]
    show Delivers 0 (sendNext u c) _
    rw [hsent]
    exact .refl _
  · rw [← hxp]
    by_cases hp : p ∈ qs
    · exact (OpensOnly.sendOrder (u.setCard c _) c (o := recoveryOf x qs) nofun x p).same (by
        rw [State.xp_setCard, hxp, h.unknown p hp]; nofun)
    · exact sendOrder_xp_ne _ _ _ (.inr hp)
  · rw [recoveryOut, sendOrder_card, if_pos rfl, State.card_setCard_self, hcard]
  · rw [recoveryOut, (sendOrder_sameWork _ _ _).work]; exact hwork
  · rw [recoveryOut, (sendOrder_sameWork _ _ _).mail]; rfl

/-- After the command the recovery open is pending with the next tag, and its crosspoints are as the order's end has left them; the
others of the bus too, where the end starts nothing more. -/
theorem RecoversNext.finish {qs ps : List Pt} (h : RecoversNext v c x qs) (hps : ∀ p ∈ ps, cardOf p = c) :
    ((finish ((handleAwaited v x ps).pushWork [.send c])).card c).pending = some ⟨(v.card c).nextTag, recoveryOf x qs⟩ ∧
      (∀ p, (v.xp x p).state = .unknown → (finish ((handleAwaited v x ps).pushWork [.send c])).xp x p = v.xp x p) ∧
      (StartsNothing v x → ∀ p, (finish ((handleAwaited v x ps).pushWork [.send c])).xp x p = v.xp x p) := by
  obtain ⟨hdel, hxp, hpend, hwork, hctxs, hmail⟩ := h.delivers hps
  have hmatrix : (Machine.finish ((handleAwaited v x ps).pushWork [.send c])).matrix =
      (drain (drainBound - 1) (recoveryOut (handleAwaited v x ps) c x qs)).matrix := by
    rw [finish_matrix, hdel.drainAll (by decide)]
  have hsame := fun hn : NoOpens v x => handleAwaited_noOpens hn ps
  have hacts := fun p => (Acts.refl v x p).handleAwaited ps
  have hlets := fun hn : StartsNothing v x => handleAwaited_letsOut hn ps
  generalize recoveryOut (handleAwaited v x ps) c x qs = z at *
  refine ⟨?_, fun p hp => ?_, fun hn p => ?_⟩
  · rw [State.card, hmatrix]
    exact (drain_stays (drainBound - 1) (.refl z.matrix.cards)).pending hpend rfl
  · rw [State.xp, hmatrix]
    by_cases hn : NoOpens v x
    · have hquiet : Quiesced z := ⟨hwork, by rw [hmail, hsame hn]; exact h.quiesced.2⟩
      rw [drain_quiesced _ hquiet]
      exact hxp p
    · have hfirm : Firm v x p := ⟨hp, fun ⟨r, hr, _⟩ => hn (fun q hq => by rw [hr] at hq; cases hq)⟩
      have hz : Firm z x p := ⟨by rw [hxp]; exact hp, by
        rw [State.ctx, hctxs]; exact ((hacts p).own hfirm).2⟩
      exact (drain_firm _ (fun d hd => by rw [hwork] at hd; cases hd) hz).trans (hxp p)
  · rw [State.xp, hmatrix]
    have hl := hlets hn
    have hrest : Resting z x := by
      refine ⟨fun w hw => absurd hw (by rw [hwork]; exact List.not_mem_nil), fun m hm => ?_, fun hm => ?_⟩
      · rw [hmail] at hm
        rcases hl.mail with he | ⟨f, he⟩
        · rw [he, h.quiesced.2] at hm; cases hm
        · rw [he, h.quiesced.2] at hm
          exact .inr ⟨f, List.mem_singleton.1 hm⟩
      · rw [State.ctx, hctxs]
        exact hl.out (by rw [← hmail, h.quiesced.2]; exact hm)
    rw [drain_resting _ hrest]
    exact hxp p

end Sys2Proof.Machine
end

