-- ==== Sys2Proof/Proofs/OrdersRejected.lean ====
section
/-!
PROOFS. REJECT of the pending order (R24), by the kind of the order and what its end starts.
-/

-- One proof after another: in the joined text each worker would hold a stack of its own.
set_option Elab.async false

namespace Sys2Proof.Machine

variable {s b u v : State} {x : Bus} {p : Pt} {l : LaneId} {c : CardId} {o : Order} {tag reason : Byte}

/-! ### What a rejection does to the order's crosspoints -/

/-- What REJECT makes of a crosspoint of an order (R24). -/
def Order.rejectedTo (o : Order) : XRec → XRec :=
  match o.kind with
  | .make => XRec.makeRejected
  | .brk => XRec.breakRejected
  | .emergency => fun r => { r with state := .unknown }
  | .recovery => id

/-- The crosspoints that a rejected order leaves UNKNOWN and that are to be opened again (R24). -/
def Order.recovered (o : Order) (s : State) : List Pt :=
  match o.kind with
  | .brk => orderMarked s o
  | .emergency => o.points
  | .make | .recovery => []

theorem Order.rejectedTo_make (h : o.kind = .make) : o.rejectedTo = XRec.makeRejected := by rw [Order.rejectedTo, h]

theorem Order.rejectedTo_brk (h : o.kind = .brk) : o.rejectedTo = XRec.breakRejected := by rw [Order.rejectedTo, h]

theorem Order.rejectedTo_emergency (h : o.kind = .emergency) : o.rejectedTo = fun r => { r with state := .unknown } := by
  rw [Order.rejectedTo, h]

theorem Order.recovered_make (h : o.kind = .make) : o.recovered s = [] := by rw [Order.recovered, h]

theorem Order.recovered_brk (h : o.kind = .brk) : o.recovered s = orderMarked s o := by rw [Order.recovered, h]

theorem Order.recovered_emergency (h : o.kind = .emergency) : o.recovered s = o.points := by rw [Order.recovered, h]

theorem Order.recovered_recovery (h : o.kind = .recovery) : o.recovered s = [] := by rw [Order.recovered, h]

/-- A rejected order is over, and its crosspoints have moved (R24). -/
def endRejected (s : State) (c : CardId) (o : Order) (reason : Byte) : State :=
  (rejectedCard s c reason).modXps o.bus o.points o.rejectedTo

theorem XRec.makeRejected_idem (r : XRec) : r.makeRejected.makeRejected = r.makeRejected := by
  unfold XRec.makeRejected
  split <;> rfl

theorem XRec.breakRejected_idem (r : XRec) : r.breakRejected.breakRejected = r.breakRejected := by
  unfold XRec.breakRejected
  by_cases hm : r.mark = true
  · simp [hm]
  · by_cases hs : r.state = .opening <;> simp [hm, hs]

theorem Order.rejectedTo_idem (o : Order) (r : XRec) : o.rejectedTo (o.rejectedTo r) = o.rejectedTo r := by
  unfold Order.rejectedTo
  cases o.kind with
  | make => exact r.makeRejected_idem
  | brk => exact r.breakRejected_idem
  | emergency | recovery => rfl

theorem endRejected_xp (s : State) (c : CardId) (reason : Byte) (hp : p ∈ o.points) :
    (endRejected s c o reason).xp o.bus p = o.rejectedTo (s.xp o.bus p) :=
  State.xp_modXps_idem _ _ o.rejectedTo_idem hp

theorem endRejected_card (s : State) (c : CardId) (o : Order) (reason : Byte) :
    (endRejected s c o reason).card c = { s.card c with pending := none, rejectReason := some reason } := by
  rw [endRejected, State.modXps_card, rejectedCard, State.card_setCard_self]

theorem endRejected_rest (s : State) (c : CardId) (o : Order) (reason : Byte) :
    endRejected s c o reason = { s with matrix := (endRejected s c o reason).matrix } := by
  rw [endRejected, State.modXps_eq]; rfl

/-- A crosspoint to recover is UNKNOWN (R24). -/
theorem Order.rejectedTo_recovered (h : p ∈ o.recovered s) : p ∈ o.points ∧ (o.rejectedTo (s.xp o.bus p)).state = .unknown := by
  cases hk : o.kind with
  | make => rw [Order.recovered_make hk] at h; cases h
  | recovery => rw [Order.recovered_recovery hk] at h; cases h
  | emergency =>
    rw [Order.recovered_emergency hk] at h
    exact ⟨h, by rw [Order.rejectedTo_emergency hk]⟩
  | brk =>
    rw [Order.recovered_brk hk] at h
    obtain ⟨hp, hm⟩ := List.mem_filter.1 h
    exact ⟨hp, by rw [Order.rejectedTo_brk hk, XRec.breakRejected, if_pos hm]⟩

/-! ### The order's end -/

theorem orderRejected_recovers (c : CardId) (reason : Byte) (h : o.recovered s ≠ []) : orderRejected s c o reason =
    (tellRequest (placeAtHead (endRejected s c o reason) c (recoveryOf o.bus (o.recovered s))) o (some .orderFail), false) := by
  cases hk : o.kind with
  | make => exact absurd (Order.recovered_make hk) h
  | recovery => exact absurd (Order.recovered_recovery hk) h
  | brk =>
    have hne : (orderMarked s o).isEmpty = false := by rw [← Order.recovered_brk hk]; simpa using h
    rw [orderRejected_brk hk, breakRejectedState, hne, endRejected, Order.recovered_brk hk, Order.rejectedTo_brk hk]
    rfl
  | emergency =>
    rw [orderRejected_emergency hk, endRejected, Order.recovered_emergency hk, Order.rejectedTo_emergency hk]
    unfold tellRequest
    rw [hk]
    split <;> rfl

theorem orderRejected_ends (c : CardId) (reason : Byte) (hk : o.kind = .make ∨ o.kind = .brk) (h : o.recovered s = []) :
    orderRejected s c o reason = (tellRequest (endRejected s c o reason) o (some .orderFail), false) := by
  rcases hk with hk | hk
  · rw [orderRejected_make hk, endRejected, Order.rejectedTo_make hk]
  · rw [orderRejected_brk hk, breakRejectedState, ← Order.recovered_brk hk, h, endRejected, Order.rejectedTo_brk hk]
    rfl

/-- The crosspoints of a rejected order at its end (R24). -/
theorem orderRejected_xp (s : State) (c : CardId) (reason : Byte) (hk : o.kind ≠ .recovery) (hp : p ∈ o.points) :
    (orderRejected s c o reason).1.xp o.bus p = o.rejectedTo (s.xp o.bus p) := by
  rw [← endRejected_xp s c reason hp]
  by_cases hr : o.recovered s = []
  · have hkind : o.kind = .make ∨ o.kind = .brk := by
      cases he : o.kind with
      | make => exact .inl rfl
      | brk => exact .inr rfl
      | recovery => exact absurd he hk
      | emergency => rw [← Order.recovered_emergency (s := s) he, hr] at hp; cases hp
    rw [orderRejected_ends c reason hkind hr, State.xp, tellRequest_matrix]
    rfl
  · rw [orderRejected_recovers c reason hr, State.xp, tellRequest_matrix]
    rfl

/-- A rejection whose request nobody is told of but a break request (R24, R30). -/
theorem tellRequest_breaks (s : State) (h : o.kind = .make → o.answers = false) (f : Option Cause) :
    tellRequest s o f = s ∨ ∃ g : OpenReq → OpenReq, (∀ r, (g r).awaiting = r.awaiting) ∧ tellRequest s o f = s.modOpens o.bus g := by
  unfold tellRequest
  split
  · exact .inl rfl
  · next ha =>
    split
    · next hk => rw [h hk] at ha; exact absurd rfl ha
    · split
      · exact .inl rfl
      · exact .inr ⟨fun r => { r with laneFailed := true }, fun _ => rfl, rfl⟩
      · exact .inr ⟨fun r => { r with orderFailed := true }, fun _ => rfl, rfl⟩
    · exact .inl rfl

theorem StartsNothing.modOpens {g : OpenReq → OpenReq} (h : StartsNothing s x) (hg : ∀ r, (g r).awaiting = r.awaiting) :
    StartsNothing (s.modOpens x g) x := by
  have hctx : (s.modOpens x g).ctx x = s.ctx x ∨ ∃ r, (s.ctx x).request = some (.opens r) ∧
      (s.modOpens x g).ctx x = { s.ctx x with request := some (.opens (g r)) } := by
    rw [State.modOpens, State.modCtx, State.ctx_setCtx_self]
    split
    · next r hr => exact .inr ⟨r, hr, rfl⟩
    · exact .inl rfl
  unfold StartsNothing at h ⊢
  rcases hctx with he | ⟨r, hr, he⟩ <;> rw [he]
  · exact h
  · rcases h with h | ⟨hs, hq, ha⟩
    · rw [h] at hr; cases hr
    · refine .inr ⟨hs, hq, fun r' hr' => ?_⟩
      cases hr'
      rw [hg]; exact ha r hr

/-- What the end of a rejected order tells a break request changes contexts alone. -/
theorem tellRequest_quiet (s : State) (h : o.kind = .make → o.answers = false) (f : Option Cause) :
    (tellRequest s o f).matrix = s.matrix ∧ (tellRequest s o f).matrixWork = s.matrixWork ∧ (tellRequest s o f).mail = s.mail ∧
      (StartsNothing s o.bus → StartsNothing (tellRequest s o f) o.bus) := by
  rcases tellRequest_breaks s h f with he | ⟨g, hg, he⟩ <;> rw [he]
  · exact ⟨rfl, rfl, rfl, id⟩
  · exact ⟨rfl, rfl, rfl, fun hs => hs.modOpens hg⟩

/-! ### A rejection with crosspoints to recover -/

theorem afterReject_other (hk : o.kind ≠ .make) (r : State × Bool) :
    afterReject c o r = ((handleAwaited r.1 o.bus o.points).pushWork [.send c], r.2) := by
  rw [afterReject, if_neg hk]; rfl

theorem reject_recovers (hq : Quiesced b) (hne : o.recovered b ≠ []) (hcards : ∀ p ∈ o.points, cardOf p = c) {t : State}
    (htt : t = finish (afterReject c o (orderRejected b c o reason)).1) :
    (t.card c).pending = some ⟨(b.card c).nextTag, recoveryOf o.bus (o.recovered b)⟩ ∧
      (∀ p ∈ o.recovered b, t.xp o.bus p = o.rejectedTo (b.xp o.bus p)) ∧
      (StartsNothing b o.bus → ∀ p ∈ o.points, t.xp o.bus p = o.rejectedTo (b.xp o.bus p)) := by
  have hk : o.kind ≠ .make := fun hk => hne (Order.recovered_make hk)
  have hrest := endRejected_rest b c o reason
  have hcard := endRejected_card b c o reason
  have hxp := fun p (hp : p ∈ o.points) => endRejected_xp b c reason hp
  rw [afterReject_other hk, orderRejected_recovers c reason hne] at htt
  dsimp only at htt
  generalize endRejected b c o reason = e at hrest hcard hxp htt
  obtain ⟨hmatrix, hwork, hmail, hstarts⟩ := tellRequest_quiet (o := o) (placeAtHead e c (recoveryOf o.bus (o.recovered b)))
    (fun h => absurd h hk) (some .orderFail)
  generalize tellRequest (placeAtHead e c (recoveryOf o.bus (o.recovered b))) o (some .orderFail) = v at *
  have hvcard : v.card c = { e.card c with priority := recoveryOf o.bus (o.recovered b) :: (e.card c).priority } := by
    rw [State.card, hmatrix]; exact State.card_setCard_self _ _ _
  have hvxp : ∀ p ∈ o.points, v.xp o.bus p = o.rejectedTo (b.xp o.bus p) := fun p hp => by
    rw [← hxp p hp, State.xp, hmatrix]; rfl
  have hrecovers : RecoversNext v c o.bus (o.recovered b) := {
    quiesced := ⟨by rw [hwork]; show e.matrixWork = []; rw [hrest]; exact hq.1, by rw [hmail]; show e.mail = []; rw [hrest]; exact hq.2⟩
    card := ⟨_, by rw [hvcard]⟩
    pending := by rw [hvcard, hcard]
    unknown := fun p hp => by rw [hvxp p (Order.rejectedTo_recovered hp).1]; exact (Order.rejectedTo_recovered hp).2
    nonempty := hne }
  obtain ⟨hpend, hunknown, hall⟩ := hrecovers.finish hcards
  rw [← htt] at hpend hunknown hall
  refine ⟨?_, fun p hp => ?_, fun hs p hp => ?_⟩
  · rw [hpend, hvcard, hcard]
  · rw [hunknown p (hrecovers.unknown p hp), hvxp p (Order.rejectedTo_recovered hp).1]
  · rw [hall (hstarts (hs.congr (by show e.ctxs = b.ctxs; rw [hrest]))) p, hvxp p hp]

/-! ### A rejection that starts nothing more -/

theorem afterReject_work {w : MatrixWork} (hw : w ∈ (if o.kind = .make then o.points.map .point else []) ++ [.send c]) :
    (o.kind = .make ∧ ∃ p ∈ o.points, w = .point p) ∨ w = .send c := by
  rcases List.mem_append.1 hw with hw | hw
  · split at hw
    · next hk =>
      obtain ⟨p, hp, rfl⟩ := List.mem_map.1 hw
      exact .inl ⟨hk, p, hp, rfl⟩
    · cases hw
  · exact .inr (List.mem_singleton.1 hw)

/-- A request that is told nothing: nothing is recovered, and no make request is answered (R24). -/
theorem reject_calm (hq : Quiesced b) (hlist : NothingListed b c) (hk : o.kind = .make ∨ o.kind = .brk) (hr : o.recovered b = [])
    (hmake : o.kind = .make → o.answers = false ∧ NoWaiter b o.points) (hs : StartsNothing b o.bus) {t : State}
    (htt : t = finish (afterReject c o (orderRejected b c o reason)).1) (hp : p ∈ o.points) :
    t.xp o.bus p = o.rejectedTo (b.xp o.bus p) := by
  have hrest := endRejected_rest b c o reason
  have hcard := endRejected_card b c o reason
  have hxp := endRejected_xp b c reason hp
  rw [orderRejected_ends c reason hk hr, afterReject] at htt
  dsimp only at htt
  generalize endRejected b c o reason = e at hrest hcard hxp htt
  have hectxs : e.ctxs = b.ctxs := by rw [hrest]
  have hwaits : o.kind = .make → tellRequest e o (some .orderFail) = e := fun hk => by
    unfold tellRequest
    rw [(hmake hk).1]; rfl
  obtain ⟨hmatrix, hwork, hmail, hstarts⟩ := tellRequest_quiet (o := o) e (fun h => (hmake h).1) (some .orderFail)
  generalize tellRequest e o (some .orderFail) = v at *
  have hcalm := awaited_calm (s := v) (x := o.bus) ⟨by rw [hwork, hrest]; exact hq.1, by rw [hmail, hrest]; exact hq.2⟩
    (hstarts (hs.congr hectxs)) o.points
    (ws := (if o.kind = .make then o.points.map .point else []) ++ [.send c]) (fun w hw => by
      rcases afterReject_work hw with ⟨hk, q, hq, rfl⟩ | rfl
      · intro y
        rw [hwaits hk, show e.ctx y = b.ctx y by rw [State.ctx, State.ctx, hectxs]]
        exact (hmake hk).2 y q hq
      · refine .inr ?_
        rw [State.card, hmatrix, ← State.card, hcard]
        exact (CardCtl.idle_iff _).2 ⟨rfl, hlist.1, hlist.2⟩)
  rw [htt, State.xp, hcalm, hmatrix, ← State.xp, hxp]

/-! ### A rejected make of a bus with nothing more to do (R31, R80) -/

/-- A make request of bus `x` has failed, and the bus has nothing more to do than to end its site (R80). -/
structure FailsOut (s : State) (x : Bus) : Prop where
  work : ∀ w ∈ s.matrixWork, IdleWork s w
  mail : ∃ cause, s.mail = [.makeFailed x cause]
  queue : (s.ctx x).queue = []
  sweep : (s.ctx x).sweep.status ≠ .running
  request : (s.ctx x).request = none

theorem withdrawMake_unasked (h : (s.ctx x).request = none) : withdrawMake s x = s := by
  unfold withdrawMake
  rw [h]

/-- The site of a make that failed ends with the matrix as it is, and the bus is spent (R80). -/
theorem endSite_spent (hs : (s.ctx x).state = .making ∨ (s.ctx x).state = .blocked) (hq : (s.ctx x).queue = [])
    (hw : (s.ctx x).sweep.status ≠ .running) (hr : (s.ctx x).request = none) (cause : Cause) :
    ((endSite s x cause).ctx x).Spent ∧ (endSite s x cause).matrix = s.matrix ∧ (endSite s x cause).matrixWork = s.matrixWork := by
  have hend : endSite s x cause = ((judgeInvalid s x cause).modCtx x
      (fun c => if c.request.isNone then { c with state := .posting } else c)).post (.poke x) := by
    unfold endSite
    dsimp only
    rcases hs with hs | hs <;> rw [hs] <;> dsimp only <;> rw [withdrawMake_unasked hr]
  have hlooks := OnlyLooks.judgeInvalid s x cause
  obtain ⟨slot, m, hctx, -⟩ := judgeInvalid_leaves s x cause
  rw [hend]
  refine ⟨?_, hlooks.matrix, hlooks.work⟩
  rw [show ∀ (u : State) m, (u.post m).ctx x = u.ctx x from fun _ _ => rfl, State.modCtx, State.ctx_setCtx_self, hctx,
    show ∀ v d site, ((s.ctx x).judged v d site slot).request = none from fun _ _ _ => hr]
  have hposting : (none : Option Request).isNone = true := rfl
  rw [if_pos hposting]
  exact ⟨hq, Sweep.join_notRunning hw _, nofun, .inl rfl⟩

/-- No OPEN crosspoint of a bus changes while its failed make is told and its site ends (R80). -/
theorem drain_failsOut (n : Nat) (h : FailsOut s x) (ho : (s.xp x p).state = .opn) : (drain n s).xp x p = s.xp x p := by
  induction n generalizing s with
  | zero => rfl
  | succ n ih =>
    obtain ⟨cause, hmail⟩ := h.mail
    cases hw : s.matrixWork with
    | cons w rest =>
      have hidle : ∀ v ∈ w :: rest, IdleWork { s with matrixWork := rest } v := fun v hv => by
        have := h.work v (by rw [hw]; exact hv)
        cases v <;> exact this
      rw [drain_work hw, doMatrix_idle (hidle w List.mem_cons_self)]
      exact ih (s := { s with matrixWork := rest })
        ⟨fun v hv => hidle v (List.mem_cons_of_mem _ hv), ⟨cause, hmail⟩, h.queue, h.sweep, h.request⟩ ho
    | nil =>
      rw [drain_mail hw hmail]
      have hsends : SendsIdle { s with mail := [] } := fun d hd => by
        rw [show (State.matrixWork { s with mail := [] }) = s.matrixWork from rfl, hw] at hd; cases hd
      unfold doMail
      dsimp only
      split
      · next hc =>
        have hstate : (State.ctx { s with mail := [] } x).state = .making ∨ (State.ctx { s with mail := [] } x).state = .blocked := by
          have := (Bool.and_eq_true_iff.1 hc).1
          simpa using this
        obtain ⟨hspent, hmatrix, hwork⟩ := endSite_spent (s := { s with mail := [] }) hstate h.queue h.sweep h.request cause
        have hxp : (endSite { s with mail := [] } x cause).xp x p = s.xp x p := by rw [State.xp, hmatrix]; rfl
        refine (drain_spent n (fun d hd => ?_) hspent (by rw [hxp]; exact ho)).trans hxp
        rw [hwork] at hd
        exact absurd (show MatrixWork.send d ∈ s.matrixWork from hd) (by rw [hw]; exact List.not_mem_nil)
      · rw [drain_quiesced n (s := { s with mail := [] }) ⟨hw, rfl⟩]
        rfl

/-- A rejected make of a bus with nothing more to do leaves its crosspoints OPEN (R24, R80). -/
theorem reject_answers (hq : Quiesced b) (hlist : NothingListed b c) (hk : o.kind = .make) (ha : o.answers = true)
    (hw : NoWaiter b o.points) (hqueue : (b.ctx o.bus).queue = []) (hsweep : (b.ctx o.bus).sweep.status ≠ .running) {t : State}
    (htt : t = finish (afterReject c o (orderRejected b c o reason)).1) (hp : p ∈ o.points) (hc : (b.xp o.bus p).state = .closing) :
    t.xp o.bus p = o.rejectedTo (b.xp o.bus p) := by
  have hrest := endRejected_rest b c o reason
  have hcard := endRejected_card b c o reason
  have hxp := endRejected_xp b c reason hp
  rw [orderRejected_ends c reason (.inl hk) (Order.recovered_make hk), afterReject] at htt
  dsimp only at htt
  generalize endRejected b c o reason = e at hrest hcard hxp htt
  obtain ⟨u, hu⟩ : ∃ u, u = e.setCtx o.bus { b.ctx o.bus with request := none } := ⟨_, rfl⟩
  have hectx : ∀ y, e.ctx y = b.ctx y := fun y => by rw [hrest]; rfl
  have htell : tellRequest e o (some .orderFail) = u.post (.makeFailed o.bus .orderFail) := by
    unfold tellRequest
    rw [ha, hk, hu, ← hectx]
    rfl
  have huctx : u.ctx o.bus = { b.ctx o.bus with request := none } := by rw [hu]; exact State.ctx_setCtx_self _ _ _
  have hucard : u.card c = e.card c := by rw [hu]; rfl
  have huxp : u.xp o.bus p = e.xp o.bus p := by rw [hu]; rfl
  have huwork : u.matrixWork = [] := by rw [hu, hrest]; exact hq.1
  have humail : u.mail = [] := by rw [hu, hrest]; exact hq.2
  have huwaits : ∀ y, (u.ctx y).waitsFor = [] ∨ (u.ctx y).waitsFor = (b.ctx y).waitsFor := fun y => by
    rw [hu, State.ctx_setCtx]
    split
    · exact .inl rfl
    · rw [hectx]; exact .inr rfl
  rw [htell, handleAwaited_unasked (s := u.post (.makeFailed o.bus .orderFail)) (by
    show (u.ctx o.bus).request = none
    rw [huctx])] at htt
  have hopn : (u.xp o.bus p).state = .opn := by
    rw [huxp, hxp, Order.rejectedTo_make hk, XRec.makeRejected, if_pos hc]
  have hout : FailsOut ((u.post (.makeFailed o.bus .orderFail)).pushWork
      ((if o.kind = .make then o.points.map .point else []) ++ [.send c])) o.bus := {
    work := fun w hm => by
      rw [State.pushWork_matrixWork] at hm
      rcases mem_foldl_insertWork hm with hm | hm
      · rcases afterReject_work hm with ⟨-, q, hq, rfl⟩ | rfl
        · intro y
          show q ∉ (u.ctx y).waitsFor
          rcases huwaits y with hy | hy <;> rw [hy]
          · exact List.not_mem_nil
          · exact hw y q hq
        · refine .inr ?_
          show (u.card c).idle = true
          rw [hucard, hcard]
          exact (CardCtl.idle_iff _).2 ⟨rfl, hlist.1, hlist.2⟩
      · exact absurd (show w ∈ u.matrixWork from hm) (by rw [huwork]; exact List.not_mem_nil)
    mail := ⟨.orderFail, by show u.mail ++ _ = _; rw [humail]; rfl⟩
    queue := by show (u.ctx o.bus).queue = []; rw [huctx]; exact hqueue
    sweep := by show (u.ctx o.bus).sweep.status ≠ _; rw [huctx]; exact hsweep
    request := by show (u.ctx o.bus).request = none; rw [huctx] }
  rw [htt, State.xp, finish_matrix, ← State.xp, drain_failsOut _ hout hopn, ← hxp, ← huxp]
  rfl

/-! ### The whole command -/

theorem exec_reject (hl : (s.lane l).state = .active) (hc : s.cardOnLane l = some c) (hp : (s.card c).pending = some ⟨tag, o⟩)
    (reason : Byte) : exec (.reject l tag reason) s =
      .next (finish (thenRecover c (afterReject c o (orderRejected (goodFrame s.begin l) c o reason)))) := by
  show execReject l tag reason s = _
  unfold execReject
  dsimp only
  rw [answeredOrder_goodFrame, answeredOrder_pending hl hc hp]

theorem orderRejected_keeps (s : State) (c : CardId) (o : Order) (reason : Byte) :
    Keeps (fun _ => False) (rejectedCard s c reason) (orderRejected s c o reason).1 := by
  have hends : ∀ {f : XRec → XRec}, (∀ r, (f r).wear = r.wear) →
      Keeps (fun _ => False) (rejectedCard s c reason) ((rejectedCard s c reason).modXps o.bus o.points f) :=
    fun hf => .modXps _ _ _ hf (.refl _)
  cases hk : o.kind with
  | make => rw [orderRejected_make hk]; exact (hends XRec.makeRejected_wear).tellRequest o (some .orderFail)
  | brk =>
    rw [orderRejected_brk hk, breakRejectedState]
    dsimp only
    split
    · exact (hends XRec.breakRejected_wear).tellRequest _ _
    · exact ((hends XRec.breakRejected_wear).placeAtHead c _ (.inl rfl)).tellRequest _ _
  | emergency => rw [orderRejected_emergency hk]; exact (hends (f := fun r => { r with state := .unknown }) (fun _ => rfl)).placeAtHead c _ (.inl rfl)
  | recovery => rw [orderRejected_recovery hk]; exact .refl _

theorem afterReject_keeps (s : State) (c : CardId) (o : Order) (reason : Byte) :
    Keeps (fun _ => False) (rejectedCard s c reason) (afterReject c o (orderRejected s c o reason)).1 :=
  ((orderRejected_keeps s c o reason).handleAwaited _ _).pushWork _

/-- A rejected recovery open ends with the card as it is, but for the reason kept (R24). -/
theorem rejected_ended (hq : Quiesced s) (hc : ClaimsLawful s) (hp : (s.card c).pending ≠ none) (hl : s.cardOnLane l = some c)
    (reason : Byte) : OrderEnded s (rejectedCard (goodFrame s.begin l) c reason) l c := by
  obtain ⟨k, hk, -, hcard⟩ := hc.served hp
  have hkl : k = l := Option.some_inj.1 (hk.symm.trans (cardEntry_of_cardOnLane hl))
  subst hkl
  have hpartner := goodFrame_partner s k k
  have hshape := goodFrame_eq s k
  generalize goodFrame s.begin k = b at hpartner hshape
  have hkeeps : KeepsToCards b := by rw [hshape]; exact ⟨hc.keepsToCards.listed, hc.keepsToCards.oneCard⟩
  have hend := hkeeps.setCard c { b.card c with pending := none, rejectReason := some reason } (fun _ ho => .inl ho)
  exact ⟨by rw [hshape]; rfl, by rw [hshape]; rfl, hpartner, fun x p hx => by rw [hshape]; exact hx, hend, by rw [hshape]; rfl,
    by rw [hshape]; exact hq.2, by rw [hshape]; exact hq.1, by rw [hshape]; rfl, hpartner.trans hcard, by rw [hshape]; exact hl⟩

theorem orderRejected_flag (s : State) (c : CardId) (reason : Byte) (hk : o.kind ≠ .recovery) : (orderRejected s c o reason).2 = false := by
  cases he : o.kind with
  | make => rw [orderRejected_make he]
  | brk => rw [orderRejected_brk he]
  | emergency => rw [orderRejected_emergency he]
  | recovery => exact absurd he hk

/-- An order that is no recovery open ends with the lane as it is (R24). -/
theorem thenRecover_rejected (s : State) (c : CardId) (reason : Byte) (hk : o.kind ≠ .recovery) :
    thenRecover c (afterReject c o (orderRejected s c o reason)) = (afterReject c o (orderRejected s c o reason)).1 := by
  rw [thenRecover, show (afterReject c o (orderRejected s c o reason)).2 = false from orderRejected_flag s c reason hk]
  exact if_neg Bool.false_ne_true

theorem afterReject_recovery (reason : Byte) (hk : o.kind = .recovery) : afterReject c o (orderRejected s c o reason) =
    ((handleAwaited (rejectedCard s c reason) o.bus o.points).pushWork [.send c], true) := by
  rw [afterReject_other (by rw [hk]; nofun), orderRejected_recovery hk]

/-- A rejected recovery open takes the card's lane to RECOVER (R25, R179). -/
theorem thenRecover_recovery (reason : Byte) (hk : o.kind = .recovery) (hl : (s.lane l).state = .active) (hc : s.cardOnLane l = some c) :
    thenRecover c (afterReject c o (orderRejected s c o reason)) =
      laneLeave ((handleAwaited (rejectedCard s c reason) o.bus o.points).pushWork [.send c]) l .cardRequest := by
  have hkeep := afterReject_keeps s c o reason
  rw [afterReject_recovery reason hk] at hkeep ⊢
  rw [thenRecover, if_pos rfl]
  refine askRecover_active ?_ ?_
  · rw [State.cardEntry, hkeep.tables]; exact cardEntry_of_cardOnLane hc
  · rw [State.lane, hkeep.lanes]; exact hl

end Sys2Proof.Machine

namespace Sys2Proof

open Machine

/-- Settles O39: by the kind of the rejected order, and by what its end starts. -/
theorem rejectKeepsItsReason : Obligations.RejectKeepsItsReason := by
  unfold Obligations.RejectKeepsItsReason
  intro s l c tag reason o hl hc hp
  refine ⟨⟨_, exec_reject hl hc hp reason, ?_⟩, fun p hpt => ?_⟩
  · obtain ⟨b, hb⟩ : ∃ b, b = goodFrame s.begin l := ⟨_, rfl⟩
    have hshape := hb.trans (goodFrame_eq s l)
    have hlanes : ∀ k, k ≠ l → b.lane k = s.lane k := fun k hk => by rw [hb]; exact goodFrame_lane_ne s hk
    have hactive : (b.lane l).state = .active := by rw [hb, goodFrame_state]; exact hl
    have hbxp : ∀ y p, b.xp y p = s.xp y p := fun _ _ => by rw [hshape]; rfl
    have hbctx : ∀ y, b.ctx y = s.ctx y := fun _ => by rw [hshape]; rfl
    have hbcard : ∀ d, b.card d = s.card d := fun _ => by rw [hshape]; rfl
    have hbcards : b.cardOnLane l = some c := by rw [hshape]; exact hc
    have hkeep := afterReject_keeps b c o reason
    obtain ⟨htables, hrack, htrips, hwear, hreasons⟩ := thenRecover_leaves c (afterReject c o (orderRejected b c o reason))
    have hguard : (afterReject c o (orderRejected b c o reason)).1.guard = s.guard := by rw [hkeep.guard, hshape]; rfl
    have hlane : ∀ k, (afterReject c o (orderRejected b c o reason)).1.lane k = b.lane k := fun k => by rw [State.lane, hkeep.lanes]; rfl
    have hrecovery : o.kind = .recovery →
        LeftLane (afterReject c o (orderRejected b c o reason)).1 (finish (thenRecover c (afterReject c o (orderRejected b c o reason)))) l .cardRequest ∧
          (Quiesced s → ClaimsLawful s → LaneGone s (finish (thenRecover c (afterReject c o (orderRejected b c o reason)))) l) := fun hk => by
      rw [thenRecover_recovery reason hk hactive hbcards, afterReject_recovery reason hk]
      refine ⟨(laneLeave_left _ l .cardRequest).1.keeps (finish_lossKeeps _), fun hq hlaw => ?_⟩
      have hbefore := (rejected_ended hq hlaw (by rw [hp]; nofun) hc reason).beforeLoss o.bus o.points
      rw [← hb] at hbefore
      exact laneLeave_gone hbefore .cardRequest rfl
    rw [← hb]
    refine ⟨?_, fun d hd => ?_, ?_, by rw [htrips, hguard], by rw [hrack, hguard], fun k hk => ?_, fun x p => ?_, fun hk => ?_, fun hk => ?_,
      fun hq hcards => ?_⟩
    · rw [hreasons, hkeep.reasons, rejectedCard, State.card_setCard_self]
    · rw [hreasons, hkeep.reasons, rejectedCard, State.card_setCard, if_neg (Ne.symm hd), hbcard]
    · rw [htables, hkeep.tables, hshape]; rfl
    · rw [← hlanes k hk, ← hlane k]
      by_cases hr : o.kind = .recovery
      · exact (hrecovery hr).1.others k hk
      · rw [thenRecover_rejected b c reason hr, State.lane, (finish_leaves _).2.1]; rfl
    · exact ((hwear x p).trans (hkeep.wear _)).trans (congrArg XRec.wear (hbxp x p))
    · obtain ⟨hleft, -⟩ := hrecovery hk
      exact ⟨by rw [hleft.lane]; rfl, by rw [hleft.lane]; rfl, hleft.raised, hleft.resync rfl, fun hq hlaw => (hrecovery hk).2 hq hlaw⟩
    · rw [thenRecover_rejected b c reason hk, State.lane, (finish_leaves _).2.1, ← State.lane, hlane, hactive]
    · have hbq : Quiesced b := by rw [hshape]; exact hq
      have hstarts : StartsNothing s o.bus → StartsNothing b o.bus := fun h => h.congr (by rw [hshape]; rfl)
      have hlisted : NothingListed s c → NothingListed b c := fun h => by rw [NothingListed, hbcard]; exact h
      have hwaits : NoWaiter s o.points → NoWaiter b o.points := fun h y q hm => by rw [hbctx]; exact h y q hm
      have hmarked : orderMarked b o = orderMarked s o := by rw [hshape]; rfl
      refine ⟨fun hk hlist hw hcase p hpt hcl => ?_, fun hk => ?_, fun hk => ?_⟩
      · have hxp : (finish (thenRecover c (afterReject c o (orderRejected b c o reason)))).xp o.bus p = o.rejectedTo (b.xp o.bus p) := by
          rw [thenRecover_rejected b c reason (by rw [hk]; nofun)]
          rcases hcase with ⟨ha, hs⟩ | ⟨ha, hqueue, hsweep⟩
          · exact reject_calm hbq (hlisted hlist) (.inl hk) (Order.recovered_make hk) (fun _ => ⟨ha, hwaits hw⟩) (hstarts hs) rfl hpt
          · exact reject_answers hbq (hlisted hlist) hk ha (hwaits hw) (by rw [hbctx]; exact hqueue) (by rw [hbctx]; exact hsweep) rfl hpt
              (by rw [hbxp]; exact hcl)
        rw [hxp, hbxp, Order.rejectedTo_make hk, XRec.makeRejected, if_pos hcl]
        exact ⟨rfl, rfl⟩
      · have hr : o.recovered b = o.points := Order.recovered_emergency hk
        rw [thenRecover_rejected b c reason (by rw [hk]; nofun)]
        by_cases hne : o.points = []
        · exact ⟨fun p hpt => by rw [hne] at hpt; (cases hpt), fun h => absurd hne h⟩
        · obtain ⟨hpend, hunknown, -⟩ := reject_recovers (reason := reason) hbq (by rw [hr]; exact hne) hcards rfl
          rw [hr] at hpend hunknown
          exact ⟨fun p hpt => by rw [hunknown p hpt, Order.rejectedTo_emergency hk], fun _ => by rw [hpend, hbcard]; rfl⟩
      · have hr : o.recovered b = orderMarked s o := (Order.recovered_brk hk).trans hmarked
        rw [thenRecover_rejected b c reason (by rw [hk]; nofun)]
        have hmem : ∀ p ∈ o.points, (s.xp o.bus p).mark = true → p ∈ orderMarked s o := fun p hpt hm => List.mem_filter.2 ⟨hpt, hm⟩
        have hclosed : ∀ p, (s.xp o.bus p).mark = false → (s.xp o.bus p).state = .opening →
            (o.rejectedTo (b.xp o.bus p)).state = .closed := fun p hm hs => by
          rw [hbxp, Order.rejectedTo_brk hk, XRec.breakRejected, hm, if_neg Bool.false_ne_true, if_pos hs]
        by_cases hne : orderMarked s o = []
        · refine ⟨fun p hpt hm => ?_, fun h => absurd hne h, fun hlist hs p hpt hm hst => ?_⟩
          · have := hmem p hpt hm
            rw [hne] at this; cases this
          · rw [reject_calm hbq (hlisted hlist) (.inr hk) (hr.trans hne) (fun h => by rw [hk] at h; cases h) (hstarts hs) rfl hpt]
            exact hclosed p hm hst
        · obtain ⟨hpend, hunknown, hall⟩ := reject_recovers (reason := reason) hbq (by rw [hr]; exact hne) hcards rfl
          rw [hr] at hpend hunknown
          refine ⟨fun p hpt hm => ?_, fun _ => by rw [hpend, hbcard]; rfl, fun _ hs p hpt hm hst => ?_⟩
          · rw [hunknown p (hmem p hpt hm), hbxp, Order.rejectedTo_brk hk, XRec.breakRejected, if_pos hm]
            exact ⟨rfl, rfl⟩
          · rw [hall (hstarts hs) p hpt]
            exact hclosed p hm hst
  · have hxp := fun hk => orderRejected_xp (o := o) s c reason hk hpt
    refine ⟨fun hk hs => ?_, fun hk => ?_, fun hk hs hm => ?_, fun hk hm => ?_⟩
    · rw [hxp (by rw [hk]; nofun), Order.rejectedTo_make hk, XRec.makeRejected, if_pos hs]
    · rw [hxp (by rw [hk]; nofun), Order.rejectedTo_emergency hk]
    · rw [hxp (by rw [hk]; nofun), Order.rejectedTo_brk hk, XRec.breakRejected, hm, if_neg Bool.false_ne_true, if_pos hs]
    · rw [hxp (by rw [hk]; nofun), Order.rejectedTo_brk hk, XRec.breakRejected, if_pos hm]

end Sys2Proof
end
